-- ==== Sys2Proof/Word.lean ====
section
/-! DEFINITION. The word types of the SK6400 and the names of its places. -/

namespace Sys2Proof

/-- A byte (R4). -/
abbrev Byte := BitVec 8
/-- A halfword, the unit of instruction fetch (R25). -/
abbrev Half := BitVec 16
/-- A 32-bit word, the unit of the full/empty bit (R62, R116). -/
abbrev Word := BitVec 32
/-- A doubleword: an x register or an address (R176, R76). -/
abbrev Dword := BitVec 64
/-- A five-bit register field (R27). -/
abbrev Reg := BitVec 5

/-- The eight lanes of a vector register, lane 0 first (R176). -/
structure Lanes (α : Type) where
  l0 : α
  l1 : α
  l2 : α
  l3 : α
  l4 : α
  l5 : α
  l6 : α
  l7 : α
  deriving DecidableEq, Repr

/-- A hardware thread's place: global mesh coordinates, core and thread number (R21). -/
structure TId where
  cx : Nat
  cy : Nat
  core : Nat
  thread : Nat
  deriving DecidableEq, Repr

/-- A cluster's global mesh coordinates (R21). -/
structure CId where
  cx : Nat
  cy : Nat
  deriving DecidableEq, Repr

/-- A core's place (R21). -/
structure CoreId where
  cx : Nat
  cy : Nat
  core : Nat
  deriving DecidableEq, Repr

/-- The cluster that holds a thread. -/
def TId.cluster (t : TId) : CId := ⟨t.cx, t.cy⟩
/-- The core that holds a thread. -/
def TId.coreId (t : TId) : CoreId := ⟨t.cx, t.cy, t.core⟩
/-- The cluster that holds a core. -/
def CoreId.cluster (c : CoreId) : CId := ⟨c.cx, c.cy⟩
/-- The compute die of global mesh coordinates: cx div 50 + 4·(cy div 50) (R21). -/
def CId.die (c : CId) : BitVec 3 := BitVec.ofNat 3 (c.cx / 50 + 4 * (c.cy / 50))
/-- The compute die of a thread (R21). -/
def TId.die (t : TId) : BitVec 3 := t.cluster.die
/-- The compute die of a core (R21). -/
def CoreId.die (c : CoreId) : BitVec 3 := c.cluster.die

end Sys2Proof
end

