-- ==== Sys2Proof/Syntax.lean ====
section
/-! DEFINITION. The instructions and events of the SK6400: one constructor for each row of the opcode table.
Encoded instructions keep their fields as the layouts of R29 to R35 draw them; an event carries what names it. -/

namespace Sys2Proof

/-- What a soft error strikes (R66, R317). -/
inductive SoftTarget where
  /-- a memory cell or slice word, by its key: only the correctable case (R66) -/
  | memoryCell (key : Nat)
  /-- a thread's x registers, v registers, masks or CSRs -/
  | threadX (t : TId)
  | threadV (t : TId)
  | threadM (t : TId)
  | threadCsr (t : TId)
  /-- tile acc of a task, by the task's number: running, or saved with its tile in the pool -/
  | tile (task : Nat) (acc : BitVec 2)
  /-- one word of a column of a cluster's resident slot -/
  | slot (c : CId) (slot : BitVec 3) (col word : BitVec 4)
  /-- one root of a cluster's lattice codebook -/
  | codebook (c : CId) (root : Byte)
  deriving DecidableEq, Repr

/-- How an uncorrectable cell read is rebuilt (R67), or that it is not (R68). -/
inductive RebuildBy where
  | parity
  | tierCopy
  | lost
  deriving DecidableEq, Repr

/-- The sources of work of a FREE thread (R256, sources 1 to 3 and 5; source 4 is LAUNCH_TASK_PLACE). -/
inductive WorkSource where
  /-- a saved task, by the number of the task -/
  | saved (task : Nat)
  /-- the head of the Dispenser's MODE 0 list, or of the hint list -/
  | modeZero
  | hint
  /-- the bottom of the core's own deque -/
  | deque
  /-- a hinted item on its walk, by its number (R258) -/
  | walk (item : Nat)
  /-- the top of another core's deque -/
  | steal (victim : CoreId)
  deriving DecidableEq, Repr

/-- The synchronising forms (R126). -/
inductive SyncForm where
  | ldwFf | ldwFe | ldwNw | stwEf | stwF | purge
  deriving DecidableEq, Repr

/-- The operations of the atomics (R129). -/
inductive AmoOp where
  | add | and | or | xor | min | max | swap
  deriving DecidableEq, Repr

/-- What a request from another module asks for (R346): what a thread's access there may be. -/
inductive FabricOp where
  | read (size : BitVec 2)
  | write (size : BitVec 2) (value : BitVec 64)
  | sync (form : SyncForm) (value : BitVec 32)
  | amo (op : AmoOp) (wide : Bool) (value : BitVec 64)
  | cas (expect new : BitVec 64)
  | cas128 (expectLo expectHi newLo newHi : BitVec 64)
  | ldl
  | stu (value : BitVec 64)
  /-- a cell read whole, as a contracting load reads it -/
  | cell
  | vldc (grp : BitVec 4) (active : Byte)
  | vstc (grp : BitVec 4) (active : Byte) (lanes : Lanes Word) (rm : BitVec 3) (sat : Bool) (seed : BitVec 64)
  /-- the lock that the requesting thread holds here ends with a stop, a wait or an end of it there (R134) -/
  | unlock
  /-- a word that an engine's job reads: as stored, with its poison (R145) -/
  | jobRead
  /-- a word that an engine's job writes, and whether its data is poisoned; `whole` with the word that completes a cell which
  the job has written without poison (R145) -/
  | jobWrite (value : BitVec 32) (poison whole : Bool)
  deriving DecidableEq, Repr

/-- The requester of a request from another module: a thread there, numbered among its module's. -/
structure FabricSource where
  module : BitVec 12
  thread : BitVec 24
  deriving DecidableEq, Repr

/-- The spaces of the host ports' function (R338). -/
inductive HostBar where
  /-- BAR0: the register space -/
  | registers
  /-- BAR2: the aperture -/
  | aperture
  /-- BAR4: the boot staging buffer -/
  | staging
  deriving DecidableEq, Repr

/-- A byte offset in a space of the host ports' function. -/
structure HostOffset where
  bar : HostBar
  offset : BitVec 32
  deriving DecidableEq, Repr

/-- Where a host write comes from: its port, and its PCIe Relaxed Ordering attribute (R339). -/
structure HostWrite where
  port : Bool
  relaxed : Bool
  deriving DecidableEq, Repr

/-- What a host write carries, and where it comes from. -/
structure Posted (α : Type) where
  by_ : HostWrite
  value : α
  deriving DecidableEq, Repr

/-- The reply of a wake write of the host, and its port (R330). -/
structure HostReply where
  port : Bool
  value : Dword
  deriving DecidableEq, Repr

/-- What a vendor message reads (R349): a register; or, while the main side is down, one of a die's last log records, the
latest first, or a sensor. -/
inductive MgmtRead where
  | register (offset : BitVec 26)
  | record (die : BitVec 3) (n : Nat)
  | health (sensor : Nat)
  deriving DecidableEq, Repr

/-- An Owl monitor unit: of a cluster, of a pseudo-channel, or of a port (R340, R350). -/
inductive OwlUnit where
  | cluster (c : CId)
  | channel (stack : Nat) (channel : Nat)
  | port (n : Nat)
  deriving DecidableEq, Repr

/-- The instructions and events (spec/opcode_table.json, one constructor a row). -/
inductive Instr where
  -- SALU (R182)
  | add (rd ra rb : Reg)
  | sub (rd ra rb : Reg)
  | and (rd ra rb : Reg)
  | or (rd ra rb : Reg)
  | xor (rd ra rb : Reg)
  | shl (rd ra rb : Reg)
  | shr (rd ra rb : Reg)
  | sra (rd ra rb : Reg)
  | mul (rd ra rb : Reg)
  | mulh (rd ra rb : Reg)
  | div (rd ra rb : Reg)
  | divu (rd ra rb : Reg)
  | rem (rd ra rb : Reg)
  | remu (rd ra rb : Reg)
  | min (rd ra rb : Reg)
  | max (rd ra rb : Reg)
  -- SBIT (R182, R184)
  | clz (rd ra : Reg)
  | ctz (rd ra : Reg)
  | popc (rd ra : Reg)
  | bext (rd ra rb : Reg)
  | bins (rd ra rb : Reg)
  | slt (rd ra rb : Reg)
  | sltu (rd ra rb : Reg)
  | seq (rd ra rb : Reg)
  | sel (rd ra rb : Reg)
  | mov (rd ra : Reg)
  -- SIMM, SSHI, LIM (R185, R269)
  | addi (rd ra : Reg) (imm : BitVec 12)
  | andi (rd ra : Reg) (imm : BitVec 12)
  | ori (rd ra : Reg) (imm : BitVec 12)
  | xori (rd ra : Reg) (imm : BitVec 12)
  | shli (rd ra : Reg) (n : BitVec 6)
  | shri (rd ra : Reg) (n : BitVec 6)
  | srai (rd ra : Reg) (n : BitVec 6)
  | jalr (rd ra : Reg) (imm : BitVec 12)
  | li (rd : Reg) (imm : BitVec 17)
  | lih (rd : Reg) (imm : BitVec 15)
  | lea (rd : Reg) (imm : BitVec 17)
  -- VINT (R187): u and s are fx[1] and fx[0]
  | vadd (u s : Bool) (mk : BitVec 3) (vd va vb : Reg)
  | vsub (u s : Bool) (mk : BitVec 3) (vd va vb : Reg)
  | vmul (u s : Bool) (mk : BitVec 3) (vd va vb : Reg)
  | vmulh (u : Bool) (mk : BitVec 3) (vd va vb : Reg)
  | vand (mk : BitVec 3) (vd va vb : Reg)
  | vor (mk : BitVec 3) (vd va vb : Reg)
  | vxor (mk : BitVec 3) (vd va vb : Reg)
  | vshl (mk : BitVec 3) (vd va vb : Reg)
  | vshr (mk : BitVec 3) (vd va vb : Reg)
  | vsra (mk : BitVec 3) (vd va vb : Reg)
  | vmin (u : Bool) (mk : BitVec 3) (vd va vb : Reg)
  | vmax (u : Bool) (mk : BitVec 3) (vd va vb : Reg)
  | vsel (mk : BitVec 3) (vd va vb : Reg)
  | vbcast (mk : BitVec 3) (vd xa : Reg)
  | vpopc (mk : BitVec 3) (vd va : Reg)
  | vclz (mk : BitVec 3) (vd va : Reg)
  -- VXL (R188 to R192, R208)
  | vcmp (u : Bool) (cc : BitVec 2) (mk md : BitVec 3) (va vb : Reg)
  | vperm (z : Bool) (mk : BitVec 3) (vd va vb : Reg)
  | vshuf (z : Bool) (mk : BitVec 3) (vd va xb : Reg)
  | vext (z : Bool) (mk : BitVec 3) (xd va xb : Reg)
  | vins (mk : BitVec 3) (vd xa xb : Reg)
  | vbext (mk : BitVec 3) (vd va vb : Reg)
  | vred (u : Bool) (op : BitVec 3) (mk : BitVec 3) (xd va : Reg)
  | mand (md ma mb : BitVec 3)
  | mor (md ma mb : BitVec 3)
  | mxor (md ma mb : BitVec 3)
  | mnot (md ma : BitVec 3)
  | mpop (xd : Reg) (ma : BitVec 3)
  | mset (md : BitVec 3) (imm : BitVec 8)
  | vfcvt (from_ : Bool) (rm : BitVec 3) (sat : Bool) (fmt : BitVec 4) (vd va : Reg)
  -- VFP (R203)
  | vfadd (mk : BitVec 3) (vd va vb : Reg)
  | vfsub (mk : BitVec 3) (vd va vb : Reg)
  | vfmul (mk : BitVec 3) (vd va vb : Reg)
  | vfma (mk : BitVec 3) (vd va vb : Reg)
  | vfmin (mk : BitVec 3) (vd va vb : Reg)
  | vfmax (mk : BitVec 3) (vd va vb : Reg)
  | vfabs (mk : BitVec 3) (vd va : Reg)
  | vfneg (mk : BitVec 3) (vd va : Reg)
  | vfcmp (cc : BitVec 2) (mk md : BitVec 3) (va vb : Reg)
  | vfred (op : BitVec 2) (mk : BitVec 3) (xd va : Reg)
  | vexp (mk : BitVec 3) (vd va : Reg)
  | vexpd (mk : BitVec 3) (vd va vb : Reg)
  | vlog2 (mk : BitVec 3) (vd va : Reg)
  | vrcp (er : Bool) (mk : BitVec 3) (vd va : Reg)
  | vrsqrt (mk : BitVec 3) (vd va : Reg)
  | vhare (mk : BitVec 3) (vd xa xb : Reg)
  -- VMEM (R193 to R195)
  | vld (la : BitVec 4) (off : BitVec 5) (mk : BitVec 3) (vd xb : Reg)
  | vst (la : BitVec 4) (off : BitVec 5) (mk : BitVec 3) (vd xb : Reg)
  | vldc (la : BitVec 4) (g : BitVec 4) (mk : BitVec 3) (vd xb : Reg)
  | vstc (la : BitVec 4) (g : BitVec 4) (mk : BitVec 3) (vd xb : Reg)
  -- MAT, DRN (R238 to R242)
  | resld (la : BitVec 4) (slot : BitVec 3) (xa : Reg)
  | resldSparse (la : BitVec 4) (pat : BitVec 4) (slot : BitVec 3) (xa : Reg)
  | cbld (la : BitVec 4) (xa : Reg)
  | tzero (la : BitVec 4) (int32 : Bool) (acc : BitVec 2)
  | tload (la : BitVec 4) (int32 : Bool) (acc : BitVec 2) (xa : Reg)
  | tcov (la : BitVec 4) (xd : Reg) (acc : BitVec 2)
  | tstat (la : BitVec 4) (xd : Reg) (acc : BitVec 2)
  | tmov (la : BitVec 4) (accd accs : BitVec 2)
  | tdrain (la : BitVec 4) (sat : Bool) (rm : BitVec 3) (fmt : BitVec 4) (acc : BitVec 2) (xd xb : Reg)
  -- SHIP (R72)
  | fship (la : BitVec 4) (op : BitVec 6) (xp : BitVec 4) (xd xb : Reg)
  -- ENG (R147, R149, R152, R156 to R160, R168, R322)
  | cpy (la : BitVec 4) (xd xa xb : Reg)
  | cpy2 (la : BitVec 4) (xd xa xb : Reg)
  | gath (la : BitVec 4) (xd xa xb : Reg)
  | scat (la : BitVec 4) (xd xa xb : Reg)
  | pub (la : BitVec 4) (xd xa xb : Reg)
  | wptr (la : BitVec 4) (xd xa xb : Reg)
  | jwait (la : BitVec 4) (xd xa : Reg)
  | jpoll (la : BitVec 4) (xd xa : Reg)
  | cut (la : BitVec 4) (xd xa : Reg)
  | cocut (la : BitVec 4) (xd xa : Reg)
  | kvwalk (la : BitVec 4) (xd xa xb : Reg)
  | sqk (la : BitVec 4) (xd xa xb : Reg)
  | sqarm (la : BitVec 4) (xd xa xb : Reg)
  | sqoff (la : BitVec 4) (xd : Reg)
  | sqpf (ya : Reg)
  -- SYNC (R126 to R135)
  | ldwFf (la : BitVec 4) (order : BitVec 2) (scope : BitVec 3) (xd xb : Reg)
  | ldwFe (la : BitVec 4) (order : BitVec 2) (scope : BitVec 3) (xd xb : Reg)
  | ldwNw (la : BitVec 4) (order : BitVec 2) (scope : BitVec 3) (xd xb : Reg)
  | stwEf (la : BitVec 4) (order : BitVec 2) (scope : BitVec 3) (xs xb : Reg)
  | stwF (la : BitVec 4) (order : BitVec 2) (scope : BitVec 3) (xs xb : Reg)
  | purge (la : BitVec 4) (order : BitVec 2) (scope : BitVec 3) (xb : Reg)
  | mcst (la : BitVec 4) (xv xm xb : Reg)
  | pref (la : BitVec 4) (xb : Reg)
  | amoAddW (la : BitVec 4) (xd xv xb : Reg)
  | amoAndW (la : BitVec 4) (xd xv xb : Reg)
  | amoOrW (la : BitVec 4) (xd xv xb : Reg)
  | amoXorW (la : BitVec 4) (xd xv xb : Reg)
  | amoMinW (la : BitVec 4) (xd xv xb : Reg)
  | amoMaxW (la : BitVec 4) (xd xv xb : Reg)
  | amoSwapW (la : BitVec 4) (xd xv xb : Reg)
  | cas (la : BitVec 4) (xd xn xb : Reg)
  | amoAddD (la : BitVec 4) (xd xv xb : Reg)
  | amoAndD (la : BitVec 4) (xd xv xb : Reg)
  | amoOrD (la : BitVec 4) (xd xv xb : Reg)
  | amoXorD (la : BitVec 4) (xd xv xb : Reg)
  | amoMinD (la : BitVec 4) (xd xv xb : Reg)
  | amoMaxD (la : BitVec 4) (xd xv xb : Reg)
  | amoSwapD (la : BitVec 4) (xd xv xb : Reg)
  | cas128 (la : BitVec 4) (xd xn xb : Reg)
  | ldl (la : BitVec 4) (xd xb : Reg)
  | stu (la : BitVec 4) (xd xv xb : Reg)
  -- SCHED (R253 to R264, R329 to R336)
  | spawn (la : BitVec 4) (xc xa xb : Reg)
  | join (xa : Reg)
  | disp (la : BitVec 4) (xd xa xb : Reg)
  | depdec (la : BitVec 4) (xd xa : Reg)
  | gang (size : BitVec 5)
  | park (xd xk xh : Reg)
  | wake (la : BitVec 4) (xd xk xr : Reg)
  | pflush (la : BitVec 4) (xd xa xb : Reg)
  -- SYS (R75, R94, R282, R290, R291, R307 to R312)
  | csrr (xd : Reg) (csr : BitVec 10)
  | csrw (csr : BitVec 10) (xa : Reg)
  | csrset (xd : Reg) (csr : BitVec 10) (xa : Reg)
  | csrclr (xd : Reg) (csr : BitVec 10) (xa : Reg)
  | trap (n : BitVec 10)
  | ctxsave (xa : Reg)
  | ctxrest (xa : Reg)
  | tlbinv (xa : Reg) (n : BitVec 10)
  | idle (xd : Reg)
  | phase (scope : BitVec 3)
  | fenceRel (scope : BitVec 3)
  | fenceAcq (scope : BitVec 3)
  | bar (scope : BitVec 3) (id : BitVec 5)
  | bcnt (scope : BitVec 3) (id : BitVec 5) (xa : Reg)
  | fsload (xd xa : Reg) (slot : BitVec 6)
  -- class M (R121)
  | ldB (la : BitVec 4) (off : BitVec 12) (xd xb : Reg)
  | ldH (la : BitVec 4) (off : BitVec 12) (xd xb : Reg)
  | ldW (la : BitVec 4) (off : BitVec 12) (xd xb : Reg)
  | ldD (la : BitVec 4) (off : BitVec 12) (xd xb : Reg)
  | stB (la : BitVec 4) (off : BitVec 12) (xs xb : Reg)
  | stH (la : BitVec 4) (off : BitVec 12) (xs xb : Reg)
  | stW (la : BitVec 4) (off : BitVec 12) (xs xb : Reg)
  | stD (la : BitVec 4) (off : BitVec 12) (xs xb : Reg)
  -- class C (R226)
  | cld (la : BitVec 4) (form : BitVec 2) (fold ord : Bool) (slot : BitVec 3) (acc : BitVec 2) (xd xb xs : Reg)
  -- class B (R268 to R270)
  | beq (ra rb : Reg) (off : BitVec 17)
  | bne (ra rb : Reg) (off : BitVec 17)
  | blt (ra rb : Reg) (off : BitVec 17)
  | bge (ra rb : Reg) (off : BitVec 17)
  | bltu (ra rb : Reg) (off : BitVec 17)
  | bgeu (ra rb : Reg) (off : BitVec 17)
  | jal (xd : Reg) (off : BitVec 17)
  | loop (xs : Reg) (len : BitVec 17)
  | loopm (xb : Reg) (off : BitVec 4) (len : BitVec 17)
  -- 16-bit forms (R29, R30, R50)
  | rep (b a d : Bool) (count : BitVec 6)
  | vor16 (mk : BitVec 2) (vd va : BitVec 4)
  | vadd16 (mk : BitVec 2) (vd va : BitVec 4)
  | vsub16 (mk : BitVec 2) (vd va : BitVec 4)
  | vmul16 (mk : BitVec 2) (vd va : BitVec 4)
  | vand16 (mk : BitVec 2) (vd va : BitVec 4)
  | vxor16 (mk : BitVec 2) (vd va : BitVec 4)
  | vshl16 (mk : BitVec 2) (vd va : BitVec 4)
  | vshr16 (mk : BitVec 2) (vd va : BitVec 4)
  | vsra16 (mk : BitVec 2) (vd va : BitVec 4)
  | vmin16 (mk : BitVec 2) (vd va : BitVec 4)
  | vmax16 (mk : BitVec 2) (vd va : BitVec 4)
  | vfadd16 (mk : BitVec 2) (vd va : BitVec 4)
  | vfsub16 (mk : BitVec 2) (vd va : BitVec 4)
  | vfmul16 (mk : BitVec 2) (vd va : BitVec 4)
  | vfmin16 (mk : BitVec 2) (vd va : BitVec 4)
  | vfmax16 (mk : BitVec 2) (vd va : BitVec 4)
  -- events of threads and memory
  | windowEndWrite (t : TId)
  | badgerRoutineRun (op : BitVec 6) (addr a b : Dword)
  | cellRebuild (key : Nat) (how : RebuildBy)
  | softError (target : SoftTarget) (correctable : Bool)
  | pageZero (addr : Dword) (sub : Bool)
  | deferredReport (t : TId)
  | preemption (launch : Nat) (t : TId)
  -- events of the Launch Units and the scheduler
  | launchQueueRead (die : BitVec 3) (queue : BitVec 2)
  | launchTaskPlace (launch : Nat) (tile : Nat) (t : TId)
  | takeWork (t : TId) (source : WorkSource)
  | hintWalkHop (item : Nat)
  | taskEnd (t : TId)
  | completionTokenWrite (launch : Nat)
  -- events of the engines
  | copyJobStart (c : CId) (entry : BitVec 5)
  | copyJobWordWrite (c : CId) (entry : BitVec 5) (position : Nat)
  | shadowFrameReturn (die : BitVec 3) (frame : Nat)
  | pubSwap (c : CId) (entry : BitVec 5)
  | cutJobRun (c : CId) (entry : BitVec 5)
  | kvwalkWordWrite (c : CId) (entry : BitVec 5)
  | kvwalkHeaderPrefetch (c : CId) (entry : BitVec 5)
  | cldJobStart (c : CId) (entry : BitVec 5)
  | cldCellAdd (c : CId) (entry : BitVec 5) (request : BitVec 6)
  | squirrelRun (t : TId) (y1 : Dword)
  | hoardFill (t : TId) (cell : Dword)
  | hoardDrop (t : TId) (cell : Dword)
  -- events of the Den
  | denDemoteTier1 (page : Dword)
  | denDemoteFlash (page : Dword)
  | wakeWrite (key : BitVec 20) (reply : HostReply)
  | denStage1Frame (key : BitVec 20)
  | pagePromotionDone (page : Dword)
  -- events of the outside world
  | hostApertureRead (port : Bool) (offset : HostOffset) (size : Nat)
  | hostApertureWrite (port : Bool) (offset : BitVec 32) (size : Nat) (value : Dword) (relaxed : Bool)
  | fabricRequest (source : FabricSource) (op : FabricOp) (addr : Dword) (key : BitVec 16) (supervisor : Bool)
  | remoteFail (t : TId)
  | ucieLinkFail (a b : BitVec 3)
  | bootgoWrite (value : Posted Dword)
  | modidWrite (value : Posted Dword)
  | fabenWrite (value : Posted Dword)
  | doorbellWrite (die : Posted (BitVec 3))
  | fwtmrWrite (die : BitVec 3) (value : Posted Dword)
  | fwtmrExpire (die : BitVec 3)
  | owlClear (u : OwlUnit)
  | owlLevelSample (u : OwlUnit)
  | registerWrite (offset : BitVec 26) (value : Posted Dword)
  | mgmtReadRegister (what : MgmtRead)
  | mgmtWriteOwlctl (u : OwlUnit) (value : Dword)
  | mgmtWritePwrlim (value : Dword)
  | bootStagingBufferWrite (offset : BitVec 28) (value : Posted Byte)
  -- instructions and events without operands (R169, R262, R265, R309, R310; R348, R349, R351, R353)
  | sqend
  | wfw
  | yield
  | ungang
  | eret
  | halt
  | ebrk
  | powerUp
  | mainSideReset
  | bootVerifyDone
  | spdmGetVersion
  | spdmGetCapabilities
  | spdmNegotiateAlgorithms
  | spdmGetDigests
  | spdmGetCertificate
  | spdmChallenge
  | spdmGetMeasurements
  | mgmtAssertReset
  | mainSidePowerLoss
  deriving DecidableEq, Repr

end Sys2Proof
end

