-- ==== Sys2Proof/WellFormed.lean ====
section
/-! DEFINITION. Which instructions are well formed: the register rules of R36 and the reserved codes of R53.
A field that an instruction does not use has no place in Syntax; the decoder refuses it there (R43, R53). -/

namespace Sys2Proof

/-- A field that names a v register holds 0 in its top bit (R36). -/
def vReg (r : Reg) : Bool := !r.getLsbD 4
/-- A field that names a register pair is even (R36). -/
def evenReg (r : Reg) : Bool := !r.getLsbD 0
/-- The destination group of cut and cocut: a multiple of 4 from 4 to 28 (R168). -/
def cutGroup (r : Reg) : Bool := decide (r.toNat % 4 = 0) && decide (4 ≤ r.toNat)
/-- A scope code: 0 to 5 (R28). -/
def scopeCode (s : BitVec 3) : Bool := decide (s.toNat ≤ 5)
/-- A rounding mode: 0 to 4 (R28). -/
def roundCode (rm : BitVec 3) : Bool := decide (rm.toNat ≤ 4)
/-- An FMT4 value that vfcvt and tdrain accept: 0 to 8 (R53). -/
def convCode (f : BitVec 4) : Bool := decide (f.toNat ≤ 8)
/-- A gang-size code: 1 to 3 (R28). -/
def gangCode (g : BitVec 5) : Bool := decide (1 ≤ g.toNat) && decide (g.toNat ≤ 3)
/-- The body of a loop holds at least one halfword (R32, R53). -/
def bodyLength (len : BitVec 17) : Bool := decide (len.toNat ≠ 0)

/-- An instruction that is not reserved by its fields (R36, R53). -/
def Instr.wf : Instr → Bool
  | .add _ _ _ => true
  | .sub _ _ _ => true
  | .and _ _ _ => true
  | .or _ _ _ => true
  | .xor _ _ _ => true
  | .shl _ _ _ => true
  | .shr _ _ _ => true
  | .sra _ _ _ => true
  | .mul _ _ _ => true
  | .mulh _ _ _ => true
  | .div _ _ _ => true
  | .divu _ _ _ => true
  | .rem _ _ _ => true
  | .remu _ _ _ => true
  | .min _ _ _ => true
  | .max _ _ _ => true
  | .clz _ _ => true
  | .ctz _ _ => true
  | .popc _ _ => true
  | .bext _ _ _ => true
  | .bins _ _ _ => true
  | .slt _ _ _ => true
  | .sltu _ _ _ => true
  | .seq _ _ _ => true
  | .sel _ _ _ => true
  | .mov _ _ => true
  | .addi _ _ _ => true
  | .andi _ _ _ => true
  | .ori _ _ _ => true
  | .xori _ _ _ => true
  | .shli _ _ _ => true
  | .shri _ _ _ => true
  | .srai _ _ _ => true
  | .jalr _ _ _ => true
  | .li _ _ => true
  | .lih _ _ => true
  | .lea _ _ => true
  | .vadd _ _ _ vd va vb => vReg vd && vReg va && vReg vb
  | .vsub _ _ _ vd va vb => vReg vd && vReg va && vReg vb
  | .vmul _ _ _ vd va vb => vReg vd && vReg va && vReg vb
  | .vmulh _ _ vd va vb => vReg vd && vReg va && vReg vb
  | .vand _ vd va vb => vReg vd && vReg va && vReg vb
  | .vor _ vd va vb => vReg vd && vReg va && vReg vb
  | .vxor _ vd va vb => vReg vd && vReg va && vReg vb
  | .vshl _ vd va vb => vReg vd && vReg va && vReg vb
  | .vshr _ vd va vb => vReg vd && vReg va && vReg vb
  | .vsra _ vd va vb => vReg vd && vReg va && vReg vb
  | .vmin _ _ vd va vb => vReg vd && vReg va && vReg vb
  | .vmax _ _ vd va vb => vReg vd && vReg va && vReg vb
  | .vsel _ vd va vb => vReg vd && vReg va && vReg vb
  | .vbcast _ vd _ => vReg vd
  | .vpopc _ vd va => vReg vd && vReg va
  | .vclz _ vd va => vReg vd && vReg va
  | .vcmp _ _ _ _ va vb => vReg va && vReg vb
  | .vperm _ _ vd va vb => vReg vd && vReg va && vReg vb
  | .vshuf _ _ vd va _ => vReg vd && vReg va && evenReg va
  | .vext _ _ _ va _ => vReg va
  | .vins _ vd _ _ => vReg vd
  | .vbext _ vd va vb => vReg vd && vReg va && vReg vb && evenReg va
  | .vred _ op _ _ va => vReg va && decide (op.toNat ≤ 5)
  | .mand _ _ _ => true
  | .mor _ _ _ => true
  | .mxor _ _ _ => true
  | .mnot _ _ => true
  | .mpop _ _ => true
  | .mset _ _ => true
  | .vfcvt _ rm _ fmt vd va => vReg vd && vReg va && roundCode rm && convCode fmt
  | .vfadd _ vd va vb => vReg vd && vReg va && vReg vb
  | .vfsub _ vd va vb => vReg vd && vReg va && vReg vb
  | .vfmul _ vd va vb => vReg vd && vReg va && vReg vb
  | .vfma _ vd va vb => vReg vd && vReg va && vReg vb
  | .vfmin _ vd va vb => vReg vd && vReg va && vReg vb
  | .vfmax _ vd va vb => vReg vd && vReg va && vReg vb
  | .vfabs _ vd va => vReg vd && vReg va
  | .vfneg _ vd va => vReg vd && vReg va
  | .vfcmp _ _ _ va vb => vReg va && vReg vb
  | .vfred op _ _ va => vReg va && decide (op.toNat ≤ 2)
  | .vexp _ vd va => vReg vd && vReg va
  | .vexpd _ vd va vb => vReg vd && vReg va && vReg vb
  | .vlog2 _ vd va => vReg vd && vReg va
  | .vrcp _ _ vd va => vReg vd && vReg va
  | .vrsqrt _ vd va => vReg vd && vReg va
  | .vhare _ vd xa _ => vReg vd && evenReg xa
  | .vld _ _ _ vd _ => vReg vd
  | .vst _ _ _ vd _ => vReg vd
  | .vldc _ _ _ vd _ => vReg vd
  | .vstc _ _ _ vd _ => vReg vd
  | .resld _ _ _ => true
  | .resldSparse _ pat _ _ => decide (1 ≤ pat.toNat ∧ pat.toNat ≤ 8)
  | .cbld _ _ => true
  | .tzero _ _ _ => true
  | .tload _ _ _ _ => true
  | .tcov _ _ _ => true
  | .tstat _ _ _ => true
  | .tmov _ _ _ => true
  | .tdrain _ _ rm fmt _ _ xb => roundCode rm && convCode fmt && evenReg xb
  | .fship _ _ _ _ _ => true
  | .cpy _ _ xa _ => evenReg xa
  | .cpy2 _ _ xa xb => evenReg xa && evenReg xb
  | .gath _ _ xa xb => evenReg xa && evenReg xb
  | .scat _ _ xa xb => evenReg xa && evenReg xb
  | .pub _ _ _ _ => true
  | .wptr _ _ _ _ => true
  | .jwait _ _ _ => true
  | .jpoll _ _ _ => true
  | .cut _ xd _ => cutGroup xd
  | .cocut _ xd _ => cutGroup xd
  | .kvwalk _ _ xa xb => evenReg xa && evenReg xb
  | .sqk _ _ _ _ => true
  | .sqarm _ _ xa _ => evenReg xa
  | .sqoff _ _ => true
  | .sqpf _ => true
  | .sqend => true
  | .ldwFf _ _ scope _ _ => scopeCode scope
  | .ldwFe _ _ scope _ _ => scopeCode scope
  | .ldwNw _ _ scope _ _ => scopeCode scope
  | .stwEf _ _ scope _ _ => scopeCode scope
  | .stwF _ _ scope _ _ => scopeCode scope
  | .purge _ _ scope _ => scopeCode scope
  | .mcst _ _ _ _ => true
  | .pref _ _ => true
  | .amoAddW _ _ _ _ => true
  | .amoAndW _ _ _ _ => true
  | .amoOrW _ _ _ _ => true
  | .amoXorW _ _ _ _ => true
  | .amoMinW _ _ _ _ => true
  | .amoMaxW _ _ _ _ => true
  | .amoSwapW _ _ _ _ => true
  | .cas _ _ _ _ => true
  | .amoAddD _ _ _ _ => true
  | .amoAndD _ _ _ _ => true
  | .amoOrD _ _ _ _ => true
  | .amoXorD _ _ _ _ => true
  | .amoMinD _ _ _ _ => true
  | .amoMaxD _ _ _ _ => true
  | .amoSwapD _ _ _ _ => true
  | .cas128 _ xd xn _ => evenReg xd && evenReg xn
  | .ldl _ _ _ => true
  | .stu _ _ _ _ => true
  | .spawn _ _ _ _ => true
  | .join _ => true
  | .wfw => true
  | .disp _ _ _ _ => true
  | .depdec _ _ _ => true
  | .yield => true
  | .gang size => gangCode size
  | .ungang => true
  | .park _ _ _ => true
  | .wake _ _ _ _ => true
  | .pflush _ _ _ _ => true
  | .csrr _ _ => true
  | .csrw _ _ => true
  | .csrset _ _ _ => true
  | .csrclr _ _ _ => true
  | .trap _ => true
  | .eret => true
  | .halt => true
  | .ebrk => true
  | .ctxsave _ => true
  | .ctxrest _ => true
  | .tlbinv _ _ => true
  | .idle _ => true
  | .phase scope => scopeCode scope
  | .fenceRel scope => scopeCode scope
  | .fenceAcq scope => scopeCode scope
  | .bar scope _ => scopeCode scope
  | .bcnt scope _ _ => scopeCode scope
  | .fsload _ xa _ => evenReg xa
  | .ldB _ _ _ _ => true
  | .ldH _ _ _ _ => true
  | .ldW _ _ _ _ => true
  | .ldD _ _ _ _ => true
  | .stB _ _ _ _ => true
  | .stH _ _ _ _ => true
  | .stW _ _ _ _ => true
  | .stD _ _ _ _ => true
  | .cld _ _ _ _ _ _ _ _ _ => true
  | .beq _ _ _ => true
  | .bne _ _ _ => true
  | .blt _ _ _ => true
  | .bge _ _ _ => true
  | .bltu _ _ _ => true
  | .bgeu _ _ _ => true
  | .jal _ _ => true
  | .loop _ len => bodyLength len
  | .loopm _ _ len => bodyLength len
  | .rep _ _ _ _ => true
  | .vor16 _ _ _ => true
  | .vadd16 _ _ _ => true
  | .vsub16 _ _ _ => true
  | .vmul16 _ _ _ => true
  | .vand16 _ _ _ => true
  | .vxor16 _ _ _ => true
  | .vshl16 _ _ _ => true
  | .vshr16 _ _ _ => true
  | .vsra16 _ _ _ => true
  | .vmin16 _ _ _ => true
  | .vmax16 _ _ _ => true
  | .vfadd16 _ _ _ => true
  | .vfsub16 _ _ _ => true
  | .vfmul16 _ _ _ => true
  | .vfmin16 _ _ _ => true
  | .vfmax16 _ _ _ => true
  | .windowEndWrite _ => true
  | .badgerRoutineRun _ _ _ _ => true
  | .cellRebuild _ _ => true
  | .softError _ _ => true
  | .pageZero _ _ => true
  | .deferredReport _ => true
  | .preemption _ _ => true
  | .launchQueueRead _ _ => true
  | .launchTaskPlace _ _ _ => true
  | .takeWork _ _ => true
  | .hintWalkHop _ => true
  | .taskEnd _ => true
  | .completionTokenWrite _ => true
  | .copyJobStart _ _ => true
  | .copyJobWordWrite _ _ _ => true
  | .shadowFrameReturn _ _ => true
  | .pubSwap _ _ => true
  | .cutJobRun _ _ => true
  | .kvwalkWordWrite _ _ => true
  | .kvwalkHeaderPrefetch _ _ => true
  | .cldJobStart _ _ => true
  | .cldCellAdd _ _ _ => true
  | .squirrelRun _ _ => true
  | .hoardFill _ _ => true
  | .hoardDrop _ _ => true
  | .denDemoteTier1 _ => true
  | .denDemoteFlash _ => true
  | .wakeWrite _ _ => true
  | .denStage1Frame _ => true
  | .pagePromotionDone _ => true
  | .hostApertureRead _ _ _ => true
  | .hostApertureWrite _ _ _ _ _ => true
  | .fabricRequest _ _ _ _ _ => true
  | .remoteFail _ => true
  | .ucieLinkFail _ _ => true
  | .powerUp => true
  | .mainSideReset => true
  | .bootgoWrite _ => true
  | .bootVerifyDone => true
  | .modidWrite _ => true
  | .fabenWrite _ => true
  | .doorbellWrite _ => true
  | .fwtmrWrite _ _ => true
  | .fwtmrExpire _ => true
  | .owlClear _ => true
  | .owlLevelSample _ => true
  | .registerWrite _ _ => true
  | .spdmGetVersion => true
  | .spdmGetCapabilities => true
  | .spdmNegotiateAlgorithms => true
  | .spdmGetDigests => true
  | .spdmGetCertificate => true
  | .spdmChallenge => true
  | .spdmGetMeasurements => true
  | .mgmtReadRegister _ => true
  | .mgmtWriteOwlctl _ _ => true
  | .mgmtWritePwrlim _ => true
  | .mgmtAssertReset => true
  | .mainSidePowerLoss => true
  | .bootStagingBufferWrite _ _ => true

/-- A well-formed instruction. -/
abbrev Instr.WellFormed (i : Instr) : Prop := i.wf = true

end Sys2Proof
end

