-- ==== Sys2Proof/Decode.lean ====
section
/-! DEFINITION. The decoder (R25 to R53): total on any bytes, rejecting by name; and, after it, the encoder. -/

namespace Sys2Proof

/-- Why the bytes at a place are no instruction. -/
inductive Reject where
  /-- the bytes end before the instruction does -/
  | truncated
  /-- a function or cond value marked reserved (R53) -/
  | reservedCode
  /-- a field that the instruction does not use is not 0 (R43, R53) -/
  | unusedField
  /-- a register field breaks R36, or a code field is out of range (R53) -/
  | badField
  /-- a repeat prefix with bits 15:11 not zero (R51) -/
  | repeatPrefix
  deriving DecidableEq, Repr

/-- Field fx, bits 31:30. -/
def aFx (w : Word) : BitVec 2 := w.extractLsb' 30 2
/-- Field fn, bits 29:26. -/
def aFn (w : Word) : BitVec 4 := w.extractLsb' 26 4
/-- Field mk, bits 25:23. -/
def aMk (w : Word) : BitVec 3 := w.extractLsb' 23 3
/-- Field rb, bits 22:18. -/
def gRb (w : Word) : BitVec 5 := w.extractLsb' 18 5
/-- Field ra, bits 17:13. -/
def gRa (w : Word) : BitVec 5 := w.extractLsb' 13 5
/-- Field rd, bits 12:8. -/
def gRd (w : Word) : BitVec 5 := w.extractLsb' 8 5
/-- Field maj, bits 7:4. -/
def gMaj (w : Word) : BitVec 4 := w.extractLsb' 4 4
/-- Field imm, bits 31:20. -/
def iImm (w : Word) : BitVec 12 := w.extractLsb' 20 12
/-- Field fn, bits 19:18. -/
def iFn (w : Word) : BitVec 2 := w.extractLsb' 18 2
/-- Field imm, bits 31:15. -/
def lImm (w : Word) : BitVec 17 := w.extractLsb' 15 17
/-- Field fn, bits 14:13. -/
def lFn (w : Word) : BitVec 2 := w.extractLsb' 13 2
/-- Field la, bits 31:28. -/
def fLa (w : Word) : BitVec 4 := w.extractLsb' 28 4
/-- Field off, bits 27:23. -/
def vOff (w : Word) : BitVec 5 := w.extractLsb' 23 5
/-- Field fn, bits 22:21. -/
def vFn (w : Word) : BitVec 2 := w.extractLsb' 21 2
/-- Field mk, bits 20:18. -/
def vMk (w : Word) : BitVec 3 := w.extractLsb' 18 3
/-- Field fn, bits 27:23. -/
def eFn (w : Word) : BitVec 5 := w.extractLsb' 23 5
/-- Field res, bits 22:20. -/
def eRes (w : Word) : BitVec 3 := w.extractLsb' 20 3
/-- Field acc, bits 19:18. -/
def gAcc (w : Word) : BitVec 2 := w.extractLsb' 18 2
/-- Field sat, bits 27:27. -/
def dSat (w : Word) : BitVec 1 := w.extractLsb' 27 1
/-- Field rm, bits 26:24. -/
def dRm (w : Word) : BitVec 3 := w.extractLsb' 24 3
/-- Field fmt, bits 23:20. -/
def dFmt (w : Word) : BitVec 4 := w.extractLsb' 20 4
/-- Field op, bits 27:22. -/
def fOp (w : Word) : BitVec 6 := w.extractLsb' 22 6
/-- Field xp, bits 21:18. -/
def fXp (w : Word) : BitVec 4 := w.extractLsb' 18 4
/-- Field fn, bits 31:28. -/
def sFn (w : Word) : BitVec 4 := w.extractLsb' 28 4
/-- Field imm, bits 27:18. -/
def sImm (w : Word) : BitVec 10 := w.extractLsb' 18 10
/-- Field off, bits 27:16. -/
def mOff (w : Word) : BitVec 12 := w.extractLsb' 16 12
/-- Field xb, bits 15:11. -/
def mXb (w : Word) : BitVec 5 := w.extractLsb' 11 5
/-- Field rd, bits 10:6. -/
def mRd (w : Word) : BitVec 5 := w.extractLsb' 6 5
/-- Field op, bits 5:3. -/
def mOp (w : Word) : BitVec 3 := w.extractLsb' 3 3
/-- Field form, bits 27:26. -/
def cForm (w : Word) : BitVec 2 := w.extractLsb' 26 2
/-- Field fold, bits 25:25. -/
def cFold (w : Word) : BitVec 1 := w.extractLsb' 25 1
/-- Field ord, bits 24:24. -/
def cOrd (w : Word) : BitVec 1 := w.extractLsb' 24 1
/-- Field res, bits 23:21. -/
def cRes (w : Word) : BitVec 3 := w.extractLsb' 21 3
/-- Field acc, bits 20:19. -/
def cAcc (w : Word) : BitVec 2 := w.extractLsb' 19 2
/-- Field xs, bits 18:14. -/
def cXs (w : Word) : BitVec 5 := w.extractLsb' 14 5
/-- Field xb, bits 13:9. -/
def cXb (w : Word) : BitVec 5 := w.extractLsb' 9 5
/-- Field rd, bits 8:4. -/
def cRd (w : Word) : BitVec 5 := w.extractLsb' 4 5
/-- Field off, bits 31:15. -/
def bOff (w : Word) : BitVec 17 := w.extractLsb' 15 17
/-- Field rb, bits 14:10. -/
def bRb (w : Word) : BitVec 5 := w.extractLsb' 10 5
/-- Field ra, bits 9:5. -/
def bRa (w : Word) : BitVec 5 := w.extractLsb' 5 5
/-- Field cond, bits 4:2. -/
def bCond (w : Word) : BitVec 3 := w.extractLsb' 2 3

/-- An instruction, if every field that it does not use is 0. -/
def ifUnused (zero : Bool) (i : Instr) : Except Reject Instr :=
  if zero then .ok i else .error .unusedField

/-- Major opcode 0, SALU (R38 to R43). -/
def decodeSalu (w : Word) : Except Reject Instr :=
  match aFn w with
  | 0#4 => ifUnused (decide (aFx w = 0) && decide (aMk w = 0)) (.add (gRd w) (gRa w) (gRb w))
  | 1#4 => ifUnused (decide (aFx w = 0) && decide (aMk w = 0)) (.sub (gRd w) (gRa w) (gRb w))
  | 2#4 => ifUnused (decide (aFx w = 0) && decide (aMk w = 0)) (.and (gRd w) (gRa w) (gRb w))
  | 3#4 => ifUnused (decide (aFx w = 0) && decide (aMk w = 0)) (.or (gRd w) (gRa w) (gRb w))
  | 4#4 => ifUnused (decide (aFx w = 0) && decide (aMk w = 0)) (.xor (gRd w) (gRa w) (gRb w))
  | 5#4 => ifUnused (decide (aFx w = 0) && decide (aMk w = 0)) (.shl (gRd w) (gRa w) (gRb w))
  | 6#4 => ifUnused (decide (aFx w = 0) && decide (aMk w = 0)) (.shr (gRd w) (gRa w) (gRb w))
  | 7#4 => ifUnused (decide (aFx w = 0) && decide (aMk w = 0)) (.sra (gRd w) (gRa w) (gRb w))
  | 8#4 => ifUnused (decide (aFx w = 0) && decide (aMk w = 0)) (.mul (gRd w) (gRa w) (gRb w))
  | 9#4 => ifUnused (decide (aFx w = 0) && decide (aMk w = 0)) (.mulh (gRd w) (gRa w) (gRb w))
  | 10#4 => ifUnused (decide (aFx w = 0) && decide (aMk w = 0)) (.div (gRd w) (gRa w) (gRb w))
  | 11#4 => ifUnused (decide (aFx w = 0) && decide (aMk w = 0)) (.divu (gRd w) (gRa w) (gRb w))
  | 12#4 => ifUnused (decide (aFx w = 0) && decide (aMk w = 0)) (.rem (gRd w) (gRa w) (gRb w))
  | 13#4 => ifUnused (decide (aFx w = 0) && decide (aMk w = 0)) (.remu (gRd w) (gRa w) (gRb w))
  | 14#4 => ifUnused (decide (aFx w = 0) && decide (aMk w = 0)) (.min (gRd w) (gRa w) (gRb w))
  | 15#4 => ifUnused (decide (aFx w = 0) && decide (aMk w = 0)) (.max (gRd w) (gRa w) (gRb w))
  | _ => .error .reservedCode

/-- Major opcode 1, SBIT (R38 to R43). -/
def decodeSbit (w : Word) : Except Reject Instr :=
  match aFn w with
  | 0#4 => ifUnused (decide (aFx w = 0) && decide (aMk w = 0) && decide (gRb w = 0)) (.clz (gRd w) (gRa w))
  | 1#4 => ifUnused (decide (aFx w = 0) && decide (aMk w = 0) && decide (gRb w = 0)) (.ctz (gRd w) (gRa w))
  | 2#4 => ifUnused (decide (aFx w = 0) && decide (aMk w = 0) && decide (gRb w = 0)) (.popc (gRd w) (gRa w))
  | 3#4 => ifUnused (decide (aFx w = 0) && decide (aMk w = 0)) (.bext (gRd w) (gRa w) (gRb w))
  | 4#4 => ifUnused (decide (aFx w = 0) && decide (aMk w = 0)) (.bins (gRd w) (gRa w) (gRb w))
  | 5#4 => ifUnused (decide (aFx w = 0) && decide (aMk w = 0)) (.slt (gRd w) (gRa w) (gRb w))
  | 6#4 => ifUnused (decide (aFx w = 0) && decide (aMk w = 0)) (.sltu (gRd w) (gRa w) (gRb w))
  | 7#4 => ifUnused (decide (aFx w = 0) && decide (aMk w = 0)) (.seq (gRd w) (gRa w) (gRb w))
  | 8#4 => ifUnused (decide (aFx w = 0) && decide (aMk w = 0)) (.sel (gRd w) (gRa w) (gRb w))
  | 9#4 => ifUnused (decide (aFx w = 0) && decide (aMk w = 0) && decide (gRb w = 0)) (.mov (gRd w) (gRa w))
  | _ => .error .reservedCode

/-- Major opcode 2, SIMM (R38 to R43). -/
def decodeSimm (w : Word) : Except Reject Instr :=
  match iFn w with
  | 0#2 => .ok (.addi (gRd w) (gRa w) (iImm w))
  | 1#2 => .ok (.andi (gRd w) (gRa w) (iImm w))
  | 2#2 => .ok (.ori (gRd w) (gRa w) (iImm w))
  | 3#2 => .ok (.xori (gRd w) (gRa w) (iImm w))

/-- Major opcode 3, SSHI (R38 to R43). -/
def decodeSshi (w : Word) : Except Reject Instr :=
  match iFn w with
  | 0#2 => ifUnused (decide ((iImm w).extractLsb' 6 6 = 0)) (.shli (gRd w) (gRa w) ((iImm w).extractLsb' 0 6))
  | 1#2 => ifUnused (decide ((iImm w).extractLsb' 6 6 = 0)) (.shri (gRd w) (gRa w) ((iImm w).extractLsb' 0 6))
  | 2#2 => ifUnused (decide ((iImm w).extractLsb' 6 6 = 0)) (.srai (gRd w) (gRa w) ((iImm w).extractLsb' 0 6))
  | 3#2 => .ok (.jalr (gRd w) (gRa w) (iImm w))

/-- Major opcode 4, LIM (R38 to R43). -/
def decodeLim (w : Word) : Except Reject Instr :=
  match lFn w with
  | 0#2 => .ok (.li (gRd w) (lImm w))
  | 1#2 => ifUnused (decide ((lImm w).extractLsb' 15 2 = 0)) (.lih (gRd w) ((lImm w).extractLsb' 0 15))
  | 2#2 => .ok (.lea (gRd w) (lImm w))
  | _ => .error .reservedCode

/-- Major opcode 5, VINT (R38 to R43). -/
def decodeVint (w : Word) : Except Reject Instr :=
  match aFn w with
  | 0#4 => .ok (.vadd ((aFx w).getLsbD 1) ((aFx w).getLsbD 0) (aMk w) (gRd w) (gRa w) (gRb w))
  | 1#4 => .ok (.vsub ((aFx w).getLsbD 1) ((aFx w).getLsbD 0) (aMk w) (gRd w) (gRa w) (gRb w))
  | 2#4 => .ok (.vmul ((aFx w).getLsbD 1) ((aFx w).getLsbD 0) (aMk w) (gRd w) (gRa w) (gRb w))
  | 3#4 => ifUnused (!(aFx w).getLsbD 0) (.vmulh ((aFx w).getLsbD 1) (aMk w) (gRd w) (gRa w) (gRb w))
  | 4#4 => ifUnused (decide (aFx w = 0)) (.vand (aMk w) (gRd w) (gRa w) (gRb w))
  | 5#4 => ifUnused (decide (aFx w = 0)) (.vor (aMk w) (gRd w) (gRa w) (gRb w))
  | 6#4 => ifUnused (decide (aFx w = 0)) (.vxor (aMk w) (gRd w) (gRa w) (gRb w))
  | 7#4 => ifUnused (decide (aFx w = 0)) (.vshl (aMk w) (gRd w) (gRa w) (gRb w))
  | 8#4 => ifUnused (decide (aFx w = 0)) (.vshr (aMk w) (gRd w) (gRa w) (gRb w))
  | 9#4 => ifUnused (decide (aFx w = 0)) (.vsra (aMk w) (gRd w) (gRa w) (gRb w))
  | 10#4 => ifUnused (!(aFx w).getLsbD 0) (.vmin ((aFx w).getLsbD 1) (aMk w) (gRd w) (gRa w) (gRb w))
  | 11#4 => ifUnused (!(aFx w).getLsbD 0) (.vmax ((aFx w).getLsbD 1) (aMk w) (gRd w) (gRa w) (gRb w))
  | 12#4 => ifUnused (decide (aFx w = 0)) (.vsel (aMk w) (gRd w) (gRa w) (gRb w))
  | 13#4 => ifUnused (decide (aFx w = 0) && decide (gRb w = 0)) (.vbcast (aMk w) (gRd w) (gRa w))
  | 14#4 => ifUnused (decide (aFx w = 0) && decide (gRb w = 0)) (.vpopc (aMk w) (gRd w) (gRa w))
  | 15#4 => ifUnused (decide (aFx w = 0) && decide (gRb w = 0)) (.vclz (aMk w) (gRd w) (gRa w))
  | _ => .error .reservedCode

/-- Major opcode 6, VXL (R38 to R43). -/
def decodeVxl (w : Word) : Except Reject Instr :=
  match aFn w with
  | 0#4 => ifUnused (!(aFx w).getLsbD 1) (.vcmp ((aFx w).getLsbD 0) ((gRd w).extractLsb' 3 2) (aMk w) ((gRd w).extractLsb' 0 3) (gRa w) (gRb w))
  | 1#4 => ifUnused (!(aFx w).getLsbD 0) (.vperm ((aFx w).getLsbD 1) (aMk w) (gRd w) (gRa w) (gRb w))
  | 2#4 => ifUnused (!(aFx w).getLsbD 0) (.vshuf ((aFx w).getLsbD 1) (aMk w) (gRd w) (gRa w) (gRb w))
  | 3#4 => ifUnused (!(aFx w).getLsbD 0) (.vext ((aFx w).getLsbD 1) (aMk w) (gRd w) (gRa w) (gRb w))
  | 4#4 => ifUnused (decide (aFx w = 0)) (.vins (aMk w) (gRd w) (gRa w) (gRb w))
  | 5#4 => ifUnused (decide (aFx w = 0)) (.vbext (aMk w) (gRd w) (gRa w) (gRb w))
  | 6#4 => ifUnused (!(aFx w).getLsbD 1 && decide ((gRb w).extractLsb' 3 2 = 0)) (.vred ((aFx w).getLsbD 0) ((gRb w).extractLsb' 0 3) (aMk w) (gRd w) (gRa w))
  | 7#4 => ifUnused (decide (aFx w = 0) && decide (aMk w = 0) && decide ((gRb w).extractLsb' 3 2 = 0) && decide ((gRa w).extractLsb' 3 2 = 0) && decide ((gRd w).extractLsb' 3 2 = 0)) (.mand ((gRd w).extractLsb' 0 3) ((gRa w).extractLsb' 0 3) ((gRb w).extractLsb' 0 3))
  | 8#4 => ifUnused (decide (aFx w = 0) && decide (aMk w = 0) && decide ((gRb w).extractLsb' 3 2 = 0) && decide ((gRa w).extractLsb' 3 2 = 0) && decide ((gRd w).extractLsb' 3 2 = 0)) (.mor ((gRd w).extractLsb' 0 3) ((gRa w).extractLsb' 0 3) ((gRb w).extractLsb' 0 3))
  | 9#4 => ifUnused (decide (aFx w = 0) && decide (aMk w = 0) && decide ((gRb w).extractLsb' 3 2 = 0) && decide ((gRa w).extractLsb' 3 2 = 0) && decide ((gRd w).extractLsb' 3 2 = 0)) (.mxor ((gRd w).extractLsb' 0 3) ((gRa w).extractLsb' 0 3) ((gRb w).extractLsb' 0 3))
  | 10#4 => ifUnused (decide (aFx w = 0) && decide (aMk w = 0) && decide (gRb w = 0) && decide ((gRa w).extractLsb' 3 2 = 0) && decide ((gRd w).extractLsb' 3 2 = 0)) (.mnot ((gRd w).extractLsb' 0 3) ((gRa w).extractLsb' 0 3))
  | 11#4 => ifUnused (decide (aFx w = 0) && decide (aMk w = 0) && decide (gRb w = 0) && decide ((gRa w).extractLsb' 3 2 = 0)) (.mpop (gRd w) ((gRa w).extractLsb' 0 3))
  | 12#4 => ifUnused (aFx w = 0 && aMk w = 0 && (gRb w).extractLsb' 3 2 = 0 && (gRd w).extractLsb' 3 2 = 0) (.mset ((gRd w).extractLsb' 0 3) ((gRb w).extractLsb' 0 3 ++ gRa w))
  | 13#4 => ifUnused (!(aFx w).getLsbD 1) (.vfcvt ((aFx w).getLsbD 0) (aMk w) ((gRb w).getLsbD 4) ((gRb w).extractLsb' 0 4) (gRd w) (gRa w))
  | _ => .error .reservedCode

/-- Major opcode 7, VFP (R38 to R43). -/
def decodeVfp (w : Word) : Except Reject Instr :=
  match aFn w with
  | 0#4 => ifUnused (decide (aFx w = 0)) (.vfadd (aMk w) (gRd w) (gRa w) (gRb w))
  | 1#4 => ifUnused (decide (aFx w = 0)) (.vfsub (aMk w) (gRd w) (gRa w) (gRb w))
  | 2#4 => ifUnused (decide (aFx w = 0)) (.vfmul (aMk w) (gRd w) (gRa w) (gRb w))
  | 3#4 => ifUnused (decide (aFx w = 0)) (.vfma (aMk w) (gRd w) (gRa w) (gRb w))
  | 4#4 => ifUnused (decide (aFx w = 0)) (.vfmin (aMk w) (gRd w) (gRa w) (gRb w))
  | 5#4 => ifUnused (decide (aFx w = 0)) (.vfmax (aMk w) (gRd w) (gRa w) (gRb w))
  | 6#4 => ifUnused (decide (aFx w = 0) && decide (gRb w = 0)) (.vfabs (aMk w) (gRd w) (gRa w))
  | 7#4 => ifUnused (decide (aFx w = 0) && decide (gRb w = 0)) (.vfneg (aMk w) (gRd w) (gRa w))
  | 8#4 => ifUnused (decide ((gRd w).extractLsb' 3 2 = 0)) (.vfcmp (aFx w) (aMk w) ((gRd w).extractLsb' 0 3) (gRa w) (gRb w))
  | 9#4 => ifUnused (decide (gRb w = 0)) (.vfred (aFx w) (aMk w) (gRd w) (gRa w))
  | 10#4 => ifUnused (decide (aFx w = 0) && decide (gRb w = 0)) (.vexp (aMk w) (gRd w) (gRa w))
  | 11#4 => ifUnused (decide (aFx w = 0)) (.vexpd (aMk w) (gRd w) (gRa w) (gRb w))
  | 12#4 => ifUnused (decide (aFx w = 0) && decide (gRb w = 0)) (.vlog2 (aMk w) (gRd w) (gRa w))
  | 13#4 => ifUnused (!(aFx w).getLsbD 1 && decide (gRb w = 0)) (.vrcp ((aFx w).getLsbD 0) (aMk w) (gRd w) (gRa w))
  | 14#4 => ifUnused (decide (aFx w = 0) && decide (gRb w = 0)) (.vrsqrt (aMk w) (gRd w) (gRa w))
  | _ /- 15 -/ => ifUnused (decide (aFx w = 0)) (.vhare (aMk w) (gRd w) (gRa w) (gRb w))

/-- Major opcode 8, SHIP (R38 to R43). -/
def decodeShip (w : Word) : Except Reject Instr :=
  .ok (.fship (fLa w) (fOp w) (fXp w) (gRd w) (gRa w))

/-- Major opcode 9, VMEM (R38 to R43). -/
def decodeVmem (w : Word) : Except Reject Instr :=
  match vFn w with
  | 0#2 => .ok (.vld (fLa w) (vOff w) (vMk w) (gRd w) (gRa w))
  | 1#2 => .ok (.vst (fLa w) (vOff w) (vMk w) (gRd w) (gRa w))
  | 2#2 => ifUnused (!(vOff w).getLsbD 4) (.vldc (fLa w) ((vOff w).extractLsb' 0 4) (vMk w) (gRd w) (gRa w))
  | 3#2 => ifUnused (!(vOff w).getLsbD 4) (.vstc (fLa w) ((vOff w).extractLsb' 0 4) (vMk w) (gRd w) (gRa w))

/-- Major opcode 10, MAT (R38 to R43). -/
def decodeMat (w : Word) : Except Reject Instr :=
  match eFn w with
  | 0#5 => ifUnused (decide (gAcc w = 0) && decide (gRd w = 0)) (.resld (fLa w) (eRes w) (gRa w))
  | 1#5 => ifUnused (decide (gAcc w = 0) && decide (gRd w = 0)) (.resldSparse (fLa w) 1 (eRes w) (gRa w))
  | 2#5 => ifUnused (decide (gAcc w = 0) && decide (gRd w = 0)) (.resldSparse (fLa w) 2 (eRes w) (gRa w))
  | 3#5 => ifUnused (decide (gAcc w = 0) && decide (gRd w = 0)) (.resldSparse (fLa w) 3 (eRes w) (gRa w))
  | 4#5 => ifUnused (decide (gAcc w = 0) && decide (gRd w = 0)) (.resldSparse (fLa w) 4 (eRes w) (gRa w))
  | 5#5 => ifUnused (decide (gAcc w = 0) && decide (gRd w = 0)) (.resldSparse (fLa w) 5 (eRes w) (gRa w))
  | 6#5 => ifUnused (decide (gAcc w = 0) && decide (gRd w = 0)) (.resldSparse (fLa w) 6 (eRes w) (gRa w))
  | 7#5 => ifUnused (decide (gAcc w = 0) && decide (gRd w = 0)) (.resldSparse (fLa w) 7 (eRes w) (gRa w))
  | 8#5 => ifUnused (decide (gAcc w = 0) && decide (gRd w = 0)) (.resldSparse (fLa w) 8 (eRes w) (gRa w))
  | 9#5 => ifUnused (decide (eRes w = 0) && decide (gAcc w = 0) && decide (gRd w = 0)) (.cbld (fLa w) (gRa w))
  | 10#5 => ifUnused (decide ((eRes w).extractLsb' 1 2 = 0) && decide (gRa w = 0) && decide (gRd w = 0)) (.tzero (fLa w) ((eRes w).getLsbD 0) (gAcc w))
  | 11#5 => ifUnused (decide ((eRes w).extractLsb' 1 2 = 0) && decide (gRd w = 0)) (.tload (fLa w) ((eRes w).getLsbD 0) (gAcc w) (gRa w))
  | 12#5 => ifUnused (decide (eRes w = 0) && decide (gRa w = 0)) (.tcov (fLa w) (gRd w) (gAcc w))
  | 13#5 => ifUnused (decide (eRes w = 0) && decide (gRa w = 0)) (.tstat (fLa w) (gRd w) (gAcc w))
  | 14#5 => ifUnused (decide (eRes w = 0) && decide ((gRa w).extractLsb' 2 3 = 0) && decide (gRd w = 0)) (.tmov (fLa w) (gAcc w) ((gRa w).extractLsb' 0 2))
  | _ => .error .reservedCode

/-- Major opcode 11, DRN (R38 to R43). -/
def decodeDrn (w : Word) : Except Reject Instr :=
  .ok (.tdrain (fLa w) ((dSat w).getLsbD 0) (dRm w) (dFmt w) (gAcc w) (gRd w) (gRa w))

/-- Major opcode 12, ENG (R38 to R43). -/
def decodeEng (w : Word) : Except Reject Instr :=
  match eFn w with
  | 0#5 => .ok (.cpy (fLa w) (gRd w) (gRa w) (gRb w))
  | 1#5 => .ok (.cpy2 (fLa w) (gRd w) (gRa w) (gRb w))
  | 2#5 => .ok (.gath (fLa w) (gRd w) (gRa w) (gRb w))
  | 3#5 => .ok (.scat (fLa w) (gRd w) (gRa w) (gRb w))
  | 4#5 => .ok (.pub (fLa w) (gRd w) (gRa w) (gRb w))
  | 5#5 => .ok (.wptr (fLa w) (gRd w) (gRa w) (gRb w))
  | 6#5 => ifUnused (decide (gRb w = 0)) (.jwait (fLa w) (gRd w) (gRa w))
  | 7#5 => ifUnused (decide (gRb w = 0)) (.jpoll (fLa w) (gRd w) (gRa w))
  | 8#5 => ifUnused (decide (gRb w = 0)) (.cut (fLa w) (gRd w) (gRa w))
  | 9#5 => ifUnused (decide (gRb w = 0)) (.cocut (fLa w) (gRd w) (gRa w))
  | 10#5 => .ok (.kvwalk (fLa w) (gRd w) (gRa w) (gRb w))
  | 11#5 => .ok (.sqk (fLa w) (gRd w) (gRa w) (gRb w))
  | 12#5 => .ok (.sqarm (fLa w) (gRd w) (gRa w) (gRb w))
  | 13#5 => ifUnused (decide (gRb w = 0) && decide (gRa w = 0)) (.sqoff (fLa w) (gRd w))
  | 14#5 => ifUnused (decide (fLa w = 0) && decide (gRb w = 0) && decide (gRd w = 0)) (.sqpf (gRa w))
  | 15#5 => ifUnused (decide (fLa w = 0) && decide (gRb w = 0) && decide (gRa w = 0) && decide (gRd w = 0)) .sqend
  | _ => .error .reservedCode

/-- Major opcode 13, SYNC (R38 to R43). -/
def decodeSync (w : Word) : Except Reject Instr :=
  match eFn w with
  | 0#5 => .ok (.ldwFf (fLa w) ((gRb w).extractLsb' 3 2) ((gRb w).extractLsb' 0 3) (gRd w) (gRa w))
  | 1#5 => .ok (.ldwFe (fLa w) ((gRb w).extractLsb' 3 2) ((gRb w).extractLsb' 0 3) (gRd w) (gRa w))
  | 2#5 => .ok (.ldwNw (fLa w) ((gRb w).extractLsb' 3 2) ((gRb w).extractLsb' 0 3) (gRd w) (gRa w))
  | 3#5 => .ok (.stwEf (fLa w) ((gRb w).extractLsb' 3 2) ((gRb w).extractLsb' 0 3) (gRd w) (gRa w))
  | 4#5 => .ok (.stwF (fLa w) ((gRb w).extractLsb' 3 2) ((gRb w).extractLsb' 0 3) (gRd w) (gRa w))
  | 5#5 => ifUnused (decide (gRd w = 0)) (.purge (fLa w) ((gRb w).extractLsb' 3 2) ((gRb w).extractLsb' 0 3) (gRa w))
  | 6#5 => .ok (.mcst (fLa w) (gRd w) (gRb w) (gRa w))
  | 7#5 => ifUnused (decide (gRb w = 0) && decide (gRd w = 0)) (.pref (fLa w) (gRa w))
  | 8#5 => .ok (.amoAddW (fLa w) (gRd w) (gRb w) (gRa w))
  | 9#5 => .ok (.amoAndW (fLa w) (gRd w) (gRb w) (gRa w))
  | 10#5 => .ok (.amoOrW (fLa w) (gRd w) (gRb w) (gRa w))
  | 11#5 => .ok (.amoXorW (fLa w) (gRd w) (gRb w) (gRa w))
  | 12#5 => .ok (.amoMinW (fLa w) (gRd w) (gRb w) (gRa w))
  | 13#5 => .ok (.amoMaxW (fLa w) (gRd w) (gRb w) (gRa w))
  | 14#5 => .ok (.amoSwapW (fLa w) (gRd w) (gRb w) (gRa w))
  | 15#5 => .ok (.cas (fLa w) (gRd w) (gRb w) (gRa w))
  | 16#5 => .ok (.amoAddD (fLa w) (gRd w) (gRb w) (gRa w))
  | 17#5 => .ok (.amoAndD (fLa w) (gRd w) (gRb w) (gRa w))
  | 18#5 => .ok (.amoOrD (fLa w) (gRd w) (gRb w) (gRa w))
  | 19#5 => .ok (.amoXorD (fLa w) (gRd w) (gRb w) (gRa w))
  | 20#5 => .ok (.amoMinD (fLa w) (gRd w) (gRb w) (gRa w))
  | 21#5 => .ok (.amoMaxD (fLa w) (gRd w) (gRb w) (gRa w))
  | 22#5 => .ok (.amoSwapD (fLa w) (gRd w) (gRb w) (gRa w))
  | 23#5 => .ok (.cas128 (fLa w) (gRd w) (gRb w) (gRa w))
  | 24#5 => ifUnused (decide (gRb w = 0)) (.ldl (fLa w) (gRd w) (gRa w))
  | 25#5 => .ok (.stu (fLa w) (gRd w) (gRb w) (gRa w))
  | _ => .error .reservedCode

/-- Major opcode 14, SCHED (R38 to R43). -/
def decodeSched (w : Word) : Except Reject Instr :=
  match eFn w with
  | 0#5 => .ok (.spawn (fLa w) (gRd w) (gRa w) (gRb w))
  | 1#5 => ifUnused (decide (fLa w = 0) && decide (gRb w = 0) && decide (gRd w = 0)) (.join (gRa w))
  | 2#5 => ifUnused (decide (fLa w = 0) && decide (gRb w = 0) && decide (gRa w = 0) && decide (gRd w = 0)) .wfw
  | 3#5 => .ok (.disp (fLa w) (gRd w) (gRa w) (gRb w))
  | 4#5 => ifUnused (decide (gRb w = 0)) (.depdec (fLa w) (gRd w) (gRa w))
  | 5#5 => ifUnused (decide (fLa w = 0) && decide (gRb w = 0) && decide (gRa w = 0) && decide (gRd w = 0)) .yield
  | 6#5 => ifUnused (decide (fLa w = 0) && decide (gRa w = 0) && decide (gRd w = 0)) (.gang (gRb w))
  | 7#5 => ifUnused (decide (fLa w = 0) && decide (gRb w = 0) && decide (gRa w = 0) && decide (gRd w = 0)) .ungang
  | 8#5 => ifUnused (decide (fLa w = 0)) (.park (gRd w) (gRa w) (gRb w))
  | 9#5 => .ok (.wake (fLa w) (gRd w) (gRa w) (gRb w))
  | 10#5 => .ok (.pflush (fLa w) (gRd w) (gRa w) (gRb w))
  | _ => .error .reservedCode

/-- Major opcode 15, SYS (R38 to R43). -/
def decodeSys (w : Word) : Except Reject Instr :=
  match sFn w with
  | 0#4 => ifUnused (decide (gRa w = 0)) (.csrr (gRd w) (sImm w))
  | 1#4 => ifUnused (decide (gRd w = 0)) (.csrw (sImm w) (gRa w))
  | 2#4 => .ok (.csrset (gRd w) (sImm w) (gRa w))
  | 3#4 => .ok (.csrclr (gRd w) (sImm w) (gRa w))
  | 4#4 => ifUnused (decide (gRa w = 0) && decide (gRd w = 0)) (.trap (sImm w))
  | 5#4 => ifUnused (decide (sImm w = 0) && decide (gRa w = 0) && decide (gRd w = 0)) .eret
  | 6#4 => ifUnused (decide (sImm w = 0) && decide (gRa w = 0) && decide (gRd w = 0)) .halt
  | 7#4 => ifUnused (decide (sImm w = 0) && decide (gRa w = 0) && decide (gRd w = 0)) .ebrk
  | 8#4 => ifUnused (decide (sImm w = 0) && decide (gRd w = 0)) (.ctxsave (gRa w))
  | 9#4 => ifUnused (decide (sImm w = 0) && decide (gRd w = 0)) (.ctxrest (gRa w))
  | 10#4 => ifUnused (decide (gRd w = 0)) (.tlbinv (gRa w) (sImm w))
  | 11#4 => ifUnused (decide (sImm w = 0) && decide (gRa w = 0)) (.idle (gRd w))
  | 12#4 =>
    match (sImm w).extractLsb' 3 2 with
    | 0#2 => ifUnused (decide ((sImm w).extractLsb' 5 5 = 0) && decide (gRa w = 0) && decide (gRd w = 0)) (.phase ((sImm w).extractLsb' 0 3))
    | 1#2 => ifUnused (decide ((sImm w).extractLsb' 5 5 = 0) && decide (gRa w = 0) && decide (gRd w = 0)) (.fenceRel ((sImm w).extractLsb' 0 3))
    | 2#2 => ifUnused (decide ((sImm w).extractLsb' 5 5 = 0) && decide (gRa w = 0) && decide (gRd w = 0)) (.fenceAcq ((sImm w).extractLsb' 0 3))
    | 3#2 => ifUnused (decide (gRa w = 0) && decide (gRd w = 0)) (.bar ((sImm w).extractLsb' 0 3) ((sImm w).extractLsb' 5 5))
  | 13#4 => ifUnused (decide (gRd w = 0) && decide ((sImm w).extractLsb' 3 2 = 0)) (.bcnt ((sImm w).extractLsb' 0 3) ((sImm w).extractLsb' 5 5) (gRa w))
  | 14#4 => ifUnused (decide ((sImm w).extractLsb' 6 4 = 0)) (.fsload (gRd w) (gRa w) ((sImm w).extractLsb' 0 6))
  | _ => .error .reservedCode

/-- Class G: every other instruction, named by the major opcode (R35, R38). -/
def decodeG (w : Word) : Except Reject Instr :=
  match gMaj w with
  | 0#4 => decodeSalu w
  | 1#4 => decodeSbit w
  | 2#4 => decodeSimm w
  | 3#4 => decodeSshi w
  | 4#4 => decodeLim w
  | 5#4 => decodeVint w
  | 6#4 => decodeVxl w
  | 7#4 => decodeVfp w
  | 8#4 => decodeShip w
  | 9#4 => decodeVmem w
  | 10#4 => decodeMat w
  | 11#4 => decodeDrn w
  | 12#4 => decodeEng w
  | 13#4 => decodeSync w
  | 14#4 => decodeSched w
  | _ /- 15 -/ => decodeSys w

/-- Class M: scalar loads and stores (R33). -/
def decodeM (w : Word) : Except Reject Instr :=
  match mOp w with
  | 0#3 => .ok (.ldB (fLa w) (mOff w) (mRd w) (mXb w))
  | 1#3 => .ok (.ldH (fLa w) (mOff w) (mRd w) (mXb w))
  | 2#3 => .ok (.ldW (fLa w) (mOff w) (mRd w) (mXb w))
  | 3#3 => .ok (.ldD (fLa w) (mOff w) (mRd w) (mXb w))
  | 4#3 => .ok (.stB (fLa w) (mOff w) (mRd w) (mXb w))
  | 5#3 => .ok (.stH (fLa w) (mOff w) (mRd w) (mXb w))
  | 6#3 => .ok (.stW (fLa w) (mOff w) (mRd w) (mXb w))
  | 7#3 => .ok (.stD (fLa w) (mOff w) (mRd w) (mXb w))

/-- Class C: cld alone (R34). -/
def decodeC (w : Word) : Except Reject Instr :=
  .ok (.cld (fLa w) (cForm w) ((cFold w).getLsbD 0) ((cOrd w).getLsbD 0) (cRes w) (cAcc w) (cRd w) (cXb w) (cXs w))

/-- Class B: branches, jal, loop and loopm (R32). -/
def decodeB (w : Word) : Except Reject Instr :=
  match bCond w with
  | 0#3 => .ok (.beq (bRa w) (bRb w) (bOff w))
  | 1#3 => .ok (.bne (bRa w) (bRb w) (bOff w))
  | 2#3 => .ok (.blt (bRa w) (bRb w) (bOff w))
  | 3#3 => .ok (.bge (bRa w) (bRb w) (bOff w))
  | 4#3 => .ok (.bltu (bRa w) (bRb w) (bOff w))
  | 5#3 => .ok (.bgeu (bRa w) (bRb w) (bOff w))
  | 6#3 => ifUnused (decide (bRb w = 0)) (.jal (bRa w) (bOff w))
  | 7#3 =>
    if (bRb w).getLsbD 4 then .ok (.loopm (bRa w) ((bRb w).extractLsb' 0 4) (bOff w))
    else ifUnused (decide (bRb w = 0)) (.loop (bRa w) (bOff w))

/-- The fields of a 32-bit instruction, by its class (R26); bit 0 is 1. -/
def decodeFields32 (w : Word) : Except Reject Instr :=
  if w.extractLsb' 0 2 = 3#2 then decodeB w
  else if w.extractLsb' 0 3 = 5#3 then decodeM w
  else if w.extractLsb' 0 4 = 9#4 then decodeC w
  else if w.extractLsb' 0 4 = 1#4 then decodeG w
  else .error .reservedCode

/-- A compact lane form (R29, R30). -/
def decodeCompact (h : Half) : Instr :=
  let mk := h.extractLsb' 14 2
  let va := h.extractLsb' 10 4
  let vd := h.extractLsb' 6 4
  match h.extractLsb' 2 4 with
  | 0#4 => .vor16 mk vd va
  | 1#4 => .vadd16 mk vd va
  | 2#4 => .vsub16 mk vd va
  | 3#4 => .vmul16 mk vd va
  | 4#4 => .vand16 mk vd va
  | 5#4 => .vxor16 mk vd va
  | 6#4 => .vshl16 mk vd va
  | 7#4 => .vshr16 mk vd va
  | 8#4 => .vsra16 mk vd va
  | 9#4 => .vmin16 mk vd va
  | 10#4 => .vmax16 mk vd va
  | 11#4 => .vfadd16 mk vd va
  | 12#4 => .vfsub16 mk vd va
  | 13#4 => .vfmul16 mk vd va
  | 14#4 => .vfmin16 mk vd va
  | _ /- 15 -/ => .vfmax16 mk vd va

/-- A 16-bit instruction: a compact lane form or a repeat prefix (R29, R30). -/
def decode16 (h : Half) : Except Reject Instr :=
  if h.extractLsb' 0 2 = 2#2 then
    if h.extractLsb' 11 5 = 0#5 then .ok (.rep (h.getLsbD 10) (h.getLsbD 9) (h.getLsbD 8) (h.extractLsb' 2 6))
    else .error .repeatPrefix
  else .ok (decodeCompact h)

/-- A 32-bit instruction (R32 to R43), refused where a field breaks R36 or names a reserved code (R53). -/
def decode32 (w : Word) : Except Reject Instr :=
  match decodeFields32 w with
  | .ok i => if i.wf then .ok i else .error .badField
  | .error r => .error r

/-- Whether a first halfword begins a 32-bit instruction (R25). -/
def isLong (h : Half) : Bool := h.getLsbD 0

/-- The instruction at the head of a list of bytes, lowest address first, and the bytes after it (R25). -/
def decode : List Byte → Except Reject (Instr × List Byte)
  | b0 :: b1 :: rest =>
    if isLong (b1 ++ b0) then
      match rest with
      | b2 :: b3 :: rest' =>
        match decode32 (b3 ++ b2 ++ b1 ++ b0) with
        | .ok i => .ok (i, rest')
        | .error r => .error r
      | _ => .error .truncated
    else
      match decode16 (b1 ++ b0) with
      | .ok i => .ok (i, rest)
      | .error r => .error r
  | _ => .error .truncated

/-- The instruction of a word numbered as the opcode table numbers it: the first halfword in the low bits. -/
def decodeTableWord (nbits w : Nat) : Option Instr :=
  if nbits = 0 then none
  else
    match decode [BitVec.ofNat 8 w, BitVec.ofNat 8 (w / 256), BitVec.ofNat 8 (w / 65536), BitVec.ofNat 8 (w / 16777216)] with
    | .ok (i, _) => some i
    | .error _ => none

/-! The encoder. -/

/-- A word of layout A (R35). -/
def packA (fx : BitVec 2) (fn : BitVec 4) (mk : BitVec 3) (rb : BitVec 5) (ra : BitVec 5) (rd : BitVec 5) (maj : BitVec 4) : Word :=
  fx ++ fn ++ mk ++ rb ++ ra ++ rd ++ maj ++ 1#4

/-- A word of layout I (R35). -/
def packI (imm : BitVec 12) (fn : BitVec 2) (ra : BitVec 5) (rd : BitVec 5) (maj : BitVec 4) : Word :=
  imm ++ fn ++ ra ++ rd ++ maj ++ 1#4

/-- A word of layout L (R35). -/
def packL (imm : BitVec 17) (fn : BitVec 2) (rd : BitVec 5) (maj : BitVec 4) : Word :=
  imm ++ fn ++ rd ++ maj ++ 1#4

/-- A word of layout Mv (R35). -/
def packV (la : BitVec 4) (off : BitVec 5) (fn : BitVec 2) (mk : BitVec 3) (xb : BitVec 5) (vd : BitVec 5) (maj : BitVec 4) : Word :=
  la ++ off ++ fn ++ mk ++ xb ++ vd ++ maj ++ 1#4

/-- A word of layout E (R35). -/
def packE (la : BitVec 4) (fn : BitVec 5) (rb : BitVec 5) (ra : BitVec 5) (rd : BitVec 5) (maj : BitVec 4) : Word :=
  la ++ fn ++ rb ++ ra ++ rd ++ maj ++ 1#4

/-- A word of layout Et (R35). -/
def packT (la : BitVec 4) (fn : BitVec 5) (res : BitVec 3) (acc : BitVec 2) (ra : BitVec 5) (rd : BitVec 5) (maj : BitVec 4) : Word :=
  la ++ fn ++ res ++ acc ++ ra ++ rd ++ maj ++ 1#4

/-- A word of layout D (R35). -/
def packD (la : BitVec 4) (sat : BitVec 1) (rm : BitVec 3) (fmt : BitVec 4) (acc : BitVec 2) (xb : BitVec 5) (rd : BitVec 5) (maj : BitVec 4) : Word :=
  la ++ sat ++ rm ++ fmt ++ acc ++ xb ++ rd ++ maj ++ 1#4

/-- A word of layout F (R35). -/
def packF (la : BitVec 4) (op : BitVec 6) (xp : BitVec 4) (xb : BitVec 5) (rd : BitVec 5) (maj : BitVec 4) : Word :=
  la ++ op ++ xp ++ xb ++ rd ++ maj ++ 1#4

/-- A word of layout S (R35). -/
def packS (fn : BitVec 4) (imm : BitVec 10) (ra : BitVec 5) (rd : BitVec 5) (maj : BitVec 4) : Word :=
  fn ++ imm ++ ra ++ rd ++ maj ++ 1#4

/-- A word of class M (R33). -/
def packM (la : BitVec 4) (off : BitVec 12) (xb : BitVec 5) (rd : BitVec 5) (op : BitVec 3) : Word :=
  la ++ off ++ xb ++ rd ++ op ++ 5#3

/-- A word of class C (R34). -/
def packC (la : BitVec 4) (form : BitVec 2) (fold : BitVec 1) (ord : BitVec 1) (res : BitVec 3) (acc : BitVec 2) (xs : BitVec 5) (xb : BitVec 5) (rd : BitVec 5) : Word :=
  la ++ form ++ fold ++ ord ++ res ++ acc ++ xs ++ xb ++ rd ++ 9#4

/-- A word of class B (R32). -/
def packB (off : BitVec 17) (rb : BitVec 5) (ra : BitVec 5) (cond : BitVec 3) : Word :=
  off ++ rb ++ ra ++ cond ++ 3#2

/-- The word of a 32-bit instruction, from the layouts of R32 to R43; 0 for what is not one. -/
def encode32 : Instr → Word
  | .add rd ra rb => packA 0 0 0 rb ra rd 0
  | .sub rd ra rb => packA 0 1 0 rb ra rd 0
  | .and rd ra rb => packA 0 2 0 rb ra rd 0
  | .or rd ra rb => packA 0 3 0 rb ra rd 0
  | .xor rd ra rb => packA 0 4 0 rb ra rd 0
  | .shl rd ra rb => packA 0 5 0 rb ra rd 0
  | .shr rd ra rb => packA 0 6 0 rb ra rd 0
  | .sra rd ra rb => packA 0 7 0 rb ra rd 0
  | .mul rd ra rb => packA 0 8 0 rb ra rd 0
  | .mulh rd ra rb => packA 0 9 0 rb ra rd 0
  | .div rd ra rb => packA 0 10 0 rb ra rd 0
  | .divu rd ra rb => packA 0 11 0 rb ra rd 0
  | .rem rd ra rb => packA 0 12 0 rb ra rd 0
  | .remu rd ra rb => packA 0 13 0 rb ra rd 0
  | .min rd ra rb => packA 0 14 0 rb ra rd 0
  | .max rd ra rb => packA 0 15 0 rb ra rd 0
  | .clz rd ra => packA 0 0 0 0 ra rd 1
  | .ctz rd ra => packA 0 1 0 0 ra rd 1
  | .popc rd ra => packA 0 2 0 0 ra rd 1
  | .bext rd ra rb => packA 0 3 0 rb ra rd 1
  | .bins rd ra rb => packA 0 4 0 rb ra rd 1
  | .slt rd ra rb => packA 0 5 0 rb ra rd 1
  | .sltu rd ra rb => packA 0 6 0 rb ra rd 1
  | .seq rd ra rb => packA 0 7 0 rb ra rd 1
  | .sel rd ra rb => packA 0 8 0 rb ra rd 1
  | .mov rd ra => packA 0 9 0 0 ra rd 1
  | .addi rd ra imm => packI imm 0 ra rd 2
  | .andi rd ra imm => packI imm 1 ra rd 2
  | .ori rd ra imm => packI imm 2 ra rd 2
  | .xori rd ra imm => packI imm 3 ra rd 2
  | .shli rd ra n => packI (0#6 ++ n) 0 ra rd 3
  | .shri rd ra n => packI (0#6 ++ n) 1 ra rd 3
  | .srai rd ra n => packI (0#6 ++ n) 2 ra rd 3
  | .jalr rd ra imm => packI imm 3 ra rd 3
  | .li rd imm => packL imm 0 rd 4
  | .lih rd imm => packL (0#2 ++ imm) 1 rd 4
  | .lea rd imm => packL imm 2 rd 4
  | .vadd u s mk vd va vb => packA (BitVec.ofBool u ++ BitVec.ofBool s) 0 mk vb va vd 5
  | .vsub u s mk vd va vb => packA (BitVec.ofBool u ++ BitVec.ofBool s) 1 mk vb va vd 5
  | .vmul u s mk vd va vb => packA (BitVec.ofBool u ++ BitVec.ofBool s) 2 mk vb va vd 5
  | .vmulh u mk vd va vb => packA (BitVec.ofBool u ++ 0#1) 3 mk vb va vd 5
  | .vand mk vd va vb => packA 0 4 mk vb va vd 5
  | .vor mk vd va vb => packA 0 5 mk vb va vd 5
  | .vxor mk vd va vb => packA 0 6 mk vb va vd 5
  | .vshl mk vd va vb => packA 0 7 mk vb va vd 5
  | .vshr mk vd va vb => packA 0 8 mk vb va vd 5
  | .vsra mk vd va vb => packA 0 9 mk vb va vd 5
  | .vmin u mk vd va vb => packA (BitVec.ofBool u ++ 0#1) 10 mk vb va vd 5
  | .vmax u mk vd va vb => packA (BitVec.ofBool u ++ 0#1) 11 mk vb va vd 5
  | .vsel mk vd va vb => packA 0 12 mk vb va vd 5
  | .vbcast mk vd xa => packA 0 13 mk 0 xa vd 5
  | .vpopc mk vd va => packA 0 14 mk 0 va vd 5
  | .vclz mk vd va => packA 0 15 mk 0 va vd 5
  | .vcmp u cc mk md va vb => packA (0#1 ++ BitVec.ofBool u) 0 mk vb va (cc ++ md) 6
  | .vperm z mk vd va vb => packA (BitVec.ofBool z ++ 0#1) 1 mk vb va vd 6
  | .vshuf z mk vd va xb => packA (BitVec.ofBool z ++ 0#1) 2 mk xb va vd 6
  | .vext z mk xd va xb => packA (BitVec.ofBool z ++ 0#1) 3 mk xb va xd 6
  | .vins mk vd xa xb => packA 0 4 mk xb xa vd 6
  | .vbext mk vd va vb => packA 0 5 mk vb va vd 6
  | .vred u op mk xd va => packA (0#1 ++ BitVec.ofBool u) 6 mk (0#2 ++ op) va xd 6
  | .mand md ma mb => packA 0 7 0 (0#2 ++ mb) (0#2 ++ ma) (0#2 ++ md) 6
  | .mor md ma mb => packA 0 8 0 (0#2 ++ mb) (0#2 ++ ma) (0#2 ++ md) 6
  | .mxor md ma mb => packA 0 9 0 (0#2 ++ mb) (0#2 ++ ma) (0#2 ++ md) 6
  | .mnot md ma => packA 0 10 0 0 (0#2 ++ ma) (0#2 ++ md) 6
  | .mpop xd ma => packA 0 11 0 0 (0#2 ++ ma) xd 6
  | .mset md imm => packA 0 12 0 (0#2 ++ imm.extractLsb' 5 3) (imm.extractLsb' 0 5) (0#2 ++ md) 6
  | .vfcvt from_ rm sat fmt vd va => packA (0#1 ++ BitVec.ofBool from_) 13 rm (BitVec.ofBool sat ++ fmt) va vd 6
  | .vfadd mk vd va vb => packA 0 0 mk vb va vd 7
  | .vfsub mk vd va vb => packA 0 1 mk vb va vd 7
  | .vfmul mk vd va vb => packA 0 2 mk vb va vd 7
  | .vfma mk vd va vb => packA 0 3 mk vb va vd 7
  | .vfmin mk vd va vb => packA 0 4 mk vb va vd 7
  | .vfmax mk vd va vb => packA 0 5 mk vb va vd 7
  | .vfabs mk vd va => packA 0 6 mk 0 va vd 7
  | .vfneg mk vd va => packA 0 7 mk 0 va vd 7
  | .vfcmp cc mk md va vb => packA cc 8 mk vb va (0#2 ++ md) 7
  | .vfred op mk xd va => packA op 9 mk 0 va xd 7
  | .vexp mk vd va => packA 0 10 mk 0 va vd 7
  | .vexpd mk vd va vb => packA 0 11 mk vb va vd 7
  | .vlog2 mk vd va => packA 0 12 mk 0 va vd 7
  | .vrcp er mk vd va => packA (0#1 ++ BitVec.ofBool er) 13 mk 0 va vd 7
  | .vrsqrt mk vd va => packA 0 14 mk 0 va vd 7
  | .vhare mk vd xa xb => packA 0 15 mk xb xa vd 7
  | .vld la off mk vd xb => packV la off 0 mk xb vd 9
  | .vst la off mk vd xb => packV la off 1 mk xb vd 9
  | .vldc la g mk vd xb => packV la (0#1 ++ g) 2 mk xb vd 9
  | .vstc la g mk vd xb => packV la (0#1 ++ g) 3 mk xb vd 9
  | .resld la slot xa => packT la 0 slot 0 xa 0 10
  | .resldSparse la pat slot xa => packT la (0#1 ++ pat) slot 0 xa 0 10
  | .cbld la xa => packT la 9 0 0 xa 0 10
  | .tzero la int32 acc => packT la 10 (0#2 ++ BitVec.ofBool int32) acc 0 0 10
  | .tload la int32 acc xa => packT la 11 (0#2 ++ BitVec.ofBool int32) acc xa 0 10
  | .tcov la xd acc => packT la 12 0 acc 0 xd 10
  | .tstat la xd acc => packT la 13 0 acc 0 xd 10
  | .tmov la accd accs => packT la 14 0 accd (0#3 ++ accs) 0 10
  | .tdrain la sat rm fmt acc xd xb => packD la (BitVec.ofBool sat) rm fmt acc xb xd 11
  | .fship la op xp xd xb => packF la op xp xb xd 8
  | .cpy la xd xa xb => packE la 0 xb xa xd 12
  | .cpy2 la xd xa xb => packE la 1 xb xa xd 12
  | .gath la xd xa xb => packE la 2 xb xa xd 12
  | .scat la xd xa xb => packE la 3 xb xa xd 12
  | .pub la xd xa xb => packE la 4 xb xa xd 12
  | .wptr la xd xa xb => packE la 5 xb xa xd 12
  | .jwait la xd xa => packE la 6 0 xa xd 12
  | .jpoll la xd xa => packE la 7 0 xa xd 12
  | .cut la xd xa => packE la 8 0 xa xd 12
  | .cocut la xd xa => packE la 9 0 xa xd 12
  | .kvwalk la xd xa xb => packE la 10 xb xa xd 12
  | .sqk la xd xa xb => packE la 11 xb xa xd 12
  | .sqarm la xd xa xb => packE la 12 xb xa xd 12
  | .sqoff la xd => packE la 13 0 0 xd 12
  | .sqpf ya => packE 0 14 0 ya 0 12
  | .sqend => packE 0 15 0 0 0 12
  | .ldwFf la order scope xd xb => packE la 0 (order ++ scope) xb xd 13
  | .ldwFe la order scope xd xb => packE la 1 (order ++ scope) xb xd 13
  | .ldwNw la order scope xd xb => packE la 2 (order ++ scope) xb xd 13
  | .stwEf la order scope xs xb => packE la 3 (order ++ scope) xb xs 13
  | .stwF la order scope xs xb => packE la 4 (order ++ scope) xb xs 13
  | .purge la order scope xb => packE la 5 (order ++ scope) xb 0 13
  | .mcst la xv xm xb => packE la 6 xm xb xv 13
  | .pref la xb => packE la 7 0 xb 0 13
  | .amoAddW la xd xv xb => packE la 8 xv xb xd 13
  | .amoAndW la xd xv xb => packE la 9 xv xb xd 13
  | .amoOrW la xd xv xb => packE la 10 xv xb xd 13
  | .amoXorW la xd xv xb => packE la 11 xv xb xd 13
  | .amoMinW la xd xv xb => packE la 12 xv xb xd 13
  | .amoMaxW la xd xv xb => packE la 13 xv xb xd 13
  | .amoSwapW la xd xv xb => packE la 14 xv xb xd 13
  | .cas la xd xn xb => packE la 15 xn xb xd 13
  | .amoAddD la xd xv xb => packE la 16 xv xb xd 13
  | .amoAndD la xd xv xb => packE la 17 xv xb xd 13
  | .amoOrD la xd xv xb => packE la 18 xv xb xd 13
  | .amoXorD la xd xv xb => packE la 19 xv xb xd 13
  | .amoMinD la xd xv xb => packE la 20 xv xb xd 13
  | .amoMaxD la xd xv xb => packE la 21 xv xb xd 13
  | .amoSwapD la xd xv xb => packE la 22 xv xb xd 13
  | .cas128 la xd xn xb => packE la 23 xn xb xd 13
  | .ldl la xd xb => packE la 24 0 xb xd 13
  | .stu la xd xv xb => packE la 25 xv xb xd 13
  | .spawn la xc xa xb => packE la 0 xb xa xc 14
  | .join xa => packE 0 1 0 xa 0 14
  | .wfw => packE 0 2 0 0 0 14
  | .disp la xd xa xb => packE la 3 xb xa xd 14
  | .depdec la xd xa => packE la 4 0 xa xd 14
  | .yield => packE 0 5 0 0 0 14
  | .gang size => packE 0 6 size 0 0 14
  | .ungang => packE 0 7 0 0 0 14
  | .park xd xk xh => packE 0 8 xh xk xd 14
  | .wake la xd xk xr => packE la 9 xr xk xd 14
  | .pflush la xd xa xb => packE la 10 xb xa xd 14
  | .csrr xd csr => packS 0 csr 0 xd 15
  | .csrw csr xa => packS 1 csr xa 0 15
  | .csrset xd csr xa => packS 2 csr xa xd 15
  | .csrclr xd csr xa => packS 3 csr xa xd 15
  | .trap n => packS 4 n 0 0 15
  | .eret => packS 5 0 0 0 15
  | .halt => packS 6 0 0 0 15
  | .ebrk => packS 7 0 0 0 15
  | .ctxsave xa => packS 8 0 xa 0 15
  | .ctxrest xa => packS 9 0 xa 0 15
  | .tlbinv xa n => packS 10 n xa 0 15
  | .idle xd => packS 11 0 0 xd 15
  | .phase scope => packS 12 (0#5 ++ 0#2 ++ scope) 0 0 15
  | .fenceRel scope => packS 12 (0#5 ++ 1#2 ++ scope) 0 0 15
  | .fenceAcq scope => packS 12 (0#5 ++ 2#2 ++ scope) 0 0 15
  | .bar scope id => packS 12 (id ++ 3#2 ++ scope) 0 0 15
  | .bcnt scope id xa => packS 13 (id ++ 0#2 ++ scope) xa 0 15
  | .fsload xd xa slot => packS 14 (0#4 ++ slot) xa xd 15
  | .ldB la off xd xb => packM la off xb xd 0
  | .ldH la off xd xb => packM la off xb xd 1
  | .ldW la off xd xb => packM la off xb xd 2
  | .ldD la off xd xb => packM la off xb xd 3
  | .stB la off xs xb => packM la off xb xs 4
  | .stH la off xs xb => packM la off xb xs 5
  | .stW la off xs xb => packM la off xb xs 6
  | .stD la off xs xb => packM la off xb xs 7
  | .cld la form fold ord slot acc xd xb xs => packC la form (BitVec.ofBool fold) (BitVec.ofBool ord) slot acc xs xb xd
  | .beq ra rb off => packB off rb ra 0
  | .bne ra rb off => packB off rb ra 1
  | .blt ra rb off => packB off rb ra 2
  | .bge ra rb off => packB off rb ra 3
  | .bltu ra rb off => packB off rb ra 4
  | .bgeu ra rb off => packB off rb ra 5
  | .jal xd off => packB off 0 xd 6
  | .loop xs len => packB len 0 xs 7
  | .loopm xb off len => packB len (1#1 ++ off) xb 7
  | _ => 0

/-- The halfword of a 16-bit instruction (R29, R30); none for what is not one. -/
def encode16 : Instr → Option Half
  | .rep b a d count => some (0#5 ++ BitVec.ofBool b ++ BitVec.ofBool a ++ BitVec.ofBool d ++ count ++ 2#2)
  | .vor16 mk vd va => some (mk ++ va ++ vd ++ 0#4 ++ 0#2)
  | .vadd16 mk vd va => some (mk ++ va ++ vd ++ 1#4 ++ 0#2)
  | .vsub16 mk vd va => some (mk ++ va ++ vd ++ 2#4 ++ 0#2)
  | .vmul16 mk vd va => some (mk ++ va ++ vd ++ 3#4 ++ 0#2)
  | .vand16 mk vd va => some (mk ++ va ++ vd ++ 4#4 ++ 0#2)
  | .vxor16 mk vd va => some (mk ++ va ++ vd ++ 5#4 ++ 0#2)
  | .vshl16 mk vd va => some (mk ++ va ++ vd ++ 6#4 ++ 0#2)
  | .vshr16 mk vd va => some (mk ++ va ++ vd ++ 7#4 ++ 0#2)
  | .vsra16 mk vd va => some (mk ++ va ++ vd ++ 8#4 ++ 0#2)
  | .vmin16 mk vd va => some (mk ++ va ++ vd ++ 9#4 ++ 0#2)
  | .vmax16 mk vd va => some (mk ++ va ++ vd ++ 10#4 ++ 0#2)
  | .vfadd16 mk vd va => some (mk ++ va ++ vd ++ 11#4 ++ 0#2)
  | .vfsub16 mk vd va => some (mk ++ va ++ vd ++ 12#4 ++ 0#2)
  | .vfmul16 mk vd va => some (mk ++ va ++ vd ++ 13#4 ++ 0#2)
  | .vfmin16 mk vd va => some (mk ++ va ++ vd ++ 14#4 ++ 0#2)
  | .vfmax16 mk vd va => some (mk ++ va ++ vd ++ 15#4 ++ 0#2)
  | _ => none

/-- Whether a row has an encoding; the others are events. -/
def Instr.encoded : Instr → Bool
  | .add _ _ _ => true
  | .sub _ _ _ => true
  | .and _ _ _ => true
  | .or _ _ _ => true
  | .xor _ _ _ => true
  | .shl _ _ _ => true
  | .shr _ _ _ => true
  | .sra _ _ _ => true
  | .mul _ _ _ => true
  | .mulh _ _ _ => true
  | .div _ _ _ => true
  | .divu _ _ _ => true
  | .rem _ _ _ => true
  | .remu _ _ _ => true
  | .min _ _ _ => true
  | .max _ _ _ => true
  | .clz _ _ => true
  | .ctz _ _ => true
  | .popc _ _ => true
  | .bext _ _ _ => true
  | .bins _ _ _ => true
  | .slt _ _ _ => true
  | .sltu _ _ _ => true
  | .seq _ _ _ => true
  | .sel _ _ _ => true
  | .mov _ _ => true
  | .addi _ _ _ => true
  | .andi _ _ _ => true
  | .ori _ _ _ => true
  | .xori _ _ _ => true
  | .shli _ _ _ => true
  | .shri _ _ _ => true
  | .srai _ _ _ => true
  | .jalr _ _ _ => true
  | .li _ _ => true
  | .lih _ _ => true
  | .lea _ _ => true
  | .vadd _ _ _ _ _ _ => true
  | .vsub _ _ _ _ _ _ => true
  | .vmul _ _ _ _ _ _ => true
  | .vmulh _ _ _ _ _ => true
  | .vand _ _ _ _ => true
  | .vor _ _ _ _ => true
  | .vxor _ _ _ _ => true
  | .vshl _ _ _ _ => true
  | .vshr _ _ _ _ => true
  | .vsra _ _ _ _ => true
  | .vmin _ _ _ _ _ => true
  | .vmax _ _ _ _ _ => true
  | .vsel _ _ _ _ => true
  | .vbcast _ _ _ => true
  | .vpopc _ _ _ => true
  | .vclz _ _ _ => true
  | .vcmp _ _ _ _ _ _ => true
  | .vperm _ _ _ _ _ => true
  | .vshuf _ _ _ _ _ => true
  | .vext _ _ _ _ _ => true
  | .vins _ _ _ _ => true
  | .vbext _ _ _ _ => true
  | .vred _ _ _ _ _ => true
  | .mand _ _ _ => true
  | .mor _ _ _ => true
  | .mxor _ _ _ => true
  | .mnot _ _ => true
  | .mpop _ _ => true
  | .mset _ _ => true
  | .vfcvt _ _ _ _ _ _ => true
  | .vfadd _ _ _ _ => true
  | .vfsub _ _ _ _ => true
  | .vfmul _ _ _ _ => true
  | .vfma _ _ _ _ => true
  | .vfmin _ _ _ _ => true
  | .vfmax _ _ _ _ => true
  | .vfabs _ _ _ => true
  | .vfneg _ _ _ => true
  | .vfcmp _ _ _ _ _ => true
  | .vfred _ _ _ _ => true
  | .vexp _ _ _ => true
  | .vexpd _ _ _ _ => true
  | .vlog2 _ _ _ => true
  | .vrcp _ _ _ _ => true
  | .vrsqrt _ _ _ => true
  | .vhare _ _ _ _ => true
  | .vld _ _ _ _ _ => true
  | .vst _ _ _ _ _ => true
  | .vldc _ _ _ _ _ => true
  | .vstc _ _ _ _ _ => true
  | .resld _ _ _ => true
  | .resldSparse _ _ _ _ => true
  | .cbld _ _ => true
  | .tzero _ _ _ => true
  | .tload _ _ _ _ => true
  | .tcov _ _ _ => true
  | .tstat _ _ _ => true
  | .tmov _ _ _ => true
  | .tdrain _ _ _ _ _ _ _ => true
  | .fship _ _ _ _ _ => true
  | .cpy _ _ _ _ => true
  | .cpy2 _ _ _ _ => true
  | .gath _ _ _ _ => true
  | .scat _ _ _ _ => true
  | .pub _ _ _ _ => true
  | .wptr _ _ _ _ => true
  | .jwait _ _ _ => true
  | .jpoll _ _ _ => true
  | .cut _ _ _ => true
  | .cocut _ _ _ => true
  | .kvwalk _ _ _ _ => true
  | .sqk _ _ _ _ => true
  | .sqarm _ _ _ _ => true
  | .sqoff _ _ => true
  | .sqpf _ => true
  | .sqend => true
  | .ldwFf _ _ _ _ _ => true
  | .ldwFe _ _ _ _ _ => true
  | .ldwNw _ _ _ _ _ => true
  | .stwEf _ _ _ _ _ => true
  | .stwF _ _ _ _ _ => true
  | .purge _ _ _ _ => true
  | .mcst _ _ _ _ => true
  | .pref _ _ => true
  | .amoAddW _ _ _ _ => true
  | .amoAndW _ _ _ _ => true
  | .amoOrW _ _ _ _ => true
  | .amoXorW _ _ _ _ => true
  | .amoMinW _ _ _ _ => true
  | .amoMaxW _ _ _ _ => true
  | .amoSwapW _ _ _ _ => true
  | .cas _ _ _ _ => true
  | .amoAddD _ _ _ _ => true
  | .amoAndD _ _ _ _ => true
  | .amoOrD _ _ _ _ => true
  | .amoXorD _ _ _ _ => true
  | .amoMinD _ _ _ _ => true
  | .amoMaxD _ _ _ _ => true
  | .amoSwapD _ _ _ _ => true
  | .cas128 _ _ _ _ => true
  | .ldl _ _ _ => true
  | .stu _ _ _ _ => true
  | .spawn _ _ _ _ => true
  | .join _ => true
  | .wfw => true
  | .disp _ _ _ _ => true
  | .depdec _ _ _ => true
  | .yield => true
  | .gang _ => true
  | .ungang => true
  | .park _ _ _ => true
  | .wake _ _ _ _ => true
  | .pflush _ _ _ _ => true
  | .csrr _ _ => true
  | .csrw _ _ => true
  | .csrset _ _ _ => true
  | .csrclr _ _ _ => true
  | .trap _ => true
  | .eret => true
  | .halt => true
  | .ebrk => true
  | .ctxsave _ => true
  | .ctxrest _ => true
  | .tlbinv _ _ => true
  | .idle _ => true
  | .phase _ => true
  | .fenceRel _ => true
  | .fenceAcq _ => true
  | .bar _ _ => true
  | .bcnt _ _ _ => true
  | .fsload _ _ _ => true
  | .ldB _ _ _ _ => true
  | .ldH _ _ _ _ => true
  | .ldW _ _ _ _ => true
  | .ldD _ _ _ _ => true
  | .stB _ _ _ _ => true
  | .stH _ _ _ _ => true
  | .stW _ _ _ _ => true
  | .stD _ _ _ _ => true
  | .cld _ _ _ _ _ _ _ _ _ => true
  | .beq _ _ _ => true
  | .bne _ _ _ => true
  | .blt _ _ _ => true
  | .bge _ _ _ => true
  | .bltu _ _ _ => true
  | .bgeu _ _ _ => true
  | .jal _ _ => true
  | .loop _ _ => true
  | .loopm _ _ _ => true
  | .rep _ _ _ _ => true
  | .vor16 _ _ _ => true
  | .vadd16 _ _ _ => true
  | .vsub16 _ _ _ => true
  | .vmul16 _ _ _ => true
  | .vand16 _ _ _ => true
  | .vxor16 _ _ _ => true
  | .vshl16 _ _ _ => true
  | .vshr16 _ _ _ => true
  | .vsra16 _ _ _ => true
  | .vmin16 _ _ _ => true
  | .vmax16 _ _ _ => true
  | .vfadd16 _ _ _ => true
  | .vfsub16 _ _ _ => true
  | .vfmul16 _ _ _ => true
  | .vfmin16 _ _ _ => true
  | .vfmax16 _ _ _ => true
  | .windowEndWrite _ => false
  | .badgerRoutineRun _ _ _ _ => false
  | .cellRebuild _ _ => false
  | .softError _ _ => false
  | .pageZero _ _ => false
  | .deferredReport _ => false
  | .preemption _ _ => false
  | .launchQueueRead _ _ => false
  | .launchTaskPlace _ _ _ => false
  | .takeWork _ _ => false
  | .hintWalkHop _ => false
  | .taskEnd _ => false
  | .completionTokenWrite _ => false
  | .copyJobStart _ _ => false
  | .copyJobWordWrite _ _ _ => false
  | .shadowFrameReturn _ _ => false
  | .pubSwap _ _ => false
  | .cutJobRun _ _ => false
  | .kvwalkWordWrite _ _ => false
  | .kvwalkHeaderPrefetch _ _ => false
  | .cldJobStart _ _ => false
  | .cldCellAdd _ _ _ => false
  | .squirrelRun _ _ => false
  | .hoardFill _ _ => false
  | .hoardDrop _ _ => false
  | .denDemoteTier1 _ => false
  | .denDemoteFlash _ => false
  | .wakeWrite _ _ => false
  | .denStage1Frame _ => false
  | .pagePromotionDone _ => false
  | .hostApertureRead _ _ _ => false
  | .hostApertureWrite _ _ _ _ _ => false
  | .fabricRequest _ _ _ _ _ => false
  | .remoteFail _ => false
  | .ucieLinkFail _ _ => false
  | .powerUp => false
  | .mainSideReset => false
  | .bootgoWrite _ => false
  | .bootVerifyDone => false
  | .modidWrite _ => false
  | .fabenWrite _ => false
  | .doorbellWrite _ => false
  | .fwtmrWrite _ _ => false
  | .fwtmrExpire _ => false
  | .owlClear _ => false
  | .owlLevelSample _ => false
  | .registerWrite _ _ => false
  | .spdmGetVersion => false
  | .spdmGetCapabilities => false
  | .spdmNegotiateAlgorithms => false
  | .spdmGetDigests => false
  | .spdmGetCertificate => false
  | .spdmChallenge => false
  | .spdmGetMeasurements => false
  | .mgmtReadRegister _ => false
  | .mgmtWriteOwlctl _ _ => false
  | .mgmtWritePwrlim _ => false
  | .mgmtAssertReset => false
  | .mainSidePowerLoss => false
  | .bootStagingBufferWrite _ _ => false

/-- The bytes of an instruction, lowest address first (R25, R4); none for an event. -/
def encode (i : Instr) : List Byte :=
  match encode16 i with
  | some h => [h.extractLsb' 0 8, h.extractLsb' 8 8]
  | none =>
    if i.encoded then
      [(encode32 i).extractLsb' 0 8, (encode32 i).extractLsb' 8 8, (encode32 i).extractLsb' 16 8, (encode32 i).extractLsb' 24 8]
    else []

end Sys2Proof
end

