-- ==== Sys2Proof/Config.lean ====
section
/-! DEFINITION. What the manual leaves open, as constants with no body, and the sizes it fixes. -/

namespace Sys2Proof.Config

/-- A draw among the outcomes the manual allows: the n-th draw of a run, reduced modulo the number of candidates
(R1: the manual states a set of outcomes). -/
opaque choose : Nat → Nat

/-- A free value: the n-th value of a run that the manual leaves open. -/
opaque freeValue : Nat → BitVec 64

/-- How many ticks of TIMEBASE, at 100 MHz, pass in the n-th step (R340: TIMEBASE counts time, and no rule fixes how long
an instruction takes, R1). -/
opaque elapsed : Nat → Nat

/-- The lock bit that a doubleword hashes to at its home; the hash is not architectural (R131). -/
opaque lockBit : Nat → Nat

/-- Whether the ECDSA P-384 signature of a boot image verifies over its body (R348); the arithmetic is that of the
standard, which the manual only names. -/
opaque signatureValid : List Byte → Bool

/-- The SHA-384 hash of a body (R348), as 48 bytes. -/
opaque sha384 : List Byte → BitVec 384

/-- The reply body of an SPDM request (R349): the standard's payload for the request of a number, at the n-th reply. -/
opaque spdmReply : Nat → Nat → BitVec 64

/-- How many events of the model's clock a release may stand behind acquires that nothing orders after it (R279: each release
is at last ordered before every acquire). -/
opaque lag : Nat

/-- Items that a core's deque holds beyond 64 (R255: at least 64). -/
opaque dequeExtra : Nat

/-- The module has a flash tier (R59, R326, R336). -/
opaque flashTier : Bool

/-- Mesh width and height in clusters (R21). -/
def meshX : Nat := 200
def meshY : Nat := 100
/-- Cores in a cluster and threads in a core (R20). -/
def cores : Nat := 8
def threads : Nat := 16

end Sys2Proof.Config
end

