-- ==== Sys2Proof/Machine/State.lean ====
section
/-! DEFINITION. The state of the module as plain data, the reasons a step can stop, and the state after reset.
Reset values the manual does not give are those of log 1 and log 2. -/

namespace Sys2Proof.Machine

/-- Why a step stops with a fault: for no reason. The spec gives every trap and fault a handler, and every unit's failure an
outcome. -/
inductive Fault where
  deriving DecidableEq, Repr

/-- Why an instruction is refused. -/
inductive Refusal where
  /-- No meaning yet for the instruction of that mnemonic. Safe: nothing is proved of it. -/
  | notModelled (mnemonic : String)
  deriving DecidableEq, Repr

/-! ## The consistency model's data (R273 to R287) -/

/-- An agent (R273). -/
inductive AgentId where
  | task (n : Nat)
  | launchUnit (die : BitVec 3)
  | host (port : Bool)
  | fabric (module : BitVec 12)
  deriving DecidableEq, Repr

/-- Where an agent stands at an event (R274). -/
inductive Place where
  | thread (t : TId)
  | unit (die : BitVec 3)
  | outside
  deriving DecidableEq, Repr

/-- For each word named, the latest write event of it that a set holds: a visible set, or what was read (R278). -/
abbrev View := List (Nat × Nat)

/-- One write event of a word: its number, the word's value after it, its author's latest release, and the release of
the synchronising access that made it (R276, R280, R281). -/
structure Version where
  id : Nat
  value : Word
  authorRel : Option Nat
  syncRel : Option Nat
  deriving DecidableEq, Repr

/-- The later part of one word's modification order, newest first; the last version is the word's value before it. -/
structure WordHistory where
  loc : Nat
  versions : List Version
  deriving DecidableEq, Repr

/-- A release (R280): its place and scope, the visible set it carries, and the releases whose contents it carries. Its number
is its place in the boundary order B (R279). -/
structure Release where
  id : Nat
  agent : AgentId
  place : Place
  scope : BitVec 3
  view : View
  carry : List Nat
  deriving DecidableEq, Repr

/-- An agent's part of the model: its visible set, its own writes, what it has read, the releases that precede its next
acquire (R281), the place in B of its latest boundary event (R279), the releases whose contents it holds, and its latest
release. -/
structure Agent where
  agent : AgentId
  view : View
  mine : View
  reads : View
  ahead : List Nat
  pos : Nat
  got : List Nat
  lastRel : Option Nat
  deriving DecidableEq, Repr

/-! ## Accesses and results of long-latency instructions (R44 to R48) -/

/-- A byte range that an access names: the canonical global address of its first byte without the module field
(R76), and its key. It lies in one cell. -/
structure Spot where
  loc : Nat
  key : Nat
  deriving DecidableEq, Repr

/-- Where an access that has passed its checks acts: the spot, and the leaf entry that translated it, 0 outside the heap (R89,
R93). -/
structure Placed where
  spot : Spot
  leaf : Dword
  deriving DecidableEq, Repr

/-- The value a long-latency instruction writes. -/
inductive Result where
  | none
  | x (v : Dword)
  /-- cas.128: the low and the high doubleword (R130) -/
  | pair (lo hi : Dword)
  /-- a status word and a collected cut's three bounds (R173), with the first register of the group -/
  | group (status b1 b2 b3 : Dword) (first : Reg)
  | v (lanes : Lanes Word)
  deriving DecidableEq, Repr

/-- Where a long-latency instruction writes. -/
inductive Dest where
  | none
  | x (r : Reg)
  | pair (r : Reg)
  /-- a status register, and the bounds registers first + 1 to first + 3 of the cut that it may collect (R173) -/
  | group (r first : Reg)
  /-- the loop stack: loopm enters its loop with the word read (R270) -/
  | loop (len : BitVec 17)
  /-- a v register and its active lanes (R186, R193, R194) -/
  | v (r : BitVec 4) (active : Byte)
  deriving DecidableEq, Repr

/-- The parameters of a cld job as read at issue (R222, R226). -/
structure CldJob where
  form : BitVec 2
  fold : Bool
  ord : Bool
  slot : BitVec 3
  acc : BitVec 2
  base : Dword
  stride : Word
  rows : Nat
  cells : Nat
  foldMod : Nat
  isat : Bool
  h : Nat
  w : Nat
  cin : Nat
  ow : Nat
  kh : Nat
  kw : Nat
  sh : Nat
  sw : Nat
  dh : Nat
  dw : Nat
  pt : Nat
  pl : Nat
  k0 : Nat
  padv : Word
  deriving DecidableEq, Repr

/-- What a job does (R147, R149, R168, R226, R322). -/
inductive JobKind where
  | cpy (d s : Dword) (n : Nat)
  | cpy2 (d s : Dword) (w h p q : Nat)
  | gath (d b l : Dword) (c e : Nat)
  | scat (b s l : Dword) (c e : Nat)
  | pub (a : Dword) (c : Nat)
  | cut (record : Dword) (co mis : Bool) (group : Reg)
  | kvwalk (head ring : Dword) (len limit : Nat) (credit : Dword)
  | cld (p : CldJob)
  deriving DecidableEq, Repr

/-- A memory access or a wait of an instruction, with its operands as read at issue. -/
inductive Access where
  /-- a plain load of 2^size bytes (R121) -/
  | load (size : BitVec 2) (a : Dword)
  /-- a plain store of 2^size bytes (R121) -/
  | store (size : BitVec 2) (a : Dword) (value : Dword)
  /-- a synchronising access (R126, R127), with the number of its release once it has been made -/
  | sync (form : SyncForm) (acq rel : Bool) (scope : BitVec 3) (a : Dword) (value : Word) (sent : Option Nat)
  | amo (op : AmoOp) (wide : Bool) (a : Dword) (value : Dword)
  | cas (a : Dword) (expect new : Dword)
  | cas128 (a : Dword) (expectLo expectHi newLo newHi : Dword)
  | ldl (a : Dword)
  /-- stu, with its status where it waits for another module: 0 where that module decides (R133, R134) -/
  | stu (a : Dword) (value : Dword) (status : Option Dword)
  /-- mcst, with the members still to write (R135): none before its translation at the home -/
  | mcst (a : Dword) (value : Dword) (mask : Option (BitVec 4)) (left : Option (List (BitVec 2)))
      (failed : BitVec 4) (cause : Byte)
  | fship (op : BitVec 6) (a : Dword) (argA argB : Dword)
  | vload (a : Dword) (active : Byte)
  | vstore (a : Dword) (active : Byte) (lanes : Lanes Word)
  | vldc (a : Dword) (g : BitVec 4) (active : Byte)
  /-- vstc with the rounding mode, SAT and seed of its issue (R195) -/
  | vstc (a : Dword) (g : BitVec 4) (active : Byte) (lanes : Lanes Word) (rm : BitVec 3) (sat : Bool) (seed : Dword)
  | wptr (job : Dword) (bytes : Option Dword)
  | jwait (job : Dword)
  | jpoll (job : Dword)
  /-- an instruction of several accesses, or one that releases, with its operands as read at issue (R354) -/
  | late (i : Instr) (operands : List Dword)
  /-- a job still to be issued, behind stores that it is to read or an acquire (R127, R146): JCTL and the protection pairs are those
  of the instruction -/
  | job (kind : JobKind) (streamed tied empty : Bool) (jctl : Word) (lwin : List Dword)
  /-- tcov, or with `status` tstat, of a tile that a contracting load owns, at a later moment than the issue (R241) -/
  | tile (status : Bool) (acc : BitVec 2)
  deriving DecidableEq, Repr

/-- What a collected result makes visible when it is written: writes that count as the task's own stores, and writes that
its loads see (R153 to R155). -/
structure Snap where
  view : View
  reads : View
  /-- the job marked a block empty: CUTCTL.MSEEN is set (R170) -/
  missed : Bool
  deriving DecidableEq, Repr

/-- A write still to be made by a long-latency instruction that the thread has moved past (R46, R48). -/
structure Pending where
  id : Nat
  iaddr : Dword
  dest : Dest
  /-- window instructions left -/
  rem : Nat
  /-- the access while it waits, and where it acts once it has passed its checks: none yet (R93) -/
  access : Option Access
  spots : List Placed
  /-- when the access arrived (R124, R132) -/
  arrival : Nat
  result : Result
  /-- a window instruction wrote the destination (R47) -/
  wr : Bool
  /-- flags of FLAGS to set with the write (R199) -/
  flags : Word
  /-- the fallback code of R56 to record with the write, or 0 -/
  warn : Byte
  /-- releases of the task made while the access waited: they carry its writes (R280, R282) -/
  rels : List Nat
  /-- the scopes of the task's acquires made while the access waited (R281) -/
  acqs : List (BitVec 3)
  /-- the snapshot at `.sy` that the write of the result begins (R153) -/
  snap : Option Snap
  deriving DecidableEq, Repr

/-! ## Threads (R176, R247) -/

/-- One entry of the loop stack (R270). -/
structure LoopEntry where
  start : Dword
  stop : Dword
  count : Word
  deriving DecidableEq, Repr

/-- The repeat that the thread is in: the prefix's address, its count and its step bits (R50). -/
structure Repeat where
  addr : Dword
  count : Nat
  b : Bool
  a : Bool
  d : Bool
  deriving DecidableEq, Repr

/-- A barrier instance: an instance of its scope, an id and a launch key (R289). -/
structure BarKey where
  scope : BitVec 3
  /-- what the scope's instance is of: for `.th` the task; else the first thread of the core, cluster or die; 0 above -/
  owner : Nat
  id : BitVec 5
  key : BitVec 16
  deriving DecidableEq, Repr

/-- What a thread in WAIT waits for (R247). -/
inductive Wait where
  /-- the access of the instruction at the program counter: with la = 0, or held there (R136); where it acts, once it has
  passed its checks (R93) -/
  | access (dest : Dest) (acc : Access) (spots : List Placed) (arrival : Nat) (warn : Byte) (la : BitVec 4)
  /-- the end of a window, with a result outstanding (R46) -/
  | window
  /-- the instruction at the program counter is held and tries again (R354, R92, R306, R282) -/
  | retry
  /-- wfw, in order of arrival (R262) -/
  | wfw (arrival : Nat)
  /-- gang formation, with the size asked for (R264) -/
  | gang (size : Nat)
  /-- a barrier at which the thread has arrived (R290) -/
  | barrier (key : BarKey)
  /-- the instance at which this thread would arrive must complete first (R290) -/
  | barrierFull (key : BarKey)
  /-- idle, with its destination (R311) -/
  | idle (rd : Reg)
  /-- the end of the task, until its jobs are done or faulted (R245); halted by `halt` or a handler fault or not -/
  | taskEnd
  deriving DecidableEq, Repr

/-- The states of a hardware thread (R247). -/
inductive RunState where
  | free
  | ready
  | wait (w : Wait)
  | follow
  deriving DecidableEq, Repr

/-- The task a thread holds (R244, R253). -/
structure Task where
  id : Nat
  launch : Nat
  /-- the join counter's address, if it was spawned with one -/
  counter : Option Dword
  tiles : Nat
  res : Nat
  sliceBase : Nat
  sliceLen : Nat
  rgn : List Dword
  deriving DecidableEq, Repr

/-- A deferred report held for a task (R298): the cause, what FAULTADDR and FAULTINFO hold, the absent pages where the
scheduler takes it: none where the handler does; and the tile that it is of. -/
structure Report where
  cause : Byte
  addr : Dword
  info : Dword
  pages : List Dword
  tile : Nat
  deriving DecidableEq, Repr

/-- The triggers of an armed kernel (R157). -/
structure Arming where
  trig : BitVec 2
  base : Dword
  length : Nat
  deriving DecidableEq, Repr

/-- A thread's Squirrel: its kernel, its arming and the y registers (R156 to R158). running holds while a run of the
kernel executes: between two steps no run is under way. base is the address that the kernel was read from (R185). -/
structure Squirrel where
  kernel : Option (List Half)
  base : Dword
  armed : Option Arming
  y : List Dword
  running : Bool
  deriving DecidableEq, Repr

/-- The user CSRs that a context frame saves, in its order, and the thread's others (R302, R313). -/
structure Csrs where
  flags : Word
  fpctl : Word
  expr : Word
  cellcv : Word
  drscl : Word
  jctl : Word
  cutctl : Word
  barp : Word
  srseed : Dword
  srctr : Dword
  warnc : Word
  warnpc : Dword
  lwin : List Dword
  tile : List Word
  org : List Word
  ext : List Word
  ldkey : BitVec 16
  tframe : Dword
  sscr : Dword
  even : BitVec 4
  deriving DecidableEq, Repr

/-- A hardware thread. -/
structure Thread where
  x : Vector Dword 32
  v : Vector (Lanes Word) 16
  m : Vector Byte 8
  pc : Dword
  /-- the loop stack, innermost first -/
  loops : List LoopEntry
  csr : Csrs
  repc : Word
  rep : Option Repeat
  run : RunState
  /-- supervisor mode (R304) -/
  sup : Bool
  /-- in a handler, with the STATE of the frame at its entry (R305, R308) -/
  handler : Option Dword
  pend : List Pending
  /-- the number of the next pending entry (the MODEL's own) -/
  nextPend : Nat
  task : Option Task
  squirrel : Squirrel
  report : Option Report
  /-- while in a handler: the pending entries as the save found them (R48, R303) -/
  kept : List Pending
  /-- snapshots due since results were written (R153) -/
  snaps : List Snap
  /-- returned from a stop and no instruction issued since: REPC.ACT holds at a repeat prefix only (R52) -/
  returned : Bool
  /-- the arrivals of the accesses that the tlbinv at which the thread stands waits for: translated through the entries that it
  has dropped (R94) -/
  dropped : Option (List Nat)
  /-- GANG: SIZE and MEMBER, and the leader (R264, R266) -/
  gangSize : Nat
  gangMember : Nat
  gangLeader : TId
  deriving DecidableEq, Repr

/-! ## Engines -/

/-- The states of a job (R141, R233). -/
inductive JobState where
  | queued
  | running
  | done
  | faulted (cause : Byte)
  | stopped (cause : Byte) (request : Nat) (addr : Dword)
  deriving DecidableEq, Repr

/-- A word that a cut has still to write: counted says that it lies in the destinations, and base is the first byte of that
destination (R167, R172). -/
structure Planned where
  a : Dword
  word : Word
  poison : Bool
  counted : Bool
  base : Dword
  deriving DecidableEq, Repr

/-- A page header as a walk read it (R318, R320). -/
structure KvHeader where
  link : Dword
  next : Dword
  ntok : Nat
  tbytes : Nat
  /-- the header breaks R320 -/
  bad : Bool
  deriving DecidableEq, Repr

/-- One column of a resident slot: its cell, its sparse bitmap, and the words of its cell that are damaged, by number (R219,
R237, R317). -/
structure SlotColumn where
  cell : List Byte
  bitmap : BitVec 64
  damaged : List Nat
  deriving DecidableEq, Repr

/-- A resident slot (R219): dense, or the N:M pattern and unit length of R237. -/
structure Slot where
  valid : Bool
  fmt : Byte
  pattern : Option (Nat × Nat × Nat)
  columns : List SlotColumn
  deriving DecidableEq, Repr

/-- A job in an entry of a cluster's queue (R138 to R141). -/
structure Job where
  cluster : CId
  entry : BitVec 5
  seq : BitVec 24
  task : Nat
  /-- the issuing thread, its key and its mode -/
  tid : TId
  key : BitVec 16
  sup : Bool
  /-- the issuing thread's protection pairs -/
  lwin : List Dword
  kind : JobKind
  state : JobState
  /-- every destination byte lies in the issuing thread's own slice (R143) -/
  streamed : Bool
  /-- positions landed, in words: all below `landed`, and those of `scattered` -/
  landed : Nat
  scattered : List Nat
  /-- heap cells to which it has carried poison (R145) -/
  tainted : List Nat
  /-- index words read (R148) -/
  indices : List (Nat × Word)
  /-- source words read, with their poison, of a job that may name a word twice (R146): by their canonical place -/
  known : List (Nat × Word × Bool)
  /-- what the issuing task could read at issue (R146), and its latest release -/
  view : View
  authorRel : Option Nat
  /-- the writes landed, for collection (R155) -/
  wrote : View
  /-- the barrier it is tied to (R142) -/
  tied : Option BarKey
  /-- a collected cut's bounds (R173): k, m, and counts -/
  bounds : Option (Dword × Dword × Dword)
  missed : Bool
  operr : Bool
  /-- once a cut has read what it reads: the words still to be written, in order, and how it ends (R171, R172) -/
  plan : Option (List Planned × JobState)
  /-- a contracting load's cluster's slots at its issue (R240) -/
  slots : List Slot
  /-- kvwalk: the pages done, the token bytes done of the current page, and the headers read, oldest first -/
  pages : Nat
  inPage : Nat
  headers : List KvHeader
  deriving DecidableEq, Repr

/-- An accumulator tile that a task holds (R219 to R221). -/
structure Tile where
  task : Nat
  acc : BitVec 2
  cluster : CId
  elems : List Word
  v : Bool
  d : Bool
  f : Bool
  t : Bool
  operr : Bool
  isat : Bool
  cov : BitVec 64
  spilled : Bool
  deriving DecidableEq, Repr

/-- A spawned or dispatched item (R253), or a hinted one on its walk (R258). -/
structure Item where
  id : Nat
  entry : Dword
  args : List Dword
  tiles : Nat
  res : Nat
  slice : Nat
  mode : Nat
  counter : Option Dword
  launch : Nat
  tile : List Word
  org : List Word
  ext : List Word
  key : BitVec 16
  rgn : List Dword
  /-- the releases of its queue tokens (R257) -/
  tokens : List Nat
  deriving DecidableEq, Repr

/-- An item on its walk: where it stands, where it goes, and how far it may be taken (R258). -/
structure Walk where
  item : Item
  here : CId
  target : CId
  radius : Nat
  deriving DecidableEq, Repr

/-- A dependence entry (R260, R261). -/
structure DepEntry where
  index : Byte
  gen : BitVec 16
  held : Option (Item × Nat)
  deriving DecidableEq, Repr

/-- A cluster's own state. -/
structure Cluster where
  /-- jobs issued so far in each queue entry, modulo 2^24 (R139) -/
  seqs : List (BitVec 24)
  /-- the launch that holds the slots (R220) -/
  holder : Option Nat
  slots : List Slot
  codebook : List Byte
  /-- damaged roots of the codebook (R317) -/
  badRoots : List Byte
  modeZero : List Item
  modeOne : List Item
  hints : List Item
  deps : List DepEntry
  deriving DecidableEq, Repr

/-- A core's own state (R80, R81, R87, R255). -/
structure CoreState where
  rgn : List Dword
  deque : List Item
  keys : List (BitVec 16)
  /-- the launch that holds each block of the slice (R81, R118) -/
  owners : List (Option Nat)
  /-- ranges of the slice held by tasks: task, first offset, length -/
  grants : List (Nat × Nat × Nat)
  deriving DecidableEq, Repr

/-- A launch queue's registers (R344). -/
structure LaunchQueue where
  lqbase : Dword
  lqsize : Dword
  lqprod : Word
  lqcons : Word
  cqbase : Dword
  cqsize : Dword
  cqhead : Word
  cqvec : Word
  deriving DecidableEq, Repr

/-- A state of a table entry that the translator holds: of a page's L3 entry, or of a sub-page's L4 entry (R83, R93). A page of
a held span, and a sub-page of a held table, that is not listed has an entry of 0. -/
structure SpanEntry where
  page : Nat
  sub : Bool
  leaf : Dword
  deriving DecidableEq, Repr

/-- A shadow frame that a page holds (R144). -/
structure Shadow where
  page : Nat
  frame : Nat
  deriving DecidableEq, Repr

/-- A compute die's own state. -/
structure Die where
  etroot : Dword
  tvec : Dword
  evpend : BitVec 4
  fwtmr : Dword
  queues : List LaunchQueue
  logbase : Dword
  logsize : Dword
  loghead : Word
  logtail : Word
  logvec : Word
  logseq : Word
  loglost : Nat
  /-- records of the ring, oldest first, whose write waits for the ring's page (R92) -/
  logwait : List (List Byte)
  /-- the last 256 records, newest first, which the management port keeps (R349) -/
  records : List (List Byte)
  fpbase : Dword
  fpcount : Dword
  /-- frames of the frame pool in use -/
  fptaken : List Nat
  spbase : Dword
  spcount : Dword
  /-- shadow frames in use by a page, and those replaced by pub and not yet returned -/
  shadows : List Shadow
  returning : List Nat
  /-- pool frames that pub has given to pages, and frames of pages that it has given to the pool, by physical address -/
  serving : List Nat
  given : List Nat
  spans : List SpanEntry
  deriving DecidableEq, Repr

/-- The fields of a launch descriptor and the launch's progress (R248 to R252). -/
structure Launch where
  id : Nat
  die : BitVec 3
  queue : BitVec 2
  desc : Dword
  entry : Dword
  size : List Nat
  grid : List Nat
  threads : Nat
  tiles : Nat
  res : Nat
  steal : Nat
  slice : Nat
  prio : Nat
  hint : Option (Nat × Nat × Nat)
  key : BitVec 16
  token : Dword
  rgn : List Dword
  /-- rejected, with its cause -/
  rejected : Option Byte
  /-- tiles whose task has started -/
  started : List Nat
  /-- the release of the descriptor's read, and those of the tasks' ends (R257) -/
  tokens : List Nat
  /-- in the completion order, waiting for the ring -/
  finished : Bool
  deriving DecidableEq, Repr

/-- What a saved task waits for (R247, R299). -/
inductive Resume where
  | ready
  /-- a page that is to be home: its heap address (R90) -/
  | page (a : Dword)
  /-- every page of several stopped contracting loads (R352) -/
  | pages (l : List Dword)
  /-- a join counter, by its word (R259) -/
  | join (loc : Nat)
  /-- room on a core's deque (R254) -/
  | deque (c : CoreId)
  /-- yielded: the items that waited then (R263) -/
  | yielded (items : List Nat)
  /-- held by ctxsave (R309) -/
  | held
  deriving DecidableEq, Repr

/-- A saved task: what the hardware keeps beside its frame. -/
structure Saved where
  task : Task
  frame : Dword
  /-- the frame's 2,048 bytes as the hardware saved them: what no other task's store reaches (R6, log 13) -/
  image : List Byte
  cluster : CId
  core : Nat
  /-- its protection pairs allow some access, so it resumes on its core (R247) -/
  pinned : Bool
  resume : Resume
  /-- its pending entries as the save found them -/
  accesses : List Pending
  report : Option Report
  /-- releases of queue tokens that its resume acquires (R330) -/
  tokens : List Nat
  deriving DecidableEq, Repr

/-- What the hardware keeps of the frame of a task that is in a handler, or held (R301, R305, R309): its first byte's canonical
address, and its 2,048 bytes, which only the task and a handler can change (R6, log 13). -/
structure FrameImage where
  task : Nat
  loc : Nat
  bytes : List Byte
  deriving DecidableEq, Repr

/-- A parked continuation (R325, R329). -/
structure Continuation where
  saved : Saved
  /-- the frame's 2,048 bytes -/
  frame : List Byte
  rd : Reg
  pages : List Dword
  deriving DecidableEq, Repr

/-- A Den entry that is not FREE (R325, R332). -/
inductive DenEntry where
  | pending (reply : Dword) (rel : Nat)
  | parked (c : Continuation)
  /-- woken: the reply, the new frame once stage 1 has it, and the pages still to come of stages 2 and 3 -/
  | woken (c : Continuation) (reply : Dword) (rel : Nat) (frame : Option Dword) (stage2 stage3 : List Dword)
  deriving DecidableEq, Repr

/-- A stage 3 promotion that outlives its entry (R332, R334). -/
structure Stage3 where
  die : BitVec 3
  pages : List Dword
  deriving DecidableEq, Repr

/-- A lock bit that is held (R131): the key of the doubleword at its home, its holder, its broken flag. -/
structure Lock where
  loc : Nat
  holder : TId
  broken : Bool
  deriving DecidableEq, Repr

/-- A line of a hoard (R161): its owner, its cell, and the cell's sixteen words as filled, each with the version that it holds,
if any write of the word is on record. -/
structure HoardLine where
  owner : TId
  cell : Dword
  words : List (Word × Option Version)
  deriving DecidableEq, Repr

/-- A barrier instance in use (R289, R290). -/
structure Barrier where
  key : BarKey
  need : Nat
  arr : Nat
  cnt : BitVec 56
  /-- the arrivals' releases, and the tied writes landed -/
  rels : List Nat
  tied : View
  /-- saved tasks whose arrival stands (R292) -/
  standing : List Nat
  deriving DecidableEq, Repr

/-- A saved task whose arrival stood while its barrier completed: it acquires the arrivals' releases and the tied writes when it
is restored (R292). -/
structure Passed where
  task : Nat
  key : BarKey
  rels : List Nat
  tied : View
  deriving DecidableEq, Repr

/-- An Owl monitor unit (R350). -/
structure Owl where
  unit : OwlUnit
  ctl : Dword
  /-- TIMEBASE at the start of the sampling period (R350) -/
  since : Dword
  min : Word
  max : Word
  cnt : Dword
  bins : List Word
  deriving DecidableEq, Repr

/-- What the module sends out: the MODEL's own record of it (log 3). -/
inductive Message where
  | msix (vector : BitVec 6)
  | hostReadData (port : Bool) (value : Dword)
  /-- Unsupported Request: a read returns all ones (R338) -/
  | hostUnsupported (port : Bool)
  | fabricReply (dest : BitVec 12) (value : Dword)
  /-- an answer of several doublewords -/
  | fabricData (dest : BitVec 12) (value : List Dword)
  | fabricFault (dest : BitVec 12) (cause : Byte)
  | spdm (request : Nat) (body : BitVec 64)
  | measurement (slot1 : BitVec 384)
  | mgmtData (value : Dword)
  /-- a log record served by the management port (R349) -/
  | mgmtRecord (die : BitVec 3) (bytes : List Byte)
  | linkFailure (a b : BitVec 3)
  deriving DecidableEq, Repr

/-- An access that left for another module, with what its reply completes (R346). -/
structure Remote where
  tid : TId
  module : BitVec 12
  deriving DecidableEq, Repr

/-! ## The module -/

/-- What the module's own register space governs for the module as a whole (R340); no thread writes any of it. -/
structure Mgmt where
  modid : BitVec 12
  faben : Bool
  /-- BOOTST bits [7:0] and the reason of bits [15:8] (R348) -/
  bootst : Byte
  bootReason : Byte
  denwin : Dword
  pwrlim : Half
  hap : List Dword
  /-- FROUTE entries that are not 0 -/
  froute : List (Nat × Word)
  /-- the MSI-X table: its doublewords that are not 0, by number (R338) -/
  msix : List (Nat × Dword)
  /-- measurement slot 1 (R348) -/
  slot1 : BitVec 384
  /-- the main side has power, and no link has failed (R347, R349) -/
  powered : Bool
  stopped : Bool
  /-- the fused minimum VERSION (R348): none given, so any (log 11) -/
  minVersion : Word
  deriving DecidableEq, Repr

/-- Everything else of the module. -/
structure Chip where
  /-- the thread whose instruction is next, and its state -/
  tid : TId
  t : Thread
  /-- the other threads that differ from their state after reset -/
  others : List (TId × Thread)
  mem : List Host.Cell
  /-- words whose full/empty bit is empty, and poisoned cells and slice words, by the key of their first byte -/
  empties : List Nat
  poison : List Nat
  cores : List (CoreId × CoreState)
  clusters : List (CId × Cluster)
  dies : Lanes Die
  /-- the Badgers' routine table (R69) -/
  routines : List (BitVec 6 × List Half)
  jobs : List Job
  tiles : List Tile
  launches : List Launch
  walks : List Walk
  saved : List Saved
  images : List FrameImage
  locks : List Lock
  barriers : List Barrier
  passed : List Passed
  /-- hoard lines (R161) -/
  hoard : List HoardLine
  /-- lines asked for and not yet filled (R128, R160) -/
  asked : List (TId × Dword)
  /-- events of armed kernels that may start a run (R157, R158): the thread and y1 -/
  triggers : List (TId × Dword)
  den : List (BitVec 20 × DenEntry)
  stage3 : List Stage3
  denT1 : Word
  denT2 : Word
  /-- page idle starts, in ticks (R326); clean tier copies and their frames; current flash copies and their frames -/
  idle : List (Dword × Nat)
  tcopies : List (Dword × Nat)
  flash : List (Dword × Nat)
  /-- level-2 flash copies made before the last reset or loss of power: pages and frames (R336) -/
  relics : List (Dword × Nat)
  /-- pages whose promotion is in progress (R90) -/
  promoting : List Dword
  /-- pages and sub-pages whose zeroing is in progress, with the entry that names the frame (R92) -/
  zeroing : List (Dword × Bool × Dword)
  timebase : Dword
  owls : List Owl
  channels : List (Nat × Nat × List (BitVec 48))
  remotes : List Remote
  out : List Message
  /-- releases of the ends of children, by the word of their join counter (R257) -/
  joins : List (Nat × List Nat)
  -- the consistency model
  hist : List WordHistory
  agents : List Agent
  rels : List Release
  /-- releases at `.sy` that have completed, and the writes that they waited for (R287) -/
  sysRels : List Nat
  reached : View
  /-- numbers of the next write event or release, arrival, task, item and launch (the MODEL's own) -/
  clock : Nat
  nextTask : Nat
  /-- draws made, free values taken and steps done (the MODEL's own, log 3) -/
  draws : Nat
  frees : Nat
  steps : Nat
  deriving DecidableEq, Repr

/-- The state of the module: the events that are due and the outside world's script are the MODEL's own (log 3). -/
structure State where
  mgmt : Mgmt
  chip : Chip
  inbox : List Instr
  env : List Instr
  deriving DecidableEq, Repr

/-! ## Reset -/

/-- A thread's CSRs at reset, by their maps; LDKEY and TFRAME by log 1. -/
def Csrs.reset : Csrs where
  flags := 0
  fpctl := 0
  expr := 8
  cellcv := 0
  drscl := 0x7F
  jctl := 0
  cutctl := 0
  barp := 0
  srseed := 0
  srctr := 0
  warnc := 0
  warnpc := 0
  lwin := [0, 0, 0, 0]
  tile := [0, 0, 0, 0]
  org := [0, 0, 0, 0]
  ext := [0, 0, 0, 0]
  ldkey := 0
  tframe := 0
  sscr := 0
  even := 0

/-- No kernel (R156); the y registers by log 1. -/
def Squirrel.reset : Squirrel where
  kernel := none
  base := 0
  armed := none
  y := [0, 0, 0, 0, 0, 0, 0, 0]
  running := false

/-- A FREE thread (R247). -/
def Thread.reset : Thread where
  x := Vector.replicate 32 0
  v := Vector.replicate 16 ⟨0, 0, 0, 0, 0, 0, 0, 0⟩
  m := Vector.replicate 8 0
  pc := 0
  loops := []
  csr := Csrs.reset
  repc := 0
  rep := none
  run := .free
  sup := false
  handler := none
  pend := []
  nextPend := 0
  task := none
  squirrel := Squirrel.reset
  report := none
  kept := []
  snaps := []
  returned := false
  dropped := none
  gangSize := 0
  gangMember := 0
  gangLeader := ⟨0, 0, 0, 0⟩

/-- A resident slot that holds nothing (R219). -/
def Slot.reset : Slot := ⟨false, 0, none, []⟩

/-- A cluster at reset (R139, R219, R260). -/
def Cluster.reset : Cluster where
  seqs := List.replicate 32 0
  holder := none
  slots := List.replicate 8 Slot.reset
  codebook := []
  badRoots := []
  modeZero := []
  modeOne := []
  hints := []
  deps := []

/-- A core at reset (R81, R87). -/
def CoreState.reset : CoreState := ⟨[0, 0, 0, 0], [], List.replicate 16 0, List.replicate 16 none, []⟩

/-- A launch queue at reset (R340). -/
def LaunchQueue.reset : LaunchQueue := ⟨0, 0, 0, 0, 0, 0, 0, 0⟩

/-- A die at reset (R340). -/
def Die.reset : Die where
  etroot := 0
  tvec := 0
  evpend := 0
  fwtmr := 0
  queues := List.replicate 4 LaunchQueue.reset
  logbase := 0
  logsize := 0
  loghead := 0
  logtail := 0
  logvec := 0
  logseq := 0
  loglost := 0
  logwait := []
  records := []
  fpbase := 0
  fpcount := 0
  fptaken := []
  spbase := 0
  spcount := 0
  shadows := []
  returning := []
  serving := []
  given := []
  spans := []

/-- The module's own registers at reset: BOOTST holds 1, waiting (R348). -/
def Mgmt.reset : Mgmt where
  modid := 0
  faben := false
  bootst := 1
  bootReason := 0
  denwin := 0
  pwrlim := 0
  hap := List.replicate 16 0
  froute := []
  msix := []
  slot1 := 0
  powered := true
  stopped := false
  minVersion := 0

/-- Everything else at reset: memory lists nothing (log 2), and no thread holds a task (R247). -/
def Chip.reset : Chip where
  tid := ⟨0, 0, 0, 0⟩
  t := Thread.reset
  others := []
  mem := []
  empties := []
  poison := []
  cores := []
  clusters := []
  dies := ⟨Die.reset, Die.reset, Die.reset, Die.reset, Die.reset, Die.reset, Die.reset, Die.reset⟩
  routines := []
  jobs := []
  tiles := []
  launches := []
  walks := []
  saved := []
  images := []
  locks := []
  barriers := []
  passed := []
  hoard := []
  asked := []
  triggers := []
  den := []
  stage3 := []
  denT1 := 0
  denT2 := 0
  idle := []
  tcopies := []
  flash := []
  relics := []
  promoting := []
  zeroing := []
  timebase := 0
  owls := []
  channels := []
  remotes := []
  out := []
  joins := []
  hist := []
  agents := []
  rels := []
  sysRels := []
  reached := []
  clock := 1
  nextTask := 1
  draws := 0
  frees := 0
  steps := 0

/-- The module right after a main-side reset, with nothing placed in memory (R348). -/
def State.reset : State := ⟨Mgmt.reset, Chip.reset, [], []⟩

end Sys2Proof.Machine
end

