-- ==== Sys2Proof/Machine/Store.lean ====
section
/-! DEFINITION. Memory as a list in canonical form, the tables of the state by their keys, and the free values. -/

namespace Sys2Proof

/-! ## Eight lanes -/

/-- The element of eight with a number. -/
def Lanes.get {α : Type} (l : Lanes α) (i : BitVec 3) : α :=
  match i with
  | 0#3 => l.l0
  | 1#3 => l.l1
  | 2#3 => l.l2
  | 3#3 => l.l3
  | 4#3 => l.l4
  | 5#3 => l.l5
  | 6#3 => l.l6
  | 7#3 => l.l7
/-- Eight elements with one set. -/
def Lanes.set {α : Type} (l : Lanes α) (i : BitVec 3) (v : α) : Lanes α :=
  match i with
  | 0#3 => { l with l0 := v }
  | 1#3 => { l with l1 := v }
  | 2#3 => { l with l2 := v }
  | 3#3 => { l with l3 := v }
  | 4#3 => { l with l4 := v }
  | 5#3 => { l with l5 := v }
  | 6#3 => { l with l6 := v }
  | 7#3 => { l with l7 := v }
/-- Eight elements from a function of their number. -/
def Lanes.of {α : Type} (f : BitVec 3 → α) : Lanes α := ⟨f 0, f 1, f 2, f 3, f 4, f 5, f 6, f 7⟩
/-- The eight elements in order. -/
def Lanes.list {α : Type} (l : Lanes α) : List α := [l.l0, l.l1, l.l2, l.l3, l.l4, l.l5, l.l6, l.l7]
/-- The eight numbers. -/
def lanes8 : List (BitVec 3) := [0, 1, 2, 3, 4, 5, 6, 7]

end Sys2Proof

namespace Sys2Proof.Machine

/-! ## Memory (R4, R23, log 2) -/

/-- What an unlisted address reads as (log 2). -/
def Mem.default : Byte := 0

/-- One byte. -/
def Mem.get : List Host.Cell → Nat → Byte
  | [], _ => Mem.default
  | (k, b) :: rest, a => if k = a then b else Mem.get rest a

/-- The halfword at an address, little-endian (R4). -/
def Mem.half (m : List Host.Cell) (a : Nat) : Half := Mem.get m (a + 1) ++ Mem.get m a
/-- The word at an address. -/
def Mem.word (m : List Host.Cell) (a : Nat) : Word := Mem.half m (a + 2) ++ Mem.half m a
/-- The doubleword at an address. -/
def Mem.dword (m : List Host.Cell) (a : Nat) : Dword := Mem.word m (a + 4) ++ Mem.word m a
/-- n bytes from an address on. -/
def Mem.bytes (m : List Host.Cell) (a : Nat) : Nat → List Byte
  | 0 => []
  | n + 1 => Mem.get m a :: Mem.bytes m (a + 1) n

/-- The cells that n bytes written at an address leave: those that differ from the default. -/
def Mem.cells : Nat → List Byte → List Host.Cell
  | _, [] => []
  | a, b :: bs => if b = Mem.default then Mem.cells (a + 1) bs else (a, b) :: Mem.cells (a + 1) bs

/-- Bytes written at an address. -/
def Mem.write (m : List Host.Cell) (a : Nat) (bs : List Byte) : List Host.Cell :=
  m.filter (fun c => decide (c.1 < a)) ++ Mem.cells a bs ++ m.filter (fun c => decide (a + bs.length ≤ c.1))

/-- len bytes copied from one address to another, apart from it. -/
def Mem.copy (m : List Host.Cell) (src dst len : Nat) : List Host.Cell :=
  m.filter (fun c => decide (c.1 < dst)) ++
    (m.filter (fun c => decide (src ≤ c.1) && decide (c.1 < src + len))).map (fun c => (c.1 - src + dst, c.2)) ++
    m.filter (fun c => decide (dst + len ≤ c.1))

/-- Addresses strictly rising, no entry at the default. -/
def Memory.wf : List Host.Cell → Bool
  | [] => true
  | (a, b) :: rest => decide (b ≠ Mem.default) && (rest.all fun c => decide (a < c.1)) && Memory.wf rest

/-- The bytes of a halfword, word and doubleword, lowest address first (R4). -/
def bytesOfHalf (h : Half) : List Byte := [h.extractLsb' 0 8, h.extractLsb' 8 8]
def bytesOfWord (w : Word) : List Byte := [w.extractLsb' 0 8, w.extractLsb' 8 8, w.extractLsb' 16 8, w.extractLsb' 24 8]
def bytesOfDword (d : Dword) : List Byte := bytesOfWord (d.extractLsb' 0 32) ++ bytesOfWord (d.extractLsb' 32 32)
/-- The low 1, 2, 4 or 8 bytes of a doubleword, by the size code 0 to 3. -/
def bytesOfSize (size : BitVec 2) (d : Dword) : List Byte := (bytesOfDword d).take (2 ^ size.toNat)
/-- A number from bytes, lowest first. -/
def natOfBytes : List Byte → Nat
  | [] => 0
  | b :: bs => b.toNat + 256 * natOfBytes bs
/-- A byte of a list, 0 past its end. -/
def byteAt (bs : List Byte) (i : Nat) : Byte := bs.getD i 0
/-- n bytes of a list from position i as a number. -/
def fieldAt (bs : List Byte) (i n : Nat) : Nat := natOfBytes ((bs.drop i).take n)

/-! ## Places in memory: keys of bytes -/

/-- The key of a physical byte of a die (R86). -/
def heapKey (die : BitVec 3) (pa : Nat) : Nat := die.toNat * 2 ^ 40 + pa
/-- The key of a byte of a core's slice (R116). -/
def sliceKey (k : CoreId) (off : Nat) : Nat :=
  2 ^ 43 + (((k.die.toNat * 64 + k.cx % 50) * 64 + k.cy % 50) * 8 + k.core) * 2 ^ 16 + off
/-- The key of a byte of a flash frame of a die (R59). -/
def flashKey (die : BitVec 3) (fa : Nat) : Nat := 2 ^ 44 + die.toNat * 2 ^ 40 + fa
/-- Whether a key is of a slice: there poison is kept by the word (R119), elsewhere by the cell (R68). -/
def isSliceKey (k : Nat) : Bool := decide (2 ^ 43 ≤ k) && decide (k < 2 ^ 44)
/-- The unit that poison is kept for: its first byte's key. -/
def poisonUnit (k : Nat) : Nat := if isSliceKey k then k / 4 * 4 else k / 64 * 64
def poisonSize (k : Nat) : Nat := if isSliceKey k then 4 else 64

/-- The canonical address, without the module field, of a byte of a slice (R76). -/
def sliceLoc (k : CoreId) (off : Nat) : Nat :=
  2 ^ 51 + k.die.toNat * 2 ^ 48 + (k.cx % 50) * 2 ^ 42 + (k.cy % 50) * 2 ^ 36 + k.core * 2 ^ 33 + off
/-- The canonical address, without the module field, of a heap byte (R76). -/
def heapLoc (die : BitVec 3) (off : Nat) : Nat := die.toNat * 2 ^ 48 + off
/-- The global address of this module's byte (R77: 0xFFF names this module). -/
def globalOf (loc : Nat) : Dword := BitVec.ofNat 64 (0xFFF * 2 ^ 52 + loc)

/-! ## Sorted sets of keys -/

/-- A key added to a rising list. -/
def keyInsert : List Nat → Nat → List Nat
  | [], k => [k]
  | a :: rest, k => if k < a then k :: a :: rest else if k = a then a :: rest else a :: keyInsert rest k
/-- A key removed. -/
def keyErase (l : List Nat) (k : Nat) : List Nat := l.filter (fun a => decide (a ≠ k))

/-- The keys of one range put at another in place of those there. -/
def keyCopy (l : List Nat) (src dst len : Nat) : List Nat :=
  (l.filter fun k => decide (src ≤ k) && decide (k < src + len)).foldl (fun acc k => keyInsert acc (k - src + dst))
    (l.filter fun k => decide (k < dst) || decide (dst + len ≤ k))

/-! ## Tables by key -/

/-- The value of a key in a table, if it is there. -/
def tableGet {κ α : Type} [DecidableEq κ] : List (κ × α) → κ → Option α
  | [], _ => none
  | (k, v) :: rest, q => if k = q then some v else tableGet rest q
/-- A table without a key. -/
def tableErase {κ α : Type} [DecidableEq κ] (l : List (κ × α)) (q : κ) : List (κ × α) :=
  l.filter (fun e => decide (e.1 ≠ q))
/-- A table with a key's value set. -/
def tableSet {κ α : Type} [DecidableEq κ] : List (κ × α) → κ → α → List (κ × α)
  | [], q, v => [(q, v)]
  | (k, w) :: rest, q, v => if k = q then (k, v) :: rest else (k, w) :: tableSet rest q v

/-! ## Threads, cores, clusters and dies -/

/-- A thread's state. -/
def Chip.thread (c : Chip) (tid : TId) : Thread :=
  if tid = c.tid then c.t else (tableGet c.others tid).getD Thread.reset
/-- A thread's state set. -/
def Chip.setThread (c : Chip) (tid : TId) (t : Thread) : Chip :=
  if tid = c.tid then { c with t := t }
  else if t = Thread.reset then { c with others := tableErase c.others tid }
  else { c with others := tableSet c.others tid t }
/-- The machine seen with another thread as the one that acts. -/
def Chip.focus (c : Chip) (tid : TId) : Chip :=
  if tid = c.tid then c
  else
    let t := c.thread tid
    let c' := { c with others := tableErase c.others tid }
    let others := if c.t = Thread.reset then c'.others else tableSet c'.others c.tid c.t
    { c' with tid := tid, t := t, others := others }
/-- Every thread that differs from its state after reset, and the one that acts. -/
def Chip.threads (c : Chip) : List (TId × Thread) := (c.tid, c.t) :: c.others
/-- The threads of a core that are listed. -/
def Chip.threadsOf (c : Chip) (k : CoreId) : List (TId × Thread) := c.threads.filter (fun e => decide (e.1.coreId = k))

def Chip.core (c : Chip) (k : CoreId) : CoreState := (tableGet c.cores k).getD CoreState.reset
def Chip.setCore (c : Chip) (k : CoreId) (v : CoreState) : Chip := { c with cores := tableSet c.cores k v }
def Chip.cluster (c : Chip) (k : CId) : Cluster := (tableGet c.clusters k).getD Cluster.reset
def Chip.setCluster (c : Chip) (k : CId) (v : Cluster) : Chip := { c with clusters := tableSet c.clusters k v }

def Chip.die (c : Chip) (d : BitVec 3) : Die := Lanes.get c.dies d
def Chip.setDie (c : Chip) (d : BitVec 3) (v : Die) : Chip := { c with dies := Lanes.set c.dies d v }

/-! ## Choices and free values -/

/-- A number below n, drawn where n is at least 2 (R1, log 3). -/
def Chip.draw (c : Chip) (n : Nat) : Nat × Chip :=
  if n ≤ 1 then (0, c) else (Config.choose c.draws % n, { c with draws := c.draws + 1 })
/-- A value that the manual leaves open. -/
def Chip.free (c : Chip) : BitVec 64 × Chip := (Config.freeValue c.frees, { c with frees := c.frees + 1 })

/-- An agent's record. -/
def Agent.fresh (a : AgentId) : Agent := ⟨a, [], [], [], [], 0, [], none⟩
def agentGet : List Agent → AgentId → Agent
  | [], a => Agent.fresh a
  | x :: rest, a => if x.agent = a then x else agentGet rest a
def agentPut : List Agent → Agent → List Agent
  | [], a => [a]
  | x :: rest, a => if x.agent = a.agent then a :: rest else x :: agentPut rest a
def Chip.agent (c : Chip) (a : AgentId) : Agent := agentGet c.agents a
def Chip.setAgent (c : Chip) (a : Agent) : Chip := { c with agents := agentPut c.agents a }

/-- The next number of the model's clock. -/
def Chip.tick (c : Chip) : Nat × Chip := (c.clock, { c with clock := c.clock + 1 })

/-- Run a meaning over the rest of the module; the module's own registers stay as they are. -/
def State.run (s : State) (f : Mgmt → Chip → Host.Outcome Chip Fault Refusal) : Host.Outcome State Fault Refusal :=
  match f s.mgmt s.chip with
  | .next c => .next { s with chip := c }
  | .fault e => .fault e
  | .refused r => .refused r

end Sys2Proof.Machine
end

