-- ==== Sys2Proof/Machine/Coherence.lean ====
section
/-! DEFINITION. Phase consistency (R273 to R287): write events, visible sets, releases and acquires.
The modification order of a word is the order in which its writes are performed (log 6); the boundary order is that of log 7. -/

namespace Sys2Proof.Machine

/-! ## Sets of write events -/

/-- The latest write event of a word that a set holds; 0 is the initial write. -/
def View.get : View → Nat → Nat
  | [], _ => 0
  | (k, n) :: rest, loc => if k = loc then n else View.get rest loc
/-- A set with a write event of a word added. -/
def View.add : View → Nat → Nat → View
  | [], loc, n => [(loc, n)]
  | (k, m) :: rest, loc, n => if k = loc then (k, max m n) :: rest else (k, m) :: View.add rest loc n
/-- The union of two sets. -/
def View.join (v w : View) : View := w.foldl (fun acc e => acc.add e.1 e.2) v

/-- Numbers of the second list not in the first, put in front of it. -/
def addNew (l extra : List Nat) : List Nat := extra.foldl (fun acc n => if acc.contains n then acc else n :: acc) l

/-! ## Places and scopes (R274) -/

/-- The die of a place on the module. -/
def Place.die : Place → Option (BitVec 3)
  | .thread t => some t.die
  | .unit d => some d
  | .outside => none

/-- Whether an agent q at place qp lies in the instance of a scope of agent p at place pp (R274). -/
def inInstance (scope : BitVec 3) (p : AgentId) (pp : Place) (q : AgentId) (qp : Place) : Bool :=
  match scope with
  | 0#3 => decide (p = q)
  | 1#3 => match pp, qp with
    | .thread a, .thread b => decide (a.coreId = b.coreId)
    | _, _ => decide (p = q)
  | 2#3 => match pp, qp with
    | .thread a, .thread b => decide (a.cluster = b.cluster)
    | _, _ => decide (p = q)
  | 3#3 => match pp.die, qp.die with
    | some a, some b => decide (a = b)
    | _, _ => decide (p = q)
  | 4#3 => (pp.die.isSome && qp.die.isSome) || decide (p = q)
  | _ => true

/-- The narrowest scope whose instance for the producer holds the consumer (R283). -/
def narrowest (p : AgentId) (pp : Place) (q : AgentId) (qp : Place) : BitVec 3 :=
  if inInstance 0 p pp q qp then 0
  else if inInstance 1 p pp q qp then 1
  else if inInstance 2 p pp q qp then 2
  else if inInstance 3 p pp q qp then 3
  else if inInstance 4 p pp q qp then 4
  else 5

/-! ## Releases and acquires (R279 to R283) -/

def releaseGet : List Release → Nat → Option Release
  | [], _ => none
  | r :: rest, n => if r.id = n then some r else releaseGet rest n

/-- The releases stand in the boundary order B, latest first (R279). How many stand at or before release n. -/
def placeIn : List Release → Nat → Nat
  | [], _ => 0
  | r :: rest, n => if r.id = n then rest.length + 1 else placeIn rest n

/-- How many releases stand at or before an agent's latest boundary event in B (R279). -/
def Chip.placeOf (c : Chip) (r : Agent) : Nat :=
  max r.pos (match r.lastRel with | some n => placeIn c.rels n | none => 0)

/-- A release at `.sy` has completed: it precedes every later acquire at `.sy`, and its author's own writes have reached
their home ordering points (R287). -/
def Chip.complete (c : Chip) (a : AgentId) (n : Nat) : Chip :=
  let carried := match releaseGet c.rels n with | some rel => rel.view | none => []
  let own := (c.agent a).mine.filter fun e => decide (e.2 < n) || decide (carried.get e.1 = e.2)
  { c with sysRels := n :: c.sysRels, reached := c.reached.join own }

/-- An agent releases at a scope (R280); the answer holds the release's number. Its place in B is any place after the
agent's own boundary events that no acquire has passed (R279, log 7). -/
def Chip.releaseOpen (c : Chip) (a : AgentId) (place : Place) (scope : BitVec 3) : Nat × Chip :=
  let n := c.clock
  let r := c.agent a
  let rel : Release := ⟨n, a, place, scope, r.view, n :: r.got⟩
  let lo := (c.agents.map Agent.pos).foldl max (c.placeOf r)
  let (k, c) := c.draw (c.rels.length - lo + 1)
  let c := c.setAgent { r with lastRel := some n }
  (n, { c with clock := n + 1, rels := c.rels.take k ++ rel :: c.rels.drop k })

/-- A release of an agent none of whose earlier writes is on its way: at `.sy` it has completed when its step ends. -/
def Chip.release (c : Chip) (a : AgentId) (place : Place) (scope : BitVec 3) : Nat × Chip :=
  let (n, c) := c.releaseOpen a place scope
  (n, if scope = 5 then c.complete a n else c)

/-- What one release adds at an acquire of agent q (R280): its contents, where the scopes match or the two meet
directly. -/
def acquireOne (q : AgentId) (place : Place) (scope : BitVec 3) (direct : List Nat) (r : Agent) (rel : Release) : Agent :=
  if direct.contains rel.id ||
      (inInstance rel.scope rel.agent rel.place q place && inInstance scope q place rel.agent rel.place) then
    { r with view := r.view.join rel.view, got := addNew r.got rel.carry }
  else r

/-- An acquire's place in B: after the first `lo` releases and those that have waited longest, and any place behind these
(R279, log 7). -/
def Chip.acquirePlace (c : Chip) (lo : Nat) : Nat × Chip :=
  if c.rels.length ≤ lo then (lo, c)
  else
    let due := (c.rels.dropWhile fun rel => decide (c.clock ≤ rel.id + Config.lag)).length
    let lo := max lo due
    let (i, c) := c.draw (c.rels.length - lo + 1)
    (lo + i, c)

/-- An agent acquires at a scope; direct names the releases that the acquire meets whatever the scopes: a direct pair
(R280) or a queue token (R283). It stands in B after these, after the releases that its reads have met (R281), after its
own boundary events, and at `.sy` after every completed release at `.sy` (R287). -/
def Chip.acquire (c : Chip) (a : AgentId) (place : Place) (scope : BitVec 3) (direct : List Nat) : Chip :=
  let r := c.agent a
  let met := r.ahead ++ (if scope = 5 then c.sysRels else []) ++ direct
  let lo := (met.map (placeIn c.rels)).foldl max (c.placeOf r)
  let (at_, c) := { c with clock := c.clock + 1 }.acquirePlace lo
  c.setAgent ((c.rels.drop (c.rels.length - at_)).foldl (acquireOne a place scope direct)
    { r with pos := at_, ahead := [] })

/-! ## Writes and reads of words (R276 to R278) -/

/-- A word's history in the list. -/
def historyGet : List WordHistory → Nat → Option WordHistory
  | [], _ => none
  | h :: rest, loc => if h.loc = loc then some h else historyGet rest loc
/-- The latest version of a word is what stands in its frame: else another frame has been mapped there since, and its
contents are the word's only value (R93). -/
def WordHistory.current (h : WordHistory) (w : Word) : Bool := decide (h.versions.head?.map Version.value = some w)

/-- A word's history with a new version; the word's value before was old. Where another frame has been mapped there since its
latest version, what that frame held is the only earlier value left (R93). -/
def WordHistory.push (h : WordHistory) (old : Word) (v : Version) : WordHistory :=
  if h.current old then { h with versions := v :: h.versions }
  else { h with versions := [v, ⟨(h.versions.head?.map Version.id).getD 0, old, none, none⟩] }

/-- A new version of a word, whose value before was old. -/
def historyPush : List WordHistory → Nat → Word → Version → List WordHistory
  | [], loc, old, v => [⟨loc, [v, ⟨0, old, none, none⟩]⟩]
  | h :: rest, loc, old, v => if h.loc = loc then h.push old v :: rest else h :: historyPush rest loc old v

/-- Write event n, of agent a to the word at loc, whose value was old and is now new. own says that the write is at once
in the agent's visible set: an engine's write is not until its job is collected (R155). -/
def Chip.noteEvent (c : Chip) (n : Nat) (a : AgentId) (own : Bool) (author : Option Nat) (syncRel : Option Nat)
    (loc : Nat) (old new : Word) : Chip :=
  let c := { c with hist := historyPush c.hist loc old ⟨n, new, author, syncRel⟩ }
  if own then
    let r := c.agent a
    c.setAgent { r with view := r.view.add loc n, mine := r.mine.add loc n }
  else c

/-- A write event of one word alone. -/
def Chip.noteWrite (c : Chip) (a : AgentId) (own : Bool) (author : Option Nat) (syncRel : Option Nat)
    (loc : Nat) (old new : Word) : Chip :=
  { c with clock := c.clock + 1 }.noteEvent c.clock a own author syncRel loc old new

/-- An agent has read the word at loc from a version (R278, R281). -/
def Chip.noteRead (c : Chip) (a : AgentId) (loc : Nat) (v : Version) : Chip :=
  let r := c.agent a
  let ahead := match v.authorRel with
    | some n => addNew r.ahead [n]
    | none => r.ahead
  c.setAgent { r with reads := r.reads.add loc v.id, ahead := ahead }

/-- The latest version of a word, if any write of it is on record. -/
def Chip.newest (c : Chip) (loc : Nat) : Option Version :=
  match historyGet c.hist loc with
  | some h => h.versions.head?
  | none => none

/-- The value of the word at loc, with the key of its first byte, that a plain read may return: some version not
earlier than the floor (R278). -/
def Chip.readFrom (c : Chip) (floor : Nat) (loc key : Nat) : Word × Option Version × Chip :=
  match historyGet c.hist loc with
  | none => (Mem.word c.mem key, none, c)
  | some h =>
    if !h.current (Mem.word c.mem key) then (Mem.word c.mem key, none, c)
    else
      let allowed := h.versions.filter (fun v => decide (floor ≤ v.id))
      let (i, c) := c.draw allowed.length
      match allowed[i]? with
      | some v => (v.value, some v, c)
      | none => (Mem.word c.mem key, none, c)

/-- The earliest write event of a word that an agent's plain load may return: none earlier than the latest that the agent can
see or has read (R278), nor than one whose release at `.sy` has completed (R287). -/
def Chip.floorOf (c : Chip) (r : Agent) (loc : Nat) : Nat :=
  max (max (r.view.get loc) (r.reads.get loc)) (c.reached.get loc)

/-- A plain load of the word at loc by an agent (R278). -/
def Chip.readWord (c : Chip) (a : AgentId) (loc key : Nat) : Word × Chip :=
  let (w, v, c) := c.readFrom (c.floorOf (c.agent a) loc) loc key
  match v with
  | some v => (w, c.noteRead a loc v)
  | none => (w, c)

/-- An indivisible read of the word at loc by an agent: the word as it stands (R276). -/
def Chip.readLatest (c : Chip) (a : AgentId) (loc key : Nat) : Word × Chip :=
  let w := Mem.word c.mem key
  match c.newest loc with
  | some v => (w, c.noteRead a loc v)
  | none => (w, c)

/-- The words, by their offset from the first, that n bytes at loc touch. -/
def wordsTouched (loc n : Nat) : List Nat :=
  (List.range ((loc + n + 3) / 4 - loc / 4)).map (fun i => (loc / 4 + i) * 4)

/-- Versions of the two words of a doubleword that show no half of one access's write: the writes of one access have one
number (R117). -/
def untorn (low high : List Version) (v w : Version) : Bool :=
  (!(high.any fun x => decide (x.id = v.id)) || decide (v.id ≤ w.id)) &&
    (!(low.any fun x => decide (x.id = w.id)) || decide (w.id ≤ v.id))

/-- A plain load of an aligned doubleword by an agent: each word chosen separately, and no write torn (R117, R278). -/
def Chip.readPair (c : Chip) (a : AgentId) (loc key : Nat) : Dword × Chip :=
  let apart : Dword × Chip :=
    let (lo, c) := c.readWord a loc key
    let (hi, c) := c.readWord a (loc + 4) (key + 4)
    (hi ++ lo, c)
  match historyGet c.hist loc, historyGet c.hist (loc + 4) with
  | some low, some high =>
    if low.current (Mem.word c.mem key) && high.current (Mem.word c.mem (key + 4)) then
      let r := c.agent a
      let ok (h : WordHistory) (w : Nat) : List Version :=
        h.versions.filter fun v => decide (c.floorOf r w ≤ v.id)
      let pairs := ((ok low loc).map fun v => (ok high (loc + 4)).map fun w => (v, w)).flatten.filter fun e =>
        untorn low.versions high.versions e.1 e.2
      let (i, c) := c.draw pairs.length
      match pairs[i]? with
      | some (v, w) => (w.value ++ v.value, (c.noteRead a loc v).noteRead a (loc + 4) w)
      | none => (Mem.word c.mem (key + 4) ++ Mem.word c.mem key, c)
    else apart
  | _, _ => apart

/-- n bytes at a spot as a plain load returns them: a doubleword untorn (R117), else each word chosen separately
(R278). -/
def Chip.readBytes (c : Chip) (a : AgentId) (s : Spot) (n : Nat) : List Byte × Chip :=
  if n = 8 && s.loc % 8 = 0 then
    let (d, c) := c.readPair a s.loc s.key
    (bytesOfDword d, c)
  else
    let (bytes, c) := (wordsTouched s.loc n).foldl
      (fun (acc : List Byte × Chip) w =>
        let (v, c) := acc.2.readWord a w (s.key - s.loc % 4 + (w - s.loc / 4 * 4))
        (acc.1 ++ bytesOfWord v, c)) ([], c)
    ((bytes.drop (s.loc % 4)).take n, c)

/-- n bytes at a spot as an indivisible access reads them. -/
def Chip.readBytesLatest (c : Chip) (a : AgentId) (s : Spot) (n : Nat) : List Byte × Chip :=
  let c := (wordsTouched s.loc n).foldl
    (fun (c : Chip) w => (c.readLatest a w (s.key - s.loc % 4 + (w - s.loc / 4 * 4))).2) c
  (Mem.bytes c.mem s.key n, c)

/-! ## Locks break (R131), idle times end (R326), clean copies end (R328) -/

/-- Locks on a doubleword that n bytes at loc touch break, unless the holder makes the access. -/
def breakLocks (locks : List Lock) (by_ : Option TId) (loc n : Nat) : List Lock :=
  locks.map fun l =>
    if decide (l.loc < loc + n) && decide (loc < l.loc + 8) && decide (some l.holder ≠ by_) then { l with broken := true }
    else l

/-- The heap page (2 MiB) of a canonical address, as a global address. -/
def pageOf (loc : Nat) : Dword := globalOf (loc / 2 ^ 21 * 2 ^ 21)

/-- An access to a page by any requester restarts its idle time, if one runs (R326). -/
def Chip.touch (c : Chip) (loc : Nat) : Chip :=
  if c.idle.isEmpty then c
  else { c with idle := c.idle.map fun e => if e.1 = pageOf loc then (e.1, c.timebase.toNat) else e }

/-- The Den writes a page's TSTATE byte, as a write event released at `.sy` that counts as no write to the page (R327); the
Launch Unit of the home die stands for it (log 22). loc and key are of the page's first byte. -/
def Chip.writeTstate (c : Chip) (loc key : Nat) (v : Byte) : Chip :=
  let die : BitVec 3 := BitVec.ofNat 3 (loc / 2 ^ 48)
  let me := AgentId.launchUnit die
  let before := c.mem
  let c := { c with mem := Mem.write c.mem (key + 18) [v], locks := breakLocks c.locks none (loc + 18) 1 }
  let c := c.noteWrite me true none none (loc + 16) (Mem.word before (key + 16)) (Mem.word c.mem (key + 16))
  (c.release me (.unit die) 5).2

/-- A write to a page ends its current flash copy and its clean tier copy; the Den then clears TSTATE.TCOPY (R327, R328,
R336). -/
def Chip.dirty (c : Chip) (loc key : Nat) : Chip :=
  let page := pageOf loc
  let copied := (tableGet c.tcopies page).isSome
  let c := { c with tcopies := tableErase c.tcopies page, flash := tableErase c.flash page }
  if copied then
    let base := key - loc % 2 ^ 21
    c.writeTstate (loc / 2 ^ 21 * 2 ^ 21) base (Mem.get c.mem (base + 18) &&& 0xFB)
  else c

/-- The images of frames after bytes written at a canonical address by an agent: the frame's own task, or a handler of any,
changes them; the stores of others do not reach what the hardware keeps (R6, R301, R305). -/
def Chip.followFrames (c : Chip) (a : AgentId) (loc : Nat) (bs : List Byte) : Chip :=
  if c.images.isEmpty then c
  else
    let n := match a with | .task n => n | _ => 0
    let inHandler := c.threads.any fun e => e.2.handler.isSome && decide (e.2.task.map Task.id = some n)
    { c with images := c.images.map fun (k : FrameImage) =>
        if decide (k.loc < loc + bs.length) && decide (loc < k.loc + 2048) && (inHandler || decide (k.task = n)) then
          { k with bytes := (List.range 2048).map fun i =>
              if loc ≤ k.loc + i && k.loc + i < loc + bs.length then bs.getD (k.loc + i - loc) 0 else k.bytes.getD i 0 }
        else k }

/-- Bytes written at a spot, under event number n: memory, the write events of the words touched, the locks they break and the
page's copies. holder is the thread that makes the access, if one does. -/
def Chip.writeAs (c : Chip) (n : Nat) (a : AgentId) (holder : Option TId) (own : Bool) (author syncRel : Option Nat)
    (s : Spot) (bs : List Byte) : Chip :=
  let before := c.mem
  let c := { c with mem := Mem.write c.mem s.key bs, locks := breakLocks c.locks holder s.loc bs.length }
  let c := (wordsTouched s.loc bs.length).foldl
    (fun (c : Chip) w =>
      let k := s.key - s.loc % 4 + (w - s.loc / 4 * 4)
      c.noteEvent n a own author syncRel w (Mem.word before k) (Mem.word c.mem k)) c
  ((c.dirty s.loc s.key).touch s.loc).followFrames a s.loc bs

/-- Bytes written at a spot as one indivisible step, all under one number. -/
def Chip.writeBytes (c : Chip) (a : AgentId) (holder : Option TId) (own : Bool) (author syncRel : Option Nat)
    (s : Spot) (bs : List Byte) : Chip :=
  { c with clock := c.clock + 1 }.writeAs c.clock a holder own author syncRel s bs

/-- Every word of a range of len bytes takes the bytes that the memory now holds there, as write events under one number, where
it held others or a write of it is on record: a page zeroed, swapped or rebuilt (R276). before is the memory before. -/
def Chip.noteRange (c : Chip) (a : AgentId) (own : Bool) (author : Option Nat) (before : List Host.Cell)
    (loc key len : Nat) : Chip :=
  let n := c.clock
  let offs (l : List Nat) : List Nat := l.foldl (fun acc o => keyInsert acc (o / 4 * 4)) []
  let changed := offs (((before ++ c.mem).filter fun e =>
    decide (key ≤ e.1) && decide (e.1 < key + len)).map fun e => e.1 - key)
  let known := offs ((c.hist.filter fun h => decide (loc ≤ h.loc) && decide (h.loc < loc + len)).map fun h => h.loc - loc)
  (changed.foldl keyInsert known).foldl (fun (c : Chip) o =>
    c.noteEvent n a own author none (loc + o) (Mem.word before (key + o)) (Mem.word c.mem (key + o)))
    { c with clock := n + 1 }

/-! ## Full/empty bits (R62, R116, R123) -/

/-- Whether the word at a key is full. -/
def Chip.isFull (c : Chip) (key : Nat) : Bool := !c.empties.contains key
/-- A word made full or empty: a changed bit breaks the locks on it (R131), and the page's copies no longer hold what the page
does (R60, R328). -/
def Chip.setFull (c : Chip) (holder : Option TId) (loc key : Nat) (full : Bool) : Chip :=
  if c.isFull key = full then c
  else { c with
    empties := if full then keyErase c.empties key else keyInsert c.empties key
    locks := breakLocks c.locks holder loc 4 }.dirty loc key

/-! ## Poison (R68, R119) -/

def Chip.poisoned (c : Chip) (key : Nat) : Bool := c.poison.contains (poisonUnit key)
/-- Poison of the units that n bytes at a key touch. -/
def Chip.anyPoison (c : Chip) (key n : Nat) : Bool :=
  if c.poison.isEmpty then false
  else (wordsTouched key n).any c.poisoned
/-- The offset of the first poisoned byte among n bytes at a key, 0 where there is none. -/
def Chip.firstPoison (c : Chip) (key n : Nat) : Nat :=
  ((wordsTouched key n).find? c.poisoned).elim 0 fun w => w - key
/-- A store that covers a whole slice word clears its poison; a narrower store, and any store to a heap cell by a
thread, leaves it (R68, R119). -/
def Chip.storeClears (c : Chip) (key n : Nat) : Chip :=
  if c.poison.isEmpty then c
  else if isSliceKey key then
    { c with poison := c.poison.filter fun k => !(decide (key ≤ k) && decide (k + 4 ≤ key + n)) }
  else if 64 ≤ n then { c with poison := c.poison.filter fun k => !(decide (key ≤ k) && decide (k + 64 ≤ key + n)) }
  else c

end Sys2Proof.Machine
end

