-- ==== Sys2Proof/Machine/Translate.lean ====
section
/-! DEFINITION. Addresses: their forms (R76 to R78), the local window (R79), slice keys (R81), and translation at the
home (R82 to R93). -/

namespace Sys2Proof.Machine

/-! ## Cause codes (R294): 16·group + row -/

abbrev Cause := Byte
def Cause.illegal : Cause := 1
def Cause.privilege : Cause := 2
def Cause.misalign : Cause := 3
def Cause.divZero : Cause := 4
def Cause.laneInactive : Cause := 5
def Cause.loopDepth : Cause := 6
def Cause.trap : Cause := 7
def Cause.ebrk : Cause := 8
def Cause.frameState : Cause := 9
def Cause.addrInvalid : Cause := 16
def Cause.localProtect : Cause := 17
def Cause.sliceKey : Cause := 18
def Cause.pageAbsent : Cause := 19
def Cause.pageTable : Cause := 20
def Cause.pageSize : Cause := 21
def Cause.pageProtect : Cause := 22
def Cause.memPoison : Cause := 23
def Cause.mcastPartial : Cause := 24
def Cause.shipSpace : Cause := 25
def Cause.shipEmpty : Cause := 26
def Cause.shipAbort : Cause := 27
def Cause.formatUnknown : Cause := 32
def Cause.sparseMismatch : Cause := 33
def Cause.shapeArg : Cause := 34
def Cause.tileState : Cause := 35
def Cause.resState : Cause := 36
def Cause.cutBudget : Cause := 37
def Cause.jobArg : Cause := 48
def Cause.jobOverlap : Cause := 49
def Cause.jobId : Cause := 50
def Cause.destAttr : Cause := 51
def Cause.shadowEmpty : Cause := 52
def Cause.pubAttr : Cause := 53
def Cause.kvLink : Cause := 54
def Cause.launchArg : Cause := 64
def Cause.launchResource : Cause := 65
def Cause.depHandle : Cause := 66
def Cause.gangState : Cause := 67
def Cause.barrierState : Cause := 68
def Cause.preempt : Cause := 69
def Cause.parkState : Cause := 70
def Cause.denFull : Cause := 71
def Cause.ctxPoison : Cause := 80
def Cause.handlerFault : Cause := 81
def Cause.remoteFail : Cause := 82
def Cause.halted : Cause := 83

/-- Access kinds, as FAULTINFO codes them (R295). -/
inductive Kind where
  | read | write | atomic | fetch
  deriving DecidableEq, Repr

def Kind.code : Kind → BitVec 2
  | .read => 0
  | .write => 1
  | .atomic => 2
  | .fetch => 3

/-- Whether translation takes the access as a write (R89, R120). -/
def Kind.writes : Kind → Bool
  | .write => true
  | .atomic => true
  | _ => false

/-- Who makes an access: the agent, the thread it works for, that thread's key and mode, and whether it is an
engine's. -/
structure Who where
  agent : AgentId
  tid : TId
  key : BitVec 16
  sup : Bool
  engine : Bool
  deriving DecidableEq, Repr

/-- What an address names (R76, R77, R79). -/
inductive Target where
  | window (off : Nat)
  | slice (k : CoreId) (off : Nat)
  | heap (die : BitVec 3) (off : Nat)
  | remote (module : BitVec 12)
  deriving DecidableEq, Repr

/-- The core that a slice address names (R76). -/
def sliceCore (a : Dword) : CoreId :=
  let d := (a.extractLsb' 48 3).toNat
  ⟨50 * (d % 4) + (a.extractLsb' 42 6).toNat, 50 * (d / 4) + (a.extractLsb' 36 6).toNat, (a.extractLsb' 33 3).toNat⟩

/-- Whether the fabric's tables hold a module (R78, R340, R345). -/
def routed (g : Mgmt) (m : BitVec 12) : Bool :=
  g.faben && ((tableGet g.froute m.toNat).getD 0).getLsbD 31

/-- The form of an address (R76 to R78); none is ADDR_INVALID. -/
def classify (g : Mgmt) (a : Dword) : Option Target :=
  let m := a.extractLsb' 52 12
  if m = 0 then
    if a.extractLsb' 16 48 = 0 then some (.window (a.extractLsb' 0 16).toNat) else none
  else
    let formed := !a.getLsbD 51 || (decide ((a.extractLsb' 42 6).toNat ≤ 49) && decide ((a.extractLsb' 36 6).toNat ≤ 49) &&
      decide (a.extractLsb' 16 17 = 0))
    if !formed then none
    else if m = 0xFFF || (m = g.modid && g.modid ≠ 0) then
      if a.getLsbD 51 then some (.slice (sliceCore a) (a.extractLsb' 0 16).toNat)
      else some (.heap (a.extractLsb' 48 3) (a.extractLsb' 0 48).toNat)
    else if routed g m then some (.remote m) else none

/-- Whether an address is a heap address of this module. -/
def homeHeap (g : Mgmt) (a : Dword) : Option (BitVec 3 × Nat) :=
  match classify g a with
  | some (.heap d off) => some (d, off)
  | _ => none

/-- One protection pair allows bytes [off, off + n) (R79). -/
def pairAllows (p : Dword) (off n : Nat) (r w : Bool) : Bool :=
  decide ((p.extractLsb' 0 16).toNat ≤ off) && decide (off + n ≤ (p.extractLsb' 16 17).toNat) &&
    (!r || p.getLsbD 40) && (!w || p.getLsbD 41)
/-- Some pair of the thread allows the access (R79). -/
def windowAllows (lwin : List Dword) (off n : Nat) (r w : Bool) : Bool := lwin.any (pairAllows · off n r w)

/-- The block keys of a core admit a request (R81). -/
def keyAdmits (k : CoreState) (who : Who) (off n : Nat) : Bool :=
  who.sup || (List.range ((off + n - 1) / 4096 - off / 4096 + 1)).all
    (fun i => decide (k.keys.getD (off / 4096 + i) 0 = who.key))

/-! ## Regions (R87) -/

/-- A region contains a heap byte. -/
def regionHolds (r : Dword) (die : BitVec 3) (off : Nat) : Bool :=
  r.getLsbD 63 && decide (r.extractLsb' 18 3 = die) &&
    decide ((r.extractLsb' 21 27).toNat * 2 ^ 21 ≤ off) &&
    decide (off < ((r.extractLsb' 21 27).toNat + (r.extractLsb' 48 14).toNat) * 2 ^ 21)
/-- The access is a sub-page access: the lowest-numbered region that contains it has SUB = 1 (R87). -/
def subPage (rgn : List Dword) (die : BitVec 3) (off : Nat) : Bool :=
  match rgn.find? (regionHolds · die off) with
  | some r => r.getLsbD 62
  | none => false

/-! ## Table entries (R84 to R86) -/

def entryValid (e : Dword) : Bool := e.getLsbD 0
def entrySubt (e : Dword) : Bool := e.getLsbD 1
def entryAddr (e : Dword) : Nat := (e.extractLsb' 8 32).toNat * 256
def entryDesc (e : Dword) : Bool := e.getLsbD 43
def entryRepl (e : Dword) : Bool := e.getLsbD 44
def entryAge (e : Dword) : Bool := e.getLsbD 45
def entryShadow (e : Dword) : Bool := e.getLsbD 46
def entryRo (e : Dword) : Bool := e.getLsbD 47
def entryExec (e : Dword) : Bool := e.getLsbD 48
def entryZero (e : Dword) : Bool := e.getLsbD 49
def entryTier (e : Dword) : BitVec 2 := e.extractLsb' 50 2
/-- A replica slot: valid, and its die. -/
def entryRepd (e : Dword) (k : Nat) : Bool × BitVec 3 := (e.getLsbD (52 + 4 * k + 3), e.extractLsb' (52 + 4 * k) 3)

/-- The first physical address past the HBM range, and past the capacity tier (R86). -/
def hbmEnd : Nat := 0x20 * 2 ^ 32
def tierEnd : Nat := 0xE0 * 2 ^ 32

/-- An L1 or L2 pointer's form: the next table is `align` bytes large and aligned, in HBM (R85). -/
def pointerForm (e : Dword) (align : Nat) : Bool :=
  decide (e.extractLsb' 40 24 = 0) && decide (e.extractLsb' 1 7 = 0) && decide (entryAddr e % align = 0) &&
    decide (entryAddr e < hbmEnd)
/-- TIER agrees with the range of ADDR (R86); a flash page's ADDR is not checked. -/
def tierAgrees (e : Dword) : Bool :=
  match entryTier e with
  | 0#2 => decide (entryAddr e < hbmEnd)
  | 1#2 => decide (hbmEnd ≤ entryAddr e) && decide (entryAddr e < tierEnd)
  | 2#2 => true
  | _ => false
/-- An L3 page entry's form (R85, R86). -/
def pageForm (e : Dword) (home : BitVec 3) : Bool :=
  decide (e.extractLsb' 40 3 = 0) && decide (e.extractLsb' 2 6 = 0) && !entrySubt e && tierAgrees e &&
    (decide (entryTier e = 2) || decide (entryAddr e % 2 ^ 21 = 0)) &&
    [0, 1, 2].all (fun k => !(entryRepd e k).1 || decide ((entryRepd e k).2 ≠ home)) &&
    decide (entryRepl e = [0, 1, 2].any (fun k => (entryRepd e k).1))
/-- An L3 sub-table entry's form (R85). -/
def subTableForm (e : Dword) : Bool :=
  decide (e.extractLsb' 40 24 = 0) && decide (e.extractLsb' 2 6 = 0) && decide (entryAddr e % 2 ^ 14 = 0) &&
    decide (entryAddr e < hbmEnd)
/-- An L4 sub-page entry's form (R85, R86). -/
def subPageForm (e : Dword) : Bool :=
  decide (e.extractLsb' 40 3 = 0) && decide (e.extractLsb' 2 6 = 0) && !entrySubt e && tierAgrees e &&
    decide (entryTier e ≠ 2) && decide (entryAddr e % 2 ^ 10 = 0) && decide (e.extractLsb' 52 12 = 0) &&
    !entryRepl e && !entryAge e && !entryShadow e

/-- What a walk finds: the leaf entry and its physical address, or the cause (R83, R89 steps 2 to 4). -/
inductive Walked where
  | leaf (e : Dword) (at_ : Nat)
  | fails (cause : Cause)
  deriving DecidableEq, Repr

/-- The physical address of a span's L3 table, or the cause that the levels above it meet (R83, R89 steps 2 and 3). -/
def spanTable (mem : List Host.Cell) (die : BitVec 3) (etroot : Dword) (off : Nat) : Except Cause Nat :=
  if !etroot.getLsbD 0 then .error Cause.pageAbsent
  else
    let root := (etroot.extractLsb' 13 27).toNat * 2 ^ 13
    if hbmEnd ≤ root then .error Cause.pageTable
    else
      let e1 := Mem.dword mem (heapKey die (root + off / 2 ^ 38 % 1024 * 8))
      if !entryValid e1 then .error Cause.pageAbsent
      else if !pointerForm e1 (2 ^ 15) then .error Cause.pageTable
      else
        let e2 := Mem.dword mem (heapKey die (entryAddr e1 + off / 2 ^ 26 % 4096 * 8))
        if !entryValid e2 then .error Cause.pageAbsent
        else if !pointerForm e2 (2 ^ 8) then .error Cause.pageTable
        else .ok (entryAddr e2)

/-- What an L3 entry does to an access, if it stops it (R89 steps 2 to 4). -/
def pageFault (die : BitVec 3) (e : Dword) (sub : Bool) : Option Cause :=
  if !entryValid e then some Cause.pageAbsent
  else if entrySubt e then
    if !subTableForm e then some Cause.pageTable
    else if sub then none else some Cause.pageSize
  else if !pageForm e die then some Cause.pageTable
  else if sub then some Cause.pageSize else none
/-- What an L4 entry does to an access, if it stops it (R89 steps 2 and 3). -/
def subPageFault (e : Dword) : Option Cause :=
  if !entryValid e then some Cause.pageAbsent
  else if !subPageForm e then some Cause.pageTable
  else none

/-- The walk of the home die's table (R83, R89 steps 2 to 4). -/
def walk (mem : List Host.Cell) (die : BitVec 3) (etroot : Dword) (off : Nat) (sub : Bool) : Walked :=
  match spanTable mem die etroot off with
  | .error cause => .fails cause
  | .ok table =>
    let p3 := table + off / 2 ^ 21 % 32 * 8
    let e3 := Mem.dword mem (heapKey die p3)
    match pageFault die e3 sub with
    | some cause => .fails cause
    | none =>
      if !sub then .leaf e3 p3
      else
        let p4 := entryAddr e3 + off / 2 ^ 10 % 2048 * 8
        let e4 := Mem.dword mem (heapKey die p4)
        match subPageFault e4 with
        | some cause => .fails cause
        | none => .leaf e4 p4

/-- The number of the page, or of the sub-page, that a byte of a die's heap lies in. -/
def leafPage (off : Nat) (sub : Bool) : Nat := if sub then off / 2 ^ 10 else off / 2 ^ 21

/-- The entries of one table: 32 pages of a span, or the 2,048 sub-pages of a page (R83). -/
def tableEntries (sub : Bool) : Nat := if sub then 2048 else 32

/-- A held state is of the table that a page's, or a sub-page's, entry lies in. -/
def SpanEntry.sameTable (s : SpanEntry) (page : Nat) (sub : Bool) : Bool :=
  decide (s.sub = sub) && decide (s.page / tableEntries sub = page / tableEntries sub)

/-- The state of an entry that translations last used, if the translator still holds it (R83, R93). -/
def heldLeaf (spans : List SpanEntry) (page : Nat) (sub : Bool) : Option Dword :=
  match spans.find? (fun s => decide (s.page = page) && decide (s.sub = sub)) with
  | some s => some s.leaf
  | none => if spans.any (SpanEntry.sameTable · page sub) then some 0 else none
/-- The state of an entry now used. -/
def holdLeaf (spans : List SpanEntry) (page : Nat) (sub : Bool) (e : Dword) : List SpanEntry :=
  ⟨page, sub, e⟩ :: spans.filter (fun s => !(decide (s.page = page) && decide (s.sub = sub)))
/-- Every state of a table dropped; that of a span goes with those of its sub-pages. -/
def dropTable (spans : List SpanEntry) (page : Nat) (sub : Bool) : List SpanEntry :=
  spans.filter fun s => !s.sameTable page sub && (sub || !(s.sub && decide (s.page / 2 ^ 16 = page / 2 ^ 5)))

/-- The entries of a table in memory that are not 0, as states to hold. -/
def tableStates (mem : List Host.Cell) (key page : Nat) (sub : Bool) : List SpanEntry :=
  let n := tableEntries sub
  let cells := mem.filter fun e => decide (key ≤ e.1) && decide (e.1 < key + 8 * n)
  (cells.foldl (fun acc e => keyInsert acc ((e.1 - key) / 8)) []).map fun i =>
    ⟨page / n * n + i, sub, Mem.dword cells (key + 8 * i)⟩

/-- The state of an entry that an access uses, where its table stands at a key of the die's memory (R93): the table's state now
where the translator does not hold the table, which it then does; else the state last used or the table's now, either of which
is allowed where they differ. -/
def Chip.entryState (c : Chip) (die : BitVec 3) (key page : Nat) (sub : Bool) : Dword × Chip :=
  let d := c.die die
  let now := Mem.dword c.mem (key + 8 * (page % tableEntries sub))
  match heldLeaf d.spans page sub with
  | none => (now, c.setDie die { d with spans := holdLeaf (tableStates c.mem key page sub ++ d.spans) page sub now })
  | some old =>
    if now = old then (now, c)
    else
      let (i, c) := c.draw 2
      if i = 0 then (old, c)
      else
        let spans := if sub then d.spans else d.spans.filter fun s => !(s.sub && decide (s.page / 2 ^ 11 = page))
        (now, c.setDie die { d with spans := holdLeaf spans page sub now })

/-- The outcome of a translation whose L3 entry is e, in state p3 of the table. -/
def Chip.leafOf (c : Chip) (die : BitVec 3) (off : Nat) (sub : Bool) (e : Dword) (p3 : Nat) : Walked × Chip :=
  match pageFault die e sub with
  | some cause => (.fails cause, c)
  | none =>
    if !sub then (.leaf e p3, c)
    else
      let (e4, c) := c.entryState die (heapKey die (entryAddr e)) (off / 2 ^ 10) true
      match subPageFault e4 with
      | some cause => (.fails cause, c)
      | none => (.leaf e4 (entryAddr e + off / 2 ^ 10 % 2048 * 8), c)

/-- The leaf that an access uses (R83, R89 steps 2 to 4, R93). With EN = 0 nothing held serves it (R86); where the levels above a
held span have changed, what is held or the walk now decides. -/
def Chip.leaf (c : Chip) (die : BitVec 3) (off : Nat) (sub : Bool) : Walked × Chip :=
  let d := c.die die
  if !d.etroot.getLsbD 0 then (.fails Cause.pageAbsent, c)
  else
    let page := off / 2 ^ 21
    match spanTable c.mem die d.etroot off with
    | .ok table =>
      let (e, c) := c.entryState die (heapKey die table) page false
      c.leafOf die off sub e (table + page % 32 * 8)
    | .error cause =>
      match heldLeaf d.spans page false with
      | none => (.fails cause, c)
      | some old =>
        let (i, c) := c.draw 2
        if i = 0 then c.leafOf die off sub old 0
        else (.fails cause, c.setDie die { d with spans := dropTable d.spans page false })

/-- How one access to bytes of one cell fares at its destination. -/
inductive Reach where
  /-- it may act on the bytes at the spot; e is the leaf entry of a heap page, 0 elsewhere -/
  | ok (s : Spot) (e : Dword)
  | fails (cause : Cause)
  /-- TIER = 2: the page is absent and its promotion is asked for (R90) -/
  | absent (page : Dword)
  /-- ZERO = 1: the page, or the sub-page, at that address is to be zeroed first; the access then acts at the spot (R92) -/
  | zeroing (page : Dword) (sub : Bool) (s : Spot) (e : Dword)
  /-- the Den window, at an offset (R330, R340) -/
  | den (off : Nat)
  /-- another module (R346) -/
  | away (module : BitVec 12)
  deriving DecidableEq, Repr

/-- A window address of the Den (R330, R340). -/
def denOffset (g : Mgmt) (die : BitVec 3) (off : Nat) : Option Nat :=
  let base := (g.denwin.extractLsb' 26 25).toNat * 2 ^ 26
  if g.denwin.getLsbD 0 && decide (base ≤ heapLoc die off) && decide (heapLoc die off < base + 2 ^ 26) then
    some (heapLoc die off - base)
  else none

/-- The regions that hold for a requester (R87): those of its thread's core, and of an engine job those of the core where the
job's task runs, or of the saved task. -/
def Chip.regionsOf (c : Chip) (who : Who) : List Dword :=
  if !who.engine then (c.core who.tid.coreId).rgn
  else match who.agent with
    | .task n =>
      match c.threads.find? fun e => decide (e.2.task.map Task.id = some n) with
      | some e => (c.core e.1.coreId).rgn
      | none => match c.saved.find? fun s => decide (s.task.id = n) with
        | some s => s.task.rgn
        | none => (c.core who.tid.coreId).rgn
    | _ => (c.core who.tid.coreId).rgn

/-- A page whose promotion is asked for: it is not asked for twice (R90). -/
def Chip.askPromotion (c : Chip) (page : Dword) : Chip :=
  { c with promoting := if c.promoting.contains page then c.promoting else c.promoting ++ [page] }
/-- A page or sub-page whose zeroing is asked for, with the entry that names its frame (R92). -/
def Chip.askZeroing (c : Chip) (leaf : Dword) (sub : Bool) (e : Dword) : Chip :=
  { c with zeroing := if c.zeroing.contains (leaf, sub, e) then c.zeroing else c.zeroing ++ [(leaf, sub, e)] }
/-- What c asks of the tiers is what c0 asked: an access that faults has asked for nothing. -/
def Chip.unasked (c0 c : Chip) : Chip := { c with promoting := c0.promoting, zeroing := c0.zeroing, idle := c0.idle }

/-- A heap access at its home: R89 from step 2 on. engine writes need a SHADOW page; other writes may not have one
(R143, R144). -/
def Chip.reachHeap (c : Chip) (who : Who) (kind : Kind) (die : BitVec 3) (off : Nat) : Reach × Chip :=
  let sub := subPage (c.regionsOf who) die off
  match c.leaf die off sub with
  | (.fails cause, c) => (.fails cause, c)
  | (.leaf e _, c) =>
    if (kind.writes && (entryRo e || (entryShadow e && !who.engine))) || (decide (kind = .fetch) && !entryExec e) then
      (.fails Cause.pageProtect, c)
    else
      let page := globalOf (heapLoc die (off / 2 ^ 21 * 2 ^ 21))
      let within := if sub then off % 2 ^ 10 else off % 2 ^ 21
      let spot : Spot := ⟨heapLoc die off, heapKey die (entryAddr e + within)⟩
      if entryTier e = 2 then (.absent page, c.askPromotion page)
      else if entryZero e then
        let leaf := globalOf (heapLoc die (if sub then off / 2 ^ 10 * 2 ^ 10 else off / 2 ^ 21 * 2 ^ 21))
        (.zeroing leaf sub spot e, (c.askZeroing leaf sub e).touch (heapLoc die off))
      else (.ok spot e, c.touch (heapLoc die off))

/-- An access of n bytes at a, within one cell: its form, then the local window, the key or translation (R120 steps 3
and 4). No slice address and no window of the Den grants EXEC (R25). rw says that the local window must allow both reading and writing. -/
def Chip.reach (g : Mgmt) (c : Chip) (who : Who) (kind : Kind) (rw : Bool) (a : Dword) (n : Nat) : Reach × Chip :=
  match classify g a with
  | none => (.fails Cause.addrInvalid, c)
  | some (.window off) =>
    if kind = .fetch then (.fails Cause.pageProtect, c)
    else if windowAllows (c.thread who.tid).csr.lwin off n (rw || !kind.writes) (rw || kind.writes) then
      (.ok ⟨sliceLoc who.tid.coreId off, sliceKey who.tid.coreId off⟩ 0, c)
    else (.fails Cause.localProtect, c)
  | some (.slice k off) =>
    if kind = .fetch then (.fails Cause.pageProtect, c)
    else if keyAdmits (c.core k) who off n then (.ok ⟨sliceLoc k off, sliceKey k off⟩ 0, c)
    else (.fails Cause.sliceKey, c)
  | some (.heap d off) =>
    match denOffset g d off with
    | some o => if kind = .fetch then (.fails Cause.pageProtect, c) else (.den o, c)
    | none => c.reachHeap who kind d off
  | some (.remote m) => if kind = .fetch && a.getLsbD 51 then (.fails Cause.pageProtect, c) else (.away m, c)

/-- The doublewords of a die's memory that name a table or a page, each by its physical address. -/
def Chip.entriesOf (c : Chip) (die : BitVec 3) : List (Nat × Dword) :=
  let base := heapKey die 0
  let at_ := ((c.mem.filter fun e => decide (base ≤ e.1) && decide (e.1 < base + hbmEnd)).map fun e => e.1 / 8 * 8).dedup
  (at_.map fun k => (k - base, Mem.dword c.mem k)).filter fun e => entryValid e.2

/-- The entries that name `size` bytes with a physical address among them: the place of each, and how far in the address
lies. -/
def namers (l : List (Nat × Dword)) (size pa : Nat) : List (Nat × Nat) :=
  l.filterMap fun e =>
    if decide (entryAddr e.2 ≤ pa) && decide (pa < entryAddr e.2 + size) then some (e.1, pa - entryAddr e.2) else none

/-- The offset in a die's heap that its tables give to a physical address of its memory (R83, R68). -/
def Chip.offsetOf (c : Chip) (die : BitVec 3) (pa : Nat) : Option Nat :=
  let l := c.entriesOf die
  let etroot := (c.die die).etroot
  let root := (etroot.extractLsb' 13 27).toNat * 2 ^ 13
  let above (p3 : Nat) : List Nat := (namers l (2 ^ 8) p3).flatMap fun e2 => (namers l (2 ^ 15) e2.1).filterMap fun e1 =>
    if decide (root ≤ e1.1) && decide (e1.1 < root + 2 ^ 13) then
      some ((e1.1 - root) / 8 * 2 ^ 38 + e1.2 / 8 * 2 ^ 26 + e2.2 / 8 * 2 ^ 21)
    else none
  let pages := (namers l (2 ^ 21) pa).flatMap fun e3 => (above e3.1).map fun o => (o + e3.2, false)
  let subs := (namers l (2 ^ 10) pa).flatMap fun e4 => (namers l (2 ^ 14) e4.1).flatMap fun e3 =>
    (above e3.1).map fun o => (o + e3.2 / 8 * 2 ^ 10 + e4.2, true)
  ((pages ++ subs).find? fun o =>
    match walk c.mem die etroot o.1 o.2 with
    | .leaf e _ => decide (entryTier e ≠ 2) && decide (entryAddr e + o.1 % (if o.2 then 2 ^ 10 else 2 ^ 21) = pa)
    | .fails _ => false).map (·.1)

/-- The write of an entry at a physical address is a write event of its words where the die's heap holds them (R276): one that no
release carries. before is the memory before. -/
def Chip.noteEntry (c : Chip) (die : BitVec 3) (p : Nat) (off : Option Nat) (before : List Host.Cell) : Chip :=
  match off with
  | some o => c.noteRange (.launchUnit die) false none before (heapLoc die o) (heapKey die p) 8
  | none => c

/-- The entry of a page, written by the home controller in one step with respect to every translation (R93): memory,
and what the translator holds. Its place is found by the walk. -/
def Chip.setEntry (c : Chip) (die : BitVec 3) (off : Nat) (sub : Bool) (f : Dword → Dword) : Chip :=
  let d := c.die die
  match walk c.mem die d.etroot off sub with
  | .leaf e p =>
    let page := leafPage off sub
    let spans := match heldLeaf d.spans page sub with
      | some _ => holdLeaf d.spans page sub (f e)
      | none => d.spans
    { (c.setDie die { d with spans := spans }) with mem := Mem.write c.mem (heapKey die p) (bytesOfDword (f e)) }.noteEntry
      die p (c.offsetOf die p) c.mem
  | .fails _ => c

end Sys2Proof.Machine
end

