-- ==== Sys2Proof/Machine/Ops.lean ====
section
/-! DEFINITION. The named operations of a thread: its registers, the completion of an instruction (R46, R52, R271),
the error log (R315), stopping a task with its context frame (R299, R302), taking an exception (R305, R306), and the
return from one (R303, R308). -/

namespace Sys2Proof.Machine

/-- One step's answer over everything but the module's own registers. -/
abbrev Out := Host.Outcome Chip Fault Refusal

/-- The end link (R244). -/
def endLink : Dword := 0xFFF0

/-! ## Registers (R176, R177) -/

/-- x0 reads 0 (R177). -/
def Thread.getX (t : Thread) (r : Reg) : Dword := if r = 0 then 0 else t.x.get r.toFin
/-- The v register a field names; well-formed fields are below 16 (R36). -/
def Thread.getV (t : Thread) (r : Reg) : Lanes Word := t.v.get (r.extractLsb' 0 4).toFin
/-- m0 reads 0xFF (R177). -/
def Thread.getM (t : Thread) (r : BitVec 3) : Byte := if r = 0 then 0xFF else t.m.get r.toFin

/-- A pending write's destination includes an x register that a write changes: never x0 (R46, R177). -/
def Dest.hasX (d : Dest) (q : Reg) : Bool :=
  decide (q ≠ 0) && (match d with
    | .x r => decide (r = q)
    | .pair r => decide (r = q) || decide (r + 1 = q)
    | .group r first => decide (r = q) || decide (first + 1 = q) || decide (first + 2 = q) || decide (first + 3 = q)
    | _ => false)
/-- A pending write's destination is a v register. -/
def Dest.hasV : Dest → BitVec 4 → Bool
  | .v r _, q => decide (r = q)
  | _, _ => false
/-- A destination shares a register that another one writes; an empty mask writes none (R199). The bounds registers of a
collected cut's group count, whatever status it then has: a DESIGN CHOICE (log 62). -/
def Dest.meets : Dest → Dest → Bool
  | d, .x r => d.hasX r
  | d, .pair r => d.hasX r || d.hasX (r + 1)
  | d, .group r first => d.hasX r || d.hasX (first + 1) || d.hasX (first + 2) || d.hasX (first + 3)
  | d, .v r m => decide (m ≠ 0) && d.hasV r
  | _, .none => false
  | _, .loop _ => false

/-- Pending writes of a destination that an instruction now writes are marked for LOOKAHEAD (R47). -/
def markPending (p : Dest → Bool) (l : List Pending) : List Pending :=
  l.map fun e => if p e.dest then { e with wr := true } else e

/-- A write of x0 is discarded (R177). -/
def Thread.setX (t : Thread) (r : Reg) (v : Dword) : Thread :=
  if r = 0 then t else { t with x := t.x.set r.toNat v r.isLt, pend := markPending (·.hasX r) t.pend }
/-- The active lanes of a v register written, the others kept (R186). -/
def mergeLanes (active : Byte) (new old : Lanes Word) : Lanes Word :=
  Lanes.of fun i => if active.getLsbD i.toNat then new.get i else old.get i
/-- A write of the active lanes of a v register (R186); with no active lane nothing is written, and no pending write is
marked (R218, log 52). -/
def Thread.setV (t : Thread) (r : Reg) (active : Byte) (v : Lanes Word) : Thread :=
  let k := r.extractLsb' 0 4
  { t with
    v := t.v.set k.toNat (mergeLanes active v (t.v.get k.toFin)) k.isLt
    pend := if active = 0 then t.pend else markPending (·.hasV k) t.pend }
/-- A write of m0 is discarded (R177). -/
def Thread.setM (t : Thread) (r : BitVec 3) (v : Byte) : Thread :=
  if r = 0 then t else { t with m := t.m.set r.toNat v r.isLt }

/-! ## FLAGS (R199) and the fallback record (R56, R57) -/

def flagInexact : Word := 0x1
def flagUnderflow : Word := 0x2
def flagOverflow : Word := 0x4
def flagDivZero : Word := 0x8
def flagInvalid : Word := 0x10
def flagOperr : Word := 0x100
def flagEmptyRow : Word := 0x200
def flagWarn : Word := 0x400
def flagLookahead : Word := 0x800

/-- Flags set; hardware clears none (R199). -/
def Thread.setFlags (t : Thread) (f : Word) : Thread := { t with csr := { t.csr with flags := t.csr.flags ||| f } }

/-- A completed fallback of a code at an instruction address; code 0 is none (R56, R57). -/
def Thread.warn (t : Thread) (code : Byte) (iaddr : Dword) : Thread :=
  if code = 0 then t
  else
    let n := (t.csr.warnc.extractLsb' 8 8).toNat
    let count : Byte := BitVec.ofNat 8 (if n < 255 then n + 1 else 255)
    let first := t.csr.warnc.extractLsb' 0 8
    let csr := t.csr
    let csr := { csr with
      flags := csr.flags ||| flagWarn
      warnc := 0#16 ++ count ++ (if first = 0 then code else first)
      warnpc := if first = 0 then iaddr else csr.warnpc }
    { t with csr := csr }

/-! ## Completion of an instruction (R46, R52, R271) -/

/-- The write of one pending entry whose window has ended (R46, R47). LOOKAHEAD is set where a window instruction wrote a register
of a collected cut's group, of which a status other than 2 writes the first alone: a DESIGN CHOICE (log 62). -/
def Thread.writePending (t : Thread) (p : Pending) : Thread :=
  let t := match p.dest, p.result with
    | .x r, .x v => t.setX r v
    | .group r _, .x v => t.setX r v
    | .group r first, .group s b1 b2 b3 _ => (((t.setX (first + 1) b1).setX (first + 2) b2).setX (first + 3) b3).setX r s
    | .pair r, .pair lo hi => (t.setX r lo).setX (r + 1) hi
    | .v r active, .v l => t.setV (0#1 ++ r) active l
    | _, _ => t
  let t := match p.snap with | some k => { t with snaps := t.snaps ++ [k] } | none => t
  (t.setFlags (p.flags ||| (if p.wr then flagLookahead else 0))).warn p.warn p.iaddr

/-- The pending entries that are due, written in the order of issue until one is not ready; whether one is not
ready (R46). -/
def Thread.drain : Nat → Thread → Thread × Bool
  | 0, t => (t, false)
  | n + 1, t =>
    match t.pend.find? (fun p => decide (p.rem = 0)) with
    | none => (t, false)
    | some p =>
      if p.access.isSome then (t, true)
      else Thread.drain n (({ t with pend := t.pend.eraseP fun q => decide (q.rem = 0) } : Thread).writePending p)

/-- One more window instruction has executed (R45). -/
def countWindows (l : List Pending) : List Pending := l.map fun p => { p with rem := p.rem - 1 }

/-- The due writes are made, and the thread waits if one is not ready (R46, R247). -/
def Thread.settleWindows (t : Thread) : Thread :=
  let (t', blocked) := Thread.drain t.pend.length t
  if blocked then { t' with run := .wait .window } else { t' with run := if t'.run = .wait .window then .ready else t'.run }

/-- The back-edges at an address, and where control goes (R271). -/
def backEdge : List LoopEntry → Dword → Dword × List LoopEntry × Bool
  | [], s => (s, [], false)
  | e :: rest, s =>
    if s = e.stop then
      let n := if e.count = 0 then 0 else e.count - 1
      if n ≠ 0 then (e.start, { e with count := n } :: rest, true)
      else let (s', l, _) := backEdge rest s; (s', l, true)
    else (s, e :: rest, false)

/-- Loops left by a taken conditional branch (R271). -/
def leaveLoops : List LoopEntry → Dword → List LoopEntry
  | [], _ => []
  | e :: rest, s => if e.start ≤ s && s ≤ e.stop then e :: rest else leaveLoops rest s

def repcAct : Word := 0x80

/-- The repeats of the instruction go on: one more has completed (R50, R52). -/
def Thread.repeats (t : Thread) : Option Thread :=
  match t.rep with
  | none => none
  | some r =>
    let n := (t.repc.extractLsb' 0 6).toNat + 1
    if n < r.count then some { t with repc := repcAct ||| BitVec.ofNat 32 n } else none

/-- Where an instruction's successor address leads: the repeats, then the loops (R52, R271). taken says that it is a
taken conditional branch. -/
def Thread.advance (t : Thread) (succ : Dword) (taken : Bool) : Thread :=
  match t.repeats with
  | some t' => t'
  | none =>
    let (s, l, _) := backEdge t.loops succ
    let l := if taken then leaveLoops l s else l
    { t with pc := s, loops := l, rep := none, repc := if t.rep.isSome then 0 else t.repc }

/-- Whether the address of the instruction's successor made a back-edge of the innermost loop (R157, TRIG 2). -/
def Thread.madeBackEdge (t : Thread) (succ : Dword) : Bool :=
  match t.repeats, t.loops with
  | none, e :: _ => decide (succ = e.stop)
  | _, _ => false

/-- An instruction completes: its windows count, its own pending entry, if it has one, is added, due writes are made,
and control goes on (R46, R271). -/
def Thread.complete (t : Thread) (own : Option Pending) (succ : Dword) (taken : Bool) : Thread :=
  let t := match own with
    | some p => { t with pend := markPending (·.meets p.dest) (countWindows t.pend) ++ [p], nextPend := t.nextPend + 1 }
    | none => { t with pend := countWindows t.pend }
  (t.advance succ taken).settleWindows

/-- The address at which a stop of the instruction is reported: the repeat prefix's, if one governs it (R52). -/
def Thread.stopPc (t : Thread) : Dword :=
  match t.rep with
  | some r => r.addr
  | none => t.pc

/-! ## The agent of a thread, its accesses, its releases and acquires -/

def Thread.agentId (t : Thread) : AgentId := .task (match t.task with | some k => k.id | none => 0)
def Thread.who (t : Thread) (tid : TId) : Who := ⟨t.agentId, tid, t.csr.ldkey, t.sup, false⟩
/-- Supervisor accesses of the hardware itself for a thread: frames, tokens, records. -/
def hardwareWho (a : AgentId) (tid : TId) : Who := ⟨a, tid, 0, true, false⟩

/-- An access may write memory, or what a cluster's order of loads holds: a release waits for it (R240, R282). -/
def Access.writes : Access → Bool
  | .store _ _ _ => true
  | .sync .stwEf _ _ _ _ _ _ => true
  | .sync .stwF _ _ _ _ _ _ => true
  | .amo _ _ _ _ => true
  | .cas _ _ _ => true
  | .cas128 _ _ _ _ _ => true
  | .stu _ _ _ => true
  | .mcst _ _ _ _ _ _ => true
  | .fship _ _ _ _ => true
  | .vstore _ _ _ => true
  | .vstc _ _ _ _ _ _ _ => true
  | .late (.tdrain _ _ _ _ _ _ _) _ => true
  | .late (.spawn _ _ _ _) _ => true
  | .late (.resld _ _ _) _ => true
  | .late (.resldSparse _ _ _ _) _ => true
  | .late (.cbld _ _) _ => true
  | _ => false
/-- An access may read memory: an acquire that follows it comes after its read (R281). -/
def Access.readsMem : Access → Bool
  | .load _ _ => true
  | .sync .ldwFf _ _ _ _ _ _ => true
  | .sync .ldwFe _ _ _ _ _ _ => true
  | .sync .ldwNw _ _ _ _ _ _ => true
  | .amo _ _ _ _ => true
  | .cas _ _ _ => true
  | .cas128 _ _ _ _ _ => true
  | .ldl _ => true
  | .fship _ _ _ _ => true
  | .vload _ _ => true
  | .vldc _ _ _ => true
  | .late (.tload _ _ _ _) _ => true
  | .late (.resld _ _ _) _ => true
  | .late (.resldSparse _ _ _ _) _ => true
  | .late (.cbld _ _) _ => true
  | .late (.cld _ _ _ _ _ _ _ _ _) _ => true
  | .late (.spawn _ _ _ _) _ => true
  | .late (.disp _ _ _ _) _ => true
  | .late (.sqk _ _ _ _) _ => true
  | .job _ _ _ _ _ _ => true
  | _ => false
/-- An access acquires when it is performed (R127). -/
def Access.acquires : Access → Bool
  | .sync _ true _ _ _ _ _ => true
  | _ => false

/-- A store of the thread still waits, so that a release at `.sy` has not completed (R282). -/
def unsent (pend : List Pending) : Bool :=
  pend.any fun p => match p.access with
    | some a => a.writes
    | none => false
/-- A read of the thread still waits, so that an acquire must come after it (R281, R282). -/
def unread (pend : List Pending) : Bool :=
  pend.any fun p => match p.access with
    | some a => a.readsMem
    | none => false

/-- An `.acq` access of the thread still waits: what it is to make visible is not yet in the visible set (R127, R280). -/
def acquiring (pend : List Pending) : Bool :=
  pend.any fun p => match p.access with
    | some a => a.acquires
    | none => false
/-- A release must wait: it carries the writes of every earlier access, and what every earlier acquire makes visible (R280,
R282). -/
def unready (pend : List Pending) : Bool := unsent pend || acquiring pend

/-- A release by the acting thread; accesses of it that still wait are among the writes it carries (R282). At `.sy` it has
completed once the last of these has been performed (R287). -/
def Chip.releaseT (c : Chip) (scope : BitVec 3) : Nat × Chip :=
  let (n, c) := c.releaseOpen c.t.agentId (.thread c.tid) scope
  let c := if scope = 5 && !unsent c.t.pend then c.complete c.t.agentId n else c
  let pend := c.t.pend.map fun p => if p.access.isSome then { p with rels := n :: p.rels } else p
  (n, { c with t := { c.t with pend := pend } })

/-- A thread's hoard lines and its fills still in flight are dropped (R162). -/
def Chip.dropHoard (c : Chip) (tid : TId) : Chip :=
  { c with
    hoard := c.hoard.filter (fun h => decide (h.owner ≠ tid)), asked := c.asked.filter (fun h => decide (h.1 ≠ tid)) }

/-- An acquire by the acting thread, which drops its hoard lines (R162, R282); a read of it that still waits is before the
acquire, and what the read meets is made visible with it (R281). -/
def Chip.acquireT (c : Chip) (scope : BitVec 3) (direct : List Nat) : Chip :=
  let c := (c.dropHoard c.tid).acquire c.t.agentId (.thread c.tid) scope direct
  let pend := c.t.pend.map fun p => if p.access.isSome then { p with acqs := scope :: p.acqs } else p
  { c with t := { c.t with pend := pend } }

/-- A pending access has been performed: the releases at `.sy` that waited for its write alone have completed (R287). -/
def Chip.completeRels (c : Chip) (a : AgentId) (pend : List Pending) (rels : List Nat) : Chip :=
  rels.foldl (fun (c : Chip) n =>
    match releaseGet c.rels n with
    | some rel => if rel.scope = 5 && !c.sysRels.contains n && !unsent (pend.filter fun p => p.rels.contains n)
        then c.complete a n else c
    | none => c) c

/-! ## Pages that move under waiting accesses (R63, R93) -/

/-- Where an access acts, after a page's bytes have moved from one frame to another. -/
def Placed.moved (src dst len : Nat) (p : Placed) : Placed :=
  if decide (src ≤ p.spot.key) && decide (p.spot.key < src + len) then
    { p with spot := { p.spot with key := p.spot.key - src + dst } }
  else p
/-- What every waiting access of a thread names, changed. -/
def Thread.mapSpots (f : List Placed → List Placed) (t : Thread) : Thread :=
  { t with
    pend := t.pend.map fun p => { p with spots := f p.spots }
    run := match t.run with
      | .wait (.access d a l n w la) => .wait (.access d a (f l) n w la)
      | r => r }
/-- The waiting accesses to a frame follow its page to another frame. -/
def Chip.moveSpots (c : Chip) (src dst len : Nat) : Chip :=
  let f : List Placed → List Placed := List.map (Placed.moved src dst len)
  { c with t := c.t.mapSpots f, others := c.others.map fun e => (e.1, e.2.mapSpots f) }
/-- The waiting accesses to a frame that its page leaves for the flash tier are made anew (R63). -/
def Chip.dropSpots (c : Chip) (src len : Nat) : Chip :=
  let f (l : List Placed) : List Placed :=
    if l.any fun p => decide (src ≤ p.spot.key) && decide (p.spot.key < src + len) then [] else l
  { c with t := c.t.mapSpots f, others := c.others.map fun e => (e.1, e.2.mapSpots f) }

/-- A thread's lock is released (R134). -/
def Chip.releaseLock (c : Chip) (tid : TId) : Chip := { c with locks := c.locks.filter fun l => decide (l.holder ≠ tid) }

/-! ## The error log (R315, R316) -/

/-- The die of a key, and its physical place in a record (R316). -/
def keyDie (key : Nat) : BitVec 3 :=
  BitVec.ofNat 3 (if isSliceKey key then (key - 2 ^ 43) / 2 ^ 31 else key / 2 ^ 40)
def keyPhys (key : Nat) : Dword :=
  (keyDie key).setWidth 8 ++ BitVec.ofNat 56 (if isSliceKey key then key % 2 ^ 16 else key % 2 ^ 40)

/-- An error-log record (R316), before its SEQ. -/
structure LogRecord where
  kind : Byte
  cause : Byte
  addr : Dword
  /-- PHYS: the place concerned; of no place, its die -/
  phys : Option Dword
  job : Dword
  frame : Dword
  pc : Dword
  detail : List Word

def logCorrected : Byte := 1
def logCwdParity : Byte := 2
def logCwdTier : Byte := 3
def logPoison : Byte := 4
def logOperr : Byte := 5
def logCutMismatch : Byte := 6
def logHalted : Byte := 7
def logHandlerFault : Byte := 8
def logCtxPoison : Byte := 9
def logLost : Byte := 10
def logTokenLost : Byte := 11

/-- A record with only a kind. -/
def LogRecord.of (kind : Byte) : LogRecord := ⟨kind, 0, 0, none, 0, 0, 0, []⟩

/-- The 64 bytes of a record (R316). -/
def LogRecord.bytes (r : LogRecord) (seq : Word) : List Byte :=
  [r.kind, r.cause, 0, 0] ++ bytesOfWord seq ++ bytesOfDword r.addr ++ bytesOfDword (r.phys.getD 0) ++ bytesOfDword r.job ++
    bytesOfDword r.frame ++ bytesOfDword r.pc ++
    bytesOfWord (r.detail.getD 0 0) ++ bytesOfWord (r.detail.getD 1 0) ++ bytesOfWord (r.detail.getD 2 0) ++
    bytesOfWord (r.detail.getD 3 0)

/-- How a global heap address reads and writes for the hardware itself: at a spot; or its access waits, for a promotion or for
zeroing (R90, R92); or the address does not translate, with the cause. -/
inductive Home where
  | here (s : Spot)
  | waits
  | gone (cause : Cause)
  deriving DecidableEq, Repr

/-- The hardware's own access to a heap address of this module, through whole-page translation. -/
def Chip.hardwareSpot (g : Mgmt) (c : Chip) (a : Dword) : Home × Chip :=
  match homeHeap g a with
  | none => (.gone Cause.addrInvalid, c)
  | some (d, off) =>
    let page := globalOf (heapLoc d (off / 2 ^ 21 * 2 ^ 21))
    match c.leaf d off false with
    | (.leaf e _, c) =>
      if entryTier e = 2 then (.waits, c.askPromotion page)
      else if entryZero e then (.waits, c.askZeroing page false e)
      else (.here ⟨heapLoc d off, heapKey d (entryAddr e + off % 2 ^ 21)⟩, c)
    | (.fails cause, c) => (.gone cause, c)

/-- One record written at the ring's head, if its page is there: the cell, then the head with a release at `.sy`, then
EVPEND.LOG and the vector (R315). none while the write waits (R92). -/
def Chip.logWrite (g : Mgmt) (c : Chip) (die : BitVec 3) (bytes : List Byte) : Option Chip :=
  let d := c.die die
  match c.hardwareSpot g (d.logbase + BitVec.ofNat 64 (d.loghead.toNat % d.logsize.toNat * 64)) with
  | (.waits, _) => none
  | (home, c) =>
    let me := AgentId.launchUnit die
    let c := match home with | .here s => c.writeBytes me none true none none s bytes | _ => c
    let (_, c) := c.release me (.unit die) 5
    let d := c.die die
    let c := c.setDie die { d with loghead := d.loghead + 1, evpend := d.evpend ||| 1 }
    some (if d.logvec.getLsbD 31 then { c with out := c.out ++ [.msix (d.logvec.extractLsb' 0 6)] } else c)

/-- The page of the ring's head is asked for (R90, R92, R315). -/
def Chip.logAsks (g : Mgmt) (c : Chip) (die : BitVec 3) : Chip :=
  let d := c.die die
  let (_, asked) := c.hardwareSpot g (d.logbase + BitVec.ofNat 64 (d.loghead.toNat % d.logsize.toNat * 64))
  { c with promoting := asked.promoting, zeroing := asked.zeroing }

/-- One record entered into a die's ring, if there is room: at once, or behind the records whose write waits. The management
port keeps the last 256 (R349). PHYS names the die in every record (R316). -/
def Chip.logOne (g : Mgmt) (c : Chip) (die : BitVec 3) (r : LogRecord) : Option Chip :=
  let d := c.die die
  if (d.loghead - d.logtail).toNat + d.logwait.length < d.logsize.toNat then
    let bytes := { r with phys := some (r.phys.getD (BitVec.ofNat 64 die.toNat <<< 56)) }.bytes d.logseq
    let c := c.setDie die { d with logseq := d.logseq + 1, records := (bytes :: d.records).take 256 }
    let queued (c : Chip) : Chip := c.setDie die { c.die die with logwait := (c.die die).logwait ++ [bytes] }
    if d.logwait.isEmpty then
      match c.logWrite g die bytes with
      | some c => some c
      | none => some (queued (c.logAsks g die))
    else some (queued c)
  else none

/-- The oldest waiting record of a die's ring is written, once its page is there (R92, R315). -/
def Chip.logNext (g : Mgmt) (c : Chip) (die : BitVec 3) : Chip :=
  match (c.die die).logwait with
  | [] => c
  | bytes :: rest =>
    match c.logWrite g die bytes with
    | some c => c.setDie die { c.die die with logwait := rest }
    | none => c.logAsks g die

/-- A record is logged for a die, or dropped and counted; a LOST record comes first once there is room again (R315). -/
def Chip.log (g : Mgmt) (c : Chip) (die : BitVec 3) (r : LogRecord) : Chip :=
  let d := c.die die
  let lost (c : Chip) : Chip := c.setDie die { c.die die with loglost := (c.die die).loglost + 1 }
  if d.loglost = 0 then (c.logOne g die r).getD (lost c)
  else
    match c.logOne g die { LogRecord.of logLost with detail := [BitVec.ofNat 32 d.loglost] } with
    | some c =>
      let c := c.setDie die { c.die die with loglost := 0 }
      (c.logOne g die r).getD (lost c)
    | none => lost c

/-! ## The context frame (R301, R302) -/

/-- A task's tile, if it is mapped. -/
def Chip.tile (c : Chip) (task : Nat) (acc : Nat) : Option Tile :=
  c.tiles.find? fun x => decide (x.task = task) && decide (x.acc.toNat = acc)
/-- A tile set. -/
def Chip.setTile (c : Chip) (x : Tile) : Chip :=
  { c with tiles := c.tiles.map fun y => if decide (y.task = x.task) && decide (y.acc = x.acc) then x else y }

/-- The job stopped on a tile, if one is (R233). -/
def Chip.stoppedJob (c : Chip) (x : Tile) : Option (Job × Cause × Nat × Dword) :=
  c.jobs.findSome? fun j =>
    match j.kind, j.state with
    | .cld p, .stopped cause request addr =>
      if decide (j.task = x.task) && decide (p.acc = x.acc) then some (j, cause, request, addr) else none
    | _, _ => none

/-- A job has ended: done or faulted. -/
def JobState.over : JobState → Bool
  | .done => true
  | .faulted _ => true
  | _ => false

/-- A contracting load of a task's tile that is not over (R221, R227). -/
def Job.loads (j : Job) (task : Nat) (acc : BitVec 2) : Bool :=
  match j.kind with
  | .cld p => decide (j.task = task) && decide (p.acc = acc) && !j.state.over
  | _ => false

/-- A task's tiles with F set where a contracting load is not over (R221). -/
def Chip.settleTiles (c : Chip) (task : Nat) : Chip :=
  { c with tiles := c.tiles.map fun (x : Tile) =>
      if x.task = task then { x with f := c.jobs.any fun j => j.loads task x.acc } else x }

/-- The stopped jobs of a task that will never resume end faulted, with the cause of their stop (R245, R310, log 21). -/
def Chip.abandonJobs (c : Chip) (task : Nat) : Chip :=
  Chip.settleTiles { c with jobs := c.jobs.map fun (j : Job) =>
      match j.state with
      | .stopped cause _ _ => if j.task = task then { j with state := .faulted cause } else j
      | _ => j } task

/-- A job's ID (R139). -/
def Job.ident (j : Job) : Dword := 0#32 ++ j.seq ++ 0#3 ++ j.entry

/-- The status bits V to ISAT of a tile (R221, R241). -/
def Tile.bits (x : Tile) : BitVec 6 :=
  BitVec.ofBool x.isat ++ BitVec.ofBool x.operr ++ BitVec.ofBool x.t ++ BitVec.ofBool x.f ++ BitVec.ofBool x.d ++
    BitVec.ofBool x.v

/-- A tile's descriptor in a frame (R302). -/
def Chip.tileDescriptor (c : Chip) (x : Tile) : List Byte :=
  let loc : BitVec 2 := if x.spilled then 2 else 1
  match c.stoppedJob x with
  | some (j, cause, request, _) =>
    bytesOfDword (j.ident.extractLsb' 0 32 ++ BitVec.ofNat 8 request ++ cause ++ 0#7 ++ 1#1 ++ loc ++ x.bits) ++
      bytesOfDword x.cov
  | none => bytesOfDword (0#32 ++ 0#8 ++ 0#8 ++ 0#7 ++ 0#1 ++ loc ++ x.bits) ++ bytesOfDword x.cov

/-- A loop-stack entry in a frame (R302). -/
def LoopEntry.bytes (e : LoopEntry) : List Byte :=
  bytesOfDword e.start ++ bytesOfDword (e.count ++ 0#15 ++ ((e.stop - e.start) >>> 1).extractLsb' 0 17)

/-- CTL of a pending entry (R302): FILE and REG. -/
def Dest.code : Dest → BitVec 2 × BitVec 5
  | .none => (3, 0)
  | .loop _ => (3, 0)
  | .x r => (0, r)
  | .pair r => (0, r)
  | .group r _ => (0, r)
  | .v r _ => (1, 0#1 ++ r)

/-- A pending entry in a frame (R302). -/
def Pending.bytes (p : Pending) : List Byte :=
  let ret := p.access.isNone
  let bnd := match p.result with | .group _ _ _ _ _ => true | _ => false
  let (file, reg) := p.dest.code
  let ctl : BitVec 16 := BitVec.ofBool p.wr ++ BitVec.ofBool bnd ++ BitVec.ofBool (!ret) ++ BitVec.ofBool ret ++
    BitVec.ofNat 4 p.rem ++ 0#1 ++ file ++ reg
  let result := match p.result with
    | .none => List.replicate 32 0
    | .x v => bytesOfDword v ++ List.replicate 24 0
    | .pair lo hi => bytesOfDword lo ++ bytesOfDword hi ++ List.replicate 16 0
    | .group s b1 b2 b3 _ => bytesOfDword s ++ bytesOfDword b1 ++ bytesOfDword b2 ++ bytesOfDword b3
    | .v l => (l.list.map bytesOfWord).flatten
  bytesOfDword p.iaddr ++ bytesOfDword (0#48 ++ ctl) ++ result

/-- A list of bytes cut or filled with zeros to a length. -/
def padTo (n : Nat) (l : List Byte) : List Byte := l.take n ++ List.replicate (n - l.length) 0

/-- What a stop records beside the registers. -/
structure Stop where
  pc : Dword
  cause : Cause
  addr : Dword
  info : Dword
  defer : Bool
  unrest : Bool
  st : BitVec 3

/-- The STATE doubleword of a frame (R302). -/
def frameState (t : Thread) (s : Stop) : Dword :=
  0#35 ++ BitVec.ofNat 3 ((t.task.map Task.tiles).getD 0) ++ 0#2 ++ s.cause ++ BitVec.ofNat 5 t.pend.length ++
    BitVec.ofNat 3 t.loops.length ++ BitVec.ofBool s.unrest ++ BitVec.ofBool t.sup ++ BitVec.ofBool s.defer ++ 0#2 ++ s.st

/-- The CSR slots of a frame, in order (R302). -/
def csrSlots (k : Csrs) : List Dword :=
  [k.flags.setWidth 64, k.fpctl.setWidth 64, k.expr.setWidth 64, k.cellcv.setWidth 64, k.drscl.setWidth 64,
   k.jctl.setWidth 64, k.cutctl.setWidth 64, k.barp.setWidth 64, k.srseed, k.srctr, k.warnc.setWidth 64, k.warnpc] ++
  k.lwin ++ (k.tile ++ k.org ++ k.ext).map (·.setWidth 64) ++ [k.ldkey.setWidth 64]

/-- The 2,048 bytes of a task's frame (R302). -/
def Chip.frameBytes (c : Chip) (t : Thread) (s : Stop) : List Byte :=
  let tiles := match t.task with
    | some k => (List.range k.tiles).map fun a =>
        match c.tile k.id a with
        | some x => c.tileDescriptor x
        | none => List.replicate 16 0
    | none => []
  padTo 0x40 (bytesOfDword (frameState t s) ++ bytesOfDword s.pc ++ bytesOfDword s.info ++ bytesOfDword s.addr ++
      bytesOfDword (t.repc.setWidth 64)) ++
  ((List.range 32).map fun n => bytesOfDword (t.getX (BitVec.ofNat 5 n))).flatten ++
  ((List.range 16).map fun n => ((t.getV (BitVec.ofNat 5 n)).list.map bytesOfWord).flatten).flatten ++
  padTo 0x40 ((List.range 8).map fun n => t.getM (BitVec.ofNat 3 n)) ++
  padTo 0x40 ((t.loops.reverse.map LoopEntry.bytes).flatten) ++
  padTo 0x40 tiles.flatten ++
  padTo 0x100 ((csrSlots t.csr).map bytesOfDword).flatten ++
  padTo 0x300 (t.pend.map Pending.bytes).flatten

/-- The two halves of a frame, where they stand. -/
inductive FrameHome where
  | here (a b : Spot)
  | waits
  | gone (cause : Cause)
  deriving DecidableEq, Repr

def Chip.frameSpots (g : Mgmt) (c : Chip) (frame : Dword) : FrameHome × Chip :=
  match c.hardwareSpot g frame with
  | (.here a, c) =>
    match c.hardwareSpot g (frame + 1024) with
    | (.here b, c) => (.here a b, c)
    | (.waits, c) => (.waits, c)
    | (.gone cause, c) => (.gone cause, c)
  | (.waits, c) => (.waits, c)
  | (.gone cause, c) => (.gone cause, c)

/-- Bytes written into a frame by the hardware: a write of the task (R276). A frame whose page firmware has unmapped takes
none (log 13). -/
def Chip.writeFrame (c : Chip) (a : AgentId) (home : FrameHome) (bytes : List Byte) : Chip :=
  match home with
  | .here s t =>
    (c.writeBytes a none true none none s (bytes.take 1024)).writeBytes a none true none none t (bytes.drop 1024)
  | _ => c

/-- n free bytes, for a frame whose page firmware has unmapped (log 13). -/
def Chip.freeBytes : Nat → Chip → List Byte × Chip
  | 0, c => ([], c)
  | n + 1, c =>
    let (v, c) := c.free
    let (bs, c) := Chip.freeBytes n c
    (bytesOfDword v ++ bs, c)

/-- The 2,048 bytes of a task's frame: those that the hardware keeps while the task is in a handler or held, whatever else has
been stored there (R6, log 13); else those that its memory holds. -/
def Chip.frameImage (c : Chip) (task : Nat) (home : FrameHome) : List Byte × Chip :=
  match c.images.find? fun k => decide (k.task = task) with
  | some k => (k.bytes, c)
  | none =>
    match home with
    | .here s t => (Mem.bytes c.mem s.key 1024 ++ Mem.bytes c.mem t.key 1024, c)
    | _ => Chip.freeBytes 256 c
/-- What the hardware keeps of a task's frame no longer. -/
def Chip.dropImage (c : Chip) (task : Nat) : Chip := { c with images := c.images.filter fun k => decide (k.task ≠ task) }
/-- The bytes of the acting thread's frame, kept for its handler. -/
def Chip.keepImage (g : Mgmt) (c : Chip) (bs : List Byte) : Chip :=
  match c.t.task with
  | none => c
  | some task =>
    let loc := match homeHeap g c.t.csr.tframe with | some (d, off) => heapLoc d off | none => 2 ^ 64
    { c.dropImage task.id with images := ⟨task.id, loc, bs⟩ :: (c.dropImage task.id).images }

/-- What the hardware keeps of the frame at a canonical address, as it stood before, takes a new ST and nothing else (R6, R305). -/
def Chip.keepSt (c : Chip) (before : List FrameImage) (loc : Nat) (st : BitVec 3) : Chip :=
  { c with images := before.map fun (k : FrameImage) =>
      if k.loc = loc then { k with bytes := ((k.bytes.getD 0 0 &&& 0xF8) ||| st.setWidth 8) :: k.bytes.drop 1 } else k }

/-- The ST field of a frame's STATE changed by the hardware; the answer says that the write must wait (R90, R92). -/
def Chip.setFrameSt (g : Mgmt) (c : Chip) (a : AgentId) (frame : Dword) (st : BitVec 3) : Bool × Chip :=
  match c.hardwareSpot g frame with
  | (.here s, c) =>
    let old := Mem.dword c.mem s.key
    (false, (c.writeBytes a none true none none s (bytesOfDword (old.extractLsb' 3 61 ++ st))).keepSt c.images s.loc st)
  | (.waits, c) => (true, c)
  | (.gone _, c) => (false, c)

/-- The acting thread waits, and then tries its instruction again. -/
def Chip.hold (c : Chip) : Out := .next { c with t := { c.t with run := .wait .retry } }

/-! ## Stops (R297 to R299) -/

/-- A barrier arrival of a task that a stop withdraws; with ARR = NEED the arrival stands (R292). -/
def withdrawArrival (l : List Barrier) (k : BarKey) (task : Nat) : List Barrier :=
  l.map fun b =>
    if b.key ≠ k then b
    else if b.arr ≠ b.need then { b with arr := b.arr - 1 }
    else { b with standing := b.standing ++ [task] }

/-- A gang disbands (R266): every member goes on alone from where it stands. Members hold the leader's loop stack,
REPC and program counter from before the instruction until they have executed it. -/
def Chip.disband (c : Chip) (me : TId) : Chip :=
  let t := c.thread me
  if t.gangSize = 0 then c
  else
    let members := c.threads.filter fun e => decide (e.2.gangSize ≠ 0) && decide (e.2.gangLeader = t.gangLeader)
    members.foldl (fun (c : Chip) e =>
      let u := c.thread e.1
      c.setThread e.1 { u with gangSize := 0, gangMember := 0, run := if u.run = .follow then .ready else u.run }) c

/-- What a save leaves: the frame's STATE and bytes, and the entries still pending as it found them. -/
structure SavedFrame where
  state : Dword
  bytes : List Byte
  kept : List Pending

/-- The acting thread's task is saved in its frame, with everything of the thread that a stop gives up (R299); or the save must
wait for the frame's page (R90, R92). -/
def Chip.save (g : Mgmt) (c : Chip) (s : Stop) : Option SavedFrame × Chip :=
  match c.frameSpots g c.t.csr.tframe with
  | (.waits, c) => (none, c)
  | (home, c) =>
    let c := match c.t.run, c.t.task with
      | .wait (.barrier k), some task => { c with barriers := withdrawArrival c.barriers k task.id }
      | _, _ => c
    let c := c.disband c.tid
    let c := (c.releaseLock c.tid).dropHoard c.tid
    let c := { c with
      t := { c.t with squirrel := Squirrel.reset }
      triggers := c.triggers.filter fun e => decide (e.1 ≠ c.tid) }
    let bytes := c.frameBytes c.t s
    let c := c.writeFrame c.t.agentId home bytes
    (some ⟨frameState c.t s, bytes, c.t.pend⟩, (c.release c.t.agentId (.thread c.tid) 2).2)

/-- A handler is entered on the thread that stopped (R305). -/
def Chip.enterHandler (c : Chip) (st : Dword) (kept : List Pending) : Chip :=
  let t := c.t
  let csr := { Csrs.reset with tframe := t.csr.tframe, sscr := t.csr.sscr, even := t.csr.even }
  let fresh := { Thread.reset with
    csr := csr, run := .ready, sup := true, handler := some st, task := t.task, report := t.report, kept := kept,
    nextPend := t.nextPend, pc := (c.die c.tid.die).tvec }
  { c with t := ((fresh.setX 10 t.csr.tframe).setX 11 st).setX 1 endLink }

/-- The PC slot of a frame, 0 where the frame is not to be reached. -/
def Chip.framePc (g : Mgmt) (c : Chip) (frame : Dword) : Dword :=
  match c.hardwareSpot g (frame + 8) with
  | (.here s, _) => Mem.dword c.mem s.key
  | _ => 0

/-- The trapped task of the acting thread's handler is halted: ST ← 5 and a HALTED record; the handler's waits are
withdrawn; its end follows under R245 (R310). The write of ST waits for the frame's page (R306). -/
def Chip.haltTask (g : Mgmt) (c : Chip) : Out :=
  match (c.disband c.tid).setFrameSt g c.t.agentId c.t.csr.tframe 5 with
  | (true, c') => .next { c with promoting := c'.promoting, zeroing := c'.zeroing }
  | (false, c) =>
    let cause := match c.t.handler with | some st => st.extractLsb' 16 8 | none => 0
    let pc := c.framePc g c.t.csr.tframe
    let c := c.log g c.tid.die { LogRecord.of logHalted with cause := cause, frame := c.t.csr.tframe, pc := pc }
    let c := c.abandonJobs ((c.t.task.map Task.id).getD 0)
    .next { c with t := { c.t with run := .wait .taskEnd, report := none, pend := [] } }

/-- A cause inside a handler ends it: a HANDLER_FAULT record, and the trapped task is halted (R306). -/
def Chip.handlerFault (g : Mgmt) (c : Chip) (cause : Cause) : Out :=
  match c.hardwareSpot g c.t.csr.tframe with
  | (.waits, c') => .next { c with promoting := c'.promoting, zeroing := c'.zeroing }
  | _ =>
    let trapped := c.framePc g c.t.csr.tframe
    let c := (c.releaseLock c.tid).dropHoard c.tid
    let c := c.log g c.tid.die { LogRecord.of logHandlerFault with
      cause := cause, frame := c.t.csr.tframe, pc := c.t.stopPc
      detail := [trapped.extractLsb' 0 32, trapped.extractLsb' 32 32] }
    c.haltTask g

/-- A `vst` or `vstc`: once it has issued, no stop leaves it unperformed (R196). -/
def Access.lasting : Access → Bool
  | .vstore _ _ _ => true
  | .vstc _ _ _ _ _ _ _ => true
  | _ => false
/-- A `vst` or `vstc` that the thread has moved past is still to be performed; the pending entry `but` does not count (R196). -/
def Thread.storing (t : Thread) (but : Option Nat) : Bool :=
  t.pend.any fun p => decide (some p.id ≠ but) && (match p.access with
    | some a => a.lasting
    | none => false)

/-- TAKING AN EXCEPTION: the acting thread's task is saved with its cause, ST 4, and the handler is entered; inside a
handler the cause ends the handler instead (R297 to R299, R305, R306). A stop whose save waits for the frame's page is met
again. -/
def Chip.stopNow (g : Mgmt) (c : Chip) (pc : Dword) (cause : Cause) (addr info : Dword) (defer unrest : Bool) : Out :=
  if c.t.handler.isSome then c.handlerFault g cause
  else
    match c.save g ⟨pc, cause, addr, info, defer, unrest, 4⟩ with
    | (some f, c) => .next ((c.enterHandler f.state f.kept).keepImage g f.bytes)
    | (none, c) => .next c

/-- An exception of the acting thread, once every `vst` and `vstc` that it has moved past is performed (R196): until then its
instruction meets the cause again. -/
def Chip.takeStop (g : Mgmt) (c : Chip) (pc : Dword) (cause : Cause) (addr info : Dword) (defer unrest : Bool) : Out :=
  if c.t.storing none then .next c else c.stopNow g pc cause addr info defer unrest

/-- The acting thread cannot be stopped yet, and what it then waits for has been asked for (R90, R92, R196). -/
def Chip.stopWaits (g : Mgmt) (c : Chip) : Option Chip :=
  if c.t.storing none then some c
  else match c.frameSpots g c.t.csr.tframe with
    | (.waits, c') => some c'
    | _ => none

/-- A precise stop at the acting thread's instruction (R297). -/
def Chip.raise (g : Mgmt) (c : Chip) (cause : Cause) (addr info : Dword) : Out :=
  c.takeStop g c.t.stopPc cause addr info false false

/-- Whether some protection pair of the thread allows an access (R247). -/
def pinnedBy (lwin : List Dword) : Bool :=
  lwin.any fun p => decide ((p.extractLsb' 0 16).toNat < (p.extractLsb' 16 17).toNat) && (p.getLsbD 40 || p.getLsbD 41)

/-- A saved task as the hardware keeps it. -/
def Chip.savedRecord (c : Chip) (t : Thread) (lwin : List Dword) (task : Task) (image : List Byte) (kept : List Pending)
    (resume : Resume) : Saved :=
  ⟨task, t.csr.tframe, image, c.tid.cluster, c.tid.core, pinnedBy lwin, resume, kept, t.report, []⟩

/-- The hardware scheduler saves the acting thread's task, ST 2 (1 for a pre-emption), and the thread becomes FREE
(R247, R299). -/
def Chip.saveNow (g : Mgmt) (c : Chip) (pc : Dword) (cause : Cause) (addr info : Dword) (defer : Bool)
    (st : BitVec 3) (resume : Resume) : Out :=
  match c.t.task with
  | none => c.hold
  | some task =>
    let t := c.t
    match c.save g ⟨pc, cause, addr, info, defer, false, st⟩ with
    | (some f, c) =>
      .next { c with t := Thread.reset, saved := c.saved ++ [c.savedRecord t t.csr.lwin task f.bytes f.kept resume] }
    | (none, c) => .next c

/-- The scheduler's save, once every `vst` and `vstc` that the thread has moved past is performed (R196). -/
def Chip.schedulerSave (g : Mgmt) (c : Chip) (pc : Dword) (cause : Cause) (addr info : Dword) (defer : Bool)
    (st : BitVec 3) (resume : Resume) : Out :=
  if c.t.storing none then .next c else c.saveNow g pc cause addr info defer st resume

/-! ## The return from a stop (R303, R308) -/

/-- A doubleword of a frame's bytes. -/
def frameDword (bs : List Byte) (i : Nat) : Dword := BitVec.ofNat 64 (fieldAt bs i 8)
def frameWord (bs : List Byte) (i : Nat) : Word := BitVec.ofNat 32 (fieldAt bs i 4)

/-- Eight lanes of a frame's bytes. -/
def frameLanes (bs : List Byte) (i : Nat) : Lanes Word := Lanes.of fun k => frameWord bs (i + 4 * k.toNat)

/-- The loop stack of a frame, innermost first (R302). -/
def frameLoops (bs : List Byte) : List LoopEntry :=
  ((List.range (((frameDword bs 0).extractLsb' 8 3).toNat)).map fun i =>
    let start := frameDword bs (0x380 + 16 * i)
    let second := frameDword bs (0x388 + 16 * i)
    (⟨start, start + BitVec.ofNat 64 (2 * (second.extractLsb' 0 17).toNat), second.extractLsb' 32 32⟩ : LoopEntry)).reverse

/-- A rounding-mode field and the bit above it as written: modes 5 to 7 store 0 (FPCTL, CELLCV). -/
def writeMode (w : Dword) : Word :=
  let rm := w.extractLsb' 0 3
  0#28 ++ BitVec.ofBool (w.getLsbD 3) ++ (if rm.toNat ≤ 4 then rm else 0#3)

/-- EXPR as written: values above 16 store 16. -/
def writeExpr (w : Dword) : Word := if w.toNat % 32 ≤ 16 then w.extractLsb' 0 32 &&& 0x1F else 16

/-- LWINi as written: R, W, LIMIT and BASE (R79). -/
def writeLwin (w : Dword) : Dword := w &&& 0x000003_01_FFFF_FFFF

/-- The CSRs of a frame, over those that no frame holds (R302, R303). A slot's reserved bits are 0, as the CSR reads. -/
def frameCsrs (bs : List Byte) (keep : Csrs) : Csrs :=
  let q := fun i => frameDword bs (0x400 + 8 * i)
  let w := fun i => frameWord bs (0x400 + 8 * i)
  { keep with
    flags := w 0 &&& 0xF1F, fpctl := writeMode (q 1), expr := writeExpr (q 2), cellcv := writeMode (q 3)
    drscl := w 4 &&& 0xFF, jctl := w 5 &&& 0x1FF, cutctl := w 6 &&& 3, barp := w 7
    srseed := q 8, srctr := q 9, warnc := w 10 &&& 0xFFFF, warnpc := q 11 &&& ~~~1
    lwin := [writeLwin (q 12), writeLwin (q 13), writeLwin (q 14), writeLwin (q 15)]
    tile := [w 16, w 17, w 18, w 19], org := [w 20, w 21, w 22, w 23], ext := [w 24, w 25, w 26, w 27]
    ldkey := (w 28).extractLsb' 0 16 }

/-- The destination that a pending entry of a frame names, with the active lanes the hardware kept. -/
def frameDest (ctl : Dword) (kept : Dest) : Dest :=
  match ctl.extractLsb' 5 2 with
  | 0#2 => match kept with
    | .pair r => .pair r
    | .group r first => .group r first
    | _ => .x (ctl.extractLsb' 0 5)
  | 1#2 => match kept with
    | .v r act => .v r act
    | _ => .v (ctl.extractLsb' 0 4) 0xFF
  | _ => .none

/-- The pending entries of a frame (R302, R303): RET entries with their results, and REISSUE entries with the accesses
that the hardware kept of them, in order. old holds every entry as the save found it. -/
def framePending (bs : List Byte) (old : List Pending) : List Pending :=
  (List.range ((frameDword bs 0).extractLsb' 11 5).toNat).map fun k =>
    let base := 0x500 + 48 * k
    let ctl := frameDword bs (base + 8)
    let was := old[k]?
    let dest := frameDest ctl ((was.map Pending.dest).getD .none)
    let result : Result :=
      if ctl.getLsbD 14 then .group (frameDword bs (base + 16)) (frameDword bs (base + 24)) (frameDword bs (base + 32))
        (frameDword bs (base + 40)) (match was.map Pending.result with | some (.group _ _ _ _ f) => f | _ => 0)
      else match dest with
        | .none => .none
        | .loop _ => .none
        | .x _ => .x (frameDword bs (base + 16))
        | .group _ _ => .x (frameDword bs (base + 16))
        | .pair _ => .pair (frameDword bs (base + 16)) (frameDword bs (base + 24))
        | .v _ _ => .v (frameLanes bs (base + 16))
    { id := k, iaddr := frameDword bs base, dest := dest, rem := (ctl.extractLsb' 8 4).toNat
      access := if ctl.getLsbD 12 then none else (was.map Pending.access).getD none
      spots := []
      arrival := 0, result := result, wr := ctl.getLsbD 15
      flags := (was.map Pending.flags).getD 0, warn := (was.map Pending.warn).getD 0
      rels := (was.map Pending.rels).getD []
      acqs := (was.map Pending.acqs).getD []
      snap := (was.map Pending.snap).getD none }

/-- The thread that resumes a task from its frame's bytes (R303): what the frame does not hold takes its reset value,
but for what describes the thread. -/
def Thread.fromFrame (bs : List Byte) (task : Task) (frame : Dword) (kept : List Pending)
    (report : Option Report) : Thread :=
  let sup := (frameDword bs 0).getLsbD 6
  let keep := { Csrs.reset with tframe := frame }
  let pend := framePending bs kept
  { Thread.reset with
    x := Vector.ofFn fun i => if i.val = 0 then 0 else frameDword bs (0x40 + 8 * i.val)
    v := Vector.ofFn fun i => frameLanes bs (0x140 + 32 * i.val)
    m := Vector.ofFn fun i => byteAt bs (0x340 + i.val)
    pc := frameDword bs 8 &&& ~~~1
    loops := frameLoops bs
    csr := frameCsrs bs keep
    repc := frameWord bs 0x20 &&& 0xBF
    run := .ready
    sup := sup
    pend := pend
    nextPend := pend.length
    returned := true
    task := some task
    report := report }

/-- REPC.ACT cleared by a return to an instruction that is no repeat prefix (R52). -/
def Thread.clearAct (t : Thread) : Thread := { t with repc := t.repc &&& ~~~repcAct }

/-- Stopped jobs of a task run again, and its spilled tiles return to the pool (R303, R234). -/
def Chip.restartJobs (c : Chip) (task : Nat) : Chip :=
  { c with
    jobs := c.jobs.map fun j =>
      match j.state with
      | .stopped _ _ _ => if j.task = task then { j with state := .running } else j
      | _ => j
    tiles := c.tiles.map fun x => if x.task = task then { x with spilled := false } else x }

/-- The key of a task's launch, which no frame changes (R81, R305); of a task of no launch, what the frame's slot holds. -/
def Chip.launchKey (c : Chip) (task : Task) (slot : BitVec 16) : BitVec 16 :=
  match c.launches.find? fun l => decide (l.id = task.launch) with
  | some l => l.key
  | none => slot

/-- THE RETURN FROM A STOP, up to its REISSUE entries' accesses, which the caller issues again: the acting thread takes
the task's state from its frame's bytes (R303), and its mode and its launch's key from what the hardware keeps (R6). -/
def Chip.loadFrame (c : Chip) (task : Task) (frame : Dword) (home : FrameHome) (bs : List Byte) (sup : Bool)
    (kept : List Pending) (report : Option Report) (tokens : List Nat) : Chip :=
  let c := (c.dropHoard c.tid).acquire (.task task.id) (.thread c.tid) 2 []
  let c := if tokens.isEmpty then c else c.acquire (.task task.id) (.thread c.tid) 5 tokens
  let c := c.restartJobs task.id
  let c := match home with
    | .here s _ => c.writeBytes (.task task.id) none true none none s
        (bytesOfDword ((frameDword bs 0).extractLsb' 3 61 ++ 0#3))
    | _ => c
  let t := Thread.fromFrame bs task frame kept report
  { c.dropImage task.id with t := { t with sup := sup, csr := { t.csr with ldkey := c.launchKey task t.csr.ldkey } } }

end Sys2Proof.Machine
end

