-- ==== Sys2Proof/Machine/Fetch.lean ====
section
/-! DEFINITION. Fetching an instruction's bytes (R25), stepping a repeated instruction's fields (R50, R51), and the
stops that an access makes (R89, R90, R92, R295). -/

namespace Sys2Proof.Machine

/-! ## The outcomes of reaching memory, at an instruction -/

/-- FAULTINFO of a memory cause: the access kind, and the lane of a lane access (R295). -/
def accessInfo (kind : Kind) (lane : BitVec 3) : Dword := 0#53 ++ lane ++ 0#6 ++ kind.code

/-- An access of the acting thread's instruction finds TIER = 2: the scheduler saves the task; in a handler the access
waits (R90, R306). -/
def Chip.absentStop (g : Mgmt) (c : Chip) (page a info : Dword) : Out :=
  if c.t.handler.isSome then c.hold
  else c.schedulerSave g c.t.stopPc Cause.pageAbsent a info false 2 (.page page)

/-- What another module answers: a value, a cause it met there, or nothing yet (R346, log 10). -/
inductive Answer where
  | value (v : Dword)
  | cause (k : Cause)
  | none
  deriving DecidableEq, Repr

/-- The answer of another module to an access (R346, log 10): one of the causes 18 to 23 that it may meet there. -/
def Chip.remoteAnswer (c : Chip) : Answer × Chip :=
  let (i, c) := c.draw 3
  if i = 0 then
    let (v, c) := c.free
    (.value v, c)
  else if i = 1 then (.none, c)
  else
    let (k, c) := c.draw 6
    (.cause (BitVec.ofNat 8 (18 + k)), c)

/-- FAULTINFO with the module of a lost path, and the lane of a lane access (R295). -/
def remoteInfo (kind : Kind) (lane : BitVec 3) (m : BitVec 12) (cause : Cause) : Dword :=
  if cause = Cause.remoteFail then 0#20 ++ m ++ 0#21 ++ lane ++ 0#6 ++ kind.code else accessInfo kind lane

/-! ## Fetch (R25) -/

/-- What fetching at an address gives. -/
inductive Fetched where
  | instr (i : Instr) (word : Word)
  /-- a reserved encoding (R53), with its word -/
  | reserved (word : Word)
  | fails (cause : Cause) (info : Dword)
  | absent (page : Dword)
  | held
  deriving DecidableEq, Repr

/-- One halfword of a fetch. -/
inductive FetchedHalf where
  | got (h : Half)
  | stop (f : Fetched)
  deriving DecidableEq, Repr

/-- A halfword from an EXEC page of the heap (R25). -/
def Chip.fetchHalf (g : Mgmt) (c : Chip) (a : Dword) : FetchedHalf × Chip :=
  match c.reach g (c.t.who c.tid) .fetch false a 2 with
  | (.ok s _, c) =>
    if c.anyPoison s.key 2 then (.stop (.fails Cause.memPoison (accessInfo .fetch 0)), c)
    else
      let (bs, c) := c.readBytes c.t.agentId s 2
      (.got (byteAt bs 1 ++ byteAt bs 0), c)
  | (.fails cause, c) => (.stop (.fails cause (accessInfo .fetch 0)), c)
  | (.absent page, c) => (.stop (.absent page), c)
  | (.zeroing _ _ _ _, c) => (.stop .held, c)
  | (.den _, c) => (.stop (.fails Cause.pageProtect (accessInfo .fetch 0)), c)
  | (.away m, c) =>
    match c.remoteAnswer with
    | (.value v, c) => (.got (v.extractLsb' 0 16), c)
    | (.cause cause, c) => (.stop (.fails cause (remoteInfo .fetch 0 m cause)), c)
    | (.none, c) =>
      let (i, c) := c.draw 2
      (.stop (if i = 0 then .held else .fails Cause.remoteFail (remoteInfo .fetch 0 m Cause.remoteFail)), c)

/-- The instruction at an address (R25, R53). -/
def Chip.fetch (g : Mgmt) (c : Chip) (a : Dword) : Fetched × Chip :=
  match c.fetchHalf g a with
  | (.stop f, c) => (f, c)
  | (.got lo, c) =>
    if isLong lo then
      match c.fetchHalf g (a + 2) with
      | (.stop f, c) => (f, c)
      | (.got hi, c) =>
        match decode32 (hi ++ lo) with
        | .ok i => (.instr i (hi ++ lo), c)
        | .error _ => (.reserved (hi ++ lo), c)
    else
      match decode16 lo with
      | .ok i => (.instr i (0#16 ++ lo), c)
      | .error _ => (.reserved (0#16 ++ lo), c)

/-- Bytes of an instruction (R25). -/
def instrSize (i : Instr) : Nat := (encode i).length

/-- ILLEGAL at the acting thread's instruction (R53, R295): FAULTADDR is the instruction's address, of a repeated instruction
too. -/
def Chip.illegal (g : Mgmt) (c : Chip) (word : Dword) : Out := c.raise g Cause.illegal c.t.pc word

/-- The word of an instruction, for FAULTINFO (R295). -/
def instrWord (i : Instr) : Dword := BitVec.ofNat 64 (natOfBytes (encode i))

/-- The word of the acting thread's instruction as it stands in memory: the steps that a repeat has made are taken off its
register fields (R35, R50). -/
def Thread.wordOf (t : Thread) (i : Instr) : Dword :=
  match t.rep with
  | none => instrWord i
  | some r =>
    let k := (t.repc.extractLsb' 0 6).setWidth 64
    let off (on : Bool) (at_ : Nat) : Dword := if on then k <<< at_ else 0
    instrWord i - off r.d 8 - off r.a 13 - off r.b 18

/-- PRIVILEGE at the acting thread's instruction (R54, R295). -/
def Chip.privilege (g : Mgmt) (c : Chip) (i : Instr) : Out := c.raise g Cause.privilege c.t.pc (c.t.wordOf i)

/-- ILLEGAL at a repeat prefix, with the prefix and the instruction after it (R51, R295): REPC.ACT is 0. -/
def Chip.illegalRepeat (g : Mgmt) (c : Chip) (pre : Dword) (word : Word) : Out :=
  { c with t := c.t.clearAct }.raise g Cause.illegal c.t.stopPc ((word.setWidth 64 <<< (16 : Nat)) ||| pre)

/-- A word with the form of a repeat prefix (R29). -/
def prefixForm (w : Word) : Bool := decide (w.extractLsb' 0 2 = 2#2) && decide (w.extractLsb' 16 16 = 0#16)

/-- A prefix whose bits 15:11 are not zero: the instruction after it is fetched for FAULTINFO (R51, R295). Where that fetch
faults, its cause is taken and not ILLEGAL: a DESIGN CHOICE (log 50), for R51 and R295 give no order. -/
def Chip.reservedPrefix (g : Mgmt) (c : Chip) (w : Word) : Out :=
  match c.fetch g (c.t.pc + 2) with
  | (.instr _ v, c) => c.illegalRepeat g (w.setWidth 64) v
  | (.reserved v, c) => c.illegalRepeat g (w.setWidth 64) v
  | (.fails cause info, c) => c.raise g cause (c.t.pc + 2) info
  | (.absent page, c) => c.absentStop g page (c.t.pc + 2) (accessInfo .fetch 0)
  | (.held, c) => c.hold

/-- A fetch that gives no instruction: its stop (R25, R53, R90). A return to an instruction that is no repeat prefix clears
REPC.ACT, whether it is reserved or its fetch stops (R52). -/
def Chip.fetchStop (g : Mgmt) (c : Chip) (f : Fetched) : Out :=
  let elsewhere : Chip := { c with t := if c.t.returned then c.t.clearAct else c.t }
  match f with
  | .instr _ _ => .next c
  | .reserved w => if prefixForm w then c.reservedPrefix g w else elsewhere.illegal g (w.setWidth 64)
  | .fails cause info => elsewhere.raise g cause c.t.pc info
  | .absent page => elsewhere.absentStop g page c.t.pc (accessInfo .fetch 0)
  | .held => c.hold

/-- A thread that is to stop before its first instruction after a return keeps REPC.ACT only where it stands at a repeat prefix
(R52). -/
def Chip.atReturn (g : Mgmt) (c : Chip) : Chip :=
  if !c.t.returned then c
  else match c.fetch g c.t.pc with
    | (.instr (.rep _ _ _ _) _, _) => c
    | _ => { c with t := c.t.clearAct }

/-! ## The stepped fields of a repeated instruction (R50, R51) -/

/-- A register field of a file of `limit` registers, stepped k times if its bit is set. -/
def stepField {n : Nat} (on : Bool) (limit : Nat) (r : BitVec n) (k : Nat) : Option (BitVec n) :=
  if on then (if r.toNat + k < limit then some (r + BitVec.ofNat n k) else none) else some r

/-- A field that may not be stepped: no register field, or a pair field. -/
def noField (on : Bool) : Option Unit := if on then none else some ()

/-- Repeat k of an instruction with step bits d, a and b; none where R51 reserves the prefix on account of its
fields. -/
def stepped (i : Instr) (d a b : Bool) (k : Nat) : Option Instr :=
  match i with
  | .add rd ra rb => do let rd ← stepField d 32 rd k; let ra ← stepField a 32 ra k; let rb ← stepField b 32 rb k; some (.add rd ra rb)
  | .sub rd ra rb => do let rd ← stepField d 32 rd k; let ra ← stepField a 32 ra k; let rb ← stepField b 32 rb k; some (.sub rd ra rb)
  | .and rd ra rb => do let rd ← stepField d 32 rd k; let ra ← stepField a 32 ra k; let rb ← stepField b 32 rb k; some (.and rd ra rb)
  | .or rd ra rb => do let rd ← stepField d 32 rd k; let ra ← stepField a 32 ra k; let rb ← stepField b 32 rb k; some (.or rd ra rb)
  | .xor rd ra rb => do let rd ← stepField d 32 rd k; let ra ← stepField a 32 ra k; let rb ← stepField b 32 rb k; some (.xor rd ra rb)
  | .shl rd ra rb => do let rd ← stepField d 32 rd k; let ra ← stepField a 32 ra k; let rb ← stepField b 32 rb k; some (.shl rd ra rb)
  | .shr rd ra rb => do let rd ← stepField d 32 rd k; let ra ← stepField a 32 ra k; let rb ← stepField b 32 rb k; some (.shr rd ra rb)
  | .sra rd ra rb => do let rd ← stepField d 32 rd k; let ra ← stepField a 32 ra k; let rb ← stepField b 32 rb k; some (.sra rd ra rb)
  | .mul rd ra rb => do let rd ← stepField d 32 rd k; let ra ← stepField a 32 ra k; let rb ← stepField b 32 rb k; some (.mul rd ra rb)
  | .mulh rd ra rb => do let rd ← stepField d 32 rd k; let ra ← stepField a 32 ra k; let rb ← stepField b 32 rb k; some (.mulh rd ra rb)
  | .div rd ra rb => do let rd ← stepField d 32 rd k; let ra ← stepField a 32 ra k; let rb ← stepField b 32 rb k; some (.div rd ra rb)
  | .divu rd ra rb => do let rd ← stepField d 32 rd k; let ra ← stepField a 32 ra k; let rb ← stepField b 32 rb k; some (.divu rd ra rb)
  | .rem rd ra rb => do let rd ← stepField d 32 rd k; let ra ← stepField a 32 ra k; let rb ← stepField b 32 rb k; some (.rem rd ra rb)
  | .remu rd ra rb => do let rd ← stepField d 32 rd k; let ra ← stepField a 32 ra k; let rb ← stepField b 32 rb k; some (.remu rd ra rb)
  | .min rd ra rb => do let rd ← stepField d 32 rd k; let ra ← stepField a 32 ra k; let rb ← stepField b 32 rb k; some (.min rd ra rb)
  | .max rd ra rb => do let rd ← stepField d 32 rd k; let ra ← stepField a 32 ra k; let rb ← stepField b 32 rb k; some (.max rd ra rb)
  | .clz rd ra => do let rd ← stepField d 32 rd k; let ra ← stepField a 32 ra k; noField b; some (.clz rd ra)
  | .ctz rd ra => do let rd ← stepField d 32 rd k; let ra ← stepField a 32 ra k; noField b; some (.ctz rd ra)
  | .popc rd ra => do let rd ← stepField d 32 rd k; let ra ← stepField a 32 ra k; noField b; some (.popc rd ra)
  | .bext rd ra rb => do let rd ← stepField d 32 rd k; let ra ← stepField a 32 ra k; let rb ← stepField b 32 rb k; some (.bext rd ra rb)
  | .bins rd ra rb => do let rd ← stepField d 32 rd k; let ra ← stepField a 32 ra k; let rb ← stepField b 32 rb k; some (.bins rd ra rb)
  | .slt rd ra rb => do let rd ← stepField d 32 rd k; let ra ← stepField a 32 ra k; let rb ← stepField b 32 rb k; some (.slt rd ra rb)
  | .sltu rd ra rb => do let rd ← stepField d 32 rd k; let ra ← stepField a 32 ra k; let rb ← stepField b 32 rb k; some (.sltu rd ra rb)
  | .seq rd ra rb => do let rd ← stepField d 32 rd k; let ra ← stepField a 32 ra k; let rb ← stepField b 32 rb k; some (.seq rd ra rb)
  | .sel rd ra rb => do let rd ← stepField d 32 rd k; let ra ← stepField a 32 ra k; let rb ← stepField b 32 rb k; some (.sel rd ra rb)
  | .mov rd ra => do let rd ← stepField d 32 rd k; let ra ← stepField a 32 ra k; noField b; some (.mov rd ra)
  | .addi rd ra imm => do let rd ← stepField d 32 rd k; let ra ← stepField a 32 ra k; noField b; some (.addi rd ra imm)
  | .andi rd ra imm => do let rd ← stepField d 32 rd k; let ra ← stepField a 32 ra k; noField b; some (.andi rd ra imm)
  | .ori rd ra imm => do let rd ← stepField d 32 rd k; let ra ← stepField a 32 ra k; noField b; some (.ori rd ra imm)
  | .xori rd ra imm => do let rd ← stepField d 32 rd k; let ra ← stepField a 32 ra k; noField b; some (.xori rd ra imm)
  | .shli rd ra n => do let rd ← stepField d 32 rd k; let ra ← stepField a 32 ra k; noField b; some (.shli rd ra n)
  | .shri rd ra n => do let rd ← stepField d 32 rd k; let ra ← stepField a 32 ra k; noField b; some (.shri rd ra n)
  | .srai rd ra n => do let rd ← stepField d 32 rd k; let ra ← stepField a 32 ra k; noField b; some (.srai rd ra n)
  | .jalr _ _ _ => none
  | .li rd imm => do let rd ← stepField d 32 rd k; noField a; noField b; some (.li rd imm)
  | .lih rd imm => do let rd ← stepField d 32 rd k; noField a; noField b; some (.lih rd imm)
  | .lea rd imm => do let rd ← stepField d 32 rd k; noField a; noField b; some (.lea rd imm)
  | .vadd u s mk vd va vb => do let vd ← stepField d 16 vd k; let va ← stepField a 16 va k; let vb ← stepField b 16 vb k; some (.vadd u s mk vd va vb)
  | .vsub u s mk vd va vb => do let vd ← stepField d 16 vd k; let va ← stepField a 16 va k; let vb ← stepField b 16 vb k; some (.vsub u s mk vd va vb)
  | .vmul u s mk vd va vb => do let vd ← stepField d 16 vd k; let va ← stepField a 16 va k; let vb ← stepField b 16 vb k; some (.vmul u s mk vd va vb)
  | .vmulh u mk vd va vb => do let vd ← stepField d 16 vd k; let va ← stepField a 16 va k; let vb ← stepField b 16 vb k; some (.vmulh u mk vd va vb)
  | .vand mk vd va vb => do let vd ← stepField d 16 vd k; let va ← stepField a 16 va k; let vb ← stepField b 16 vb k; some (.vand mk vd va vb)
  | .vor mk vd va vb => do let vd ← stepField d 16 vd k; let va ← stepField a 16 va k; let vb ← stepField b 16 vb k; some (.vor mk vd va vb)
  | .vxor mk vd va vb => do let vd ← stepField d 16 vd k; let va ← stepField a 16 va k; let vb ← stepField b 16 vb k; some (.vxor mk vd va vb)
  | .vshl mk vd va vb => do let vd ← stepField d 16 vd k; let va ← stepField a 16 va k; let vb ← stepField b 16 vb k; some (.vshl mk vd va vb)
  | .vshr mk vd va vb => do let vd ← stepField d 16 vd k; let va ← stepField a 16 va k; let vb ← stepField b 16 vb k; some (.vshr mk vd va vb)
  | .vsra mk vd va vb => do let vd ← stepField d 16 vd k; let va ← stepField a 16 va k; let vb ← stepField b 16 vb k; some (.vsra mk vd va vb)
  | .vmin u mk vd va vb => do let vd ← stepField d 16 vd k; let va ← stepField a 16 va k; let vb ← stepField b 16 vb k; some (.vmin u mk vd va vb)
  | .vmax u mk vd va vb => do let vd ← stepField d 16 vd k; let va ← stepField a 16 va k; let vb ← stepField b 16 vb k; some (.vmax u mk vd va vb)
  | .vsel mk vd va vb => do let vd ← stepField d 16 vd k; let va ← stepField a 16 va k; let vb ← stepField b 16 vb k; some (.vsel mk vd va vb)
  | .vbcast mk vd xa => do let vd ← stepField d 16 vd k; let xa ← stepField a 32 xa k; noField b; some (.vbcast mk vd xa)
  | .vpopc mk vd va => do let vd ← stepField d 16 vd k; let va ← stepField a 16 va k; noField b; some (.vpopc mk vd va)
  | .vclz mk vd va => do let vd ← stepField d 16 vd k; let va ← stepField a 16 va k; noField b; some (.vclz mk vd va)
  | .vcmp u cc mk md va vb => do let md ← stepField d 8 md k; let va ← stepField a 16 va k; let vb ← stepField b 16 vb k; some (.vcmp u cc mk md va vb)
  | .vperm z mk vd va vb => do let vd ← stepField d 16 vd k; let va ← stepField a 16 va k; let vb ← stepField b 16 vb k; some (.vperm z mk vd va vb)
  | .vshuf z mk vd va xb => do let vd ← stepField d 16 vd k; noField a; let xb ← stepField b 32 xb k; some (.vshuf z mk vd va xb)
  | .vext z mk xd va xb => do let xd ← stepField d 32 xd k; let va ← stepField a 16 va k; let xb ← stepField b 32 xb k; some (.vext z mk xd va xb)
  | .vins mk vd xa xb => do let vd ← stepField d 16 vd k; let xa ← stepField a 32 xa k; let xb ← stepField b 32 xb k; some (.vins mk vd xa xb)
  | .vbext mk vd va vb => do let vd ← stepField d 16 vd k; noField a; let vb ← stepField b 16 vb k; some (.vbext mk vd va vb)
  | .vred u op mk xd va => do let xd ← stepField d 32 xd k; let va ← stepField a 16 va k; noField b; some (.vred u op mk xd va)
  | .mand md ma mb => do let md ← stepField d 8 md k; let ma ← stepField a 8 ma k; let mb ← stepField b 8 mb k; some (.mand md ma mb)
  | .mor md ma mb => do let md ← stepField d 8 md k; let ma ← stepField a 8 ma k; let mb ← stepField b 8 mb k; some (.mor md ma mb)
  | .mxor md ma mb => do let md ← stepField d 8 md k; let ma ← stepField a 8 ma k; let mb ← stepField b 8 mb k; some (.mxor md ma mb)
  | .mnot md ma => do let md ← stepField d 8 md k; let ma ← stepField a 8 ma k; noField b; some (.mnot md ma)
  | .mpop xd ma => do let xd ← stepField d 32 xd k; let ma ← stepField a 8 ma k; noField b; some (.mpop xd ma)
  | .mset md imm => do let md ← stepField d 8 md k; noField a; noField b; some (.mset md imm)
  | .vfcvt from_ rm sat fmt vd va => do let vd ← stepField d 16 vd k; let va ← stepField a 16 va k; noField b; some (.vfcvt from_ rm sat fmt vd va)
  | .vfadd mk vd va vb => do let vd ← stepField d 16 vd k; let va ← stepField a 16 va k; let vb ← stepField b 16 vb k; some (.vfadd mk vd va vb)
  | .vfsub mk vd va vb => do let vd ← stepField d 16 vd k; let va ← stepField a 16 va k; let vb ← stepField b 16 vb k; some (.vfsub mk vd va vb)
  | .vfmul mk vd va vb => do let vd ← stepField d 16 vd k; let va ← stepField a 16 va k; let vb ← stepField b 16 vb k; some (.vfmul mk vd va vb)
  | .vfma mk vd va vb => do let vd ← stepField d 16 vd k; let va ← stepField a 16 va k; let vb ← stepField b 16 vb k; some (.vfma mk vd va vb)
  | .vfmin mk vd va vb => do let vd ← stepField d 16 vd k; let va ← stepField a 16 va k; let vb ← stepField b 16 vb k; some (.vfmin mk vd va vb)
  | .vfmax mk vd va vb => do let vd ← stepField d 16 vd k; let va ← stepField a 16 va k; let vb ← stepField b 16 vb k; some (.vfmax mk vd va vb)
  | .vfabs mk vd va => do let vd ← stepField d 16 vd k; let va ← stepField a 16 va k; noField b; some (.vfabs mk vd va)
  | .vfneg mk vd va => do let vd ← stepField d 16 vd k; let va ← stepField a 16 va k; noField b; some (.vfneg mk vd va)
  | .vfcmp cc mk md va vb => do let md ← stepField d 8 md k; let va ← stepField a 16 va k; let vb ← stepField b 16 vb k; some (.vfcmp cc mk md va vb)
  | .vfred op mk xd va => do let xd ← stepField d 32 xd k; let va ← stepField a 16 va k; noField b; some (.vfred op mk xd va)
  | .vexp mk vd va => do let vd ← stepField d 16 vd k; let va ← stepField a 16 va k; noField b; some (.vexp mk vd va)
  | .vexpd mk vd va vb => do let vd ← stepField d 16 vd k; let va ← stepField a 16 va k; let vb ← stepField b 16 vb k; some (.vexpd mk vd va vb)
  | .vlog2 mk vd va => do let vd ← stepField d 16 vd k; let va ← stepField a 16 va k; noField b; some (.vlog2 mk vd va)
  | .vrcp er mk vd va => do let vd ← stepField d 16 vd k; let va ← stepField a 16 va k; noField b; some (.vrcp er mk vd va)
  | .vrsqrt mk vd va => do let vd ← stepField d 16 vd k; let va ← stepField a 16 va k; noField b; some (.vrsqrt mk vd va)
  | .vhare mk vd xa xb => do let vd ← stepField d 16 vd k; noField a; let xb ← stepField b 32 xb k; some (.vhare mk vd xa xb)
  | .vld la off mk vd xb => do let vd ← stepField d 16 vd k; let xb ← stepField a 32 xb k; noField b; some (.vld la off mk vd xb)
  | .vst la off mk vd xb => do let vd ← stepField d 16 vd k; let xb ← stepField a 32 xb k; noField b; some (.vst la off mk vd xb)
  | .vldc la g mk vd xb => do let vd ← stepField d 16 vd k; let xb ← stepField a 32 xb k; noField b; some (.vldc la g mk vd xb)
  | .vstc la g mk vd xb => do let vd ← stepField d 16 vd k; let xb ← stepField a 32 xb k; noField b; some (.vstc la g mk vd xb)
  | .resld la slot xa => do noField d; let xa ← stepField a 32 xa k; noField b; some (.resld la slot xa)
  | .resldSparse la pat slot xa => do noField d; let xa ← stepField a 32 xa k; noField b; some (.resldSparse la pat slot xa)
  | .cbld la xa => do noField d; let xa ← stepField a 32 xa k; noField b; some (.cbld la xa)
  | .tzero la int32 acc => do noField d; noField a; noField b; some (.tzero la int32 acc)
  | .tload la int32 acc xa => do noField d; let xa ← stepField a 32 xa k; noField b; some (.tload la int32 acc xa)
  | .tcov la xd acc => do let xd ← stepField d 32 xd k; noField a; noField b; some (.tcov la xd acc)
  | .tstat la xd acc => do let xd ← stepField d 32 xd k; noField a; noField b; some (.tstat la xd acc)
  | .tmov la accd accs => do noField d; noField a; noField b; some (.tmov la accd accs)
  | .tdrain la sat rm fmt acc xd xb => do let xd ← stepField d 32 xd k; noField a; noField b; some (.tdrain la sat rm fmt acc xd xb)
  | .fship la op xp xd xb => do let xd ← stepField d 32 xd k; let xb ← stepField a 32 xb k; noField b; some (.fship la op xp xd xb)
  | .cpy la xd xa xb => do let xd ← stepField d 32 xd k; noField a; let xb ← stepField b 32 xb k; some (.cpy la xd xa xb)
  | .cpy2 la xd xa xb => do let xd ← stepField d 32 xd k; noField a; noField b; some (.cpy2 la xd xa xb)
  | .gath la xd xa xb => do let xd ← stepField d 32 xd k; noField a; noField b; some (.gath la xd xa xb)
  | .scat la xd xa xb => do let xd ← stepField d 32 xd k; noField a; noField b; some (.scat la xd xa xb)
  | .pub la xd xa xb => do let xd ← stepField d 32 xd k; let xa ← stepField a 32 xa k; let xb ← stepField b 32 xb k; some (.pub la xd xa xb)
  | .wptr la xd xa xb => do let xd ← stepField d 32 xd k; let xa ← stepField a 32 xa k; let xb ← stepField b 32 xb k; some (.wptr la xd xa xb)
  | .jwait la xd xa => do let xd ← stepField d 32 xd k; let xa ← stepField a 32 xa k; noField b; some (.jwait la xd xa)
  | .jpoll la xd xa => do let xd ← stepField d 32 xd k; let xa ← stepField a 32 xa k; noField b; some (.jpoll la xd xa)
  | .cut la xd xa => do let xd ← stepField d 32 xd k; let xa ← stepField a 32 xa k; noField b; some (.cut la xd xa)
  | .cocut la xd xa => do let xd ← stepField d 32 xd k; let xa ← stepField a 32 xa k; noField b; some (.cocut la xd xa)
  | .kvwalk la xd xa xb => do let xd ← stepField d 32 xd k; noField a; noField b; some (.kvwalk la xd xa xb)
  | .sqk la xd xa xb => do let xd ← stepField d 32 xd k; let xa ← stepField a 32 xa k; let xb ← stepField b 32 xb k; some (.sqk la xd xa xb)
  | .sqarm la xd xa xb => do let xd ← stepField d 32 xd k; noField a; let xb ← stepField b 32 xb k; some (.sqarm la xd xa xb)
  | .sqoff la xd => do let xd ← stepField d 32 xd k; noField a; noField b; some (.sqoff la xd)
  | .sqpf ya => do noField d; let ya ← stepField a 8 ya k; noField b; some (.sqpf ya)
  | .sqend => none
  | .ldwFf la order scope xd xb => do let xd ← stepField d 32 xd k; let xb ← stepField a 32 xb k; noField b; some (.ldwFf la order scope xd xb)
  | .ldwFe la order scope xd xb => do let xd ← stepField d 32 xd k; let xb ← stepField a 32 xb k; noField b; some (.ldwFe la order scope xd xb)
  | .ldwNw la order scope xd xb => do let xd ← stepField d 32 xd k; let xb ← stepField a 32 xb k; noField b; some (.ldwNw la order scope xd xb)
  | .stwEf la order scope xs xb => do let xs ← stepField d 32 xs k; let xb ← stepField a 32 xb k; noField b; some (.stwEf la order scope xs xb)
  | .stwF la order scope xs xb => do let xs ← stepField d 32 xs k; let xb ← stepField a 32 xb k; noField b; some (.stwF la order scope xs xb)
  | .purge la order scope xb => do noField d; let xb ← stepField a 32 xb k; noField b; some (.purge la order scope xb)
  | .mcst la xv xm xb => do let xv ← stepField d 32 xv k; let xb ← stepField a 32 xb k; let xm ← stepField b 32 xm k; some (.mcst la xv xm xb)
  | .pref la xb => do noField d; let xb ← stepField a 32 xb k; noField b; some (.pref la xb)
  | .amoAddW la xd xv xb => do let xd ← stepField d 32 xd k; let xb ← stepField a 32 xb k; let xv ← stepField b 32 xv k; some (.amoAddW la xd xv xb)
  | .amoAndW la xd xv xb => do let xd ← stepField d 32 xd k; let xb ← stepField a 32 xb k; let xv ← stepField b 32 xv k; some (.amoAndW la xd xv xb)
  | .amoOrW la xd xv xb => do let xd ← stepField d 32 xd k; let xb ← stepField a 32 xb k; let xv ← stepField b 32 xv k; some (.amoOrW la xd xv xb)
  | .amoXorW la xd xv xb => do let xd ← stepField d 32 xd k; let xb ← stepField a 32 xb k; let xv ← stepField b 32 xv k; some (.amoXorW la xd xv xb)
  | .amoMinW la xd xv xb => do let xd ← stepField d 32 xd k; let xb ← stepField a 32 xb k; let xv ← stepField b 32 xv k; some (.amoMinW la xd xv xb)
  | .amoMaxW la xd xv xb => do let xd ← stepField d 32 xd k; let xb ← stepField a 32 xb k; let xv ← stepField b 32 xv k; some (.amoMaxW la xd xv xb)
  | .amoSwapW la xd xv xb => do let xd ← stepField d 32 xd k; let xb ← stepField a 32 xb k; let xv ← stepField b 32 xv k; some (.amoSwapW la xd xv xb)
  | .cas la xd xn xb => do let xd ← stepField d 32 xd k; let xb ← stepField a 32 xb k; let xn ← stepField b 32 xn k; some (.cas la xd xn xb)
  | .amoAddD la xd xv xb => do let xd ← stepField d 32 xd k; let xb ← stepField a 32 xb k; let xv ← stepField b 32 xv k; some (.amoAddD la xd xv xb)
  | .amoAndD la xd xv xb => do let xd ← stepField d 32 xd k; let xb ← stepField a 32 xb k; let xv ← stepField b 32 xv k; some (.amoAndD la xd xv xb)
  | .amoOrD la xd xv xb => do let xd ← stepField d 32 xd k; let xb ← stepField a 32 xb k; let xv ← stepField b 32 xv k; some (.amoOrD la xd xv xb)
  | .amoXorD la xd xv xb => do let xd ← stepField d 32 xd k; let xb ← stepField a 32 xb k; let xv ← stepField b 32 xv k; some (.amoXorD la xd xv xb)
  | .amoMinD la xd xv xb => do let xd ← stepField d 32 xd k; let xb ← stepField a 32 xb k; let xv ← stepField b 32 xv k; some (.amoMinD la xd xv xb)
  | .amoMaxD la xd xv xb => do let xd ← stepField d 32 xd k; let xb ← stepField a 32 xb k; let xv ← stepField b 32 xv k; some (.amoMaxD la xd xv xb)
  | .amoSwapD la xd xv xb => do let xd ← stepField d 32 xd k; let xb ← stepField a 32 xb k; let xv ← stepField b 32 xv k; some (.amoSwapD la xd xv xb)
  | .cas128 la xd xn xb => do noField d; let xb ← stepField a 32 xb k; noField b; some (.cas128 la xd xn xb)
  | .ldl la xd xb => do let xd ← stepField d 32 xd k; let xb ← stepField a 32 xb k; noField b; some (.ldl la xd xb)
  | .stu la xd xv xb => do let xd ← stepField d 32 xd k; let xb ← stepField a 32 xb k; let xv ← stepField b 32 xv k; some (.stu la xd xv xb)
  | .spawn la xc xa xb => do let xc ← stepField d 32 xc k; let xa ← stepField a 32 xa k; let xb ← stepField b 32 xb k; some (.spawn la xc xa xb)
  | .join _ => none
  | .wfw => none
  | .disp la xd xa xb => do let xd ← stepField d 32 xd k; let xa ← stepField a 32 xa k; let xb ← stepField b 32 xb k; some (.disp la xd xa xb)
  | .depdec la xd xa => do let xd ← stepField d 32 xd k; let xa ← stepField a 32 xa k; noField b; some (.depdec la xd xa)
  | .yield => none
  | .gang _ => none
  | .ungang => none
  | .park _ _ _ => none
  | .wake la xd xk xr => do let xd ← stepField d 32 xd k; let xk ← stepField a 32 xk k; let xr ← stepField b 32 xr k; some (.wake la xd xk xr)
  | .pflush la xd xa xb => do let xd ← stepField d 32 xd k; let xa ← stepField a 32 xa k; let xb ← stepField b 32 xb k; some (.pflush la xd xa xb)
  | .csrr xd csr => do let xd ← stepField d 32 xd k; noField a; noField b; some (.csrr xd csr)
  | .csrw csr xa => do noField d; let xa ← stepField a 32 xa k; noField b; some (.csrw csr xa)
  | .csrset xd csr xa => do let xd ← stepField d 32 xd k; let xa ← stepField a 32 xa k; noField b; some (.csrset xd csr xa)
  | .csrclr xd csr xa => do let xd ← stepField d 32 xd k; let xa ← stepField a 32 xa k; noField b; some (.csrclr xd csr xa)
  | .trap _ => none
  | .eret => none
  | .halt => none
  | .ebrk => do noField d; noField a; noField b; some (.ebrk )
  | .ctxsave _ => none
  | .ctxrest _ => none
  | .tlbinv xa n => do noField d; let xa ← stepField a 32 xa k; noField b; some (.tlbinv xa n)
  | .idle _ => none
  | .phase scope => do noField d; noField a; noField b; some (.phase scope)
  | .fenceRel scope => do noField d; noField a; noField b; some (.fenceRel scope)
  | .fenceAcq scope => do noField d; noField a; noField b; some (.fenceAcq scope)
  | .bar scope id => do noField d; noField a; noField b; some (.bar scope id)
  | .bcnt scope id xa => do noField d; let xa ← stepField a 32 xa k; noField b; some (.bcnt scope id xa)
  | .fsload xd xa slot => do let xd ← stepField d 32 xd k; noField a; noField b; some (.fsload xd xa slot)
  | .ldB la off xd xb => do let xd ← stepField d 32 xd k; let xb ← stepField a 32 xb k; noField b; some (.ldB la off xd xb)
  | .ldH la off xd xb => do let xd ← stepField d 32 xd k; let xb ← stepField a 32 xb k; noField b; some (.ldH la off xd xb)
  | .ldW la off xd xb => do let xd ← stepField d 32 xd k; let xb ← stepField a 32 xb k; noField b; some (.ldW la off xd xb)
  | .ldD la off xd xb => do let xd ← stepField d 32 xd k; let xb ← stepField a 32 xb k; noField b; some (.ldD la off xd xb)
  | .stB la off xs xb => do let xs ← stepField d 32 xs k; let xb ← stepField a 32 xb k; noField b; some (.stB la off xs xb)
  | .stH la off xs xb => do let xs ← stepField d 32 xs k; let xb ← stepField a 32 xb k; noField b; some (.stH la off xs xb)
  | .stW la off xs xb => do let xs ← stepField d 32 xs k; let xb ← stepField a 32 xb k; noField b; some (.stW la off xs xb)
  | .stD la off xs xb => do let xs ← stepField d 32 xs k; let xb ← stepField a 32 xb k; noField b; some (.stD la off xs xb)
  | .cld la form fold ord slot acc xd xb xs => do let xd ← stepField d 32 xd k; let xb ← stepField a 32 xb k; noField b; some (.cld la form fold ord slot acc xd xb xs)
  | .beq _ _ _ => none
  | .bne _ _ _ => none
  | .blt _ _ _ => none
  | .bge _ _ _ => none
  | .bltu _ _ _ => none
  | .bgeu _ _ _ => none
  | .jal _ _ => none
  | .loop _ _ => none
  | .loopm _ _ _ => none
  | .rep _ _ _ _ => none
  | .vor16 mk vd va => if d = a then do let vd ← stepField d 16 vd k; let va ← stepField b 16 va k; some (.vor16 mk vd va) else none
  | .vadd16 mk vd va => if d = a then do let vd ← stepField d 16 vd k; let va ← stepField b 16 va k; some (.vadd16 mk vd va) else none
  | .vsub16 mk vd va => if d = a then do let vd ← stepField d 16 vd k; let va ← stepField b 16 va k; some (.vsub16 mk vd va) else none
  | .vmul16 mk vd va => if d = a then do let vd ← stepField d 16 vd k; let va ← stepField b 16 va k; some (.vmul16 mk vd va) else none
  | .vand16 mk vd va => if d = a then do let vd ← stepField d 16 vd k; let va ← stepField b 16 va k; some (.vand16 mk vd va) else none
  | .vxor16 mk vd va => if d = a then do let vd ← stepField d 16 vd k; let va ← stepField b 16 va k; some (.vxor16 mk vd va) else none
  | .vshl16 mk vd va => if d = a then do let vd ← stepField d 16 vd k; let va ← stepField b 16 va k; some (.vshl16 mk vd va) else none
  | .vshr16 mk vd va => if d = a then do let vd ← stepField d 16 vd k; let va ← stepField b 16 va k; some (.vshr16 mk vd va) else none
  | .vsra16 mk vd va => if d = a then do let vd ← stepField d 16 vd k; let va ← stepField b 16 va k; some (.vsra16 mk vd va) else none
  | .vmin16 mk vd va => if d = a then do let vd ← stepField d 16 vd k; let va ← stepField b 16 va k; some (.vmin16 mk vd va) else none
  | .vmax16 mk vd va => if d = a then do let vd ← stepField d 16 vd k; let va ← stepField b 16 va k; some (.vmax16 mk vd va) else none
  | .vfadd16 mk vd va => if d = a then do let vd ← stepField d 16 vd k; let va ← stepField b 16 va k; some (.vfadd16 mk vd va) else none
  | .vfsub16 mk vd va => if d = a then do let vd ← stepField d 16 vd k; let va ← stepField b 16 va k; some (.vfsub16 mk vd va) else none
  | .vfmul16 mk vd va => if d = a then do let vd ← stepField d 16 vd k; let va ← stepField b 16 va k; some (.vfmul16 mk vd va) else none
  | .vfmin16 mk vd va => if d = a then do let vd ← stepField d 16 vd k; let va ← stepField b 16 va k; some (.vfmin16 mk vd va) else none
  | .vfmax16 mk vd va => if d = a then do let vd ← stepField d 16 vd k; let va ← stepField b 16 va k; some (.vfmax16 mk vd va) else none
  | .windowEndWrite _ => none
  | .badgerRoutineRun _ _ _ _ => none
  | .cellRebuild _ _ => none
  | .softError _ _ => none
  | .pageZero _ _ => none
  | .deferredReport _ => none
  | .preemption _ _ => none
  | .launchQueueRead _ _ => none
  | .launchTaskPlace _ _ _ => none
  | .takeWork _ _ => none
  | .hintWalkHop _ => none
  | .taskEnd _ => none
  | .completionTokenWrite _ => none
  | .copyJobStart _ _ => none
  | .copyJobWordWrite _ _ _ => none
  | .shadowFrameReturn _ _ => none
  | .pubSwap _ _ => none
  | .cutJobRun _ _ => none
  | .kvwalkWordWrite _ _ => none
  | .kvwalkHeaderPrefetch _ _ => none
  | .cldJobStart _ _ => none
  | .cldCellAdd _ _ _ => none
  | .squirrelRun _ _ => none
  | .hoardFill _ _ => none
  | .hoardDrop _ _ => none
  | .denDemoteTier1 _ => none
  | .denDemoteFlash _ => none
  | .wakeWrite _ _ => none
  | .denStage1Frame _ => none
  | .pagePromotionDone _ => none
  | .hostApertureRead _ _ _ => none
  | .hostApertureWrite _ _ _ _ _ => none
  | .fabricRequest _ _ _ _ _ => none
  | .remoteFail _ => none
  | .ucieLinkFail _ _ => none
  | .powerUp => none
  | .mainSideReset => none
  | .bootgoWrite _ => none
  | .bootVerifyDone => none
  | .modidWrite _ => none
  | .fabenWrite _ => none
  | .doorbellWrite _ => none
  | .fwtmrWrite _ _ => none
  | .fwtmrExpire _ => none
  | .owlClear _ => none
  | .owlLevelSample _ => none
  | .registerWrite _ _ => none
  | .spdmGetVersion => none
  | .spdmGetCapabilities => none
  | .spdmNegotiateAlgorithms => none
  | .spdmGetDigests => none
  | .spdmGetCertificate => none
  | .spdmChallenge => none
  | .spdmGetMeasurements => none
  | .mgmtReadRegister _ => none
  | .mgmtWriteOwlctl _ _ => none
  | .mgmtWritePwrlim _ => none
  | .mgmtAssertReset => none
  | .mainSidePowerLoss => none
  | .bootStagingBufferWrite _ _ => none

/-- An instruction of Squirrel kernels alone: reserved elsewhere (R37). -/
def kernelOnly : Instr → Bool
  | .sqpf _ => true
  | .sqend => true
  | _ => false

/-- The instructions that a repeat prefix may govern in a task's code: not those that `stepped` refuses with no step bit at
all, nor those of kernels alone (R37, R51). -/
def repeatable (i : Instr) : Bool := !kernelOnly i && (stepped i false false false 0).isSome

/-- Every repeat of an instruction under step bits is an instruction (R51). -/
def repeatFields (i : Instr) (d a b : Bool) (n : Nat) : Bool :=
  (d || a || b) && (List.range n).all fun k =>
    match stepped i d a b k with
    | some j => j.wf
    | none => false

/-- A repeat prefix with n repeats and step bits is not reserved before instruction i of a task's code (R51). -/
def repeatAllowed (i : Instr) (d a b : Bool) (n : Nat) : Bool := repeatable i && repeatFields i d a b n

end Sys2Proof.Machine
end

