-- ==== Sys2Proof/Machine/Operands.lean ====
section
/-! DEFINITION. Operand forms (R27, R43, R120, R184, R185, R193) and the integer arithmetic of registers and lanes
(R182 to R192), shared by threads, Squirrel kernels and Badger routines. -/

namespace Sys2Proof.Machine

/-! ## Immediates and addresses -/

/-- A signed immediate of a scalar instruction (R27, R185). -/
def immediate {n : Nat} (imm : BitVec n) : Dword := imm.signExtend 64
/-- The effective address of class M (R120). -/
def addrM (base : Dword) (off : BitVec 12) : Dword := base + off.signExtend 64
/-- The effective address of a vector access: 32-byte steps (R193). -/
def addrV (base : Dword) (off : BitVec 5) : Dword := base + (off.signExtend 64 <<< 5)
/-- The target of a branch: 2·off17 from the branch's own address (R32). -/
def branchTarget (pc : Dword) (off : BitVec 17) : Dword := pc + (off.signExtend 64 <<< 1)
/-- The end of a loop body of a length in halfwords (R270). -/
def loopEnd (start : Dword) (len : BitVec 17) : Dword := start + (len.setWidth 64 <<< 1)
/-- The address of a loopm count word: off/4 in four signed bits (R32). -/
def addrLoopm (base : Dword) (off : BitVec 4) : Dword := base + (off.signExtend 64 <<< 2)
/-- An address is a multiple of n. -/
def alignedTo (a : Dword) (n : Nat) : Bool := decide (a.toNat % n = 0)

/-! ## Scalar arithmetic (R182 to R185) -/

/-- Ones in the low w bits. -/
def lowMask (n w : Nat) : BitVec n := BitVec.ofNat n (2 ^ w - 1)

/-- Set bits among the low n bits. -/
def popcount {w : Nat} (a : BitVec w) : Nat → Nat
  | 0 => 0
  | n + 1 => (if a.getLsbD n then 1 else 0) + popcount a n
/-- Zeros above the highest set bit among the low n bits. -/
def leadingZeros {w : Nat} (a : BitVec w) : Nat → Nat
  | 0 => 0
  | n + 1 => if a.getLsbD n then 0 else 1 + leadingZeros a n
/-- Zeros below the lowest set bit, from bit k on, of n bits. -/
def trailingZeros {w : Nat} (a : BitVec w) (k : Nat) : Nat → Nat
  | 0 => 0
  | n + 1 => if a.getLsbD k then 0 else 1 + trailingZeros a (k + 1) n

def mulHigh (a b : Dword) : Dword := (a.signExtend 128 * b.signExtend 128).extractLsb' 64 64
def minS {n : Nat} (a b : BitVec n) : BitVec n := if b.slt a then b else a
def maxS {n : Nat} (a b : BitVec n) : BitVec n := if a.slt b then b else a
def minU {n : Nat} (a b : BitVec n) : BitVec n := if b.ult a then b else a
def maxU {n : Nat} (a b : BitVec n) : BitVec n := if a.ult b then b else a
def ofBoolX (b : Bool) : Dword := if b then 1 else 0

/-- The position and the width of a field specification (R184). -/
def fieldPos (b : Dword) : Nat := (b.extractLsb' 0 6).toNat
def fieldWidth (b : Dword) : Nat := (b.extractLsb' 6 6).toNat + 1
/-- bext (R184). -/
def extractField (a b : Dword) : Dword := (a >>> fieldPos b) &&& lowMask 64 (fieldWidth b)
/-- bins (R184). -/
def insertField (old a b : Dword) : Dword :=
  let mask := lowMask 64 (fieldWidth b) <<< fieldPos b
  (old &&& ~~~mask) ||| ((a <<< fieldPos b) &&& mask)

/-- The shift amount of a register operand: its low six bits (R182). -/
def shiftOf (b : Dword) : Nat := (b.extractLsb' 0 6).toNat

/-- lih: bits 31:17 replaced, bits 16:0 kept, sign-extended from bit 31 (R185). -/
def loadHigh (old : Dword) (imm : BitVec 15) : Dword := (imm ++ old.extractLsb' 0 17).signExtend 64

/-! ## Lane arithmetic (R187) -/

/-- A value clamped to a range (R187). -/
def clampInt (v lo hi : Int) : Int := if v < lo then lo else if hi < v then hi else v
/-- A 32-bit result clamped signed, or unsigned. -/
def saturate (u : Bool) (v : Int) : Word :=
  if u then BitVec.ofInt 32 (clampInt v 0 (2 ^ 32 - 1)) else BitVec.ofInt 32 (clampInt v (-(2 ^ 31)) (2 ^ 31 - 1))
/-- A lane as an integer, signed or unsigned. -/
def laneInt (u : Bool) (a : Word) : Int := if u then (a.toNat : Int) else a.toInt

/-- vadd, vsub and vmul: wrapping, or saturating where s (R187). -/
def laneArith (op : Int → Int → Int) (u s : Bool) (a b : Word) : Word :=
  if s then saturate u (op (laneInt u a) (laneInt u b)) else BitVec.ofInt 32 (op a.toInt b.toInt)

def laneMulHigh (u : Bool) (a b : Word) : Word :=
  if u then (a.setWidth 64 * b.setWidth 64).extractLsb' 32 32 else (a.signExtend 64 * b.signExtend 64).extractLsb' 32 32
def laneMin (u : Bool) (a b : Word) : Word := if u then minU a b else minS a b
def laneMax (u : Bool) (a b : Word) : Word := if u then maxU a b else maxS a b
/-- A lane's shift amount: its low five bits (R187). -/
def laneShift (b : Word) : Nat := (b.extractLsb' 0 5).toNat

/-- A lane operation on two registers. -/
def mapLanes (f : Word → Word → Word) (a b : Lanes Word) : Lanes Word := Lanes.of fun i => f (a.get i) (b.get i)

/-- A comparison of lanes by its code: eq, ne, lt, ge (R43, R188). -/
def laneCompare (cc : BitVec 2) (u : Bool) (a b : Word) : Bool :=
  match cc with
  | 0#2 => decide (a = b)
  | 1#2 => decide (a ≠ b)
  | 2#2 => if u then a.ult b else a.slt b
  | 3#2 => if u then !a.ult b else !a.slt b
/-- Eight bits from a function of the lane. -/
def maskOf (f : BitVec 3 → Bool) : Byte :=
  BitVec.ofBool (f 7) ++ BitVec.ofBool (f 6) ++ BitVec.ofBool (f 5) ++ BitVec.ofBool (f 4) ++ BitVec.ofBool (f 3) ++
    BitVec.ofBool (f 2) ++ BitVec.ofBool (f 1) ++ BitVec.ofBool (f 0)

/-- A mask holds lane i. -/
def active (m : Byte) (i : BitVec 3) : Bool := m.getLsbD i.toNat

/-- The source lanes that active lanes read and that are inactive (R190). -/
def inactiveReads (m : Byte) (index : BitVec 3 → BitVec 3) : Byte :=
  maskOf fun j => !active m j && lanes8.any fun i => active m i && decide (index i = j)

/-- vbext of one lane: pos = f[4:0], w = f[9:5] + 1, from the pair high :: low (R191). -/
def laneField (low high f : Word) : Word :=
  (((high ++ low) >>> (f.extractLsb' 0 5).toNat).extractLsb' 0 32) &&& lowMask 32 ((f.extractLsb' 5 5).toNat + 1)

/-- The active lanes in order. -/
def activeLanes (m : Byte) (a : Lanes Word) : List Word := (lanes8.filter (active m)).map a.get

/-- vred by its op: add, min, max, and, or, xor (R192). -/
def reduceLanes (op : BitVec 3) (u : Bool) (l : List Word) : Dword :=
  let ext (w : Word) : Dword := if u then w.setWidth 64 else w.signExtend 64
  match op with
  | 0#3 => l.foldl (fun acc w => acc + w.signExtend 64) 0
  | 1#3 => ext (l.foldl (laneMin u) (if u then 0xFFFFFFFF else 0x7FFFFFFF))
  | 2#3 => ext (l.foldl (laneMax u) (if u then 0 else 0x80000000))
  | 3#3 => (l.foldl (· &&& ·) 0xFFFFFFFF).setWidth 64
  | 4#3 => (l.foldl (· ||| ·) 0).setWidth 64
  | _ => (l.foldl (· ^^^ ·) 0).setWidth 64

/-! ## Atomics (R129) -/

def amoApply {n : Nat} (op : AmoOp) (old v : BitVec n) : BitVec n :=
  match op with
  | .add => old + v
  | .and => old &&& v
  | .or => old ||| v
  | .xor => old ^^^ v
  | .min => minS old v
  | .max => maxS old v
  | .swap => v

/-! ## The completion of an instruction of the acting thread -/

/-- An event that may start a run of an armed kernel (R157). -/
def Chip.trigger (c : Chip) (trig : BitVec 2) (tid : TId) (y1 : Dword) : Chip :=
  match (c.thread tid).squirrel.armed with
  | some k => if k.trig = trig then { c with triggers := c.triggers ++ [(tid, y1)] } else c
  | none => c

/-- An answer taken further. -/
def andThen (o : Out) (f : Chip → Out) : Out :=
  match o with
  | .next c => f c
  | .fault e => .fault e
  | .refused r => .refused r

/-- Every window of the acting thread ends, as at the end of a task (R45), and the due writes are made. -/
def Thread.endWindows (t : Thread) : Thread :=
  { t with pend := t.pend.map fun (p : Pending) => { p with rem := 0 } }.settleWindows

/-- Control reaches the end link: the task ends, or the handler halts its task (R244, R245, R305). Windows end there
(R45); a handler waits for their results, with the end link as its program counter, before it halts its task (R46,
R310). -/
def Chip.reachEnd (g : Mgmt) (c : Chip) : Out :=
  if c.t.handler.isSome then
    let t := c.t.endWindows
    if t.pend.isEmpty then ({ c with t := t } : Chip).haltTask g else .next { c with t := t }
  else
    let c := c.disband c.tid
    .next { c with t := { c.t.endWindows with run := .wait .taskEnd } }

/-- Writes of a job that its task collects count as its stores made now: they follow its latest release, for those also that have
read one of them before (R155, R281, R288). -/
def Chip.authored (c : Chip) (wrote : View) (rel : Option Nat) : Chip :=
  if wrote.isEmpty then c
  else { c with
    hist := c.hist.map fun h => { h with
      versions := h.versions.map fun v => if wrote.contains (h.loc, v.id) then { v with authorRel := rel } else v }
    agents := c.agents.map fun a =>
      if a.reads.any wrote.contains then { a with ahead := addNew a.ahead rel.toList } else a }

/-- The snapshots that written results begin are made (R153, R155, R170). -/
def Chip.takeSnaps (c : Chip) : Chip :=
  if c.t.snaps.isEmpty then c
  else
    c.t.snaps.foldl (fun (c : Chip) k =>
      let r := c.agent c.t.agentId
      let c := c.setAgent
        { r with view := r.view.join k.view, mine := r.mine.join k.view, reads := r.reads.join k.reads }
      let c := c.authored k.view r.lastRel
      let csr := c.t.csr
      let c := if k.missed then { c with t := { c.t with csr := { csr with cutctl := csr.cutctl ||| 2 } } } else c
      c.acquireT 5 []) { c with t := { c.t with snaps := [] } }

/-- The acting thread's instruction completes, with its own pending entry if it has one, and control goes to succ
(R46, R244, R271). -/
def Chip.finish (g : Mgmt) (c : Chip) (own : Option Pending) (succ : Dword) (taken : Bool) : Out :=
  let back := c.t.madeBackEdge succ
  let t := c.t.complete own succ taken
  let c' := { c with t := t }.takeSnaps
  if t.pc = endLink then c'.reachEnd g
  else if back then .next (c'.trigger 2 c.tid (match t.loops with | e :: _ => e.count.setWidth 64 | [] => 0))
  else .next c'

/-- The next instruction after one of n bytes. -/
def Chip.next (g : Mgmt) (c : Chip) (n : Dword) : Out := c.finish g none (c.t.pc + n) false

/-- A 32-bit instruction that writes an x register. -/
def Chip.putX (g : Mgmt) (c : Chip) (rd : Reg) (v : Dword) : Out := Chip.next g { c with t := c.t.setX rd v } 4

/-- An instruction of n bytes that writes the active lanes of a v register, with the fallback it met (R56, R186). -/
def Chip.putV (g : Mgmt) (c : Chip) (n : Dword) (vd : Reg) (m : Byte) (l : Lanes Word) (code : Byte) : Out :=
  Chip.next g { c with t := (c.t.setV vd m l).warn code c.t.pc } n

/-- An instruction that writes a mask. -/
def Chip.putM (g : Mgmt) (c : Chip) (md : BitVec 3) (v : Byte) (code : Byte) : Out :=
  Chip.next g { c with t := (c.t.setM md v).warn code c.t.pc } 4

end Sys2Proof.Machine
end

