-- ==== Sys2Proof/Machine/Flags.lean ====
section
/-! DEFINITION. Number formats (R99 to R110), the Hare (R215, R216), rounding (R111, R112) and conversion into a format
with the flags it sets (R113). -/

namespace Sys2Proof.Machine

/-! ## The Hare (R215, R216) -/

def hareRound (i : Nat) : Word × Nat :=
  [(0x5A8371C4#32, 9), (0x2F9E0B67#32, 14), (0xC14D3A92#32, 6), (0x78B2E5D1#32, 21), (0x0E669F3B#32, 11),
    (0xB3D84A05#32, 3)].getD i (0, 0)

/-- The four state words after rounds i to i + n − 1 (R215). -/
def hareRounds (key : Dword) : Nat → Nat → Word × Word × Word × Word → Word × Word × Word × Word
  | 0, _, s => s
  | n + 1, i, (s0, s1, s2, s3) =>
    let (rc, rot) := hareRound i
    let a := s0 * 0xB7E43D59#32
    let b := s2 * 0xD62FA8C3#32
    let k0 := key.extractLsb' 0 32 ^^^ rc
    let k1 := key.extractLsb' 32 32 + rc
    let t1 := s1 ^^^ a.rotateLeft rot ^^^ k0
    let t3 := s3 + b.rotateLeft rot + k1
    hareRounds key n (i + 1) (t1, b, t3, a)

/-- Word `which` of Hare(key, stream, counter) (R215). -/
def hare (key : Dword) (stream : Word) (counter : Dword) (which : BitVec 2) : Word :=
  let (s0, s1, s2, s3) :=
    hareRounds key 6 0 (counter.extractLsb' 0 32, counter.extractLsb' 32 32, stream, 0x6C3F1E95#32)
  match which with
  | 0#2 => s0
  | 1#2 => s1
  | 2#2 => s2
  | 3#2 => s3

/-! ## Formats (R99, R104, R106) -/

/-- The element formats. -/
inductive Format where
  | fp32 | bf16 | fp16 | e4m3 | e5m2 | e2m1 | int8 | int4 | int32
  deriving DecidableEq, Repr

/-- An FMT4 code (R28). -/
def formatOf4 (f : BitVec 4) : Format :=
  match f with
  | 0#4 => .fp32
  | 1#4 => .bf16
  | 2#4 => .fp16
  | 3#4 => .e4m3
  | 4#4 => .e5m2
  | 5#4 => .e2m1
  | 6#4 => .int8
  | 7#4 => .int4
  | _ => .int32

/-- A cell's format code (R99); plain, LAT8 and the bitmap-packed codes are not among the single-element formats. -/
def formatOfCell (f : Byte) : Option Format :=
  match f with
  | 0x10#8 => some .fp32
  | 0x11#8 => some .bf16
  | 0x12#8 => some .fp16
  | 0x13#8 => some .int32
  | 0x20#8 => some .e4m3
  | 0x21#8 => some .e5m2
  | 0x22#8 => some .int8
  | 0x30#8 => some .e2m1
  | 0x31#8 => some .int4
  | _ => none

/-- The cell code of a format (R99). -/
def Format.cell : Format → Byte
  | .fp32 => 0x10
  | .bf16 => 0x11
  | .fp16 => 0x12
  | .int32 => 0x13
  | .e4m3 => 0x20
  | .e5m2 => 0x21
  | .int8 => 0x22
  | .e2m1 => 0x30
  | .int4 => 0x31

/-- The width of an element in bits. -/
def Format.width : Format → Nat
  | .fp32 => 32
  | .int32 => 32
  | .bf16 => 16
  | .fp16 => 16
  | .e4m3 => 8
  | .e5m2 => 8
  | .int8 => 8
  | .e2m1 => 4
  | .int4 => 4

def Format.isInt : Format → Bool
  | .int8 => true
  | .int4 => true
  | .int32 => true
  | _ => false

/-- The mantissa width and the bias (R104). -/
def Format.mant : Format → Nat
  | .fp32 => 23
  | .bf16 => 7
  | .fp16 => 10
  | .e5m2 => 2
  | .e4m3 => 3
  | .e2m1 => 1
  | _ => 0
def Format.bias : Format → Nat
  | .fp32 => 127
  | .bf16 => 127
  | .fp16 => 15
  | .e5m2 => 15
  | .e4m3 => 7
  | .e2m1 => 1
  | _ => 0
/-- The encoding of the largest finite value (R104). -/
def Format.maxCode : Format → Nat
  | .fp32 => 0x7F7FFFFF
  | .bf16 => 0x7F7F
  | .fp16 => 0x7BFF
  | .e5m2 => 0x7B
  | .e4m3 => 0x7E
  | .e2m1 => 0x7
  | _ => 0
/-- The canonical NaN (R105); E2M1 and the integers have none. -/
def Format.nan : Format → Nat
  | .fp32 => 0x7FC00000
  | .bf16 => 0x7FC0
  | .fp16 => 0x7E00
  | .e5m2 => 0x7E
  | .e4m3 => 0x7F
  | _ => 0
/-- The encoding of +∞, where the format has infinities (R105). -/
def Format.infinity : Format → Option Nat
  | .fp32 => some 0x7F800000
  | .bf16 => some 0x7F80
  | .fp16 => some 0x7C00
  | .e5m2 => some 0x7C
  | _ => none

/-! ## Values -/

/-- A value: NaN, an infinity, or (−1)^neg · num · 2^exp; a zero keeps its sign (R103). -/
inductive Value where
  | nan
  | inf (neg : Bool)
  | fin (neg : Bool) (num : Nat) (exp : Int)
  deriving DecidableEq, Repr

def Value.zero (neg : Bool) : Value := .fin neg 0 0

/-- The value of an element's bits (R104, R106). -/
def decodeElement (f : Format) (bits : Nat) : Value :=
  if f.isInt then
    let w := f.width
    if bits < 2 ^ (w - 1) then .fin false bits 0 else .fin true (2 ^ w - bits) 0
  else
    let m := f.mant
    let neg := decide (2 ^ (f.width - 1) ≤ bits)
    let code := bits % 2 ^ (f.width - 1)
    if f.infinity = some code then .inf neg
    else if f.maxCode < code then .nan
    else
      let e := code / 2 ^ m
      let man := code % 2 ^ m
      if e = 0 then .fin neg man (1 - (f.bias : Int) - m)
      else .fin neg (2 ^ m + man) ((e : Int) - f.bias - m)

/-- An element times its cell's scale (R102, R103). -/
def scaled (scale : Byte) (v : Value) : Value :=
  if scale = 0xFF then .nan
  else match v with
    | .fin neg n e => if n = 0 then .zero neg else .fin neg n (e + scale.toNat - 127)
    | w => w

/-! ## Rounding (R111, R112) -/

/-- Rounding modes, coded as in R28. -/
inductive Rounding where
  | rne | rtz | rdn | rup
  /-- the word drawn (R112) -/
  | sr (word : Word)
  deriving DecidableEq, Repr

/-- Bits of a number. -/
def bitLength (n : Nat) : Nat := if n = 0 then 0 else n.log2 + 1

/-- Whether the magnitude (lo + f), with f = (rem + sticky)/2^s strictly between 0 and 1, rounds to lo + 1. A sticky
remainder stands for an unknown amount below one unit of rem. -/
def roundsUp (mode : Rounding) (neg : Bool) (lo rem s : Nat) (sticky : Bool) : Bool :=
  match mode with
  | .rne => decide (2 ^ s < 2 * rem) || (decide (2 * rem = 2 ^ s) && (sticky || decide (lo % 2 = 1)))
  | .rtz => false
  | .rdn => neg
  | .rup => !neg
  | .sr w =>
    let q := rem * 2 ^ 32
    if neg then
      let ceil := if sticky then q / 2 ^ s + 1 else (q + 2 ^ s - 1) / 2 ^ s
      !decide (w.toNat < 2 ^ 32 - ceil)
    else decide (w.toNat < q / 2 ^ s)

/-- A magnitude num·2^exp, or one strictly between num·2^exp and (num + 1)·2^exp where sticky, rounded to a multiple of
2^unit: the multiple, and whether it is inexact. -/
def roundTo (mode : Rounding) (neg : Bool) (num : Nat) (exp : Int) (sticky : Bool) (unit : Int) : Nat × Bool :=
  if unit ≤ exp && !sticky then (num * 2 ^ (exp - unit).toNat, false)
  else
    let s := (unit - exp).toNat
    let lo := num / 2 ^ s
    let rem := num % 2 ^ s
    if rem = 0 && !sticky then (lo, false)
    else (if roundsUp mode neg lo rem s sticky then lo + 1 else lo, true)

/-- An element's bits from its sign and the code of its magnitude. -/
def signed (f : Format) (neg : Bool) (code : Nat) : Nat := if neg then code + 2 ^ (f.width - 1) else code

/-- What a conversion gives: the element's bits and its flags. -/
structure Converted where
  bits : Nat
  flags : Word
  deriving DecidableEq, Repr

/-- A finite magnitude into a floating-point format (R113). ftz is FPCTL.FTZ where the instruction applies it (R201). -/
def convertFinite (f : Format) (mode : Rounding) (sat ftz : Bool) (neg : Bool) (num : Nat) (exp : Int) (sticky : Bool) :
    Converted :=
  if num = 0 && !sticky then ⟨signed f neg 0, 0⟩
  else
    let e := exp + bitLength num - 1
    let emin : Int := 1 - f.bias
    let unit := max e emin - f.mant
    let (q, inexact) := roundTo mode neg num exp sticky unit
    let code := (unit - (emin - f.mant)).toNat * 2 ^ f.mant + q
    if f.maxCode < code then
      let fl := flagOverflow ||| flagInexact
      if sat || f = .e2m1 then ⟨signed f neg f.maxCode, fl⟩
      else match f.infinity with
        | some c => ⟨signed f neg c, fl⟩
        | none => ⟨f.nan, fl⟩
    else if ftz && code ≠ 0 && decide (code < 2 ^ f.mant) then ⟨signed f neg 0, flagUnderflow ||| flagInexact⟩
    else
      ⟨signed f neg code, if inexact then (if e < emin then flagInexact ||| flagUnderflow else flagInexact) else 0⟩

/-- A finite magnitude into an integer format (R113). -/
def convertInt (f : Format) (mode : Rounding) (neg : Bool) (num : Nat) (exp : Int) (sticky : Bool) : Converted :=
  let (q, inexact) := roundTo mode neg num exp sticky 0
  let half := 2 ^ (f.width - 1)
  if !neg && decide (half ≤ q) then ⟨half - 1, flagInvalid⟩
  else if neg && decide (half < q) then ⟨half, flagInvalid⟩
  else ⟨if neg && q ≠ 0 then 2 ^ f.width - q else q, if inexact then flagInexact else 0⟩

/-- Conversion of a value into a format (R113). -/
def cvt (v : Value) (f : Format) (mode : Rounding) (sat ftz : Bool) : Converted :=
  match v with
  | .nan => if f.isInt || f = .e2m1 then ⟨0, flagInvalid⟩ else ⟨f.nan, 0⟩
  | .inf neg =>
    if f.isInt then ⟨if neg then 2 ^ (f.width - 1) else 2 ^ (f.width - 1) - 1, flagInvalid⟩
    else match f.infinity, sat with
      | some c, false => ⟨signed f neg c, 0⟩
      | _, _ =>
        let fl := flagOverflow ||| flagInexact
        if f = .e4m3 && !sat then ⟨f.nan, fl⟩ else ⟨signed f neg f.maxCode, fl⟩
  | .fin neg num exp =>
    if f.isInt then convertInt f mode neg num exp false else convertFinite f mode sat ftz neg num exp false

/-- The word of stochastic rounding for a target format and a counter (R112). -/
def srWord (seed : Dword) (f : Format) (ctr : Dword) : Word := hare seed (f.cell.setWidth 32) ctr 0

/-- A rounding mode from its code, with the seed and the counter of a stochastic draw (R28, R112). -/
def roundingOf (rm : BitVec 3) (seed : Dword) (f : Format) (ctr : Dword) : Rounding :=
  match rm with
  | 1#3 => .rtz
  | 2#3 => .rdn
  | 3#3 => .rup
  | 4#3 => .sr (srWord seed f ctr)
  | _ => .rne

/-- The counter of an element written to memory: its byte address as a global address of this module, doubled, plus 1
for a high nibble (R112). -/
def srMemoryCounter (loc : Nat) (hiNibble : Bool) : Dword :=
  BitVec.ofNat 64 (2 * (0xFFF * 2 ^ 52 + loc) + (if hiNibble then 1 else 0))

/-! ## Exact arithmetic on values (R204) -/

/-- The sign of an exact zero sum of operands of opposite sign (R204). -/
def zeroSign (mode : Rounding) : Bool := decide (mode = .rdn)

/-- The exact sum of two finite values. -/
def addFinite (mode : Rounding) (n1 : Bool) (a : Nat) (ea : Int) (n2 : Bool) (b : Nat) (eb : Int) : Value :=
  if a = 0 && b = 0 then .zero (if n1 = n2 then n1 else zeroSign mode)
  else if a = 0 then .fin n2 b eb
  else if b = 0 then .fin n1 a ea
  else
    let e := min ea eb
    let x := a * 2 ^ (ea - e).toNat
    let y := b * 2 ^ (eb - e).toNat
    if n1 = n2 then .fin n1 (x + y) e
    else if x = y then .zero (zeroSign mode)
    else if x < y then .fin n2 (y - x) e
    else .fin n1 (x - y) e

/-- A sum, and whether it is an invalid operation. -/
def addValues (mode : Rounding) (x y : Value) : Value × Bool :=
  match x, y with
  | .nan, _ => (.nan, false)
  | _, .nan => (.nan, false)
  | .inf a, .inf b => if a = b then (.inf a, false) else (.nan, true)
  | .inf a, _ => (.inf a, false)
  | _, .inf b => (.inf b, false)
  | .fin n1 a ea, .fin n2 b eb => (addFinite mode n1 a ea n2 b eb, false)

/-- A product, and whether it is an invalid operation. -/
def mulValues (x y : Value) : Value × Bool :=
  match x, y with
  | .nan, _ => (.nan, false)
  | _, .nan => (.nan, false)
  | .inf a, .inf b => (.inf (a != b), false)
  | .inf a, .fin n b _ => if b = 0 then (.nan, true) else (.inf (a != n), false)
  | .fin n b _, .inf a => if b = 0 then (.nan, true) else (.inf (a != n), false)
  | .fin n1 a ea, .fin n2 b eb =>
    if a = 0 || b = 0 then (.zero (n1 != n2), false) else (.fin (n1 != n2) (a * b) (ea + eb), false)

def Value.negate : Value → Value
  | .nan => .nan
  | .inf n => .inf (!n)
  | .fin n a e => .fin (!n) a e

/-- A value is less than another; false where either is NaN (R206). -/
def Value.lt (x y : Value) : Bool :=
  match x, y with
  | .nan, _ => false
  | _, .nan => false
  | .inf a, .inf b => a && !b
  | .inf a, _ => a
  | _, .inf b => !b
  | .fin n1 a ea, .fin n2 b eb =>
    let e := min ea eb
    let x : Int := (a * 2 ^ (ea - e).toNat : Nat)
    let y : Int := (b * 2 ^ (eb - e).toNat : Nat)
    decide ((if n1 then -x else x) < (if n2 then -y else y))
/-- Two values are equal; −0 equals +0 (R206). -/
def Value.eq (x y : Value) : Bool :=
  decide (x ≠ .nan) && decide (y ≠ .nan) && !x.lt y && !y.lt x

/-! ## Cells (R95 to R103, R107 to R110) -/

/-- The elements of a format in a cell: their number (R99). -/
def Format.count (f : Format) : Nat :=
  match f.width with
  | 32 => 15
  | 16 => 31
  | 8 => 62
  | _ => 124

/-- The bits of element i of a cell (R99). -/
def cellElement (f : Format) (cell : List Byte) (i : Nat) : Nat :=
  match f.width with
  | 32 => fieldAt cell (4 + 4 * i) 4
  | 16 => fieldAt cell (2 + 2 * i) 2
  | 8 => fieldAt cell (2 + i) 1
  | _ => fieldAt cell (2 + i / 2) 1 / (if i % 2 = 0 then 1 else 16) % 16

/-- The value of element i of a described cell (R103). -/
def cellValue (f : Format) (cell : List Byte) (i : Nat) : Value :=
  scaled (byteAt cell 1) (decodeElement f (cellElement f cell i))

/-- The bitmap of a bitmap-packed cell (R107, R108). -/
def cellBitmap (cell : List Byte) : Word := BitVec.ofNat 32 (fieldAt cell 2 4)

/-- Bits of a bitmap below position p. -/
def bitsBelow (b : Word) (p : Nat) : Nat := popcount b p

/-- Logical element p of a BM16 cell (R107). -/
def bm16Value (cell : List Byte) (p : Nat) : Value :=
  let b := cellBitmap cell
  if b.getLsbD p then scaled (byteAt cell 1) (decodeElement .fp16 (fieldAt cell (6 + 2 * bitsBelow b p) 2))
  else scaled (byteAt cell 1) (.zero false)

/-- Logical element p of a BM8 cell (R108). -/
def bm8Value (cell : List Byte) (p : Nat) : Value :=
  let b := cellBitmap cell
  if b.getLsbD (p / 2) then
    scaled (byteAt cell 1) (decodeElement .e4m3 (fieldAt cell (6 + 2 * bitsBelow b (p / 2) + p % 2) 1))
  else scaled (byteAt cell 1) (.zero false)

/-- Weight k of a lattice code against a codebook (R109, R110): magnitudes in halves. -/
def latWeight (codebook : List Byte) (code : Half) (k : Nat) : Value :=
  let root := BitVec.ofNat 32 (fieldAt codebook (4 * (code.extractLsb' 8 8).toNat) 4)
  let a := 2 * (root.extractLsb' (4 * k) 4).toNat + (code.extractLsb' 0 1).toNat
  let neg := if k < 7 then code.getLsbD (k + 1) else decide (popcount (code.extractLsb' 1 7) 7 % 2 = 1)
  if a = 0 then .zero false else .fin neg a (-1)

/-- Weight i of a LAT8 cell (R110). -/
def latValue (codebook : List Byte) (cell : List Byte) (i : Nat) : Value :=
  scaled (byteAt cell 1) (latWeight codebook (BitVec.ofNat 16 (fieldAt cell (2 + 2 * (i / 8)) 2)) (i % 8))

/-- A bitmap-packed cell breaks its population limit (R107, R108). -/
def overPacked (cell : List Byte) : Bool := decide (29 < popcount (cellBitmap cell) 32)

end Sys2Proof.Machine
end

