-- ==== Sys2Proof/Machine/Routine.lean ====
section
/-! DEFINITION. The small machine of Badger routines (R70, R71) and Squirrel kernels (R158): the restricted set of R37
over a few registers, with memory as a parameter, and the checks of their code (R75, R156). -/

namespace Sys2Proof.Machine

/-! ## The restricted set (R37) -/

/-- Whether routines or kernels may hold an instruction; a kernel also holds sqpf and sqend (R37). -/
def smallAllowed (kernel : Bool) : Instr → Bool
  | .add _ _ _ | .sub _ _ _ | .and _ _ _ | .or _ _ _ | .xor _ _ _ | .shl _ _ _ | .shr _ _ _ | .sra _ _ _
  | .mul _ _ _ | .mulh _ _ _ | .div _ _ _ | .divu _ _ _ | .rem _ _ _ | .remu _ _ _ | .min _ _ _ | .max _ _ _
  | .clz _ _ | .ctz _ _ | .popc _ _ | .bext _ _ _ | .bins _ _ _ | .slt _ _ _ | .sltu _ _ _ | .seq _ _ _
  | .sel _ _ _ | .mov _ _ | .addi _ _ _ | .andi _ _ _ | .ori _ _ _ | .xori _ _ _ | .shli _ _ _ | .shri _ _ _
  | .srai _ _ _ | .jalr _ _ _ | .li _ _ | .lih _ _ | .lea _ _
  | .beq _ _ _ | .bne _ _ _ | .blt _ _ _ | .bge _ _ _ | .bltu _ _ _ | .bgeu _ _ _ | .jal _ _ | .loop _ _ | .loopm _ _ _
  | .ldB _ _ _ _ | .ldH _ _ _ _ | .ldW _ _ _ _ | .ldD _ _ _ _ | .stB _ _ _ _ | .stH _ _ _ _ | .stW _ _ _ _
  | .stD _ _ _ _ => true
  | .sqpf _ | .sqend => kernel
  | _ => false

/-- The register fields of an instruction of the restricted set. -/
def smallRegs : Instr → List Reg
  | .add d a b | .sub d a b | .and d a b | .or d a b | .xor d a b | .shl d a b | .shr d a b | .sra d a b
  | .mul d a b | .mulh d a b | .div d a b | .divu d a b | .rem d a b | .remu d a b | .min d a b | .max d a b
  | .bext d a b | .bins d a b | .slt d a b | .sltu d a b | .seq d a b | .sel d a b => [d, a, b]
  | .clz d a | .ctz d a | .popc d a | .mov d a => [d, a]
  | .addi d a _ | .andi d a _ | .ori d a _ | .xori d a _ | .jalr d a _ => [d, a]
  | .shli d a _ | .shri d a _ | .srai d a _ => [d, a]
  | .li d _ | .lih d _ | .lea d _ => [d]
  | .beq a b _ | .bne a b _ | .blt a b _ | .bge a b _ | .bltu a b _ | .bgeu a b _ => [a, b]
  | .jal d _ => [d]
  | .loop x _ => [x]
  | .loopm x _ _ => [x]
  | .ldB _ _ d b | .ldH _ _ d b | .ldW _ _ d b | .ldD _ _ d b | .stB _ _ d b | .stH _ _ d b | .stW _ _ d b
  | .stD _ _ d b => [d, b]
  | .sqpf y => [y]
  | _ => []

/-- A branch's or a loop's target, as a byte offset from the first instruction, of an instruction at offset p. -/
def smallTarget (p : Dword) : Instr → Option Dword
  | .beq _ _ off | .bne _ _ off | .blt _ _ off | .bge _ _ off | .bltu _ _ off | .bgeu _ _ off | .jal _ off =>
    some (branchTarget p off)
  | .loop _ len | .loopm _ _ len => some (loopEnd (p + 4) len)
  | _ => none

/-- The instruction at the head of a list of halfwords, and its length in halfwords. -/
def smallDecode : List Half → Option (Instr × Nat)
  | [] => none
  | lo :: rest =>
    if isLong lo then
      match rest with
      | [] => none
      | hi :: _ => match decode32 (hi ++ lo) with
        | .ok i => some (i, 2)
        | .error _ => none
    else match decode16 lo with
      | .ok i => some (i, 1)
      | .error _ => none

/-- One repeat prefix of a routine holds before an instruction: R51 over a file of `limit` registers. -/
def smallRepeat (limit : Nat) (kernel : Bool) (i : Instr) (d a b : Bool) (n : Nat) : Bool :=
  repeatFields i d a b n && (List.range n).all fun k =>
    match stepped i d a b k with
    | some j => smallAllowed kernel j && (smallRegs j).all fun r => decide (r.toNat < limit)
    | none => false

/-- The checks of a routine's or a kernel's code from offset p on: 0 sound, 2 a bad instruction or an incomplete end, 3
a target outside (R75, R156). `size` is the code's length in bytes; `pre` is a repeat prefix just met. A bad instruction
anywhere comes before a target. A target in the middle of a 32-bit instruction, or between a prefix and its instruction, is
accepted, and the code is decoded from there when it runs: a DESIGN CHOICE (log 66). -/
def smallCheck (limit : Nat) (kernel : Bool) (size : Nat) : Nat → Dword → Option (Bool × Bool × Bool × Nat) → List Half → Nat
  | 0, _, _, _ => 2
  | n + 1, p, pre, code =>
    match code with
    | [] => if pre.isSome then 2 else 0
    | _ =>
      match smallDecode code with
      | none => 2
      | some (.rep b a d count, _) =>
        if pre.isSome then 2 else smallCheck limit kernel size n (p + 2) (some (d, a, b, count.toNat + 1)) (code.drop 1)
      | some (i, len) =>
        let sound := smallAllowed kernel i && ((smallRegs i).all fun r => decide (r.toNat < limit)) &&
          (match pre with
            | some (d, a, b, m) => smallRepeat limit kernel i d a b m
            | none => true)
        if !sound then 2
        else
          let rest := smallCheck limit kernel size n (p + BitVec.ofNat 64 (2 * len)) none (code.drop len)
          if rest = 2 then 2
          else match smallTarget p i with
            | some t => if decide (t.toNat < size) && decide (t.toNat % 2 = 0) then rest else 3
            | none => rest

/-! ## Running -/

/-- The state of a run: registers, the address that `lea` counts its code from (0 in a routine, R70, R185), program counter as
a byte offset, loop stack, and the repeat in progress with its repeats done. -/
structure Small where
  regs : List Dword
  origin : Dword
  pc : Dword
  loops : List LoopEntry
  rep : Option (Bool × Bool × Bool × Nat × Nat)
  steps : Nat

/-- How a run ends: at its end, or aborted, with the cause where the manual names one. -/
inductive SmallEnd where
  | ended
  | aborted (cause : Option Cause)
  deriving DecidableEq, Repr

def Small.get (s : Small) (r : Reg) : Dword := if r = 0 then 0 else s.regs.getD r.toNat 0
def Small.set (s : Small) (r : Reg) (v : Dword) : Small :=
  if r = 0 then s else { s with regs := s.regs.set r.toNat v }

/-- The result of an instruction that only computes: its register and value, or the cause DIV_ZERO; none for others.
`p` is the instruction's own address. -/
def smallValue (get : Reg → Dword) (p : Dword) : Instr → Option (Except Cause (Reg × Dword))
  | .add d a b => some (.ok (d, get a + get b))
  | .sub d a b => some (.ok (d, get a - get b))
  | .and d a b => some (.ok (d, get a &&& get b))
  | .or d a b => some (.ok (d, get a ||| get b))
  | .xor d a b => some (.ok (d, get a ^^^ get b))
  | .shl d a b => some (.ok (d, get a <<< shiftOf (get b)))
  | .shr d a b => some (.ok (d, get a >>> shiftOf (get b)))
  | .sra d a b => some (.ok (d, (get a).sshiftRight (shiftOf (get b))))
  | .mul d a b => some (.ok (d, get a * get b))
  | .mulh d a b => some (.ok (d, mulHigh (get a) (get b)))
  | .div d a b => some (if get b = 0 then .error Cause.divZero else .ok (d, (get a).sdiv (get b)))
  | .divu d a b => some (if get b = 0 then .error Cause.divZero else .ok (d, get a / get b))
  | .rem d a b => some (if get b = 0 then .error Cause.divZero else .ok (d, (get a).srem (get b)))
  | .remu d a b => some (if get b = 0 then .error Cause.divZero else .ok (d, get a % get b))
  | .min d a b => some (.ok (d, minS (get a) (get b)))
  | .max d a b => some (.ok (d, maxS (get a) (get b)))
  | .clz d a => some (.ok (d, BitVec.ofNat 64 (leadingZeros (get a) 64)))
  | .ctz d a => some (.ok (d, BitVec.ofNat 64 (trailingZeros (get a) 0 64)))
  | .popc d a => some (.ok (d, BitVec.ofNat 64 (popcount (get a) 64)))
  | .bext d a b => some (.ok (d, extractField (get a) (get b)))
  | .bins d a b => some (.ok (d, insertField (get d) (get a) (get b)))
  | .slt d a b => some (.ok (d, ofBoolX ((get a).slt (get b))))
  | .sltu d a b => some (.ok (d, ofBoolX ((get a).ult (get b))))
  | .seq d a b => some (.ok (d, ofBoolX (decide (get a = get b))))
  | .sel d a b => some (.ok (d, if get d ≠ 0 then get a else get b))
  | .mov d a => some (.ok (d, get a))
  | .addi d a imm => some (.ok (d, get a + immediate imm))
  | .andi d a imm => some (.ok (d, get a &&& immediate imm))
  | .ori d a imm => some (.ok (d, get a ||| immediate imm))
  | .xori d a imm => some (.ok (d, get a ^^^ immediate imm))
  | .shli d a n => some (.ok (d, get a <<< n.toNat))
  | .shri d a n => some (.ok (d, get a >>> n.toNat))
  | .srai d a n => some (.ok (d, (get a).sshiftRight n.toNat))
  | .li d imm => some (.ok (d, immediate imm))
  | .lih d imm => some (.ok (d, loadHigh (get d) imm))
  | .lea d imm => some (.ok (d, p + immediate imm))
  | _ => none

/-- The comparison of a conditional branch, and its target (R268). -/
def smallBranch (get : Reg → Dword) (p : Dword) : Instr → Option (Bool × Dword)
  | .beq a b off => some (decide (get a = get b), branchTarget p off)
  | .bne a b off => some (decide (get a ≠ get b), branchTarget p off)
  | .blt a b off => some ((get a).slt (get b), branchTarget p off)
  | .bge a b off => some (!(get a).slt (get b), branchTarget p off)
  | .bltu a b off => some ((get a).ult (get b), branchTarget p off)
  | .bgeu a b off => some (!(get a).ult (get b), branchTarget p off)
  | _ => none

/-- A load of class M: its size, whether it is one, its registers and offset. -/
def smallMemory : Instr → Option (Bool × BitVec 2 × Reg × Reg × BitVec 12)
  | .ldB _ off d b => some (true, 0, d, b, off)
  | .ldH _ off d b => some (true, 1, d, b, off)
  | .ldW _ off d b => some (true, 2, d, b, off)
  | .ldD _ off d b => some (true, 3, d, b, off)
  | .stB _ off d b => some (false, 0, d, b, off)
  | .stH _ off d b => some (false, 1, d, b, off)
  | .stW _ off d b => some (false, 2, d, b, off)
  | .stD _ off d b => some (false, 3, d, b, off)
  | _ => none

/-- What a run does to memory. A load or a store that is refused aborts the run, with the cause where one is named. -/
structure SmallMemory (σ : Type) where
  load : σ → Dword → BitVec 2 → Except (Option Cause) (Dword × σ)
  store : σ → Dword → BitVec 2 → Dword → Except (Option Cause) σ
  ask : σ → Dword → σ

/-- Where control goes after an instruction (R271), and the repeats that go on (R50). -/
def Small.advance (s : Small) (succ : Dword) (taken : Bool) : Small :=
  match s.rep with
  | some (d, a, b, n, k) =>
    if k + 1 < n then { s with rep := some (d, a, b, n, k + 1) }
    else
      let (q, l, _) := backEdge s.loops succ
      { s with pc := q, loops := l, rep := none }
  | none =>
    let (q, l, _) := backEdge s.loops succ
    { s with pc := q, loops := if taken then leaveLoops l q else l }

/-- A sign-extended load value of 2^size bytes. -/
def extendLoad (size : BitVec 2) (v : Dword) : Dword :=
  match size with
  | 0#2 => (v.extractLsb' 0 8).signExtend 64
  | 1#2 => (v.extractLsb' 0 16).signExtend 64
  | 2#2 => (v.extractLsb' 0 32).signExtend 64
  | 3#2 => v

/-- One instruction of a run, other than a repeat prefix; the end of the run, if it ends. -/
def Small.exec {σ : Type} (m : SmallMemory σ) (s : Small) (e : σ) (i : Instr) : Small × σ × Option SmallEnd :=
  match i with
  | .jalr _ _ _ => (s, e, some .ended)
  | .sqend => (s, e, some .ended)
  | .sqpf y => (s.advance (s.pc + 4) false, m.ask e (s.get y), none)
  | .jal d off => ((s.set d (s.origin + s.pc + 4)).advance (branchTarget s.pc off) false, e, none)
  | .loop x len => enter s e ((s.get x).extractLsb' 0 32) len
  | .loopm x off len =>
    match m.load e (addrLoopm (s.get x) off) 2 with
    | .ok (v, e) => enter s e (v.extractLsb' 0 32) len
    | .error c => (s, e, some (.aborted c))
  | _ =>
    match smallValue s.get (s.origin + s.pc) i with
    | some (.ok (d, v)) => ((s.set d v).advance (s.pc + 4) false, e, none)
    | some (.error c) => (s, e, some (.aborted (some c)))
    | none =>
      match smallBranch s.get s.pc i with
      | some (true, t) => (s.advance t true, e, none)
      | some (false, _) => (s.advance (s.pc + 4) false, e, none)
      | none =>
        match smallMemory i with
        | some (true, size, d, b, off) =>
          match m.load e (addrM (s.get b) off) size with
          | .ok (v, e) => ((s.set d (extendLoad size v)).advance (s.pc + 4) false, e, none)
          | .error c => (s, e, some (.aborted c))
        | some (false, size, d, b, off) =>
          match m.store e (addrM (s.get b) off) size (s.get d) with
          | .ok e => (s.advance (s.pc + 4) false, e, none)
          | .error c => (s, e, some (.aborted c))
        | none => (s, e, some (.aborted none))
where
  enter (s : Small) (e : σ) (n : Word) (len : BitVec 17) : Small × σ × Option SmallEnd :=
    let start := s.pc + 4
    if n = 0 then (s.advance (loopEnd start len) false, e, none)
    else if 4 ≤ s.loops.length then (s, e, some (.aborted (some Cause.loopDepth)))
    else ({ s with loops := ⟨start, loopEnd start len, n⟩ :: s.loops, pc := start }, e, none)

/-- A run from where it stands: it aborts where it leaves the code, and once it has executed more than `limit`
instructions (R71, R158). A repeat prefix counts as none. -/
def Small.run {σ : Type} (m : SmallMemory σ) (code : List Half) (limit : Nat) : Nat → Small → σ → Small × σ × SmallEnd
  | 0, s, e => (s, e, .aborted none)
  | n + 1, s, e =>
    if s.pc.toNat % 2 = 1 || decide (2 * code.length ≤ s.pc.toNat) then (s, e, .aborted none)
    else
      match smallDecode (code.drop (s.pc.toNat / 2)) with
      | none => (s, e, .aborted none)
      | some (.rep b a d count, _) => run m code limit n { s with pc := s.pc + 2, rep := some (d, a, b, count.toNat + 1, 0) } e
      | some (i, _) =>
        let j := match s.rep with
          | some (d, a, b, _, k) => (stepped i d a b k).getD i
          | none => i
        match s.exec m e j with
        | (s, e, some fin) =>
          (match fin with | .ended => s | .aborted _ => { s with steps := s.steps + 1 }, e, fin)
        | (s, e, none) =>
          let s := { s with steps := s.steps + 1 }
          if limit < s.steps then (s, e, .aborted none) else run m code limit n s e

/-! ## A Badger's cell (R70, R71) -/

/-- The working copy of a cell, and whether a store executed. -/
structure CellCopy where
  bytes : List Byte
  stored : Bool

def listPut (l : List Byte) (i : Nat) (bs : List Byte) : List Byte := l.take i ++ bs ++ l.drop (i + bs.length)

/-- The memory of a routine: byte offsets within the shipped cell. -/
def cellMemory : SmallMemory CellCopy where
  load e a size :=
    let n := 2 ^ size.toNat
    if a.toNat % n ≠ 0 then .error (some Cause.misalign)
    else if 64 < a.toNat + n then .error none
    else .ok (BitVec.ofNat 64 (fieldAt e.bytes a.toNat n), e)
  store e a size v :=
    let n := 2 ^ size.toNat
    if a.toNat % n ≠ 0 then .error (some Cause.misalign)
    else if 64 < a.toNat + n then .error none
    else .ok ⟨listPut e.bytes a.toNat (bytesOfSize size v), true⟩
  ask e _ := e

/-- Sixteen bits of a list of flags, bit 0 first. -/
def bitsOfList (l : List Bool) : Nat := l.foldr (fun b acc => (if b then 1 else 0) + 2 * acc) 0

/-- A routine's run on a cell (R71): the registers at its end, the cell, the end, and the instructions executed. -/
def badgerRun (code : List Half) (cell : List Byte) (full : List Bool) (off : Nat) (slot : BitVec 6) (a b : Dword) :
    Small × CellCopy × SmallEnd :=
  let regs : List Dword := [0, a, b, BitVec.ofNat 64 off, BitVec.ofNat 64 (bitsOfList full), slot.setWidth 64,
    0, 0, 0, 0, 0, 0, 0, 0, 0, 0]
  Small.run cellMemory code 1024 (3 * 1025) ⟨regs, 0, 0, [], none, 0⟩ ⟨cell, false⟩

end Sys2Proof.Machine
end

