-- ==== Sys2Proof/Machine/Access.lean ====
section
/-! DEFINITION. The accesses of long-latency instructions: the checks of R120, the effects of R121 to R137, R193 to R195
and R71, R72, the waits of R124, R132 and R152, and their completion under R46 and R354. -/

namespace Sys2Proof.Machine

/-- How an attempt at an access went. -/
inductive Tried where
  | done (r : Result) (flags : Word) (snap : Option Snap)
  /-- its condition is not met, or it stands behind an earlier access of its thread (R124, R277); where it acts, once it has
  passed its checks (R93) -/
  | waits (a : Access) (spots : List Placed)
  | stop (cause : Cause) (addr info : Dword)
  | absent (page a info : Dword)
  /-- the instruction tries again -/
  | held
  /-- the task is saved, until what it waits for has come (R254) -/
  | saves (resume : Resume)
  deriving DecidableEq, Repr

/-- On whose behalf an access is made, the releases and the acquires of its task made since its issue, and its instruction's
address. -/
structure Issuer where
  who : Who
  rels : List Nat
  acqs : List (BitVec 3)
  iaddr : Dword

def Tried.x (v : Dword) : Tried := .done (.x v) 0 none
def Tried.nothing : Tried := .done .none 0 none

/-! ## Writes by a thread -/

/-- Releases made after an access was issued carry its writes too (R277, R280, R282). -/
def Chip.carryLate (c : Chip) (rels : List Nat) (words : List Nat) : Chip :=
  if rels.isEmpty then c
  else
    let new : View := words.filterMap fun w => (c.newest w).map fun v => (w, v.id)
    let meets (l : List Nat) : Bool := l.any rels.contains
    { c with
      rels := c.rels.map fun r => if meets r.carry then { r with view := r.view.join new } else r
      agents := c.agents.map fun a => if meets a.got then { a with view := a.view.join new } else a }

/-- The latest release of an access's task that precedes it in program order (R281). -/
def Chip.authorOf (c : Chip) (w : Issuer) : Option Nat :=
  if w.rels.isEmpty then (c.agent w.who.agent).lastRel
  else (c.rels.find? fun r => decide (r.agent = w.who.agent) && !w.rels.contains r.id).map Release.id

/-- A hoard line of a thread after a store of it to n bytes at a spot; none where the line is dropped: a part of a word that
the line holds in an older state (R121, R161). -/
def Chip.lineStored (c : Chip) (before : List Host.Cell) (tid : TId) (s : Spot) (n : Nat) (h : HoardLine) :
    Option HoardLine :=
  let base := s.loc / 64 * 64
  if h.owner ≠ tid || h.cell ≠ globalOf base then some h
  else
    let one (e : (Word × Option Version) × Nat) : Option (Word × Option Version) :=
      let w := base + 4 * e.2
      let k := s.key - s.loc % 64 + 4 * e.2
      if s.loc < w + 4 && w < s.loc + n then
        if (s.loc ≤ w && w + 4 ≤ s.loc + n) || e.1.1 = Mem.word before k then some (Mem.word c.mem k, c.newest w)
        else none
      else some e.1
    ((h.words.zip (List.range 16)).mapM one).map fun l => { h with words := l }

/-- Bytes written for a thread at a spot, under event number n (R121, R131, R276), and its own hoard line of the cell. -/
def Chip.storeAs (c : Chip) (n : Nat) (w : Issuer) (syncRel : Option Nat) (s : Spot) (bs : List Byte) : Chip :=
  let before := c.mem
  let c := ((c.writeAs n w.who.agent (some w.who.tid) true (c.authorOf w) syncRel s bs).storeClears s.key bs.length).carryLate
    w.rels (wordsTouched s.loc bs.length)
  if c.hoard.isEmpty then c else { c with hoard := c.hoard.filterMap (c.lineStored before w.who.tid s bs.length) }

/-- Bytes written for a thread at a spot as one indivisible step. -/
def Chip.storeAt (c : Chip) (w : Issuer) (syncRel : Option Nat) (s : Spot) (bs : List Byte) : Chip :=
  { c with clock := c.clock + 1 }.storeAs c.clock w syncRel s bs

/-- Parts of one cell written for a thread as one indivisible step: one event number (R58, R195). -/
def Chip.storeParts (c : Chip) (w : Issuer) (parts : List (Spot × List Byte)) : Chip :=
  parts.foldl (fun (d : Chip) e => d.storeAs c.clock w none e.1 e.2) { c with clock := c.clock + 1 }

/-- A thread's own accesses that do not go through the hoard drop its line of the cell, and a fill of it that is on its way
(R162). -/
def Chip.dropLine (c : Chip) (tid : TId) (loc : Nat) : Chip :=
  let cell := globalOf (loc / 64 * 64)
  { c with
    hoard := c.hoard.filter fun h => !(decide (h.owner = tid) && decide (h.cell = cell))
    asked := c.asked.filter fun h => !(decide (h.1 = tid) && decide (h.2 &&& ~~~63 = cell)) }

/-- The words, by their canonical addresses, that a thread's hoard line serves to a plain or vector load (R161): all in one cell,
and none older than a load of the thread may return (R163, R278, R287). A line may be dropped at any time, and memory read
instead. -/
def Chip.serveHoard (c : Chip) (w : Issuer) (words : List Nat) : Option (List Word) × Chip :=
  let base := words.headD 0 / 64 * 64
  match c.hoard.find? fun h => decide (h.owner = w.who.tid) && decide (h.cell = globalOf base) with
  | none => (none, c)
  | some h =>
    let r := c.agent w.who.agent
    let held (x : Nat) : Word × Option Version := h.words.getD ((x - base) / 4) (0, none)
    let fits := !words.isEmpty && words.all fun x => decide (x / 64 * 64 = base) &&
      decide (c.floorOf r x ≤ ((held x).2.map Version.id).getD 0)
    let (i, c) := c.draw 2
    if fits && i = 0 then
      let c := words.foldl (fun (c : Chip) x =>
        match (held x).2 with
        | some v => c.noteRead w.who.agent x v
        | none => c) c
      (some (words.map fun x => (held x).1), c)
    else (none, { c with hoard := c.hoard.filter fun x => decide (x ≠ h) })

/-! ## Wake writes (R330, R331) -/

/-- EVPEND.DEN of a die (R335). -/
def Chip.denEvent (c : Chip) (die : BitVec 3) : Chip :=
  c.setDie die { c.die die with evpend := (c.die die).evpend ||| 8 }

/-- A wake write of a reply to an entry, with its release: the status of R331 (R325). With no page recorded, stages 2 and 3
end at once (R332, R335). -/
def Chip.wakeWrite (g : Mgmt) (c : Chip) (key : BitVec 20) (reply : Dword) (rel : Nat) : Dword × Chip :=
  match tableGet c.den key with
  | none =>
    (1, ({ c with den := tableSet c.den key (.pending reply rel) }).denEvent (g.denwin.extractLsb' 48 3))
  | some (.parked k) =>
    let n := k.pages.length - 4
    let c := { c with den := tableSet c.den key (.woken k reply rel none (k.pages.drop n) (k.pages.take n)) }
    (0, if k.pages.isEmpty then c.denEvent k.saved.cluster.die else c)
  | some _ => (2, c.denEvent (g.denwin.extractLsb' 48 3))

/-- A release for a thread's access: earlier accesses of the thread that still wait are among the writes it carries (R282). -/
def Chip.releaseFor (c : Chip) (w : Issuer) (earlier : List Pending) (scope : BitVec 3) : Nat × Chip :=
  let (n, c) := c.releaseOpen w.who.agent (.thread w.who.tid) scope
  let c := if scope = 5 && !unsent earlier then c.complete w.who.agent n else c
  if earlier.isEmpty then (n, c)
  else
    let t := c.thread w.who.tid
    let pend := t.pend.map fun p =>
      if p.access.isSome && earlier.any fun q => decide (q.id = p.id) then { p with rels := n :: p.rels } else p
    (n, c.setThread w.who.tid { t with pend := pend })

/-- A write of a thread to the Den window: a wake write where it is an 8-byte st.d or amo.swap.d to a wake slot, else
discarded (R330). -/
def Chip.denStore (g : Mgmt) (c : Chip) (w : Issuer) (earlier : List Pending) (off : Nat) (reply : Dword) : Chip :=
  if off % 64 = 0 then
    let (n, c) := c.releaseFor w earlier 5
    (c.wakeWrite g (BitVec.ofNat 20 (off / 64)) reply n).2
  else c

/-- The acquire of a synchronising access of any thread, with the release it reads from (R127, R280). -/
def Chip.acquireFor (c : Chip) (w : Issuer) (scope : BitVec 3) (direct : List Nat) : Chip :=
  (c.dropHoard w.who.tid).acquire w.who.agent (.thread w.who.tid) scope direct
/-- The acquire of a synchronising access that reads no word of this module's memory. -/
def Chip.acquireAway (c : Chip) (w : Issuer) (acc : Access) : Chip :=
  match acc with
  | .sync _ true _ scope _ _ _ => c.acquireFor w scope []
  | _ => c

/-- The place of a doubleword that is no word of this module's memory, in the record of held locks (R131). -/
def lockPlace (a : Dword) : Nat := 2 ^ 64 + a.toNat
/-- ldl of such a doubleword: the thread's lock is released, and the bit taken (R132). -/
def Chip.takeAway (c : Chip) (tid : TId) (a : Dword) : Chip :=
  let c := c.releaseLock tid
  { c with locks := c.locks ++ [⟨lockPlace a, tid, false⟩] }
/-- stu of such a doubleword: the status where the thread holds no lock, or another doubleword's; none where it holds this
one's (R133). The thread's lock is released. -/
def Chip.spendAway (c : Chip) (tid : TId) (a : Dword) : Option Dword × Chip :=
  match c.locks.find? fun l => decide (l.holder = tid) with
  | none => (some 1, c)
  | some l => (if l.loc = lockPlace a then none else some 2, c.releaseLock tid)

/-- What an access to another module does as it is sent: ldl and stu release the thread's lock, and where it does not hold the
doubleword's bit stu's status is known (R132 to R134). -/
def Chip.sendAway (c : Chip) (w : Issuer) (acc : Access) : Access × Chip :=
  match acc with
  | .ldl _ => (acc, c.releaseLock w.who.tid)
  | .stu a v none =>
    let (s, c) := c.spendAway w.who.tid a
    (.stu a v (some (s.getD 0)), c)
  | _ => (acc, c)

/-- An access of the Den window by one instruction: reads return 0, and words are full; no other write is made there, so a lock
of it does not break (R330). -/
def Chip.denTry (g : Mgmt) (c : Chip) (w : Issuer) (earlier : List Pending) (off : Nat) (acc : Access) : Tried × Chip :=
  let c := c.acquireAway w acc
  match acc with
  | .store 3#2 _ v => (.nothing, c.denStore g w earlier off v)
  | .amo .swap true _ v => (.x 0, c.denStore g w earlier off v)
  | .store _ _ _ => (.nothing, c)
  | .sync .ldwFf _ _ _ _ _ _ => (.x 0, c)
  | .sync .ldwFe _ _ _ _ _ _ => (.x 0, c)
  | .sync .ldwNw _ _ _ _ _ _ => (.x (1 <<< 32), c)
  | .sync _ _ _ _ _ _ _ => (.nothing, c)
  | .cas128 _ _ _ _ _ => (.done (.pair 0 0) 0 none, c)
  | .ldl a => (.x 0, c.takeAway w.who.tid a)
  | .stu a _ _ => let (s, c) := c.spendAway w.who.tid a; (.x (s.getD 0), c)
  | .mcst _ _ _ _ _ _ => (.nothing, c)
  | .vload _ _ => (.done (.v (Lanes.of fun _ => 0)) 0 none, c)
  | .vstore _ _ _ => (.nothing, c)
  | _ => (.x 0, c)

/-! ## Cells as lanes (R194, R195) -/

/-- vldc of a cell's bytes, once read; no format is a format fault. -/
def loadCell (f : Option Format) (a : Dword) (grp : BitVec 4) (act : Byte) (cell : List Byte) : Tried :=
  match f with
  | none => .stop Cause.formatUnknown a 0
  | some f =>
    let r : Lanes Converted := Lanes.of fun i =>
      let k := 8 * grp.toNat + i.toNat
      if k < f.count then cvt (cellValue f cell k) .fp32 .rne false false else ⟨0, 0⟩
    let fl := (lanes8.filter (active act)).foldl (fun acc i => acc ||| (r.get i).flags) 0
    .done (.v (Lanes.of fun i => BitVec.ofNat 32 (r.get i).bits)) fl none

/-- A cell with element k replaced. -/
def putElement (f : Format) (cell : List Byte) (k bits : Nat) : List Byte :=
  match f.width with
  | 32 => listPut cell (4 + 4 * k) (bytesOfWord (BitVec.ofNat 32 bits))
  | 16 => listPut cell (2 + 2 * k) (bytesOfHalf (BitVec.ofNat 16 bits))
  | 8 => listPut cell (2 + k) [BitVec.ofNat 8 bits]
  | _ =>
    let old := byteAt cell (2 + k / 2)
    let b := BitVec.ofNat 4 bits
    listPut cell (2 + k / 2) [if k % 2 = 0 then old.extractLsb' 4 4 ++ b else b ++ old.extractLsb' 0 4]
/-- The byte of a cell at which element k begins. -/
def elementByte (f : Format) (k : Nat) : Nat :=
  match f.width with
  | 32 => 4 + 4 * k
  | 16 => 2 + 2 * k
  | 8 => 2 + k
  | _ => 2 + k / 2

/-- A lane divided by a cell's scale (R195). -/
def unscaled (scale : Byte) (w : Word) : Value :=
  if scale = 0xFF then .nan
  else match decodeElement .fp32 w.toNat with
    | .fin neg n e => if n = 0 then .zero neg else .fin neg n (e + 127 - scale.toNat)
    | v => v

/-- vstc's active lanes put in a cell at a canonical address, with their flags. The pad bytes of an FP32 or INT32 cell lie in word
0, which vstc does not write, and stay: a DESIGN CHOICE (log 66). -/
def storeLanes (f : Format) (loc : Nat) (cell : List Byte) (grp : BitVec 4) (act : Byte) (lanes : Lanes Word) (rm : BitVec 3)
    (sat : Bool) (seed : Dword) : List Byte × Word :=
  (lanes8.filter (active act)).foldl (fun (r : List Byte × Word) i =>
    let k := 8 * grp.toNat + i.toNat
    if k < f.count then
      let ctr := srMemoryCounter (loc + elementByte f k) (f.width = 4 && k % 2 = 1)
      let q := cvt (unscaled (byteAt cell 1) (lanes.get i)) f (roundingOf rm seed f ctr) sat false
      (putElement f r.1 k q.bits, r.2 ||| q.flags)
    else r) (cell, 0)

/-- fship's FAULTINFO (R295). -/
def shipInfo (slot : BitVec 6) (steps : Nat) (inner : Cause) : Dword :=
  0#24 ++ inner ++ 0#5 ++ BitVec.ofNat 11 steps ++ 0#10 ++ slot

/-! ## What another module answers (R346, log 10) -/

/-- The result of an access that another module has answered with a value: a cell there holds free bytes, and is described or
not; an mcst may have failed at some of the replicas, and a routine may be missing or abort (R72, R98, R135, R136). -/
def remoteResult (c : Chip) (w : Issuer) (acc : Access) (v : Dword) : Tried × Chip :=
  let c := c.acquireAway w acc
  match acc with
  | .load size _ => (.x (extendLoad size v), c)
  | .store _ _ _ => (.nothing, c)
  | .sync .ldwFf _ _ _ _ _ _ => (.x ((v.extractLsb' 0 32).signExtend 64), c)
  | .sync .ldwFe _ _ _ _ _ _ => (.x ((v.extractLsb' 0 32).signExtend 64), c)
  | .sync .ldwNw _ _ _ _ _ _ => (.x ((v.extractLsb' 0 33).setWidth 64), c)
  | .sync _ _ _ _ _ _ _ => (.nothing, c)
  | .amo _ wide _ _ => (.x (if wide then v else (v.extractLsb' 0 32).signExtend 64), c)
  | .cas128 _ _ _ _ _ => let (hi, c) := c.free; (.done (.pair v hi) 0 none, c)
  | .ldl a => (.x v, c.takeAway w.who.tid a)
  | .stu _ _ s =>
    if s.getD 0 ≠ 0 then (.x (s.getD 0), c)
    else let (i, c) := c.draw 2; (.x (if i = 0 then 0 else 3), c)
  | .mcst a _ mask _ _ _ =>
    let (failed, c) := c.free
    let (k, c) := c.draw 6
    let (i, c) := c.draw (if a.getLsbD 51 then 1 else 2)
    let failed : BitVec 4 := failed.extractLsb' 0 4 &&& mask.getD 0xF
    if i = 0 || failed = 0 then (.nothing, c)
    else (.stop Cause.mcastPartial w.iaddr (0#48 ++ BitVec.ofNat 8 (18 + k) ++ 0#4 ++ failed), c)
  | .fship slot a _ _ =>
    let (i, c) := c.draw 3
    if i = 0 then (.x v, c)
    else if i = 1 then (.stop Cause.shipEmpty a (shipInfo slot 0 0), c)
    else
      let (k, c) := c.free
      (.stop Cause.shipAbort a (shipInfo slot (k.extractLsb' 0 11).toNat (k.extractLsb' 16 8)), c)
  | .vldc a grp act =>
    let (cell, c) := Chip.freeBytes 8 c
    let (i, c) := c.draw (if a.getLsbD 51 then 1 else 2)
    (loadCell (if i = 0 then formatOfCell (byteAt cell 0) else none) a grp act cell, c)
  | .vstore _ _ _ => (.nothing, c)
  | .vstc a grp act lanes rm sat seed =>
    let (cell, c) := Chip.freeBytes 8 c
    let (i, c) := c.draw (if a.getLsbD 51 then 1 else 2)
    match (if i = 0 then formatOfCell (byteAt cell 0) else none) with
    | none => (.stop Cause.formatUnknown a 0, c)
    | some f => (.done .none (storeLanes f (a.toNat % 2 ^ 52) cell grp act lanes rm sat seed).2 none, c)
  | _ => (.x v, c)

/-- An access to another module: answered, or waiting for its answer until the path is lost (R346). -/
def Chip.remoteTry (c : Chip) (w : Issuer) (kind : Kind) (a : Dword) (m : BitVec 12) (acc : Access) : Tried × Chip :=
  let sent : Remote := ⟨w.who.tid, m⟩
  let back (c : Chip) : Chip := { c with remotes := c.remotes.filter fun r => decide (r ≠ sent) }
  match c.remoteAnswer with
  | (.value v, c) => remoteResult (back c) w acc v
  | (.cause cause, c) => (.stop cause a (remoteInfo kind 0 m cause), back c)
  | (.none, c) => (.waits acc [], if c.remotes.contains sent then c else { c with remotes := c.remotes ++ [sent] })

/-! ## Effects at a spot -/

/-- Whether two doublewords may share a lock bit: they have one home, and are the same or hash alike (R131). -/
def sameLock (a b : Nat) : Bool :=
  decide (a = b) ||
    (decide (a / 2 ^ 33 = b / 2 ^ 33) && decide (2 ^ 51 ≤ a) && decide (Config.lockBit a = Config.lockBit b)) ||
    (decide (a / 2 ^ 48 = b / 2 ^ 48) && decide (a < 2 ^ 51) && decide (Config.lockBit a = Config.lockBit b))

/-- A synchronising access at its word (R126, R127): it waits, or is performed with its acquire. -/
def Chip.performSync (c : Chip) (w : Issuer) (s : Spot) (acc : Access) (form : SyncForm) (acq : Bool) (scope : BitVec 3)
    (value : Word) (sent : Option Nat) : Tried × Chip :=
  let full := c.isFull s.key
  let direct := match c.newest s.loc with
    | some v => v.syncRel.toList
    | none => []
  let finish (c : Chip) : Chip := if acq then c.acquireFor w scope direct else c
  let finishStore (c : Chip) : Chip := if acq then c.acquireFor w scope [] else c
  let c := c.dropLine w.who.tid s.loc
  let tid := some w.who.tid
  match form with
  | .ldwFf =>
    if full then
      let (v, c) := c.readLatest w.who.agent s.loc s.key
      (.x (v.signExtend 64), finish c)
    else (.waits acc [], c)
  | .ldwFe =>
    if full then
      let (v, c) := c.readLatest w.who.agent s.loc s.key
      (.x (v.signExtend 64), finish (c.setFull tid s.loc s.key false))
    else (.waits acc [], c)
  | .ldwNw =>
    let (v, c) := c.readLatest w.who.agent s.loc s.key
    (.x (0#31 ++ BitVec.ofBool full ++ v), finish c)
  | .stwEf =>
    if full then (.waits acc [], c)
    else (.nothing, finishStore ((c.storeAt w sent s (bytesOfWord value)).setFull tid s.loc s.key true))
  | .stwF => (.nothing, finishStore ((c.storeAt w sent s (bytesOfWord value)).setFull tid s.loc s.key true))
  | .purge => (.nothing, finishStore (c.setFull tid s.loc s.key false))

/-- An atomic on w bytes: the old value, and the new one written (R129). -/
def Chip.performAmo (c : Chip) (w : Issuer) (s : Spot) (op : AmoOp) (wide : Bool) (v : Dword) : Tried × Chip :=
  let c := c.dropLine w.who.tid s.loc
  let n := if wide then 8 else 4
  let (bs, c) := c.readBytesLatest w.who.agent s n
  if wide then
    let old := BitVec.ofNat 64 (natOfBytes bs)
    (.x old, c.storeAt w none s (bytesOfDword (amoApply op old v)))
  else
    let old := BitVec.ofNat 32 (natOfBytes bs)
    (.x (old.signExtend 64), c.storeAt w none s (bytesOfWord (amoApply op old (v.extractLsb' 0 32))))

/-- Some ldl waits for the lock bit of a doubleword: of the threads, one whose access has arrived (R132). -/
def Chip.ldlQueue (c : Chip) (loc : Nat) : Bool :=
  let queued (acc : Access) (l : List Placed) : Bool :=
    match acc with
    | .ldl _ => l.any fun p => sameLock p.spot.loc loc
    | _ => false
  c.threads.any fun e =>
    (match e.2.run with
      | .wait (.access _ acc l _ _ _) => queued acc l
      | _ => false) ||
    e.2.pend.any fun p => match p.access with
      | some acc => queued acc p.spots
      | none => false

/-- The wait and the take of ldl (R132). -/
def Chip.performLdl (c : Chip) (w : Issuer) (s : Spot) (acc : Access) : Tried × Chip :=
  let c := (c.releaseLock w.who.tid).dropLine w.who.tid s.loc
  if c.locks.any fun l => sameLock l.loc s.loc then (.waits acc [], c)
  else
    let (bs, c) := c.readBytesLatest w.who.agent s 8
    (.x (BitVec.ofNat 64 (natOfBytes bs)), { c with locks := c.locks ++ [⟨s.loc, w.who.tid, false⟩] })

/-- stu (R133). -/
def Chip.performStu (c : Chip) (w : Issuer) (s : Spot) (v : Dword) : Tried × Chip :=
  let c := c.dropLine w.who.tid s.loc
  match c.locks.find? fun l => decide (l.holder = w.who.tid) with
  | none => (.x 1, c)
  | some l =>
    let c := c.releaseLock w.who.tid
    if l.loc ≠ s.loc then (.x 2, c)
    else if l.broken then (.x 3, c)
    else (.x 0, c.storeAt w none s (bytesOfDword v))

/-- An access of a scalar form reads its word or doubleword, so that poison stops it (R68, R119). -/
def Access.reads : Access → Bool
  | .load _ _ => true
  | .sync .ldwFf _ _ _ _ _ _ => true
  | .sync .ldwFe _ _ _ _ _ _ => true
  | .sync .ldwNw _ _ _ _ _ _ => true
  | .amo _ _ _ _ => true
  | .cas _ _ _ => true
  | .cas128 _ _ _ _ _ => true
  | .ldl _ => true
  | _ => false

/-- The address, size, access kind, and the local window's need of both rights of a scalar form (R120). -/
def Access.scalar : Access → Option (Dword × Nat × Kind × Bool)
  | .load size a => some (a, 2 ^ size.toNat, .read, false)
  | .store size a _ => some (a, 2 ^ size.toNat, .write, false)
  | .sync .ldwFf _ _ _ a _ _ => some (a, 4, .read, true)
  | .sync .ldwNw _ _ _ a _ _ => some (a, 4, .read, true)
  | .sync _ _ _ _ a _ _ => some (a, 4, .write, true)
  | .amo _ wide a _ => some (a, if wide then 8 else 4, .atomic, true)
  | .cas a _ _ => some (a, 8, .atomic, true)
  | .cas128 a _ _ _ _ => some (a, 16, .atomic, true)
  | .ldl a => some (a, 8, .atomic, true)
  | .stu a _ _ => some (a, 8, .atomic, true)
  | _ => none

/-- The kind under which an access is checked (R295). -/
def Access.kind : Access → Kind
  | .mcst _ _ _ _ _ _ => .write
  | .fship _ _ _ _ => .write
  | .vstore _ _ _ => .write
  | .vstc _ _ _ _ _ _ _ => .write
  | acc => match acc.scalar with
    | some e => e.2.2.1
    | none => .read

/-- The bytes an access names (R277). -/
def Access.range : Access → Option (Dword × Nat)
  | .mcst a _ _ _ _ _ => some (a, 8)
  | .fship _ a _ _ => some (a &&& ~~~63, 64)
  | .vload a _ => some (a, 32)
  | .vstore a _ _ => some (a, 32)
  | .vldc a _ _ => some (a, 64)
  | .vstc a _ _ _ _ _ _ => some (a, 64)
  | acc => acc.scalar.map fun e => (e.1, e.2.1)

/-- A scalar form at its spot, after every check (R121 to R133). -/
def Chip.perform (c : Chip) (w : Issuer) (s : Spot) (acc : Access) : Tried × Chip :=
  match acc with
  | .load size _ =>
    let (bs, c) := c.readBytes w.who.agent s (2 ^ size.toNat)
    (.x (extendLoad size (BitVec.ofNat 64 (natOfBytes bs))), c)
  | .store size _ v => (.nothing, c.storeAt w none s (bytesOfSize size v))
  | .sync form acq _ scope _ v sent => c.performSync w s acc form acq scope v sent
  | .amo op wide _ v => c.performAmo w s op wide v
  | .cas _ expect new =>
    let c := c.dropLine w.who.tid s.loc
    let (bs, c) := c.readBytesLatest w.who.agent s 8
    let old := BitVec.ofNat 64 (natOfBytes bs)
    (.x old, if old = expect then c.storeAt w none s (bytesOfDword new) else c)
  | .cas128 _ eLo eHi nLo nHi =>
    let c := c.dropLine w.who.tid s.loc
    let (bs, c) := c.readBytesLatest w.who.agent s 16
    let lo := BitVec.ofNat 64 (natOfBytes (bs.take 8))
    let hi := BitVec.ofNat 64 (natOfBytes (bs.drop 8))
    (.done (.pair lo hi) 0 none,
      if lo = eLo && hi = eHi then c.storeAt w none s (bytesOfDword nLo ++ bytesOfDword nHi) else c)
  | .ldl _ => c.performLdl w s acc
  | .stu _ v _ => c.performStu w s v
  | _ => (.held, c)

/-! ## Order among a thread's own accesses (R277) -/

/-- The canonical address of an address of this module, for a thread (R76). -/
def homeLoc (g : Mgmt) (tid : TId) (a : Dword) : Option Nat :=
  match classify g a with
  | some (.window off) => some (sliceLoc tid.coreId off)
  | some (.slice k off) => some (sliceLoc k off)
  | some (.heap d off) => some (heapLoc d off)
  | _ => none
/-- A number for an address's place, the same for the same byte, and that of no byte of this module where it names none. -/
def Chip.locOf (g : Mgmt) (tid : TId) (a : Dword) : Nat := (homeLoc g tid a).getD (2 ^ 64 + a.toNat)

/-- The bytes of the rows of a drain, and of what other instructions of several accesses read or count (R222, R238 to R242, R253,
R254). -/
def lateParts (i : Instr) (v : List Dword) : List (Dword × Nat) :=
  let x (k : Nat) : Dword := v.getD k 0
  match i with
  | .tload _ _ _ _ => [(x 0, 1024)]
  | .tdrain _ _ _ fmt _ _ _ => (List.range 16).map fun r => (x 0 + BitVec.ofNat 64 r * x 1, 2 * (formatOf4 fmt).width)
  | .resld _ _ _ => [(x 0, 1024)]
  | .resldSparse _ _ _ _ => [(x 0, 1152)]
  | .cbld _ _ => [(x 0, 1024)]
  | .cld _ _ _ _ _ _ _ _ _ => [(x 1, 32)]
  | .spawn _ xc _ _ => if xc = 0 then [(x 1, 64)] else [(x 0, 4), (x 1, 64)]
  | .disp _ _ _ _ => [(x 0, 64)]
  | .sqk _ _ _ _ => [(x 0, 2 * (x 1).toNat)]
  | _ => []

/-- The tiles that an instruction names (R220). -/
def lateTiles : Instr → List (BitVec 2)
  | .tzero _ _ acc => [acc]
  | .tload _ _ acc _ => [acc]
  | .tmov _ d s => [d, s]
  | .tcov _ _ acc => [acc]
  | .tstat _ _ acc => [acc]
  | .tdrain _ _ _ _ acc _ _ => [acc]
  | .cld _ _ _ _ _ acc _ _ _ => [acc]
  | _ => []
/-- An instruction takes a place in its cluster's order of loads (R240). -/
def takesPlace : Instr → Bool
  | .resld _ _ _ => true
  | .resldSparse _ _ _ _ => true
  | .cbld _ _ => true
  | .cld _ _ _ _ _ _ _ _ _ => true
  | _ => false
/-- An instruction stands behind one that its thread has moved past: of a tile of its own, or of its cluster's order of loads. -/
def behindLate (earlier : List Pending) (i : Instr) : Bool :=
  earlier.any fun p => match p.access with
    | some (.late j _) => (lateTiles j).any (lateTiles i).contains || (takesPlace i && takesPlace j)
    | some (.tile _ a) => (lateTiles i).contains a
    | _ => false

/-- The parts of an access: each one's address, its bytes, and its lane. An inactive lane is no part of it (R193, R277). -/
def Access.parts : Access → List (Dword × Nat × BitVec 3)
  | .vload a act => (lanes8.filter (active act)).map fun i => (a + ((i.setWidth 64 : Dword) <<< (2 : Nat)), 4, i)
  | .vstore a act _ => (lanes8.filter (active act)).map fun i => (a + ((i.setWidth 64 : Dword) <<< (2 : Nat)), 4, i)
  | .late i v => (lateParts i v).map fun e => (e.1, e.2, 0)
  | acc => acc.range.toList.map fun e => (e.1, e.2, 0)

/-- The bytes of two accesses meet. -/
def meetsBytes (g : Mgmt) (tid : TId) (acc b : Access) : Bool :=
  acc.parts.any fun p => b.parts.any fun q =>
    let x := Chip.locOf g tid p.1
    let y := Chip.locOf g tid q.1
    decide (x < y + q.2.1) && decide (y < x + p.2.1)

/-- An access stands behind an earlier access of its thread that still waits: on bytes of its own (R277, R354); or an `.acq`
access, whose acquire comes before any later access (R127, R280); or a read that an acquire made since then follows (R281). An
`.acq` access also stands behind a read, which its acquire follows (R281), and an ldl behind an ldl (R132). -/
def behind (g : Mgmt) (w : Issuer) (earlier : List Pending) (acc : Access) : Bool :=
  !acc.parts.isEmpty && earlier.any fun p =>
    match p.access with
    | none => false
    | some b => meetsBytes g w.who.tid acc b || b.acquires ||
        (b.readsMem && (acc.acquires || decide (w.acqs.length < p.acqs.length))) ||
        (match acc, b with
          | .ldl _, .ldl _ => true
          | _, _ => false)

/-- The release of a synchronising access, once (R127), before it joins the list or is performed. -/
def Chip.sendRelease (c : Chip) (w : Issuer) (earlier : List Pending) (acc : Access) : Access × Chip :=
  match acc with
  | .sync form acq true scope a v none =>
    let (n, c) := c.releaseFor w earlier scope
    (.sync form acq true scope a v (some n), c)
  | _ => (acc, c)

/-- An access that has passed its checks must still wait: behind an earlier access of its thread; and one whose release is still
to be made, until the thread's earlier stores have been performed and its earlier acquires made (R127, R280, R282). -/
def mustWait (g : Mgmt) (w : Issuer) (earlier : List Pending) (acc : Access) : Bool :=
  behind g w earlier acc || (match acc with
    | .sync _ _ true _ _ _ none => unready earlier
    | _ => false)

/-- What the checks of an access find (R120): where it acts; with `zero`, once pages have been zeroed (R92). -/
inductive Checked where
  | placed (l : List Placed) (zero : Bool)
  | stop (cause : Cause) (addr info : Dword)
  | absent (page a info : Dword)
  | den (off : Nat)
  | away (m : BitVec 12)
  /-- another module has not answered for a lane -/
  | later
  deriving DecidableEq, Repr

/-- The checks of one aligned access of n bytes within a cell (R120, steps 2 to 5); poison is looked for where the access
reads. -/
def Chip.checkOne (g : Mgmt) (c : Chip) (w : Issuer) (kind : Kind) (rw reads : Bool) (a : Dword) (align n : Nat) :
    Checked × Chip :=
  if !alignedTo a align then (.stop Cause.misalign a (BitVec.ofNat 64 align), c)
  else
    match c.reach g w.who kind rw a n with
    | (.fails cause, c) => (.stop cause a (accessInfo kind 0), c)
    | (.absent page, c) => (.absent page a (accessInfo kind 0), c)
    | (.zeroing _ _ s e, c) => (.placed [⟨s, e⟩] true, c)
    | (.den off, c) => (.den off, c)
    | (.away m, c) => (.away m, c)
    | (.ok s e, c) =>
      if reads && c.anyPoison s.key n then
        (.stop Cause.memPoison (a + BitVec.ofNat 64 (c.firstPoison s.key n)) (accessInfo kind 0), c)
      else (.placed [⟨s, e⟩] false, c)

/-- A page that a placed access waits for is still to be zeroed (R92). -/
def Chip.unzeroed (c : Chip) (l : List Placed) : Bool :=
  l.any fun p => entryZero p.leaf && (c.zeroing.contains (pageOf p.spot.loc, false, p.leaf) ||
    c.zeroing.contains (globalOf (p.spot.loc / 2 ^ 10 * 2 ^ 10), true, p.leaf))

/-- A scalar form acts: poison that has come since its checks stops it (R68, R119). -/
def Chip.actScalar (c : Chip) (w : Issuer) (acc : Access) (p : Placed) : Tried × Chip :=
  match acc.scalar with
  | some (a, n, kind, _) =>
    if acc.reads && c.anyPoison p.spot.key n then
      (.stop Cause.memPoison (a + BitVec.ofNat 64 (c.firstPoison p.spot.key n)) (accessInfo kind 0), c)
    else c.perform w p.spot acc
  | none => (.held, c)

/-! ## Vector accesses (R193 to R195) -/

/-- A lane in the Den window, which reads 0 and takes no write; and a lane that another module has answered. -/
def denLane : Placed := ⟨⟨2 ^ 65, 0⟩, 0⟩
def awayLane (v : Dword) : Placed := ⟨⟨2 ^ 64 + v.toNat, 0⟩, 0⟩
def Placed.outside (p : Placed) : Bool := decide (2 ^ 64 ≤ p.spot.loc)

/-- The checks of the active lanes in ascending order (R193): the first failing lane decides; then the first that meets an
absent page. -/
def Chip.laneChecks (g : Mgmt) (w : Issuer) (kind : Kind) (a : Dword) :
    List (BitVec 3) → Option Checked → List Placed → Bool → Chip → Checked × Chip
  | [], wait, l, zero, c => (wait.getD (.placed l zero), c)
  | i :: rest, wait, l, zero, c =>
    let b := a + ((i.setWidth 64 : Dword) <<< (2 : Nat))
    match c.reach g w.who kind false b 4 with
    | (.fails cause, c) => (.stop cause b (accessInfo kind i), c)
    | (.absent page, c) => Chip.laneChecks g w kind a rest (some (wait.getD (.absent page b (accessInfo kind i)))) l zero c
    | (.zeroing _ _ s e, c) => Chip.laneChecks g w kind a rest wait (l ++ [⟨s, e⟩]) true c
    | (.den _, c) => Chip.laneChecks g w kind a rest wait (l ++ [denLane]) zero c
    | (.away m, c) =>
      match c.remoteAnswer with
      | (.value v, c) => Chip.laneChecks g w kind a rest wait (l ++ [awayLane v]) zero c
      | (.cause cause, c) => (.stop cause b (remoteInfo kind i m cause), c)
      | (.none, c) =>
        let sent : Remote := ⟨w.who.tid, m⟩
        Chip.laneChecks g w kind a rest (some (wait.getD .later)) l zero
          (if c.remotes.contains sent then c else { c with remotes := c.remotes ++ [sent] })
    | (.ok s e, c) =>
      if decide (kind = .read) && c.anyPoison s.key 4 then (.stop Cause.memPoison b (accessInfo kind i), c)
      else Chip.laneChecks g w kind a rest wait (l ++ [⟨s, e⟩]) zero c

/-- The checks of a lane access: alignment even with no lane active (R193). Requests to other modules that have been answered
are no longer on their way. -/
def Chip.checkLanes (g : Mgmt) (c : Chip) (w : Issuer) (kind : Kind) (a : Dword) (act : Byte) : Checked × Chip :=
  if !alignedTo a 4 then (.stop Cause.misalign a 4, c)
  else
    let parts := (Access.vload a act).parts
    let mine (r : Remote) : Bool := decide (r.tid = w.who.tid) && parts.any fun p => decide (classify g p.1 = some (.remote r.module))
    Chip.laneChecks g w kind a (lanes8.filter (active act)) none [] false
      (if c.remotes.any mine then { c with remotes := c.remotes.filter fun r => !mine r } else c)

/-- vld (R193): each lane's word is read on its own; a lane of another module holds the value it answered. Poison that has come
since the checks stops the first lane that meets it (R68, R119). -/
def Chip.actVload (c : Chip) (w : Issuer) (a : Dword) (act : Byte) (l : List Placed) : Tried × Chip :=
  let lanes := (lanes8.filter (active act)).zip l
  match lanes.find? fun e => !e.2.outside && c.anyPoison e.2.spot.key 4 with
  | some e => (.stop Cause.memPoison (a + ((e.1.setWidth 64 : Dword) <<< (2 : Nat))) (accessInfo .read e.1), c)
  | none =>
    let (v, c) := lanes.foldl (fun (r : Lanes Word × Chip) e =>
      if e.2.outside then (r.1.set e.1 (BitVec.ofNat 32 e.2.spot.loc), r.2)
      else
        let (w, c) := r.2.readWord w.who.agent e.2.spot.loc e.2.spot.key
        (r.1.set e.1 w, c)) (⟨0, 0, 0, 0, 0, 0, 0, 0⟩, c)
    (.done (.v v) 0 none, c)

/-- vst (R193): its words are apart from one another (R58). A drawn number of them, from a drawn one on, is written now, and the
others later. -/
def Chip.actVstore (c : Chip) (w : Issuer) (a : Dword) (act : Byte) (lanes : Lanes Word) (l : List Placed) : Tried × Chip :=
  let todo := (lanes8.filter (active act)).zip l
  let (first, c) := c.draw todo.length
  let (more, c) := c.draw todo.length
  let now := ((todo.drop first ++ todo.take first).take (more + 1)).map Prod.fst
  let c := (todo.filter fun e => now.contains e.1).foldl (fun (c : Chip) e =>
    if e.2.outside then c else c.storeAt w none e.2.spot (bytesOfWord (lanes.get e.1))) c
  match todo.filter fun e => !now.contains e.1 with
  | [] => (.nothing, c)
  | rest => (.waits (.vstore a (maskOf fun i => act.getLsbD i.toNat && !now.contains i) lanes) (rest.map Prod.snd), c)

/-- The value of a word at a moment: its latest version not after it. -/
def versionAt (h : WordHistory) (t : Nat) : Option Version := h.versions.find? fun v => decide (v.id ≤ t)

/-- A heap cell read whole, from one of its states that the agent may still see (R58, R97, R278). floor gives the
earliest version of a word that may be returned. -/
def Chip.cellState (c : Chip) (floor : Nat → Nat) (s : Spot) : List Byte × List (Nat × Version) × Chip :=
  let words := wordsTouched s.loc 64
  let hs := words.filterMap fun w => ((historyGet c.hist w).filter fun h =>
    h.current (Mem.word c.mem (s.key + (w - s.loc)))).map fun h => (w, h)
  let moments := (hs.map fun e => e.2.versions.map Version.id).flatten
  let fits (t : Nat) : Bool := hs.all fun e => match versionAt e.2 t with
    | some v => decide (floor e.1 ≤ v.id)
    | none => false
  let newest := hs.filterMap fun e => e.2.versions.head?.map fun v => (e.1, v)
  let states := moments.dedup.filter fits
  let (i, c) := c.draw states.length
  match states[i]? with
  | none => (Mem.bytes c.mem s.key 64, newest, c)
  | some t =>
    let seen := hs.filterMap fun e => (versionAt e.2 t).map fun v => (e.1, v)
    let bytes := (words.map fun w =>
      match seen.find? fun e => decide (e.1 = w) with
      | some e => bytesOfWord e.2.value
      | none => Mem.bytes c.mem (s.key + (w - s.loc)) 4).flatten
    (bytes, seen, c)

/-- The 64 bytes of a cell as an arithmetic path of an agent reads them once (R97): a slice cell word by word, a heap
cell from one state. -/
def Chip.readCell (c : Chip) (a : AgentId) (s : Spot) : List Byte × Chip :=
  if isSliceKey s.key then c.readBytes a s 64
  else
    let r := c.agent a
    let (bytes, seen, c) := c.cellState (c.floorOf r) s
    (bytes, seen.foldl (fun (c : Chip) e => c.noteRead a e.1 e.2) c)

/-- A cell is read as described: a slice cell, or one of a page with DESC (R98). -/
def described (s : Spot) (e : Dword) : Bool := isSliceKey s.key || entryDesc e

/-- The format of a cell for vldc and vstc (R99, R100). -/
def laneFormat (s : Spot) (e : Dword) (fmt : Byte) : Option Format := if described s e then formatOfCell fmt else none

/-- vldc (R194), after its checks. -/
def Chip.actVldc (c : Chip) (w : Issuer) (a : Dword) (grp : BitVec 4) (act : Byte) (p : Placed) : Tried × Chip :=
  if c.anyPoison p.spot.key 64 then
    (.stop Cause.memPoison (a + BitVec.ofNat 64 (c.firstPoison p.spot.key 64)) (accessInfo .read 0), c)
  else
    let (cell, c) := c.readCell w.who.agent p.spot
    (loadCell (laneFormat p.spot p.leaf (byteAt cell 0)) a grp act cell, c)

/-- The words of a cell, by their offset, that vstc writes for its active lanes. -/
def touchedWords (f : Format) (grp : BitVec 4) (act : Byte) : List Nat :=
  ((lanes8.filter (active act)).filterMap fun i =>
    let k := 8 * grp.toNat + i.toNat
    if k < f.count then some (elementByte f k / 4 * 4) else none).dedup

/-- vstc (R195), after its checks: on a heap cell one indivisible access, on a slice cell word by word. -/
def Chip.actVstc (c : Chip) (w : Issuer) (a : Dword) (grp : BitVec 4) (act : Byte) (lanes : Lanes Word) (rm : BitVec 3)
    (sat : Bool) (seed : Dword) (p : Placed) : Tried × Chip :=
  let s := p.spot
  let fmtOf := laneFormat s p.leaf (Mem.get c.mem s.key)
  let read := 0 :: (match fmtOf with | some f => touchedWords f grp act | none => [])
  let bad := if isSliceKey s.key then read.find? fun o => c.anyPoison (s.key + o) 4
    else if c.anyPoison s.key 64 then some 0 else none
  match bad with
  | some o => (.stop Cause.memPoison (a + BitVec.ofNat 64 o) (accessInfo .write 0), c)
  | none =>
    let (cell, c) := c.readBytesLatest w.who.agent s 64
    match fmtOf with
    | none => (.stop Cause.formatUnknown a 0, c)
    | some f =>
      let (out, fl) := storeLanes f s.loc cell grp act lanes rm sat seed
      let parts := (touchedWords f grp act).map fun o => ((⟨s.loc + o, s.key + o⟩ : Spot), (out.drop o).take 4)
      (.done .none fl none,
        if isSliceKey s.key then parts.foldl (fun (c : Chip) e => c.storeAt w none e.1 e.2) c else c.storeParts w parts)

/-! ## Multicast (R135 to R137) -/

/-- The dies of the copies of a page, by mask bit (R135). -/
def replicaDie (e : Dword) (home : BitVec 3) (bit : BitVec 2) : Option (BitVec 3) :=
  if bit = 0 then some home
  else
    let (v, d) := entryRepd e (bit.toNat - 1)
    if entryRepl e && v then some d else none

/-- How one member of the set fares (R135). -/
inductive Member where
  | written
  | waits
  | failed (cause : Cause)
  deriving DecidableEq, Repr

/-- One member: the home is written where the instruction's own translation placed it, another where die t translates it, and
one in the Den window is discarded (R330). -/
def Chip.mcstMember (g : Mgmt) (c : Chip) (w : Issuer) (home : Placed) (bit : BitVec 2) (die : BitVec 3) (off : Nat)
    (value : Dword) : Member × Chip :=
  if bit = 0 then (.written, c.storeAt w none home.spot (bytesOfDword value))
  else if (denOffset g die off).isSome then (.written, c)
  else
    match c.reachHeap w.who .write die off with
    | (.ok s _, c) => (.written, c.storeAt w none s (bytesOfDword value))
    | (.fails cause, c) => (.failed cause, c)
    | (_, c) => (.waits, c)

/-- Members tried in turn: those that still wait, and the failures so far. -/
def Chip.mcstMembers (g : Mgmt) (c : Chip) (w : Issuer) (home : Placed) (die : BitVec 3) (off : Nat) (value : Dword)
    (left : List (BitVec 2)) (failed : BitVec 4) (cause : Byte) : List (BitVec 2) × BitVec 4 × Byte × Chip :=
  left.foldl (fun (r : List (BitVec 2) × BitVec 4 × Byte × Chip) bit =>
    let (wait, failed, cause, c) := r
    match replicaDie home.leaf die bit with
    | none => r
    | some t =>
      match c.mcstMember g w home bit t off value with
      | (.written, c) => (wait, failed, cause, c)
      | (.waits, c) => (wait ++ [bit], failed, cause, c)
      | (.failed k, c) =>
        let low := (List.range bit.toNat).all fun i => !failed.getLsbD i
        (wait, failed ||| (1#4 <<< bit.toNat), if low then k else cause, c)) ([], failed, cause, c)

/-- mcst (R135), after the translation at the home. The members' writes are apart from one another (R137): a drawn number of
them, in a drawn order, is tried now, and the others later. -/
def Chip.actMcst (g : Mgmt) (c : Chip) (w : Issuer) (a value : Dword) (mask : Option (BitVec 4))
    (left : Option (List (BitVec 2))) (failed : BitVec 4) (cause : Byte) (p : Placed) : Tried × Chip :=
  match homeHeap g a with
  | none => (.nothing, (c.dropLine w.who.tid p.spot.loc).storeAt w none p.spot (bytesOfDword value))
  | some (die, off) =>
    let c := c.dropLine w.who.tid p.spot.loc
    let all : List (BitVec 2) := [0, 1, 2, 3]
    let todo := left.getD (all.filter fun b => (replicaDie p.leaf die b).isSome && (match mask with
      | none => true
      | some m => m.getLsbD b.toNat))
    let (first, c) := c.draw todo.length
    let order := todo.drop first ++ todo.take first
    let (more, c) := c.draw todo.length
    let (wait, failed, cause, c) := Chip.mcstMembers g c w p die off value (order.take (more + 1)) failed cause
    let wait := wait ++ order.drop (more + 1)
    if !wait.isEmpty then (.waits (.mcst a value mask (some wait) failed cause) [p], c)
    else if failed ≠ 0 then (.stop Cause.mcastPartial w.iaddr (0#48 ++ cause ++ 0#4 ++ failed), c)
    else (.nothing, c)

/-! ## fship (R71 to R74) -/

/-- The cell, its full/empty bits and its waiters after a routine (R71). -/
def Chip.writeBack (c : Chip) (w : Issuer) (s : Spot) (cell : CellCopy) (full : BitVec 16) : Chip :=
  let c := if cell.stored then c.storeAt w none s cell.bytes else c
  (List.range 16).foldl (fun (c : Chip) i =>
    c.setFull (some w.who.tid) (s.loc + 4 * i) (s.key + 4 * i) (full.getLsbD i)) c

/-- The checks of fship (R72): of the address, of its translation, of the slot, then of the cell. FAULTADDR of MEM_POISON is the
shipped address, as it is for fship's own causes: a DESIGN CHOICE (log 66). -/
def Chip.checkShip (g : Mgmt) (c : Chip) (w : Issuer) (slot : BitVec 6) (a : Dword) : Checked × Chip :=
  if a.extractLsb' 52 12 = 0 || a.getLsbD 51 then (.stop Cause.shipSpace a (shipInfo slot 0 0), c)
  else
    match c.checkOne g w .write false false a 1 1 with
    | (.placed [p] zero, c) =>
      if (tableGet c.routines slot).isNone then (.stop Cause.shipEmpty a (shipInfo slot 0 0), c)
      else
        let o := p.spot.loc % 64
        let s : Spot := ⟨p.spot.loc - o, p.spot.key - o⟩
        if !zero && c.anyPoison s.key 64 then (.stop Cause.memPoison a (accessInfo .write 0), c)
        else (.placed [⟨s, p.leaf⟩] zero, c)
    | r => r

/-- fship (R72), after its checks. The inner cause of an abort that the manual gives no cause is a free value. -/
def Chip.actShip (c : Chip) (w : Issuer) (slot : BitVec 6) (a opA opB : Dword) (p : Placed) : Tried × Chip :=
  match tableGet c.routines slot with
  | none => (.stop Cause.shipEmpty a (shipInfo slot 0 0), c)
  | some code =>
    let s := p.spot
    if c.anyPoison s.key 64 then (.stop Cause.memPoison a (accessInfo .write 0), c)
    else
      let c := c.dropLine w.who.tid s.loc
      let (bytes, c) := c.readBytesLatest w.who.agent s 64
      let full := (List.range 16).map fun i => c.isFull (s.key + 4 * i)
      match badgerRun code bytes full (a.toNat % 64) slot opA opB with
      | (r, cell, .ended) => (.x (r.get 1), c.writeBack w s cell ((r.get 4).extractLsb' 0 16))
      | (r, _, .aborted (some k)) => (.stop Cause.shipAbort a (shipInfo slot r.steps k), c)
      | (r, _, .aborted none) =>
        let (v, c) := c.free
        (.stop Cause.shipAbort a (shipInfo slot r.steps (v.extractLsb' 0 8)), c)

/-! ## Jobs watched and collected (R151 to R155) -/

/-- A live job by its ID (R139, R140). -/
def Chip.jobOf (c : Chip) (cluster : CId) (ident : Dword) : Option Job :=
  c.jobs.find? fun j => decide (j.cluster = cluster) && decide (j.ident = ident)
/-- A job set. -/
def Chip.setJob (c : Chip) (j : Job) : Chip :=
  { c with jobs := c.jobs.map fun k => if decide (k.cluster = j.cluster) && decide (k.entry = j.entry) then j else k }
/-- A job's entry freed (R140). -/
def Chip.freeJob (c : Chip) (j : Job) : Chip :=
  { c with jobs := c.jobs.filter fun k => !(decide (k.cluster = j.cluster) && decide (k.entry = j.entry)) }

/-- The bytes that a job writes, of those whose operands give it (R142, R147). -/
def JobKind.length : JobKind → Nat
  | .cpy _ _ n => n
  | .cpy2 _ _ w h _ _ => w * h
  | .gath _ _ _ c e => c * e
  | .scat _ _ _ c e => c * e
  | _ => 0

/-- A job's write pointer (R151); that of a contracting load is 0 in every state (R226). -/
def Job.wp (j : Job) : Nat :=
  match j.kind with
  | .cld _ => 0
  | .cut _ _ _ _ => if j.streamed || j.state = .done then 4 * j.landed else 0
  | k => if j.streamed then 4 * j.landed else if j.state = .done then k.length else 0

def JobState.code : JobState → BitVec 2
  | .queued => 0
  | .running => 1
  | .done => 2
  | .faulted _ => 3
  | .stopped _ _ _ => 1

/-- The status word (R152). -/
def Job.status (j : Job) : Dword :=
  let cause : Byte := match j.state with | .faulted k => k | _ => 0
  j.state.code ++ 0#6 ++ cause ++ 0#8 ++ BitVec.ofNat 40 j.wp

/-- The result of a jwait or jpoll whose job is over, and its snapshot (R153, R155, R173): a cut's bounds, and the
flags that a collected contracting load sets. -/
def Job.collected (j : Job) : Tried :=
  let fl := if j.operr then flagOperr else 0
  let snap : Snap := ⟨j.wrote, [], j.missed && decide (j.state = .done)⟩
  match j.kind, j.state, j.bounds with
  | .cut _ _ _ first, .done, some (b1, b2, b3) => .done (.group j.status b1 b2 b3 first) fl (some snap)
  | _, _, _ => .done (.x j.status) fl (some snap)

/-- wptr, jwait and jpoll (R152). -/
def Chip.tryJob (c : Chip) (w : Issuer) (acc : Access) : Tried × Chip :=
  let ident := match acc with | .wptr i _ => i | .jwait i => i | .jpoll i => i | _ => 0
  match c.jobOf w.who.tid.cluster ident with
  | none => (.stop Cause.jobId 0 0, c)
  | some j =>
    if w.who.agent ≠ .task j.task then (.stop Cause.jobId 0 0, c)
    else match acc with
      | .wptr _ bytes =>
        let met := match bytes with | some n => decide (n.toNat ≤ j.wp) | none => true
        if met || j.state.over then
          (.done (.x (BitVec.ofNat 64 j.wp)) 0 (some ⟨[], if j.streamed then j.wrote else [], false⟩), c)
        else (.waits acc [], c)
      | .jwait _ => if j.state.over then (j.collected, c.freeJob j) else (.waits acc [], c)
      | _ => if j.state.over then (j.collected, c.freeJob j) else (.done (.x j.status) 0 (some ⟨[], [], false⟩), c)

/-! ## Tiles looked at (R241) -/

/-- The status word of tstat (R241). -/
def Chip.tileStatus (c : Chip) (x : Tile) : Dword :=
  0#48 ++ BitVec.ofNat 8 (c.jobs.filter fun j => j.loads x.task x.acc).length ++ 0#2 ++ x.bits
/-- What tcov or tstat writes of a tile as it stands. -/
def Chip.tileWord (c : Chip) (status : Bool) (x : Tile) : Dword := if status then c.tileStatus x else x.cov
/-- tcov or tstat whose moment is still to come: it is now, or later (R241, log 19). -/
def Chip.tryTile (c : Chip) (w : Issuer) (status : Bool) (acc : BitVec 2) : Tried × Chip :=
  let task := match w.who.agent with | .task n => n | _ => 0
  match c.tile task acc.toNat with
  | none => (.stop Cause.tileState 0 0, c)
  | some x =>
    let (i, c) := c.draw 2
    if i = 1 then (.waits (.tile status acc) [], c) else (.x (c.tileWord status x), c)

/-! ## Attempts -/

/-- The checks of a memory access, in their order (R72, R120, R193 to R195). -/
def Chip.checks (g : Mgmt) (c : Chip) (w : Issuer) (acc : Access) : Checked × Chip :=
  match acc with
  | .mcst a _ _ _ _ _ => c.checkOne g w .write false false a 8 8
  | .fship slot a _ _ => c.checkShip g w slot a
  | .vload a act => c.checkLanes g w .read a act
  | .vstore a act _ => c.checkLanes g w .write a act
  | .vldc a _ _ => c.checkOne g w .read false true a 64 64
  | .vstc a _ _ _ _ _ _ => c.checkOne g w .write false false a 64 64
  | acc => match acc.scalar with
    | some (a, n, kind, rw) => c.checkOne g w kind rw acc.reads a n n
    | none => (.placed [] false, c)

/-- The effect of a memory access where its checks have placed it. -/
def Chip.act (g : Mgmt) (c : Chip) (w : Issuer) (acc : Access) (l : List Placed) : Tried × Chip :=
  let r : Tried × Chip := match acc, l with
    | .vload a act, l => c.actVload w a act l
    | .vstore a act lanes, l => c.actVstore w a act lanes l
    | .mcst a v mask left failed cause, [p] => c.actMcst g w a v mask left failed cause p
    | .fship slot a x y, [p] => c.actShip w slot a x y p
    | .vldc a grp act, [p] => c.actVldc w a grp act p
    | .vstc a grp act lanes rm sat seed, [p] => c.actVstc w a grp act lanes rm sat seed p
    | acc, [p] => c.actScalar w acc p
    | acc, _ => (.waits acc [], c)
  match r with
  | (.waits acc' [], c) => (.waits acc' l, c)
  | r => r

/-- The hoard serves a plain load, or the active lanes of a vector load, that lies wholly in a line (R161, R193); nothing else, no
address without a form (R78), and no load behind its thread's own waiting access. -/
def Chip.hoarded (g : Mgmt) (c : Chip) (w : Issuer) (earlier : List Pending) (acc : Access) : Option Tried × Chip :=
  if c.hoard.isEmpty || behind g w earlier acc then (none, c)
  else
    match acc with
    | .load size a =>
      let n := 2 ^ size.toNat
      match homeLoc g w.who.tid a with
      | some loc =>
        if !alignedTo a n then (none, c)
        else match c.serveHoard w (wordsTouched loc n) with
          | (some ws, c) =>
            let bs := ((ws.flatMap bytesOfWord).drop (loc % 4)).take n
            (some (.x (extendLoad size (BitVec.ofNat 64 (natOfBytes bs)))), c)
          | (none, c) => (none, c)
      | none => (none, c)
    | .vload a act =>
      let lanes := lanes8.filter (active act)
      match lanes.mapM fun i => homeLoc g w.who.tid (a + ((i.setWidth 64 : Dword) <<< (2 : Nat))) with
      | some locs =>
        if !alignedTo a 4 then (none, c)
        else match c.serveHoard w locs with
          | (some ws, c) =>
            (some (.done (.v ((lanes.zip ws).foldl (fun (v : Lanes Word) e => v.set e.1 e.2) ⟨0, 0, 0, 0, 0, 0, 0, 0⟩)) 0 none), c)
          | (none, c) => (none, c)
      | none => (none, c)
    | _ => (none, c)

/-- The bytes or lanes of an access in the Den window: no described cell is there. -/
def Chip.denOrStop (g : Mgmt) (c : Chip) (w : Issuer) (earlier : List Pending) (off : Nat) (acc : Access) : Tried × Chip :=
  match acc with
  | .vldc a _ _ => (.stop Cause.formatUnknown a 0, c)
  | .vstc a _ _ _ _ _ _ => (.stop Cause.formatUnknown a 0, c)
  | _ => c.denTry g w earlier off acc

/-- A store or a swap of a doubleword at an offset of the Den window is a wake, with its release (R330). -/
def Access.wakes (off : Nat) : Access → Bool
  | .store 3#2 _ _ => decide (off % 64 = 0)
  | .amo .swap true _ _ => decide (off % 64 = 0)
  | _ => false

/-- A memory access at its issue: every check, its release, then its effect, or its wait (R92, R124, R127, R277). In a handler
an access that finds TIER = 2 waits (R306). -/
def Chip.attemptMem (g : Mgmt) (c : Chip) (w : Issuer) (earlier : List Pending) (acc : Access) : Tried × Chip :=
  match c.hoarded g w earlier acc with
  | (some t, c) => (t, c)
  | (none, c0) =>
    match c0.checks g w acc with
    | (.stop cause a info, c) => (.stop cause a info, Chip.unasked c0 c)
    | (.absent page a info, c) =>
      if (c.thread w.who.tid).handler.isSome then
        (.waits acc [], match acc with | .ldl _ => c.releaseLock w.who.tid | _ => c)
      else (.absent page a info, c)
    | (.later, c) => (.waits acc [], c)
    | (.den off, c) =>
      if mustWait g w earlier acc || (acc.wakes off && unready earlier) then (.waits acc [], c)
      else
        let (acc, c) := c.sendRelease w earlier acc
        c.denOrStop g w earlier off acc
    | (.away m, c) =>
      if mustWait g w earlier acc then (.waits acc [], c)
      else
        let (acc, c) := c.sendRelease w earlier acc
        let (acc, c) := c.sendAway w acc
        c.remoteTry w acc.kind ((acc.range.map Prod.fst).getD 0) m acc
    | (.placed l zero, c) =>
      let (queued, c) := match acc, l with
        | .ldl _, [p] => let c := c.releaseLock w.who.tid; (c.ldlQueue p.spot.loc, c)
        | _, _ => (false, c)
      if zero || queued || mustWait g w earlier acc then (.waits acc l, c)
      else
        let (acc, c) := c.sendRelease w earlier acc
        c.act g w acc l

/-- wptr or jwait writes its result once the earlier reads of its thread have been performed: its acquire follows them (R153,
R281). jpoll, and wptr of x0, answer at once (R152). -/
def Chip.watchJob (c : Chip) (w : Issuer) (earlier : List Pending) (acc : Access) : Tried × Chip :=
  match c.tryJob w acc with
  | (.done r flags snap, c') => if unread earlier then (.waits acc [], c) else (.done r flags snap, c')
  | r => r

/-- An access at its issue, or the watch or collection of a job (R152); an instruction of several accesses is tried where its
waits are served. -/
def Chip.attempt (g : Mgmt) (c : Chip) (w : Issuer) (earlier : List Pending) (acc : Access) : Tried × Chip :=
  match acc with
  | .wptr _ none => c.tryJob w acc
  | .wptr _ _ => c.watchJob w earlier acc
  | .jwait _ => c.watchJob w earlier acc
  | .jpoll _ => c.tryJob w acc
  | .tile status a => c.tryTile w status a
  | .late _ _ => (.held, c)
  | .job _ _ _ _ _ _ => (.held, c)
  | acc => c.attemptMem g w earlier acc

/-- An access that waits, tried again (R124, R132, R277): where it has passed its checks, its conditions alone decide, and
it acts where its translation placed it (R93); else it is attempted anew. -/
def Chip.again (g : Mgmt) (c : Chip) (w : Issuer) (earlier : List Pending) (acc : Access) (l : List Placed) :
    Tried × Chip :=
  if l.isEmpty then c.attempt g w earlier acc
  else if mustWait g w earlier acc || c.unzeroed l then (.waits acc l, c)
  else
    let (acc, c) := c.sendRelease w earlier acc
    c.act g w acc l

/-- After a pending access has been performed: releases at `.sy` that waited for it complete (R287), and the acquires made while
it waited are after its read (R281). pend holds the entries of its thread as they now are. -/
def Chip.settleAccess (c : Chip) (w : Issuer) (pend : List Pending) (p : Pending) : Chip :=
  p.acqs.foldl (fun (c : Chip) scope => c.acquireFor w scope []) (c.completeRels w.who.agent pend p.rels)

/-- The arrivals of the waiting accesses of the module that act at a place which passes a test. -/
def Chip.arrivalsPlaced (c : Chip) (test : Placed → Bool) : List Nat :=
  c.threads.flatMap fun e =>
    (match e.2.run with
      | .wait (.access _ _ l n _ _) => if l.any test then [n] else []
      | _ => []) ++
    (e.2.pend.filter fun p => p.access.isSome && p.spots.any test).map Pending.arrival

/-! ## Completion of accesses of the acting thread -/

/-- A loop is entered or passed over, with its count (R270). -/
def Chip.enterLoop (g : Mgmt) (c : Chip) (n : Word) (len : BitVec 17) : Out :=
  let start := c.t.pc + 4
  let stop := loopEnd start len
  if n = 0 then c.finish g none stop false
  else if 4 ≤ c.t.loops.length then c.raise g Cause.loopDepth 0 0
  else
    let t := { c.t with loops := ⟨start, stop, n⟩ :: c.t.loops }
    Chip.finish g { c with t := t } none start false

/-- The pending entry of the acting thread's instruction. -/
def Chip.entry (c : Chip) (dest : Dest) (la : BitVec 4) (access : Option Access) (arrival : Nat) (r : Result)
    (flags : Word) (snap : Option Snap) (warn : Byte) : Pending :=
  { id := c.t.nextPend, iaddr := c.t.pc, dest := dest, rem := la.toNat, access := access, spots := [], arrival := arrival,
    result := r, wr := false, flags := flags, warn := warn, rels := [], acqs := [], snap := snap }

/-- The instruction whose access is done completes (R46, R270). -/
def Chip.accessDone (g : Mgmt) (c : Chip) (dest : Dest) (la : BitVec 4) (warn : Byte) (r : Result) (flags : Word)
    (snap : Option Snap) : Out :=
  match dest, r with
  | .loop len, .x n => c.enterLoop g (n.extractLsb' 0 32) len
  | _, _ => c.finish g (some (c.entry dest la none 0 r flags snap warn)) (c.t.pc + 4) false

/-- The issuer of the acting thread's own access. -/
def Chip.issuer (c : Chip) : Issuer := ⟨c.t.who c.tid, [], [], c.t.pc⟩

/-- A plain load that may start a run of the thread's kernel (R157, TRIG 1). -/
def Chip.loadTrigger (c : Chip) (acc : Access) : Chip :=
  let a := match acc with
    | .load _ a => some a
    | _ => none
  match a, c.t.squirrel.armed with
  | some a, some k =>
    if k.base.toNat ≤ a.toNat && a.toNat < k.base.toNat + 64 * k.length then c.trigger 1 c.tid a else c
  | _, _ => c

/-- An access whose causes are reported precisely at the instruction, whatever it waits for: the thread stays there (R136,
R296). -/
def Access.precise : Access → Bool
  | .mcst _ _ _ _ _ _ => true
  | .fship _ _ _ _ => true
  | _ => false

/-- A LONG-LATENCY ACCESS of the acting thread's instruction: it is made, or waits in its window, or the thread waits
for it (R46, R354). -/
def Chip.access (g : Mgmt) (c : Chip) (la : BitVec 4) (dest : Dest) (acc : Access) (warn : Byte) : Out :=
  match c.attempt g c.issuer c.t.pend acc with
  | (.done r flags snap, c) => (c.loadTrigger acc).accessDone g dest la warn r flags snap
  | (.stop cause a info, c) => c.raise g cause a info
  | (.absent page a info, c) => c.absentStop g page a info
  | (.held, c) => c.hold
  | (.saves _, c) => c.hold
  | (.waits acc' l, c) =>
    let (n, c) := c.tick
    let joins := match acc' with | .sync _ _ _ _ _ _ _ => true | _ => false
    let c := if joins then c.releaseLock c.tid else c
    if la = 0 || acc'.precise then .next { c with t := { c.t with run := .wait (.access dest acc' l n warn la) } }
    else c.finish g (some { c.entry dest la (some acc') n .none 0 none warn with spots := l }) (c.t.pc + 4) false

/-! ## Instructions of several accesses (R354) -/

/-- How far such an instruction has come, with the machine after it. -/
abbrev Tries := Host.Outcome (Tried × Chip) Fault Refusal

/-- What an answer of the machine comes to for such an instruction. -/
def tryThen (o : Out) (f : Chip → Tried × Chip) : Tries :=
  match o with
  | .next c => .next (f c)
  | .fault e => .fault e
  | .refused e => .refused e

/-- A wait that the window of an instruction covers, as what waits there. -/
def Tried.covered (acc : Access) : Tried → Tried
  | .held => .waits acc []
  | t => t

/-- The scheduler saves the acting thread's task to wait, ST 2, at a program counter; a handler waits instead, its lock
released (R134, R299, log 20). -/
def Chip.saveWaiting (g : Mgmt) (c : Chip) (pc : Dword) (resume : Resume) : Out :=
  if c.t.handler.isSome then (c.releaseLock c.tid).hold else c.schedulerSave g pc 0 0 0 false 2 resume

/-- A LONG-LATENCY INSTRUCTION OF SEVERAL ACCESSES, or one that releases, of the acting thread: it completes, or a cause stops it,
or what it waits for is covered by its window, and with la = 0 the thread waits. `held` is one of the waits at issue (R46,
R354). In a handler an absent page is waited for (R306). -/
def Chip.composite (g : Mgmt) (la : BitVec 4) (dest : Dest) (warn : Byte) (acc : Access) (r : Tries) : Out :=
  let waits (acc : Access) (c : Chip) : Out :=
    if la = 0 then c.hold
    else
      let (n, c) := c.tick
      c.finish g (some (c.entry dest la (some acc) n .none 0 none warn)) (c.t.pc + 4) false
  match r with
  | .next (.done r flags snap, c) => c.accessDone g dest la warn r flags snap
  | .next (.stop cause a info, c) => c.raise g cause a info
  | .next (.absent page a info, c) => if c.t.handler.isSome then waits acc c else c.absentStop g page a info
  | .next (.saves resume, c) => c.saveWaiting g c.t.stopPc resume
  | .next (.waits acc' _, c) => waits acc' c
  | .next (.held, c) => c.hold
  | .fault e => .fault e
  | .refused e => .refused e

end Sys2Proof.Machine
end

