-- ==== Sys2Proof/Machine/Resume.lean ====
section
/-! DEFINITION. The return from a stop on the acting thread: the frame's state, the accesses issued again, and the first
instruction boundary (R48, R303). -/

namespace Sys2Proof.Machine

/-- The accesses of REISSUE entries issued again, in order and alone; a cause that one meets stops the task again with
every entry kept (R303). -/
def Chip.reissue (g : Mgmt) : List Pending → List Pending → Chip → Out
  | done, [], c => .next { c with t := { c.t with pend := done } }
  | done, p :: todo, c =>
    match p.access with
    | none => Chip.reissue g (done ++ [p]) todo c
    | some acc =>
      let w : Issuer := ⟨c.t.who c.tid, p.rels, p.acqs, p.iaddr⟩
      let all : Chip → Chip := fun c => { c with t := { c.t with pend := done ++ p :: todo } }
      match c.attempt g w done acc with
      | (.done r fl snap, c) =>
        let c := c.settleAccess w (done ++ todo) p
        Chip.reissue g (done ++ [{ p with access := none, result := r, flags := p.flags ||| fl, snap := snap }]) todo c
      | (.waits acc' l, c) =>
        let (n, c) := c.tick
        Chip.reissue g (done ++ [{ p with access := some acc', spots := l, arrival := n }]) todo c
      | (.held, c) => Chip.reissue g (done ++ [p]) todo c
      | (.saves _, c) => Chip.reissue g (done ++ [p]) todo c
      | (.stop cause a info, c) => (all c).stopNow g c.t.pc cause a info true false
      | (.absent page a info, c) => (all c).saveNow g c.t.pc Cause.pageAbsent a info true 2 (.page page)

/-- The acting thread resumes a task (R303): the frame, the accesses issued again, the writes that are due at once. A
program counter at the end link ends the task (R244). -/
def Chip.resume (g : Mgmt) (c : Chip) (task : Task) (frame : Dword) (home : FrameHome) (bs : List Byte) (sup : Bool)
    (kept : List Pending) (report : Option Report) (tokens : List Nat) : Out :=
  let c := c.loadFrame task frame home bs sup kept report tokens
  andThen (Chip.reissue g [] c.t.pend c) fun c =>
    if c.t.returned then
      let c := { c with t := c.t.settleWindows }.takeSnaps
      if c.t.pc = endLink then c.reachEnd g else .next c
    else .next c

end Sys2Proof.Machine
end

