-- ==== Sys2Proof/Machine/System.lean ====
section
/-! DEFINITION. The CSR instructions (R312, R313), stops and returns asked for by instructions (R307 to R311),
translation's invalidation (R94), boundaries and barriers (R282, R289 to R292), and the Badgers' table (R75). -/

namespace Sys2Proof.Machine

/-! ## CSRs (R313) -/

/-- HWLOC (R181): the module ID is 0xFFF while MODID is 0. -/
def hwloc (g : Mgmt) (tid : TId) : Dword :=
  0#20 ++ (if g.modid = 0 then 0xFFF#12 else g.modid) ++ BitVec.ofNat 8 tid.cx ++ BitVec.ofNat 8 tid.cy ++ 0#9 ++
    BitVec.ofNat 3 tid.core ++ BitVec.ofNat 4 tid.thread

/-- GANG (R266). -/
def gangCsr (t : Thread) : Dword := 0#56 ++ BitVec.ofNat 4 t.gangSize ++ 0#1 ++ BitVec.ofNat 3 t.gangMember

/-- Who may read and write a CSR (R313). -/
inductive CsrAccess where
  | reserved
  /-- read and write in both modes -/
  | user
  /-- read-only in every mode -/
  | readOnly
  /-- user read, supervisor write -/
  | supervisorWrite
  /-- supervisor only -/
  | supervisor
  deriving DecidableEq, Repr

/-- The access of a CSR number (R313). -/
def csrAccess (n : BitVec 10) : CsrAccess :=
  if n.toNat ≤ 0x00D then .user
  else if 0x010 ≤ n.toNat && n.toNat ≤ 0x01F then .readOnly
  else if 0x020 ≤ n.toNat && n.toNat ≤ 0x027 then .supervisorWrite
  else if 0x100 ≤ n.toNat && n.toNat ≤ 0x105 then .supervisor
  else .reserved

/-- A CSR's value, zero-extended (R312, R313). -/
def Chip.csrRead (g : Mgmt) (c : Chip) (n : BitVec 10) : Dword :=
  let t := c.t
  let k := t.csr
  let d := c.die c.tid.die
  match n.toNat with
  | 0x000 => k.flags.setWidth 64
  | 0x001 => k.fpctl.setWidth 64
  | 0x002 => k.expr.setWidth 64
  | 0x003 => k.cellcv.setWidth 64
  | 0x004 => k.drscl.setWidth 64
  | 0x005 => k.jctl.setWidth 64
  | 0x006 => k.cutctl.setWidth 64
  | 0x007 => k.barp.setWidth 64
  | 0x008 => k.srseed
  | 0x009 => k.srctr
  | 0x00A => k.warnc.setWidth 64
  | 0x00B => k.warnpc
  | 0x00C => t.repc.setWidth 64
  | 0x00D => match t.loops with | e :: _ => e.count.setWidth 64 | [] => 0
  | 0x010 => (k.tile.getD 0 0).setWidth 64
  | 0x011 => (k.tile.getD 1 0).setWidth 64
  | 0x012 => (k.tile.getD 2 0).setWidth 64
  | 0x013 => (k.tile.getD 3 0).setWidth 64
  | 0x014 => (k.org.getD 0 0).setWidth 64
  | 0x015 => (k.org.getD 1 0).setWidth 64
  | 0x016 => (k.org.getD 2 0).setWidth 64
  | 0x017 => (k.org.getD 3 0).setWidth 64
  | 0x018 => (k.ext.getD 0 0).setWidth 64
  | 0x019 => (k.ext.getD 1 0).setWidth 64
  | 0x01A => (k.ext.getD 2 0).setWidth 64
  | 0x01B => (k.ext.getD 3 0).setWidth 64
  | 0x01C => hwloc g c.tid
  | 0x01D => gangCsr t
  | 0x01E => k.ldkey.setWidth 64
  | 0x01F => k.tframe
  | 0x020 => k.lwin.getD 0 0
  | 0x021 => k.lwin.getD 1 0
  | 0x022 => k.lwin.getD 2 0
  | 0x023 => k.lwin.getD 3 0
  | 0x024 => (c.core c.tid.coreId).rgn.getD 0 0
  | 0x025 => (c.core c.tid.coreId).rgn.getD 1 0
  | 0x026 => (c.core c.tid.coreId).rgn.getD 2 0
  | 0x027 => (c.core c.tid.coreId).rgn.getD 3 0
  | 0x100 => d.tvec
  | 0x101 => k.sscr
  | 0x102 => k.even.setWidth 64
  | 0x103 => d.evpend.setWidth 64
  | 0x104 => c.denT1.setWidth 64
  | 0x105 => c.denT2.setWidth 64
  | _ => 0

/-- RGNi as written: bits [17:0] are read-only (R87). -/
def writeRgn (w : Dword) : Dword := w &&& 0xFFFF_FFFF_FFFC_0000

/-- The innermost count of a loop stack set; an empty stack ignores it (R270). -/
def setCount : List LoopEntry → Word → List LoopEntry
  | [], _ => []
  | e :: rest, n => { e with count := n } :: rest

/-- A CSR written with w, each field by its access; operand is X[xa], which clears W1C bits (R312). -/
def Chip.csrWrite (c : Chip) (n : BitVec 10) (w operand : Dword) : Chip :=
  let t := c.t
  let k := t.csr
  let low := w.extractLsb' 0 32
  let put (k : Csrs) : Chip := { c with t := { t with csr := k } }
  let core := c.core c.tid.coreId
  let d := c.die c.tid.die
  match n.toNat with
  | 0x000 => put { k with flags := low &&& 0xF1F }
  | 0x001 => put { k with fpctl := writeMode w }
  | 0x002 => put { k with expr := writeExpr w }
  | 0x003 => put { k with cellcv := writeMode w }
  | 0x004 => put { k with drscl := low &&& 0xFF }
  | 0x005 => put { k with jctl := low &&& 0x1FF }
  | 0x006 => put { k with cutctl := (low &&& 1) ||| (k.cutctl &&& 2 &&& ~~~(operand.extractLsb' 0 32)) }
  | 0x007 => put { k with barp := low }
  | 0x008 => put { k with srseed := w }
  | 0x009 => put { k with srctr := w }
  | 0x00A => put { k with warnc := low &&& 0xFFFF }
  | 0x00B => put { k with warnpc := w &&& ~~~1 }
  | 0x00C => { c with t := { t with repc := low &&& 0xBF } }
  | 0x00D => { c with t := { t with loops := setCount t.loops low } }
  | 0x020 => put { k with lwin := k.lwin.set 0 (writeLwin w) }
  | 0x021 => put { k with lwin := k.lwin.set 1 (writeLwin w) }
  | 0x022 => put { k with lwin := k.lwin.set 2 (writeLwin w) }
  | 0x023 => put { k with lwin := k.lwin.set 3 (writeLwin w) }
  | 0x024 => c.setCore c.tid.coreId { core with rgn := core.rgn.set 0 (writeRgn w) }
  | 0x025 => c.setCore c.tid.coreId { core with rgn := core.rgn.set 1 (writeRgn w) }
  | 0x026 => c.setCore c.tid.coreId { core with rgn := core.rgn.set 2 (writeRgn w) }
  | 0x027 => c.setCore c.tid.coreId { core with rgn := core.rgn.set 3 (writeRgn w) }
  | 0x100 => c.setDie c.tid.die { d with tvec := w &&& ~~~1 }
  | 0x101 => put { k with sscr := w }
  | 0x102 => put { k with even := w.extractLsb' 0 4 }
  | 0x103 => c.setDie c.tid.die { d with evpend := d.evpend &&& ~~~(operand.extractLsb' 0 4) }
  | 0x104 => { c with denT1 := low }
  | 0x105 => { c with denT2 := low }
  | _ => c

/-- A CSR instruction's stop, if it has one; `writes` says that it writes (R54, R312). -/
def csrStop (t : Thread) (n : BitVec 10) (writes : Bool) : Option Cause :=
  match csrAccess n with
  | .reserved => some Cause.illegal
  | .user => none
  | .readOnly => if writes then some Cause.illegal else none
  | .supervisorWrite => if writes && !t.sup then some Cause.privilege else none
  | .supervisor => if t.sup then none else some Cause.privilege

/-- A CSR instruction: its stop, or its read into xd and its write (R312). f gives the value written. -/
def csrInstr (i : Instr) (n : BitVec 10) (xd : Reg) (writes : Bool) (operand : Chip → Dword)
    (f : Dword → Dword → Dword) (s : State) : Host.Outcome State Fault Refusal :=
  s.run fun g c =>
    match csrStop c.t n writes with
    | some cause => c.raise g cause c.t.pc (c.t.wordOf i)
    | none =>
      let v := c.csrRead g n
      let x := operand c
      let c := if writes then c.csrWrite n (f v x) x else c
      c.putX g xd v

/-- csrr (R312). -/
def execCsrr (xd : Reg) (csr : BitVec 10) (s : State) : Host.Outcome State Fault Refusal :=
  csrInstr (.csrr xd csr) csr xd false (fun _ => 0) (fun v _ => v) s

/-- csrw (R312): it writes no register. -/
def execCsrw (csr : BitVec 10) (xa : Reg) (s : State) : Host.Outcome State Fault Refusal :=
  csrInstr (.csrw csr xa) csr 0 true (fun c => c.t.getX xa) (fun _ x => x) s

/-- csrset (R312): with x0 it makes no write. -/
def execCsrset (xd : Reg) (csr : BitVec 10) (xa : Reg) (s : State) : Host.Outcome State Fault Refusal :=
  csrInstr (.csrset xd csr xa) csr xd (decide (xa ≠ 0)) (fun c => c.t.getX xa) (fun v x => v ||| x) s

/-- csrclr (R312): with x0 it makes no write. -/
def execCsrclr (xd : Reg) (csr : BitVec 10) (xa : Reg) (s : State) : Host.Outcome State Fault Refusal :=
  csrInstr (.csrclr xd csr xa) csr xd (decide (xa ≠ 0)) (fun c => c.t.getX xa) (fun v x => v &&& ~~~x) s

/-! ## Stops and returns (R307 to R311) -/

/-- trap (R297, R307): it completes, and the saved program counter is its successor's; while the stop must wait, it has not
completed (R90, R92, R196). In a handler the HANDLER_FAULT record's program counter, too, is that of the successor: a DESIGN
CHOICE (log 66), for R306 says only 'the handler's PC'. -/
def execTrap (n : BitVec 10) (s : State) : Host.Outcome State Fault Refusal :=
  s.run fun g c =>
    let t := c.t.complete none (c.t.pc + 4) false
    let done := ({ c with t := t } : Chip).takeSnaps
    match done.stopWaits g with
    | some w => .next { c with promoting := w.promoting, zeroing := w.zeroing, draws := w.draws }
    | none => done.stopNow g t.pc Cause.trap 0 (n.setWidth 64) false false

/-- ebrk (R307). -/
def execEbrk (s : State) : Host.Outcome State Fault Refusal := s.run fun g c => c.raise g Cause.ebrk 0 0

/-- FRAME_STATE (R295). -/
def Chip.frameStop (g : Mgmt) (c : Chip) (frame : Dword) (st : BitVec 3) : Out :=
  c.raise g Cause.frameState frame (st.setWidth 64)

/-- The STATE doubleword of the frame at an address, if it can be reached. -/
def Chip.frameStateAt (g : Mgmt) (c : Chip) (frame : Dword) : Option Dword :=
  match c.hardwareSpot g frame with
  | (.here s, c) => some (Mem.dword c.mem s.key)
  | _ => none

/-- An instruction that only a handler may run: PRIVILEGE in user mode, FRAME_STATE in supervisor mode outside a
handler (R308 to R310, R314). -/
def inHandler (i : Instr) (f : Mgmt → Chip → Dword → Out) (s : State) : Host.Outcome State Fault Refusal :=
  s.run fun g c =>
    match c.t.handler with
    | some st => f g c st
    | none => if c.t.sup then c.frameStop g c.t.csr.tframe (((c.frameStateAt g c.t.csr.tframe).getD 0).extractLsb' 0 3)
        else c.privilege g i

/-- A memory access of the acting thread still waits. -/
def Thread.waiting (t : Thread) : Bool := t.pend.any fun p => p.access.isSome

/-- eret (R308): the frame is read after the handler's own stores (R277); a read that finds TIER = 2 or ZERO = 1 waits (R306), and
one that faults ends the handler (R306). -/
def execEret (s : State) : Host.Outcome State Fault Refusal :=
  inHandler .eret (fun g c st =>
    if c.t.waiting then c.hold
    else
      match c.frameSpots g c.t.csr.tframe, c.t.task with
      | (.here a b, c), some task =>
        let (bs, c) := c.frameImage task.id (.here a b)
        if frameDword bs 0 ≠ st || st.getLsbD 7 then c.frameStop g c.t.csr.tframe ((frameDword bs 0).extractLsb' 0 3)
        else c.resume g task c.t.csr.tframe (.here a b) bs (st.getLsbD 6) c.t.kept c.t.report []
      | (.gone cause, c), some _ => c.raise g cause c.t.csr.tframe (accessInfo .read 0)
      | (_, c), _ => c.hold) s

/-- halt (R310): the windows end there, and their results are waited for, as at the end link (R45, R46, R305). -/
def execHalt (s : State) : Host.Outcome State Fault Refusal :=
  inHandler .halt (fun g c _ =>
    let t := c.t.endWindows
    if t.pend.isEmpty then ({ c with t := t } : Chip).haltTask g else .next { c with t := t }) s

/-- The protection pairs that a frame's bytes hold (R302). -/
def frameLwin (bs : List Byte) : List Dword := (frameCsrs bs Csrs.reset).lwin

/-- ctxsave (R309): the task is held, its frame's address is written with both words full, and the thread becomes
FREE. -/
def execCtxsave (xa : Reg) (s : State) : Host.Outcome State Fault Refusal :=
  inHandler (.ctxsave xa) (fun g c _ =>
    let a := c.t.getX xa
    let frame := c.t.csr.tframe
    let park (c : Chip) : Out :=
      match (c.setFrameSt g c.t.agentId frame 3), c.t.task with
      | (_, c), some task =>
        let (_, c) := c.releaseT 5
        let (bs, c) := c.frameImage task.id (c.frameSpots g frame).1
        let saved := c.savedRecord c.t (frameLwin bs) task bs c.t.kept .held
        let c := ((c.disband c.tid).releaseLock c.tid).dropHoard c.tid
        .next { c with t := Thread.reset, saved := c.saved ++ [saved] }
      | (_, c), none => c.hold
    if !alignedTo a 8 then c.raise g Cause.misalign a 8
    else if c.t.waiting then c.hold
    else
      match c.frameSpots g frame with
      | (.waits, c) => c.hold
      | (_, c) =>
        match c.reach g (c.t.who c.tid) .write false a 8 with
        | (.fails cause, c) => c.raise g cause a (accessInfo .write 0)
        | (.absent page, c) => c.absentStop g page a (accessInfo .write 0)
        | (.zeroing _ _ _ _, c) => c.hold
        | (.den off, c) => park (c.denStore g c.issuer [] off frame)
        | (.away m, c) =>
          match c.remoteAnswer with
          | (.cause cause, c) => c.raise g cause a (remoteInfo .write 0 m cause)
          | (.none, c) => c.raise g Cause.remoteFail a (remoteInfo .write 0 m Cause.remoteFail)
          | (.value _, c) => park c
        | (.ok sp _, c) =>
          let c := c.storeAt c.issuer none sp (bytesOfDword frame)
          let c := c.setFull (some c.tid) sp.loc sp.key true
          park (c.setFull (some c.tid) (sp.loc + 4) (sp.key + 4) true)) s

/-- An instruction that only supervisor mode may run (R54). -/
def supervisorOnly (i : Instr) (f : Mgmt → Chip → Out) (s : State) : Host.Outcome State Fault Refusal :=
  s.run fun g c => if c.t.sup then f g c else c.privilege g i

/-- A held task whose frame a supervisor releases, with the bytes of its frame (R305, R309). -/
def Saved.release (k : Saved) (frame : Dword) (bs : List Byte) : Saved :=
  if decide (k.frame = frame) && decide (k.resume = .held) then
    { k with resume := .ready, image := bs, pinned := pinnedBy (frameLwin bs) }
  else k
/-- The held task of a frame. -/
def Chip.heldTask (c : Chip) (frame : Dword) : Nat :=
  ((c.saved.find? fun k => decide (k.frame = frame) && decide (k.resume = .held)).map fun k => k.task.id).getD 0

/-- ctxrest (R309): a held task is ready again. MISALIGN reports the alignment, 1,024, as its size; an address of the Den window,
which reads 0, is that of a frame of state 0; and the frame of another module cannot be reached: DESIGN CHOICES (log 66). -/
def execCtxrest (xa : Reg) (s : State) : Host.Outcome State Fault Refusal :=
  supervisorOnly (.ctxrest xa) (fun g c =>
    let f := c.t.getX xa
    if !alignedTo f 1024 then c.raise g Cause.misalign f 1024
    else if unready c.t.pend then c.hold
    else
      match c.reach g (c.t.who c.tid) .write false f 8 with
      | (.fails cause, c) => c.raise g cause f (accessInfo .write 0)
      | (.absent page, c) => c.absentStop g page f (accessInfo .write 0)
      | (.zeroing _ _ _ _, c) => c.hold
      | (.den _, c) => c.frameStop g f 0
      | (.away m, c) => c.raise g Cause.remoteFail f (remoteInfo .write 0 m Cause.remoteFail)
      | (.ok sp _, c) =>
        let (_, c) := c.releaseT 5
        let held := c.heldTask f
        let old := Mem.dword c.mem sp.key
        let st := match c.images.find? fun k => decide (k.task = held) with
          | some k => (frameDword k.bytes 0).extractLsb' 0 3
          | none => old.extractLsb' 0 3
        if st ≠ 3#3 then c.frameStop g f st
        else
          let c := (c.writeBytes c.t.agentId none true none none sp (bytesOfDword (old.extractLsb' 3 61 ++ 1#3))).keepSt c.images
            sp.loc 1
          let (bs, c) := c.frameImage held (c.frameSpots g f).1
          Chip.next g { c.dropImage held with saved := c.saved.map fun k => k.release f bs } 4) s

/-- idle (R311): it waits for an enabled event. -/
def execIdle (xd : Reg) (s : State) : Host.Outcome State Fault Refusal :=
  supervisorOnly (.idle xd) (fun g c =>
    let v := (c.die c.tid.die).evpend &&& c.t.csr.even
    if v = 0 then .next { c with t := { c.t with run := .wait (.idle xd) } } else c.putX g xd (v.setWidth 64)) s

/-- A page or sub-page lies in the spans that tlbinv names (R83, R94): n = 0 names every span. -/
def spanNamed (first : Nat) (n : BitVec 10) (span : Nat) : Bool :=
  decide (n = 0) || (decide (first ≤ span) && decide (span < first + n.toNat))

/-- tlbinv (R94): after its release it drops the spans' states, once, and completes when every access that was translated before
then through one of them has completed. An access that had no place then is translated anew. -/
def execTlbinv (xa : Reg) (n : BitVec 10) (s : State) : Host.Outcome State Fault Refusal :=
  supervisorOnly (.tlbinv xa n) (fun g c =>
    let a := c.t.getX xa
    match homeHeap g a with
    | none => c.raise g Cause.addrInvalid a 0
    | some (die, off) =>
      if unready c.t.pend then c.hold
      else
        let first := off / 2 ^ 26
        let under (p : Placed) : Bool := decide (p.leaf ≠ 0) && decide (p.spot.loc / 2 ^ 48 = die.toNat) &&
          spanNamed first n (p.spot.loc % 2 ^ 48 / 2 ^ 26)
        let c := match c.t.dropped with
          | some _ => c
          | none =>
            let c := (c.releaseT 5).2
            let d := c.die die
            let spans := d.spans.filter fun (e : SpanEntry) => !spanNamed first n (if e.sub then e.page / 2 ^ 16 else e.page / 2 ^ 5)
            { c.setDie die { d with spans := spans } with t := { c.t with dropped := some (c.arrivalsPlaced under) } }
        if (c.arrivalsPlaced under).any ((c.t.dropped.getD []).contains ·) then c.hold
        else Chip.next g { c with t := { c.t with dropped := none } } 4) s

/-! ## Boundaries (R282) -/

/-- fence.rel (R282): the accesses of open windows are earlier accesses, so it follows the stores, and the acquires, that still
wait there, at every scope. -/
def execFenceRel (scope : BitVec 3) (s : State) : Host.Outcome State Fault Refusal :=
  s.run fun g c => if unready c.t.pend then c.hold else (c.releaseT scope).2.next g 4

/-- fence.acq (R282): after every earlier read of the task (R281). -/
def execFenceAcq (scope : BitVec 3) (s : State) : Host.Outcome State Fault Refusal :=
  s.run fun g c => if unread c.t.pend then c.hold else (c.acquireT scope []).next g 4

/-- phase (R282). -/
def execPhase (scope : BitVec 3) (s : State) : Host.Outcome State Fault Refusal :=
  s.run fun g c =>
    if unready c.t.pend || unread c.t.pend then c.hold
    else ((c.releaseT scope).2.acquireT scope []).next g 4

/-! ## Barriers (R289 to R292) -/

/-- The instance of a scope for a thread and a launch key (R289). -/
def barKey (t : Thread) (tid : TId) (scope : BitVec 3) (id : BitVec 5) (key : BitVec 16) : BarKey :=
  let owner := match scope with
    | 0#3 => (match t.task with | some k => k.id | none => 0)
    | 1#3 => (tid.cx * 100 + tid.cy) * 8 + tid.core
    | 2#3 => tid.cx * 100 + tid.cy
    | 3#3 => tid.die.toNat
    | _ => 0
  ⟨scope, owner, id, key⟩

/-- An instance, in use or not. -/
def barrierGet (l : List Barrier) (k : BarKey) : Barrier :=
  (l.find? fun b => decide (b.key = k)).getD ⟨k, 0, 0, 0, [], [], []⟩
/-- An instance set. -/
def barrierPut (l : List Barrier) (b : Barrier) : List Barrier := b :: l.filter fun x => decide (x.key ≠ b.key)

/-- A thread finishes its `bar`: the acquire follows every arrival's release, and tied writes are in its visible set (R289,
R290). -/
def Chip.leaveBarrier (g : Mgmt) (scope : BitVec 3) (rels : List Nat) (tied : View) (c : Chip) : Out :=
  let c := { c with t := { c.t with run := .ready } }.acquireT scope rels
  let r := c.agent c.t.agentId
  (c.setAgent { r with view := r.view.join tied }).next g 4

/-- A thread that waits at an instance which completes finishes, or, while an earlier read of its windows still waits, does so
once that is performed: its acquire follows the read (R281, R293). -/
def Chip.letGo (g : Mgmt) (b : Barrier) (c : Chip) : Out :=
  if unread c.t.pend then
    .next { c with
      passed := c.passed ++ [⟨(c.t.task.map Task.id).getD 0, b.key, b.rels, b.tied⟩]
      t := { c.t with run := .wait .retry } }
  else c.leaveBarrier g b.key.scope b.rels b.tied

/-- Every thread that waits at an instance, in turn, is let go. -/
def Chip.leaveAll (g : Mgmt) (b : Barrier) : List TId → Chip → Out
  | [], c => .next c
  | tid :: rest, c => andThen ((c.focus tid).letGo g b) (Chip.leaveAll g b rest)

/-- An instance completes where ARR = NEED and CNT = 0 (R290): ARR ← 0, and its waiters finish; saved tasks whose arrivals
stood finish when they are restored (R292). The acting thread stays the one that acts. -/
def Chip.tryComplete (g : Mgmt) (c : Chip) (k : BarKey) : Out :=
  let b := barrierGet c.barriers k
  if decide (b.arr ≠ 0) && decide (b.arr = b.need) && decide (b.cnt = 0) then
    let me := c.tid
    let waiters := (c.threads.filter fun e => decide (e.2.run = .wait (.barrier k))).map (·.1)
    let c := { c with
      barriers := barrierPut c.barriers { b with arr := 0, need := 0, rels := [], tied := [], standing := [] }
      passed := c.passed ++ b.standing.map fun n => (⟨n, k, b.rels, b.tied⟩ : Passed) }
    andThen (c.leaveAll g b waiters) fun c => .next (c.focus me)
  else .next c

/-- An instance of a scope and an id: a task's arrival stands at one of these at most, wherever it is restored (R284, R292). -/
def BarKey.named (k : BarKey) (scope : BitVec 3) (id : BitVec 5) : Bool := decide (k.scope = scope) && decide (k.id = id)

/-- An arrival of the acting thread at an instance, after its release of number n (R290). -/
def Chip.arrive (g : Mgmt) (c : Chip) (k : BarKey) (need rel : Nat) : Out :=
  let b := barrierGet c.barriers k
  if b.arr ≠ 0 && b.arr = b.need then
    .next { c with t := { c.t with run := .wait (.barrierFull k) } }
  else if b.arr ≠ 0 && b.need ≠ need then c.raise g Cause.barrierState 0 0
  else
    let b' := { b with need := if b.arr = 0 then need else b.need, arr := b.arr + 1, rels := b.rels ++ [rel] }
    Chip.tryComplete g { c with barriers := barrierPut c.barriers b', t := { c.t with run := .wait (.barrier k) } } k

/-- bar (R290). A count of 0 traps after the release, as R293's table has it (log 7). A task whose arrival stood through a save
waits on, or finishes where its instance has completed (R292). -/
def execBar (scope : BitVec 3) (id : BitVec 5) (s : State) : Host.Outcome State Fault Refusal :=
  s.run fun g c =>
    let need := if scope = 0 then 1 else c.t.csr.barp.toNat
    let k := barKey c.t c.tid scope id c.t.csr.ldkey
    let task := (c.t.task.map Task.id).getD 0
    match c.passed.find? fun e => decide (e.task = task) && e.key.named scope id with
    | some e =>
      if unread c.t.pend then c.hold
      else Chip.leaveBarrier g scope e.rels e.tied { c with passed := c.passed.filter fun x => decide (x ≠ e) }
    | none =>
      match c.barriers.find? fun b => b.standing.contains task && b.key.named scope id with
      | some b =>
        .next { c with
          barriers := barrierPut c.barriers { b with standing := b.standing.filter fun n => decide (n ≠ task) }
          t := { c.t with run := .wait (.barrier b.key) } }
      | none =>
        if unready c.t.pend then c.hold
        else
          let (n, c) := c.releaseT scope
          if need = 0 then c.raise g Cause.barrierState 0 0 else c.arrive g k need n

/-- bcnt (R291): it never waits; its release carries an earlier store that still waits once that is performed (log 7). -/
def execBcnt (scope : BitVec 3) (id : BitVec 5) (xa : Reg) (s : State) : Host.Outcome State Fault Refusal :=
  s.run fun g c =>
    let v := (c.t.getX xa).extractLsb' 0 56
    let (n, c) := c.releaseT scope
    let k := barKey c.t c.tid scope id c.t.csr.ldkey
    let b := barrierGet c.barriers k
    let c := { c with barriers := barrierPut c.barriers { b with cnt := b.cnt + v, rels := b.rels ++ [n] } }
    andThen (c.next g 4) fun c => c.tryComplete g k

/-! ## Code read by an instruction, and fsload (R75, R156) -/

/-- Halfwords read as `ld.h` loads read them; the first that stops, or its wait. -/
def Chip.readHalves (g : Mgmt) (w : Issuer) (earlier : List Pending) :
    Nat → Dword → List Half → Chip → Except Tried (List Half) × Chip
  | 0, _, acc, c => (.ok acc.reverse, c)
  | n + 1, a, acc, c =>
    match c.attempt g w earlier (.load 1 a) with
    | (.done (.x v) _ _, c) => Chip.readHalves g w earlier n (a + 2) (v.extractLsb' 0 16 :: acc) c
    | (.waits _ _, c) => (.error .held, c)
    | (t, c) => (.error t, c)

/-- A stop or a wait met while an instruction reads. -/
def Chip.triedStop (g : Mgmt) (c : Chip) (t : Tried) : Out :=
  match t with
  | .stop cause a info => c.raise g cause a info
  | .absent page a info => c.absentStop g page a info
  | _ => c.hold

/-- fsload (R75). -/
def execFsload (xd xa : Reg) (slot : BitVec 6) (s : State) : Host.Outcome State Fault Refusal :=
  supervisorOnly (.fsload xd xa slot) (fun g c =>
    if xa = 0 then { c with routines := tableErase c.routines slot }.putX g xd 0
    else
      let n := (c.t.getX (xa + 1)).toNat
      if n = 0 || 1024 < n then c.putX g xd 1
      else
        match c.readHalves g c.issuer c.t.pend n (c.t.getX xa) [] with
        | (.error t, c) => c.triedStop g t
        | (.ok code, c) =>
          let st := smallCheck 16 false (2 * n) (n + 1) 0 none code
          let c := if st = 0 then { c with routines := tableSet c.routines slot code } else c
          c.putX g xd (BitVec.ofNat 64 st)) s

end Sys2Proof.Machine
end

