-- ==== Sys2Proof/Machine/Tasks.lean ====
section
/-! DEFINITION. Tasks and their resources: launches and stealing domains (R252), the take conditions (R256), the start of a
task (R80, R88, R118, R178, R220, R301), its hand-offs (R257), and its end (R245). -/

namespace Sys2Proof.Machine

/-! ## Launches and domains -/

def Chip.launchOf (c : Chip) (id : Nat) : Option Launch := c.launches.find? fun l => decide (l.id = id)
def Chip.setLaunch (c : Chip) (l : Launch) : Chip :=
  { c with launches := c.launches.map fun k => if k.id = l.id then l else k }

/-- The mesh's clusters (R21). -/
def inMesh (k : CId) : Bool := decide (k.cx < Config.meshX) && decide (k.cy < Config.meshY)
/-- The reserved cluster of each die: the one at die coordinates (0, 0) (R304). -/
def reservedCluster (k : CId) : Bool := decide (k.cx % 50 = 0) && decide (k.cy % 50 = 0)

/-- A cluster lies in the stealing domain of a launch, for a task of cluster `own` (R248, R254). -/
def Chip.inDomain (c : Chip) (launch : Nat) (own k : CId) : Bool :=
  match (c.launchOf launch).map Launch.steal with
  | some 2 => true
  | some 1 => decide (own.die = k.die)
  | _ => decide (own = k)

/-! ## Hand-offs (R257, R283) -/

/-- The acquire of a consumer event on a thread: each release is made, and met, at the narrowest scope that holds both,
where it was not made at `.sy` (R283). -/
def Chip.consume (c : Chip) (a : AgentId) (tid : TId) (tokens : List Nat) : Chip :=
  tokens.foldl (fun (c : Chip) n =>
    match releaseGet c.rels n with
    | none => c
    | some r =>
      let sc := if r.scope = 5 then 5 else narrowest r.agent r.place a (.thread tid)
      let rels := c.rels.map fun (q : Release) => if q.id = n then { q with scope := sc } else q
      Chip.acquire { c with rels := rels } a (.thread tid) sc [n]) c

/-- The release of a producer event of the acting thread; its scope is settled at the consumer event (R283). -/
def Chip.produce (c : Chip) : Nat × Chip := c.releaseT 0

/-! ## Places in memory by their canonical address -/

/-- The die of a heap location. -/
def locDie (loc : Nat) : BitVec 3 := BitVec.ofNat 3 (loc / 2 ^ 48)
/-- Where a location of this module stands now, for the hardware itself; none where its page cannot be reached. -/
def Chip.spotOf (g : Mgmt) (c : Chip) (a : Dword) : Option Spot × Chip :=
  match classify g a with
  | some (.slice k off) => (some ⟨sliceLoc k off, sliceKey k off⟩, c)
  | some (.heap die off) =>
    match c.hardwareSpot g a with
    | (.here s, c) => (some s, c)
    | (.waits, c) => (none, c)
    | (.gone _, c) =>
      match c.leaf die off true with
      | (.leaf e _, c) =>
        if entryTier e = 2 || entryZero e then (none, c) else (some ⟨heapLoc die off, heapKey die (entryAddr e + off % 2 ^ 10)⟩, c)
      | (.fails _, c) => (none, c)
  | _ => (none, c)

/-! ## Resources of cores and clusters (R80, R81, R88, R219, R220, R256) -/

/-- Tiles of a cluster's pool (R219). -/
def poolTiles : Nat := 32

/-- A task holds a thread. -/
def Chip.threadOf (c : Chip) (task : Nat) : Option (TId × Thread) :=
  c.threads.find? fun e => decide (e.2.task.map Task.id = some task)

/-- A tile's job is running or waits to run (R221). -/
def Chip.tileBusy (c : Chip) (x : Tile) : Bool :=
  c.jobs.any fun j => match j.kind with
    | .cld p => decide (j.task = x.task) && decide (p.acc = x.acc) && (decide (j.state = .queued) || decide (j.state = .running))
    | _ => false

/-- Tiles of a cluster that stand in its pool and cannot be spilled (R221, R299). -/
def Chip.tilesKept (c : Chip) (k : CId) : Nat :=
  (c.tiles.filter fun x => decide (x.cluster = k) && !x.spilled && ((c.threadOf x.task).isSome || c.tileBusy x)).length
/-- Tiles of a cluster that stand in its pool. -/
def Chip.tilesHere (c : Chip) (k : CId) : Nat := (c.tiles.filter fun x => decide (x.cluster = k) && !x.spilled).length
/-- Tiles of a task that are spilled. -/
def Chip.tilesAway (c : Chip) (task : Nat) : Nat := (c.tiles.filter fun x => decide (x.task = task) && x.spilled).length

/-- Room for n more tiles is made by spilling tiles of saved tasks, the earliest mapped first (R299). -/
def Chip.makeRoom (c : Chip) (k : CId) : Nat → Chip
  | 0 => c
  | n + 1 =>
    if c.tilesHere k ≤ poolTiles then c
    else
      match c.tiles.find? fun x => decide (x.cluster = k) && !x.spilled && !((c.threadOf x.task).isSome || c.tileBusy x) with
      | some x => Chip.makeRoom (c.setTile { x with spilled := true }) k n
      | none => c

/-- Running tasks of a launch on a core, `skip` apart (R256). -/
def Chip.runningOf (c : Chip) (k : CoreId) (launch : Nat) (skip : Option Nat) : Nat :=
  ((c.threadsOf k).filter fun e => match e.2.task with
    | some t => decide (t.launch = launch) && decide (some t.id ≠ skip)
    | none => false).length
/-- The launch's limit of tasks on a core (R248). -/
def Chip.threadLimit (c : Chip) (launch : Nat) : Nat := ((c.launchOf launch).map Launch.threads).getD Config.threads
/-- Every running task of a core carries these region values (R88). -/
def Chip.regionsAgree (c : Chip) (k : CoreId) (rgn : List Dword) (skip : Option Nat) : Bool :=
  (c.threadsOf k).all fun e => match e.2.task with
    | some t => decide (t.rgn = rgn) || decide (some t.id = skip)
    | none => true

/-- The blocks that a range of a slice touches (R81). -/
def blocksOf (off len : Nat) : List Nat :=
  if len = 0 then [] else (List.range ((off + len - 1) / 4096 - off / 4096 + 1)).map (off / 4096 + ·)
/-- A block of a core's slice may hold bytes of a launch's tasks: it is free, or the launch's own; or `skip` alone holds it, a
task whose slice bytes count as free (R81, R118, R263). -/
def blockOpen (k : CoreState) (launch : Nat) (skip : Option Nat) (b : Nat) : Bool :=
  let holds (test : Nat → Bool) : Bool := k.grants.any fun e => test e.1 && (blocksOf e.2.1 e.2.2).contains b
  (decide (k.keys.getD b 0 = 0) && decide (k.owners.getD b none = none)) || decide (k.owners.getD b none = some launch) ||
    (holds (fun n => decide (some n = skip)) && !holds fun n => decide (some n ≠ skip))
/-- Free ranges of a core's slice for a launch: offsets, multiples of 64, below 0xF000 (R80, R81). -/
def freeRanges (k : CoreState) (launch : Nat) (len : Nat) (skip : Option Nat) : List Nat :=
  if len = 0 then [0]
  else ((List.range 960).map (64 * ·)).filter fun off =>
    decide (off + len ≤ 0xF000) &&
      k.grants.all (fun e => decide (some e.1 = skip) || decide (off + len ≤ e.2.1) || decide (e.2.1 + e.2.2 ≤ off)) &&
      (blocksOf off len).all (blockOpen k launch skip)

/-- The slots of a cluster may be named by tasks of a launch (R220). -/
def Chip.slotsOpen (c : Chip) (k : CId) (launch res : Nat) : Bool :=
  decide (res = 0) || decide ((c.cluster k).holder = none) || decide ((c.cluster k).holder = some launch)

/-- A frame of a die's pool is free (R301). -/
def Chip.framesFree (c : Chip) (die : BitVec 3) : List Nat :=
  let d := c.die die
  (List.range d.fpcount.toNat).filter fun i => !d.fptaken.contains i

/-- The address of a frame of a die's pool (R301). An FPBASE that is not a multiple of 1024 is used as it is, so that a frame and
TFRAME's low bits follow it: a DESIGN CHOICE (log 66). -/
def Die.frameAt (d : Die) (f : Nat) : Dword := d.fpbase + BitVec.ofNat 64 (2048 * f)

/-- Whatever is free on a core, an item may run there: its regions, its launch's THREADS, its slots and its die's reserved
cluster allow it (R88, R220, R256, R304). -/
def Chip.openTo (c : Chip) (k : CoreId) (i : Item) (skip : Option Nat) : Bool :=
  c.regionsAgree k i.rgn skip && decide (c.runningOf k i.launch skip < c.threadLimit i.launch) &&
    c.slotsOpen k.cluster i.launch i.res && decide (reservedCluster k.cluster = decide (i.launch = 0))

/-- A new item can be taken by a thread of a core (R256). `skip` is a task whose thread, tiles and slice bytes count as
free (R263). -/
def Chip.canTake (c : Chip) (k : CoreId) (i : Item) (skip : Option Nat) : Bool :=
  let own := match skip with | some t => (c.tiles.filter fun x => decide (x.task = t) && !x.spilled).length | none => 0
  decide (c.tilesKept k.cluster - own + i.tiles ≤ poolTiles) &&
    !(freeRanges (c.core k) i.launch i.slice skip).isEmpty && c.openTo k i skip

/-- Tiles that a task's restore adds to those that must stand in its cluster's pool: all of its own but those that cannot be
spilled now (R221, R303). -/
def Chip.tilesBack (c : Chip) (task : Nat) : Nat :=
  (c.tiles.filter fun x => decide (x.task = task) && (x.spilled || !c.tileBusy x)).length

/-- A saved task can be taken by a thread of a core (R247, R256); never one whose frame cannot be resumed (R303). -/
def Chip.canRestore (c : Chip) (k : CoreId) (s : Saved) (skip : Option Nat) : Bool :=
  let own := match skip with | some t => (c.tiles.filter fun x => decide (x.task = t) && !x.spilled).length | none => 0
  !(frameDword s.image 0).getLsbD 7 &&
    decide (s.cluster = k.cluster) && (!s.pinned || decide (s.core = k.core)) &&
    decide (c.tilesKept k.cluster - own + c.tilesBack s.task.id ≤ poolTiles) &&
    c.regionsAgree k s.task.rgn skip && decide (c.runningOf k s.task.launch skip < c.threadLimit s.task.launch)

/-! ## What waits in sources 1 to 3 (R256, R263) -/

/-- A saved task that is ready, with the items a yield left before it. -/
def Saved.readyNow (s : Saved) : Bool :=
  match s.resume with
  | .ready => true
  | .yielded _ => true
  | _ => false

/-- The numbers of what waits in sources 1 to 3 of a cluster. -/
def Chip.waitingIn (c : Chip) (k : CId) : List Nat :=
  (c.saved.filter fun s => decide (s.cluster = k) && s.readyNow).map (fun s => s.task.id) ++
    ((c.cluster k).modeZero ++ (c.cluster k).hints).map Item.id ++
    ((List.range Config.cores).map fun n => (c.core ⟨k.cx, k.cy, n⟩).deque.map Item.id).flatten

/-- Something of sources 1 to 3 can be taken by a thread of a core, of those whose number passes a test. -/
def Chip.anyTakeable (c : Chip) (k : CoreId) (skip : Option Nat) (test : Nat → Bool) : Bool :=
  (c.saved.any fun s => s.readyNow && test s.task.id && c.canRestore k s skip) ||
    ((c.cluster k.cluster).modeZero.head?.toList ++ (c.cluster k.cluster).hints.head?.toList ++
      (c.core k).deque.getLast?.toList).any fun i => test i.id && c.canTake k i skip

/-! ## The start of a task -/

/-- Slice bytes written 0, full and without poison for a task by the Launch Unit, which releases them (R80, R118). -/
def Chip.zeroSlice (c : Chip) (k : CoreId) (off len : Nat) : Chip :=
  let me := AgentId.launchUnit k.die
  let c := c.writeBytes me none true none none ⟨sliceLoc k off, sliceKey k off⟩ (List.replicate len 0)
  let c := c.storeClears (sliceKey k off) len
  (List.range (len / 4)).foldl (fun (c : Chip) i => c.setFull none (sliceLoc k off + 4 * i) (sliceKey k off + 4 * i) true) c

/-- A range of a core's slice given to a task (R80, R81, R118): a block new to the launch is cleared whole and takes its
key. -/
def Chip.grantSlice (c : Chip) (k : CoreId) (task launch : Nat) (key : BitVec 16) (off len : Nat) : Chip :=
  if len = 0 then c
  else
    let st := c.core k
    let new := (blocksOf off len).filter fun b => decide (st.owners.getD b none = none)
    let c := c.setCore k { st with
      grants := st.grants ++ [(task, off, len)]
      keys := new.foldl (fun (l : List (BitVec 16)) b => l.set b key) st.keys
      owners := new.foldl (fun (l : List (Option Nat)) b => l.set b (some launch)) st.owners }
    let c := new.foldl (fun (c : Chip) b => c.zeroSlice k (4096 * b) 4096) c
    c.zeroSlice k off len

/-- A fresh tile (R220). -/
def freshTile (task : Nat) (k : CId) (acc : Nat) : Tile where
  task := task
  acc := BitVec.ofNat 2 acc
  cluster := k
  elems := List.replicate 256 0
  v := false
  d := false
  f := false
  t := false
  operr := false
  isat := false
  cov := 0
  spilled := false

/-- A launch begins to hold a cluster's slots: their valid bits and the codebook are cleared (R220, R109). -/
def Chip.holdSlots (c : Chip) (k : CId) (launch res : Nat) : Chip :=
  let cl := c.cluster k
  if res = 0 || cl.holder = some launch then c
  else c.setCluster k { cl with
    holder := some launch
    slots := cl.slots.map fun (s : Slot) => { s with valid := false }
    codebook := List.replicate 1024 0
    badRoots := [] }

/-- LWIN0 of a task with its slice bytes (R80). -/
def lwinOf (off len : Nat) : Dword := if len = 0 then 0 else 0#22 ++ 3#2 ++ 0#7 ++ BitVec.ofNat 17 (off + len) ++ BitVec.ofNat 16 off

/-- What a task's `yield` left waiting no longer waits once it has been taken (R263). -/
def Chip.noLongerWaits (c : Chip) (id : Nat) : Chip :=
  { c with saved := c.saved.map fun (s : Saved) =>
      match s.resume with
      | .yielded left => { s with resume := .yielded (left.filter fun n => decide (n ≠ id)) }
      | _ => s }

/-- THE START OF A TASK on the acting thread, which is FREE (R80, R88, R178, R180, R220, R244, R301, R304): its frame,
its slice bytes, its tiles and slots, its regions, and its registers. f is the number of its frame in the die's pool. -/
def Chip.startTask (c : Chip) (i : Item) (f : Nat) : Chip :=
  let tid := c.tid
  let k := tid.coreId
  let d := c.die tid.die
  let c := c.setDie tid.die { d with fptaken := f :: d.fptaken }
  let ranges := freeRanges (c.core k) i.launch i.slice none
  let (ri, c) := c.draw ranges.length
  let off := ranges.getD ri 0
  let c := c.grantSlice k i.id i.launch i.key off i.slice
  let (z, c) := c.release (.launchUnit k.die) (.unit k.die) 5
  let c := c.holdSlots k.cluster i.launch i.res
  let c := { c with tiles := c.tiles ++ (List.range i.tiles).map (freshTile i.id k.cluster) }
  let c := c.makeRoom k.cluster poolTiles
  let c := c.setCore k { c.core k with rgn := i.rgn }
  let task : Task := ⟨i.id, i.launch, i.counter, i.tiles, i.res, off, i.slice, i.rgn⟩
  let csr := { Csrs.reset with
    lwin := [lwinOf off i.slice, 0, 0, 0], tile := i.tile, org := i.org, ext := i.ext, ldkey := i.key, tframe := d.frameAt f }
  let t := { Thread.reset with
    csr := csr, pc := i.entry, run := .ready, sup := reservedCluster k.cluster, task := some task }
  let t := (List.range i.args.length).foldl (fun (t : Thread) n =>
    t.setX (BitVec.ofNat 5 (10 + n)) (i.args.getD n 0)) (t.setX 1 endLink)
  Chip.consume ({ c with t := t }.noLongerWaits i.id) (.task i.id) tid (z :: i.tokens)

/-- A saved task restored on the acting thread, which is FREE (R256, R303). Its frame's bytes are those that the hardware saved:
no store of another task changes it (R6, log 13). While the frame's page is away nothing is restored (R90, R92). -/
def Chip.restoreTask (g : Mgmt) (c : Chip) (s : Saved) : Out :=
  match c.frameSpots g s.frame with
  | (.waits, c) => .next c
  | (home, c) =>
    let c := { c with saved := c.saved.filter fun k => decide (k.task.id ≠ s.task.id) }.noLongerWaits s.task.id
    let c := c.setCore c.tid.coreId { c.core c.tid.coreId with rgn := s.task.rgn }
    andThen (c.resume g s.task s.frame home s.image ((frameDword s.image 0).getLsbD 6) s.accesses s.report s.tokens) fun c =>
      .next (c.makeRoom c.tid.cluster poolTiles)

/-! ## The Dispenser (R260 to R262) -/

/-- The earliest thread of a cluster that waits in wfw for an item of a launch (R262). -/
def Chip.wfwWaiter (c : Chip) (k : CId) (launch : Nat) : Option TId :=
  let l := c.threads.filterMap fun e => match e.2.run with
    | .wait (.wfw n) => if decide (e.1.cluster = k) && decide (e.2.task.map Task.launch = some launch) then some (n, e.1) else none
    | _ => none
  match l with
  | [] => none
  | x :: rest => some (rest.foldl (fun (m : Nat × TId) y => if y.1 < m.1 then y else m) x).2

/-- A MODE 1 item is delivered to the acting thread, whose `wfw` completes at ENTRY (R262). -/
def Chip.receive (g : Mgmt) (c : Chip) (i : Item) : Out :=
  let c := (c.dropHoard c.tid).consume c.t.agentId c.tid i.tokens
  let t := (List.range 6).foldl (fun (t : Thread) n => t.setX (BitVec.ofNat 5 (10 + n)) (i.args.getD n 0)) c.t
  Chip.finish g { c with t := { t with run := .ready } } none i.entry false

/-- MODE 1 items of a cluster are delivered while a thread of their launch waits, oldest first. -/
def Chip.deliver (g : Mgmt) (k : CId) : Nat → Chip → Out
  | 0, c => .next c
  | n + 1, c =>
    match (c.cluster k).modeOne.find? fun i => (c.wfwWaiter k i.launch).isSome with
    | none => .next c
    | some i =>
      match c.wfwWaiter k i.launch with
      | none => .next c
      | some tid =>
        let cl := c.cluster k
        let c := c.setCluster k { cl with modeOne := cl.modeOne.filter fun x => decide (x.id ≠ i.id) }
        andThen ((c.focus tid).receive g i) (Chip.deliver g k n)

/-- An item appended to a cluster's list of its mode; a waiting thread may receive it at once (R260, R262). -/
def Chip.appendItem (g : Mgmt) (c : Chip) (k : CId) (i : Item) : Out :=
  let cl := c.cluster k
  let me := c.tid
  if i.mode = 0 then .next (c.setCluster k { cl with modeZero := cl.modeZero ++ [i] })
  else
    let c := c.setCluster k { cl with modeOne := cl.modeOne ++ [i] }
    andThen (Chip.deliver g k (cl.modeOne.length + 1) c) fun c => .next (c.focus me)

/-! ## The end of a task (R245) -/

/-- Every job of a task is done or faulted (R140). -/
def Chip.jobsOver (c : Chip) (task : Nat) : Bool := c.jobs.all fun j => decide (j.task ≠ task) || j.state.over

/-- A release of the ends of children recorded for a join counter (R257). -/
def Chip.noteEnd (c : Chip) (loc n : Nat) : Chip :=
  { c with joins := tableSet c.joins loc (n :: (tableGet c.joins loc).getD []) }

/-- The page of an ending task's join counter is in the flash tier or still to be zeroed: the end waits, as an access of the
hardware does (R90, R92, R245). -/
def Chip.counterWaits (g : Mgmt) (c : Chip) (task : Task) : Bool × Chip :=
  match task.counter with
  | none => (false, c)
  | some a =>
    match c.reach g (hardwareWho c.t.agentId c.tid) .atomic true a 4 with
    | (.absent _, c) => (true, c)
    | (.zeroing _ _ _ _, c) => (true, c)
    | (_, c) => (false, c)

/-- The join counter of a task that ends goes down by 1 (R245 step 3, R272): nothing where its page cannot be reached. -/
def Chip.countDown (g : Mgmt) (c : Chip) (counter : Option Dword) (rel : Nat) : Chip :=
  match counter with
  | none => c
  | some a =>
    match c.spotOf g a with
    | (none, c) => c
    | (some s, c) =>
      let (w, c) := c.readLatest c.t.agentId s.loc s.key
      let c := c.writeBytes c.t.agentId (some c.tid) true (some rel) none s (bytesOfWord (w - 1))
      (c.storeClears s.key 4).noteEnd s.loc rel

/-- The first of n bytes at an address, by the thread that names them, that lies in freed blocks of a core's slice (R118). -/
def waitsIn (g : Mgmt) (k : CoreId) (blocks : List Nat) (tid : TId) (a : Dword) (n : Nat) : Option Dword :=
  let off : Option Nat := match classify g a with
    | some (.window off) => if tid.coreId = k then some off else none
    | some (.slice k' off) => if k' = k then some off else none
    | _ => none
  off.bind fun off => ((blocksOf off n).find? blocks.contains).map fun b => a + BitVec.ofNat 64 (4096 * b - off)

/-- Blocks of a core's slice in which no grant lies any more are freed: their keys become 0 (R81, R118). The blocks freed
come with the answer. -/
def Chip.freeBlocks (c : Chip) (k : CoreId) : List Nat × Chip :=
  let st := c.core k
  let held := (st.grants.map fun e => blocksOf e.2.1 e.2.2).flatten
  let freed := (List.range 15).filter fun b => decide (st.keys.getD b 0 ≠ 0) && !held.contains b
  (freed, c.setCore k { st with
    keys := freed.foldl (fun (l : List (BitVec 16)) b => l.set b 0) st.keys
    owners := freed.foldl (fun (l : List (Option Nat)) b => l.set b none) st.owners })

/-- A launch's hold of a cluster's slots ends with its last task that names slots (R220). -/
def Chip.dropHold (c : Chip) (k : CId) (launch : Nat) : Chip :=
  let uses (t : Task) : Bool := decide (t.launch = launch) && decide (t.res ≠ 0)
  let running := c.threads.any fun e => decide (e.1.cluster = k) && (match e.2.task with | some t => uses t | none => false)
  let saved := c.saved.any fun s => decide (s.cluster = k) && uses s.task
  let parked := c.den.any fun e => match e.2 with
    | .parked p => decide (p.saved.cluster = k) && uses p.saved.task
    | .woken p _ _ _ _ _ => decide (p.saved.cluster = k) && uses p.saved.task
    | .pending _ _ => false
  let cl := c.cluster k
  if decide (cl.holder = some launch) && !(running || saved || parked) then c.setCluster k { cl with holder := none } else c

/-- The number of a frame in a die's pool (R301). -/
def frameIndex (d : Die) (frame : Dword) : Nat := (frame - d.fpbase).toNat / 2048

/-- Where a frame came from: its die gets it back (R301). -/
def Chip.returnFrame (c : Chip) (frame : Dword) : Chip :=
  let die := frame.extractLsb' 48 3
  let give (die : BitVec 3) (c : Chip) : Chip :=
    let d := c.die die
    let i := frameIndex d frame
    if decide (i < d.fpcount.toNat) && d.fptaken.contains i then c.setDie die { d with fptaken := d.fptaken.filter fun j => decide (j ≠ i) } else c
  let d := c.die die
  if decide (frameIndex d frame < d.fpcount.toNat) && d.fptaken.contains (frameIndex d frame) then give die c
  else lanes8.foldl (fun (c : Chip) k => give k c) c

/-- THE END OF A TASK on the acting thread, whose jobs are over (R245, R257): the blocks of its core that are freed come
with the answer. -/
def Chip.endTask (g : Mgmt) (c : Chip) (task : Task) : List Nat × CoreId × Chip :=
  let me := c.t.agentId
  let (sy, c) := c.release me (.thread c.tid) 5
  let (n, c) := c.release me (.thread c.tid) 0
  let c := c.countDown g task.counter n
  let c := (c.releaseLock c.tid).dropHoard c.tid
  let frame := c.t.csr.tframe
  let cluster := c.tid.cluster
  let home := (List.range Config.cores).find? fun i =>
    (c.core ⟨cluster.cx, cluster.cy, i⟩).grants.any fun e => decide (e.1 = task.id)
  let k : CoreId := ⟨cluster.cx, cluster.cy, home.getD c.tid.core⟩
  let c := { c with
    jobs := c.jobs.filter fun j => decide (j.task ≠ task.id)
    tiles := c.tiles.filter fun x => decide (x.task ≠ task.id)
    triggers := c.triggers.filter fun e => decide (e.1 ≠ c.tid)
    passed := c.passed.filter fun e => decide (e.task ≠ task.id)
    t := Thread.reset }
  let st := c.core k
  let c := c.setCore k { st with grants := st.grants.filter fun e => decide (e.1 ≠ task.id) }
  let (freed, c) := c.freeBlocks k
  let c := ((c.dropImage task.id).dropHold cluster task.launch).returnFrame frame
  let c := match c.launchOf task.launch with
    | some l => c.setLaunch { l with tokens := sy :: l.tokens }
    | none => c
  (freed, k, c)

end Sys2Proof.Machine
end

