-- ==== Sys2Proof/Machine/Sched.lean ====
section
/-! DEFINITION. The SCHED instructions of tasks, the Dispenser and gangs (R253 to R266). -/

namespace Sys2Proof.Machine

/-! ## Records (R253) -/

/-- A stop of the acting thread's instruction, or its bytes with the machine after them. -/
abbrev Got (α : Type) := Except Tried α × Chip

/-- What an unanswered access to another module by an instruction of several accesses comes to: it tries again, or the path is lost
(R346, log 10). -/
def Chip.unanswered (c : Chip) (kind : Kind) (a : Dword) (m : BitVec 12) : Tried × Chip :=
  let (i, c) := c.draw 2
  (if i = 0 then .held else .stop Cause.remoteFail a (remoteInfo kind 0 m Cause.remoteFail), c)

/-- The 64 bytes of a record, read once after steps 3 to 5 of R120 as a read (R254). -/
def Chip.readRecord (g : Mgmt) (c : Chip) (w : Issuer) (earlier : List Pending) (r : Dword) : Got (List Byte) :=
  match c.reach g w.who .read false r 64 with
  | (.fails cause, c) => (.error (.stop cause r (accessInfo .read 0)), c)
  | (.absent page, c) => (.error (.absent page r (accessInfo .read 0)), c)
  | (.zeroing _ _ _ _, c) => (.error .held, c)
  | (.den _, c) => (.ok (List.replicate 64 0), c)
  | (.away m, c) =>
    match c.remoteAnswer with
    | (.cause cause, c) => (.error (.stop cause r (remoteInfo .read 0 m cause)), c)
    | (.none, c) => let (t, c) := c.unanswered .read r m; (.error t, c)
    | (.value _, c) => let (bs, c) := Chip.freeBytes 8 c; (.ok bs, c)
  | (.ok s _, c) =>
    if c.anyPoison s.key 64 then
      (.error (.stop Cause.memPoison (r + BitVec.ofNat 64 (c.firstPoison s.key 64)) (accessInfo .read 0)), c)
    else if behind g w earlier (.vldc r 0 0) then (.error .held, c)
    else
      let (bs, c) := c.readBytes w.who.agent s 64
      (.ok bs, c)

/-- Where the join counter of a spawn stands, after steps 3 to 5 of R120 as an atomic (R254): none for no counter or one
that is not in this module's memory. -/
def Chip.checkCounter (g : Mgmt) (c : Chip) (w : Issuer) (earlier : List Pending) (xc : Reg) (a : Dword) :
    Got (Option Spot) :=
  if xc = 0 then (.ok none, c)
  else
    match c.reach g w.who .atomic true a 4 with
    | (.fails cause, c) => (.error (.stop cause a (accessInfo .atomic 0)), c)
    | (.absent page, c) => (.error (.absent page a (accessInfo .atomic 0)), c)
    | (.zeroing _ _ _ _, c) => (.error .held, c)
    | (.den _, c) => (.ok none, c)
    | (.away m, c) =>
      match c.remoteAnswer with
      | (.cause cause, c) => (.error (.stop cause a (remoteInfo .atomic 0 m cause)), c)
      | (.none, c) => let (t, c) := c.unanswered .atomic a m; (.error t, c)
      | (.value _, c) => (.ok none, c)
    | (.ok s _, c) =>
      if c.anyPoison s.key 4 then (.error (.stop Cause.memPoison a (accessInfo .atomic 0)), c)
      else if behind g w earlier (.amo .add false a 1) then (.error .held, c)
      else (.ok (some s), c)

/-- The fields of a record (R253). -/
structure Record where
  entry : Dword
  args : List Dword
  tiles : Nat
  res : Nat
  slice : Nat
  mode : Nat
  b61 : Nat
  count : Nat

/-- A record's fields from its bytes (R253). -/
def Record.ofBytes (bs : List Byte) : Record where
  entry := frameDword bs 0
  args := (List.range 6).map fun i => frameDword bs (8 + 8 * i)
  tiles := fieldAt bs 56 1
  res := fieldAt bs 57 1
  slice := fieldAt bs 58 2
  mode := fieldAt bs 60 1
  b61 := fieldAt bs 61 1
  count := fieldAt bs 62 2

/-- The record asks for more than a core or a cluster holds (R254). -/
def Record.tooMuch (r : Record) : Bool := decide (4 < r.tiles) || decide (8 < r.res) || decide (61440 < r.slice)

/-- The acting thread's task's own CSRs: in a handler, those that its frame holds (R302, R305). -/
def Chip.taskCsrs (c : Chip) : Csrs :=
  match c.t.handler, c.images.find? fun k => decide (some k.task = c.t.task.map Task.id) with
  | some _, some k => frameCsrs k.bytes c.t.csr
  | _, _ => c.t.csr

/-- The item of a record issued by the acting thread, with its task's identity and key (R253). -/
def Chip.itemOf (c : Chip) (r : Record) (counter : Option Dword) (rel : Nat) : Item × Chip :=
  let t := c.t
  let n := c.nextTask
  let csr := c.taskCsrs
  let key := match t.task with | some k => c.launchKey k csr.ldkey | none => csr.ldkey
  (⟨n, r.entry, r.args, r.tiles, r.res, r.slice, r.mode, counter, (t.task.map Task.launch).getD 0, csr.tile,
    csr.org, csr.ext, key, (t.task.map Task.rgn).getD (c.core c.tid.coreId).rgn, [rel]⟩,
    { c with nextTask := n + 1 })

/-- A long-latency instruction of the acting thread completes at once, with what it writes (R46). -/
def Chip.lateX (g : Mgmt) (c : Chip) (la : BitVec 4) (xd : Reg) (v : Dword) : Out :=
  c.finish g (some (c.entry (.x xd) la none 0 (.x v) 0 none 0)) (c.t.pc + 4) false
/-- A long-latency instruction of the acting thread that writes no register completes at once. -/
def Chip.lateNone (g : Mgmt) (c : Chip) (la : BitVec 4) : Out :=
  c.finish g (some (c.entry .none la none 0 .none 0 none 0)) (c.t.pc + 4) false

/-! ## spawn and join (R254, R255, R258, R259) -/

/-- A core's deque is full (R254, R255). -/
def dequeFull (d : List Item) : Bool := decide (64 ≤ d.length) && decide (64 + Config.dequeExtra ≤ d.length)

/-- A cluster named by coordinates (R254, R260). -/
def clusterAt (x y : BitVec 8) : CId := ⟨x.toNat, y.toNat⟩

/-- A spawn's hint is malformed, or names a cluster outside the mesh or the stealing domain (R254). -/
def Chip.badHint (c : Chip) (h : Dword) : Bool :=
  let k := clusterAt (h.extractLsb' 0 8) (h.extractLsb' 8 8)
  if h.getLsbD 63 then
    decide (h.extractLsb' 24 39 ≠ 0) || !inMesh k ||
      !c.inDomain ((c.t.task.map Task.launch).getD 0) c.tid.cluster k
  else decide (h ≠ 0)

/-- The item of a spawn is placed, with its counter's increment, in one step (R254). -/
def Chip.placeSpawn (c : Chip) (w : Issuer) (earlier : List Pending) (spot : Option Spot) (r : Record) (h : Dword) : Chip :=
  let c := match spot with
    | some s => (c.performAmo w s .add false 1).2
    | none => c
  let (n, c) := c.releaseFor w earlier 0
  let (item, c) := c.itemOf r (spot.map fun s => globalOf s.loc) n
  let k := c.core c.tid.coreId
  if h.getLsbD 63 then
    let w : Walk := ⟨item, c.tid.cluster, clusterAt (h.extractLsb' 0 8) (h.extractLsb' 8 8), (h.extractLsb' 16 8).toNat⟩
    { c with walks := c.walks ++ [w] }
  else c.setCore c.tid.coreId { k with deque := k.deque ++ [item] }

/-- spawn of a record at r with its counter at a and its hint h (R254); its release carries every earlier store, and what every
earlier acquire makes visible (R280, R283). -/
def Chip.trySpawn (g : Mgmt) (c : Chip) (w : Issuer) (earlier : List Pending) (xc : Reg) (a r h : Dword) : Tried × Chip :=
  if !alignedTo r 64 then (.stop Cause.misalign r 64, c)
  else if decide (xc ≠ 0) && !alignedTo a 4 then (.stop Cause.misalign a 4, c)
  else
    match c.readRecord g w earlier r with
    | (.error t, c) => (t, c)
    | (.ok bs, c) =>
      match c.checkCounter g w earlier xc a with
      | (.error t, c) => (t, c)
      | (.ok spot, c) =>
        let q := Record.ofBytes bs
        if q.entry.getLsbD 0 || decide (q.slice % 64 ≠ 0) || decide (q.mode ≠ 0) || decide (q.b61 ≠ 0) ||
            decide (q.count ≠ 0) || c.badHint h then (.stop Cause.launchArg r 0, c)
        else if q.tooMuch then (.stop Cause.launchResource r 0, c)
        else if !h.getLsbD 63 && dequeFull (c.core c.tid.coreId).deque then (.saves (.deque c.tid.coreId), c)
        else if unready earlier then (.held, c)
        else (.nothing, c.placeSpawn w earlier spot q h)

/-- spawn (R254). -/
def execSpawn (la : BitVec 4) (xc xa xb : Reg) (s : State) : Host.Outcome State Fault Refusal :=
  s.run fun g c =>
    let acc : Access := .late (.spawn la xc xa xb) [c.t.getX xc, c.t.getX xa, c.t.getX xb]
    let (t, c) := c.trySpawn g c.issuer c.t.pend xc (c.t.getX xc) (c.t.getX xa) (c.t.getX xb)
    Chip.composite g la .none 0 acc (.next (t.covered acc, c))

/-- The end of a `join` that read 0: the consumer side of every child's end that counted the word down (R257, R259). -/
def Chip.joined (g : Mgmt) (c : Chip) (loc : Nat) : Out :=
  ((c.dropHoard c.tid).consume c.t.agentId c.tid ((tableGet c.joins loc).getD [])).next g 4

/-- join (R259); its acquire on 0 follows the earlier reads of the thread (R281). -/
def execJoin (xa : Reg) (s : State) : Host.Outcome State Fault Refusal :=
  s.run fun g c =>
    let a := c.t.getX xa
    if !alignedTo a 4 then c.raise g Cause.misalign a 4
    else
      match c.reach g (c.t.who c.tid) .read false a 4 with
      | (.fails cause, c) => c.raise g cause a (accessInfo .read 0)
      | (.absent page, c) => c.absentStop g page a (accessInfo .read 0)
      | (.zeroing _ _ _ _, c) => c.hold
      | (.den _, c) => if unread c.t.pend then c.hold else (c.acquireT 5 []).next g 4
      | (.away m, c) =>
        match c.remoteAnswer with
        | (.cause cause, c) => c.raise g cause a (remoteInfo .read 0 m cause)
        | (.none, c) => let (t, c) := c.unanswered .read a m; c.triedStop g t
        | (.value v, c) =>
          if v.extractLsb' 0 32 ≠ 0 then c.saveWaiting g c.t.stopPc .ready
          else if unread c.t.pend then c.hold
          else (c.acquireT 5 []).next g 4
      | (.ok sp _, c) =>
        if c.anyPoison sp.key 4 then c.raise g Cause.memPoison a (accessInfo .read 0)
        else if behind g c.issuer c.t.pend (.load 2 a) then c.hold
        else
          let (w, c') := c.readLatest c.t.agentId sp.loc sp.key
          if w ≠ 0 then c'.saveWaiting g c'.t.stopPc (.join sp.loc)
          else if unread c.t.pend then c.hold
          else c'.joined g sp.loc

/-! ## The Dispenser (R260 to R262) -/

/-- disp's target by the value v of its register (R260): none where it is malformed or outside the domain. -/
def Chip.dispTarget (c : Chip) (xb : Reg) (v : Dword) : Option CId :=
  if xb = 0 then some c.tid.cluster
  else
    let k := clusterAt (v.extractLsb' 0 8) (v.extractLsb' 8 8)
    if decide (v.extractLsb' 16 48 = 0) && inMesh k && c.inDomain ((c.t.task.map Task.launch).getD 0) c.tid.cluster k then some k
    else none

/-- The free dependence entries of a table (R260). -/
def freeDeps (l : List DepEntry) : List Nat :=
  (List.range 256).filter fun i => !l.any fun e => decide (e.index.toNat = i) && e.held.isSome
/-- The generation of a dependence entry. -/
def depGen (l : List DepEntry) (i : Byte) : BitVec 16 :=
  match l.find? fun e => decide (e.index = i) with
  | some e => e.gen
  | none => 0
/-- A dependence entry set. -/
def putDep (l : List DepEntry) (e : DepEntry) : List DepEntry := e :: l.filter fun x => decide (x.index ≠ e.index)

/-- A dependence handle (R260). -/
def depHandle (gen : BitVec 16) (k : CId) (i : Byte) : Dword :=
  0#24 ++ gen ++ BitVec.ofNat 8 k.cy ++ BitVec.ofNat 8 k.cx ++ i

/-- An item sent to a cluster's list, or to a dependence entry (R260). -/
def Chip.sendItem (g : Mgmt) (c : Chip) (w : Issuer) (earlier : List Pending) (k : CId) (q : Record) : Tries :=
  if q.count = 0 then
    let (n, c) := c.releaseFor w earlier 0
    let (item, c) := c.itemOf q none n
    tryThen (c.appendItem g k item) fun c => (.x 0, c)
  else
    let free := freeDeps (c.cluster k).deps
    let (i, c) := c.draw free.length
    match free[i]? with
    | none => .next (.held, c)
    | some index =>
      let (n, c) := c.releaseFor w earlier 0
      let (item, c) := c.itemOf q none n
      let cl := c.cluster k
      let idx : Byte := BitVec.ofNat 8 index
      let gen := depGen cl.deps idx
      let c := c.setCluster k { cl with deps := putDep cl.deps ⟨idx, gen, some (item, q.count)⟩ }
      .next (.x (depHandle gen k idx), c)

/-- disp of a record at r to the target that v names (R260); its release as for spawn (R280, R283). acc is what its window covers:
the wait for a free dependence entry it does not (R354). -/
def Chip.tryDisp (g : Mgmt) (c : Chip) (w : Issuer) (earlier : List Pending) (acc : Access) (xb : Reg) (r v : Dword) : Tries :=
    if !alignedTo r 64 then .next (.stop Cause.misalign r 64, c)
    else
      match c.readRecord g w earlier r with
      | (.error t, c) => .next (t.covered acc, c)
      | (.ok bs, c) =>
        let q := Record.ofBytes bs
        match c.dispTarget xb v with
        | none => .next (.stop Cause.launchArg r 0, c)
        | some k =>
          if q.entry.getLsbD 0 || decide (q.slice % 64 ≠ 0) || decide (1 < q.mode) || decide (q.b61 ≠ 0) ||
              (decide (q.mode = 1) && (decide (q.tiles ≠ 0) || decide (q.res ≠ 0) || decide (q.slice ≠ 0))) ||
              (decide (q.entry = endLink) && decide (q.mode = 0)) then .next (.stop Cause.launchArg r 0, c)
          else if q.tooMuch then .next (.stop Cause.launchResource r 0, c)
          else if unready earlier then .next (.waits acc [], c)
          else c.sendItem g w earlier k q

/-- disp (R260). -/
def execDisp (la : BitVec 4) (xd xa xb : Reg) (s : State) : Host.Outcome State Fault Refusal :=
  s.run fun g c =>
    let acc : Access := .late (.disp la xd xa xb) [c.t.getX xa, c.t.getX xb]
    Chip.composite g la (.x xd) 0 acc (c.tryDisp g c.issuer c.t.pend acc xb (c.t.getX xa) (c.t.getX xb))

/-- depdec of a handle (R261); its release as for spawn (R280, R283). -/
def Chip.tryDepdec (g : Mgmt) (c : Chip) (w : Issuer) (earlier : List Pending) (acc : Access) (h : Dword) : Tries :=
    let k := clusterAt (h.extractLsb' 8 8) (h.extractLsb' 16 8)
    let idx := h.extractLsb' 0 8
    let cl := c.cluster k
    let entry := cl.deps.find? fun e => decide (e.index = idx) && decide (e.gen = h.extractLsb' 24 16)
    match entry with
    | some ⟨_, gen, some (item, count)⟩ =>
      if decide (h.extractLsb' 40 24 ≠ 0) || !inMesh k then .next (.stop Cause.depHandle 0 0, c)
      else if unready earlier then .next (.waits acc [], c)
      else
        let (n, c) := c.releaseFor w earlier 0
        let item := { item with tokens := item.tokens ++ [n] }
        let left := count - 1
        if left = 0 then
          let c := c.setCluster k { cl with deps := putDep cl.deps ⟨idx, gen + 1, none⟩ }
          tryThen (c.appendItem g k item) fun c => (.x 0, c)
        else
          let c := c.setCluster k { cl with deps := putDep cl.deps ⟨idx, gen, some (item, left)⟩ }
          .next (.x (BitVec.ofNat 64 left), c)
    | _ => .next (.stop Cause.depHandle 0 0, c)

/-- depdec (R261). -/
def execDepdec (la : BitVec 4) (xd xa : Reg) (s : State) : Host.Outcome State Fault Refusal :=
  s.run fun g c =>
    let acc : Access := .late (.depdec la xd xa) [c.t.getX xa]
    Chip.composite g la (.x xd) 0 acc (c.tryDepdec g c.issuer c.t.pend acc (c.t.getX xa))

/-- wfw (R262). -/
def execWfw (s : State) : Host.Outcome State Fault Refusal :=
  s.run fun g c =>
    let (n, c) := c.tick
    let c := c.releaseLock c.tid
    let me := c.tid
    andThen (Chip.deliver g c.tid.cluster ((c.cluster c.tid.cluster).modeOne.length)
      { c with t := { c.t with run := .wait (.wfw n) } }) fun c => .next (c.focus me)

/-- yield (R263): in a handler it changes nothing (log 20). While the task's save must wait, the yield is not complete. -/
def execYield (s : State) : Host.Outcome State Fault Refusal :=
  s.run fun g c =>
    match c.t.task with
    | none => c.next g 4
    | some task =>
      let k := c.tid.cluster
      let cores := (List.range Config.cores).map fun n => (⟨k.cx, k.cy, n⟩ : CoreId)
      let freeThread (k : CoreId) : Bool :=
        decide (k = c.tid.coreId) || decide (((c.threadsOf k).filter fun e => decide (e.2.run ≠ .free)).length < Config.threads)
      if c.t.handler.isSome || !cores.any (fun k => freeThread k && c.anyTakeable k (some task.id) fun _ => true) then c.next g 4
      else
        match c.stopWaits g with
        | some c => .next c
        | none =>
          let left := c.waitingIn k
          andThen (c.next g 4) fun c =>
            if c.t.run = .wait .taskEnd then .next c else c.schedulerSave g c.t.pc 0 0 0 false 2 (.yielded left)

/-! ## Gangs (R264 to R266) -/

/-- The size of a gang by its size code: 2, 4 or 8 cores (R28). -/
def gangCount (code : BitVec 5) : Nat := 2 ^ code.toNat

/-- A thread's core lies in the group of n cores that another thread's core lies in. -/
def sameGroup (n : Nat) (a b : TId) : Bool :=
  decide (a.cluster = b.cluster) && decide (a.thread = b.thread) && decide (a.core / n = b.core / n)

/-- A gang forms (R264): the lowest core leads, and every member's `gang` completes. -/
def Chip.formGang (g : Mgmt) (n : Nat) (lead : TId) : List TId → Chip → Out
  | [], c => .next c
  | tid :: rest, c =>
    let c := c.focus tid
    andThen (Chip.next g { c with t := { c.t with run := .ready } } 4) fun c =>
      let t := c.t
      let run := if tid = lead then t.run else if t.run = .ready then .follow else t.run
      Chip.formGang g n lead rest
        { c with t := { t with gangSize := n, gangMember := tid.core % n, gangLeader := lead, run := run } }

/-- gang (R264). -/
def execGang (size : BitVec 5) (s : State) : Host.Outcome State Fault Refusal :=
  s.run fun g c =>
    let n := gangCount size
    let me := c.tid
    let waiting (e : TId × Thread) : Option Nat := match e.2.run with | .wait (.gang m) => some m | _ => none
    let differs := c.others.any fun e => match waiting e with
      | some m => decide (m ≠ n) && (sameGroup n me e.1 || sameGroup m me e.1)
      | none => false
    if differs || !c.t.loops.isEmpty || c.t.repc.getLsbD 7 || decide (c.t.gangSize ≠ 0) then c.raise g Cause.gangState 0 0
    else
      let there := (c.others.filter fun e => decide (waiting e = some n) && sameGroup n me e.1).map (·.1)
      if there.length + 1 < n then .next { c with t := { c.t with run := .wait (.gang n) } }
      else
        let first := me.core / n * n
        let members := (List.range n).map fun i => (⟨me.cx, me.cy, first + i, me.thread⟩ : TId)
        andThen (Chip.formGang g n ⟨me.cx, me.cy, first, me.thread⟩ members c) fun c => .next (c.focus me)

/-- ungang (R266): outside a gang it changes nothing. -/
def execUngang (s : State) : Host.Outcome State Fault Refusal :=
  s.run fun g c => (c.disband c.tid).next g 4

end Sys2Proof.Machine
end

