-- ==== Sys2Proof/Machine/Sync.lean ====
section
/-! DEFINITION. Full/empty words, atomics, locked pairs, multicast and prefetch (R123 to R137). -/

namespace Sys2Proof.Machine

/-- The orders and the scope that a synchronising form executes with, and the fallback it meets (R56 codes 0x04 and 0x05,
R127). load says that the form takes `.acq` alone; both that it takes either. -/
def syncOrder (load both : Bool) (order : BitVec 2) (scope : BitVec 3) : Bool × Bool × BitVec 3 × Byte :=
  let acq := order.getLsbD 0
  let rel := order.getLsbD 1
  if order = 0 then (false, false, 0, if scope = 0 then 0 else 0x05)
  else if both then (acq, rel, scope, 0)
  else if (load && !rel) || (!load && !acq) then (acq, rel, scope, 0)
  else (true, true, scope, 0x04)

/-- A synchronising instruction (R126, R127). -/
def synchronise (form : SyncForm) (load both : Bool) (la : BitVec 4) (order : BitVec 2) (scope : BitVec 3) (dest : Dest)
    (data xb : Reg) (s : State) : Host.Outcome State Fault Refusal :=
  s.run fun g c =>
    let (acq, rel, sc, code) := syncOrder load both order scope
    c.access g la dest (.sync form acq rel sc (c.t.getX xb) ((c.t.getX data).extractLsb' 0 32) none) code

/-- An atomic (R129). -/
def atomic (op : AmoOp) (wide : Bool) (la : BitVec 4) (xd xv xb : Reg) (s : State) : Host.Outcome State Fault Refusal :=
  s.run fun g c => c.access g la (.x xd) (.amo op wide (c.t.getX xb) (c.t.getX xv)) 0

/-- ldw.ff (R126). -/
def execLdwFf (la : BitVec 4) (order : BitVec 2) (scope : BitVec 3) (xd xb : Reg) (s : State) : Host.Outcome State Fault Refusal :=
  synchronise .ldwFf true false la order scope (.x xd) 0 xb s

/-- ldw.fe (R126). -/
def execLdwFe (la : BitVec 4) (order : BitVec 2) (scope : BitVec 3) (xd xb : Reg) (s : State) : Host.Outcome State Fault Refusal :=
  synchronise .ldwFe true true la order scope (.x xd) 0 xb s

/-- ldw.nw (R126). -/
def execLdwNw (la : BitVec 4) (order : BitVec 2) (scope : BitVec 3) (xd xb : Reg) (s : State) : Host.Outcome State Fault Refusal :=
  synchronise .ldwNw true false la order scope (.x xd) 0 xb s

/-- stw.ef (R126). -/
def execStwEf (la : BitVec 4) (order : BitVec 2) (scope : BitVec 3) (xs xb : Reg) (s : State) : Host.Outcome State Fault Refusal :=
  synchronise .stwEf false false la order scope .none xs xb s

/-- stw.f (R126). -/
def execStwF (la : BitVec 4) (order : BitVec 2) (scope : BitVec 3) (xs xb : Reg) (s : State) : Host.Outcome State Fault Refusal :=
  synchronise .stwF false false la order scope .none xs xb s

/-- purge (R126). -/
def execPurge (la : BitVec 4) (order : BitVec 2) (scope : BitVec 3) (xb : Reg) (s : State) : Host.Outcome State Fault Refusal :=
  synchronise .purge false false la order scope .none 0 xb s

/-- mcst (R135): xm is x0 for every copy. -/
def execMcst (la : BitVec 4) (xv xm xb : Reg) (s : State) : Host.Outcome State Fault Refusal :=
  s.run fun g c =>
    let mask := if xm = 0 then none else some ((c.t.getX xm).extractLsb' 0 4)
    c.access g la .none (.mcst (c.t.getX xb) (c.t.getX xv) mask none 0 0) 0

/-- amo.add.w (R129). -/
def execAmoAddW (la : BitVec 4) (xd xv xb : Reg) (s : State) : Host.Outcome State Fault Refusal :=
  atomic .add false la xd xv xb s

/-- amo.and.w (R129). -/
def execAmoAndW (la : BitVec 4) (xd xv xb : Reg) (s : State) : Host.Outcome State Fault Refusal :=
  atomic .and false la xd xv xb s

/-- amo.or.w (R129). -/
def execAmoOrW (la : BitVec 4) (xd xv xb : Reg) (s : State) : Host.Outcome State Fault Refusal :=
  atomic .or false la xd xv xb s

/-- amo.xor.w (R129). -/
def execAmoXorW (la : BitVec 4) (xd xv xb : Reg) (s : State) : Host.Outcome State Fault Refusal :=
  atomic .xor false la xd xv xb s

/-- amo.min.w (R129). -/
def execAmoMinW (la : BitVec 4) (xd xv xb : Reg) (s : State) : Host.Outcome State Fault Refusal :=
  atomic .min false la xd xv xb s

/-- amo.max.w (R129). -/
def execAmoMaxW (la : BitVec 4) (xd xv xb : Reg) (s : State) : Host.Outcome State Fault Refusal :=
  atomic .max false la xd xv xb s

/-- amo.swap.w (R129). -/
def execAmoSwapW (la : BitVec 4) (xd xv xb : Reg) (s : State) : Host.Outcome State Fault Refusal :=
  atomic .swap false la xd xv xb s

/-- amo.add.d (R129). -/
def execAmoAddD (la : BitVec 4) (xd xv xb : Reg) (s : State) : Host.Outcome State Fault Refusal :=
  atomic .add true la xd xv xb s

/-- amo.and.d (R129). -/
def execAmoAndD (la : BitVec 4) (xd xv xb : Reg) (s : State) : Host.Outcome State Fault Refusal :=
  atomic .and true la xd xv xb s

/-- amo.or.d (R129). -/
def execAmoOrD (la : BitVec 4) (xd xv xb : Reg) (s : State) : Host.Outcome State Fault Refusal :=
  atomic .or true la xd xv xb s

/-- amo.xor.d (R129). -/
def execAmoXorD (la : BitVec 4) (xd xv xb : Reg) (s : State) : Host.Outcome State Fault Refusal :=
  atomic .xor true la xd xv xb s

/-- amo.min.d (R129). -/
def execAmoMinD (la : BitVec 4) (xd xv xb : Reg) (s : State) : Host.Outcome State Fault Refusal :=
  atomic .min true la xd xv xb s

/-- amo.max.d (R129). -/
def execAmoMaxD (la : BitVec 4) (xd xv xb : Reg) (s : State) : Host.Outcome State Fault Refusal :=
  atomic .max true la xd xv xb s

/-- amo.swap.d (R129). -/
def execAmoSwapD (la : BitVec 4) (xd xv xb : Reg) (s : State) : Host.Outcome State Fault Refusal :=
  atomic .swap true la xd xv xb s

/-- cas (R130). -/
def execCas (la : BitVec 4) (xd xn xb : Reg) (s : State) : Host.Outcome State Fault Refusal :=
  s.run fun g c => c.access g la (.x xd) (.cas (c.t.getX xb) (c.t.getX xd) (c.t.getX xn)) 0

/-- cas.128 (R130). -/
def execCas128 (la : BitVec 4) (xd xn xb : Reg) (s : State) : Host.Outcome State Fault Refusal :=
  s.run fun g c =>
    c.access g la (.pair xd)
      (.cas128 (c.t.getX xb) (c.t.getX xd) (c.t.getX (xd + 1)) (c.t.getX xn) (c.t.getX (xn + 1))) 0

/-- ldl (R132). -/
def execLdl (la : BitVec 4) (xd xb : Reg) (s : State) : Host.Outcome State Fault Refusal :=
  s.run fun g c => c.access g la (.x xd) (.ldl (c.t.getX xb)) 0

/-- stu (R133). -/
def execStu (la : BitVec 4) (xd xv xb : Reg) (s : State) : Host.Outcome State Fault Refusal :=
  s.run fun g c => c.access g la (.x xd) (.stu (c.t.getX xb) (c.t.getX xv) none) 0

/-- Where a hoard line may be filled from: heap memory or another core's slice, where no check fails (R128, R161). -/
def Chip.hoardSpot (g : Mgmt) (c : Chip) (tid : TId) (a : Dword) : Option Spot × Chip :=
  let who := (c.thread tid).who tid
  match classify g a with
  | some (.slice k off) =>
    let o := off / 64 * 64
    (if decide (k ≠ tid.coreId) && keyAdmits (c.core k) who o 64 && !c.anyPoison (sliceKey k o) 64 then some ⟨sliceLoc k o, sliceKey k o⟩ else none, c)
  | some (.heap d off) =>
    match denOffset g d off with
    | some _ => (none, c)
    | none => match c.reachHeap who .read d (off / 64 * 64) with
      | (.ok s _, c') => if c'.anyPoison s.key 64 then (none, c) else (some s, c')
      | _ => (none, c)
  | _ => (none, c)

/-- A hoard line may be asked for by a thread. -/
def Chip.hoardable (g : Mgmt) (c : Chip) (tid : TId) (a : Dword) : Bool := (c.hoardSpot g tid a).1.isSome

/-- pref (R128): the request alone; whether a line is filled is the event HOARD_FILL. -/
def execPref (la : BitVec 4) (xb : Reg) (s : State) : Host.Outcome State Fault Refusal :=
  s.run fun g c =>
    let a := c.t.getX xb
    let c := if c.hoardable g c.tid a then { c with asked := c.asked ++ [(c.tid, a &&& ~~~63)] } else c
    c.finish g (some (c.entry .none la none 0 .none 0 none 0)) (c.t.pc + 4) false

end Sys2Proof.Machine
end

