-- ==== Sys2Proof/Machine/Engines.lean ====
section
/-! DEFINITION. The instructions that issue jobs of the cluster's engines (R138 to R149, R168, R322), and those of the
Squirrels (R156 to R160). -/

namespace Sys2Proof.Machine

/-! ## Ranges and the checks of R141 -/

/-- The offset in the issuing thread's own slice that an address names (R143). -/
def ownOffset (g : Mgmt) (tid : TId) (a : Dword) : Option Nat :=
  match classify g a with
  | some (.window off) => some off
  | some (.slice k off) => if k = tid.coreId then some off else none
  | _ => none

/-- n bytes from an address lie wholly in the thread's own slice. -/
def ownRange (g : Mgmt) (tid : TId) (a : Dword) (n : Nat) : Bool :=
  match ownOffset g tid a with
  | some off => decide (off + n ≤ 0x10000)
  | none => false

/-- A byte range that an instruction names: its first byte, its extent and whether it is written. -/
structure Range where
  first : Dword
  extent : Nat
  write : Bool

def Range.kind (r : Range) : Kind := if r.write then .write else .read

/-- Step 4 of R141 for one range: the failing byte, if there is one: of a slice, the first past its 64 KiB; of the heap, the first
with no form behind the first slice that follows it (R76, R78). -/
def Range.badAddress (g : Mgmt) (r : Range) : Option Dword :=
  if r.extent = 0 then none
  else
    match classify g r.first with
    | none => some r.first
    | some t =>
      let passes (off : Nat) : Option Dword :=
        if 0x10000 < off + r.extent then some (r.first + BitVec.ofNat 64 (0x10000 - off)) else none
      let low := r.first.toNat % 2 ^ 52
      let leaves : Option Dword :=
        if 2 ^ 51 + 0x10000 < low + r.extent then some (r.first + BitVec.ofNat 64 (2 ^ 51 + 0x10000 - low)) else none
      match t with
      | .window off => passes off
      | .slice _ off => passes off
      | .remote _ => if r.first.getLsbD 51 then passes (r.first.toNat % 0x10000) else leaves
      | _ => leaves

/-- Step 6 of R141 for one range: the failing byte, if there is one. -/
def Range.unprotected (g : Mgmt) (lwin : List Dword) (r : Range) : Option Dword :=
  match classify g r.first with
  | some (.window off) =>
    ((List.range r.extent).find? fun i => !windowAllows lwin (off + i) 1 (!r.write) r.write).map fun i =>
      r.first + BitVec.ofNat 64 i
  | _ => none

/-- Bytes [a, a + n) and [b, b + m) share one. -/
def overlaps (a n b m : Nat) : Bool := decide (a < b + m) && decide (b < a + n) && decide (n ≠ 0) && decide (m ≠ 0)

/-- Row [a, a + w) shares a byte with some row [b + k·q, b + k·q + w), k < h. -/
def rowMeets (a w b q h : Nat) : Bool :=
  let k := if a < b + w then 0 else if q = 0 then h else (a - b - w) / q + 1
  decide (k < h) && overlaps a w (b + k * q) w

/-- The stop of an engine instruction's issue checks. -/
abbrev IssueStop := Cause × Dword × Dword

/-- The first of some values that is not a multiple of n (R141 step 2). -/
def firstUnaligned (n : Nat) (l : List Dword) : Option IssueStop :=
  (l.find? fun v => !alignedTo v n).map fun v => (Cause.misalign, v, BitVec.ofNat 64 n)

/-- Steps 4 to 6 of R141: the forms of ranges, the overlap test, and the protection of the bytes that are read or written. -/
def rangeChecksOver (g : Mgmt) (lwin : List Dword) (ranges bytes : List Range) (overlap : Option Dword) : Option IssueStop :=
  match ranges.findSome? fun r => (r.badAddress g).map fun b => (b, r) with
  | some (b, r) => some (Cause.addrInvalid, b, accessInfo r.kind 0)
  | none =>
    match overlap with
    | some d => some (Cause.jobOverlap, d, 0)
    | none =>
      (bytes.findSome? fun r => (r.unprotected g lwin).map fun b => (b, r)).map fun e =>
        (Cause.localProtect, e.1, accessInfo e.2.kind 0)

/-- Steps 4 to 6 of R141 over ranges whose every byte is read or written. -/
def rangeChecks (g : Mgmt) (lwin : List Dword) (ranges : List Range) (overlap : Option Dword) : Option IssueStop :=
  rangeChecksOver g lwin ranges ranges overlap

/-- The rows of a cpy2 operand as ranges, where the local window holds them (R141 step 6, R147). -/
def rowRanges (first : Dword) (w h stride : Nat) (write : Bool) : List Range :=
  if first.toNat < 2 ^ 16 && w ≠ 0 then
    (List.range h).map fun r => ⟨first + BitVec.ofNat 64 (r * stride), w, write⟩
  else []

/-- JCTL.TIE = 1 with a reserved BSC (R141 step 3). -/
def badTie (k : Csrs) : Bool := k.jctl.getLsbD 8 && decide (5 < (k.jctl.extractLsb' 0 3).toNat)

/-! ## Issue (R138 to R142) -/

/-- The free entries of a cluster's queue (R138). -/
def Chip.freeEntries (c : Chip) (k : CId) : List Nat :=
  (List.range 32).filter fun i => !c.jobs.any fun j => decide (j.cluster = k) && decide (j.entry.toNat = i)

/-- Bytes added to a barrier's counter, or taken from it; it may complete (R142, R290). `landed` are tied writes. -/
def Chip.countBytes (g : Mgmt) (c : Chip) (k : BarKey) (v : BitVec 56) (landed : View) : Out :=
  let b := barrierGet c.barriers k
  Chip.tryComplete g { c with barriers := barrierPut c.barriers { b with cnt := b.cnt + v, tied := b.tied.join landed } } k

/-- The completion of a job may start a run of its task's thread's kernel (R157). -/
def Chip.jobEvent (c : Chip) (j : Job) : Chip :=
  match c.threadOf j.task with
  | some (tid, _) => c.trigger 3 tid j.ident
  | none => c

/-- The source bytes that a job's operands give (R147, R149): none where memory decides them. -/
def JobKind.sources : JobKind → Option (List (Dword × Nat))
  | .cpy _ s n => some [(s, n)]
  | .cpy2 _ s w h _ q => some [(s, (h - 1) * q + w)]
  | .pub _ _ => some []
  | _ => none

/-- A job's issue must wait: for an earlier acquire of its thread, whose writes its reads see (R127, R146); and for an earlier
store that still waits, of bytes that it may read (R146). -/
def jobWaits (g : Mgmt) (tid : TId) (earlier : List Pending) (kind : JobKind) : Bool :=
  acquiring earlier || earlier.any fun p => match p.access with
    | none => false
    | some b => b.writes && (match kind.sources with
      | none => true
      | some l => l.any fun e => b.parts.any fun q =>
          let x := Chip.locOf g tid e.1
          let y := Chip.locOf g tid q.1
          decide (x < y + q.2.1) && decide (y < x + e.2))

/-- A job of the acting thread issued, with its ID; held while no entry is free (R138, R139, R354). `tied` says that the job obeys
JCTL. A job of no bytes is done at once where `empty` says so (R147). -/
def Chip.issueJob (g : Mgmt) (c : Chip) (kind : JobKind) (streamed tied empty : Bool) (jctl : Word) (lwin : List Dword) : Tries :=
  let k := c.tid.cluster
  let free := c.freeEntries k
  match free with
  | [] => .next (.held, c)
  | e0 :: _ =>
    let (i, c) := c.draw free.length
    let e := free.getD i e0
    let cl := c.cluster k
    let seq := cl.seqs.getD e 0
    let c := c.setCluster k { cl with seqs := cl.seqs.set e (seq + 1) }
    let t := c.t
    let a := c.agent t.agentId
    let bytes := kind.length
    let barrier := if tied && jctl.getLsbD 8 && decide (bytes ≠ 0) then
        some (barKey t c.tid (jctl.extractLsb' 0 3) (jctl.extractLsb' 3 5) t.csr.ldkey) else none
    let job : Job :=
      { cluster := k, entry := BitVec.ofNat 5 e, seq := seq, task := (t.task.map Task.id).getD 0, tid := c.tid,
        key := t.csr.ldkey, sup := t.sup, lwin := lwin, kind := kind, state := if empty then .done else .queued,
        streamed := streamed, landed := 0, scattered := [], tainted := [], indices := [], known := [], view := (a.view.join a.reads).join c.reached,
        authorRel := a.lastRel, wrote := [], tied := barrier, bounds := none, missed := false, operr := false, plan := none, slots := cl.slots,
        pages := 0, inPage := 0, headers := [] }
    let c := { c with jobs := c.jobs ++ [job] }
    let c := if empty then c.jobEvent job else c
    tryThen (match barrier with
      | some b => c.countBytes g b (BitVec.ofNat 56 bytes) []
      | none => .next c) fun c => (.x job.ident, c)

/-- A job's issue, once what it must follow has come. acc is what its window covers. -/
def Chip.tryIssue (g : Mgmt) (c : Chip) (earlier : List Pending) (acc : Access) : Tries :=
  match acc with
  | .job kind streamed tied empty jctl lwin =>
    if jobWaits g c.tid earlier kind then .next (.waits acc [], c) else c.issueJob g kind streamed tied empty jctl lwin
  | _ => .next (.held, c)

/-- An engine instruction: its checks, then its job. -/
def Chip.engine (g : Mgmt) (c : Chip) (la : BitVec 4) (xd : Reg) (stop : Option IssueStop) (kind : JobKind)
    (streamed tied empty : Bool) : Out :=
  match stop with
  | some (cause, a, info) => c.raise g cause a info
  | none =>
    let acc : Access := .job kind streamed tied empty c.t.csr.jctl c.t.csr.lwin
    Chip.composite g la (.x xd) 0 acc (c.tryIssue g c.t.pend acc)

/-! ## Transfers (R147, R148) -/

/-- cpy (R147). An operand that breaks both an alignment and a limit gives MISALIGN: a DESIGN CHOICE (log 61). -/
def execCpy (la : BitVec 4) (xd xa xb : Reg) (s : State) : Host.Outcome State Fault Refusal :=
  s.run fun g c =>
    let d := c.t.getX xa
    let src := c.t.getX (xa + 1)
    let len := c.t.getX xb
    let n := len.toNat
    let stop :=
      match firstUnaligned 4 [d, src, len] with
      | some e => some e
      | none =>
        if 2 ^ 40 ≤ n then some (Cause.jobArg, 0, 0)
        else if badTie c.t.csr then some (Cause.jobArg, 0, 0)
        else rangeChecks g c.t.csr.lwin [⟨d, n, true⟩, ⟨src, n, false⟩]
          (if overlaps d.toNat n src.toNat n then some d else none)
    c.engine g la xd stop (.cpy d src n) (decide (n ≠ 0) && ownRange g c.tid d n) true (decide (n = 0))

/-- cpy2 (R147): a range runs from its first row to its last, while the bytes that overlap and that the protection pairs must
allow are those of its rows: a DESIGN CHOICE (log 61). -/
def execCpy2 (la : BitVec 4) (xd xa xb : Reg) (s : State) : Host.Outcome State Fault Refusal :=
  s.run fun g c =>
    let d := c.t.getX xa
    let src := c.t.getX (xa + 1)
    let u := c.t.getX xb
    let v := c.t.getX (xb + 1)
    let w := (u.extractLsb' 0 32).toNat
    let h := (u.extractLsb' 32 32).toNat
    let p := (v.extractLsb' 0 32).toNat
    let q := (v.extractLsb' 32 32).toNat
    let none? := decide (w = 0) || decide (h = 0)
    let extent (stride : Nat) : Nat := if none? then 0 else (h - 1) * stride + w
    let stop :=
      match firstUnaligned 4 [d, src, BitVec.ofNat 64 w, BitVec.ofNat 64 p, BitVec.ofNat 64 q] with
      | some e => some e
      | none =>
        if 2 ^ 24 < w || 2 ^ 20 < h || (1 < h && p < w) then some (Cause.jobArg, 0, 0)
        else if badTie c.t.csr then some (Cause.jobArg, 0, 0)
        else rangeChecksOver g c.t.csr.lwin [⟨d, extent p, true⟩, ⟨src, extent q, false⟩]
          (rowRanges d w h p true ++ rowRanges src w h q false)
          (if !none? && (List.range h).any (fun r => rowMeets (d.toNat + r * p) w src.toNat q h) then some d else none)
    c.engine g la xd stop (.cpy2 d src w h p q) (!none? && ownRange g c.tid d (extent p)) true none?

/-- The operands that gath and scat share (R147): list, count and element size, with the first broken check; alignment decides
before the limits (log 61). -/
def indexChecks (t : Thread) (xa xb : Reg) : Nat × Nat × Option IssueStop :=
  let u := t.getX xa
  let v := t.getX (xa + 1)
  let l := t.getX xb
  let w := t.getX (xb + 1)
  let cnt := (w.extractLsb' 0 32).toNat
  let e := (w.extractLsb' 32 16).toNat
  (cnt, e,
    match firstUnaligned 4 [u, v, l, BitVec.ofNat 64 e] with
    | some x => some x
    | none =>
      if decide (2 ^ 24 < cnt) || decide (e < 4) || decide (4096 < e) || decide (w.extractLsb' 48 16 ≠ 0) || badTie t.csr then
        some (Cause.jobArg, 0, 0)
      else none)

/-- gath (R147, R148): its destination and its index list are the ranges known at issue. -/
def execGath (la : BitVec 4) (xd xa xb : Reg) (s : State) : Host.Outcome State Fault Refusal :=
  s.run fun g c =>
    let d := c.t.getX xa
    let l := c.t.getX xb
    let (cnt, e, bad) := indexChecks c.t xa xb
    let stop := match bad with
      | some x => some x
      | none => rangeChecks g c.t.csr.lwin [⟨d, cnt * e, true⟩, ⟨l, cnt * 4, false⟩]
          (if overlaps d.toNat (cnt * e) l.toNat (cnt * 4) then some d else none)
    c.engine g la xd stop (.gath d (c.t.getX (xa + 1)) l cnt e) (decide (cnt ≠ 0) && ownRange g c.tid d (cnt * e)) true
      (decide (cnt = 0))

/-- scat (R147, R148): its source and its index list are the ranges known at issue. -/
def execScat (la : BitVec 4) (xd xa xb : Reg) (s : State) : Host.Outcome State Fault Refusal :=
  s.run fun g c =>
    let l := c.t.getX xb
    let src := c.t.getX (xa + 1)
    let (cnt, e, bad) := indexChecks c.t xa xb
    let stop := match bad with
      | some x => some x
      | none => rangeChecks g c.t.csr.lwin [⟨src, cnt * e, false⟩, ⟨l, cnt * 4, false⟩] none
    c.engine g la xd stop (.scat (c.t.getX xa) src l cnt e) false true (decide (cnt = 0))

/-- pub (R149): the pages lie in one 64 MiB span of one home die. A base that is no heap address gives JOB_ARG: a DESIGN CHOICE
(log 61). -/
def execPub (la : BitVec 4) (xd xa xb : Reg) (s : State) : Host.Outcome State Fault Refusal :=
  s.run fun g c =>
    let a := c.t.getX xa
    let cnt := (c.t.getX xb).toNat
    let last := a + BitVec.ofNat 64 (cnt * 2 ^ 21 - 1)
    let heap := a.extractLsb' 52 12 ≠ 0 && !a.getLsbD 51
    let stop :=
      match firstUnaligned (2 ^ 21) [a] with
      | some e => some e
      | none =>
        if decide (cnt = 0) || decide (32 < cnt) || !heap || decide (a >>> (26 : Nat) ≠ last >>> (26 : Nat)) ||
            badTie c.t.csr then some (Cause.jobArg, 0, 0)
        else if (classify g a).isNone then some (Cause.addrInvalid, a, accessInfo .write 0)
        else none
    c.engine g la xd stop (.pub a cnt) false true false

/-! ## Cuts (R168) -/

/-- A cut (R168): the record's bytes lie in the own slice. -/
def Chip.issueCut (g : Mgmt) (c : Chip) (la : BitVec 4) (xd xa : Reg) (co : Bool) : Out :=
  let a := c.t.getX xa
  let n := if co then 128 else 64
  let stop :=
    match firstUnaligned 64 [a] with
    | some e => some e
    | none =>
      if !ownRange g c.tid a n then some (Cause.jobArg, 0, 0)
      else rangeChecks g c.t.csr.lwin [⟨a, n, false⟩] none
  c.engine g la xd stop (.cut a co (c.t.csr.cutctl.getLsbD 0) xd) false false false

/-- cut (R168). -/
def execCut (la : BitVec 4) (xd xa : Reg) (s : State) : Host.Outcome State Fault Refusal :=
  s.run fun g c => c.issueCut g la xd xa false

/-- cocut (R168). -/
def execCocut (la : BitVec 4) (xd xa : Reg) (s : State) : Host.Outcome State Fault Refusal :=
  s.run fun g c => c.issueCut g la xd xa true

/-! ## kvwalk (R322) -/

/-- kvwalk (R322): a head of 0 completes at once (R323). -/
def execKvwalk (la : BitVec 4) (xd xa xb : Reg) (s : State) : Host.Outcome State Fault Refusal :=
  s.run fun g c =>
    let head := c.t.getX xa
    let ring := c.t.getX (xa + 1)
    let u := c.t.getX xb
    let credit := c.t.getX (xb + 1)
    let len := (u.extractLsb' 0 32).toNat
    let limit := (u.extractLsb' 32 32).toNat
    let stop :=
      match firstUnaligned 64 [ring] with
      | some e => some e
      | none =>
        match firstUnaligned 4 [credit] with
        | some e => some e
        | none =>
          let inRing := match ownOffset g c.tid credit, ownOffset g c.tid ring with
            | some o, some r => overlaps o 4 r len
            | _, _ => false
          if decide (len % 64 ≠ 0) || decide (len < 64) || decide (32768 < len) || decide (limit = 0) ||
              decide (2 ^ 24 < limit) || decide (head.extractLsb' 16 5 ≠ 0) || !ownRange g c.tid ring len ||
              !ownRange g c.tid credit 4 then some (Cause.jobArg, 0, 0)
          else rangeChecks g c.t.csr.lwin [⟨ring, len, true⟩, ⟨credit, 4, false⟩] (if inRing then some credit else none)
    c.engine g la xd stop (.kvwalk head ring len limit credit) (decide (head ≠ 0)) false (decide (head = 0))

/-! ## Squirrels (R156 to R160) -/

/-- A thread's kernel disarmed, with the events that had not started a run. -/
def Chip.disarm (c : Chip) : Chip :=
  { c with
    t := { c.t with squirrel := { c.t.squirrel with armed := none } }
    triggers := c.triggers.filter fun e => decide (e.1 ≠ c.tid) }

/-- sqk of n halfwords at a (R156): 0 installed, 1 a bad length, 2 a bad instruction, 3 a target outside. -/
def Chip.trySqk (g : Mgmt) (c : Chip) (w : Issuer) (earlier : List Pending) (a : Dword) (n : Nat) : Tried × Chip :=
  if n = 0 || 128 < n then (.x 1, c.disarm)
  else
    match c.readHalves g w earlier n a [] with
    | (.error t, c) => (t, c)
    | (.ok code, c) =>
      let c := c.disarm
      let st := smallCheck 8 true (2 * n) (n + 1) 0 none code
      (.x (BitVec.ofNat 64 st), if st = 0 then
        { c with t := { c.t with squirrel := { c.t.squirrel with kernel := some code, base := a } } } else c)

/-- sqk (R156). -/
def execSqk (la : BitVec 4) (xd xa xb : Reg) (s : State) : Host.Outcome State Fault Refusal :=
  s.run fun g c =>
    let acc : Access := .late (.sqk la xd xa xb) [c.t.getX xa, c.t.getX xb]
    let (t, c) := c.trySqk g c.issuer c.t.pend (c.t.getX xa) (c.t.getX xb).toNat
    Chip.composite g la (.x xd) 0 acc (.next (t.covered acc, c))

/-- sqarm (R157). With no kernel installed the status is 1 whatever the reserved bits hold, and an sqarm that fails leaves an
earlier arming in force: DESIGN CHOICES (log 62). -/
def execSqarm (la : BitVec 4) (xd xa xb : Reg) (s : State) : Host.Outcome State Fault Refusal :=
  s.run fun g c =>
    let w := c.t.getX xa
    let sq := c.t.squirrel
    let y := [0, sq.y.getD 1 0, c.t.getX xb, 0, 0, 0, 0, 0]
    let arming : Arming := ⟨w.extractLsb' 0 2, c.t.getX (xa + 1), (w.extractLsb' 6 26).toNat⟩
    let st : Nat := if sq.kernel.isNone then 1 else if w.extractLsb' 2 4 ≠ 0 || w.extractLsb' 32 32 ≠ 0 then 2 else 0
    let sq := { sq with y := y, armed := if st = 0 then some arming else sq.armed }
    let c := { c with t := { c.t with squirrel := sq } }
    let c := if decide (st = 0) && decide (arming.trig = 0) then c.trigger 0 c.tid 0 else c
    c.lateX g la xd (BitVec.ofNat 64 st)

/-- sqoff (R159): no run is under way between two steps. -/
def execSqoff (la : BitVec 4) (xd : Reg) (s : State) : Host.Outcome State Fault Refusal :=
  s.run fun g c => c.disarm.lateX g la xd (ofBoolX c.t.squirrel.armed.isSome)

/-- A hoard line asked for by a thread (R128, R160). -/
def Chip.askLine (g : Mgmt) (c : Chip) (tid : TId) (a : Dword) : Chip :=
  if c.hoardable g tid a then { c with asked := c.asked ++ [(tid, a &&& ~~~63)] } else c

/-- sqpf (R37, R160): outside a run of a kernel it is reserved. -/
def execSqpf (ya : Reg) (s : State) : Host.Outcome State Fault Refusal :=
  s.run fun g c =>
    if c.t.squirrel.running then .next (c.askLine g c.tid (if ya = 0 then 0 else c.t.squirrel.y.getD ya.toNat 0))
    else c.illegal g (instrWord (.sqpf ya))

/-- sqend (R37, R158): outside a run of a kernel it is reserved. -/
def execSqend (s : State) : Host.Outcome State Fault Refusal :=
  s.run fun g c =>
    if c.t.squirrel.running then .next { c with t := { c.t with squirrel := { c.t.squirrel with running := false } } }
    else c.illegal g (instrWord .sqend)

end Sys2Proof.Machine
end

