-- ==== Sys2Proof/Machine/EngineJobs.lean ====
section
/-! DEFINITION. The steps of the cluster engines' jobs: transfers word by word (R141 to R148), shadow pages and pub
(R144, R149, R150, R288), the streaming of KV chains (R320 to R324), and the runs and lines of the Squirrels (R157 to
R163). An event that is not due changes nothing (log 5). -/

namespace Sys2Proof.Machine

/-- The job in an entry of a cluster's queue. -/
def Chip.jobAt (c : Chip) (k : CId) (entry : BitVec 5) : Option Job :=
  c.jobs.find? fun j => decide (j.cluster = k) && decide (j.entry = entry)

/-- The requester of a job's accesses: its thread's task, key and mode, as an engine. -/
def Job.who (j : Job) : Who := ⟨.task j.task, j.tid, j.key, j.sup, true⟩

/-- Words of the destination that have landed. -/
def Job.landedWords (j : Job) : Nat := j.landed + j.scattered.length

/-- A job ends in a state (R141, R142): bytes that will not land leave its barrier's counter. -/
def Chip.endJob (g : Mgmt) (c : Chip) (j : Job) (state : JobState) : Out :=
  let c := c.setJob { j with state := state }
  let c := if state = .done then c.jobEvent j else c
  let left := j.kind.length - 4 * j.landedWords
  match j.tied with
  | some b => if left = 0 then .next c else c.countBytes g b (-(BitVec.ofNat 56 left)) []
  | none => .next c

/-! ## Reads and writes of a job (R143 to R146) -/

/-- How a job's access went: it acted, it waits (R90, R92), or it faults. -/
inductive JobAccess (α : Type) where
  | ok (v : α)
  | waits
  | fails (cause : Cause)

/-- An access of a job to n bytes at a (R81, R89, R143). -/
def Chip.reachJob (g : Mgmt) (c : Chip) (j : Job) (kind : Kind) (a : Dword) (n : Nat) : Reach × Chip :=
  match classify g a with
  | some (.window off) =>
    if windowAllows j.lwin off n (!kind.writes) kind.writes then
      (.ok ⟨sliceLoc j.tid.coreId off, sliceKey j.tid.coreId off⟩ 0, c)
    else (.fails Cause.localProtect, c)
  | _ => c.reach g j.who kind false a n

/-- A job's read of a version is a read of its task's: its author's earlier releases precede the task's later acquires (R273,
R281, log 8). -/
def Chip.noteAhead (c : Chip) (a : AgentId) (v : Option Version) : Chip :=
  match v.bind Version.authorRel with
  | none => c
  | some n => let r := c.agent a; c.setAgent { r with ahead := addNew r.ahead [n] }

/-- A word that a job reads once, as a load of the issuing thread at the job's issue would, or later (R146, log 8); and
whether it is poisoned. -/
def Chip.jobRead (g : Mgmt) (c : Chip) (j : Job) (a : Dword) : JobAccess (Word × Bool) × Chip :=
  match c.reachJob g j .read a 4 with
  | (.fails cause, c) => (.fails cause, c)
  | (.absent _, c) => (.waits, c)
  | (.zeroing _ _ _ _, c) => (.waits, c)
  | (.den _, c) => (.ok (0, false), c)
  | (.away _, c) =>
    match c.remoteAnswer with
    | (.value v, c) => (.ok (v.extractLsb' 0 32, false), c)
    | (.cause cause, c) => (.fails cause, c)
    | (.none, c) => (.fails Cause.remoteFail, c)
  | (.ok s _, c) =>
    let (w, v, c) := c.readFrom (j.view.get s.loc) s.loc s.key
    (.ok (w, c.anyPoison s.key 4), c.noteAhead (.task j.task) v)

/-- A transfer whose source ranges may name one word twice. -/
def JobKind.rereads : JobKind → Bool
  | .cpy2 _ _ _ _ _ _ => true
  | .gath _ _ _ _ _ => true
  | _ => false

/-- A source word of a transfer, which the job reads exactly once (R146). -/
def Chip.jobSource (g : Mgmt) (c : Chip) (j : Job) (a : Dword) : JobAccess ((Word × Bool) × Job) × Chip :=
  let place := Chip.locOf g j.tid a
  match j.known.find? fun e => decide (e.1 = place) with
  | some e => (.ok (e.2, j), c)
  | none =>
    match c.jobRead g j a with
    | (.ok v, c) =>
      if j.kind.rereads then
        let j := { j with known := (place, v) :: j.known }
        (.ok (v, j), c.setJob j)
      else (.ok (v, j), c)
    | (.waits, c) => (.waits, c)
    | (.fails cause, c) => (.fails cause, c)

/-- The frames of a die's shadow pool (R144, R340), by physical address. -/
def Die.shadowFrames (d : Die) : List Nat :=
  (((List.range d.spcount.toNat).map fun i => d.spbase.toNat + i * 2 ^ 21) ++ d.given).dedup
/-- Those that are free. -/
def Die.freeShadows (d : Die) : List Nat :=
  d.shadowFrames.filter fun f => !(d.serving.contains f || d.returning.contains f || (d.shadows.map Shadow.frame).contains f)

/-- The shadow frame of a page that an engine writes; the first write since the last publish takes one, as an exact copy of
the visible frame (R144). None where the pool has none. -/
def Chip.shadowFrame (c : Chip) (die : BitVec 3) (page visible : Nat) : Option Nat × Chip :=
  let d := c.die die
  match d.shadows.find? fun s => decide (s.page = page) with
  | some s => (some s.frame, c)
  | none =>
    let free := d.freeShadows
    let (i, c) := c.draw free.length
    match free[i]? with
    | none => (none, c)
    | some f =>
      let src := heapKey die visible
      let dst := heapKey die f
      let c := c.setDie die { d with shadows := ⟨page, f⟩ :: d.shadows }
      (some f, { c with
        mem := Mem.copy c.mem src dst (2 ^ 21)
        empties := keyCopy c.empties src dst (2 ^ 21)
        poison := keyCopy c.poison src dst (2 ^ 21) })

/-- A unit of memory poisoned (R68, R119). -/
def Chip.poisonAt (c : Chip) (key : Nat) : Chip := { c with poison := keyInsert c.poison (poisonUnit key) }

/-- An engine's word lands at its place, full (R145), by an agent with the release that its earlier ones make: with the write
event that it makes in a slice, and none in a shadow frame, where `pub` makes it. The entry is that of a heap page. -/
def Chip.landWord (c : Chip) (agent : AgentId) (rel : Option Nat) (s : Spot) (e : Dword) (w : Word) (poison : Bool) :
    JobAccess View × Chip :=
  if isSliceKey s.key then
    let c := c.writeBytes agent none false rel none s (bytesOfWord w)
    let c := if poison then c.poisonAt s.key else c.storeClears s.key 4
    let c := c.setFull none s.loc s.key true
    (.ok ((c.newest s.loc).toList.map fun v => (s.loc, v.id)), c)
  else if !entryShadow e then (.fails Cause.destAttr, c)
  else
    let die := locDie s.loc
    let off := s.loc % 2 ^ 48
    match c.shadowFrame die (off / 2 ^ 21) (entryAddr e) with
    | (none, c) => if (c.die die).returning.isEmpty then (.fails Cause.shadowEmpty, c) else (.waits, c)
    | (some f, c) =>
      let key := heapKey die (f + off % 2 ^ 21)
      let c := { c with mem := Mem.write c.mem key (bytesOfWord w), empties := keyErase c.empties key }
      (.ok [], if poison then c.poisonAt key else c)

/-- A cell of a SHADOW page that engines have written whole without poison loses its poison in the shadow frame (R68, R145). -/
def Chip.shadowClears (c : Chip) (s : Spot) : Chip :=
  let die := locDie s.loc
  let off := s.loc % 2 ^ 48
  match (c.die die).shadows.find? fun x => decide (x.page = off / 2 ^ 21) with
  | some x =>
    if isSliceKey s.key then c
    else { c with poison := keyErase c.poison (poisonUnit (heapKey die (x.frame + off % 2 ^ 21))) }
  | none => c

/-- A word written by a job, full (R145). -/
def Chip.jobWrite (g : Mgmt) (c : Chip) (j : Job) (a : Dword) (w : Word) (poison : Bool) : JobAccess View × Chip :=
  match c.reachJob g j .write a 4 with
  | (.fails cause, c) => (.fails cause, c)
  | (.absent _, c) => (.waits, c)
  | (.zeroing _ _ _ _, c) => (.waits, c)
  | (.den _, c) => (.ok [], c)
  | (.away _, c) =>
    match c.remoteAnswer with
    | (.value _, c) => (.ok [], c)
    | (.cause cause, c) => (.fails cause, c)
    | (.none, c) => (.fails Cause.remoteFail, c)
  | (.ok s e, c) => c.landWord (.task j.task) j.authorRel s e w poison

/-- A heap cell of a job's destination written whole without poison loses its poison (R68, R145). -/
def Chip.jobClears (g : Mgmt) (c : Chip) (j : Job) (cell : Dword) : Chip :=
  match c.reachJob g j .write cell 4 with
  | (.ok s _, c) => c.shadowClears s
  | (_, c) => c

/-! ## Transfers (R147, R148) -/

/-- The index word that a position needs: its number and address (R148). -/
def JobKind.index : JobKind → Nat → Option (Nat × Dword)
  | .gath _ _ l _ e, p => some (p / (e / 4), l + BitVec.ofNat 64 (4 * (p / (e / 4))))
  | .scat _ _ l _ e, p => some (p / (e / 4), l + BitVec.ofNat 64 (4 * (p / (e / 4))))
  | _, _ => none

/-- The destination and the source of a job position, with the index word it needs (R147). -/
def JobKind.word (k : JobKind) (p : Nat) (index : Word) : Dword × Dword :=
  match k with
  | .cpy d s _ => (d + BitVec.ofNat 64 (4 * p), s + BitVec.ofNat 64 (4 * p))
  | .cpy2 d s w _ dp sq =>
    let r := p / (w / 4)
    let o := 4 * (p % (w / 4))
    (d + BitVec.ofNat 64 (r * dp + o), s + BitVec.ofNat 64 (r * sq + o))
  | .gath d b _ _ e => (d + BitVec.ofNat 64 (4 * p), b + BitVec.ofNat 64 (index.toNat * e + 4 * (p % (e / 4))))
  | .scat b s _ _ e => (b + BitVec.ofNat 64 (index.toNat * e + 4 * (p % (e / 4))), s + BitVec.ofNat 64 (4 * p))
  | _ => (0, 0)

/-- Words that a transfer moves. -/
def JobKind.words (k : JobKind) : Nat := k.length / 4

/-- A position has landed. -/
def Job.hasLanded (j : Job) (p : Nat) : Bool := decide (p < j.landed) || j.scattered.contains p

/-- Positions in order now below the first that has not landed. -/
def advanceLanded : Nat → Nat → List Nat → Nat × List Nat
  | 0, n, l => (n, l)
  | fuel + 1, n, l => if l.contains n then advanceLanded fuel (n + 1) (l.filter fun p => decide (p ≠ n)) else (n, l)

/-- A job with one more position landed. -/
def Job.land (j : Job) (p : Nat) (wrote : View) : Job :=
  let (n, l) := advanceLanded (j.scattered.length + 1) j.landed (p :: j.scattered)
  { j with landed := n, scattered := l, wrote := j.wrote.join wrote }

/-- The destination of a job position whose index word, if it needs one, has been read. -/
def Job.dest (j : Job) (p : Nat) : Dword :=
  let index := (j.kind.index p).bind fun i => (j.indices.find? fun e => decide (e.1 = i.1)).map Prod.snd
  (j.kind.word p (index.getD 0)).1

/-- A cell every word of which is the destination of some position that has landed. -/
def Job.wholeCell (j : Job) (cell : Dword) : Bool :=
  let places := ((List.range j.kind.words).filter j.hasLanded).map j.dest
  (List.range 16).all fun i => places.contains (cell + BitVec.ofNat 64 (4 * i))

/-- The value of the index word of a position, read once (R148). -/
def Chip.jobIndex (g : Mgmt) (c : Chip) (j : Job) (p : Nat) : JobAccess (Word × Job) × Chip :=
  match j.kind.index p with
  | none => (.ok (0, j), c)
  | some (i, a) =>
    match j.indices.find? fun e => decide (e.1 = i) with
    | some (_, w) => (.ok (w, j), c)
    | none =>
      match c.jobSource g j a with
      | (.ok ((w, _), j), c) =>
        let j := { j with indices := (i, w) :: j.indices }
        (.ok (w, j), c.setJob j)
      | (.waits, c) => (.waits, c)
      | (.fails cause, c) => (.fails cause, c)

/-- One word of a transfer: its index, its source, its destination (R145 to R148). -/
def Chip.transferWord (g : Mgmt) (c : Chip) (j : Job) (p : Nat) : Out :=
  match c.jobIndex g j p with
  | (.waits, c) => .next c
  | (.fails cause, c) => c.endJob g j (.faulted cause)
  | (.ok (index, j), c) =>
    let (dst, src) := j.kind.word p index
    match c.jobSource g j src with
    | (.waits, c) => .next c
    | (.fails cause, c) => c.endJob g j (.faulted cause)
    | (.ok ((w, poison), j), c) =>
      match c.jobWrite g j dst w poison with
      | (.waits, c) => .next c
      | (.fails cause, c) => c.endJob g j (.faulted cause)
      | (.ok wrote, c) =>
        let cell := dst.toNat / 64
        let j := j.land p wrote
        let j := if poison && !j.tainted.contains cell then { j with tainted := cell :: j.tainted } else j
        let a := dst &&& ~~~63
        let c := if !c.poison.isEmpty && !j.tainted.contains cell && j.wholeCell a then c.jobClears g j a else c
        let c := c.setJob j
        let counted : Out := match j.tied with
          | some b => c.countBytes g b (-4) wrote
          | none => .next c
        andThen counted fun c => if j.landedWords = j.kind.words then c.endJob g j .done else .next c

/-- COPY_JOB_START: a queued job of the Copy Unit or the Beaver runs (R141). -/
def execCopyJobStart (k : CId) (entry : BitVec 5) (s : State) : Host.Outcome State Fault Refusal :=
  s.run fun _ c =>
    match c.jobAt k entry with
    | some j => match j.kind, j.state with
      | .cld _, _ => .next c
      | _, .queued => .next (c.setJob { j with state := .running })
      | _, _ => .next c
    | none => .next c

/-- COPY_JOB_WORD_WRITE: one word of a running transfer lands: the next one where it is streamed, else any (R143, R147). -/
def execCopyJobWordWrite (k : CId) (entry : BitVec 5) (position : Nat) (s : State) : Host.Outcome State Fault Refusal :=
  s.run fun g c =>
    match c.jobAt k entry with
    | some j =>
      let due := decide (j.state = .running) && decide (position < j.kind.words) && !j.hasLanded position &&
        (!j.streamed || decide (position = j.landed))
      if due then c.transferWord g j position else .next c
    | none => .next c

/-! ## pub (R149, R150, R288) -/

/-- One page of a publication: its entry names its shadow frame, and every word is written by the task (R149, R288). An access
that waits on a word of the page follows it, and meets what the publication fills (R145). -/
def Chip.publishPage (c : Chip) (j : Job) (die : BitVec 3) (off : Nat) : View × Chip :=
  let page := off / 2 ^ 21
  let d := c.die die
  match d.shadows.find? fun s => decide (s.page = page) with
  | none => ([], c)
  | some sh =>
    match walk c.mem die d.etroot off false with
    | .fails _ => ([], c)
    | .leaf e _ =>
      let old := entryAddr e
      let base := heapLoc die (page * 2 ^ 21)
      let src := heapKey die sh.frame
      let c := c.setEntry die off false fun e => e.extractLsb' 40 24 ++ BitVec.ofNat 32 (sh.frame / 256) ++ e.extractLsb' 0 8
      let d := c.die die
      let c := c.setDie die { d with
        shadows := d.shadows.filter fun s => decide (s.page ≠ page)
        serving := sh.frame :: d.serving.filter fun f => decide (f ≠ old)
        returning := old :: d.returning
        given := if d.given.contains old then d.given else old :: d.given }
      let before := Mem.copy c.mem (heapKey die old) src (2 ^ 21)
      let n := c.clock
      let c := (c.moveSpots (heapKey die old) src (2 ^ 21)).noteRange (.task j.task) false (c.agent (.task j.task)).lastRel before base src (2 ^ 21)
      let wrote := c.hist.filterMap fun h =>
        if h.versions.head?.map Version.id = some n then some (h.loc, n) else none
      (wrote, c.dirty base src)

/-- The pages of a pub, translated as an engine's write is: the offsets, or the first cause, or a wait (R149). A page with
RO = 1 so gives PAGE_PROTECT before its SHADOW is looked at: a DESIGN CHOICE (log 61). -/
def Chip.pubPages (g : Mgmt) (c : Chip) (j : Job) (a : Dword) : List Nat → JobAccess (List (BitVec 3 × Nat)) × Chip
  | [] => (.ok [], c)
  | i :: rest =>
    match c.reachJob g j .write (a + BitVec.ofNat 64 (i * 2 ^ 21)) 1 with
    | (.fails cause, c) => (.fails cause, c)
    | (.absent _, c) => (.waits, c)
    | (.zeroing _ _ _ _, c) => (.waits, c)
    | (.den _, c) => (.fails Cause.pubAttr, c)
    | (.away _, c) =>
      match c.remoteAnswer with
      | (.value _, c) => Chip.pubPages g c j a rest
      | (.cause cause, c) => (.fails cause, c)
      | (.none, c) => (.fails Cause.remoteFail, c)
    | (.ok s e, c) =>
      if !entryShadow e then (.fails Cause.pubAttr, c)
      else
        match Chip.pubPages g c j a rest with
        | (.ok l, c) => (.ok ((locDie s.loc, s.loc % 2 ^ 48) :: l), c)
        | other => other

/-- PUB_SWAP: a running pub whose task's earlier jobs are over swaps its pages in one step (R149). -/
def execPubSwap (k : CId) (entry : BitVec 5) (s : State) : Host.Outcome State Fault Refusal :=
  s.run fun g c =>
    match c.jobAt k entry with
    | some j =>
      match j.kind with
      | .pub a n =>
        let before := c.jobs.takeWhile fun x => !(decide (x.cluster = k) && decide (x.entry = entry))
        if j.state ≠ .running || !(before.all fun x => decide (x.task ≠ j.task) || x.state.over) then .next c
        else
          match c.pubPages g j a (List.range n) with
          | (.waits, c) => .next c
          | (.fails cause, c) => c.endJob g j (.faulted cause)
          | (.ok pages, c) =>
            let (wrote, c) := pages.foldl (fun (r : View × Chip) p =>
              let (v, c) := r.2.publishPage j p.1 p.2
              (r.1.join v, c)) ([], c)
            c.endJob g { j with wrote := wrote } .done
      | _ => .next c
    | none => .next c

/-- SHADOW_FRAME_RETURN: a replaced frame returns to the pool, once no translation uses its old entry (R150): an access that
waits on the page has followed it. -/
def execShadowFrameReturn (die : BitVec 3) (frame : Nat) (s : State) : Host.Outcome State Fault Refusal :=
  s.run fun _ c =>
    let d := c.die die
    if d.returning.contains frame then
      .next (c.setDie die { d with
        returning := d.returning.filter fun f => decide (f ≠ frame)
        spans := d.spans.foldl (fun (l : List SpanEntry) e =>
          if decide (entryAddr e.leaf = frame) && !e.sub then dropTable l e.page false else l) d.spans })
    else .next c

/-! ## kvwalk (R319, R320, R323, R324) -/

/-- The page that a link names (R318). -/
def linkPage (link : Dword) : Dword := link &&& ~~~0x1FFFFF
/-- The page that a link names, by one address whichever of its names the link uses (R77). -/
def linkPlace (g : Mgmt) (link : Dword) : Dword :=
  match classify g (linkPage link) with
  | some (.heap d off) => globalOf (heapLoc d off)
  | _ => linkPage link

/-- Tokens that a page holds (R319). -/
def pageCap (tbytes : Nat) : Nat := if tbytes = 0 then 0 else (2097152 - 64) / tbytes

/-- A link is malformed by its form: reserved bits, or no heap address (R76, R320). -/
def badLink (link : Dword) : Bool :=
  decide (link.extractLsb' 16 5 ≠ 0) || decide (link.extractLsb' 52 12 = 0) || link.getLsbD 51

/-- A header judged on its words as read, after the headers of the chain's earlier pages (R320). -/
def judgeHeader (g : Mgmt) (link : Dword) (earlier : List KvHeader) (w : List Word) : KvHeader :=
  let at_ (i : Nat) : Word := w.getD i 0
  let ntok := (at_ 2).toNat
  let tbytes := (at_ 3).toNat
  let gen := (at_ 4).extractLsb' 0 16
  let badSize := decide (tbytes % 64 ≠ 0) || decide (tbytes < 64) || decide (1048576 < tbytes)
  ⟨link, at_ 1 ++ at_ 0, ntok, tbytes,
    decide (gen ≠ link.extractLsb' 0 16) || badSize || earlier.any (fun h => decide (h.tbytes ≠ tbytes)) ||
      decide (pageCap tbytes < ntok) || earlier.any (fun h => decide (linkPlace g h.link = linkPlace g link))⟩

/-- The first five words of a header read as job reads (R318, R324). -/
def Chip.headerWords (g : Mgmt) (c : Chip) (j : Job) (a : Dword) : List Nat → JobAccess (List Word) × Chip
  | [] => (.ok [], c)
  | i :: rest =>
    match c.jobRead g j (a + BitVec.ofNat 64 (4 * i)) with
    | (.ok (w, _), c) =>
      match Chip.headerWords g c j a rest with
      | (.ok l, c) => (.ok (w :: l), c)
      | other => other
    | (.waits, c) => (.waits, c)
    | (.fails cause, c) => (.fails cause, c)

/-- The header that a link names, read and judged. -/
def Chip.readHeader (g : Mgmt) (c : Chip) (j : Job) (link : Dword) : JobAccess KvHeader × Chip :=
  if badLink link then (.ok ⟨link, 0, 0, 0, true⟩, c)
  else
    match c.headerWords g j (linkPage link) (List.range 5) with
    | (.ok w, c) => (.ok (judgeHeader g link j.headers w), c)
    | (.waits, c) => (.waits, c)
    | (.fails cause, c) => (.fails cause, c)

/-- The link of the page that a walk reaches next after the headers it has read. -/
def Job.nextLink (j : Job) (head : Dword) : Dword :=
  match j.headers.getLast? with
  | some h => h.next
  | none => head

/-- The header that a walk reads next, added to its headers; a page in the capacity tier is asked for (R324). -/
def Chip.walkHeader (g : Mgmt) (c : Chip) (j : Job) (link : Dword) : JobAccess KvHeader × Chip :=
  match c.readHeader g j link with
  | (.ok h, c) =>
    let c := c.setJob { j with headers := j.headers ++ [h] }
    if h.bad then (.ok h, c)
    else
      match c.reachJob g j .read (linkPage link) 4 with
      | (.ok s e, c) => (.ok h, if entryTier e = 1 then c.askPromotion (pageOf s.loc) else c)
      | (_, c) => (.ok h, c)
  | (.waits, c) => (.waits, c)
  | (.fails cause, c) => (.fails cause, c)

/-- KVWALK_HEADER_PREFETCH: one header of the next pages of a walk, up to four past the page it streams; a page in the
capacity tier is asked for (R324). -/
def execKvwalkHeaderPrefetch (k : CId) (entry : BitVec 5) (s : State) : Host.Outcome State Fault Refusal :=
  s.run fun g c =>
    match c.jobAt k entry with
    | some j =>
      match j.kind with
      | .kvwalk head _ _ limit _ =>
        let link := j.nextLink head
        let open_ := match j.headers.getLast? with | some h => !h.bad | none => true
        if decide (j.state = .running) && decide (j.headers.length ≤ j.pages + 4) && decide (j.headers.length < limit) &&
            decide (link ≠ 0) && open_ then
          match c.walkHeader g j link with
          | (.ok _, c) => .next c
          | (_, c) => .next c
        else .next c
      | _ => .next c
    | none => .next c

/-- One word of a token into the ring, if the credit allows it (R323). -/
def Chip.ringWord (g : Mgmt) (c : Chip) (j : Job) (ring : Dword) (len : Nat) (credit : Dword) (h : KvHeader) : Out :=
  match c.reachJob g j .read credit 4 with
  | (.ok cs _, c) =>
    let used := BitVec.ofNat 32 (4 * j.landed + 4) - Mem.word c.mem cs.key
    if len < used.toNat then .next c
    else
      match c.jobRead g j (linkPage h.link + BitVec.ofNat 64 (64 + 4 * j.inPage)) with
      | (.waits, c) => .next c
      | (.fails cause, c) => c.endJob g j (.faulted cause)
      | (.ok (w, poison), c) =>
        match c.jobWrite g j (ring + BitVec.ofNat 64 (4 * j.landed % len)) w poison with
        | (.waits, c) => .next c
        | (.fails cause, c) => c.endJob g j (.faulted cause)
        | (.ok wrote, c) =>
          .next (c.setJob { j with landed := j.landed + 1, inPage := j.inPage + 1, wrote := j.wrote.join wrote })
  | (.fails cause, c) => c.endJob g j (.faulted cause)
  | (_, c) => .next c

/-- KVWALK_WORD_WRITE: the next step of a walk: the header it needs, the next word of the page it streams, the passage to
the next page, or its end (R323). -/
def execKvwalkWordWrite (k : CId) (entry : BitVec 5) (s : State) : Host.Outcome State Fault Refusal :=
  s.run fun g c =>
    match c.jobAt k entry with
    | some j =>
      match j.kind with
      | .kvwalk head ring len limit credit =>
        if j.state ≠ .running then .next c
        else
          match j.headers[j.pages]? with
          | some h =>
            if h.bad then c.endJob g j (.faulted Cause.kvLink)
            else if 4 * j.inPage < h.ntok * h.tbytes then c.ringWord g j ring len credit h
            else .next (c.setJob { j with pages := j.pages + 1, inPage := 0 })
          | none =>
            let link := j.nextLink head
            if link = 0 then c.endJob g j .done
            else if j.pages = limit then c.endJob g j (.faulted Cause.kvLink)
            else
              match c.walkHeader g j link with
              | (.ok _, c) => .next c
              | (.waits, c) => .next c
              | (.fails cause, c) => c.endJob g j (.faulted cause)
      | _ => .next c
    | none => .next c

/-! ## Squirrels and the hoard (R157, R158, R161, R162) -/

/-- The memory of a kernel's run: the machine, and whether a load waits, for a page or for another module. The run goes no
further than its first waiting load (R90, R158): what follows it asks for nothing. -/
def kernelMemory (g : Mgmt) (tid : TId) : SmallMemory (Chip × Bool) where
  load e a size :=
    if e.2 then .ok (0, e)
    else
      let w : Issuer := ⟨(e.1.thread tid).who tid, [], [], 0⟩
      match e.1.attempt g w [] (.load size a) with
      | (.done (.x v) _ _, c) => .ok (v, (c, false))
      | (.absent _ _ _, c) => .ok (0, (c, true))
      | (.waits _ _, c) => .ok (0, (c, true))
      | (.held, c) => .ok (0, (c, true))
      | (.stop cause _ _, _) => .error (some cause)
      | _ => .error none
  store _ _ _ _ := .error none
  ask e a := if e.2 then e else (e.1.askLine g tid a, e.2)

/-- SQUIRREL_RUN: an event of an armed kernel starts a run, which takes place whole; events before it that started none are
dropped (R157, R158). It aborts once 256 instructions have been executed. A run that meets an absent page waits: it takes
place later. -/
def execSquirrelRun (tid : TId) (y1 : Dword) (s : State) : Host.Outcome State Fault Refusal :=
  s.run fun g c =>
    let sq := (c.thread tid).squirrel
    match sq.kernel, sq.armed, c.triggers.contains (tid, y1) with
    | some code, some _, true =>
      let regs := (sq.y.set 0 0).set 1 y1
      let put (c : Chip) (q : Squirrel) : Chip := c.setThread tid { c.thread tid with squirrel := q }
      let c0 := put c { sq with running := true }
      let (r, (c1, waiting), _) := Small.run (kernelMemory g tid) code 255 (3 * 257) ⟨regs, sq.base, 0, [], none, 0⟩ (c0, false)
      if waiting then .next { c with promoting := c1.promoting, zeroing := c1.zeroing, draws := c1.draws }
      else
        let c1 := put c1 { sq with running := false, y := r.regs }
        let mine := (c1.triggers.filter fun e => decide (e.1 = tid)).dropWhile fun e => decide (e.2 ≠ y1)
        .next { c1 with triggers := (c1.triggers.filter fun e => decide (e.1 ≠ tid)) ++ mine.drop 1 }
    | _, _, _ => .next c

/-- Lines of a core's hoard (R20). -/
def hoardLines : Nat := 64

/-- A line enters the hoard of its owner's core, in place of the oldest where the hoard is full (R20, R162). -/
def Chip.addLine (c : Chip) (h : HoardLine) : Chip :=
  let here (x : HoardLine) : Bool := decide (x.owner.coreId = h.owner.coreId)
  let l := if (c.hoard.filter here).length < hoardLines then c.hoard else c.hoard.eraseP here
  { c with hoard := l ++ [h] }

/-- An aligned doubleword of a line as a load of the agent may read it, untorn, with the versions of its words (R117, R161,
R278). -/
def Chip.linePair (c : Chip) (r : Agent) (loc key : Nat) : List (Word × Option Version) × Chip :=
  let apart : List (Word × Option Version) × Chip :=
    let (lo, v, c) := c.readFrom (c.floorOf r loc) loc key
    let (hi, w, c) := c.readFrom (c.floorOf r (loc + 4)) (loc + 4) (key + 4)
    ([(lo, v), (hi, w)], c)
  match historyGet c.hist loc, historyGet c.hist (loc + 4) with
  | some low, some high =>
    if low.current (Mem.word c.mem key) && high.current (Mem.word c.mem (key + 4)) then
      let ok (h : WordHistory) (w : Nat) : List Version := h.versions.filter fun v => decide (c.floorOf r w ≤ v.id)
      let pairs := ((ok low loc).map fun v => (ok high (loc + 4)).map fun w => (v, w)).flatten.filter fun e =>
        untorn low.versions high.versions e.1 e.2
      let (i, c) := c.draw pairs.length
      match pairs[i]? with
      | some (v, w) => ([(v.value, some v), (w.value, some w)], c)
      | none => ([(Mem.word c.mem key, c.newest loc), (Mem.word c.mem (key + 4), c.newest (loc + 4))], c)
    else apart
  | _, _ => apart

/-- HOARD_FILL: a line asked for is filled, as a load by its owner would read the cell (R128, R161); it is an access to the
page (R326). -/
def execHoardFill (tid : TId) (cell : Dword) (s : State) : Host.Outcome State Fault Refusal :=
  s.run fun g c =>
    if c.asked.contains (tid, cell) then
      let c := { c with asked := c.asked.erase (tid, cell) }
      match c.hoardSpot g tid cell with
      | (some s, c) =>
        if c.hoard.any fun h => decide (h.owner = tid) && decide (h.cell = globalOf s.loc) then .next c
        else
          let r := c.agent (c.thread tid).agentId
          let (words, c) := (List.range 8).foldl (fun (acc : List (Word × Option Version) × Chip) i =>
            let (l, c) := acc.2.linePair r (s.loc + 8 * i) (s.key + 8 * i)
            (acc.1 ++ l, c)) ([], c)
          .next (c.addLine ⟨tid, globalOf s.loc, words⟩)
      | (none, c) => .next c
    else .next c

/-- HOARD_DROP: a line is dropped (R162). -/
def execHoardDrop (tid : TId) (cell : Dword) (s : State) : Host.Outcome State Fault Refusal :=
  s.run fun _ c =>
    .next { c with hoard := c.hoard.filter fun h => !(decide (h.owner = tid) && decide (h.cell = cell)) }

end Sys2Proof.Machine
end

