-- ==== Sys2Proof/Machine/Cut.lean ====
section
/-! DEFINITION. The Beaver: a cut job's run (R164 to R172, R174). -/

namespace Sys2Proof.Machine

/-- Element bytes of the accepted formats (R164). -/
def cutElement (fmt : Nat) : Option Nat :=
  if fmt = 0x10 || fmt = 0x13 then some 4
  else if fmt = 0x11 || fmt = 0x12 then some 2
  else if fmt = 0x20 || fmt = 0x21 || fmt = 0x22 then some 1
  else none

/-- A half of a cut record (R165, R166). -/
structure CutRecord where
  b : Dword
  t : Dword
  mb : Nat
  kb : Nat
  fmt : Nat
  klim : Nat
  mlim : Nat
  byte27 : Nat
  budget : Nat
  d : Dword
  f : Dword
  rest : Nat

/-- A half of a record from its 64 bytes. -/
def CutRecord.ofBytes (bs : List Byte) : CutRecord where
  b := frameDword bs 0
  t := frameDword bs 8
  mb := fieldAt bs 16 4
  kb := fieldAt bs 20 4
  fmt := fieldAt bs 24 1
  klim := fieldAt bs 25 1
  mlim := fieldAt bs 26 1
  byte27 := fieldAt bs 27 1
  budget := fieldAt bs 28 4
  d := frameDword bs 32
  f := frameDword bs 40
  rest := fieldAt bs 48 16

/-- A block header as the job read it, with the poison of its three words (R170, R145). -/
structure BlockHeader where
  partner : Bool
  mb : Nat
  kb : Nat
  addr : Dword
  bmp : Dword
  cnt : Nat
  poison : Bool × Bool × Bool

/-- A job's run: the machine, the job, the words that it has read, with their poison, by their canonical place, the headers
that these make, the blocks treated as empty, the first byte of the destination that is next, and the words to write, the latest
first. -/
structure CutState where
  c : Chip
  j : Job
  words : List (Nat × Word × Bool)
  heads : List BlockHeader
  missed : List (Bool × Nat × Nat)
  base : Dword
  plan : List Planned

/-- A run's step: it goes on, or it stops, with a cause, or with none where it must wait. -/
abbrev CutM := StateT CutState (Except (Option Cause × CutState))

/-- The run stops. -/
def cutStop {α : Type} (cause : Option Cause) : CutM α := do
  let s ← get
  throw (cause, s)

/-- A word, read at most once in the job's run, whichever of its names the job uses (R174). -/
def cutRead (g : Mgmt) (a : Dword) : CutM (Word × Bool) := do
  let s ← get
  let place := Chip.locOf g s.j.tid a
  match s.words.find? fun e => decide (e.1 = place) with
  | some e => return e.2
  | none => match s.c.jobRead g s.j a with
  | (.ok v, c) => set { s with c := c, words := (place, v) :: s.words }; return v
  | (.waits, c) => set { s with c := c }; cutStop none
  | (.fails cause, c) => set { s with c := c }; cutStop (some cause)

/-- Words read in order. -/
def cutReads (g : Mgmt) (a : Dword) : Nat → CutM (List (Word × Bool))
  | 0 => return []
  | n + 1 => do
    let w ← cutRead g a
    let l ← cutReads g (a + 4) n
    return w :: l

/-- A word to be written; counted says that it lies in the destinations (R172). -/
def cutWrite (a : Dword) (w : Word) (poison counted : Bool) : CutM Unit :=
  modify fun s => { s with plan := ⟨a, w, poison, counted, s.base⟩ :: s.plan }

/-! ## Headers and counts (R164, R170) -/

/-- The offset of a block row in its stream: the row table's word. -/
def cutRow (g : Mgmt) (r : CutRecord) (mb : Nat) : CutM Word := do
  let (w, _) ← cutRead g (r.t + BitVec.ofNat 64 (4 * mb))
  return w

/-- Bytes of a record (R164). -/
def recordBytes (cnt e : Nat) : Nat := 16 + 8 * ((cnt * e + 7) / 8)

/-- A block's header that the job has read. -/
def cutKnown (partner : Bool) (mb kb : Nat) : CutM (Option BlockHeader) := do
  let s ← get
  return s.heads.find? fun h => decide (h.partner = partner) && decide (h.mb = mb) && decide (h.kb = kb)

/-- The header of a block at its address, which must be 8-aligned: MISALIGN where it is not, a DESIGN CHOICE (log 61). -/
def cutHeaderAt (g : Mgmt) (partner : Bool) (mb kb : Nat) (addr : Dword) : CutM BlockHeader := do
  if !alignedTo addr 8 then cutStop (some Cause.misalign)
  let (lo, p0) ← cutRead g addr
  let (hi, p1) ← cutRead g (addr + 4)
  let (cnt, p2) ← cutRead g (addr + 8)
  let h : BlockHeader := ⟨partner, mb, kb, addr, hi ++ lo, cnt.toNat, (p0, p1, p2)⟩
  modify fun s => { s with heads := h :: s.heads }
  return h

/-- The header of a block; the record is found by stepping along its row (R164). No record stands behind one whose CNT exceeds
64, counted or not: SPARSE_MISMATCH, a DESIGN CHOICE (log 61). -/
def cutHeader (g : Mgmt) (r : CutRecord) (e : Nat) (partner : Bool) (mb : Nat) : Nat → CutM BlockHeader
  | 0 => do
    match ← cutKnown partner mb 0 with
    | some h => return h
    | none =>
      let w ← cutRow g r mb
      cutHeaderAt g partner mb 0 (r.b + w.setWidth 64)
  | kb + 1 => do
    match ← cutKnown partner mb (kb + 1) with
    | some h => return h
    | none =>
      let h ← cutHeader g r e partner mb kb
      if 64 < h.cnt then cutStop (some Cause.sparseMismatch)
      cutHeaderAt g partner mb (kb + 1) (h.addr + BitVec.ofNat 64 (recordBytes h.cnt e))

/-- The count of a block: nz, and nzp on the partner (R170). -/
def cutCount (g : Mgmt) (r : CutRecord) (e : Nat) (mis partner : Bool) (mb kb : Nat) : CutM Nat := do
  let h ← cutHeader g r e partner mb kb
  if 64 < h.cnt then cutStop (some Cause.sparseMismatch)
  if popcount h.bmp 64 = h.cnt then return h.cnt
  if !mis then cutStop (some Cause.sparseMismatch)
  let s ← get
  if s.missed.contains (partner, mb, kb) then return 0
  let rec_ := { LogRecord.of logCutMismatch with
    cause := Cause.sparseMismatch, job := s.j.ident
    detail := [if partner then 1 else 0, BitVec.ofNat 32 mb, BitVec.ofNat 32 kb] }
  set { s with c := s.c.log g s.j.cluster.die rec_, missed := (partner, mb, kb) :: s.missed }
  return 0

/-- The sum of the counts of n blocks of a row from kb on. -/
def cutRowSum (g : Mgmt) (r : CutRecord) (e : Nat) (mis partner : Bool) (mb : Nat) : Nat → Nat → CutM Nat
  | _, 0 => return 0
  | kb, n + 1 => do
    let v ← cutCount g r e mis partner mb kb
    let rest ← cutRowSum g r e mis partner mb (kb + 1) n
    return v + rest

/-- The sum over n rows from mb on, of the blocks [kb0, kb1). -/
def cutArea (g : Mgmt) (r : CutRecord) (e : Nat) (mis partner : Bool) (kb0 kb1 : Nat) : Nat → Nat → CutM Nat
  | _, 0 => return 0
  | mb, n + 1 => do
    let v ← cutRowSum g r e mis partner mb kb0 (kb1 - kb0)
    let rest ← cutArea g r e mis partner kb0 kb1 (mb + 1) n
    return v + rest

/-! ## Growth and shrink (R171) -/

/-- Growth along k: the columns taken, and the count. -/
def growK (g : Mgmt) (r : CutRecord) (e : Nat) (mis : Bool) (w : List Nat) (mb0 kb0 : Nat) : Nat → Nat → Nat → CutM (Nat × Nat)
  | 0, kb1, n => return (kb1, n)
  | fuel + 1, kb1, n => do
    if kb1 < r.kb ∧ kb1 - kb0 < r.klim ∧ w.getD kb1 0 = mb0 then
      let v ← cutCount g r e mis false mb0 kb1
      if n + v ≤ r.budget then growK g r e mis w mb0 kb0 fuel (kb1 + 1) (n + v) else return (kb1, n)
    else return (kb1, n)

/-- Growth along m. -/
def growM (g : Mgmt) (r : CutRecord) (e : Nat) (mis : Bool) (mb0 kb0 kb1 : Nat) : Nat → Nat → Nat → CutM (Nat × Nat)
  | 0, mb1, n => return (mb1, n)
  | fuel + 1, mb1, n => do
    if mb1 < r.mb ∧ mb1 - mb0 < r.mlim then
      let v ← cutRowSum g r e mis false mb1 kb0 (kb1 - kb0)
      if n + v ≤ r.budget then growM g r e mis mb0 kb0 kb1 fuel (mb1 + 1) (n + v) else return (mb1, n)
    else return (mb1, n)

/-- The shrink of a co-cut: the last column, the count and the partner's count. -/
def shrinkK (g : Mgmt) (r q : CutRecord) (e eq : Nat) (mis : Bool) (mb0 mb1 kb0 : Nat) : Nat → Nat → Nat → Nat → CutM (Nat × Nat × Nat)
  | 0, kb1, n, p => return (kb1, n, p)
  | fuel + 1, kb1, n, p => do
    if q.budget < p then
      if kb1 - kb0 = 1 then cutStop (some Cause.cutBudget)
      let n ← cutArea g r e mis false kb0 (kb1 - 1) mb0 (mb1 - mb0)
      let p ← cutArea g q eq mis true 0 q.kb kb0 (kb1 - 1 - kb0)
      shrinkK g r q e eq mis mb0 mb1 kb0 fuel (kb1 - 1) n p
    else return (kb1, n, p)

/-! ## The tile's records (R172) -/

/-- Bytes of a value word past the record's values are 0. -/
def maskTail (w : Word) (keep : Nat) : Word := w &&& BitVec.ofNat 32 (2 ^ (8 * keep) - 1)

/-- The value words of a record copied, with zero padding. -/
def copyValues (g : Mgmt) (src dst : Dword) (bytes : Nat) : Nat → Nat → CutM Unit
  | _, 0 => return ()
  | i, n + 1 => do
    let o := BitVec.ofNat 64 (4 * i)
    if 4 * i < bytes then
      let (w, p) ← cutRead g (src + o)
      cutWrite (dst + o) (maskTail w (bytes - 4 * i)) p true
    else cutWrite (dst + o) 0 false true
    copyValues g src dst bytes (i + 1) n

/-- One record written at an address; the address after it. -/
def writeRecord (g : Mgmt) (r : CutRecord) (e : Nat) (partner : Bool) (mb kb : Nat) (a : Dword) : CutM Dword := do
  let h ← cutHeader g r e partner mb kb
  let s ← get
  let empty := s.missed.contains (partner, mb, kb)
  let cnt := if empty then 0 else h.cnt
  cutWrite a (if empty then 0 else h.bmp.extractLsb' 0 32) (!empty && h.poison.1) true
  cutWrite (a + 4) (if empty then 0 else h.bmp.extractLsb' 32 32) (!empty && h.poison.2.1) true
  cutWrite (a + 8) (BitVec.ofNat 32 cnt) (!empty && h.poison.2.2) true
  cutWrite (a + 12) 0 false true
  copyValues g (h.addr + 16) (a + 16) (cnt * e) 0 (2 * ((cnt * e + 7) / 8))
  return a + BitVec.ofNat 64 (recordBytes cnt e)

/-- The records of a rectangle, mb and then kb ascending. -/
def writeRecords (g : Mgmt) (r : CutRecord) (e : Nat) (partner : Bool) : List (Nat × Nat) → Dword → CutM Unit
  | [], _ => return ()
  | (mb, kb) :: rest, a => do
    let a ← writeRecord g r e partner mb kb a
    writeRecords g r e partner rest a

/-- The blocks [m0, m1) × [k0, k1), in order. -/
def blocksIn (m0 m1 k0 k1 : Nat) : List (Nat × Nat) :=
  ((List.range (m1 - m0)).map fun i => (List.range (k1 - k0)).map fun k => (m0 + i, k0 + k)).flatten

/-- The frontier written back whole (R167). A word of it that was read poisoned is written without poison: a DESIGN CHOICE (log 66),
for R145 speaks of data that comes from a source word. -/
def writeFrontier : List Nat → Dword → CutM Unit
  | [], _ => return ()
  | w :: rest, a => do
    cutWrite a (BitVec.ofNat 32 w) false false
    writeFrontier rest (a + 4)

/-- A pair of halves of a bounds register (R173). -/
def boundsPair (hi lo : Nat) : Dword := BitVec.ofNat 32 hi ++ BitVec.ofNat 32 lo

/-- The procedure of R171 from a frontier: the bounds, with the frontier written back. -/
def cutLoop (g : Mgmt) (r q : CutRecord) (e eq : Nat) (co mis : Bool) : Nat → List Nat → CutM (Dword × Dword × Dword)
  | 0, _ => cutStop none
  | fuel + 1, w => do
    let mb0 := w.foldl min r.mb
    if mb0 = r.mb then
      writeFrontier w r.f
      return (boundsPair (8 * r.kb) (8 * r.kb), boundsPair (8 * r.mb) (8 * r.mb), 0)
    else
      let kb0 := w.findIdx fun x => decide (x = mb0)
      let n0 ← cutCount g r e mis false mb0 kb0
      let (kb1, n) ← growK g r e mis w mb0 kb0 r.klim (kb0 + 1) n0
      let (mb1, n) ← growM g r e mis mb0 kb0 kb1 r.mlim (mb0 + 1) n
      let (kb1, n, p) ←
        if co ∧ 0 < n then do
          let p ← cutArea g q eq mis true 0 q.kb kb0 (kb1 - kb0)
          shrinkK g r q e eq mis mb0 mb1 kb0 (kb1 - kb0) kb1 n p
        else pure (kb1, n, 0)
      let w := (List.range w.length).map fun k => if kb0 ≤ k ∧ k < kb1 then mb1 else w.getD k 0
      if 0 < n then
        modify fun s => { s with base := r.d }
        writeRecords g r e false (blocksIn mb0 mb1 kb0 kb1) r.d
        if co then
          modify fun s => { s with base := q.d }
          writeRecords g q eq true (blocksIn kb0 kb1 0 q.kb) q.d
        writeFrontier w r.f
        return (boundsPair (8 * kb1) (8 * kb0), boundsPair (8 * mb1) (8 * mb0), boundsPair p n)
      else cutLoop g r q e eq co mis fuel w

/-! ## The checks of R169 -/

/-- Check 1 of R169: alignment, then the other limits. -/
def cutLimits (g : Mgmt) (tid : TId) (r q : CutRecord) (co : Bool) : Option Cause :=
  if !alignedTo r.b 8 || !alignedTo r.t 4 || !alignedTo r.d 8 || !alignedTo r.f 4 ||
      (co && (!alignedTo q.b 8 || !alignedTo q.t 4 || !alignedTo q.d 8)) then some Cause.misalign
  else if decide (r.mb = 0) || decide (2 ^ 20 < r.mb) || decide (r.kb = 0) || decide (4096 < r.kb) || decide (r.klim = 0) ||
      decide (r.mlim = 0) || decide (r.byte27 ≠ 0) || decide (r.budget < 64) || decide (2 ^ 20 < r.budget) ||
      decide (r.rest ≠ 0) || !ownRange g tid r.f (4 * r.kb) then some Cause.jobArg
  else if co && (decide (q.mb ≠ r.kb) || decide (q.kb = 0) || decide (4096 < q.kb) || decide (q.klim ≠ 0) ||
      decide (q.mlim ≠ 0) || decide (q.byte27 ≠ 0) || decide (q.budget < 64) || decide (2 ^ 20 < q.budget) ||
      decide (q.f ≠ 0) || decide (q.rest ≠ 0)) then some Cause.jobArg
  else none

/-- Some two of these byte ranges, by canonical address, share a byte. -/
def anyOverlap : List (Nat × Nat) → Bool
  | [] => false
  | (a, n) :: rest => rest.any (fun e => overlaps a n e.1 e.2) || anyOverlap rest

/-- A cut job from its record on (R169, R171). F is read and written, so it must be open to both (R79). The job is streamed where
a destination of it lies in the issuing thread's own slice (R143, R172). -/
def cutJob (g : Mgmt) (a : Dword) (co mis : Bool) : CutM (Dword × Dword × Dword) := do
  let words ← cutReads g a (if co then 32 else 16)
  let bytes := (words.map fun w => bytesOfWord w.1).flatten
  let r := CutRecord.ofBytes bytes
  let q := CutRecord.ofBytes (bytes.drop 64)
  let s ← get
  let tid := s.j.tid
  match cutLimits g tid r q co with
  | some cause => cutStop (some cause)
  | none => pure ()
  match cutElement r.fmt, (if co then cutElement q.fmt else some 1) with
  | some e, some eq =>
    let dn := 24 * r.klim * r.mlim + r.budget * e
    let pn := 24 * r.klim * q.kb + q.budget * eq
    let ranges : List Range := [⟨r.d, dn, true⟩] ++ (if co then [⟨q.d, pn, true⟩] else []) ++ [⟨r.f, 4 * r.kb, true⟩]
    match rangeChecksOver g s.j.lwin ranges (ranges ++ [⟨r.f, 4 * r.kb, false⟩]) none with
    | some stop => cutStop (some stop.1)
    | none => pure ()
    let place (r : Range) : Nat × Nat := (Chip.locOf g tid r.first, r.extent)
    if anyOverlap ((Chip.locOf g tid a, if co then 128 else 64) :: ranges.map place) then cutStop (some Cause.jobOverlap)
    let front ← cutReads g r.f r.kb
    let w := front.map fun x => x.1.toNat
    if w.any fun x => decide (r.mb < x) then cutStop (some Cause.jobArg)
    let streamed := ownRange g tid r.d dn || (co && ownRange g tid q.d pn)
    modify fun s => { s with j := { s.j with streamed := streamed } }
    cutLoop g r q e eq co mis (r.mb * r.kb + 1) w
  | _, _ => cutStop (some Cause.formatUnknown)

/-- Words of a cut's plan written, n at most, as an engine writes them (R145); a wait leaves what is left for later, and a fault
ends the job. The last word of a cell that the job has written whole and without poison clears the cell's poison (R68). -/
def Chip.cutWords (g : Mgmt) (ending : JobState) : Nat → List Planned → Job → Chip → Out
  | _, [], j, c => c.endJob g { j with plan := none } ending
  | 0, l, j, c => .next (c.setJob { j with plan := some (l, ending) })
  | n + 1, p :: rest, j, c =>
    match c.jobWrite g j p.a p.word p.poison with
    | (.ok wrote, c) =>
      let cell := p.a.toNat / 64
      let j := { j with
        landed := if p.counted then j.landed + 1 else j.landed
        wrote := j.wrote.join wrote
        tainted := if p.poison && !j.tainted.contains cell then cell :: j.tainted else j.tainted }
      let whole := p.counted && decide (p.a.toNat % 64 = 60) && decide (p.base.toNat ≤ 64 * cell) && !j.tainted.contains cell
      Chip.cutWords g ending n rest j (if whole then c.jobClears g j (p.a - 60) else c)
    | (.waits, c) => .next (c.setJob { j with plan := some (p :: rest, ending) })
    | (.fails cause, c) => c.endJob g { j with plan := none } (.faulted cause)

/-- CUT_JOB_RUN: a cut reads what it reads (R171), or waits for an absent page and reads later (R141); then it writes its records
and the frontier in order, a drawn number of words at a time: its words are apart from those of other jobs (R174). -/
def execCutJobRun (k : CId) (entry : BitVec 5) (s : State) : Host.Outcome State Fault Refusal :=
  s.run fun g c =>
    match c.jobAt k entry with
    | some j =>
      match j.kind with
      | .cut a co mis _ =>
        if j.state ≠ .running then .next c
        else match j.plan with
        | some (l, ending) =>
          let (n, c) := c.draw l.length
          Chip.cutWords g ending (n + 1) l j c
        | none =>
          match (cutJob g a co mis).run ⟨c, j, [], [], [], 0, []⟩ with
          | .ok (bounds, st) =>
            .next (st.c.setJob { st.j with
              bounds := some bounds, missed := !st.missed.isEmpty, plan := some (st.plan.reverse, .done) })
          | .error (some cause, st) => .next (st.c.setJob { st.j with plan := some (st.plan.reverse, .faulted cause) })
          | .error (none, st) => .next { c with promoting := st.c.promoting, zeroing := st.c.zeroing, draws := st.c.draws }
      | _ => .next c
    | none => .next c

end Sys2Proof.Machine
end

