-- ==== Sys2Proof/Machine/Gang.lean ====
section
/-! DEFINITION. How a gang executes its leader's instructions (R264 to R266). -/

namespace Sys2Proof.Machine

/-- A meaning for every instruction. -/
abbrev Meaning := Instr → State → Host.Outcome State Fault Refusal

/-- An answer over the whole state taken further. -/
def thenState (o : Host.Outcome State Fault Refusal) (f : State → Host.Outcome State Fault Refusal) :
    Host.Outcome State Fault Refusal :=
  match o with
  | .next s => f s
  | .fault e => .fault e
  | .refused r => .refused r

/-- The followers of a gang in core order. -/
def Chip.followers (c : Chip) (lead : TId) : List TId :=
  (List.range Config.cores).filterMap fun k =>
    let tid : TId := ⟨lead.cx, lead.cy, k, lead.thread⟩
    let t := c.thread tid
    if decide (k ≠ lead.core) && decide (t.gangSize ≠ 0) && decide (t.gangLeader = lead) then some tid else none

/-- A thread's state with where its leader stands (R265, R266). -/
def Thread.takePlace (t lead : Thread) : Thread :=
  { t with pc := lead.pc, loops := lead.loops, rep := lead.rep, repc := lead.repc }

/-- Members that have completed the leader's instruction follow again, and when every one has, they stand where the
leader stands (R265). -/
def Chip.regroup (c : Chip) (lead : TId) : Chip :=
  let fs := c.followers lead
  let c := fs.foldl (fun (c : Chip) f =>
    let t := c.thread f
    if t.run = .ready then c.setThread f { t with run := .follow } else c) c
  let l := c.thread lead
  if decide (l.run = .ready) && fs.all fun f => decide ((c.thread f).run = .follow) then
    fs.foldl (fun (c : Chip) f => c.setThread f ((c.thread f).takePlace l)) c
  else c

/-- A thread's gang, if it is in one, lets it issue: a leader when every follower has completed (R265). -/
def Chip.gangReady (c : Chip) (tid : TId) : Bool :=
  let t := c.thread tid
  if t.gangSize = 0 then true
  else if t.gangMember = 0 then (c.followers tid).all fun f => decide ((c.thread f).run = .follow)
  else decide (t.run = .wait .retry)

/-- Branches, jumps, `loop` and repeat prefixes: the leader decides them (R265). `loopm` is decided by the leader too, but each
member makes its memory access as its own. -/
def isControl : Instr → Bool
  | .beq _ _ _ | .bne _ _ _ | .blt _ _ _ | .bge _ _ _ | .bltu _ _ _ | .bgeu _ _ _ | .jal _ _ | .jalr _ _ _
  | .loop _ _ | .rep _ _ _ _ => true
  | _ => false
/-- The register in which an instruction leaves a link (R269). -/
def linkOf : Instr → Reg
  | .jal xd _ => xd
  | .jalr xd _ _ => xd
  | _ => 0
/-- Instructions that trap GANG_STATE inside a gang (R265). -/
def barredInGang : Instr → Bool
  | .gang _ | .join _ | .wfw | .yield | .park _ _ _ => true
  | _ => false

/-- Every member in turn traps GANG_STATE (R265). -/
def Chip.raiseEach (g : Mgmt) : List TId → Chip → Out
  | [], c => .next c
  | m :: rest, c =>
    let c := c.focus m
    andThen ({ c with t := { c.t with run := .ready } }.raise g Cause.gangState 0 0) (Chip.raiseEach g rest)

/-- What a stopped thread's frame says of its stop: cause, FAULTADDR, FAULTINFO (R302). -/
def Chip.stopOf (g : Mgmt) (c : Chip) (t : Thread) (st : Dword) : Cause × Dword × Dword :=
  let read (a : Dword) : Dword := match c.hardwareSpot g a with
    | (.here s, _) => Mem.dword c.mem s.key
    | _ => 0
  (st.extractLsb' 16 8, read (t.csr.tframe + 0x18), read (t.csr.tframe + 0x10))

/-- The followers of a control instruction that the leader has executed (R265, R266): they write its link and stand where
it stands; they end their tasks with it, or stop as it does. before is the leader's handler before the instruction. -/
def Chip.followControl (g : Mgmt) (lead : TId) (before : Option Dword) (j : Instr) (link : Dword) : List TId → Chip → Out
  | [], c => .next c
  | f :: rest, c =>
    let l := c.thread lead
    let c := c.focus f
    let t := c.t.setX (linkOf j) link
    let counted := match j with
      | .rep _ _ _ _ => t
      | _ => ({ t with pend := countWindows t.pend } : Thread).settleWindows
    let done : Out :=
      match (if before.isSome then none else l.handler), l.run with
      | some st, _ =>
        let (cause, a, info) := c.stopOf g l st
        c.raise g cause a info
      | none, .wait .taskEnd => { c with t := t }.reachEnd g
      | none, .wait .retry => .next c
      | none, .free => .next c
      | none, _ => .next { c with t := counted.takePlace l }
    andThen done (Chip.followControl g lead before j link rest)

/-- The leader's instruction on each follower, on that follower's own registers (R265). A `loopm` is each member's own access;
where the loop stack is full, a follower makes the access alone, for the leader decides whether the loop is entered; where the
leader's stop has disbanded the gang, each member completes the instruction by itself (R266, R270). -/
def followEach (run : Meaning) (j : Instr) : List TId → State → Host.Outcome State Fault Refusal
  | [], s => .next s
  | f :: rest, s =>
    let c := s.chip.focus f
    let s' := { s with chip := { c with t := { c.t with run := .ready } } }
    let own := match j with
      | .loopm xb off _ =>
        if c.t.loops.length < 4 || c.t.gangSize = 0 then run j s'
        else s'.run fun g c => c.access g 0 .none (.sync .ldwFf true false 5 (addrLoopm (c.t.getX xb) off) 0 none) 0
      | _ => run j s'
    thenState own (followEach run j rest)

/-- A gang's turn: the leader's instruction, then the followers (R265, R266). -/
def gangTurn (run : Meaning) (j : Instr) (s : State) : Host.Outcome State Fault Refusal :=
  let lead := s.chip.tid
  let fs := s.chip.followers lead
  let link := s.chip.t.pc + 4
  let before := s.chip.t.handler
  let back (s : State) : Host.Outcome State Fault Refusal :=
    .next { s with chip := (s.chip.focus lead).regroup lead }
  if barredInGang j then thenState (s.run fun g c => Chip.raiseEach g (lead :: fs) c) back
  else
    thenState (run j s) fun s =>
      if s.chip.t.run = .wait .retry then .next s
      else if isControl j then thenState (s.run fun g c => Chip.followControl g lead before j link fs c) back
      else thenState (followEach run j fs s) back

end Sys2Proof.Machine
end

