-- ==== Sys2Proof/Machine/Issue.lean ====
section
/-! DEFINITION. The issue of one instruction by the thread whose turn it is (R246), with the meaning of instructions as
a parameter. -/

namespace Sys2Proof.Machine

/-- Whether the acting thread may issue: it is READY, or it holds an instruction that tries again, its gang lets it, and
the main side runs (R246, R265, R347). -/
def State.mayIssue (s : State) : Bool :=
  s.mgmt.powered && !s.mgmt.stopped && (decide (s.chip.t.run = .ready) || decide (s.chip.t.run = .wait .retry)) &&
    s.chip.gangReady s.chip.tid

/-- The instruction to execute: the fetched one, or the repeat of it that is next (R50, R52). -/
def Thread.current (t : Thread) (i : Instr) : Option Instr :=
  match t.rep with
  | none => some i
  | some r => stepped i r.d r.a r.b (t.repc.extractLsb' 0 6).toNat

/-- A thread that begins an instruction: the first one after a return keeps REPC.ACT only where it is a repeat
prefix (R52). -/
def Thread.begin (t : Thread) (i : Instr) : Thread :=
  let t := { t with run := .ready }
  if t.returned then
    match i with
    | .rep _ _ _ _ => { t with returned := false }
    | _ => { t.clearAct with returned := false }
  else t

/-- A deferred report held for the acting thread is taken (R298): by the scheduler where every stop is for an absent page, and
the task then waits for each of these (R352); else by the handler. It is held while the frame's page is away. -/
def Chip.takeReport (g : Mgmt) (c : Chip) (r : Report) : Out :=
  match c.stopWaits g with
  | some c => .next c
  | none =>
    let c := c.atReturn g
    let c := { c with t := { c.t with report := none } }
    if r.pages.isEmpty then c.takeStop g c.t.stopPc r.cause r.addr r.info true (decide (r.cause = Cause.ctxPoison))
    else c.schedulerSave g c.t.stopPc r.cause r.addr r.info true 2 (.pages r.pages)

/-- The first member of the acting thread's gang, itself first, that holds a deferred report (R298). -/
def Chip.reporting (c : Chip) : Option TId :=
  (c.tid :: (if c.t.gangSize ≠ 0 && c.t.gangMember = 0 then c.followers c.tid else [])).find? fun tid =>
    (c.thread tid).report.isSome && (c.thread tid).handler.isNone

/-- One issue turn of the acting thread: a held deferred report is taken first (R298); then the instruction at the
program counter is fetched and executed. Control at the end link ends the task (R244). -/
def issue (run : Meaning) (s : State) : Host.Outcome State Fault Refusal :=
  match s.chip.reporting with
  | some tid =>
    match (s.chip.thread tid).report with
    | some r => s.run fun g c => (c.focus tid).takeReport g r
    | none => turn run s
  | none => turn run s
where
  turn (run : Meaning) (s : State) : Host.Outcome State Fault Refusal :=
    if s.chip.t.pc = endLink then s.run fun g c => c.reachEnd g
    else match s.chip.fetch s.mgmt s.chip.t.pc with
    | (.instr i w, c) =>
      let c := { c with t := (c.t.begin i) }
      match c.t.current i with
      | some j =>
        if c.t.gangSize ≠ 0 && c.t.gangMember = 0 then gangTurn run j { s with chip := c } else run j { s with chip := c }
      | none => { s with chip := c }.run fun g c => c.illegal g (w.setWidth 64)
    | (f, c) => { s with chip := c }.run fun g c => c.fetchStop g f

end Sys2Proof.Machine
end

