-- ==== Sys2Proof/Machine/Arrival.lean ====
section
/-! DEFINITION. The Arrival Array: tiles, resident slots and the codebook (R219 to R221, R237 to R242), and the issue of
contracting loads (R222, R226). -/

namespace Sys2Proof.Machine

/-! ## Tiles and slots of a task (R220) -/

/-- The acting thread's task. -/
def Chip.taskId (c : Chip) : Nat := (c.t.task.map Task.id).getD 0
/-- A tile of the acting thread's task; none where it is not mapped. -/
def Chip.myTile (c : Chip) (acc : BitVec 2) : Option Tile := c.tile c.taskId acc.toNat
/-- The acting thread's task has slot n mapped. -/
def Chip.slotMapped (c : Chip) (n : Nat) : Bool := decide (n < (c.t.task.map Task.res).getD 0) && decide (n < 8)
/-- A slot of a cluster. -/
def Cluster.slot (k : Cluster) (n : Nat) : Slot := k.slots.getD n Slot.reset

/-- Elements in a column of a slot's format (R219). -/
def Slot.count (s : Slot) : Nat := match formatOfCell s.fmt with | some f => f.count | none => 0
def Slot.isInt (s : Slot) : Bool := match formatOfCell s.fmt with | some f => f.isInt | none => false

/-- A stop of the acting thread's instruction with no address to report. -/
def Chip.stopPlain (g : Mgmt) (c : Chip) (cause : Cause) : Out := c.raise g cause 0 0

/-! ## Blocks of memory read by an instruction -/

/-- Two addresses lie in one page, or in one sub-page where sub-pages are in force (R83, R87). -/
def Chip.onePage (g : Mgmt) (c : Chip) (who : Who) (a b : Dword) : Bool :=
  match homeHeap g a, homeHeap g b with
  | some (d, x), some (e, y) =>
    let unit (off : Nat) : Nat := if subPage (c.regionsOf who) d off then 2 ^ 10 else 2 ^ 21
    decide (d = e) && decide (unit x = unit y) && decide (x / unit x = y / unit y)
  | _, _ => false

/-- How an access to an address fares where an access to another one of its page has been translated (R89). -/
def Reach.moved (a b : Dword) (r : Reach) : Reach :=
  let at_ (s : Spot) : Spot := ⟨s.loc + b.toNat % 2 ^ 48 - a.toNat % 2 ^ 48, s.key + b.toNat % 2 ^ 48 - a.toNat % 2 ^ 48⟩
  match r with
  | .ok s e => .ok (at_ s) e
  | .zeroing page sub s e => .zeroing page sub (at_ s) e
  | r => r

/-- How an instruction's accesses of n bytes each fare, in order: each page is translated once (R89, R93). -/
def Chip.reachEach (g : Mgmt) (who : Who) (kind : Kind) (n : Nat) :
    List Dword → List (Dword × Reach) → Chip → List (Dword × Reach) × Chip
  | [], done, c => (done, c)
  | a :: rest, done, c =>
    match done.find? fun e => c.onePage g who e.1 a with
    | some e => Chip.reachEach g who kind n rest (done ++ [(a, e.2.moved e.1 a)]) c
    | none =>
      let (r, c) := c.reach g who kind false a n
      Chip.reachEach g who kind n rest (done ++ [(a, r)]) c

/-- The cause of an access that fails (R89 steps 1 to 5). -/
def Reach.fault : Reach → Option Cause
  | .fails cause => some cause
  | _ => none
/-- The absent page that an access meets (R89 step 6). -/
def Reach.absence : Reach → Option Dword
  | .absent page => some page
  | _ => none
/-- An access that must wait for its page to be zeroed (R92). -/
def Reach.zeroes : Reach → Bool
  | .zeroing _ _ _ _ => true
  | _ => false

/-- Where the n cells from an address are read: those of the local window and of a slice, whose bytes are checked apart, where they
stand. -/
def Chip.reachCells (g : Mgmt) (c : Chip) (who : Who) (a : Dword) (n : Nat) : List (Dword × Reach) × Chip :=
  let cells := (List.range n).map fun i => a + BitVec.ofNat 64 (64 * i)
  match classify g a with
  | some (.window _) => (cells.map fun b =>
      (b, .ok ⟨sliceLoc who.tid.coreId (b.toNat % 0x10000), sliceKey who.tid.coreId (b.toNat % 0x10000)⟩ 0), c)
  | some (.slice k _) => (cells.map fun b => (b, .ok ⟨sliceLoc k (b.toNat % 0x10000), sliceKey k (b.toNat % 0x10000)⟩ 0), c)
  | _ => Chip.reachEach g who .read 64 cells [] c

/-- The cells of 64 bytes read, each once; with each, whether an arithmetic path reads it as a described cell (R97, R98); it reads
the first k of them. The first that fails decides; held is a wait that the instruction's window covers. A cell of another
module's heap is described or not. -/
def Chip.readCells (w : Issuer) : Nat → List (Dword × Reach) → List (List Byte × Bool) → Chip → Got (List (List Byte × Bool))
  | _, [], acc, c => (.ok acc.reverse, c)
  | k, (a, .away m) :: rest, acc, c =>
    match c.remoteAnswer with
    | (.cause cause, c) => (.error (.stop cause a (remoteInfo .read 0 m cause)), c)
    | (.none, c) => let (t, c) := c.unanswered .read a m; (.error t, c)
    | (.value _, c) =>
      let (bs, c) := Chip.freeBytes 8 c
      let (i, c) := c.draw (if a.getLsbD 51 then 1 else 2)
      Chip.readCells w (k - 1) rest ((bs, decide (i = 0)) :: acc) c
  | k, (a, .ok s e) :: rest, acc, c =>
    if c.anyPoison s.key 64 then
      (.error (.stop Cause.memPoison (a + BitVec.ofNat 64 (c.firstPoison s.key 64)) (accessInfo .read 0)), c)
    else
      let (bs, c) := if k = 0 then c.readBytes w.who.agent s 64 else c.readCell w.who.agent s
      Chip.readCells w (k - 1) rest ((bs, described s e) :: acc) c
  | k, _ :: rest, acc, c => Chip.readCells w (k - 1) rest ((List.replicate 64 0, true) :: acc) c

/-- The first cell of a read of n cells whose address has no form (R78). -/
def blocksShapeless (g : Mgmt) : Nat → Dword → Option Dword
  | 0, _ => none
  | n + 1, a => if (classify g a).isNone then some a else blocksShapeless g n (a + 64)

/-- The first byte of n at an offset that the protection pairs, or a slice's keys, do not open to a read: each byte on its own,
where `each` says so, or all of them by one pair (R79, R81, R238, R239). -/
def firstShut (each : Bool) (n : Nat) (opens : Nat → Nat → Bool) : Option Nat :=
  if each then (List.range n).find? fun i => !opens i 1
  else if opens 0 n then none else some 0

/-- One read of n cells: steps 3 and 4 of R120 over all of it, its two pages as R89 states, then its poison and its bytes.
An arithmetic path reads the first `cells` of them. A read that begins in the local window and passes its end names bytes
whose address has no form: ADDR_INVALID (R78) before LOCAL_PROTECT (R79), a DESIGN CHOICE (log 61). -/
def Chip.readAll (g : Mgmt) (w : Issuer) (earlier : List Pending) (each : Bool) (cells n : Nat) (a : Dword) (c : Chip) :
    Got (List (List Byte × Bool)) :=
  let shut := match blocksShapeless g n a with
   | some b => some (Cause.addrInvalid, b)
   | none => match classify g a with
    | some (.window off) =>
      (firstShut each (64 * n) fun i k => windowAllows c.t.csr.lwin (off + i) k true false).map fun i =>
        (Cause.localProtect, a + BitVec.ofNat 64 i)
    | some (.slice k off) =>
      (firstShut each (64 * n) fun i m => keyAdmits (c.core k) w.who (off + i) m).map fun i =>
        (Cause.sliceKey, a + BitVec.ofNat 64 i)
    | _ => none
  match shut with
  | some (cause, b) => (.error (.stop cause b (accessInfo .read 0)), c)
  | none =>
    let (l, c') := c.reachCells g w.who a n
    match l.findSome? fun e => e.2.fault.map fun cause => (cause, e.1) with
    | some (cause, b) => (.error (.stop cause b (accessInfo .read 0)), Chip.unasked c c')
    | none =>
      match l.findSome? fun e => e.2.absence.map fun page => (page, e.1) with
      | some (page, b) => (.error (.absent page b (accessInfo .read 0)), c')
      | none =>
        if (l.any fun e => e.2.zeroes) || l.any fun e => behind g w earlier (.vldc e.1 0 0) then (.error .held, c')
        else Chip.readCells w cells l [] c'

/-! ## Tile instructions (R241) -/

/-- A cleared tile (R241). -/
def Tile.cleared (x : Tile) (int32 : Bool) (elems : List Word) : Tile :=
  { x with elems := elems, v := true, d := false, t := int32, operr := false, isat := false, cov := 0 }

/-- tzero, once what it stands behind is done (R241). -/
def Chip.tryTzero (c : Chip) (int32 : Bool) (acc : BitVec 2) : Tried × Chip :=
  match c.myTile acc with
  | some x => if x.f then (.stop Cause.tileState 0 0, c) else (.nothing, c.setTile (x.cleared int32 (List.replicate 256 0)))
  | none => (.stop Cause.tileState 0 0, c)

/-- tload at a, once what it stands behind is done (R241): 1 KiB of words. -/
def Chip.tryTload (g : Mgmt) (c : Chip) (w : Issuer) (earlier : List Pending) (int32 : Bool) (acc : BitVec 2) (a : Dword) :
    Tried × Chip :=
  match c.myTile acc with
  | none => (.stop Cause.tileState 0 0, c)
  | some x =>
    if x.f then (.stop Cause.tileState 0 0, c)
    else if !alignedTo a 64 then (.stop Cause.misalign a 1024, c)
    else
      match Chip.readAll g w earlier false 0 16 a c with
      | (.error t, c) => (t, c)
      | (.ok blocks, c) =>
        let bytes := (blocks.map Prod.fst).flatten
        (.nothing, c.setTile (x.cleared int32 ((List.range 256).map fun i => frameWord bytes (4 * i))))

/-- tmov, once what it stands behind is done (R241). -/
def Chip.tryTmov (c : Chip) (accd accs : BitVec 2) : Tried × Chip :=
  match c.myTile accd, c.myTile accs with
  | some d, some x =>
    if !x.v || d.f || x.f then (.stop Cause.tileState 0 0, c) else (.nothing, c.setTile { x with acc := d.acc })
  | _, _ => (.stop Cause.tileState 0 0, c)

/-- tcov and tstat (R241): a tile that a contracting load owns is looked at now or, in a window, at a later moment before the
write. now says that it may not be later. -/
def Chip.lookAtTile (c : Chip) (now : Bool) (status : Bool) (acc : BitVec 2) : Tried × Chip :=
  match c.myTile acc with
  | none => (.stop Cause.tileState 0 0, c)
  | some x =>
    let (i, c) := c.draw (if x.f && !now then 2 else 1)
    (if i = 0 then .x (c.tileWord status x) else .waits (.tile status acc) [], c)

/-- An instruction of the acting thread behind one that it names a tile, or a place in its cluster's order of loads, with; else as
it goes (R240, R354). -/
def Chip.orBehind (earlier : List Pending) (i : Instr) (v : List Dword) (go : Tried × Chip) (c : Chip) : Tries :=
  if behindLate earlier i then .next (.waits (.late i v) [], c) else .next (go.1.covered (.late i v), go.2)

/-- tzero (R241). -/
def execTzero (la : BitVec 4) (int32 : Bool) (acc : BitVec 2) (s : State) : Host.Outcome State Fault Refusal :=
  s.run fun g c =>
    let i : Instr := .tzero la int32 acc
    Chip.composite g la .none 0 (.late i []) (Chip.orBehind c.t.pend i [] (c.tryTzero int32 acc) c)

/-- tload (R241). -/
def execTload (la : BitVec 4) (int32 : Bool) (acc : BitVec 2) (xa : Reg) (s : State) : Host.Outcome State Fault Refusal :=
  s.run fun g c =>
    let i : Instr := .tload la int32 acc xa
    let v := [c.t.getX xa]
    Chip.composite g la .none 0 (.late i v)
      (Chip.orBehind c.t.pend i v (c.tryTload g c.issuer c.t.pend int32 acc (c.t.getX xa)) c)

/-- tmov (R241). -/
def execTmov (la : BitVec 4) (accd accs : BitVec 2) (s : State) : Host.Outcome State Fault Refusal :=
  s.run fun g c =>
    let i : Instr := .tmov la accd accs
    Chip.composite g la .none 0 (.late i []) (Chip.orBehind c.t.pend i [] (c.tryTmov accd accs) c)

/-- tcov (R241). -/
def execTcov (la : BitVec 4) (xd : Reg) (acc : BitVec 2) (s : State) : Host.Outcome State Fault Refusal :=
  s.run fun g c =>
    let i : Instr := .tcov la xd acc
    Chip.composite g la (.x xd) 0 (.late i []) (Chip.orBehind c.t.pend i [] (c.lookAtTile (decide (la = 0)) false acc) c)

/-- tstat (R241). -/
def execTstat (la : BitVec 4) (xd : Reg) (acc : BitVec 2) (s : State) : Host.Outcome State Fault Refusal :=
  s.run fun g c =>
    let i : Instr := .tstat la xd acc
    Chip.composite g la (.x xd) 0 (.late i []) (Chip.orBehind c.t.pend i [] (c.lookAtTile (decide (la = 0)) true acc) c)

/-! ## tdrain (R242) -/

/-- A tile's element as a value (R242). -/
def Tile.value (x : Tile) (i : Nat) : Value :=
  let w := x.elems.getD i 0
  decodeElement (if x.t then .int32 else .fp32) w.toNat

/-- A value divided by an E8M0 scale (R242). -/
def divided (scale : Byte) (v : Value) : Value :=
  if scale = 0xFF then .nan
  else match v with
    | .fin neg n e => if n = 0 then .zero neg else .fin neg n (e + 127 - scale.toNat)
    | v => v

/-- A row of a tile converted: its bytes and the flags (R113, R242). -/
def drainRow (x : Tile) (r : Nat) (f : Format) (rm : BitVec 3) (sat : Bool) (scale : Byte) (seed : Dword) (loc : Nat) :
    List Byte × Word :=
  let q := (List.range 16).map fun k =>
    let v := divided scale (x.value (16 * r + k))
    cvt v f (roundingOf rm seed f (srMemoryCounter (loc + k * f.width / 8) (f.width = 4 && k % 2 = 1))) sat false
  let bits := q.map Converted.bits
  let bytes := match f.width with
    | 32 => (bits.map fun b => bytesOfWord (BitVec.ofNat 32 b)).flatten
    | 16 => (bits.map fun b => bytesOfHalf (BitVec.ofNat 16 b)).flatten
    | 8 => bits.map (BitVec.ofNat 8)
    | _ => (List.range 8).map fun k => BitVec.ofNat 8 (bits.getD (2 * k) 0 % 16 + 16 * bits.getD (2 * k + 1) 0)
  (bytes, q.foldl (fun acc k => acc ||| k.flags) 0)

/-- An access that names the b bytes of a row (R277). -/
def rowAccess (a : Dword) (b : Nat) : Access :=
  match b with
  | 64 => .vldc a 0 0
  | 32 => .vload a 0xFF
  | 16 => .cas128 a 0 0 0 0
  | _ => .load 3 a

/-- Where the rows of a drain go; a row of another module, or of the Den window, has no spot here. The first row that fails
decides; then the first that must wait (R89, R242). -/
def Chip.drainSpots (g : Mgmt) (w : Issuer) (earlier : List Pending) (b : Nat) :
    List (Dword × Reach) → Option Tried → List (Option Spot) → Chip → Got (List (Option Spot))
  | [], some t, _, c => (.error t, c)
  | [], none, acc, c => (.ok acc.reverse, c)
  | (a, r) :: rest, wait, acc, c =>
    match r with
    | .fails cause => (.error (.stop cause a (accessInfo .write 0)), c)
    | .absent page => Chip.drainSpots g w earlier b rest (some (wait.getD (.absent page a (accessInfo .write 0)))) (none :: acc) c
    | .zeroing _ _ _ _ => Chip.drainSpots g w earlier b rest (some (wait.getD .held)) (none :: acc) c
    | .den _ => Chip.drainSpots g w earlier b rest wait (none :: acc) c
    | .away m =>
      match c.remoteAnswer with
      | (.cause cause, c) => (.error (.stop cause a (remoteInfo .write 0 m cause)), c)
      | (.none, c) =>
        match c.unanswered .write a m with
        | (.stop cause a info, c) => (.error (.stop cause a info), c)
        | (t, c) => Chip.drainSpots g w earlier b rest (some (wait.getD t)) (none :: acc) c
      | (.value _, c) => Chip.drainSpots g w earlier b rest wait (none :: acc) c
    | .ok s _ =>
      let held := behind g w earlier (rowAccess a b)
      Chip.drainSpots g w earlier b rest (if held then some (wait.getD .held) else wait) (some s :: acc) c

/-- tdrain of a tile to rows from a, p apart, with DRSCL and SRSEED as they were at its issue, once what it stands behind is done
(R242). -/
def Chip.tryTdrain (g : Mgmt) (c : Chip) (w : Issuer) (earlier : List Pending) (sat : Bool) (rm : BitVec 3) (fmt : BitVec 4)
    (acc : BitVec 2) (a p scale seed : Dword) : Tried × Chip :=
  let f := formatOf4 fmt
  let b := 2 * f.width
  match c.myTile acc with
  | none => (.stop Cause.tileState 0 0, c)
  | some x =>
    if !x.v || x.f then (.stop Cause.tileState 0 0, c)
    else if !alignedTo a b then (.stop Cause.misalign a (BitVec.ofNat 64 b), c)
    else if !alignedTo p b then (.stop Cause.misalign p (BitVec.ofNat 64 b), c)
    else
      let rows := (List.range 16).map fun r => a + BitVec.ofNat 64 r * p
      let (l, c') := Chip.reachEach g w.who .write b rows [] c
      match Chip.drainSpots g w earlier b l none [] c' with
      | (.error (.stop cause a info), c') => (.stop cause a info, Chip.unasked c c')
      | (.error t, c) => (t, c)
      | (.ok spots, c) =>
        let (fl, c) := (List.range 16).foldl (fun (acc : Word × Chip) r =>
          match spots.getD r none with
          | some sp =>
            let (bytes, k) := drainRow x r f rm sat (scale.extractLsb' 0 8) seed sp.loc
            (acc.1 ||| k, acc.2.storeAt w none sp bytes)
          | none =>
            let loc := (a + BitVec.ofNat 64 r * p).toNat % 2 ^ 52
            (acc.1 ||| (drainRow x r f rm sat (scale.extractLsb' 0 8) seed loc).2, acc.2)) (0, c)
        (.done (.x (a + 16 * p)) fl none, c.setTile { x with d := false })

/-- tdrain (R242). -/
def execTdrain (la : BitVec 4) (sat : Bool) (rm : BitVec 3) (fmt : BitVec 4) (acc : BitVec 2) (xd xb : Reg) (s : State) :
    Host.Outcome State Fault Refusal :=
  s.run fun g c =>
    let i : Instr := .tdrain la sat rm fmt acc xd xb
    let a := c.t.getX xb
    let p := c.t.getX (xb + 1)
    let scale : Dword := c.t.csr.drscl.setWidth 64
    let v := [a, p, scale, c.t.csr.srseed]
    let warn : Byte := if sat && (formatOf4 fmt).isInt then 0x06 else 0
    Chip.composite g la (.x xd) warn (.late i v)
      (Chip.orBehind c.t.pend i v (c.tryTdrain g c.issuer c.t.pend sat rm fmt acc a p scale c.t.csr.srseed) c)

/-! ## Loading slots and the codebook (R237 to R240) -/

/-- A sparse pattern and unit length by its number (R41): N, M and v. -/
def sparsePattern (pat : BitVec 4) : Option (Nat × Nat × Nat) :=
  match pat.toNat with
  | 1 => some (1, 2, 4)
  | 2 => some (2, 4, 4)
  | 3 => some (1, 4, 4)
  | 4 => some (2, 8, 4)
  | 5 => some (1, 2, 8)
  | 6 => some (2, 4, 8)
  | 7 => some (1, 4, 8)
  | 8 => some (2, 8, 8)
  | _ => none

/-- Logical rows of a sparse form that lie in groups (R237). -/
def sparseRows (p : Nat × Nat × Nat) (count : Nat) : Nat :=
  let (n, m, v) := p
  (m / n) * count / (m * v) * (m * v)

/-- A column's bitmap keeps exactly N units of every group, and nothing above them (R237). -/
def bitmapOk (p : Nat × Nat × Nat) (count : Nat) (b : BitVec 64) : Bool :=
  let (n, m, v) := p
  let units := sparseRows p count / v
  (List.range (units / m)).all (fun i => decide (popcount (b.extractLsb' (i * m) m) m = n)) && decide (b >>> units = 0)

/-- The slots that a job names: Q of R226. -/
def CldJob.slots (p : CldJob) (pattern : Option (Nat × Nat × Nat)) : Nat :=
  match p.form, pattern with
  | 2#2, some (n, m, _) => (p.cells + m / n - 1) / (m / n)
  | _, _ => p.cells

/-- A contracting load names slot n: one of its Q slots (R226, R240). The further slots of a LAT8 pair (R224) are used, as they were
at the job's issue, and not named: a DESIGN CHOICE (log 61). -/
def CldJob.names (p : CldJob) (k : Cluster) (n : Nat) : Bool :=
  decide (p.slot.toNat ≤ n) && decide (n < p.slot.toNat + p.slots (k.slot p.slot.toNat).pattern)

/-- A contracting load of a cluster that is not over, and names a slot, or any (R240). -/
def Chip.loadsLive (c : Chip) (k : CId) (slot : Option Nat) : Bool :=
  c.jobs.any fun j => match j.kind with
    | .cld p => decide (j.cluster = k) && !j.state.over && (match slot with | some n => p.names (c.cluster k) n | none => true)
    | _ => false

/-- The column formats that a resident slot holds (R219, R238). -/
def residentFormat (fmt : Byte) : Bool :=
  match formatOfCell fmt with
  | some .fp32 => false
  | some .int32 => false
  | some _ => true
  | none => false

/-- Slot n loaded with the operand at an address, dense or in a sparse form, once what it stands behind is done (R238). The wait
for earlier jobs is one at issue (R240, R354). acc is what its window covers. -/
def Chip.loadSlot (g : Mgmt) (c : Chip) (w : Issuer) (earlier : List Pending) (acc : Access) (pat : Option (Nat × Nat × Nat))
    (n : Nat) (a : Dword) : Tried × Chip :=
  let blocks := if pat.isSome then 18 else 16
  if !c.slotMapped n then (.stop Cause.resState 0 0, c)
  else if !alignedTo a 64 then (.stop Cause.misalign a (BitVec.ofNat 64 (64 * blocks)), c)
  else
    match Chip.readAll g w earlier true 16 blocks a c with
    | (.error t, c) => (t.covered acc, c)
    | (.ok all, c) =>
      let cells := all.take 16
      let map := ((all.drop 16).map Prod.fst).flatten
      let columns := (List.range 16).map fun i =>
        (⟨(cells.getD i ([], false)).1, if pat.isSome then frameDword map (8 * i) else 0, []⟩ : SlotColumn)
      let fmt := byteAt ((cells.getD 0 ([], false)).1) 0
      let slot : Slot := ⟨true, fmt, pat, columns⟩
      match cells.findIdx? fun e => !e.2 with
      | some i => (.stop Cause.formatUnknown (a + BitVec.ofNat 64 (64 * i)) 0, c)
      | none =>
        if !residentFormat fmt || !(cells.all fun e => decide (byteAt e.1 0 = fmt)) ||
            (slot.isInt && !(cells.all fun e => decide (byteAt e.1 1 = 0x7F))) then (.stop Cause.formatUnknown a 0, c)
        else
          match pat.bind fun p => columns.findIdx? fun k => !bitmapOk p slot.count k.bitmap with
          | some i => (.stop Cause.sparseMismatch (a + BitVec.ofNat 64 (1024 + 8 * i)) 0, c)
          | none =>
            let k := c.tid.cluster
            if c.loadsLive k (some n) then (.held, c)
            else
              let cl := c.cluster k
              (.nothing, c.setCluster k { cl with slots := cl.slots.set n slot })

/-- An instruction that stands behind what it takes its place after, or else goes on with its own waits (R240, R354). -/
def Chip.orPlaced (earlier : List Pending) (i : Instr) (v : List Dword) (go : Tried × Chip) (c : Chip) : Tries :=
  if behindLate earlier i then .next (.waits (.late i v) [], c) else .next go

/-- resld (R238). -/
def execResld (la : BitVec 4) (slot : BitVec 3) (xa : Reg) (s : State) : Host.Outcome State Fault Refusal :=
  s.run fun g c =>
    let i : Instr := .resld la slot xa
    let v := [c.t.getX xa]
    Chip.composite g la .none 0 (.late i v)
      (Chip.orPlaced c.t.pend i v (c.loadSlot g c.issuer c.t.pend (.late i v) none slot.toNat (c.t.getX xa)) c)

/-- resld of a sparse form (R237, R238). -/
def execResldSparse (la pat : BitVec 4) (slot : BitVec 3) (xa : Reg) (s : State) : Host.Outcome State Fault Refusal :=
  s.run fun g c =>
    let i : Instr := .resldSparse la pat slot xa
    let v := [c.t.getX xa]
    Chip.composite g la .none 0 (.late i v)
      (Chip.orPlaced c.t.pend i v (c.loadSlot g c.issuer c.t.pend (.late i v) (sparsePattern pat) slot.toNat (c.t.getX xa)) c)

/-- The codebook loaded from an address, once what it stands behind is done (R109, R239, R240). -/
def Chip.tryCbld (g : Mgmt) (c : Chip) (w : Issuer) (earlier : List Pending) (acc : Access) (a : Dword) : Tried × Chip :=
  if !alignedTo a 64 then (.stop Cause.misalign a 1024, c)
  else
    match Chip.readAll g w earlier true 0 16 a c with
    | (.error t, c) => (t.covered acc, c)
    | (.ok blocks, c) =>
      let k := c.tid.cluster
      if c.loadsLive k none then (.held, c)
      else
        let cl := c.cluster k
        (.nothing, c.setCluster k { cl with codebook := (blocks.map Prod.fst).flatten, badRoots := [] })

/-- cbld (R239). -/
def execCbld (la : BitVec 4) (xa : Reg) (s : State) : Host.Outcome State Fault Refusal :=
  s.run fun g c =>
    let i : Instr := .cbld la xa
    let v := [c.t.getX xa]
    Chip.composite g la .none 0 (.late i v)
      (Chip.orPlaced c.t.pend i v (c.tryCbld g c.issuer c.t.pend (.late i v) (c.t.getX xa)) c)

/-! ## cld (R222, R226) -/

/-- The job of a shape record, from its 32 bytes (R222). -/
def shapeOf (form : BitVec 2) (fold ord : Bool) (slot : BitVec 3) (acc : BitVec 2) (base : Dword) (bs : List Byte) : CldJob where
  form := form
  fold := fold
  ord := ord
  slot := slot
  acc := acc
  base := base
  stride := frameWord bs 0
  rows := fieldAt bs 4 1
  cells := fieldAt bs 5 1
  foldMod := fieldAt bs 6 1
  isat := (byteAt bs 7).getLsbD 0
  h := fieldAt bs 8 2
  w := fieldAt bs 10 2
  cin := fieldAt bs 12 2
  ow := fieldAt bs 14 2
  kh := fieldAt bs 16 1
  kw := fieldAt bs 17 1
  sh := fieldAt bs 18 1
  sw := fieldAt bs 19 1
  dh := fieldAt bs 20 1
  dw := fieldAt bs 21 1
  pt := fieldAt bs 22 1
  pl := fieldAt bs 23 1
  k0 := fieldAt bs 24 2
  padv := frameWord bs 28

/-- The record breaks a limit of R222. -/
def badShape (p : CldJob) (bs : List Byte) : Bool :=
  let general := decide (1 ≤ p.rows) && decide (p.rows ≤ (if p.fold then 64 else 16)) && decide (1 ≤ p.cells) &&
    decide (p.cells ≤ 8) && decide (p.rows * p.cells ≤ 64) &&
    (!p.fold || (decide (1 ≤ p.foldMod) && decide (p.foldMod ≤ 16))) && decide ((byteAt bs 7).extractLsb' 1 7 = 0)
  let rest :=
    if p.form = 1 then
      decide (1 ≤ p.h) && decide (1 ≤ p.w) && decide (1 ≤ p.cin) && decide (1 ≤ p.ow) && decide (1 ≤ p.kh) &&
        decide (1 ≤ p.kw) && decide (1 ≤ p.sh) && decide (1 ≤ p.sw) && decide (1 ≤ p.dh) && decide (1 ≤ p.dw) &&
        decide (p.k0 + p.cells ≤ p.kh * p.kw * p.cin) && decide (fieldAt bs 26 2 = 0)
    else decide (fieldAt bs 8 24 = 0)
  !(general && rest)

/-- The slots of a job are mapped and valid, of one form, and integer exactly when the tile is (R226 check 6). -/
def Chip.slotsFit (c : Chip) (p : CldJob) (int32 : Bool) : Bool :=
  let cl := c.cluster c.tid.cluster
  let first := cl.slot p.slot.toNat
  let sparse := decide (p.form = 2)
  (List.range (p.slots first.pattern)).all fun i =>
    let n := p.slot.toNat + i
    let s := cl.slot n
    decide (n < 8) && c.slotMapped n && s.valid && decide (s.isInt = int32) &&
      (if sparse then s.pattern.isSome && decide (s.pattern = first.pattern) else s.pattern.isNone)

/-- The 32 bytes of a shape record, read once after steps 3 to 5 of R120 as a read (R226); held is a wait that the window
covers. -/
def Chip.readShape (g : Mgmt) (c : Chip) (w : Issuer) (earlier : List Pending) (a : Dword) : Got (List Byte) :=
  match c.reach g w.who .read false a 32 with
  | (.fails cause, c) => (.error (.stop cause a (accessInfo .read 0)), c)
  | (.absent page, c) => (.error (.absent page a (accessInfo .read 0)), c)
  | (.zeroing _ _ _ _, c) => (.error .held, c)
  | (.den _, c) => (.ok (List.replicate 32 0), c)
  | (.away m, c) =>
    match c.remoteAnswer with
    | (.cause cause, c) => (.error (.stop cause a (remoteInfo .read 0 m cause)), c)
    | (.none, c) => let (t, c) := c.unanswered .read a m; (.error t, c)
    | (.value _, c) => let (bs, c) := Chip.freeBytes 4 c; (.ok bs, c)
  | (.ok sp _, c) =>
    if c.anyPoison sp.key 32 then
      (.error (.stop Cause.memPoison (a + BitVec.ofNat 64 (c.firstPoison sp.key 32)) (accessInfo .read 0)), c)
    else if behind g w earlier (.vload a 0xFF) then (.error .held, c)
    else let (bs, c) := c.readBytes w.who.agent sp 32; (.ok bs, c)

/-- The job of a cld with its shape record at a and its base b, once what it stands behind is done (R226). acc is what its window
covers. -/
def Chip.tryCld (g : Mgmt) (c : Chip) (w : Issuer) (earlier : List Pending) (acc : Access) (form : BitVec 2) (fold ord : Bool)
    (slot : BitVec 3) (tile : BitVec 2) (b a : Dword) (lwin : List Dword) : Tries :=
  match c.myTile tile with
  | none => .next (.stop Cause.tileState 0 0, c)
  | some x =>
    if !x.v then .next (.stop Cause.tileState 0 0, c)
    else if !alignedTo a 32 then .next (.stop Cause.misalign a 32, c)
    else if !alignedTo b 64 then .next (.stop Cause.misalign b 64, c)
    else
      match c.readShape g w earlier a with
      | (.error t, c) => .next (t.covered acc, c)
      | (.ok bs, c) =>
        let p := shapeOf form fold ord slot tile b bs
        if badShape p bs then .next (.stop Cause.shapeArg a 0, c)
        else if !c.slotsFit p x.t then .next (.stop Cause.resState 0 0, c)
        else if jobWaits g c.tid earlier (.cld p) then .next (.waits acc [], c)
        else
          match c.issueJob g (.cld p) false false false 0 lwin with
          | .next (.held, c) => .next (.held, c)
          | .next (t, c) => .next (t, c.settleTiles x.task)
          | .fault e => .fault e
          | .refused e => .refused e

/-- cld (R226). -/
def execCld (la : BitVec 4) (form : BitVec 2) (fold ord : Bool) (slot : BitVec 3) (acc : BitVec 2) (xd xb xs : Reg)
    (s : State) : Host.Outcome State Fault Refusal :=
  s.run fun g c =>
    let i : Instr := .cld la form fold ord slot acc xd xb xs
    let v := [c.t.getX xb, c.t.getX xs] ++ c.t.csr.lwin
    let late : Access := .late i v
    Chip.composite g la (.x xd) 0 late
      (if behindLate c.t.pend i then .next (.waits late [], c)
        else c.tryCld g c.issuer c.t.pend late form fold ord slot acc (c.t.getX xb) (c.t.getX xs) c.t.csr.lwin)

end Sys2Proof.Machine
end

