-- ==== Sys2Proof/Machine/Owl.lean ====
section
/-! DEFINITION. The Owl monitor units (R350): their registers, their samples, and the pseudo-channels' counters (R65). -/

namespace Sys2Proof.Machine

/-! ## A unit's registers -/

/-- A unit's capture cleared (R350). -/
def Owl.clear (o : Owl) : Owl := { o with min := 0xFFFFFFFF, max := 0, cnt := 0, bins := List.replicate 32 0 }
/-- A unit at reset (R350, log 1). -/
def Owl.fresh (u : OwlUnit) : Owl := (⟨u, 0, 0, 0, 0, 0, []⟩ : Owl).clear
def Chip.owl (c : Chip) (u : OwlUnit) : Owl := (c.owls.find? fun o => decide (o.unit = u)).getD (Owl.fresh u)
def Chip.setOwl (c : Chip) (o : Owl) : Chip := { c with owls := o :: c.owls.filter fun p => decide (p.unit ≠ o.unit) }

def Owl.en (o : Owl) : Bool := o.ctl.getLsbD 0
def Owl.src (o : Owl) : Nat := (o.ctl.extractLsb' 8 8).toNat
def Owl.per (o : Owl) : Nat := (o.ctl.extractLsb' 40 24).toNat

/-- The greatest source of a kind of unit (R350); source 0 is a latency, the others are levels. -/
def lastSource : OwlUnit → Nat
  | .cluster _ => 3
  | .channel _ _ => 5
  | .port _ => 3

/-- OWLCTL written at a time: PER, SRC and EN are kept, and a sampling period begins; CLR clears the capture and reads 0
(R350). -/
def Owl.control (o : Owl) (now v : Dword) : Owl :=
  let o := { o with ctl := v &&& 0xFFFFFF000000FF01, since := now }
  if v.getLsbD 1 then o.clear else o

/-! ## Samples -/

/-- A count one higher, saturating (R350). -/
def bump {n : Nat} (v : BitVec n) : BitVec n := if v = BitVec.allOnes n then v else v + 1
/-- The bin of a sample (R350). -/
def binOf (v : Word) : Nat := if v = 0 then 0 else min (Nat.log2 v.toNat + 1) 31

/-- A sample captured (R350). -/
def Owl.capture (o : Owl) (v : Word) : Owl :=
  { o with
    cnt := bump o.cnt
    min := if v.ult o.min then v else o.min
    max := if o.max.ult v then v else o.max
    bins := o.bins.set (binOf v) (bump (o.bins.getD (binOf v) 0)) }

/-- A latency sample of a unit that captures latencies: a time, which the manual leaves open (R1, R350). -/
def Chip.owlLatency (c : Chip) (u : OwlUnit) : Chip :=
  if c.owls.isEmpty then c
  else
    let o := c.owl u
    if o.en && decide (o.src = 0) then
      let (v, c) := c.free
      c.setOwl (o.capture (v.extractLsb' 0 32))
    else c

/-- A unit whose latencies the model's own events do not show: a pseudo-channel's, or that of a port other than the host's. -/
def unseenUnit : OwlUnit → Bool
  | .cluster _ => false
  | .channel _ _ => true
  | .port n => decide (2 ≤ n)

/-- Latency samples of pseudo-channels, fabric ports and flash ports: which requests reach a unit, and when, is left open
(R64, R65), so each that captures latencies may take one at a step (R350, log 49). -/
def Chip.owlUnseen (c : Chip) : Chip :=
  c.owls.foldl (fun (c : Chip) o =>
    if unseenUnit o.unit && o.en && decide (o.src = 0) then
      let (i, c) := c.draw 2
      if i = 0 then c else c.owlLatency o.unit
    else c) c

/-- The level that a unit's source names, where the state gives it (R350); none for rates of the stacks and ports. -/
def Chip.owlLevel (c : Chip) (u : OwlUnit) (src : Nat) : Option Nat :=
  match u, src with
  | .cluster k, 1 => some (c.jobs.filter fun j => decide (j.cluster = k)).length
  | .cluster k, 2 => some (c.threads.filter fun e => decide (e.1.cluster = k) && decide (e.2.run = .ready)).length
  | .cluster k, 3 => some (c.saved.filter fun s => decide (s.cluster = k) &&
      (match s.resume with | .ready => true | .yielded _ => true | _ => false)).length
  | _, _ => none

/-- A unit's sampling period has passed (R350). -/
def Owl.due (o : Owl) (now : Dword) : Bool := o.en && decide (o.per ≠ 0) && decide (o.per ≤ (now - o.since).toNat)

/-- OWL_LEVEL_SAMPLE: an enabled unit whose source is a level captures it, every PER ticks (R350). -/
def execOwlLevelSample (u : OwlUnit) (s : State) : Host.Outcome State Fault Refusal :=
  s.run fun _ c =>
    let o := c.owl u
    if o.due c.timebase && decide (1 ≤ o.src) && decide (o.src ≤ lastSource u) then
      let o := { o with since := o.since + BitVec.ofNat 64 o.per }
      match c.owlLevel u o.src with
      | some n => .next (c.setOwl (o.capture (BitVec.ofNat 32 n)))
      | none =>
        let (v, c) := c.free
        .next (c.setOwl (o.capture (v.extractLsb' 0 32)))
    else .next c

/-- OWL_CLEAR: writing CLR resets a unit's capture (R350). -/
def execOwlClear (u : OwlUnit) (s : State) : Host.Outcome State Fault Refusal :=
  s.run fun _ c => .next (c.setOwl (c.owl u).clear)

/-! ## The counters of a pseudo-channel (R65) -/

/-- The counters CHHIT, CHCONF, CHEMPTY and CHMISP as they stood last. -/
def Chip.channelCounts (c : Chip) (stack channel : Nat) : List (BitVec 48) :=
  match c.channels.find? fun e => decide (e.1 = stack) && decide (e.2.1 = channel) with
  | some e => e.2.2
  | none => [0, 0, 0, 0]
def Chip.setChannelCounts (c : Chip) (stack channel : Nat) (l : List (BitVec 48)) : Chip :=
  { c with channels := (stack, channel, l) :: c.channels.filter fun e => !(decide (e.1 = stack) && decide (e.2.1 = channel)) }

/-- A counter read: it has gone on by an amount that the manual leaves open (R65). -/
def Chip.readCount (c : Chip) (stack channel i : Nat) : Dword × Chip :=
  let l := c.channelCounts stack channel
  let (v, c) := c.free
  let n := l.getD i 0 + v.extractLsb' 0 48
  (n.setWidth 64, c.setChannelCounts stack channel (l.set i n))

end Sys2Proof.Machine
end

