-- ==== Sys2Proof/Machine/Contract.lean ====
section
/-! DEFINITION. The jobs of the Arrival Array: their requests, the arithmetic of each cell, their stops and their ends
(R223 to R236, R317). -/

namespace Sys2Proof.Machine

/-! ## Requests (R223, R224) -/

/-- Cells that a job requests. -/
def CldJob.count (p : CldJob) : Nat := p.rows * p.cells

/-- The address of request j; none for a pad cell (R223). -/
def CldJob.address (p : CldJob) (j : Nat) : Option Dword :=
  let m := j / p.cells
  let kk := j % p.cells
  if p.form = 1 then
    let px := p.stride.toNat + m
    let oy := px / p.ow
    let ox := px % p.ow
    let t := p.k0 + kk
    let ci := t % p.cin
    let kx := t / p.cin % p.kw
    let ky := t / (p.cin * p.kw)
    let iy : Int := (oy * p.sh + ky * p.dh : Nat) - (p.pt : Int)
    let ix : Int := (ox * p.sw + kx * p.dw : Nat) - (p.pl : Int)
    if 0 ≤ iy && iy < p.h && 0 ≤ ix && ix < p.w then
      some (p.base + BitVec.ofNat 64 (64 * ((iy.toNat * p.w + ix.toNat) * p.cin + ci)))
    else none
  else some (p.base + BitVec.ofNat 64 (64 * (m * p.stride.toNat + kk)))

/-- The accumulator row of request j (R224). -/
def CldJob.row (p : CldJob) (j : Nat) : Nat := if p.fold then j / p.cells % p.foldMod else j / p.cells

/-- One streamed element: its logical index in the resident rows of a slot, its value, and whether poison zeroed it. -/
structure Streamed where
  slot : Nat
  row : Nat
  value : Value
  zeroed : Bool

/-- A value replaced by zero. -/
def zeroWhere (b : Bool) (v : Value) : Value := if b then .zero false else v

/-- The words, by number, of n bytes from byte i of a cell, of which some is poisoned. -/
def badBytes (bad : List Nat) (i n : Nat) : Bool := bad.any fun w => decide (w * 4 < i + n) && decide (i < w * 4 + 4)

/-- The streamed elements of a cell against its slots; none is a format fault (R100, R224, R225, R235). bad lists the
poisoned words of a slice cell (R236); roots that a soft error damaged read as zero (R317). -/
def streamCell (p : CldJob) (cl : Cluster) (int32 : Bool) (kk : Nat) (cell : List Byte) (bad : List Nat) :
    Option (List Streamed) :=
  let fmt := byteAt cell 0
  let scale := byteAt cell 1
  let base := p.slot.toNat
  let at_ (n : Nat) : Slot := cl.slot n
  let dense (f : Format) (slot first : Nat) : List Streamed :=
    (List.range f.count).map fun i =>
      let z := badBytes bad (elementByte f i) (max 1 (f.width / 8))
      ⟨slot, first + i, zeroWhere z (cellValue f cell i), z⟩
  if p.form = 3 then
    let s := at_ (base + kk)
    let bits := if bad.contains 1 then cellBitmap cell &&& 0xFFFF else cellBitmap cell
    let packed := decide (29 < popcount bits 32) || bits.getLsbD 31
    let kept := (List.range 32).filter fun q => bits.getLsbD q
    if fmt = 0x50 && (s.fmt = 0x11 || s.fmt = 0x12) && !packed && !int32 then
      some (kept.map fun q =>
        let z := badBytes bad (6 + 2 * bitsBelow bits q) 2
        ⟨base + kk, q, zeroWhere z (bm16Value cell q), z⟩)
    else if fmt = 0x51 && (s.fmt = 0x20 || s.fmt = 0x21) && !packed && !int32 then
      some ((kept.map fun q => [2 * q, 2 * q + 1].map fun e =>
        let z := badBytes bad (6 + 2 * bitsBelow bits q + e % 2) 1
        (⟨base + kk, e, zeroWhere z (bm8Value cell e), z⟩ : Streamed)).flatten)
    else none
  else if fmt = 0x40 then
    let lo := base + 2 * kk
    let fits (n : Nat) : Bool :=
      decide (n < 8) && (at_ n).valid && (at_ n).pattern.isNone && decide ((at_ n).fmt = 0x30)
    if (p.form = 0 || p.form = 1) && fits lo && fits (lo + 1) && !int32 then
      some ((List.range 248).map fun i =>
        let root := byteAt cell (3 + 2 * (i / 8))
        let z := badBytes bad (2 + 2 * (i / 8)) 2 || cl.badRoots.contains root
        ⟨lo + i / 124, i % 124, zeroWhere z (latValue cl.codebook cell i), z⟩)
    else none
  else
    match formatOfCell fmt with
    | none => none
    | some f =>
      let first := at_ base
      let ratio := match p.form, first.pattern with
        | 2#2, some (n, m, _) => m / n
        | _, _ => 1
      let slot := base + kk / ratio
      let s := at_ slot
      let agrees :=
        match f with
        | .bf16 => !int32 && (s.fmt = 0x11 || s.fmt = 0x12)
        | .fp16 => !int32 && (s.fmt = 0x11 || s.fmt = 0x12)
        | .e4m3 => !int32 && (s.fmt = 0x20 || s.fmt = 0x21)
        | .e5m2 => !int32 && (s.fmt = 0x20 || s.fmt = 0x21)
        | .e2m1 => !int32 && s.fmt = 0x30
        | .int8 => int32 && s.fmt = 0x22 && scale = 0x7F
        | .int4 => int32 && s.fmt = 0x31 && scale = 0x7F
        | _ => false
      if agrees then some (dense f slot (kk % ratio * f.count)) else none

/-- The elements of a pad cell (R223). -/
def padCell (p : CldJob) (cl : Cluster) (int32 : Bool) (kk : Nat) : List Streamed :=
  let slot := p.slot.toNat + kk
  let v := decodeElement (if int32 then .int32 else .fp32) p.padv.toNat
  (List.range (cl.slot slot).count).map fun i => ⟨slot, i, v, false⟩

/-- The element of a column that a resident row takes; none where the row is absent (R224, R237). -/
def Slot.element (s : Slot) (k : SlotColumn) (row : Nat) : Option Nat :=
  match s.pattern with
  | none => if row < s.count then some row else none
  | some p =>
    let v := p.2.2
    if sparseRows p s.count ≤ row then none
    else if k.bitmap.getLsbD (row / v) then some (popcount k.bitmap (row / v) * v + row % v) else none

/-- An element of a column is read from a damaged word; where word 0, with FMT and SCALE, is damaged every one is (R317,
log 63). -/
def Slot.hurt (s : Slot) (k : SlotColumn) (i : Nat) : Bool :=
  k.damaged.contains 0 || (match formatOfCell s.fmt with
    | some f => badBytes k.damaged (elementByte f i) (max 1 (f.width / 8))
    | none => false)

/-- Column n of a slot. -/
def Slot.column (s : Slot) (n : Nat) : SlotColumn := s.columns.getD n ⟨[], 0, []⟩

/-- Resident row ℓ of column n of a slot: its value, or absent (R224, R237); what is read from a damaged word is +0 (R317). -/
def Slot.resident (s : Slot) (n row : Nat) : Option Value :=
  let k := s.column n
  (s.element k row).map fun i =>
    if s.hurt k i then .zero false
    else match formatOfCell s.fmt with
      | some f => cellValue f k.cell i
      | none => .zero false

/-! ## Per-cell arithmetic (R228, R229) -/

/-- floor(|p| as a power of two) of a finite non-zero value. -/
def Value.top : Value → Int
  | .fin _ n e => e + bitLength n - 1
  | _ => 0

/-- floor(p / 2^q) of a finite value. -/
def Value.floorAt (q : Int) : Value → Int
  | .fin neg n e =>
    if q ≤ e then (if neg then -((n * 2 ^ (e - q).toNat : Nat) : Int) else (n * 2 ^ (e - q).toNat : Nat))
    else
      let d := 2 ^ (q - e).toNat
      if neg then -(((n + d - 1) / d : Nat) : Int) else ((n / d : Nat) : Int)
  | _ => 0

/-- A finite value is zero. -/
def Value.isZero : Value → Bool
  | .fin _ n _ => decide (n = 0)
  | _ => false

/-- The partial of a cell in a column (R228). -/
def partialSum (products : List Value) : Option Value :=
  let infs := products.filterMap fun p => match p with | .inf s => some s | _ => none
  if products.contains .nan || (infs.contains true && infs.contains false) then some .nan
  else match infs with
    | s :: _ => some (.inf s)
    | [] =>
      let nz := products.filter fun p => !p.isZero
      match nz with
      | [] => none
      | x :: rest =>
        let q := (rest.foldl (fun m p => max m p.top) x.top) - 79
        let sum := nz.foldl (fun (acc : Int) p => acc + p.floorAt q) 0
        some (.fin (decide (sum < 0)) sum.natAbs q)

/-- A partial added to an element of an FP32 tile (R228). -/
def addPartial (old : Word) (part : Option Value) : Word :=
  match part with
  | none => old
  | some s =>
    match addValues .rne (decodeElement .fp32 old.toNat) s with
    | (v, _) => if v.isZero then 0 else BitVec.ofNat 32 (cvt v .fp32 .rne false false).bits

/-- A whole number as an integer. -/
def Value.whole : Value → Int
  | .fin neg n e => if neg then -((n * 2 ^ e.toNat : Nat) : Int) else ((n * 2 ^ e.toNat : Nat) : Int)
  | _ => 0

/-- An exact sum added to an element of an INT32 tile, and whether ISAT clamped it (R229). -/
def addWhole (isat : Bool) (old : Word) (sum : Int) : Word × Bool :=
  let v := old.toInt + sum
  if isat then
    let k := clampInt v (-(2 ^ 31)) (2 ^ 31 - 1)
    (BitVec.ofInt 32 k, decide (k ≠ v))
  else (BitVec.ofInt 32 v, false)

/-- The products of a cell in column n (R227). -/
def columnProducts (cl : Cluster) (l : List Streamed) (n : Nat) : List Value :=
  l.filterMap fun e => ((cl.slot e.slot).resident n e.row).map fun b => (mulValues e.value b).1

/-- A cell added to a tile, all sixteen columns together (R227 to R229). -/
def Tile.addCell (x : Tile) (cl : Cluster) (isat : Bool) (r : Nat) (l : List Streamed) : Tile :=
  let rowOf := (List.range 16).map fun n =>
    let old := x.elems.getD (16 * r + n) 0
    let products := columnProducts cl l n
    if x.t then
      if products.isEmpty then (old, false)
      else addWhole isat old (products.foldl (fun (acc : Int) p => acc + p.whole) 0)
    else (addPartial old (partialSum products), false)
  { x with
    elems := (List.range 256).map fun i => if i / 16 = r then (rowOf.getD (i % 16) (0, false)).1 else x.elems.getD i 0
    isat := x.isat || rowOf.any Prod.snd }

/-! ## Reports of stopped jobs (R233, R298) -/

/-- Two deferred reports as one (R298): lost state first, then the lowest tile of those that need the handler, then the
lowest tile; the scheduler's report keeps the page of every stop (R352). -/
def mergeReports (old new : Report) : Report :=
  if old.cause = Cause.ctxPoison then
    if new.cause = Cause.ctxPoison then { old with info := old.info ||| new.info } else old
  else if new.cause = Cause.ctxPoison then new
  else if old.pages.isEmpty = new.pages.isEmpty then
    { (if new.tile < old.tile then new else old) with pages := old.pages ++ new.pages }
  else if old.pages.isEmpty then old else new

/-- A report held for a task, wherever it stands (R298). -/
def Chip.fileReport (c : Chip) (task : Nat) (r : Report) : Chip :=
  let put (o : Option Report) : Option Report := some (match o with | some k => mergeReports k r | none => r)
  match c.threadOf task with
  | some (tid, t) => c.setThread tid { t with report := put t.report }
  | none => { c with saved := c.saved.map fun (k : Saved) => if k.task.id = task then { k with report := put k.report } else k }

/-- The end of a task has begun with a halt: it never resumes (R310, log 21). -/
def Chip.haltedTask (c : Chip) (task : Nat) : Bool :=
  match c.threadOf task with
  | some (_, t) => t.handler.isSome && decide (t.run = .wait .taskEnd)
  | none => false

/-- FAULTINFO of a contracting-load stop (R295). -/
def loadStopInfo (j : Job) (request : Nat) (acc : BitVec 2) : Dword :=
  1#1 ++ 0#21 ++ acc ++ 0#2 ++ BitVec.ofNat 6 request ++ j.ident.extractLsb' 0 32

/-- A contracting load ends in a state; its tile's F follows (R221, R227). -/
def Chip.endLoad (g : Mgmt) (c : Chip) (j : Job) (state : JobState) : Out :=
  andThen (c.endJob g j state) fun c => .next (c.settleTiles j.task)

/-- A contracting load stops at a request (R233). -/
def Chip.stopLoad (g : Mgmt) (c : Chip) (j : Job) (p : CldJob) (request : Nat) (cause : Cause) (a : Dword)
    (pages : List Dword) : Out :=
  if c.haltedTask j.task then c.endLoad g j (.faulted cause)
  else
    let c := c.setJob { j with state := .stopped cause request a }
    .next (c.fileReport j.task ⟨cause, a, loadStopInfo j request p.acc, pages, p.acc.toNat⟩)

/-! ## The events -/

/-- The earlier contracting loads on a job's tile are over (R227). -/
def Chip.firstOnTile (c : Chip) (j : Job) (p : CldJob) : Bool :=
  (c.jobs.takeWhile fun x => !(decide (x.cluster = j.cluster) && decide (x.entry = j.entry))).all fun x =>
    !x.loads j.task p.acc

/-- CLD_JOB_START: the next contracting load on a tile starts adding (R227). -/
def execCldJobStart (k : CId) (entry : BitVec 5) (s : State) : Host.Outcome State Fault Refusal :=
  s.run fun _ c =>
    match c.jobAt k entry with
    | some j =>
      match j.kind with
      | .cld p =>
        match j.state, c.tile j.task p.acc.toNat with
        | .queued, some x =>
          if c.firstOnTile j p then .next ((c.setTile { x with cov := 0 }).setJob { j with state := .running }) else .next c
        | _, _ => .next c
      | _ => .next c
    | none => .next c

/-- What a request brought: a cell with its poisoned words, nothing because its cell is poisoned, a format fault, a stop
with its cause and the page that is absent, or a wait; with where in this module the cell stands. -/
inductive Brought where
  | cell (bytes : List Byte) (bad : List Nat) (phys : Option Dword)
  | poisoned (phys : Option Dword)
  | format
  | stop (cause : Cause) (pages : List Dword)
  | waits

/-- A cell of a job read once (R97, R98, R146, R236). A cell that two requests of a job name is read for each, for R223 gives a job
as many requests as it has; and a poisoned cell of a page with DESC = 0 is a format fault, before its poison is looked at: DESIGN
CHOICES (log 66). A cell of another module's heap is described or not (R98, R346). -/
def Chip.bringCell (g : Mgmt) (c : Chip) (j : Job) (a : Dword) : Brought × Chip :=
  match c.reachJob g j .read a 64 with
  | (.fails cause, c) => (.stop cause [], c)
  | (.absent page, c) => (.stop Cause.pageAbsent [page], c)
  | (.zeroing _ _ _ _, c) => (.waits, c)
  | (.den _, c) => (.format, c)
  | (.away _, c) =>
    match c.remoteAnswer with
    | (.cause cause, c) => if cause = Cause.memPoison then (.poisoned none, c) else (.stop cause [], c)
    | (.none, c) =>
      let (i, c) := c.draw 2
      (if i = 0 then .waits else .stop Cause.remoteFail [], c)
    | (.value _, c) =>
      let (bs, c) := Chip.freeBytes 8 c
      let (i, c) := c.draw (if a.getLsbD 51 then 1 else 2)
      (if i = 0 then .cell bs [] none else .format, c)
  | (.ok s e, c) =>
    if isSliceKey s.key then
      let (bs, c) := (List.range 16).foldl (fun (acc : List Byte × Chip) i =>
        let (w, v, c) := acc.2.readFrom (j.view.get (s.loc + 4 * i)) (s.loc + 4 * i) (s.key + 4 * i)
        (acc.1 ++ bytesOfWord w, c.noteAhead (.task j.task) v)) ([], c)
      let bad := (List.range 16).filter fun i => c.anyPoison (s.key + 4 * i) 4
      if bad.contains 0 then (.poisoned (some (keyPhys s.key)), c) else (.cell bs bad (some (keyPhys s.key)), c)
    else if !entryDesc e then (.format, c)
    else if c.anyPoison s.key 64 then (.poisoned (some (keyPhys s.key)), c)
    else
      let (bs, seen, c) := c.cellState j.view.get s
      (.cell bs [] (some (keyPhys s.key)), seen.foldl (fun (c : Chip) e => c.noteAhead (.task j.task) (some e.2)) c)

/-- A slot with its damaged words forgotten. -/
def Slot.sound (s : Slot) : Slot := { s with columns := s.columns.map fun k => { k with damaged := [] } }
/-- The cluster's slots as a job uses them, in one state throughout (R240): a slot that it does not name, the further one of a LAT8
pair, may have been loaded anew since the job's issue. -/
def Chip.loadCluster (c : Chip) (j : Job) : Cluster :=
  let cl := c.cluster j.cluster
  { cl with slots := ((List.range 8).map fun n =>
      let old := j.slots.getD n (cl.slot n)
      if (cl.slot n).sound = old.sound then cl.slot n else old) }

/-- The elements of a request's cell, K_c (R99): by the cell's FMT where it can be read, and by its slot otherwise, as for
a pad cell (R223) and a poisoned cell. -/
def cellElements (p : CldJob) (cl : Cluster) (kk : Nat) (cell : Option (List Byte)) : Nat :=
  let ratio := match p.form, (cl.slot p.slot.toNat).pattern with
    | 2#2, some (n, m, _) => m / n
    | _, _ => 1
  let count := (cl.slot (p.slot.toNat + kk / ratio)).count
  match cell.map (byteAt · 0) with
  | some 0x40#8 => 248
  | some 0x50#8 => 32
  | some 0x51#8 => 64
  | some fmt => match formatOfCell fmt with | some f => f.count | none => count
  | none => if p.form = 3 then (if 31 < count then 64 else 32) else count

/-- The number of a streamed element in its cell: its logical position in a bitmap-packed one (R224). -/
def Streamed.number (p : CldJob) (i : Nat) (e : Streamed) : Nat := if p.form = 3 then e.row else i

/-- The record of zeroed elements of a request, whose cell, where it stands, has `count` elements (R236, R316). -/
def operrRecord (j : Job) (p : CldJob) (request : Nat) (a : Dword) (phys : Option Dword) (count first last : Nat) : LogRecord :=
  { LogRecord.of logOperr with
    addr := a, phys := phys, job := j.ident
    detail := [BitVec.ofNat 32 (request / p.cells), BitVec.ofNat 32 (request % p.cells * count), BitVec.ofNat 32 first,
      BitVec.ofNat 32 last] }

/-- A request's cell is covered, with the tile after it; the job may be done (R227). The cluster's monitor may take a sample
(R350). -/
def Chip.coverCell (g : Mgmt) (c : Chip) (j : Job) (p : CldJob) (x : Tile) (request : Nat) : Out :=
  let c := c.owlLatency (.cluster j.cluster)
  let cov := x.cov ||| (1#64 <<< request)
  let c := c.setTile { x with cov := cov, d := true }
  if (List.range p.count).all fun i => cov.getLsbD i then c.endLoad g j .done else .next (c.setJob j)

/-- OPERR set on the tile and the job, with its record (R236). -/
def Chip.noteOperr (g : Mgmt) (c : Chip) (j : Job) (r : LogRecord) : Chip := c.log g j.cluster.die r

/-- A streamed element meets an element of a slot that is read from a damaged word (R317). -/
def Streamed.hurt (cl : Cluster) (e : Streamed) : Bool :=
  (cl.slot e.slot).columns.any fun k =>
    !k.damaged.isEmpty && match (cl.slot e.slot).element k e.row with
      | some i => (cl.slot e.slot).hurt k i
      | none => false
/-- A cell's elements meet one. -/
def meetsDamage (cl : Cluster) (l : List Streamed) : Bool := l.any (Streamed.hurt cl)

/-- The elements of a cell added, with OPERR and its record where a source was poisoned or an element of a slot damaged (R225, R227,
R236, R317). bad says that words of the slice cell were poisoned: where no element has a byte in them, the record's range of
zeroed elements is open. -/
def Chip.addElements (g : Mgmt) (c : Chip) (j : Job) (p : CldJob) (x : Tile) (request : Nat) (a : Dword) (phys : Option Dword)
    (count : Nat) (bad : Bool) (l : List Streamed) : Out :=
  let cl := c.loadCluster j
  let zeroed := (((List.range l.length).zip l).filter fun e => e.2.zeroed || e.2.hurt cl).map fun e => e.2.number p e.1
  let y := x.addCell cl p.isat (p.row request) l
  if zeroed.isEmpty && !bad then c.coverCell g j p y request
  else
    let (v, c) := if zeroed.isEmpty then c.free else (0, c)
    let first := zeroed.head?.getD (v.extractLsb' 32 32).toNat
    let last := zeroed.getLast?.getD (v.extractLsb' 0 32).toNat
    (c.noteOperr g j (operrRecord j p request a phys count first last)).coverCell g { j with operr := true } p
      { y with operr := true } request

/-- A request's cell arrives and is added (R225, R227, R235, R236). -/
def Chip.addRequest (g : Mgmt) (c : Chip) (j : Job) (p : CldJob) (x : Tile) (request : Nat) : Out :=
  let cl := c.loadCluster j
  let kk := request % p.cells
  match p.address request with
  | none => c.addElements g j p x request 0 none (cellElements p cl kk none) false (padCell p cl x.t kk)
  | some a =>
    match c.bringCell g j a with
    | (.waits, c) => .next c
    | (.stop cause pages, c) => c.stopLoad g j p request cause a pages
    | (.format, c) => c.endLoad g j (.faulted Cause.formatUnknown)
    | (.poisoned phys, c) =>
      let count := cellElements p cl kk none
      (c.noteOperr g j (operrRecord j p request a phys count 0 (count - 1))).coverCell g { j with operr := true } p
        { x with operr := true } request
    | (.cell bs bad phys, c) =>
      match streamCell p cl x.t kk bs bad with
      | none => c.endLoad g j (.faulted Cause.formatUnknown)
      | some l => c.addElements g j p x request a phys (cellElements p cl kk (some bs)) (!bad.isEmpty) l

/-- A later request of an ordered job meets its stop, or a cell that is a format fault, before the lower ones have been added
(R233, R235). Any other answer is held until then: the cell counts as read when it is added. -/
def Chip.probeRequest (g : Mgmt) (c : Chip) (j : Job) (p : CldJob) (x : Tile) (request : Nat) : Out :=
  match p.address request with
  | none => .next c
  | some a =>
    match c.bringCell g j a with
    | (.stop cause pages, c) => c.stopLoad g j p request cause a pages
    | (.format, c) => c.endLoad g j (.faulted Cause.formatUnknown)
    | (.cell bs bad _, c') =>
      if (streamCell p (c.loadCluster j) x.t (request % p.cells) bs bad).isNone then
        c'.endLoad g j (.faulted Cause.formatUnknown)
      else .next { c with draws := c'.draws, frees := c'.frees }
    | (_, c') => .next { c with draws := c'.draws, frees := c'.frees }

/-- CLD_CELL_ADD: one request of a running job that its coverage mask does not show is made, and its cell added; with
`.ord`, in ascending order (R227, R230). -/
def execCldCellAdd (k : CId) (entry : BitVec 5) (request : BitVec 6) (s : State) : Host.Outcome State Fault Refusal :=
  s.run fun g c =>
    match c.jobAt k entry with
    | some j =>
      match j.kind with
      | .cld p =>
        match c.tile j.task p.acc.toNat with
        | some x =>
          let r := request.toNat
          if decide (j.state ≠ .running) || decide (p.count ≤ r) || x.cov.getLsbD r then .next c
          else if !p.ord || (List.range r).all fun i => x.cov.getLsbD i then c.addRequest g j p x r
          else c.probeRequest g j p x r
        | none => .next c
      | _ => .next c
    | none => .next c

end Sys2Proof.Machine
end

