-- ==== Sys2Proof/Machine/Den.lean ====
section
/-! DEFINITION. Parked continuations and the Den (R318 to R336), with the moves of pages between tiers (R59, R60, R90). -/

namespace Sys2Proof.Machine

/-! ## Frames of the tiers (R60, R86; log 23) -/

/-- The number of the 2 MiB frame that a physical address lies in. -/
def frameOf (pa : Nat) : Nat := pa / 2 ^ 21

/-- Frames of a die that something names or that hold data: entries and pointers in its memory, its tables' root, its
shadow pool, clean copies, and what memory lists (log 23). -/
def Chip.framesBusy (c : Chip) (die : BitVec 3) : List Nat :=
  let d := c.die die
  let base := heapKey die 0
  let mine := c.mem.filter fun e => decide (base ≤ e.1) && decide (e.1 < base + 2 ^ 40)
  let dwords := (mine.map fun e => e.1 / 8 * 8).dedup
  (dwords.map fun k => frameOf (entryAddr (Mem.dword c.mem k))) ++ (mine.map fun e => frameOf (e.1 - base)) ++
    [frameOf (d.etroot.extractLsb' 13 27 ++ 0#13).toNat] ++ (d.shadowFrames ++ d.serving).map frameOf ++
    (c.tcopies.filter fun e => decide (e.1.extractLsb' 48 3 = die)).map fun e => frameOf e.2

/-- A number from a place on, of count many in a ring, that is not among those in use. -/
def pickFree (used : List Nat) (count start : Nat) : Nat → Option Nat
  | 0 => none
  | n + 1 => if used.contains (start % count) then pickFree used count (start + 1) n else some (start % count)

/-- A free HBM frame of a die, by its physical address. -/
def Chip.freeHbm (c : Chip) (die : BitVec 3) : Option Nat × Chip :=
  let used := c.framesBusy die
  let (s, c) := c.draw (frameOf hbmEnd)
  ((pickFree used (frameOf hbmEnd) s (used.length + 1)).map (· * 2 ^ 21), c)

/-- A free capacity-tier frame of a die, by its physical address. -/
def Chip.freeTier (c : Chip) (die : BitVec 3) : Option Nat × Chip :=
  let used := (c.framesBusy die).map (· - frameOf hbmEnd)
  let n := frameOf (tierEnd - hbmEnd)
  let (s, c) := c.draw n
  ((pickFree used n s (used.length + 1)).map fun f => hbmEnd + f * 2 ^ 21, c)

/-- A flash frame of a die that holds no current copy. The spec gives the flash tier no size (R23): the model draws among 2^19
frames for each die (DESIGN CHOICE, log 23). -/
def Chip.freeFlash (c : Chip) (die : BitVec 3) : Option Nat × Chip :=
  let used := ((c.flash ++ c.relics).filter fun e => decide (e.1.extractLsb' 48 3 = die)).map fun e => frameOf e.2
  let (s, c) := c.draw (2 ^ 19)
  ((pickFree used (2 ^ 19) s (used.length + 1)).map (· * 2 ^ 21), c)

/-- A page's bytes, full/empty bits and poison copied from one frame to another, by their keys (R60). -/
def Chip.copyFrame (c : Chip) (src dst : Nat) : Chip :=
  { c with
    mem := Mem.copy c.mem src dst (2 ^ 21)
    empties := keyCopy c.empties src dst (2 ^ 21)
    poison := keyCopy c.poison src dst (2 ^ 21) }

/-- A page entry with another frame and tier. -/
def moveEntry (frame : Nat) (tier : BitVec 2) (e : Dword) : Dword :=
  e.extractLsb' 52 12 ++ tier ++ e.extractLsb' 40 10 ++ BitVec.ofNat 32 (frame / 256) ++ e.extractLsb' 0 8

/-- The home die and the offset of a page named by its global address. -/
def pageDie (page : Dword) : BitVec 3 := page.extractLsb' 48 3
def pageOffset (page : Dword) : Nat := (page.extractLsb' 0 48).toNat / 2 ^ 21 * 2 ^ 21

/-- The entry of a page, as its home's table holds it now. -/
def Chip.pageEntry (c : Chip) (page : Dword) : Option Dword :=
  match walk c.mem (pageDie page) (c.die (pageDie page)).etroot (pageOffset page) false with
  | .leaf e _ => some e
  | .fails _ => none

/-- The Den moves a page to an HBM frame, in one step: from the capacity tier, whose frame stays as a clean copy, or from
the flash tier through a capacity-tier frame (R60, R327, R328). False where a frame is wanting (R335). -/
def Chip.promote (c : Chip) (page e : Dword) : Bool × Chip :=
  let die := pageDie page
  let off := pageOffset page
  let place (c : Chip) (src tier hbm : Nat) : Chip :=
    let c := (c.copyFrame src (heapKey die hbm)).moveSpots src (heapKey die hbm) (2 ^ 21)
    let c := c.setEntry die off false (moveEntry hbm 0)
    let c := Chip.writeTstate { c with tcopies := tableSet c.tcopies page tier } (heapLoc die off) (heapKey die hbm) 4
    { c with mem := Mem.write c.mem (heapKey die tier + 18) [4] }
  match c.freeHbm die with
  | (none, c) => (false, c.denEvent die)
  | (some hbm, c) =>
    if entryTier e = 1 then (true, place c (heapKey die (entryAddr e)) (entryAddr e) hbm)
    else
      match c.freeTier die with
      | (none, c) => (false, c.denEvent die)
      | (some tier, c) =>
        match tableGet c.flash page with
        | none => (false, c.denEvent die)
        | some fa =>
          let c := c.copyFrame (flashKey die fa) (heapKey die tier)
          (true, place c (heapKey die tier) tier hbm)

/-! ## park (R329) -/

/-- Pages that the Den records for the module (R329, SK6400). -/
def denPages : Nat := 2 ^ 24
/-- The pages that an entry records. -/
def DenEntry.pages : DenEntry → List Dword
  | .pending _ _ => []
  | .parked k => k.pages
  | .woken k _ _ _ _ _ => k.pages
/-- Pages recorded now. -/
def Chip.recorded (c : Chip) : Nat := (c.den.map fun e => e.2.pages.length).sum

/-- A job that reads headers for the acting thread, after the headers it has read (R146, R329). -/
def Chip.walkJob (c : Chip) (headers : List KvHeader) : Job :=
  let t := c.t
  let a := c.agent t.agentId
  { cluster := c.tid.cluster, entry := 0, seq := 0, task := c.taskId, tid := c.tid, key := t.csr.ldkey, sup := t.sup,
    lwin := t.csr.lwin, kind := .kvwalk 0 0 0 0 0, state := .running, streamed := false, landed := 0, scattered := [],
    tainted := [], indices := [], known := [], view := (a.view.join a.reads).join c.reached, authorRel := a.lastRel, wrote := [], tied := none,
    bounds := none, missed := false, operr := false, plan := none, slots := [], pages := 0, inPage := 0, headers := headers }

/-- One header of a chain read and judged (R320, R329). -/
def Chip.parkHeader (g : Mgmt) (c : Chip) (link : Dword) (seen : List KvHeader) : Got KvHeader :=
  let j := c.walkJob seen
  let page := linkPage link
  match c.reachJob g j .read page 64 with
  | (.fails cause, c) => (.error (.stop cause page (accessInfo .read 0)), c)
  | (.absent _, c) => (.error .held, c)
  | (.zeroing _ _ _ _, c) => (.error .held, c)
  | (r, c) =>
    let poisoned := match r with | .ok s _ => c.anyPoison s.key 64 | _ => false
    let info (cause : Cause) : Dword := match r with
      | .away m => remoteInfo .read 0 m cause
      | _ => accessInfo .read 0
    if poisoned then (.error (.stop Cause.memPoison page (accessInfo .read 0)), c)
    else
      match c.readHeader g j link with
      | (.ok h, c) => (if h.bad then .error (.stop Cause.kvLink 0 0) else .ok h, c)
      | (.waits, c) => (.error .held, c)
      | (.fails cause, c) => (.error (.stop cause page (info cause)), c)

/-- The walk of a chain's headers: the headers, a stop, or a wait (R320, R329). -/
def Chip.walkChain (g : Mgmt) (room : Nat) : Nat → Dword → List KvHeader → Chip → Got (List KvHeader)
  | 0, _, _, c => (.error (.stop Cause.denFull 0 0), c)
  | n + 1, link, seen, c =>
    if link = 0 then (.ok seen, c)
    else if badLink link then (.error (.stop Cause.kvLink 0 0), c)
    else if room ≤ seen.length then (.error (.stop Cause.denFull 0 0), c)
    else
      match c.parkHeader g link seen with
      | (.ok h, c) => Chip.walkChain g room n h.next (seen ++ [h]) c
      | (.error t, c) => (.error t, c)

/-- Where the last pending entry of a frame's bytes begins (R302). -/
def lastEntryAt (bs : List Byte) : Nat := 0x500 + 48 * (((frameDword bs 0).extractLsb' 11 5).toNat - 1)
/-- A parked frame: its last pending entry has RET = 0 (R329). -/
def unfilled (bs : List Byte) : List Byte :=
  let i := lastEntryAt bs + 9
  listPut bs i [byteAt bs i &&& 0xEF]
/-- A woken frame: its last pending entry has RET = 1 and the reply (R332). -/
def filled (bs : List Byte) (reply : Dword) : List Byte :=
  let i := lastEntryAt bs
  listPut (listPut bs (i + 9) [byteAt bs (i + 9) ||| 0x10]) (i + 16) (bytesOfDword reply)

/-- The idle time of a page starts, if none runs (R326, R329). -/
def startIdle (now : Nat) (l : List (Dword × Nat)) (page : Dword) : List (Dword × Nat) :=
  if (tableGet l page).isSome then l else l ++ [(page, now)]

/-- The pages of a chain in this module, by their canonical addresses. -/
def listedPages (g : Mgmt) (headers : List KvHeader) : List Dword :=
  headers.filterMap fun h => (homeHeap g (linkPage h.link)).map fun e => globalOf (heapLoc e.1 (e.2 / 2 ^ 21 * 2 ^ 21))

/-- The save of `park`: the instruction is behind the task, its own pending entry comes last, the tiles are given up, and
the frame's contents go to the Den (R329). -/
def Chip.parkTask (g : Mgmt) (c : Chip) (key : BitVec 20) (pages : List Dword) (xd : Reg) (task : Task) : Out :=
  let own : Pending := c.entry (.x xd) 0 none 0 .none 0 none 0
  let t := ({ c.t with pend := markPending (·.hasX xd) c.t.pend } : Thread).complete none (c.t.pc + 4) false
  let c := { c with t := { t with run := .ready } }.takeSnaps
  let c := { c with t := { c.t with pend := c.t.pend ++ [own] }, tiles := c.tiles.filter fun x => decide (x.task ≠ task.id) }
  match c.save g ⟨c.t.pc, 0, 0, 0, false, false, 2⟩ with
  | (none, c) => c.hold
  | (some f, c) =>
    let bs := unfilled f.bytes
    let saved := c.savedRecord c.t c.t.csr.lwin task bs f.kept .ready
    let c := c.returnFrame c.t.csr.tframe
    let fresh := (List.range task.tiles).map fun n =>
      { freshTile task.id c.tid.cluster n with spilled := true }
    .next { c with
      t := Thread.reset
      tiles := c.tiles ++ fresh
      den := tableSet c.den key (.parked ⟨saved, bs, xd, pages⟩)
      idle := pages.foldl (startIdle c.timebase.toNat) c.idle }

/-- A task owns a live job, or a tile whose contents `park` would lose (R329). -/
def Chip.parkBarred (c : Chip) (task : Nat) : Bool :=
  (c.jobs.any fun j => decide (j.task = task)) ||
    c.tiles.any fun x => decide (x.task = task) && (x.f || (x.v && x.d))

/-- park (R329): a reply that came before completes it at once; else the task is saved, with the accesses that still wait in its
windows (R48). Its release follows an earlier acquire (R280). -/
def execPark (xd xk xh : Reg) (s : State) : Host.Outcome State Fault Refusal :=
  s.run fun g c =>
    let k := c.t.getX xk
    let key : BitVec 20 := k.extractLsb' 0 20
    if c.t.handler.isSome || decide (2 ^ 20 ≤ k.toNat) then c.raise g Cause.parkState 0 0
    else
      match c.t.task with
      | none => c.raise g Cause.parkState 0 0
      | some task =>
        if c.parkBarred task.id then c.raise g Cause.parkState 0 0
        else if acquiring c.t.pend then c.hold
        else
          let room := denPages - c.recorded
          match c.walkChain g room (room + 1) (c.t.getX xh) [] with
          | (.error t, c) => c.triedStop g t
          | (.ok headers, c) =>
            match tableGet c.den key with
            | some (.pending reply rel) =>
              let c := { (c.releaseT 5).2 with den := tableErase c.den key }
              (c.acquireT 5 [rel]).putX g xd reply
            | none =>
              match c.stopWaits g with
              | some c => c.hold
              | none => (c.releaseT 5).2.parkTask g key (listedPages g headers) xd task
            | some _ => (c.releaseT 5).2.raise g Cause.parkState 0 0

/-! ## wake (R330, R331) -/

/-- wake of an entry with a reply (R331): it acts whether the window is enabled or not. Its release follows the thread's earlier
stores and acquires (R280). -/
def Chip.tryWake (g : Mgmt) (c : Chip) (w : Issuer) (earlier : List Pending) (k reply : Dword) : Tried × Chip :=
  if 2 ^ 20 ≤ k.toNat then (.stop Cause.parkState 0 0, c)
  else if unready earlier then (.held, c)
  else
    let (n, c) := c.releaseFor w earlier 5
    let (status, c) := c.wakeWrite g (k.extractLsb' 0 20) reply n
    (.x status, c)

/-- wake (R331). -/
def execWake (la : BitVec 4) (xd xk xr : Reg) (s : State) : Host.Outcome State Fault Refusal :=
  s.run fun g c =>
    let acc : Access := .late (.wake la xd xk xr) [c.t.getX xk, c.t.getX xr]
    let (t, c) := c.tryWake g c.issuer c.t.pend (c.t.getX xk) (c.t.getX xr)
    Chip.composite g la (.x xd) 0 acc (.next (t.covered acc, c))

/-! ## pflush (R336) -/

/-- A page of a flush translated as a read (R336): its canonical address, none where it is not of this module's memory. A page
in TIER 2 is no fault. -/
def Chip.flushPage (g : Mgmt) (c : Chip) (w : Issuer) (page : Dword) : Got (Option Dword) :=
  match c.reach g w.who .read false page 1 with
  | (.ok s _, c) => (.ok (some (pageOf s.loc)), c)
  | (.absent p, c') => (.ok (some p), c.unasked c')
  | (.fails cause, c) => (.error (.stop cause page (accessInfo .read 0)), c)
  | (.zeroing _ _ _ _, c) => (.error .held, c)
  | (.den _, c) => (.ok none, c)
  | (.away m, c) =>
    match c.remoteAnswer with
    | (.value _, c) => (.ok none, c)
    | (.cause cause, c) => (.error (.stop cause page (remoteInfo .read 0 m cause)), c)
    | (.none, c) => let (t, c) := c.unanswered .read page m; (.error t, c)

/-- A clean capacity-tier copy of a page in HBM that has none (R328, R336); none is made where no frame is free (log 24). -/
def Chip.copyToTier (c : Chip) (page : Dword) : Chip :=
  let die := pageDie page
  match c.pageEntry page with
  | none => c
  | some e =>
    if entryTier e ≠ 0 || (tableGet c.tcopies page).isSome then c
    else
      match c.freeTier die with
      | (none, c) => c
      | (some tier, c) =>
        let key := heapKey die (entryAddr e)
        let c := c.writeTstate (heapLoc die (pageOffset page)) key (Mem.get c.mem (key + 18) ||| 4)
        let c := c.copyFrame key (heapKey die tier)
        { c with tcopies := tableSet c.tcopies page tier }

/-- A flash copy of a page's contents, in its frame or a new one; false where no frame is free. -/
def Chip.copyToFlash (c : Chip) (page e : Dword) : Bool × Chip :=
  let die := pageDie page
  let put (fa : Nat) (c : Chip) : Bool × Chip :=
    let c := c.copyFrame (heapKey die (entryAddr e)) (flashKey die fa)
    (true, { c with flash := tableSet c.flash page fa })
  match tableGet c.flash page with
  | some fa => put fa c
  | none =>
    match c.freeFlash die with
    | (some fa, c) => put fa c
    | (none, c) => (false, c)

/-- The copy of one page by a flush (R336); false where the module has no flash tier for it. At level 2, where no flash frame is
free, no copy is made and the status stays 0: a DESIGN CHOICE (log 66), as at level 1 (log 24). -/
def Chip.flushCopy (c : Chip) (level : BitVec 2) (page : Dword) : Bool × Chip :=
  if level = 1 then (true, c.copyToTier page)
  else if (tableGet c.flash page).isSome then (true, c)
  else if !Config.flashTier then (false, c)
  else
    match c.pageEntry page with
    | some e => (true, (c.copyToFlash page e).2)
    | none => (true, c)

/-- The pages of a flush from one on, each translated and copied in its turn, with the status; the first that faults stops the
flush, and what it has copied stands (R336). -/
def Chip.flushPages (g : Mgmt) (w : Issuer) (level : BitVec 2) : Nat → Dword → Chip → Got Dword
  | 0, _, c => (.ok 0, c)
  | n + 1, page, c =>
    match c.flushPage g w page with
    | (.error t, c) => (.error t, c)
    | (.ok none, c) => Chip.flushPages g w level n (page + 2 ^ 21) c
    | (.ok (some p), c) =>
      match c.flushCopy level p with
      | (true, c) => Chip.flushPages g w level n (page + 2 ^ 21) c
      | (false, c) => (.ok 1, c)

/-- pflush of a range and level (R336). While a page of it must be zeroed it has taken no effect: what it copies it copies again.
Its release follows the thread's earlier stores and acquires (R280, R282). -/
def Chip.tryPflush (g : Mgmt) (c : Chip) (w : Issuer) (earlier : List Pending) (a b : Dword) : Tried × Chip :=
  let level := b.extractLsb' 62 2
  let count := (b.extractLsb' 0 20).toNat
  if !alignedTo a (2 ^ 21) || decide (a.extractLsb' 52 12 = 0) || a.getLsbD 51 then (.stop Cause.misalign a (2 ^ 21), c)
  else if decide (level = 0) || decide (level = 3) || decide (count = 0) || decide (b.extractLsb' 20 42 ≠ 0) then
    (.stop Cause.jobArg 0 0, c)
  else if unready earlier then (.held, c)
  else
    match (c.releaseFor w earlier 5).2.flushPages g w level count a with
    | (.error .held, c') => (.held, { c with promoting := c'.promoting, zeroing := c'.zeroing, draws := c'.draws })
    | (.error t, c) => (t, c)
    | (.ok status, c) => (.x status, c)

/-- pflush (R336). -/
def execPflush (la : BitVec 4) (xd xa xb : Reg) (s : State) : Host.Outcome State Fault Refusal :=
  s.run fun g c =>
    let acc : Access := .late (.pflush la xd xa xb) [c.t.getX xa, c.t.getX xb]
    let (t, c) := c.tryPflush g c.issuer c.t.pend (c.t.getX xa) (c.t.getX xb)
    Chip.composite g la (.x xd) 0 acc (.next (t.covered acc, c))

/-! ## Ageing and demotion (R326 to R328) -/

/-- A page that the Den ages, at its entry (R326). -/
def Chip.ages (c : Chip) (page e : Dword) : Bool :=
  (c.den.any fun d => match d.2 with | .parked k => k.pages.contains page | _ => false) &&
    entryAge e && !entryRepl e && !entryShadow e
/-- A page's idle time has reached a stage's time (R326): a tick is 1/100 microsecond (R340). -/
def Chip.idleFor (c : Chip) (page : Dword) (time : Word) : Bool :=
  decide (time ≠ 0) && (match tableGet c.idle page with
    | some start => decide (start + time.toNat * 100 ≤ c.timebase.toNat)
    | none => false)
/-- A page may move to the capacity tier now (R326). -/
def Chip.mayDemote (c : Chip) (page : Dword) : Bool :=
  match c.pageEntry page with
  | some e => c.ages page e && decide (entryTier e = 0) && c.idleFor page c.denT1
  | none => false
/-- A page may move to the flash tier now (R326); whether the module has one is asked last. -/
def Chip.mayDemoteFlash (c : Chip) (page : Dword) : Bool :=
  match c.pageEntry page with
  | some e => c.ages page e && decide (entryTier e ≠ 2) && c.idleFor page c.denT2 && Config.flashTier
  | none => false

/-- DEN_DEMOTE_TIER1: an idle page of a parked continuation moves from HBM to the capacity tier: to its clean copy, with
no transfer, or to a free frame (R326 to R328, R335). -/
def execDenDemoteTier1 (page : Dword) (s : State) : Host.Outcome State Fault Refusal :=
  s.run fun _ c =>
    if !c.mayDemote page then .next c
    else
      match c.pageEntry page with
      | none => .next c
      | some e =>
        let die := pageDie page
        let off := pageOffset page
        let move (c : Chip) (tier : Nat) : Chip :=
          let c := c.setEntry die off false (moveEntry tier 1)
          let c := c.moveSpots (heapKey die (entryAddr e)) (heapKey die tier) (2 ^ 21)
          Chip.writeTstate { c with tcopies := tableErase c.tcopies page } (heapLoc die off) (heapKey die tier) 1
        match tableGet c.tcopies page with
        | some tier => .next (move c tier)
        | none =>
          match c.freeTier die with
          | (none, c) => .next (c.denEvent die)
          | (some tier, c) => .next (move (c.copyFrame (heapKey die (entryAddr e)) (heapKey die tier)) tier)

/-- The first of n bytes at an address that lies in a page. -/
def inPage (g : Mgmt) (page a : Dword) (n : Nat) : Option Dword :=
  match homeHeap g a, homeHeap g page with
  | some (d, off), some (k, first) =>
    let l := heapLoc d off
    let p := heapLoc k first
    if l < p + 2 ^ 21 && p < l + n then some (a + BitVec.ofNat 64 (p - l)) else none
  | _, _ => none

/-- A part of a waiting access: the byte at which it fails, its kind and its lane, its pending entry where the thread has moved past
its instruction, and the access. -/
structure WaitingPart where
  a : Dword
  kind : Kind
  lane : BitVec 3
  late : Option Nat
  acc : Access

/-- The first part of a thread's waiting accesses that a test finds a failing byte in. -/
def Thread.firstWaiting (t : Thread) (test : Dword → Nat → Option Dword) : Option WaitingPart :=
  let said (acc : Access) (late : Option Nat) : Option WaitingPart :=
    acc.parts.findSome? fun p => (test p.1 p.2.1).map fun b => ⟨b, acc.kind, p.2.2, late, acc⟩
  let own := match t.run with | .wait (.access _ acc _ _ _ _) => said acc none | _ => none
  match own with
  | some x => some x
  | none => t.pend.findSome? fun (p : Pending) => p.access.bind fun acc => said acc (some p.id)

/-- A part that a module answers (R346). -/
def awayAt (g : Mgmt) (m : BitVec 12) (a : Dword) (_ : Nat) : Option Dword :=
  if classify g a = some (.remote m) then some a else none
/-- The modules that answer the parts of an access (R346). -/
def Access.away (g : Mgmt) (acc : Access) : List (BitVec 12) :=
  acc.parts.filterMap fun p => match classify g p.1 with
    | some (.remote m) => some m
    | _ => none

/-- The request of the instruction at a thread's program counter has been sent and cannot be withdrawn: members of its `mcst`
have been written, or another module is to answer it (R48, R135). -/
def Chip.sentOwn (g : Mgmt) (c : Chip) (tid : TId) : Bool :=
  match (c.thread tid).run with
  | .wait (.access _ (.mcst _ _ _ (some _) _ _) _ _ _ _) => true
  | .wait (.access _ acc _ _ _ _) => (acc.away g).any fun m => c.remotes.contains ⟨tid, m⟩
  | _ => false

/-- The instruction at a thread's program counter is a `vst` or `vstc` that has issued (R196). -/
def Chip.storingOwn (c : Chip) (tid : TId) : Bool :=
  match (c.thread tid).run with
  | .wait (.access _ acc _ _ _ _) => acc.lasting
  | _ => false

/-- A stop of a thread is put off: it runs a handler, the request of its instruction cannot be withdrawn, or a `vst` or `vstc` of
its has issued (R48, R196, R306). -/
def Chip.unstoppable (g : Mgmt) (c : Chip) (tid : TId) : Bool :=
  (c.thread tid).handler.isSome || c.sentOwn g tid || c.storingOwn tid || (c.thread tid).storing none

/-- A stop that a waiting access of the acting thread meets is put off: another `vst` or `vstc` has issued; or the access is of a
pending entry, and the thread's instruction cannot be withdrawn and does not itself wait for that access (R48, R196). -/
def Chip.putOff (g : Mgmt) (c : Chip) (late : Option Nat) (acc : Access) : Bool :=
  let waitsForIt := match c.t.run with
    | .wait (.access _ own _ _ _ _) => meetsBytes g c.tid own acc
    | _ => false
  c.t.storing late ||
    (late.isSome && c.t.handler.isNone && (c.sentOwn g c.tid || (c.storingOwn c.tid && !waitsForIt)))

/-- A waiting access of the acting thread is to be attempted anew. -/
def Thread.anew (t : Thread) (late : Option Nat) : Thread :=
  match late with
  | none => match t.run with
    | .wait (.access d a _ n w la) => { t with run := .wait (.access d a [] n w la) }
    | _ => t
  | some id => { t with pend := t.pend.map fun (p : Pending) => if p.id = id then { p with spots := [] } else p }

/-- A waiting access of the acting thread is withdrawn and stops its task with a cause: precisely, or as a stop that is reported late
where the thread has moved past its instruction (R48, R303). Where the stop is put off, the access meets its cause anew. -/
def Chip.withdrawWith (g : Mgmt) (c : Chip) (p : WaitingPart) (cause : Cause) (info : Dword) : Out :=
  if c.putOff g p.late p.acc then .next { c with t := c.t.anew p.late }
  else c.stopNow g c.t.stopPc cause p.a info p.late.isSome false

/-- Waiting accesses to a page that leaves for the flash tier are saved with their threads as accesses to an absent page
(R63). -/
def Chip.withdrawPage (g : Mgmt) (page : Dword) : List TId → Chip → Out
  | [], c => .next c
  | tid :: rest, c =>
    let t := c.thread tid
    match t.firstWaiting (inPage g page) with
    | none => Chip.withdrawPage g page rest c
    | some p =>
      if c.unstoppable g tid then Chip.withdrawPage g page rest c
      else
        let c := (c.focus tid).askPromotion page
        andThen (c.schedulerSave g c.t.stopPc Cause.pageAbsent p.a (accessInfo p.kind p.lane) p.late.isSome 2 (.page page))
          (Chip.withdrawPage g page rest)

/-- DEN_DEMOTE_FLASH: an idle page of a parked continuation moves to the flash tier, its TSTATE written first
(R326, R327). -/
def execDenDemoteFlash (page : Dword) (s : State) : Host.Outcome State Fault Refusal :=
  s.run fun g c =>
    if !c.mayDemoteFlash page then .next c
    else
      match c.pageEntry page with
      | none => .next c
      | some e =>
        let die := pageDie page
        let off := pageOffset page
        let moved := Chip.copyToFlash (c.writeTstate (heapLoc die off) (heapKey die (entryAddr e)) 2) page e
        match moved with
        | (false, _) => .next (c.denEvent die)
        | (true, c) =>
          let c := (c.setEntry die off false (moveEntry 0 2)).dropSpots (heapKey die (entryAddr e)) (2 ^ 21)
          let me := c.tid
          andThen (Chip.withdrawPage g page (c.threads.map (·.1)) { c with tcopies := tableErase c.tcopies page }) fun c =>
            .next (c.focus me)

/-! ## Wake writes of the host, and staged promotion (R330 to R335) -/

/-- WAKE_WRITE: an 8-byte write of the host to a wake slot, with its release at `.sy` (R330). -/
def execWakeWrite (key : BitVec 20) (reply : HostReply) (s : State) : Host.Outcome State Fault Refusal :=
  s.run fun g c =>
    if !g.denwin.getLsbD 0 then .next c
    else
      let (n, c) := c.release (.host reply.port) .outside 5
      .next (c.wakeWrite g key reply.value n).2

/-- The task of a woken entry whose stages 1 and 2 have ended is ready to resume, and the entry is FREE (R325, R332). -/
def Chip.freeEntry (c : Chip) (key : BitVec 20) : Chip :=
  match tableGet c.den key with
  | some (.woken k reply rel (some frame) [] _) =>
    let saved := { k.saved with frame := frame, image := filled k.frame reply, tokens := [rel], resume := .ready }
    { c with den := tableErase c.den key, saved := c.saved ++ [saved] }
  | _ => c

/-- DEN_STAGE1_FRAME: a woken continuation's contents go into a frame of its park cluster's die (R332, stage 1). -/
def execDenStage1Frame (key : BitVec 20) (s : State) : Host.Outcome State Fault Refusal :=
  s.run fun g c =>
    match tableGet c.den key with
    | some (.woken k reply rel none s2 s3) =>
      let die := k.saved.cluster.die
      let frames := c.framesFree die
      let (i, c) := c.draw frames.length
      match frames[i]? with
      | none => .next c
      | some f =>
        let d := c.die die
        let frame := d.fpbase + BitVec.ofNat 64 (2048 * f)
        match c.frameSpots g frame with
        | (.waits, c) => .next c
        | (home, c) =>
          let c := c.setDie die { c.die die with fptaken := f :: d.fptaken }
          let c := c.writeFrame (.task k.saved.task.id) home (filled k.frame reply)
          .next (Chip.freeEntry { c with den := tableSet c.den key (.woken k reply rel (some frame) s2 s3) } key)
    | _ => .next c

/-- A woken entry after a page of it is home: stage 3 begins when stage 2 ends, and outlives the entry (R332, R335). -/
def Chip.stageHome (page : Dword) (c : Chip) (key : BitVec 20) : Chip :=
  match tableGet c.den key with
  | some (.woken k reply rel frame s2 s3) =>
    if !s2.contains page then c
    else
      let left := s2.filter fun p => decide (p ≠ page)
      if !left.isEmpty then { c with den := tableSet c.den key (.woken k reply rel frame left s3) }
      else
        let die := k.saved.cluster.die
        let c := { c with den := tableSet c.den key (.woken k reply rel frame [] []) }
        let c := if s3.isEmpty then c.denEvent die else { c with stage3 := c.stage3 ++ [⟨die, s3⟩] }
        c.freeEntry key
  | _ => c

/-- A stage 3 after a page of it is home; its end is an event of its die (R335). -/
def Chip.stage3Home (page : Dword) (c : Chip) : List Stage3 → Chip
  | [] => { c with stage3 := [] }
  | x :: rest =>
    let c := Chip.stage3Home page c rest
    let left := x.pages.filter fun p => decide (p ≠ page)
    if left.isEmpty then c.denEvent x.die else { c with stage3 := { x with pages := left } :: c.stage3 }

/-- A page is home in TIER 0: it leaves the lists of every stage that has reached it and of the pages asked for (R332,
R333). Tasks saved for it become ready under R90. -/
def Chip.pageHome (c : Chip) (page : Dword) : Chip :=
  let c := Chip.stage3Home page c c.stage3
  let c := (c.den.map (·.1)).foldl (Chip.stageHome page) c
  { c with promoting := c.promoting.filter fun p => decide (p ≠ page) }

/-- A page's promotion is asked for: by an access or a walk, or by a stage that has begun (R90, R324, R332). -/
def Chip.promotes (c : Chip) (page : Dword) : Bool :=
  c.promoting.contains page || (c.stage3.any fun x => x.pages.contains page) ||
    c.den.any fun d => match d.2 with | .woken _ _ _ _ s2 _ => s2.contains page | _ => false

/-- What a saved task still waits for once a page is home (R90); a stop of several jobs waits until every page of theirs is home
together (R352). -/
def Resume.without (page : Dword) : Resume → Resume
  | .page p => if p = page then .ready else .page p
  | r => r
/-- Tasks saved for a page become ready (R90). -/
def Chip.readyFor (c : Chip) (page : Dword) : Chip :=
  { c with saved := c.saved.map fun (k : Saved) => { k with resume := k.resume.without page } }

/-- PAGE_PROMOTION_DONE: a page that is asked for reaches TIER 0 (R332); one that has no entry any more counts as done
(log 25). -/
def execPagePromotionDone (page : Dword) (s : State) : Host.Outcome State Fault Refusal :=
  s.run fun _ c =>
    if !c.promotes page then .next c
    else
      match c.pageEntry page with
      | none => .next ((c.pageHome page).readyFor page)
      | some e =>
        if entryTier e = 0 then .next ((c.pageHome page).readyFor page)
        else
          match c.promote page e with
          | (true, c) => .next ((c.pageHome page).readyFor page)
          | (false, c) => .next c

end Sys2Proof.Machine
end

