-- ==== Sys2Proof/Machine/Launch.lean ====
section
/-! DEFINITION. The events of the Launch Units and of the hardware scheduler: launches read, admitted, placed, pre-empting
and completed (R81, R248 to R252, R300, R343, R344), work taken by FREE threads (R255, R256, R258, R263), and the ends of
tasks (R118, R245). An event that is not due changes nothing (log 5). -/

namespace Sys2Proof.Machine

/-! ## Accesses of the hardware and of the outside world -/

/-- The place of a requester that is no thread: no core is there, so it has no local window and no regions. -/
def outsideTid : TId := ⟨200, 100, 0, 0⟩

/-- How bytes that a unit reads or writes fare: they came, they wait (R90, R92), or they meet a cause. -/
inductive UnitAccess (α : Type) where
  | ok (v : α)
  | waits
  | fails (cause : Cause)

/-- What another module has not answered to a unit: it waits still, or the path is lost (R346, log 10). -/
def Chip.unitUnanswered {α : Type} (c : Chip) : UnitAccess α × Chip :=
  let (i, c) := c.draw 2
  (if i = 0 then .waits else .fails Cause.remoteFail, c)

/-- n bytes within one cell read by a requester that is no thread, as its own loads (R68, R78, R81, R89). -/
def Chip.unitRead (g : Mgmt) (c : Chip) (who : Who) (a : Dword) (n : Nat) : UnitAccess (List Byte) × Chip :=
  match c.reach g who .read false a n with
  | (.fails cause, c) => (.fails cause, c)
  | (.absent _, c) => (.waits, c)
  | (.zeroing _ _ _ _, c) => (.waits, c)
  | (.den _, c) => (.ok (List.replicate n 0), c)
  | (.away _, c) =>
    match c.remoteAnswer with
    | (.value v, c) =>
      let (bs, c) := Chip.freeBytes ((n + 7) / 8 - 1) c
      (.ok ((bytesOfDword v ++ bs).take n), c)
    | (.cause cause, c) => (.fails cause, c)
    | (.none, c) => c.unitUnanswered
  | (.ok s _, c) =>
    if c.anyPoison s.key n then (.fails Cause.memPoison, c)
    else
      let (bs, c) := c.readBytes who.agent s n
      (.ok bs, c)

/-- The cause of steps 1 to 5 of R89 that the first of an access's pieces meets, each an address and a size: every piece is
checked before a page is waited for. -/
def Chip.unitFault (c : Chip) (g : Mgmt) (who : Who) (kind : Kind) : List (Dword × Nat) → Option Cause
  | [] => none
  | p :: rest =>
    match c.reach g who kind false p.1 p.2 with
    | (.fails cause, _) => some cause
    | _ => Chip.unitFault c g who kind rest

/-- Consecutive pieces of n bytes read by a unit, one by one. -/
def Chip.unitPieces (g : Mgmt) (who : Who) (n : Nat) : Nat → Dword → Chip → UnitAccess (List Byte) × Chip
  | 0, _, c => (.ok [], c)
  | k + 1, a, c =>
    match c.unitRead g who a n with
    | (.ok bs, c) =>
      match Chip.unitPieces g who n k (a + BitVec.ofNat 64 n) c with
      | (.ok rest, c) => (.ok (bs ++ rest), c)
      | other => other
    | (.waits, c) => (.waits, c)
    | (.fails cause, c) => (.fails cause, c)

/-- k consecutive pieces of n bytes read by a unit. -/
def Chip.unitReads (g : Mgmt) (who : Who) (n k : Nat) (a : Dword) (c : Chip) : UnitAccess (List Byte) × Chip :=
  match c.unitFault g who .read ((List.range k).map fun i => (a + BitVec.ofNat 64 (n * i), n)) with
  | some cause => (.fails cause, c)
  | none => Chip.unitPieces g who n k a c

/-- Bytes within one cell written by a requester that is no thread, with the release they carry (R276, R286). A write of
eight bytes to a wake slot is a wake write, and every other write to the Den window is discarded (R330). -/
def Chip.unitWrite (g : Mgmt) (c : Chip) (who : Who) (place : Place) (rel : Option Nat) (a : Dword) (bs : List Byte) :
    UnitAccess (Option Spot) × Chip :=
  match c.reach g who .write false a bs.length with
  | (.fails cause, c) => (.fails cause, c)
  | (.absent _, c) => (.waits, c)
  | (.zeroing _ _ _ _, c) => (.waits, c)
  | (.den off, c) =>
    if off % 64 = 0 && bs.length = 8 then
      let (n, c) := c.release who.agent place 5
      (.ok none, (c.wakeWrite g (BitVec.ofNat 20 (off / 64)) (BitVec.ofNat 64 (natOfBytes bs)) n).2)
    else (.ok none, c)
  | (.away _, c) =>
    match c.remoteAnswer with
    | (.value _, c) => (.ok none, c)
    | (.cause cause, c) => (.fails cause, c)
    | (.none, c) => c.unitUnanswered
  | (.ok s _, c) =>
    (.ok (some s), (c.writeBytes who.agent none true rel rel s bs).storeClears s.key bs.length)

/-- The Launch Unit of a die as a requester: a supervisor's accesses (R251). -/
def unitWho (die : BitVec 3) : Who := hardwareWho (.launchUnit die) outsideTid

/-- A launch token written by a die's Launch Unit as one 8-byte store that leaves both words full, released at `.sy`
(R251). -/
def Chip.storeToken (g : Mgmt) (c : Chip) (die : BitVec 3) (a token : Dword) : UnitAccess (Option Spot) × Chip :=
  match c.unitWrite g (unitWho die) (.unit die) (c.agent (.launchUnit die)).lastRel a (bytesOfDword token) with
  | (.ok (some s), c) =>
    let c := (c.setFull none s.loc s.key true).setFull none (s.loc + 4) (s.key + 4) true
    (.ok (some s), (c.release (.launchUnit die) (.unit die) 5).2)
  | other => other

/-! ## Descriptors (R248 to R250) -/

/-- The fields of a descriptor. -/
structure Descriptor where
  entry : Dword
  size : List Nat
  grid : List Nat
  threads : Nat
  tiles : Nat
  res : Nat
  steal : Nat
  slice : Nat
  hintR : Nat
  prio : Nat
  hintX : Nat
  hintY : Nat
  key : Nat
  token : Dword
  reserved : Nat
  rgn : List Dword

/-- A descriptor's fields from its 96 bytes (R248). -/
def Descriptor.ofBytes (bs : List Byte) : Descriptor where
  entry := frameDword bs 0
  size := [fieldAt bs 8 4, fieldAt bs 12 4, fieldAt bs 16 4, fieldAt bs 20 4]
  grid := [fieldAt bs 24 2, fieldAt bs 26 2, fieldAt bs 28 2, fieldAt bs 30 2]
  threads := fieldAt bs 32 1
  tiles := fieldAt bs 33 1
  res := fieldAt bs 34 1
  steal := fieldAt bs 35 1
  slice := fieldAt bs 36 2
  hintR := fieldAt bs 38 1
  prio := fieldAt bs 39 1
  hintX := fieldAt bs 40 2
  hintY := fieldAt bs 42 2
  key := fieldAt bs 44 2
  token := frameDword bs 48
  reserved := fieldAt bs 46 2 + fieldAt bs 56 8
  rgn := [frameDword bs 64, frameDword bs 72, frameDword bs 80, frameDword bs 88]

/-- TOKEN is 0 or an 8-aligned address with bit 51 = 0 (R250). -/
def Descriptor.tokenFits (d : Descriptor) : Bool := decide (d.token = 0) || (alignedTo d.token 8 && !d.token.getLsbD 51)

/-- The first check of R250: every field within its limits. -/
def Descriptor.argsFit (d : Descriptor) : Bool :=
  let noHint := decide (d.hintX = 0xFFFF) && decide (d.hintY = 0xFFFF)
  !d.entry.getLsbD 0 && d.size.all (fun n => decide (1 ≤ n)) && d.grid.all (fun n => decide (1 ≤ n)) &&
    decide (d.steal ≤ 2) && decide (d.slice % 64 = 0) && decide (d.prio ≤ 7) && d.tokenFits &&
    (noHint || (decide (d.hintX < Config.meshX) && decide (d.hintY < Config.meshY))) &&
    d.rgn.all (fun r => decide (r.extractLsb' 0 18 = 0)) && decide (d.reserved = 0) && decide (1 ≤ d.threads)

/-- The second check of R250: what a core and a cluster hold. -/
def Descriptor.resourcesFit (d : Descriptor) : Bool :=
  decide (d.threads ≤ 16) && decide (d.tiles ≤ 4) && decide (d.res ≤ 8) && decide (d.threads * d.tiles ≤ 32) &&
    decide (d.threads * d.slice ≤ 61440)

/-- The cause that rejects a descriptor, if one does (R250). -/
def Descriptor.rejection (d : Descriptor) : Option Cause :=
  if !d.argsFit then some Cause.launchArg else if !d.resourcesFit then some Cause.launchResource else none

/-- The tile size of a dimension: ceil(S / G), rounded up to a power of two (R249). -/
def tileSize (s g : Nat) : Nat :=
  let n := (s + g - 1) / g
  if n ≤ 1 then 1 else 2 ^ (Nat.log2 (n - 1) + 1)
/-- The tiles of a dimension (R249). -/
def tileCount (s g : Nat) : Nat := (s + tileSize s g - 1) / tileSize s g
/-- The tiles of a launch in each dimension. -/
def Launch.counts (l : Launch) : List Nat := (l.size.zip l.grid).map fun e => tileCount e.1 e.2
/-- The tasks of a launch's grid. -/
def Launch.tasks (l : Launch) : Nat := l.counts.foldl (· * ·) 1
/-- The coordinates of a tile by its number, dimension 0 fastest. -/
def tileCoords : List Nat → Nat → List Nat
  | [], _ => []
  | n :: rest, i => i % n :: tileCoords rest (i / n)

/-- The item that starts a tile's task: its identity is that of R180. -/
def Launch.item (l : Launch) (id tile : Nat) : Item :=
  let at_ := tileCoords l.counts tile
  let dims := (l.size.zip l.grid).zip at_
  let w (n : Nat) : Word := BitVec.ofNat 32 n
  let org (e : (Nat × Nat) × Nat) : Nat := e.2 * tileSize e.1.1 e.1.2
  ⟨id, l.entry, [], l.tiles, l.res, l.slice, 0, none, l.id, at_.map w, dims.map fun e => w (org e),
    dims.map fun e => w (min (tileSize e.1.1 e.1.2) (e.1.1 - org e)), l.key, l.rgn, l.tokens.getLast?.toList⟩

/-! ## Reading a queue (R81, R250, R344) -/

/-- The slice keys that launches and the blocks of slices hold. Key 0 is that of a free block and of a rejected launch: no key
(R81). -/
def Chip.heldKeys (c : Chip) : List (BitVec 16) :=
  (c.launches.map Launch.key ++ (c.cores.map fun e => e.2.keys).flatten).filter fun k => decide (k ≠ 0)

/-- A slice key that no launch of the module holds (R81). -/
def Chip.chooseKey (c : Chip) : BitVec 16 × Chip :=
  let used := c.heldKeys.map fun k => k.toNat - 1
  let (s, c) := c.draw 65535
  (BitVec.ofNat 16 ((pickFree used 65535 s 65535).getD s + 1), c)

/-- A launch admitted or rejected, with the release of its descriptor's read at `.sy` (R250, R257, R283). -/
def Chip.addLaunch (c : Chip) (die : BitVec 3) (queue : BitVec 2) (desc : Dword) (d : Descriptor) (cause : Option Cause) :
    Chip :=
  let (rel, c) := c.release (.launchUnit die) (.unit die) 5
  let (key, c) := match cause with
    | some _ => ((0 : BitVec 16), c)
    | none => if d.key = 0 then c.chooseKey else (BitVec.ofNat 16 d.key, c)
  let n := c.nextTask
  let hint := if d.hintX = 0xFFFF then none else some (d.hintX, d.hintY, d.hintR)
  let l : Launch := ⟨n, die, queue, desc, d.entry, d.size, d.grid, d.threads, d.tiles, d.res, d.steal, d.slice, d.prio, hint,
    key, d.token, d.rgn, cause, [], [rel], cause.isSome⟩
  { c with launches := c.launches ++ [l], nextTask := n + 1 }

/-- A launch queue's registers. -/
def Die.queue (d : Die) (q : BitVec 2) : LaunchQueue := d.queues.getD q.toNat LaunchQueue.reset
def Chip.setQueue (c : Chip) (die : BitVec 3) (q : BitVec 2) (v : LaunchQueue) : Chip :=
  let d := c.die die
  c.setDie die { d with queues := d.queues.set q.toNat v }

/-- LAUNCH_QUEUE_READ: one entry and its descriptor are read, the launch is admitted or rejected, and LQCONS goes on
(R344). -/
def execLaunchQueueRead (die : BitVec 3) (queue : BitVec 2) (s : State) : Host.Outcome State Fault Refusal :=
  s.run fun g c =>
    let q := (c.die die).queue queue
    if q.lqcons = q.lqprod || q.lqsize = 0 then .next c
    else
      let who := unitWho die
      let c := c.acquire who.agent (.unit die) 5 []
      match c.unitRead g who (q.lqbase + BitVec.ofNat 64 (q.lqcons.toNat % q.lqsize.toNat * 8)) 8 with
      | (.ok bs, c) =>
        let desc := frameDword bs 0
        let done (c : Chip) (d : Descriptor) (cause : Option Cause) : Out :=
          let c := c.addLaunch die queue desc d cause
          .next (c.setQueue die queue { (c.die die).queue queue with lqcons := q.lqcons + 1 })
        let none := Descriptor.ofBytes []
        if !alignedTo desc 32 then done c none (some Cause.launchArg)
        else
          match Chip.unitReads g who 32 3 desc c with
          | (.ok bs, c) =>
            let d := Descriptor.ofBytes bs
            done c d d.rejection
          | (.waits, c) => .next c
          | (.fails _, c) => done c none (some Cause.launchArg)
      | (_, c) => .next c

/-! ## Work for FREE threads (R252, R255, R256, R258, R263) -/

/-- A thread of the module that is FREE. -/
def Chip.isFree (c : Chip) (t : TId) : Bool :=
  inMesh t.cluster && decide (t.core < Config.cores) && decide (t.thread < Config.threads) &&
    decide ((c.thread t).run = .free)

/-- A saved task that a thread of a core takes under source 1, one that `yield` saved as R263 states. -/
def Chip.takesSaved (c : Chip) (k : CoreId) (s : Saved) : Bool :=
  c.canRestore k s none && (match s.resume with
    | .ready => true
    | .yielded left => !c.anyTakeable k none fun n => left.contains n
    | _ => false)

/-- The first of sources 1 to 3 that holds an item which a thread of a core can take (R256). -/
def Chip.firstSource (c : Chip) (k : CoreId) : Option WorkSource :=
  let takes (i : Option Item) : Bool := match i with | some i => c.canTake k i none | none => false
  match c.saved.find? (c.takesSaved k) with
  | some s => some (.saved s.task.id)
  | none =>
    let cl := c.cluster k.cluster
    if takes cl.modeZero.head? then some .modeZero
    else if takes cl.hints.head? then some .hint
    else if takes (c.core k).deque.getLast? then some .deque
    else none

/-- An item started on a FREE thread with a free frame of its die; it does not start where there is none, or where the
frame's page is away (R301). -/
def Chip.startOn (g : Mgmt) (c : Chip) (t : TId) (i : Item) (taken : Chip → Chip) : Chip :=
  let frames := c.framesFree t.die
  let (n, c) := c.draw frames.length
  match frames[n]? with
  | none => c
  | some f =>
    match c.frameSpots g ((c.die t.die).frameAt f) with
    | (.waits, c) => c
    | (_, c) => ((taken c).focus t).startTask i f

/-- An item on its walk may be taken at a cluster within its radius of its hint (R258). -/
def Walk.within (w : Walk) : Bool :=
  let dist (a b : Nat) : Nat := (a - b) + (b - a)
  decide (dist w.here.cx w.target.cx + dist w.here.cy w.target.cy ≤ w.radius)

/-- TAKE_WORK: a FREE thread takes work from the first source that holds an item it can take (R256): source 5 where none
of sources 1 to 3 does; an item on its walk as from source 2. -/
def execTakeWork (t : TId) (source : WorkSource) (s : State) : Host.Outcome State Fault Refusal :=
  s.run fun g c =>
    let k := t.coreId
    let first := c.firstSource k
    let cl := c.cluster k.cluster
    if !c.isFree t then .next c
    else match source with
      | .saved task =>
        match c.saved.find? fun x => decide (x.task.id = task) with
        | some x =>
          if first = some source then (c.focus t).restoreTask g x else .next c
        | none => .next c
      | .modeZero =>
        match cl.modeZero with
        | i :: rest =>
          if first = some source then
            .next (c.startOn g t i fun c => c.setCluster k.cluster { c.cluster k.cluster with modeZero := rest })
          else .next c
        | [] => .next c
      | .hint =>
        match cl.hints with
        | i :: rest =>
          if first = some source then
            .next (c.startOn g t i fun c => c.setCluster k.cluster { c.cluster k.cluster with hints := rest })
          else .next c
        | [] => .next c
      | .deque =>
        match (c.core k).deque.getLast? with
        | some i =>
          if first = some source then
            .next (c.startOn g t i fun c => c.setCore k { c.core k with deque := (c.core k).deque.dropLast })
          else .next c
        | none => .next c
      | .walk item =>
        match c.walks.find? fun w => decide (w.item.id = item) with
        | some w =>
          let saved := match first with | some (.saved _) => true | _ => false
          if decide (w.here = k.cluster) && w.within && !saved && c.canTake k w.item none then
            .next (c.startOn g t w.item fun c => { c with walks := c.walks.filter fun x => decide (x.item.id ≠ item) })
          else .next c
        | none => .next c
      | .steal victim =>
        match (c.core victim).deque with
        | i :: rest =>
          if decide (victim ≠ k) && decide (first = none) && c.inDomain i.launch victim.cluster k.cluster &&
              c.canTake k i none then
            .next (c.startOn g t i fun c => c.setCore victim { c.core victim with deque := rest })
          else .next c
        | [] => .next c

/-- HINT_WALK_HOP: a hinted item moves one hop, first along cx, then along cy, or joins the hint list of the cluster that it
has reached (R258). -/
def execHintWalkHop (item : Nat) (s : State) : Host.Outcome State Fault Refusal :=
  s.run fun _ c =>
    match c.walks.find? fun w => decide (w.item.id = item) with
    | none => .next c
    | some w =>
      let toward (a b : Nat) : Nat := if a < b then a + 1 else a - 1
      let put (here : CId) : Chip :=
        { c with walks := c.walks.map fun (x : Walk) => if x.item.id = item then { x with here := here } else x }
      if w.here.cx ≠ w.target.cx then .next (put ⟨toward w.here.cx w.target.cx, w.here.cy⟩)
      else if w.here.cy ≠ w.target.cy then .next (put ⟨w.here.cx, toward w.here.cy w.target.cy⟩)
      else
        let cl := c.cluster w.here
        .next ({ c with walks := c.walks.filter fun x => decide (x.item.id ≠ item) }.setCluster w.here
          { cl with hints := cl.hints ++ [w.item] })

/-! ## Placing a launch's tasks, and pre-emption (R252, R300) -/

/-- A tile's task that has not started, and its item: the number it takes is the next one. -/
def Chip.tileItem (c : Chip) (launch tile : Nat) : Option (Launch × Item) :=
  match c.launchOf launch with
  | some l =>
    if l.rejected.isNone && !l.started.contains tile && decide (tile < l.tasks) then some (l, l.item c.nextTask tile) else none
  | none => none

/-- A tile's task started on a FREE thread. -/
def Chip.placeTile (g : Mgmt) (c : Chip) (l : Launch) (tile : Nat) (t : TId) (i : Item) : Chip :=
  c.startOn g t i fun c =>
    Chip.setLaunch { c with nextTask := c.nextTask + 1 } { l with started := l.started ++ [tile] }

/-- A die that a launch's tasks may run on (R252). -/
def Launch.allowsDie (l : Launch) (die : BitVec 3) : Bool := decide (l.steal = 2) || decide (l.die = die)

/-- LAUNCH_TASK_PLACE: a tile's task starts on a FREE thread that can take nothing of sources 1 to 3 (R252, R256). -/
def execLaunchTaskPlace (launch : Nat) (tile : Nat) (t : TId) (s : State) : Host.Outcome State Fault Refusal :=
  s.run fun g c =>
    match c.tileItem launch tile with
    | some (l, i) =>
      if c.isFree t && l.allowsDie t.die && c.canTake t.coreId i none && decide (c.firstSource t.coreId = none) then
        .next (c.placeTile g l tile t i)
      else .next c
    | none => .next c

/-- A thread's task may be pre-empted for a priority (R300). A tile whose job runs counts as kept in the pool, so no
pre-emption that would need to spill it makes an item fit. -/
def Chip.mayPreempt (g : Mgmt) (c : Chip) (prio : Nat) (t : TId) : Bool :=
  match (c.thread t).task with
  | some k =>
    decide (((c.launchOf k.launch).map Launch.prio).getD 7 < prio) && !(c.thread t).sup && !c.unstoppable g t &&
      decide ((c.thread t).run ≠ .wait .taskEnd)
  | none => false

/-- The acting thread's task is pre-empted (R52, R299, R300). -/
def Chip.preempt (g : Mgmt) (c : Chip) : Out :=
  let c := c.atReturn g
  c.schedulerSave g c.t.stopPc Cause.preempt 0 0 false 1 .ready

/-- Tasks of some threads pre-empted in turn, until an item can be taken on a core. -/
def Chip.preemptUntil (g : Mgmt) (k : CoreId) (i : Item) (prio : Nat) : List TId → Chip → Out
  | [], c => .next c
  | t :: rest, c =>
    if c.canTake k i none && decide (((c.threadsOf k).filter fun e => decide (e.2.run ≠ .free)).length < Config.threads) then
      .next c
    else if c.mayPreempt g prio t then andThen ((c.focus t).preempt g) (Chip.preemptUntil g k i prio rest)
    else Chip.preemptUntil g k i prio rest c

/-- PREEMPTION: where a launch's next task lacks only a FREE thread, tiles or slice bytes, tasks of lower priority on a thread's
core are saved until it fits, and it starts there at once (R300). -/
def execPreemption (launch : Nat) (t : TId) (s : State) : Host.Outcome State Fault Refusal :=
  s.run fun g c =>
    match c.launchOf launch with
    | none => .next c
    | some l =>
      let tiles := (List.range l.tasks).filter fun n => !l.started.contains n
      let k := t.coreId
      match tiles with
      | [] => .next c
      | tile :: _ =>
        match c.tileItem launch tile with
        | none => .next c
        | some (l, i) =>
          let busy := decide (Config.threads ≤ ((c.threadsOf k).filter fun e => decide (e.2.run ≠ .free)).length)
          if !c.mayPreempt g l.prio t || !l.allowsDie t.die || !c.openTo k i none || (c.canTake k i none && !busy) ||
              (c.framesFree t.die).isEmpty then .next c
          else
            let others := ((c.threadsOf k).map (·.1)).filter fun u => decide (u ≠ t)
            match Chip.preemptUntil g k i l.prio (t :: others) c with
            | .next c' =>
              let c'' := c'.placeTile g l tile t i
              if c'.canTake k i none && c'.isFree t && (c''.thread t).task.isSome then .next c''
              else .next { c with promoting := c''.promoting, zeroing := c''.zeroing }
            | .fault f => .fault f
            | .refused r => .refused r

/-! ## The end of a task (R118, R245) -/

/-- Accesses that wait on words of freed blocks fault SLICE_KEY in their threads (R118). -/
def Chip.withdrawBlocks (g : Mgmt) (k : CoreId) (blocks : List Nat) : List TId → Chip → Out
  | [], c => .next c
  | tid :: rest, c =>
    match (c.thread tid).firstWaiting (waitsIn g k blocks tid) with
    | none => Chip.withdrawBlocks g k blocks rest c
    | some p =>
      andThen ((c.focus tid).withdrawWith g p Cause.sliceKey (accessInfo p.kind p.lane)) (Chip.withdrawBlocks g k blocks rest)

/-- TASK_END: a task whose jobs are over and whose results have come ends (R245). -/
def execTaskEnd (t : TId) (s : State) : Host.Outcome State Fault Refusal :=
  s.run fun g c =>
    let c := c.focus t
    match c.t.task with
    | some task =>
      if decide (c.t.run = .wait .taskEnd) && c.t.pend.isEmpty && c.jobsOver task.id then
        match c.counterWaits g task with
        | (true, c) => .next c
        | (false, c) =>
          let (freed, k, c) := c.takeSnaps.endTask g task
          Chip.withdrawBlocks g k freed (c.threads.map (·.1)) c
      else .next c
    | none => .next c

/-! ## Completion (R245, R251, R343, R344) -/

/-- Every task of a launch has ended, and no item of it waits (R245). -/
def Chip.launchOver (c : Chip) (l : Launch) : Bool :=
  let mine (t : Task) : Bool := decide (t.launch = l.id)
  let waits (i : Item) : Bool := decide (i.launch = l.id)
  decide (l.tasks ≤ l.started.length) &&
    !(c.threads.any fun e => match e.2.task with | some t => mine t | none => false) &&
    !(c.saved.any fun s => mine s.task) &&
    !(c.den.any fun e => match e.2 with
      | .parked k => mine k.saved.task
      | .woken k _ _ _ _ _ => mine k.saved.task
      | .pending _ _ => false) &&
    !(c.walks.any fun w => waits w.item) &&
    !(c.cores.any fun e => e.2.deque.any waits) &&
    !(c.clusters.any fun e => e.2.modeZero.any waits || e.2.modeOne.any waits || e.2.hints.any waits ||
      e.2.deps.any fun d => match d.held with | some (i, _) => waits i | none => false)

/-- Launches that are over join the completion order (R344). -/
def Chip.settleLaunches (c : Chip) : Chip :=
  let ended := c.launches.filter fun l => !l.finished && c.launchOver l
  if ended.isEmpty then c
  else { c with
    launches := (c.launches.filter fun l => !(ended.map Launch.id).contains l.id) ++
      ended.map fun (l : Launch) => { l with finished := true } }

/-- The completion token of a launch (R251). -/
def Launch.tokenWord (l : Launch) : Dword :=
  match l.rejected with
  | some cause => 3#2 ++ 0#6 ++ cause ++ 0#16 ++ 0#32
  | none => 2#2 ++ 0#6 ++ 0#8 ++ 0#16 ++ BitVec.ofNat 32 l.started.length

/-- The completion entry of a launch in its ring: its address first, its token last, then CQHEAD and the MSI-X vector
(R344). -/
def Chip.completeEntry (g : Mgmt) (c : Chip) (l : Launch) (a : Dword) : UnitAccess Unit × Chip :=
  match c.unitWrite g (unitWho l.die) (.unit l.die) (c.agent (.launchUnit l.die)).lastRel a (bytesOfDword l.desc) with
  | (.ok _, c) =>
    match c.storeToken g l.die (a + 8) l.tokenWord with
    | (.ok _, c) =>
      let q := (c.die l.die).queue l.queue
      let c := c.setQueue l.die l.queue { q with cqhead := q.cqhead + 1 }
      (.ok (), if q.cqvec.getLsbD 31 then { c with out := c.out ++ [.msix (q.cqvec.extractLsb' 0 6)] } else c)
    | (.waits, c) => (.waits, c)
    | (.fails cause, c) => (.fails cause, c)
  | (.waits, c) => (.waits, c)
  | (.fails cause, c) => (.fails cause, c)

/-- COMPLETION_TOKEN_WRITE: the token of the launch that is first in its queue's completion order, to TOKEN and to the ring,
once the ring's entry is free (R251, R343, R344). A TOKEN that its rejection found misaligned names no words: it is lost with
MISALIGN (log 36). -/
def execCompletionTokenWrite (launch : Nat) (s : State) : Host.Outcome State Fault Refusal :=
  s.run fun g c =>
    match c.launches.find? fun l => decide (l.id = launch) with
    | none => .next c
    | some l =>
      let q := (c.die l.die).queue l.queue
      let first := c.launches.find? fun x => x.finished && decide (x.die = l.die) && decide (x.queue = l.queue)
      if !l.finished || decide (first.map Launch.id ≠ some launch) || decide (q.cqsize = 0) then .next c
      else
        let me := unitWho l.die
        let c0 := c.acquire me.agent (.unit l.die) 5 l.tokens
        let a := q.cqbase + BitVec.ofNat 64 (q.cqhead.toNat % q.cqsize.toNat * 16)
        match c0.unitRead g me (a + 8) 8 with
        | (.ok old, c) =>
          if (frameDword old 0).extractLsb' 62 2 ≠ 0 then .next c
          else
            let finish (c : Chip) : Out :=
              match c.completeEntry g l a with
              | (.ok _, c) => .next { c with launches := c.launches.filter fun x => decide (x.id ≠ launch) }
              | (_, c') => .next { c0 with promoting := c'.promoting, zeroing := c'.zeroing }
            let lost (c : Chip) (cause : Cause) : Out :=
              finish (c.log g l.die { LogRecord.of logTokenLost with cause := cause, addr := l.token })
            if l.token = 0 then finish c
            else if !alignedTo l.token 8 then lost c Cause.misalign
            else
              match c.storeToken g l.die l.token l.tokenWord with
              | (.ok _, c) => finish c
              | (.waits, c) => .next c
              | (.fails cause, c) => lost c cause
        | (_, c) => .next c

end Sys2Proof.Machine
end

