-- ==== Sys2Proof/Machine/Incidents.lean ====
section
/-! DEFINITION. Events of threads and memory: results written at the ends of windows (R46), deferred reports taken in a wait
(R298), lost paths (R346), requests that Badgers serve for other modules (R71), pages zeroed (R61, R92), and errors
corrected, rebuilt or kept as poison (R66 to R68, R119, R317). -/

namespace Sys2Proof.Machine

/-! ## Threads -/

/-- WINDOW_END_WRITE: a thread that waits at the end of a window writes the results that are due and have come (R46); so does
a task that has reached its end (R45). -/
def execWindowEndWrite (t : TId) (s : State) : Host.Outcome State Fault Refusal :=
  s.run fun _ c =>
    match (c.thread t).run with
    | .wait .window =>
      let c := c.focus t
      .next { c with t := c.t.settleWindows }.takeSnaps
    | .wait .taskEnd =>
      let c := c.focus t
      .next { c with t := (Thread.drain c.t.pend.length c.t).1 }.takeSnaps
    | _ => .next c

/-- DEFERRED_REPORT: a thread that waits takes the report held for it, its wait withdrawn (R298, R299). -/
def execDeferredReport (t : TId) (s : State) : Host.Outcome State Fault Refusal :=
  s.run fun g c =>
    let u := c.thread t
    let waits := match u.run with | .wait _ => true | _ => false
    match u.report with
    | some r => if waits && !c.unstoppable g t then (c.focus t).takeReport g r else .next c
    | none => .next c

/-- REMOTE_FAIL: the path of a thread's access to another module is lost (R346). -/
def execRemoteFail (t : TId) (s : State) : Host.Outcome State Fault Refusal :=
  s.run fun g c =>
    match c.remotes.find? fun r => decide (r.tid = t) with
    | none => .next c
    | some r =>
      let c' := { c with remotes := c.remotes.erase r }
      match (c.thread t).firstWaiting (awayAt g r.module) with
      | none => .next c'
      | some p =>
        if (c'.focus t).putOff g p.late p.acc then .next c
        else (c'.focus t).withdrawWith g p Cause.remoteFail (remoteInfo p.kind p.lane r.module Cause.remoteFail)

/-- BADGER_ROUTINE_RUN: a Badger runs a routine that another module has shipped, and its answer goes back (R71, R72,
R346): PAGE_ABSENT where the thread's own instruction would meet an absent page (R90). -/
def execBadgerRoutineRun (op : BitVec 6) (addr a b : Dword) (s : State) : Host.Outcome State Fault Refusal :=
  s.run fun g c =>
    let who := hardwareWho (.fabric 0) outsideTid
    let elsewhere := match classify g addr with | some (.remote _) => true | _ => false
    if !g.faben || elsewhere then .next c
    else
      match c.attempt g ⟨who, [], [], 0⟩ [] (.fship op addr a b) with
      | (.done (.x v) _ _, c) => .next { c with out := c.out ++ [.fabricReply 0 v] }
      | (.stop cause _ _, c) => .next { c with out := c.out ++ [.fabricFault 0 cause] }
      | (.absent _ _ _, c) => .next { c with out := c.out ++ [.fabricFault 0 Cause.pageAbsent] }
      | (_, c) => .next c

/-! ## Cells (R66 to R68, R119) -/

/-- The page of the clean copy whose frame holds a physical address of a die. -/
def Chip.copyPage (c : Chip) (die : BitVec 3) (pa : Nat) : Option Dword :=
  (c.tcopies.find? fun e => decide (e.1.extractLsb' 48 3 = die) && decide (e.2 ≤ pa) && decide (pa < e.2 + 2 ^ 21)).map (·.1)

/-- The canonical address of a byte by its key: of a slice byte, of a byte in the frame of a page, or in that of a page's clean
copy (R68). -/
def Chip.translated (c : Chip) (key : Nat) : Option Nat :=
  if isSliceKey key then
    let k := key - 2 ^ 43
    let n := k / 2 ^ 16
    some (2 ^ 51 + n / (8 * 64 * 64) * 2 ^ 48 + n / (8 * 64) % 64 * 2 ^ 42 + n / 8 % 64 * 2 ^ 36 + n % 8 * 2 ^ 33 + k % 2 ^ 16)
  else
    let die : BitVec 3 := BitVec.ofNat 3 (key / 2 ^ 40)
    let pa := key % 2 ^ 40
    match c.offsetOf die pa with
    | some off => some (heapLoc die off)
    | none => (c.copyPage die pa).map fun page => heapLoc die (pageOffset page + pa % 2 ^ 21)

/-- A record of a memory error (R68, R316). -/
def Chip.logCell (g : Mgmt) (c : Chip) (kind : Byte) (key : Nat) : Chip :=
  c.log g (keyDie key) { LogRecord.of kind with addr := ((c.translated key).map globalOf).getD 0, phys := some (keyPhys key) }

/-- A heap cell of a key lies in an HBM frame, or in a frame of the module's memory (R86). -/
def inHbm (key : Nat) : Bool := decide (key < 2 ^ 43) && decide (key % 2 ^ 40 < hbmEnd)
def inMemory (key : Nat) : Bool := decide (key < 2 ^ 43) && decide (key % 2 ^ 40 < tierEnd)

/-- The cell of a page's clean copy for a cell in the page's HBM frame, by their keys, where the copy's is itself sound
(R67, R328). -/
def Chip.copyOf (c : Chip) (cell : Nat) : Option Nat :=
  let die := keyDie cell
  let pa := cell % 2 ^ 40
  let found := c.tcopies.findSome? fun e =>
    match c.pageEntry e.1 with
    | some leaf =>
      if decide (pageDie e.1 = die) && decide (entryTier leaf = 0) && decide (entryAddr leaf ≤ pa) &&
          decide (pa < entryAddr leaf + 2 ^ 21) then
        some (heapKey die (e.2 + (pa - entryAddr leaf)))
      else none
    | none => none
  if inHbm cell then found.bind fun k => if c.poisoned k then none else some k else none

/-- CELL_REBUILD: a cell that ECC cannot correct is rebuilt from parity; failing that from its page's clean copy and written
back; and where there is none it is poisoned; a slice word is poisoned (R67, R68, R119). -/
def execCellRebuild (key : Nat) (how : RebuildBy) (s : State) : Host.Outcome State Fault Refusal :=
  s.run fun g c =>
    let cell := key / 64 * 64
    let fromCopy (k : Nat) : Out := .next (Chip.logCell g { c with mem := Mem.copy c.mem k cell 64 } logCwdTier cell)
    match how, c.copyOf cell with
    | .parity, _ => .next (if inHbm key then c.logCell g logCwdParity cell else c)
    | .tierCopy, some k => fromCopy k
    | .tierCopy, none => .next c
    | .lost, some k => fromCopy k
    | .lost, none =>
      if isSliceKey key || inMemory key then .next ((c.poisonAt key).logCell g logPoison (poisonUnit key)) else .next c

/-! ## Soft errors (R66, R317) -/

/-- State of a task found uncorrectable, of its thread or of a tile of it (R295, R317): a report that is taken at the next
boundary, and its record. -/
def Chip.contextPoison (g : Mgmt) (c : Chip) (task : Nat) (bit : Nat) : Chip :=
  let lost (die : BitVec 3) (frame pc : Dword) : Chip :=
    (c.fileReport task ⟨Cause.ctxPoison, 0, BitVec.ofNat 64 (2 ^ bit), [], 0⟩).log g die
      { LogRecord.of logCtxPoison with cause := Cause.ctxPoison, frame := frame, pc := pc }
  match c.threadOf task with
  | some (tid, t) => lost tid.die t.csr.tframe t.stopPc
  | none =>
    match c.saved.find? fun k => decide (k.task.id = task) with
    | some k => lost k.cluster.die k.frame (frameDword k.image 8)
    | none => c
/-- The same by the thread that holds the task. -/
def Chip.threadPoison (g : Mgmt) (c : Chip) (tid : TId) (bit : Nat) : Chip :=
  match (c.thread tid).task with
  | none => c
  | some k => c.contextPoison g k.id bit

/-- The die whose log takes a soft error's record. -/
def Chip.softDie (c : Chip) : SoftTarget → BitVec 3
  | .memoryCell key => keyDie key
  | .threadX t => t.die
  | .threadV t => t.die
  | .threadM t => t.die
  | .threadCsr t => t.die
  | .tile task acc => match c.tile task acc.toNat with
    | some x => x.cluster.die
    | none => 0
  | .slot k _ _ _ => k.die
  | .codebook k _ => k.die

/-- SOFT_ERROR: corrected in place with a record, or lost: a task's state raises CTX_POISON; a damaged word of a slot or root
of the codebook reads as zero from then on (R66, R317). -/
def execSoftError (target : SoftTarget) (correctable : Bool) (s : State) : Host.Outcome State Fault Refusal :=
  s.run fun g c =>
    if correctable then
      match target with
      | .memoryCell key => .next (c.logCell g logCorrected key)
      | _ => .next (c.log g (c.softDie target) (LogRecord.of logCorrected))
    else match target with
      | .memoryCell _ => .next c
      | .threadX t => .next (c.threadPoison g t 0)
      | .threadV t => .next (c.threadPoison g t 1)
      | .threadM t => .next (c.threadPoison g t 2)
      | .threadCsr t => .next (c.threadPoison g t 3)
      | .tile task acc =>
        .next (if (c.tile task acc.toNat).isSome then c.contextPoison g task (4 + acc.toNat) else c)
      | .slot k n col word =>
        let cl := c.cluster k
        let slot := cl.slot n.toNat
        match slot.columns[col.toNat]? with
        | some x =>
          let slot := { slot with columns := slot.columns.set col.toNat { x with damaged := word.toNat :: x.damaged } }
          .next (c.setCluster k { cl with slots := cl.slots.set n.toNat slot })
        | none => .next c
      | .codebook k root =>
        let cl := c.cluster k
        .next (c.setCluster k { cl with badRoots := root :: cl.badRoots })

/-! ## Zeroing (R61, R92) -/

/-- Keys of a list outside a range. -/
def keysOutside (l : List Nat) (first n : Nat) : List Nat := l.filter fun k => decide (k < first) || decide (first + n ≤ k)

/-- A frame's bytes become 0, its words full, its poison gone (R61): a write event of every word (R276), which every later
read meets (R92). -/
def Chip.zeroFrame (c : Chip) (die : BitVec 3) (loc key n : Nat) : Chip :=
  let before := c.mem
  let num := c.clock
  let c := { c with
    mem := c.mem.filter fun e => decide (e.1 < key) || decide (key + n ≤ e.1)
    empties := keysOutside c.empties key n
    poison := keysOutside c.poison key n
    locks := breakLocks c.locks none loc n
    tcopies := tableErase c.tcopies (pageOf loc)
    flash := tableErase c.flash (pageOf loc) }
  let c := c.noteRange (.launchUnit die) true none before loc key n
  let zeroed := c.hist.filter fun h =>
    decide (loc ≤ h.loc) && decide (h.loc < loc + n) && decide (h.versions.head?.map Version.id = some num)
  { c with reached := zeroed.foldl (fun r h => r.add h.loc num) c.reached }

/-- PAGE_ZERO: the home controller zeroes the frame of an entry that a translation found with ZERO = 1, and clears ZERO
in the entry, if the table still holds it (R92). -/
def execPageZero (addr : Dword) (sub : Bool) (s : State) : Host.Outcome State Fault Refusal :=
  s.run fun g c =>
    match c.zeroing.find? fun e => decide (e.1 = addr) && decide (e.2.1 = sub) with
    | none => .next c
    | some found =>
      let e := found.2.2
      let done (c : Chip) : Chip := { c with zeroing := c.zeroing.filter fun k => decide (k ≠ found) }
      match homeHeap g addr with
      | none => .next (done c)
      | some (die, off) =>
        let n := if sub then 2 ^ 10 else 2 ^ 21
        let c := c.zeroFrame die (heapLoc die (off / n * n)) (heapKey die (entryAddr e)) n
        match walk c.mem die (c.die die).etroot off sub with
        | .fails _ => .next (done c)
        | .leaf now _ =>
          if now = e then .next (done (c.setEntry die off sub fun e => e &&& ~~~(1#64 <<< (49 : Nat))))
          else .next (done c)

end Sys2Proof.Machine
end

