-- ==== Sys2Proof/Machine/Outside.lean ====
section
/-! DEFINITION. The host, the fabric and the management port: apertures and requests (R286, R338, R339, R346), the module
register space (R340 to R344, R350), boot and resets (R69, R336, R347, R348), SPDM and vendor messages (R349). An event that
cannot take place changes nothing (log 5). -/

namespace Sys2Proof.Machine

/-- The main side runs: it has power, and no link has failed (R347, R349). -/
def State.runs (s : State) : Bool := s.mgmt.powered && !s.mgmt.stopped
/-- A change of the rest of the module. -/
def State.onChip (s : State) (f : Chip → Chip) : State := { s with chip := f s.chip }
/-- What the module sends out. -/
def Chip.send (c : Chip) (m : Message) : Chip := { c with out := c.out ++ [m] }

/-! ## Accesses from outside (R286, R338, R339) -/

/-- n bytes from an address on, as pieces that each lie within one cell. -/
def cellParts (a : Dword) (n : Nat) : List (Dword × Nat) :=
  let k := min n (64 - a.toNat % 64)
  if k = n then [(a, n)] else [(a, k), (a + BitVec.ofNat 64 k, n - k)]

/-- The pieces of an access read in turn. -/
def Chip.readParts (g : Mgmt) (who : Who) : List (Dword × Nat) → Chip → UnitAccess (List Byte) × Chip
  | [], c => (.ok [], c)
  | p :: rest, c =>
    match c.unitRead g who p.1 p.2 with
    | (.ok bs, c) =>
      match Chip.readParts g who rest c with
      | (.ok more, c) => (.ok (bs ++ more), c)
      | other => other
    | other => other

/-- The pieces of an access written in turn, with the release they carry. -/
def Chip.writeParts (g : Mgmt) (who : Who) (rel : Option Nat) : List (Dword × Nat) → List Byte → Chip → UnitAccess Unit × Chip
  | [], _, c => (.ok (), c)
  | p :: rest, bs, c =>
    match c.unitWrite g who .outside rel p.1 (bs.take p.2) with
    | (.ok _, c) => Chip.writeParts g who rel rest (bs.drop p.2) c
    | (.waits, c) => (.waits, c)
    | (.fails cause, c) => (.fails cause, c)

/-- A read by a requester outside: it follows an acquire at `.sy` (R286). -/
def Chip.outsideRead (g : Mgmt) (c : Chip) (who : Who) (a : Dword) (n : Nat) : UnitAccess (List Byte) × Chip :=
  let c := c.acquire who.agent .outside 5 []
  match c.unitFault g who .read (cellParts a n) with
  | some cause => (.fails cause, c)
  | none => Chip.readParts g who (cellParts a n) c

/-- A write by a requester outside; unless relaxed, it is a release at `.sy` that carries the agent's earlier writes (R286,
R339). -/
def Chip.outsideWrite (g : Mgmt) (c : Chip) (who : Who) (relaxed : Bool) (a : Dword) (bs : List Byte) :
    UnitAccess Unit × Chip :=
  let (rel, c) := if relaxed then (none, c) else
    let (n, c) := c.release who.agent .outside 5
    (some n, c)
  match c.unitFault g who .write (cellParts a bs.length) with
  | some cause => (.fails cause, c)
  | none => Chip.writeParts g who rel (cellParts a bs.length) bs c

/-- The global address that an aperture offset maps to (R338). -/
def apertureAddress (g : Mgmt) (offset : BitVec 32) : Dword :=
  (g.hap.getD (offset.extractLsb' 28 4).toNat 0).extractLsb' 28 36 ++ offset.extractLsb' 0 28

/-- The host as a requester through a port: a supervisor's accesses, which no key checks (log 26). -/
def hostWho (port : Bool) : Who := hardwareWho (.host port) outsideTid
/-- The monitor unit of a host port (R340). -/
def hostPort (port : Bool) : OwlUnit := .port (if port then 1 else 0)
/-- The sizes of an aperture access: the bytes of one doubleword at most. -/
def apertureSize (n : Nat) : Bool := decide (n = 1) || decide (n = 2) || decide (n = 4) || decide (n = 8)

/-- HOST_APERTURE_WRITE: a write of the host through BAR2 (R338, R339). -/
def execHostApertureWrite (port : Bool) (offset : BitVec 32) (size : Nat) (value : Dword) (relaxed : Bool) (s : State) :
    Host.Outcome State Fault Refusal :=
  if !s.runs || !apertureSize size then .next s
  else
    match s.chip.outsideWrite s.mgmt (hostWho port) relaxed (apertureAddress s.mgmt offset) ((bytesOfDword value).take size) with
    | (.ok _, c) => .next { s with chip := c.owlLatency (hostPort port) }
    | (.waits, c) =>
      let again : Instr := .hostApertureWrite port offset size value relaxed
      .next { s with chip := { s.chip with promoting := c.promoting, zeroing := c.zeroing }, env := again :: s.env }
    | (.fails _, c) => .next { s with chip := c.send (.hostUnsupported port) }

/-- The requester that another module's requests come from: its module is one agent (R286), and each of its threads holds one
lock bit here at most (R131, R132). -/
def fabricWho (source : FabricSource) (key : BitVec 16) (supervisor : Bool) : Who :=
  ⟨.fabric source.module, ⟨Config.meshX + source.module.toNat, Config.meshY, 0, source.thread.toNat⟩, key, supervisor, false⟩

/-- A request as an access. The release and the acquire that it makes are those of R286. -/
def fabricAccess (a : Dword) : FabricOp → Option Access
  | .read size => some (.load size a)
  | .write size v => some (.store size a v)
  | .sync form v => some (.sync form false false 0 a v none)
  | .amo op wide v => some (.amo op wide a v)
  | .cas e n => some (.cas a e n)
  | .cas128 el eh nl nh => some (.cas128 a el eh nl nh)
  | .ldl => some (.ldl a)
  | .stu v => some (.stu a v none)
  | .cell => none
  | .unlock => none
  | .jobRead => none
  | .jobWrite _ _ _ => none
  | .vldc grp act => some (.vldc a grp act)
  | .vstc grp act lanes rm sat seed => some (.vstc a grp act lanes rm sat seed)

/-- The doublewords of an answer: a result, and after the lanes of one the flags that go with them. -/
def Result.dwords (flags : Word) : Result → List Dword
  | .none => [flags.setWidth 64]
  | .x w => [w]
  | .pair lo hi => [lo, hi]
  | .group s _ _ _ _ => [s]
  | .v l => l.list.map (·.setWidth 64) ++ [flags.setWidth 64]

/-- Writes that carry release n are releases themselves: an acquire that reads one meets it (R280, R286). -/
def Chip.markReleases (c : Chip) (n : Nat) : Chip :=
  { c with hist := c.hist.map fun h => { h with
    versions := h.versions.map fun v => if v.authorRel = some n then { v with syncRel := some n } else v } }

/-- A cell read whole for another module's contracting load. A page in TIER 2 is a cause for the instruction (R90). -/
def Chip.serveCell (g : Mgmt) (c : Chip) (who : Who) (a : Dword) : UnitAccess (List Dword) × Chip :=
  if !alignedTo a 64 then (.fails Cause.misalign, c)
  else
    match c.reach g who .read false a 64 with
    | (.absent _, c) => (.fails Cause.pageAbsent, c)
    | _ =>
      match c.outsideRead g who a 64 with
      | (.ok bs, c) => (.ok ((List.range 8).map fun i => frameDword bs (8 * i)), c)
      | (.waits, c) => (.waits, c)
      | (.fails cause, c) => (.fails cause, c)

/-- A word read for another module's engine job: as stored, with its poison, which faults nothing; the job waits for a page in
TIER 2 (R90, R145, R346). -/
def Chip.serveJobRead (g : Mgmt) (c : Chip) (who : Who) (a : Dword) : UnitAccess (List Dword) × Chip :=
  if !alignedTo a 4 then (.fails Cause.misalign, c)
  else
    let c := c.acquire who.agent .outside 5 []
    match c.reach g { who with engine := true } .read false a 4 with
    | (.ok s _, c) =>
      let poison := c.anyPoison s.key 4
      let (bs, c) := c.readBytes who.agent s 4
      (.ok [BitVec.ofNat 64 (natOfBytes bs), (BitVec.ofBool poison).setWidth 64], c)
    | (.fails cause, c) => (.fails cause, c)
    | (.den _, c) => (.ok [0, 0], c)
    | (_, c) => (.waits, c)

/-- A word written for another module's engine job: full, in the shadow frame of a SHADOW page (R144, R145, R346). -/
def Chip.serveJobWrite (g : Mgmt) (c : Chip) (who : Who) (a : Dword) (w : Word) (poison whole : Bool) :
    UnitAccess (List Dword) × Chip :=
  if !alignedTo a 4 then (.fails Cause.misalign, c)
  else
    match c.reach g { who with engine := true } .write false a 4 with
    | (.ok s e, c) =>
      let (n, c) := c.release who.agent .outside 5
      match c.landWord who.agent (some n) s e w poison with
      | (.ok _, c) => (.ok [], (if whole then c.shadowClears s else c).markReleases n)
      | (.waits, c) => (.waits, c)
      | (.fails cause, c) => (.fails cause, c)
    | (.fails cause, c) => (.fails cause, c)
    | (.den _, c) => (.ok [], c)
    | (_, c) => (.waits, c)

/-- A request of another module served: its answer, or the cause that it meets here, or a wait (R346). A page in TIER 2 is a
cause for the thread's instruction (R90). -/
def Chip.serveRequest (g : Mgmt) (c : Chip) (who : Who) (op : FabricOp) (a : Dword) : UnitAccess (List Dword) × Chip :=
  match op, fabricAccess a op with
  | .unlock, _ => (.ok [], c.releaseLock who.tid)
  | .jobRead, _ => c.serveJobRead g who a
  | .jobWrite w poison whole, _ => c.serveJobWrite g who a w poison whole
  | _, none => c.serveCell g who a
  | _, some acc =>
    let (n, c) := if acc.writes then
        let (n, c) := c.release who.agent .outside 5
        (some n, c)
      else (none, c)
    let c := if acc.readsMem then c.acquire who.agent .outside 5 [] else c
    match c.attempt g ⟨who, [], [], 0⟩ [] acc with
    | (.done r flags _, c) => (.ok (r.dwords flags), match n with | some n => c.markReleases n | none => c)
    | (.stop cause _ _, c) => (.fails cause, c)
    | (.absent _ _ _, c) => (.fails Cause.pageAbsent, c)
    | (_, c) => (.waits, c)

/-- The answer to a request (R346). -/
def fabricAnswer (source : BitVec 12) : List Dword → Message
  | [v] => .fabricReply source v
  | l => .fabricData source l

/-- FABRIC_REQUEST: a request of another module is checked and translated here (R81, R89, R286, R346). One that waits is tried
again behind the others. -/
def execFabricRequest (source : FabricSource) (op : FabricOp) (addr : Dword) (key : BitVec 16) (supervisor : Bool) (s : State) :
    Host.Outcome State Fault Refusal :=
  if !s.runs || !s.mgmt.faben || decide (source.module = s.mgmt.modid) then .next s
  else if addr.extractLsb' 52 12 ≠ s.mgmt.modid then .next (s.onChip fun c => c.send (.fabricFault source.module Cause.addrInvalid))
  else
    match s.chip.serveRequest s.mgmt (fabricWho source key supervisor) op addr with
    | (.ok l, c) => .next { s with chip := c.send (fabricAnswer source.module l) }
    | (.fails cause, c) => .next { s with chip := c.send (.fabricFault source.module cause) }
    | (.waits, c) =>
      let again : Instr := .fabricRequest source op addr key supervisor
      .next { s with chip := { s.chip with promoting := c.promoting, zeroing := c.zeroing }, env := s.env ++ [again] }

/-! ## Registers with rows of their own (R340, R341) -/

/-- MODID written: only while FABEN = 0, and never with 0xFFF (R340). -/
def Mgmt.writeModid (g : Mgmt) (v : Dword) : Mgmt :=
  if g.faben || decide (v.extractLsb' 0 12 = 0xFFF) then g else { g with modid := v.extractLsb' 0 12 }
/-- FABEN written: a write of 1 while MODID = 0 is discarded (R340). -/
def Mgmt.writeFaben (g : Mgmt) (v : Dword) : Mgmt :=
  if v.getLsbD 0 && decide (g.modid = 0) then g else { g with faben := v.getLsbD 0 }
/-- BOOTGO written: 1 starts verification of the staged image, where none runs and no firmware does (R348). -/
def Mgmt.writeBootgo (g : Mgmt) (v : Dword) : Mgmt :=
  if decide (v = 1) && (decide (g.bootst = 1) || decide (g.bootst = 4)) then { g with bootst := 2, bootReason := 0 } else g
/-- An event bit of a die (R311). -/
def Chip.setEvent (c : Chip) (die : BitVec 3) (bits : BitVec 4) : Chip :=
  c.setDie die { c.die die with evpend := (c.die die).evpend ||| bits }
/-- FWTMR written (R341). -/
def Chip.writeFwtmr (c : Chip) (die : BitVec 3) (v : Dword) : Chip :=
  if decide (v ≠ 0) && decide (v.toNat ≤ c.timebase.toNat) then
    (c.setDie die { c.die die with fwtmr := 0 }).setEvent die 4
  else c.setDie die { c.die die with fwtmr := v }

/-- A write of the host that is no access to memory: a request whose latency its port's monitor samples (R350) and, unless
relaxed, a release at `.sy` of its port's agent (R286, R339). -/
def Chip.hostRelease (c : Chip) (w : HostWrite) : Chip :=
  let c := c.owlLatency (hostPort w.port)
  if w.relaxed then c else (c.release (.host w.port) .outside 5).2

/-- A module register written by the host. -/
def State.hostSets (s : State) (w : HostWrite) (f : Mgmt → Mgmt) : State :=
  if s.runs then { s with mgmt := f s.mgmt, chip := s.chip.hostRelease w } else s

/-- MODID_WRITE (R340). -/
def execModidWrite (value : Posted Dword) (s : State) : Host.Outcome State Fault Refusal :=
  .next (s.hostSets value.by_ fun g => g.writeModid value.value)

/-- FABEN_WRITE (R340). -/
def execFabenWrite (value : Posted Dword) (s : State) : Host.Outcome State Fault Refusal :=
  .next (s.hostSets value.by_ fun g => g.writeFaben value.value)

/-- BOOTGO_WRITE (R348). -/
def execBootgoWrite (value : Posted Dword) (s : State) : Host.Outcome State Fault Refusal :=
  .next (s.hostSets value.by_ fun g => g.writeBootgo value.value)

/-- DOORBELL_WRITE: any write sets EVPEND.HOSTDB of the die (R340). -/
def execDoorbellWrite (die : Posted (BitVec 3)) (s : State) : Host.Outcome State Fault Refusal :=
  .next (if s.runs then s.onChip fun c => (c.hostRelease die.by_).setEvent die.value 2 else s)

/-- FWTMR_WRITE (R341). -/
def execFwtmrWrite (die : BitVec 3) (value : Posted Dword) (s : State) : Host.Outcome State Fault Refusal :=
  .next (if s.runs then s.onChip fun c => (c.hostRelease value.by_).writeFwtmr die value.value else s)

/-- A die's firmware timer that TIMEBASE has reached sets EVPEND.TMR and is cleared (R341). -/
def Chip.expireTimer (c : Chip) (die : BitVec 3) : Chip :=
  let d := c.die die
  if decide (d.fwtmr ≠ 0) && decide (d.fwtmr.toNat ≤ c.timebase.toNat) then
    (c.setDie die { d with fwtmr := 0 }).setEvent die 4
  else c

/-- FWTMR_EXPIRE (R341). -/
def execFwtmrExpire (die : BitVec 3) (s : State) : Host.Outcome State Fault Refusal :=
  .next (s.onChip fun c => c.expireTimer die)

/-! ## The register space (R340) -/

/-- The monitor unit and the offset within it that an offset of the register space names (R340). -/
def owlAt (off : Nat) : Option (OwlUnit × Nat) :=
  if 0x100000 ≤ off && off < 0x700000 && 0x100 ≤ off % 0x200 then
    let n := (off - 0x100000) / 0x200
    some (.channel (n / 192) (n % 192), off % 0x100)
  else if 0x800000 ≤ off && off < 0x800000 + 0x100 * 20000 then
    let n := (off - 0x800000) / 0x100
    some (.cluster ⟨n % 200, n / 200⟩, off % 0x100)
  else if 0xE00000 ≤ off && off < 0xE01A00 then some (.port ((off - 0xE00000) / 0x100), off % 0x100)
  else none

/-- A register of a monitor unit (R350). -/
def Owl.register (o : Owl) (i : Nat) : Dword :=
  if i = 0 then o.ctl
  else if i = 8 then o.min.setWidth 64
  else if i = 0x10 then o.max.setWidth 64
  else if i = 0x18 then o.cnt
  else if 0x80 ≤ i && i % 4 = 0 then (o.bins.getD ((i - 0x80) / 4) 0).setWidth 64
  else 0

/-- The pseudo-channel and the counter that an offset names (R340). -/
def counterAt (off : Nat) : Option (Nat × Nat × Nat) :=
  if 0x100000 ≤ off && off < 0x700000 && off % 0x200 < 0x20 && off % 8 = 0 then
    let n := (off - 0x100000) / 0x200
    some (n / 192, n % 192, off % 0x200 / 8)
  else none

/-- A launch queue's register (R340). -/
def LaunchQueue.register (q : LaunchQueue) (i : Nat) : Dword :=
  match i with
  | 0x00 => q.lqbase
  | 0x08 => q.lqsize
  | 0x10 => q.lqprod.setWidth 64
  | 0x18 => q.lqcons.setWidth 64
  | 0x20 => q.cqbase
  | 0x28 => q.cqsize
  | 0x30 => q.cqhead.setWidth 64
  | 0x38 => q.cqvec.setWidth 64
  | _ => 0

/-- A register of a die's block (R340). -/
def Chip.dieRegister (c : Chip) (die : BitVec 3) (i : Nat) : Dword :=
  let d := c.die die
  if 0x100 ≤ i && i < 0x200 then (d.queue (BitVec.ofNat 2 ((i - 0x100) / 0x40))).register (i % 0x40)
  else match i with
    | 0x000 => d.etroot
    | 0x200 => d.logbase
    | 0x208 => d.logsize
    | 0x210 => d.loghead.setWidth 64
    | 0x218 => d.logtail.setWidth 64
    | 0x220 => d.logvec.setWidth 64
    | 0x300 => d.fpbase
    | 0x308 => d.fpcount
    | 0x310 => BitVec.ofNat 64 (c.framesFree die).length
    | 0x400 => d.spbase
    | 0x408 => d.spcount
    | 0x410 => BitVec.ofNat 64 d.freeShadows.length
    | 0x600 => d.fwtmr
    | _ => 0

/-- A register of the module's own block (R340). -/
def State.moduleRegister (s : State) (off : Nat) : Dword :=
  let g := s.mgmt
  if 0x100 ≤ off && off < 0x180 && off % 8 = 0 then g.hap.getD ((off - 0x100) / 8) 0
  else if 0x1000 ≤ off && off < 0x5000 && off % 4 = 0 then ((tableGet g.froute ((off - 0x1000) / 4)).getD 0).setWidth 64
  else if 0xF000 ≤ off && off < 0xF400 && off % 8 = 0 then (tableGet g.msix ((off - 0xF000) / 8)).getD 0
  else match off with
    | 0x00 => g.modid.setWidth 64
    | 0x08 => (BitVec.ofBool g.faben).setWidth 64
    | 0x10 => 0#48 ++ g.bootReason ++ g.bootst
    | 0x20 => g.denwin
    | 0x28 => s.chip.timebase
    | 0x30 => g.pwrlim.setWidth 64
    | _ => 0

/-- A read of the register space; an unassigned offset reads 0 (R340). Reading a counter takes a free value. -/
def State.readRegister (s : State) (off : Nat) : Dword × State :=
  if off < 0x10000 then (s.moduleRegister off, s)
  else if off < 0x90000 then (s.chip.dieRegister (BitVec.ofNat 3 (off / 0x10000 - 1)) (off % 0x10000), s)
  else match counterAt off with
    | some (k, n, i) =>
      let (v, c) := s.chip.readCount k n i
      (v, { s with chip := c })
    | none => match owlAt off with
      | some (u, i) => ((s.chip.owl u).register i, s)
      | none => (0, s)

/-- The key of the first byte of the boot staging buffer (R338). -/
def stagingBase : Nat := 0x0FF0000000
/-- A byte of the staging buffer: it is heap of die 0 at its physical address (log 28). -/
def stagingSpot (off : Nat) : Spot := ⟨heapLoc 0 (stagingBase + off), heapKey 0 (stagingBase + off)⟩

/-- HOST_APERTURE_READ: a read of the host, after its acquire (R286, R338): through BAR2, where it waits for its page, or fails
as Unsupported Request; of a register through BAR0; or of the boot staging buffer through BAR4, which reads 0 while firmware
runs (R340, R348). -/
def execHostApertureRead (port : Bool) (offset : HostOffset) (size : Nat) (s : State) :
    Host.Outcome State Fault Refusal :=
  if !s.runs || !apertureSize size then .next s
  else
    let answer (s : State) (v : Dword) : State :=
      s.onChip fun c => (c.owlLatency (hostPort port)).send (.hostReadData port (BitVec.ofNat 64 (v.toNat % 2 ^ (8 * size))))
    let c := s.chip
    match offset.bar with
    | .aperture =>
      match c.outsideRead s.mgmt (hostWho port) (apertureAddress s.mgmt offset.offset) size with
      | (.ok bs, c) =>
        .next { s with chip := (c.owlLatency (hostPort port)).send (.hostReadData port (BitVec.ofNat 64 (natOfBytes bs))) }
      | (.waits, c) => .next { s with chip := c, env := .hostApertureRead port offset size :: s.env }
      | (.fails _, c) => .next { s with chip := c.send (.hostUnsupported port) }
    | .registers =>
      let (v, s) := { s with chip := c.acquire (.host port) .outside 5 [] }.readRegister (offset.offset.toNat % 2 ^ 26)
      .next (answer s v)
    | .staging =>
      let at_ := offset.offset.toNat % 2 ^ 28
      let c := c.acquire (.host port) .outside 5 []
      let (bs, c) := c.readBytesLatest (.host port) (stagingSpot at_) size
      .next (answer { s with chip := c } (if s.mgmt.bootst = 3 then 0 else BitVec.ofNat 64 (natOfBytes bs)))

/-- A task of a die runs (R340). -/
def Chip.dieBusy (c : Chip) (die : BitVec 3) : Bool := c.threads.any fun e => decide (e.1.die = die) && e.2.task.isSome

/-- A launch queue's register written; LQCONS and CQHEAD are read only (R340). -/
def LaunchQueue.write (q : LaunchQueue) (i : Nat) (v : Dword) : LaunchQueue :=
  match i with
  | 0x00 => { q with lqbase := v }
  | 0x08 => { q with lqsize := v }
  | 0x10 => { q with lqprod := v.extractLsb' 0 32 }
  | 0x20 => { q with cqbase := v }
  | 0x28 => { q with cqsize := v }
  | 0x38 => { q with cqvec := v.extractLsb' 0 32 }
  | _ => q

/-- The LOST record is written once space has returned to a die's ring (R315). -/
def Chip.logSpace (g : Mgmt) (c : Chip) (die : BitVec 3) : Chip :=
  let d := c.die die
  if d.loglost = 0 then c
  else
    match c.logOne g die { LogRecord.of logLost with detail := [BitVec.ofNat 32 d.loglost] } with
    | some c => c.setDie die { c.die die with loglost := 0 }
    | none => c

/-- A register of a die's block written (R340): the pools, ETROOT and LOGBASE only while no task of the die runs. -/
def Chip.writeDieRegister (g : Mgmt) (c : Chip) (die : BitVec 3) (i : Nat) (v : Dword) : Chip :=
  let d := c.die die
  let put (d : Die) : Chip := c.setDie die d
  let pool (d : Die) : Chip := if c.dieBusy die then c else c.setDie die d
  if 0x100 ≤ i && i < 0x200 then
    let q : BitVec 2 := BitVec.ofNat 2 ((i - 0x100) / 0x40)
    c.setQueue die q ((d.queue q).write (i % 0x40) v)
  else match i with
    | 0x000 => pool { d with etroot := v &&& 0xFFFFFFE001 }
    | 0x200 => pool { d with logbase := v }
    | 0x208 => put { d with logsize := v }
    | 0x218 => (put { d with logtail := v.extractLsb' 0 32 }).logSpace g die
    | 0x220 => put { d with logvec := v.extractLsb' 0 32 }
    | 0x300 => pool { d with fpbase := v }
    | 0x308 => pool { d with fpcount := v }
    | 0x400 => pool { d with spbase := v }
    | 0x408 => pool { d with spcount := v }
    | 0x500 => c.setEvent die 2
    | 0x600 => c.writeFwtmr die v
    | _ => c

/-- A register of the module's own block written (R340, R342). -/
def Mgmt.writeRegister (g : Mgmt) (off : Nat) (v : Dword) : Mgmt :=
  if 0x100 ≤ off && off < 0x180 && off % 8 = 0 then
    { g with hap := g.hap.set ((off - 0x100) / 8) (v &&& 0xFFFFFFFFF0000000) }
  else if 0x1000 ≤ off && off < 0x5000 && off % 4 = 0 then
    let v := v.extractLsb' 0 32 &&& 0x8000FFFF
    let k := (off - 0x1000) / 4
    { g with froute := if v = 0 then tableErase g.froute k else tableSet g.froute k v }
  else if 0xF000 ≤ off && off < 0xF400 && off % 8 = 0 then
    let k := (off - 0xF000) / 8
    { g with msix := if v = 0 then tableErase g.msix k else tableSet g.msix k v }
  else match off with
    | 0x00 => g.writeModid v
    | 0x08 => g.writeFaben v
    | 0x18 => g.writeBootgo v
    | 0x20 => { g with denwin := v &&& 0xFFFFFFFFFC000001 }
    | 0x30 => { g with pwrlim := v.extractLsb' 0 16 }
    | _ => g

/-- A register of a stack's pseudo-channel or of a monitor unit written: the counters and OWLCTL (R65, R350). -/
def Chip.writeMonitor (c : Chip) (off : Nat) (v : Dword) : Chip :=
  match counterAt off with
  | some (k, n, i) => c.setChannelCounts k n ((c.channelCounts k n).set i (v.extractLsb' 0 48))
  | none => match owlAt off with
    | some (u, 0) => c.setOwl ((c.owl u).control c.timebase v)
    | _ => c

/-- REGISTER_WRITE: a write of the host to the register space through BAR0; to an unassigned or locked register it is
discarded (R340). -/
def execRegisterWrite (offset : BitVec 26) (value : Posted Dword) (s : State) : Host.Outcome State Fault Refusal :=
  let off := offset.toNat
  if !s.runs then .next s
  else
    let c := s.chip.hostRelease value.by_
    let v := value.value
    .next (if off < 0x10000 then { s with mgmt := s.mgmt.writeRegister off v, chip := c }
      else if off < 0x90000 then
        { s with chip := c.writeDieRegister s.mgmt (BitVec.ofNat 3 (off / 0x10000 - 1)) (off % 0x10000) v }
      else { s with chip := c.writeMonitor off v })

/-! ## Boot, resets and power (R69, R336, R347, R348, R349) -/

/-- BOOT_STAGING_BUFFER_WRITE: a byte of the staging buffer, written while no firmware runs, as a write event of the host's
(R276, R338, R339, R348). -/
def execBootStagingBufferWrite (offset : BitVec 28) (value : Posted Byte) (s : State) :
    Host.Outcome State Fault Refusal :=
  .next (if !s.runs then s
    else s.onChip fun c =>
      let c := c.hostRelease value.by_
      let me := AgentId.host value.by_.port
      if s.mgmt.bootst = 3 then c
      else c.writeBytes me none true (c.agent me).lastRel none (stagingSpot offset.toNat) [value.value])

/-- The reason that rejects the staged image, if one does (R348): 1 magic, 2 length, 3 signature, 4 rollback. -/
def bootRejects (minVersion : Word) (mem : List Host.Cell) : Option Byte :=
  let len := (Mem.dword mem (stagingBase + 8)).toNat
  if Mem.word mem stagingBase ≠ 0x534B4657 then some 1
  else if len = 0 || 2 ^ 28 - 512 < len then some 2
  else if !Config.signatureValid (Mem.bytes mem stagingBase (512 + len)) then some 3
  else if (Mem.word mem (stagingBase + 4)).toNat < minVersion.toNat then some 4
  else none

/-- The bytes that the image's hash covers: the header with its signature zeroed, and the body (R348). -/
def hashedImage (mem : List Host.Cell) : List Byte :=
  let len := (Mem.dword mem (stagingBase + 8)).toNat
  listPut (Mem.bytes mem stagingBase (512 + len)) 24 (List.replicate 96 0)

/-- The 48 bytes of a measurement. -/
def measureBytes (v : BitVec 384) : List Byte := (List.range 48).map fun i => v.extractLsb' (8 * i) 8

/-- The firmware's task on the first thread of a die's reserved cluster, at ENTRY of the staged image, in supervisor mode
(R304, R348, log 28). -/
def Chip.startFirmware (entry : Dword) (c : Chip) (die : BitVec 3) : Chip :=
  let tid : TId := ⟨50 * (die.toNat % 4), 50 * (die.toNat / 4), 0, 0⟩
  let n := c.nextTask
  let t := { Thread.reset with
    pc := globalOf (heapLoc 0 stagingBase) + entry, run := .ready, sup := true,
    task := some ⟨n, 0, none, 0, 0, 0, 0, [0, 0, 0, 0]⟩ }
  Chip.setThread { c with nextTask := n + 1 } tid (t.setX 1 endLink)

/-- BOOT_VERIFY_DONE: the image is rejected with a reason, or measured and started (R348). -/
def execBootVerifyDone (s : State) : Host.Outcome State Fault Refusal :=
  if !s.runs || decide (s.mgmt.bootst ≠ 2) then .next s
  else
    match bootRejects s.mgmt.minVersion s.chip.mem with
    | some r => .next { s with mgmt := { s.mgmt with bootst := 4, bootReason := r } }
    | none =>
      let hash := Config.sha384 (hashedImage s.chip.mem)
      let slot := Config.sha384 (measureBytes s.mgmt.slot1 ++ measureBytes hash)
      let c := lanes8.foldl (Chip.startFirmware (Mem.dword s.chip.mem (stagingBase + 16))) s.chip
      .next { s with mgmt := { s.mgmt with bootst := 3, bootReason := 0, slot1 := slot }, chip := c }

/-- Every main-side state at its reset value; the flash tier keeps its copies, and the module's record of what it has sent and
drawn goes on (R336, R348). -/
def State.restart (s : State) : State :=
  let c := s.chip
  let flash (k : Nat) : Bool := decide (2 ^ 44 ≤ k)
  { s with
    mgmt := { Mgmt.reset with minVersion := s.mgmt.minVersion }
    chip := { Chip.reset with
      mem := c.mem.filter fun e => flash e.1
      empties := c.empties.filter flash
      poison := c.poison.filter flash
      relics := c.relics ++ c.flash
      out := c.out
      draws := c.draws
      frees := c.frees
      steps := c.steps } }

/-- MAIN_SIDE_RESET (R348). -/
def execMainSideReset (s : State) : Host.Outcome State Fault Refusal := .next (if s.mgmt.powered then s.restart else s)

/-- POWER_UP: the main side has power again, and every state of it its reset value (R69, R325, R348). -/
def execPowerUp (s : State) : Host.Outcome State Fault Refusal := .next (if s.mgmt.powered then s else s.restart)

/-- MAIN_SIDE_POWER_LOSS: the main side stops; every Owl unit stands as it stood, and the flash copies stay (R336, R349). -/
def execMainSidePowerLoss (s : State) : Host.Outcome State Fault Refusal :=
  .next { s with mgmt := { s.mgmt with powered := false } }

/-- UCIE_LINK_FAIL: a link between two dies fails beyond retry, and the main side stops (R347). -/
def execUcieLinkFail (a b : BitVec 3) (s : State) : Host.Outcome State Fault Refusal :=
  .next (if s.runs && decide (a ≠ b) then
      { s with mgmt := { s.mgmt with stopped := true }, chip := s.chip.send (.linkFailure a b) }
    else s)

/-! ## The management port (R342, R349) -/

/-- MGMT_READ_REGISTER: the register space while the main side has power, and the Owl units always; while the main side is
down, the last log records of each die and the health of rails, temperature and power, whose values are left open (R349). -/
def execMgmtReadRegister (what : MgmtRead) (s : State) : Host.Outcome State Fault Refusal :=
  match what with
  | .register offset =>
    if s.mgmt.powered || (owlAt offset.toNat).isSome then
      let (v, s) := s.readRegister offset.toNat
      .next (s.onChip fun c => c.send (.mgmtData v))
    else .next s
  | .record die n =>
    match s.runs, (s.chip.die die).records[n]? with
    | false, some bytes => .next (s.onChip fun c => c.send (.mgmtRecord die bytes))
    | _, _ => .next s
  | .health _ =>
    if s.runs then .next s
    else
      let (v, c) := s.chip.free
      .next { s with chip := c.send (.mgmtData v) }

/-- MGMT_WRITE_OWLCTL (R349, R350): a unit of a main side without power is frozen. -/
def execMgmtWriteOwlctl (u : OwlUnit) (value : Dword) (s : State) : Host.Outcome State Fault Refusal :=
  .next (if s.mgmt.powered then s.onChip fun c => c.setOwl ((c.owl u).control c.timebase value) else s)

/-- MGMT_WRITE_PWRLIM (R342). -/
def execMgmtWritePwrlim (value : Dword) (s : State) : Host.Outcome State Fault Refusal :=
  .next { s with mgmt := { s.mgmt with pwrlim := value.extractLsb' 0 16 } }

/-- MGMT_ASSERT_RESET: a vendor message asserts main-side reset (R349). -/
def execMgmtAssertReset (s : State) : Host.Outcome State Fault Refusal := .next (if s.mgmt.powered then s.restart else s)

/-- An SPDM answer of a request's number: the standard gives its body (R349, log 12). -/
def State.answerSpdm (s : State) (request : Nat) : State :=
  s.onChip fun c => Chip.send { c with frees := c.frees + 1 } (.spdm request (Config.spdmReply request c.frees))

/-- GET_VERSION (R349). -/
def execSpdmGetVersion (s : State) : Host.Outcome State Fault Refusal := .next (s.answerSpdm 0x84)
/-- GET_CAPABILITIES (R349). -/
def execSpdmGetCapabilities (s : State) : Host.Outcome State Fault Refusal := .next (s.answerSpdm 0xE1)
/-- NEGOTIATE_ALGORITHMS (R349). -/
def execSpdmNegotiateAlgorithms (s : State) : Host.Outcome State Fault Refusal := .next (s.answerSpdm 0xE3)
/-- GET_DIGESTS (R349). -/
def execSpdmGetDigests (s : State) : Host.Outcome State Fault Refusal := .next (s.answerSpdm 0x81)
/-- GET_CERTIFICATE (R349). -/
def execSpdmGetCertificate (s : State) : Host.Outcome State Fault Refusal := .next (s.answerSpdm 0x82)
/-- CHALLENGE (R349). -/
def execSpdmChallenge (s : State) : Host.Outcome State Fault Refusal := .next (s.answerSpdm 0x83)
/-- GET_MEASUREMENTS, which gives slot 1 as the firmware's measurement (R348, R349). -/
def execSpdmGetMeasurements (s : State) : Host.Outcome State Fault Refusal :=
  .next (s.onChip fun c => c.send (.measurement s.mgmt.slot1))

end Sys2Proof.Machine
end

