-- ==== Sys2Proof/Machine/Arbitrate.lean ====
section
/-! DEFINITION. What a step adds after its instruction or event: waits served (R124, R132, R152, R277), conditions met
(R90, R254, R259, R265, R290, R311), time (R340), and the choice of what moves next (R1, R246, log 3). And the placing of an
instruction where the next step fetches it (log 14). -/

namespace Sys2Proof.Machine

/-! ## Waiting accesses, in the order of their arrival (R124) -/

/-- A waiting access: whose, when it arrived, and its pending entry; none for the access of the instruction at the program
counter. -/
structure Waiter where
  tid : TId
  arrival : Nat
  entry : Option Nat
  deriving DecidableEq, Repr

/-- A waiter put in a list by its arrival. -/
def insertWaiter (w : Waiter) : List Waiter → List Waiter
  | [] => [w]
  | x :: rest => if w.arrival < x.arrival then w :: x :: rest else x :: insertWaiter w rest

/-- Every waiting access, the earliest first. -/
def Chip.waiters (c : Chip) : List Waiter :=
  let all := c.threads.map fun e =>
    (match e.2.run with | .wait (.access _ _ _ n _ _) => [(⟨e.1, n, none⟩ : Waiter)] | _ => []) ++
      e.2.pend.filterMap fun (p : Pending) => if p.access.isSome then some ⟨e.1, p.arrival, some p.id⟩ else none
  all.flatten.foldr insertWaiter []

/-- An attempt's outcome: whether it made progress, with the machine after it. -/
abbrev Served := Host.Outcome (Bool × Chip) Fault Refusal

/-- An answer that made progress, or none. -/
def servedAs (moved : Bool) (o : Out) : Served :=
  match o with
  | .next c => .next (moved, c)
  | .fault f => .fault f
  | .refused r => .refused r

/-- The access of the acting thread's instruction tried again. -/
def Chip.serveOwn (g : Mgmt) (c : Chip) (dest : Dest) (acc : Access) (l : List Placed) (n : Nat) (warn : Byte)
    (la : BitVec 4) : Served :=
  match c.again g c.issuer c.t.pend acc l with
  | (.done r flags snap, c) =>
    servedAs true (({ c with t := { c.t with run := .ready } }.loadTrigger acc).accessDone g dest la warn r flags snap)
  | (.stop cause a info, c) => if c.t.storing none then .next (false, c) else servedAs true (c.raise g cause a info)
  | (.absent page a info, c) => if c.t.storing none then .next (false, c) else servedAs true (c.absentStop g page a info)
  | (.waits acc' l', c) => .next (false, { c with t := { c.t with run := .wait (.access dest acc' l' n warn la) } })
  | (.held, c) => .next (false, c)
  | (.saves _, c) => .next (false, c)

/-- An instruction of several accesses, or one that releases, which waits in its window, tried again with its operands as they
were at its issue, behind the earlier instructions of its thread (R46, R354). -/
def Chip.tryLate (g : Mgmt) (c : Chip) (w : Issuer) (earlier : List Pending) (i : Instr) (v : List Dword) : Tries :=
  let x (n : Nat) : Dword := v.getD n 0
  let late : Access := .late i v
  if behindLate earlier i then .next (.held, c)
  else match i with
    | .tzero _ int32 acc => .next (c.tryTzero int32 acc)
    | .tload _ int32 acc _ => .next (c.tryTload g w earlier int32 acc (x 0))
    | .tmov _ accd accs => .next (c.tryTmov accd accs)
    | .tcov _ _ acc => .next (c.lookAtTile false false acc)
    | .tstat _ _ acc => .next (c.lookAtTile false true acc)
    | .tdrain _ sat rm fmt acc _ _ => .next (c.tryTdrain g w earlier sat rm fmt acc (x 0) (x 1) (x 2) (x 3))
    | .resld _ slot _ => .next (c.loadSlot g w earlier late none slot.toNat (x 0))
    | .resldSparse _ pat slot _ => .next (c.loadSlot g w earlier late (sparsePattern pat) slot.toNat (x 0))
    | .cbld _ _ => .next (c.tryCbld g w earlier late (x 0))
    | .cld _ form fold ord slot acc _ _ _ => c.tryCld g w earlier late form fold ord slot acc (x 0) (x 1) (v.drop 2)
    | .spawn _ xc _ _ => .next (c.trySpawn g w earlier xc (x 0) (x 1) (x 2))
    | .disp _ _ _ xb => c.tryDisp g w earlier late xb (x 0) (x 1)
    | .depdec _ _ _ => c.tryDepdec g w earlier late (x 0)
    | .wake _ _ _ _ => .next (c.tryWake g w earlier (x 0) (x 1))
    | .pflush _ _ _ _ => .next (c.tryPflush g w earlier (x 0) (x 1))
    | .sqk _ _ _ _ => .next (c.trySqk g w earlier (x 0) (x 1).toNat)
    | _ => .next (.held, c)

/-- What a pending entry holds, tried again behind the earlier ones of its thread. -/
def Chip.retry (g : Mgmt) (c : Chip) (w : Issuer) (earlier : List Pending) (acc : Access) (l : List Placed) : Tries :=
  match acc with
  | .late i v => c.tryLate g w earlier i v
  | .job _ _ _ _ _ _ => c.tryIssue g earlier acc
  | _ => .next (c.again g w earlier acc l)

/-- The access of a pending entry of the acting thread tried again; a cause that it meets is reported late (R48, R303). In a
handler an absent page is waited for (R306), and so is what a task would be saved for (log 20). -/
def Chip.servePending (g : Mgmt) (c : Chip) (p : Pending) (acc : Access) : Served :=
  let w : Issuer := ⟨c.t.who c.tid, p.rels, p.acqs, p.iaddr⟩
  let put (c : Chip) (f : Pending → Pending) : Chip :=
    { c with t := { c.t with pend := c.t.pend.map fun (q : Pending) => if q.id = p.id then f q else q } }
  match c.retry g w (c.t.pend.takeWhile fun q => decide (q.id ≠ p.id)) acc p.spots with
  | .next (.done r flags snap, c) =>
    let c := put c fun q => { q with access := none, result := r, flags := q.flags ||| flags, snap := snap }
    .next (true, (c.settleAccess w c.t.pend p).loadTrigger acc)
  | .next (.stop cause a info, c) =>
    if c.putOff g (some p.id) acc then .next (false, c) else servedAs true (c.stopNow g c.t.stopPc cause a info true false)
  | .next (.absent page a info, c) =>
    if c.t.handler.isSome || c.putOff g (some p.id) acc then .next (false, c)
    else servedAs true (c.saveNow g c.t.stopPc Cause.pageAbsent a info true 2 (.page page))
  | .next (.saves resume, c) =>
    if c.t.handler.isSome || c.putOff g (some p.id) acc then .next (false, c)
    else servedAs true (c.saveNow g c.t.stopPc 0 0 0 false 2 resume)
  | .next (.waits acc' l, c) => .next (false, put c fun q => { q with access := some acc', spots := l })
  | .next (.held, c) => .next (false, c)
  | .fault f => .fault f
  | .refused r => .refused r

/-- One waiter tried again. -/
def Chip.serve (g : Mgmt) (c : Chip) (w : Waiter) : Served :=
  let c := c.focus w.tid
  match w.entry with
  | none =>
    match c.t.run with
    | .wait (.access dest acc l n warn la) => c.serveOwn g dest acc l n warn la
    | _ => .next (false, c)
  | some id =>
    match c.t.pend.find? fun (p : Pending) => decide (p.id = id) with
    | some p => match p.access with
      | some acc => c.servePending g p acc
      | none => .next (false, c)
    | none => .next (false, c)

/-- Waiters tried in their order, until one makes progress. -/
def Chip.servePass (g : Mgmt) : List Waiter → Chip → Served
  | [], c => .next (false, c)
  | w :: rest, c =>
    match c.serve g w with
    | .next (true, c) => .next (true, c)
    | .next (false, c) => Chip.servePass g rest c
    | .fault f => .fault f
    | .refused r => .refused r

/-- Waiters served, the earliest first, until none makes progress (R124). -/
def Chip.serveAll (g : Mgmt) : Nat → Chip → Out
  | 0, c => .next c
  | n + 1, c =>
    match Chip.servePass g c.waiters c with
    | .next (true, c) => Chip.serveAll g n c
    | .next (false, c) => .next c
    | .fault f => .fault f
    | .refused r => .refused r

/-! ## Conditions met -/

/-- Threads that wait for an instance in use arrive once it is free (R290). -/
def Chip.rearrive (g : Mgmt) : List TId → Chip → Out
  | [], c => .next c
  | tid :: rest, c =>
    match (c.thread tid).run with
    | .wait (.barrierFull k) =>
      let b := barrierGet c.barriers k
      if b.arr ≠ 0 && b.arr = b.need then Chip.rearrive g rest c
      else
        let c := c.focus tid
        let need := if k.scope = 0 then 1 else c.t.csr.barp.toNat
        let rel := ((c.agent c.t.agentId).lastRel).getD 0
        andThen ({ c with t := { c.t with run := .ready } }.arrive g k need rel) (Chip.rearrive g rest)
    | _ => Chip.rearrive g rest c

/-- Threads in `idle` whose event has come finish it (R311). -/
def Chip.endIdles (g : Mgmt) : List TId → Chip → Out
  | [], c => .next c
  | tid :: rest, c =>
    let t := c.thread tid
    let v := (c.die tid.die).evpend &&& t.csr.even
    match t.run with
    | .wait (.idle rd) =>
      if v = 0 then Chip.endIdles g rest c
      else
        let c := c.focus tid
        andThen ({ c with t := { c.t with run := .ready } }.putX g rd (v.setWidth 64)) (Chip.endIdles g rest)
    | _ => Chip.endIdles g rest c

/-- A page's entry holds TIER 0 or 1, or it has none any more (R90, log 25). -/
def Chip.atHome (c : Chip) (page : Dword) : Bool :=
  match c.pageEntry page with
  | some e => decide (entryTier e ≠ 2)
  | none => true

/-- What a saved task waits for has come: its pages are home, its join counter is 0, or the deque has room (R90, R254, R259,
R352). -/
def Chip.resumes (g : Mgmt) (c : Chip) (r : Resume) : Bool :=
  match r with
  | .join loc => match c.spotOf g (globalOf loc) with
    | (some s, _) => decide (Mem.word c.mem s.key = 0)
    | (none, _) => false
  | .page a => c.atHome a
  | .pages l => l.all c.atHome
  | .deque k => !dequeFull (c.core k).deque
  | _ => false

/-- Saved tasks whose waits are over become ready. -/
def Chip.wakeSaved (g : Mgmt) (c : Chip) : Chip :=
  { c with saved := c.saved.map fun (k : Saved) => if c.resumes g k.resume then { k with resume := .ready } else k }

/-- The leaders of gangs. -/
def Chip.leaders (c : Chip) : List TId :=
  (c.threads.filter fun e => decide (e.2.gangSize ≠ 0) && decide (e.2.gangMember = 0)).map (·.1)

/-- Everything that follows a step's instruction or event at once. -/
def Chip.settle (g : Mgmt) (c : Chip) : Out :=
  andThen (Chip.serveAll g (c.waiters.length + 1) c) fun c =>
    andThen (Chip.rearrive g (c.threads.map (·.1)) c) fun c =>
      andThen (Chip.endIdles g (c.threads.map (·.1)) c) fun c =>
        let c := c.leaders.foldl Chip.regroup c
        let c := lanes8.foldl (Chip.logNext g) c
        .next (c.wakeSaved g).settleLaunches

/-- Time passes: timers that it reaches expire, and monitors may take samples (R340, R341, R350). -/
def Chip.passTime (c : Chip) : Chip :=
  let c := c.owlUnseen
  let c := { c with timebase := c.timebase + BitVec.ofNat 64 (Config.elapsed c.steps), steps := c.steps + 1 }
  lanes8.foldl Chip.expireTimer c

/-! ## What may move next (R1, R246, log 3) -/

/-- A candidate for the next step; the parts of an event that are still to be drawn are left out of it. -/
inductive Mover where
  | thread (t : TId)
  | event (i : Instr)
  | outside
  | place (launch : Nat)
  | preempt (launch : Nat)
  | takeIn (k : CId) (source : WorkSource)
  | takeOn (k : CoreId) (source : WorkSource)
  | steal (victim : CoreId)
  | copyWord (k : CId) (entry : BitVec 5) (landed words : Nat) (streamed : Bool)
  | addCell (k : CId) (entry : BitVec 5) (count : Nat)
  deriving DecidableEq, Repr

/-- A thread's due result has come. -/
def Thread.dueReady (t : Thread) : Bool :=
  match t.pend.find? fun (p : Pending) => decide (p.rem = 0) with
  | some p => p.access.isNone
  | none => true

/-- What a thread may do next. -/
def Chip.threadMovers (c : Chip) (e : TId × Thread) : List Mover :=
  let (tid, t) := e
  let report : List Mover := if t.report.isSome && t.handler.isNone then [.event (.deferredReport tid)] else []
  match t.run with
  | .ready => if c.gangReady tid then [.thread tid] else []
  | .wait .retry => (if c.gangReady tid then [.thread tid] else []) ++ report
  | .wait .window => (if t.dueReady then [.event (.windowEndWrite tid)] else []) ++ report
  | .wait .taskEnd =>
    let ended := match t.task with | some k => c.jobsOver k.id | none => false
    (if t.pend.isEmpty then (if ended then [.event (.taskEnd tid)] else [])
      else if t.dueReady then [.event (.windowEndWrite tid)] else []) ++ report
  | .wait _ => report
  | _ => []

/-- What a job may do next (R141, R227). -/
def Job.movers (j : Job) : List Mover :=
  let k := j.cluster
  let e := j.entry
  let running := decide (j.state = .running)
  if j.state.over then []
  else match j.kind with
    | .cld p => if running then [.addCell k e p.count] else [.event (.cldJobStart k e)]
    | .pub _ _ => if running then [.event (.pubSwap k e)] else [.event (.copyJobStart k e)]
    | .cut _ _ _ _ => if running then [.event (.cutJobRun k e)] else [.event (.copyJobStart k e)]
    | .kvwalk _ _ _ _ _ =>
      if running then [.event (.kvwalkWordWrite k e), .event (.kvwalkHeaderPrefetch k e)] else [.event (.copyJobStart k e)]
    | kind => if running then [.copyWord k e j.landed kind.words j.streamed] else [.event (.copyJobStart k e)]

/-- What the Launch Units may do next for a launch. -/
def Launch.movers (l : Launch) : List Mover :=
  if l.finished then [.event (.completionTokenWrite l.id)]
  else if l.started.length < l.tasks then .place l.id :: (if l.prio = 0 then [] else [.preempt l.id])
  else []

/-- Launch queues with an entry to read (R344). -/
def Chip.queueMovers (c : Chip) : List Mover :=
  (lanes8.map fun d => ([0, 1, 2, 3] : List (BitVec 2)).filterMap fun q =>
    let r := (c.die d).queue q
    if r.lqcons = r.lqprod || r.lqsize = 0 then none else some (Mover.event (.launchQueueRead d q))).flatten

/-- Work that a FREE thread may take (R256). -/
def Chip.workMovers (c : Chip) : List Mover :=
  (c.saved.filterMap fun s =>
    if s.readyNow then
      some (if s.pinned then Mover.takeOn ⟨s.cluster.cx, s.cluster.cy, s.core⟩ (.saved s.task.id)
        else .takeIn s.cluster (.saved s.task.id))
    else none) ++
  (c.clusters.map fun e => (if e.2.modeZero.isEmpty then [] else [Mover.takeIn e.1 .modeZero]) ++
    (if e.2.hints.isEmpty then [] else [Mover.takeIn e.1 .hint])).flatten ++
  (c.cores.map fun e => if e.2.deque.isEmpty then [] else [Mover.takeOn e.1 .deque, .steal e.1]).flatten ++
  (c.walks.map fun w => [Mover.event (.hintWalkHop w.item.id), .takeIn w.here (.walk w.item.id)]).flatten

/-- What the Den may do next (R326, R332). -/
def Chip.denMovers (c : Chip) : List Mover :=
  (c.den.map fun e => match e.2 with
    | .parked k => (k.pages.map fun p =>
        (if c.denT1 = 0 then [] else [Mover.event (.denDemoteTier1 p)]) ++
        (if c.denT2 = 0 then [] else [Mover.event (.denDemoteFlash p)])).flatten
    | .woken _ _ _ frame s2 _ =>
      (if frame.isNone then [Mover.event (.denStage1Frame e.1)] else []) ++ s2.map fun p => Mover.event (.pagePromotionDone p)
    | .pending _ _ => []).flatten ++
  (c.stage3.map fun x => x.pages.map fun p => Mover.event (.pagePromotionDone p)).flatten ++
  c.promoting.map fun p => Mover.event (.pagePromotionDone p)

/-- Everything on the module that may move next. -/
def Chip.movers (c : Chip) : List Mover :=
  (c.threads.map c.threadMovers).flatten ++ (c.jobs.map Job.movers).flatten ++ c.queueMovers ++
    (c.launches.map Launch.movers).flatten ++ c.workMovers ++ c.denMovers ++
    (c.zeroing.map fun e => Mover.event (.pageZero e.1 e.2.1)) ++
    (lanes8.map fun d => (c.die d).returning.map fun f => Mover.event (.shadowFrameReturn d f)).flatten ++
    (c.triggers.map fun e => Mover.event (.squirrelRun e.1 e.2)) ++
    (c.asked.map fun e => Mover.event (.hoardFill e.1 e.2)) ++
    (c.hoard.map fun h => Mover.event (.hoardDrop h.owner h.cell)) ++
    (c.remotes.map fun r => Mover.event (.remoteFail r.tid)) ++
    (c.owls.filterMap fun o => if o.due c.timebase then some (Mover.event (.owlLevelSample o.unit)) else none)

/-- A thread drawn of a core, of a cluster, and of a die or the module. -/
def Chip.drawThread (c : Chip) (k : CoreId) : TId × Chip :=
  let (n, c) := c.draw Config.threads
  (⟨k.cx, k.cy, k.core, n⟩, c)
def Chip.drawIn (c : Chip) (k : CId) : TId × Chip :=
  let (n, c) := c.draw Config.cores
  c.drawThread ⟨k.cx, k.cy, n⟩
def Chip.drawOn (c : Chip) (die : Option (BitVec 3)) : TId × Chip :=
  let (x, c) := c.draw (if die.isSome then 50 else Config.meshX)
  let (y, c) := c.draw (if die.isSome then 50 else Config.meshY)
  let d := (die.getD 0).toNat
  c.drawIn ⟨50 * (d % 4) + x, 50 * (d / 4) + y⟩

/-- The event of a candidate, its open parts drawn. -/
def Chip.drawEvent (c : Chip) : Mover → Option Instr × Chip
  | .thread _ => (none, c)
  | .outside => (none, c)
  | .event i => (some i, c)
  | .place launch =>
    match c.launchOf launch with
    | some l =>
      let (n, c) := c.draw l.tasks
      let (t, c) := c.drawOn (if l.steal = 2 then none else some l.die)
      (some (.launchTaskPlace launch n t), c)
    | none => (none, c)
  | .preempt launch =>
    let running := c.threads.filter fun e => e.2.task.isSome
    let (n, c) := c.draw running.length
    match running[n]? with
    | some e => (some (.preemption launch e.1), c)
    | none => (none, c)
  | .takeIn k source =>
    let (t, c) := c.drawIn k
    (some (.takeWork t source), c)
  | .takeOn k source =>
    let (t, c) := c.drawThread k
    (some (.takeWork t source), c)
  | .steal victim =>
    let (t, c) := c.drawOn none
    (some (.takeWork t (.steal victim)), c)
  | .copyWord k e landed words streamed =>
    if streamed then (some (.copyJobWordWrite k e landed), c)
    else
      let (n, c) := c.draw words
      (some (.copyJobWordWrite k e n), c)
  | .addCell k e count =>
    let (n, c) := c.draw count
    (some (.cldCellAdd k e (BitVec.ofNat 6 n)), c)

/-- The candidates for the next step: those of the module while its main side runs, and the outside world. -/
def State.movers (s : State) : List Mover :=
  (if s.runs then s.chip.movers ++ (if s.mgmt.bootst = 2 then [Mover.event .bootVerifyDone] else []) else []) ++
    (if s.env.isEmpty then [] else [.outside])

/-- The next step's mover chosen: any of the candidates (R1, R246). -/
def State.pick (s : State) : State :=
  let l := s.movers
  let (i, c) := s.chip.draw l.length
  match l[i]? with
  | none => s
  | some (.thread t) => { s with chip := c.focus t }
  | some .outside => { s with chip := c, inbox := s.env.take 1, env := s.env.drop 1 }
  | some m =>
    let (e, c) := c.drawEvent m
    { s with chip := c, inbox := e.toList }

/-- What follows the instruction or event of a step. -/
def State.after (s : State) : Host.Outcome State Fault Refusal :=
  if s.runs then
    match s.chip.passTime.settle s.mgmt with
    | .next c => .next { s with chip := c }.pick
    | .fault f => .fault f
    | .refused r => .refused r
  else .next s.pick

/-! ## An instruction placed (log 14) -/

/-- The code page's and the frame's global addresses, and their frames, of a placed instruction. -/
def placedCode : Dword := 0xFFF0000000000000
def placedFrame : Dword := 0xFFF0000000200000

/-- The table that maps them: an L1, an L2 and two L3 entries of die 0 (R84, R85). -/
def placedTable (m : List Host.Cell) : List Host.Cell :=
  let put (m : List Host.Cell) (a : Nat) (v : Dword) : List Host.Cell := Mem.write m a (bytesOfDword v)
  put (put (put (put m 0x2000 0x8001) 0x8000 0x4001) 0x4000 0x0001000000200001) 0x4008 0x400001

/-- The thread that runs a placed instruction: a user task's, with a frame (R244, R301). -/
def placedThread : Thread :=
  { Thread.reset with
    pc := placedCode, run := .ready, csr := { Csrs.reset with tframe := placedFrame, ldkey := 1 }
    task := some ⟨1, 1, none, 0, 0, 0, 0, [0, 0, 0, 0]⟩ }

/-- An instruction of nbits bits placed where the next step fetches: code and its mapping, a task, and its thread chosen
(log 14). -/
def State.place (s : State) (nbits w : Nat) : State :=
  let tid : TId := ⟨1, 0, 0, 0⟩
  let c := s.chip.focus tid
  let d := c.die 0
  let c := c.setDie 0 { d with etroot := 0x2001, spans := [] }
  { s with
    mgmt := { s.mgmt with powered := true, stopped := false, denwin := 0 }
    inbox := []
    chip := { c with
      t := placedThread
      mem := Mem.write (placedTable c.mem) 0x200000 (bytesOfWord (BitVec.ofNat 32 (w % 2 ^ nbits)))
      nextTask := max c.nextTask 2 } }

end Sys2Proof.Machine
end

