-- ==== Sys2Proof/Machine/Control.lean ====
section
/-! DEFINITION. Branches, calls, hardware loops and the repeat prefix (R50 to R52, R268 to R271). -/

namespace Sys2Proof.Machine

/-- A conditional branch (R268). -/
def branch (cond : Dword → Dword → Bool) (ra rb : Reg) (off : BitVec 17) (s : State) : Host.Outcome State Fault Refusal :=
  s.run fun g c =>
    if cond (c.t.getX ra) (c.t.getX rb) then c.finish g none (branchTarget c.t.pc off) true
    else c.finish g none (c.t.pc + 4) false

/-- beq (R268). -/
def execBeq (ra rb : Reg) (off : BitVec 17) (s : State) : Host.Outcome State Fault Refusal :=
  branch (fun a b => decide (a = b)) ra rb off s

/-- bne (R268). -/
def execBne (ra rb : Reg) (off : BitVec 17) (s : State) : Host.Outcome State Fault Refusal :=
  branch (fun a b => decide (a ≠ b)) ra rb off s

/-- blt (R268). -/
def execBlt (ra rb : Reg) (off : BitVec 17) (s : State) : Host.Outcome State Fault Refusal :=
  branch (fun a b => a.slt b) ra rb off s

/-- bge (R268). -/
def execBge (ra rb : Reg) (off : BitVec 17) (s : State) : Host.Outcome State Fault Refusal :=
  branch (fun a b => !a.slt b) ra rb off s

/-- bltu (R268). -/
def execBltu (ra rb : Reg) (off : BitVec 17) (s : State) : Host.Outcome State Fault Refusal :=
  branch (fun a b => a.ult b) ra rb off s

/-- bgeu (R268). -/
def execBgeu (ra rb : Reg) (off : BitVec 17) (s : State) : Host.Outcome State Fault Refusal :=
  branch (fun a b => !a.ult b) ra rb off s

/-- jal (R269). -/
def execJal (xd : Reg) (off : BitVec 17) (s : State) : Host.Outcome State Fault Refusal :=
  s.run fun g c =>
    Chip.finish g { c with t := c.t.setX xd (c.t.pc + 4) } none (branchTarget c.t.pc off) false

/-- jalr (R269): the source is read before the link is written. -/
def execJalr (xd xa : Reg) (imm : BitVec 12) (s : State) : Host.Outcome State Fault Refusal :=
  s.run fun g c =>
    let t := c.t.getX xa + immediate imm
    if t.getLsbD 0 then c.raise g Cause.misalign t 2
    else Chip.finish g { c with t := c.t.setX xd (c.t.pc + 4) } none t false

/-- loop (R270). -/
def execLoop (xs : Reg) (len : BitVec 17) (s : State) : Host.Outcome State Fault Refusal :=
  s.run fun g c => c.enterLoop g ((c.t.getX xs).extractLsb' 0 32) len

/-- loopm (R270): its count is read as `ldw.ff.acq.sy` reads, with its faults and its wait. -/
def execLoopm (xb : Reg) (off : BitVec 4) (len : BitVec 17) (s : State) : Host.Outcome State Fault Refusal :=
  s.run fun g c =>
    c.access g 0 (.loop len) (.sync .ldwFf true false 5 (addrLoopm (c.t.getX xb) off) 0 none) 0

/-- The repeat prefix (R50 to R52): the instruction after it is checked; its repeats then execute, from repeat DONE on
where ACT is 1. -/
def execRep (b a d : Bool) (count : BitVec 6) (s : State) : Host.Outcome State Fault Refusal :=
  s.run fun g c =>
    let n := count.toNat + 1
    match c.fetch g (c.t.pc + 2) with
    | (.instr i w, c) =>
      if repeatAllowed i d a b n then
        let t := c.t
        let repc := if t.repc.getLsbD 7 then t.repc else repcAct
        .next { c with t := { t with rep := some ⟨t.pc, n, b, a, d⟩, repc := repc, pc := t.pc + 2 } }
      else c.illegalRepeat g (instrWord (.rep b a d count)) w
    | (.reserved w, c) => c.illegalRepeat g (instrWord (.rep b a d count)) w
    | (.fails cause info, c) => c.raise g cause (c.t.pc + 2) info
    | (.absent page, c) => c.absentStop g page (c.t.pc + 2) (accessInfo .fetch 0)
    | (.held, c) => c.hold

end Sys2Proof.Machine
end

