-- ==== Sys2Proof/Machine/Lane.lean ====
section
/-! DEFINITION. Integer lane, mask and cross-lane instructions (R186 to R192). -/

namespace Sys2Proof.Machine

/-- A two-source lane instruction of n bytes under a mask, with its fallback code (R56, R186). -/
def lanes2 (n : Dword) (code : Byte) (f : Word → Word → Word) (mk : BitVec 3) (vd va vb : Reg) (s : State) :
    Host.Outcome State Fault Refusal :=
  s.run fun g c => c.putV g n vd (c.t.getM mk) (mapLanes f (c.t.getV va) (c.t.getV vb)) code

/-- A mask instruction (R189). -/
def mask2 (f : Byte → Byte → Byte) (md ma mb : BitVec 3) (s : State) : Host.Outcome State Fault Refusal :=
  s.run fun g c => c.putM g md (f (c.t.getM ma) (c.t.getM mb)) 0

/-- The fallback of `.u` without `.sat` (R56 code 0x01). -/
def unsignedWarn (u sat : Bool) : Byte := if u && !sat then 0x01 else 0

/-- The compact form's fields widened to those of its 32-bit instruction (R30). -/
def wideMask (mk : BitVec 2) : BitVec 3 := 0#1 ++ mk
def wideV (v : BitVec 4) : Reg := 0#1 ++ v

/-- A cross-lane read of lanes of `source`, chosen by `index`: with `.z` an inactive read gives 0, without it the
instruction traps LANE_INACTIVE (R190). -/
def crossLane (z : Bool) (m : Byte) (index : BitVec 3 → BitVec 3) (source : BitVec 3 → Word)
    (vd : Reg) (g : Mgmt) (c : Chip) : Out :=
  let bad := inactiveReads m index
  if !z && bad ≠ 0 then c.raise g Cause.laneInactive 0 (bad.setWidth 64)
  else c.putV g 4 vd m (Lanes.of fun i => if active m (index i) then source i else 0) 0

/-- vadd (R187). -/
def execVadd (u sat : Bool) (mk : BitVec 3) (vd va vb : Reg) (s : State) : Host.Outcome State Fault Refusal :=
  lanes2 4 (unsignedWarn u sat) (laneArith (· + ·) u sat) mk vd va vb s

/-- vsub (R187). -/
def execVsub (u sat : Bool) (mk : BitVec 3) (vd va vb : Reg) (s : State) : Host.Outcome State Fault Refusal :=
  lanes2 4 (unsignedWarn u sat) (laneArith (· - ·) u sat) mk vd va vb s

/-- vmul (R187). -/
def execVmul (u sat : Bool) (mk : BitVec 3) (vd va vb : Reg) (s : State) : Host.Outcome State Fault Refusal :=
  lanes2 4 (unsignedWarn u sat) (laneArith (· * ·) u sat) mk vd va vb s

/-- vmulh (R187). -/
def execVmulh (u : Bool) (mk : BitVec 3) (vd va vb : Reg) (s : State) : Host.Outcome State Fault Refusal :=
  lanes2 4 0 (laneMulHigh u) mk vd va vb s

/-- vand (R187). -/
def execVand (mk : BitVec 3) (vd va vb : Reg) (s : State) : Host.Outcome State Fault Refusal :=
  lanes2 4 0 (fun a b => a &&& b) mk vd va vb s

/-- vor (R187). -/
def execVor (mk : BitVec 3) (vd va vb : Reg) (s : State) : Host.Outcome State Fault Refusal :=
  lanes2 4 0 (fun a b => a ||| b) mk vd va vb s

/-- vxor (R187). -/
def execVxor (mk : BitVec 3) (vd va vb : Reg) (s : State) : Host.Outcome State Fault Refusal :=
  lanes2 4 0 (fun a b => a ^^^ b) mk vd va vb s

/-- vshl (R187). -/
def execVshl (mk : BitVec 3) (vd va vb : Reg) (s : State) : Host.Outcome State Fault Refusal :=
  lanes2 4 0 (fun a b => a <<< laneShift b) mk vd va vb s

/-- vshr (R187). -/
def execVshr (mk : BitVec 3) (vd va vb : Reg) (s : State) : Host.Outcome State Fault Refusal :=
  lanes2 4 0 (fun a b => a >>> laneShift b) mk vd va vb s

/-- vsra (R187). -/
def execVsra (mk : BitVec 3) (vd va vb : Reg) (s : State) : Host.Outcome State Fault Refusal :=
  lanes2 4 0 (fun a b => a.sshiftRight (laneShift b)) mk vd va vb s

/-- vmin (R187). -/
def execVmin (u : Bool) (mk : BitVec 3) (vd va vb : Reg) (s : State) : Host.Outcome State Fault Refusal :=
  lanes2 4 0 (laneMin u) mk vd va vb s

/-- vmax (R187). -/
def execVmax (u : Bool) (mk : BitVec 3) (vd va vb : Reg) (s : State) : Host.Outcome State Fault Refusal :=
  lanes2 4 0 (laneMax u) mk vd va vb s

/-- vsel (R187: the mask selects, and every lane is written). -/
def execVsel (mk : BitVec 3) (vd va vb : Reg) (s : State) : Host.Outcome State Fault Refusal :=
  s.run fun g c => c.putV g 4 vd 0xFF (mergeLanes (c.t.getM mk) (c.t.getV va) (c.t.getV vb)) 0

/-- vbcast (R187). -/
def execVbcast (mk : BitVec 3) (vd xa : Reg) (s : State) : Host.Outcome State Fault Refusal :=
  s.run fun g c => c.putV g 4 vd (c.t.getM mk) (Lanes.of fun _ => (c.t.getX xa).extractLsb' 0 32) 0

/-- vpopc (R187). -/
def execVpopc (mk : BitVec 3) (vd va : Reg) (s : State) : Host.Outcome State Fault Refusal :=
  lanes2 4 0 (fun a _ => BitVec.ofNat 32 (popcount a 32)) mk vd va va s

/-- vclz (R187). -/
def execVclz (mk : BitVec 3) (vd va : Reg) (s : State) : Host.Outcome State Fault Refusal :=
  lanes2 4 0 (fun a _ => BitVec.ofNat 32 (leadingZeros a 32)) mk vd va va s

/-- vcmp (R188). -/
def execVcmp (u : Bool) (cc : BitVec 2) (mk md : BitVec 3) (va vb : Reg) (s : State) : Host.Outcome State Fault Refusal :=
  s.run fun g c =>
    let m := c.t.getM mk
    let a := c.t.getV va
    let b := c.t.getV vb
    c.putM g md (maskOf fun i => active m i && laneCompare cc u (a.get i) (b.get i))
      (if u && (decide (cc = 0) || decide (cc = 1)) then 0x02 else 0)

/-- vperm (R190, R191). -/
def execVperm (z : Bool) (mk : BitVec 3) (vd va vb : Reg) (s : State) : Host.Outcome State Fault Refusal :=
  s.run fun g c =>
    let index := fun i => ((c.t.getV vb).get i).extractLsb' 0 3
    crossLane z (c.t.getM mk) index (fun i => (c.t.getV va).get (index i)) vd g c

/-- vshuf (R190, R191). -/
def execVshuf (z : Bool) (mk : BitVec 3) (vd va xb : Reg) (s : State) : Host.Outcome State Fault Refusal :=
  s.run fun g c =>
    let sel := fun (i : BitVec 3) => (c.t.getX xb).extractLsb' (4 * i.toNat) 4
    let index := fun i => (sel i).extractLsb' 0 3
    crossLane z (c.t.getM mk) index
      (fun i => if (sel i).getLsbD 3 then (c.t.getV (va + 1)).get (index i) else (c.t.getV va).get (index i)) vd g c

/-- vext (R190, R191). -/
def execVext (z : Bool) (mk : BitVec 3) (xd va xb : Reg) (s : State) : Host.Outcome State Fault Refusal :=
  s.run fun g c =>
    let j := (c.t.getX xb).extractLsb' 0 3
    if active (c.t.getM mk) j then c.putX g xd (((c.t.getV va).get j).signExtend 64)
    else if z then c.putX g xd 0
    else c.raise g Cause.laneInactive 0 ((maskOf fun i => decide (i = j)).setWidth 64)

/-- vins (R191). -/
def execVins (mk : BitVec 3) (vd xa xb : Reg) (s : State) : Host.Outcome State Fault Refusal :=
  s.run fun g c =>
    let j := (c.t.getX xb).extractLsb' 0 3
    c.putV g 4 vd (maskOf fun i => decide (i = j) && active (c.t.getM mk) j)
      (Lanes.of fun _ => (c.t.getX xa).extractLsb' 0 32) 0

/-- vbext (R191). -/
def execVbext (mk : BitVec 3) (vd va vb : Reg) (s : State) : Host.Outcome State Fault Refusal :=
  s.run fun g c => c.putV g 4 vd (c.t.getM mk)
    (Lanes.of fun i => laneField ((c.t.getV va).get i) ((c.t.getV (va + 1)).get i) ((c.t.getV vb).get i)) 0

/-- vred (R192). -/
def execVred (u : Bool) (op mk : BitVec 3) (xd va : Reg) (s : State) : Host.Outcome State Fault Refusal :=
  s.run fun g c =>
    let code : Byte := if u && decide (op ≠ 1) && decide (op ≠ 2) then 0x03 else 0
    let v := reduceLanes op u (activeLanes (c.t.getM mk) (c.t.getV va))
    Chip.next g { c with t := (c.t.setX xd v).warn code c.t.pc } 4

/-- mand (R189). -/
def execMand (md ma mb : BitVec 3) (s : State) : Host.Outcome State Fault Refusal :=
  mask2 (fun a b => a &&& b) md ma mb s

/-- mor (R189). -/
def execMor (md ma mb : BitVec 3) (s : State) : Host.Outcome State Fault Refusal :=
  mask2 (fun a b => a ||| b) md ma mb s

/-- mxor (R189). -/
def execMxor (md ma mb : BitVec 3) (s : State) : Host.Outcome State Fault Refusal :=
  mask2 (fun a b => a ^^^ b) md ma mb s

/-- mnot (R189). -/
def execMnot (md ma : BitVec 3) (s : State) : Host.Outcome State Fault Refusal :=
  mask2 (fun a _ => ~~~a) md ma ma s

/-- mpop (R189). -/
def execMpop (xd : Reg) (ma : BitVec 3) (s : State) : Host.Outcome State Fault Refusal :=
  s.run fun g c => c.putX g xd (BitVec.ofNat 64 (popcount (c.t.getM ma) 8))

/-- mset (R189). -/
def execMset (md : BitVec 3) (imm : BitVec 8) (s : State) : Host.Outcome State Fault Refusal :=
  s.run fun g c => c.putM g md imm 0

/-- vor16 (R30: the plain form of vor on two addresses). -/
def execVor16 (mk : BitVec 2) (vd va : BitVec 4) (s : State) : Host.Outcome State Fault Refusal :=
  lanes2 2 0 (fun a b => a ||| b) (wideMask mk) (wideV vd) (wideV vd) (wideV va) s

/-- vadd16 (R30: the plain form of vadd on two addresses). -/
def execVadd16 (mk : BitVec 2) (vd va : BitVec 4) (s : State) : Host.Outcome State Fault Refusal :=
  lanes2 2 0 (laneArith (· + ·) false false) (wideMask mk) (wideV vd) (wideV vd) (wideV va) s

/-- vsub16 (R30: the plain form of vsub on two addresses). -/
def execVsub16 (mk : BitVec 2) (vd va : BitVec 4) (s : State) : Host.Outcome State Fault Refusal :=
  lanes2 2 0 (laneArith (· - ·) false false) (wideMask mk) (wideV vd) (wideV vd) (wideV va) s

/-- vmul16 (R30: the plain form of vmul on two addresses). -/
def execVmul16 (mk : BitVec 2) (vd va : BitVec 4) (s : State) : Host.Outcome State Fault Refusal :=
  lanes2 2 0 (laneArith (· * ·) false false) (wideMask mk) (wideV vd) (wideV vd) (wideV va) s

/-- vand16 (R30: the plain form of vand on two addresses). -/
def execVand16 (mk : BitVec 2) (vd va : BitVec 4) (s : State) : Host.Outcome State Fault Refusal :=
  lanes2 2 0 (fun a b => a &&& b) (wideMask mk) (wideV vd) (wideV vd) (wideV va) s

/-- vxor16 (R30: the plain form of vxor on two addresses). -/
def execVxor16 (mk : BitVec 2) (vd va : BitVec 4) (s : State) : Host.Outcome State Fault Refusal :=
  lanes2 2 0 (fun a b => a ^^^ b) (wideMask mk) (wideV vd) (wideV vd) (wideV va) s

/-- vshl16 (R30: the plain form of vshl on two addresses). -/
def execVshl16 (mk : BitVec 2) (vd va : BitVec 4) (s : State) : Host.Outcome State Fault Refusal :=
  lanes2 2 0 (fun a b => a <<< laneShift b) (wideMask mk) (wideV vd) (wideV vd) (wideV va) s

/-- vshr16 (R30: the plain form of vshr on two addresses). -/
def execVshr16 (mk : BitVec 2) (vd va : BitVec 4) (s : State) : Host.Outcome State Fault Refusal :=
  lanes2 2 0 (fun a b => a >>> laneShift b) (wideMask mk) (wideV vd) (wideV vd) (wideV va) s

/-- vsra16 (R30: the plain form of vsra on two addresses). -/
def execVsra16 (mk : BitVec 2) (vd va : BitVec 4) (s : State) : Host.Outcome State Fault Refusal :=
  lanes2 2 0 (fun a b => a.sshiftRight (laneShift b)) (wideMask mk) (wideV vd) (wideV vd) (wideV va) s

/-- vmin16 (R30: the plain form of vmin on two addresses). -/
def execVmin16 (mk : BitVec 2) (vd va : BitVec 4) (s : State) : Host.Outcome State Fault Refusal :=
  lanes2 2 0 (laneMin false) (wideMask mk) (wideV vd) (wideV vd) (wideV va) s

/-- vmax16 (R30: the plain form of vmax on two addresses). -/
def execVmax16 (mk : BitVec 2) (vd va : BitVec 4) (s : State) : Host.Outcome State Fault Refusal :=
  lanes2 2 0 (laneMax false) (wideMask mk) (wideV vd) (wideV vd) (wideV va) s

end Sys2Proof.Machine
end

