-- ==== Sys2Proof/Machine/Float.lean ====
section
/-! DEFINITION. Floating-point lanes, conversions, the exponential and the Hare's lanes (R198 to R217). -/

namespace Sys2Proof.Machine

/-! ## FP32 lanes -/

/-- A lane's result and the flags it sets. -/
abbrev LaneResult := Word × Word

/-- FPCTL.FTZ (R201). -/
def Thread.ftz (t : Thread) : Bool := t.csr.fpctl.getLsbD 3
/-- FPCTL.RM (R200). -/
def Thread.rm (t : Thread) : BitVec 3 := t.csr.fpctl.extractLsb' 0 3

/-- A lane as an FP32 value; with FTZ a subnormal is a zero of its sign (R201). -/
def fp32Of (ftz : Bool) (w : Word) : Value :=
  if ftz && decide (w.extractLsb' 23 8 = 0) then .zero (w.getLsbD 31) else decodeElement .fp32 w.toNat
/-- The canonical NaN of FP32 (R105). -/
def nan32 : Word := 0x7FC00000
def inf32 (neg : Bool) : Word := if neg then 0xFF800000 else 0x7F800000
def zero32 (neg : Bool) : Word := if neg then 0x80000000 else 0
/-- A value rounded into FP32 with its flags. -/
def toFp32 (v : Value) (mode : Rounding) (ftz : Bool) : LaneResult :=
  let r := cvt v .fp32 mode false ftz
  (BitVec.ofNat 32 r.bits, r.flags)
/-- A lane with a NaN made canonical, and flushed where ftz. -/
def plain32 (ftz : Bool) (w : Word) : Word := BitVec.ofNat 32 (cvt (fp32Of ftz w) .fp32 .rne false false).bits

/-- The rounding of lane i of an instruction that rounds by a mode's code (R202). -/
def laneRounding (t : Thread) (rm : BitVec 3) (f : Format) (i : BitVec 3) : Rounding :=
  roundingOf rm t.csr.srseed f (t.csr.srctr.extractLsb' 0 61 ++ i)

/-- The flags of the active lanes (R199). -/
def activeFlags (m : Byte) (r : Lanes LaneResult) : Word :=
  (lanes8.filter (active m)).foldl (fun acc i => acc ||| (r.get i).2) 0

/-- SRCTR counts one execution that rounds by SR (R202). -/
def Thread.countSr (t : Thread) (rm : BitVec 3) : Thread :=
  if rm = 4 then { t with csr := { t.csr with srctr := t.csr.srctr + 1 } } else t

/-- An instruction of n bytes that writes active lanes and their flags (R198, R199). -/
def Chip.putFloat (g : Mgmt) (c : Chip) (n : Dword) (vd : Reg) (m : Byte) (r : Lanes LaneResult) (rm : BitVec 3) : Out :=
  Chip.next g { c with t := ((c.t.setV vd m (Lanes.of fun i => (r.get i).1)).setFlags (activeFlags m r)).countSr rm } n

/-! ## Arithmetic (R204, R205) -/

/-- A sum or product of lanes: NaN, invalid, or rounded (R204). -/
def settleLane (r : Value × Bool) (mode : Rounding) (ftz : Bool) : LaneResult :=
  if r.2 then (nan32, flagInvalid) else toFp32 r.1 mode ftz

def laneAdd (mode : Rounding) (ftz : Bool) (a b : Word) : LaneResult :=
  settleLane (addValues mode (fp32Of ftz a) (fp32Of ftz b)) mode ftz
def laneSub (mode : Rounding) (ftz : Bool) (a b : Word) : LaneResult :=
  settleLane (addValues mode (fp32Of ftz a) (fp32Of ftz b).negate) mode ftz
def laneMul (mode : Rounding) (ftz : Bool) (a b : Word) : LaneResult :=
  settleLane (mulValues (fp32Of ftz a) (fp32Of ftz b)) mode ftz
/-- a·b + c with one rounding (R204). -/
def laneFma (mode : Rounding) (ftz : Bool) (a b c : Word) : LaneResult :=
  let a := fp32Of ftz a
  let b := fp32Of ftz b
  let c := fp32Of ftz c
  if a = .nan || b = .nan || c = .nan then (nan32, 0)
  else
    let (p, bad) := mulValues a b
    if bad then (nan32, flagInvalid) else settleLane (addValues mode p c) mode ftz

/-- An order of FP32 values with −0 below +0 (R205). -/
def belowOrder (a b : Value) : Bool :=
  a.lt b || (a.eq b && (match a, b with | .fin true 0 _, .fin false 0 _ => true | _, _ => false))
/-- vfmin and vfmax (R205). -/
def laneFmin (ftz : Bool) (a b : Word) : Word :=
  if fp32Of ftz a = .nan || fp32Of ftz b = .nan then nan32
  else if belowOrder (fp32Of ftz b) (fp32Of ftz a) then plain32 ftz b else plain32 ftz a
def laneFmax (ftz : Bool) (a b : Word) : Word :=
  if fp32Of ftz a = .nan || fp32Of ftz b = .nan then nan32
  else if belowOrder (fp32Of ftz a) (fp32Of ftz b) then plain32 ftz b else plain32 ftz a
def laneAbs (a : Word) : Word := if fp32Of false a = .nan then nan32 else a &&& 0x7FFFFFFF
def laneNeg (a : Word) : Word := if fp32Of false a = .nan then nan32 else a ^^^ 0x80000000

/-- vfcmp by its code: eq, lt, le, un (R206). -/
def laneFcmp (cc : BitVec 2) (ftz : Bool) (a b : Word) : Bool :=
  let a := fp32Of ftz a
  let b := fp32Of ftz b
  match cc with
  | 0#2 => a.eq b
  | 1#2 => a.lt b
  | 2#2 => a.lt b || a.eq b
  | 3#2 => decide (a = .nan) || decide (b = .nan)

/-! ## vfred (R207) -/

/-- Two partial results of the tree. -/
def combine (f : Word → Word → LaneResult) (x y : Option LaneResult) : Option LaneResult :=
  match x, y with
  | some a, some b =>
    let (v, fl) := f a.1 b.1
    some (v, fl ||| a.2 ||| b.2)
  | some a, none => some a
  | none, y => y

/-- The fixed tree of eight lanes. -/
def reduceTree (f : Word → Word → LaneResult) (u : Lanes (Option LaneResult)) : Option LaneResult :=
  let k := combine f
  k (k (k u.l0 u.l1) (k u.l2 u.l3)) (k (k u.l4 u.l5) (k u.l6 u.l7))

/-- vfred by its op (R207). -/
def reduceFloat (op : BitVec 2) (ftz : Bool) (m : Byte) (a : Lanes Word) : LaneResult :=
  let f : Word → Word → LaneResult := match op with
    | 0#2 => laneAdd .rne ftz
    | 1#2 => fun x y => (laneFmin ftz x y, 0)
    | _ => fun x y => (laneFmax ftz x y, 0)
  let u : Lanes (Option LaneResult) := Lanes.of fun i => if active m i then some (plain32 ftz (a.get i), 0) else none
  (reduceTree f u).getD (match op with
    | 0#2 => (0, 0)
    | 1#2 => (inf32 false, 0)
    | _ => (inf32 true, 0))

/-! ## The exponential (R209 to R211) -/

/-- A product and a fused product rounded once to FP32 by RNE, with no flag (R209). -/
def mul32 (a b : Word) : Word := (laneMul .rne false a b).1
def fma32 (a b c : Word) : Word := (laneFma .rne false a b c).1

/-- The integer nearest a finite FP32 value, ties to even. -/
def nearest (w : Word) : Int :=
  match fp32Of false w with
  | .fin neg n e =>
    let q : Int := ((roundTo .rne neg n e false 0).1 : Nat)
    if neg then -q else q
  | _ => 0
/-- An integer of at most 24 bits in FP32. -/
def ofInt32 (n : Int) : Word := (toFp32 (.fin (decide (n < 0)) n.natAbs 0) .rne false).1

/-- The largest r below 2^k, above base, with r^p at most x. -/
def rootBelow (p x : Nat) : Nat → Nat → Nat
  | 0, base => base
  | k + 1, base => rootBelow p x k (if (base + 2 ^ k) ^ p ≤ x then base + 2 ^ k else base)

/-- T[j] = 2^(j/64) rounded to FP32 by RNE (R210): the mantissa with one guard bit is the 64th root of 2^(1536 + j). -/
def expTable (j : Nat) : Word :=
  BitVec.ofNat 32 ((rootBelow 64 (2 ^ (1536 + j)) 25 0 + 1) / 2 + 126 * 2 ^ 23)

/-- E(x) (R209). -/
def laneExp (x : Word) : LaneResult :=
  match fp32Of false x with
  | .nan => (nan32, 0)
  | .inf neg => (if neg then 0 else inf32 false, 0)
  | .fin neg num exp =>
    if !neg && !(Value.fin neg num exp).lt (.fin false 128 0) then (inf32 false, flagOverflow ||| flagInexact)
    else if neg && !(Value.fin true 128 0).lt (.fin neg num exp) then (0, flagUnderflow ||| flagInexact)
    else
      let n := nearest (mul32 x 0x42B8AA3B)
      let f := fma32 (ofInt32 (-n)) 0x3C317200 x
      let f := fma32 (ofInt32 (-n)) 0x32BFBE8E f
      let j := (n % 64).toNat
      let q := n / 64
      let g := fma32 0x3E2AAAAB f 0x3F000000
      let g := fma32 g f 0x3F800000
      let g := mul32 g f
      let m := fma32 (expTable j) g (expTable j)
      let r := match fp32Of false m with
        | .fin s a e => toFp32 (.fin s a (e + q)) .rne false
        | _ => (nan32, 0)
      (r.1, r.2 ||| (if num = 0 then 0 else flagInexact))

/-- One lane of vexpd (R211). -/
def laneExpd (a b : Word) : LaneResult :=
  match fp32Of false a, fp32Of false b with
  | .nan, _ => (nan32, 0)
  | _, .nan => (nan32, 0)
  | .inf true, _ => (0, 0)
  | .inf false, .inf false => (0x3F800000, 0)
  | .inf false, _ => (inf32 false, 0)
  | .fin _ _ _, .inf false => (0, 0)
  | .fin _ _ _, .inf true => (inf32 false, 0)
  | .fin _ _ _, .fin _ _ _ => laneExp (laneSub .rne false a b).1

/-! ## Logarithm, reciprocal and reciprocal square root (R213, R214) -/

/-- Bits of the fraction of log2 of x/2^200, x in [2^200, 2^201), most significant first: 120 squarings, each cut at
2^-200, so that the result lies below the logarithm by less than one unit of its last place. -/
def logBits : Nat → Nat → Nat → Nat
  | 0, _, acc => acc
  | n + 1, x, acc =>
    let y := x * x / 2 ^ 200
    if 2 ^ 201 ≤ y then logBits n (y / 2) (2 * acc + 1) else logBits n y (2 * acc)

/-- vlog2 of one lane (R213). -/
def laneLog2 (ftz : Bool) (a : Word) : LaneResult :=
  match fp32Of ftz a with
  | .nan => (nan32, 0)
  | .inf neg => if neg then (nan32, flagInvalid) else (inf32 false, 0)
  | .fin neg num exp =>
    if num = 0 then (inf32 true, flagDivZero)
    else if neg then (nan32, flagInvalid)
    else
      let k := bitLength num - 1
      let e := exp + k
      if num = 2 ^ k then toFp32 (.fin (decide (e < 0)) e.natAbs 0) .rne ftz
      else
        let f := logBits 120 (num * 2 ^ (200 - k)) 0
        let r := if e < 0 then convertFinite .fp32 .rne false ftz true (e.natAbs * 2 ^ 120 - f - 1) (-120) true
          else convertFinite .fp32 .rne false ftz false (e.natAbs * 2 ^ 120 + f) (-120) true
        (BitVec.ofNat 32 r.bits, r.flags)

/-- A quotient of two positive numbers, rounded once. -/
def quotient (mode : Rounding) (ftz : Bool) (neg : Bool) (num : Nat) (exp : Int) : LaneResult :=
  let q := 2 ^ 120 / num
  let r := convertFinite .fp32 mode false ftz neg q (-120 - exp) (decide (q * num ≠ 2 ^ 120))
  (BitVec.ofNat 32 r.bits, r.flags)

/-- vrcp of one lane (R213, R214). The table's "-1/a rounded" for a < 0 is read as the rounded 1/a, which is negative: a
DESIGN CHOICE (log 66). -/
def laneRcp (er : Bool) (mode : Rounding) (ftz : Bool) (a : Word) : LaneResult :=
  match fp32Of ftz a with
  | .nan => (nan32, 0)
  | .inf neg => (zero32 neg, 0)
  | .fin neg num exp =>
    if num = 0 then (if er then (0, flagEmptyRow) else (inf32 neg, flagDivZero))
    else quotient mode ftz neg num exp

/-- vrsqrt of one lane (R213): the square root of 2^(2k)/num, k = 100, with the exponent made even. -/
def laneRsqrt (mode : Rounding) (ftz : Bool) (a : Word) : LaneResult :=
  match fp32Of ftz a with
  | .nan => (nan32, 0)
  | .inf neg => if neg then (nan32, flagInvalid) else (0, 0)
  | .fin neg num exp =>
    if num = 0 then (inf32 neg, flagDivZero)
    else if neg then (nan32, flagInvalid)
    else
      let (num, exp) := if exp % 2 = 0 then (num, exp) else (2 * num, exp - 1)
      let r := rootBelow 2 (2 ^ 200 / num) 101 0
      let v := convertFinite .fp32 mode false ftz false r (-100 - exp / 2) (decide (r * r * num ≠ 2 ^ 200))
      (BitVec.ofNat 32 v.bits, v.flags)

/-! ## vfcvt (R208) -/

/-- The 256 bits of a v register: lane j holds bits [32j + 31 : 32j]. -/
def packLanes (l : Lanes Word) : BitVec 256 :=
  l.l7 ++ l.l6 ++ l.l5 ++ l.l4 ++ l.l3 ++ l.l2 ++ l.l1 ++ l.l0
def unpackLanes (p : BitVec 256) : Lanes Word := Lanes.of fun i => p.extractLsb' (32 * i.toNat) 32

/-- vfcvt.to (R208). -/
def packTo (t : Thread) (f : Format) (rm : BitVec 3) (sat : Bool) (a : Lanes Word) : Lanes Word × Word :=
  lanes8.foldl (fun (acc : Lanes Word × Word) k =>
    let r := cvt (fp32Of false (a.get k)) f (laneRounding t rm f k) sat false
    (unpackLanes (packLanes acc.1 ||| (BitVec.ofNat 256 r.bits <<< (f.width * k.toNat))), acc.2 ||| r.flags))
    (⟨0, 0, 0, 0, 0, 0, 0, 0⟩, 0)

/-- vfcvt.from (R208): exact for every format but int32. -/
def unpackFrom (f : Format) (a : Lanes Word) : Lanes LaneResult :=
  Lanes.of fun k =>
    let bits := ((packLanes a >>> (f.width * k.toNat)).toNat) % 2 ^ f.width
    toFp32 (decodeElement f bits) .rne false

/-- The lowest code of the fallbacks of a conversion (R56, R57). -/
def convertWarn (from_ : Bool) (rm : BitVec 3) (sat : Bool) (f : Format) : Byte :=
  if from_ then (if rm ≠ 0 then 0x07 else if sat then 0x08 else 0)
  else if sat && f.isInt then 0x06 else 0

/-! ## The instructions -/

/-- A two-source arithmetic instruction of n bytes that rounds by FPCTL.RM (R200, R204). -/
def float2 (n : Dword) (f : Rounding → Bool → Word → Word → LaneResult) (mk : BitVec 3) (vd va vb : Reg) (s : State) :
    Host.Outcome State Fault Refusal :=
  s.run fun g c =>
    let t := c.t
    c.putFloat g n vd (t.getM mk) (Lanes.of fun i =>
      f (laneRounding t t.rm .fp32 i) t.ftz ((t.getV va).get i) ((t.getV vb).get i)) t.rm

/-- A one-source instruction that rounds by FPCTL.RM. -/
def float1 (f : Rounding → Bool → Word → LaneResult) (mk : BitVec 3) (vd va : Reg) (s : State) :
    Host.Outcome State Fault Refusal :=
  s.run fun g c =>
    let t := c.t
    c.putFloat g 4 vd (t.getM mk) (Lanes.of fun i => f (laneRounding t t.rm .fp32 i) t.ftz ((t.getV va).get i)) t.rm

/-- An element-wise instruction that does not round by FPCTL.RM. -/
def floatExact (n : Dword) (f : Bool → Word → Word → LaneResult) (mk : BitVec 3) (vd va vb : Reg) (s : State) :
    Host.Outcome State Fault Refusal :=
  s.run fun g c =>
    let t := c.t
    c.putFloat g n vd (t.getM mk) (Lanes.of fun i => f t.ftz ((t.getV va).get i) ((t.getV vb).get i)) 0

/-- vfadd (R204). -/
def execVfadd (mk : BitVec 3) (vd va vb : Reg) (s : State) : Host.Outcome State Fault Refusal :=
  float2 4 laneAdd mk vd va vb s

/-- vfsub (R204). -/
def execVfsub (mk : BitVec 3) (vd va vb : Reg) (s : State) : Host.Outcome State Fault Refusal :=
  float2 4 laneSub mk vd va vb s

/-- vfmul (R204). -/
def execVfmul (mk : BitVec 3) (vd va vb : Reg) (s : State) : Host.Outcome State Fault Refusal :=
  float2 4 laneMul mk vd va vb s

/-- vfma (R204): reads vd. -/
def execVfma (mk : BitVec 3) (vd va vb : Reg) (s : State) : Host.Outcome State Fault Refusal :=
  s.run fun g c =>
    let t := c.t
    c.putFloat g 4 vd (t.getM mk) (Lanes.of fun i =>
      laneFma (laneRounding t t.rm .fp32 i) t.ftz ((t.getV va).get i) ((t.getV vb).get i) ((t.getV vd).get i)) t.rm

/-- vfmin (R205). -/
def execVfmin (mk : BitVec 3) (vd va vb : Reg) (s : State) : Host.Outcome State Fault Refusal :=
  floatExact 4 (fun ftz a b => (laneFmin ftz a b, 0)) mk vd va vb s

/-- vfmax (R205). -/
def execVfmax (mk : BitVec 3) (vd va vb : Reg) (s : State) : Host.Outcome State Fault Refusal :=
  floatExact 4 (fun ftz a b => (laneFmax ftz a b, 0)) mk vd va vb s

/-- vfabs (R205). -/
def execVfabs (mk : BitVec 3) (vd va : Reg) (s : State) : Host.Outcome State Fault Refusal :=
  floatExact 4 (fun _ a _ => (laneAbs a, 0)) mk vd va va s

/-- vfneg (R205). -/
def execVfneg (mk : BitVec 3) (vd va : Reg) (s : State) : Host.Outcome State Fault Refusal :=
  floatExact 4 (fun _ a _ => (laneNeg a, 0)) mk vd va va s

/-- vfcmp (R206). -/
def execVfcmp (cc : BitVec 2) (mk md : BitVec 3) (va vb : Reg) (s : State) : Host.Outcome State Fault Refusal :=
  s.run fun g c =>
    let t := c.t
    let m := t.getM mk
    c.putM g md (maskOf fun i => active m i && laneFcmp cc t.ftz ((t.getV va).get i) ((t.getV vb).get i)) 0

/-- vfred (R207). -/
def execVfred (op : BitVec 2) (mk : BitVec 3) (xd va : Reg) (s : State) : Host.Outcome State Fault Refusal :=
  s.run fun g c =>
    let r := reduceFloat op c.t.ftz (c.t.getM mk) (c.t.getV va)
    { c with t := c.t.setFlags r.2 }.putX g xd (r.1.setWidth 64)

/-- vexp (R209). -/
def execVexp (mk : BitVec 3) (vd va : Reg) (s : State) : Host.Outcome State Fault Refusal :=
  floatExact 4 (fun _ a _ => laneExp a) mk vd va va s

/-- vexpd (R211). -/
def execVexpd (mk : BitVec 3) (vd va vb : Reg) (s : State) : Host.Outcome State Fault Refusal :=
  floatExact 4 (fun _ a b => laneExpd a b) mk vd va vb s

/-- vlog2 (R213). -/
def execVlog2 (mk : BitVec 3) (vd va : Reg) (s : State) : Host.Outcome State Fault Refusal :=
  floatExact 4 (fun ftz a _ => laneLog2 ftz a) mk vd va va s

/-- vrcp and vrcp.er (R213, R214). -/
def execVrcp (er : Bool) (mk : BitVec 3) (vd va : Reg) (s : State) : Host.Outcome State Fault Refusal :=
  float1 (laneRcp er) mk vd va s

/-- vrsqrt (R213). -/
def execVrsqrt (mk : BitVec 3) (vd va : Reg) (s : State) : Host.Outcome State Fault Refusal :=
  float1 laneRsqrt mk vd va s

/-- vhare (R217). -/
def execVhare (mk : BitVec 3) (vd xa xb : Reg) (s : State) : Host.Outcome State Fault Refusal :=
  s.run fun g c =>
    let key := c.t.getX xa
    let stream := (c.t.getX (xa + 1)).extractLsb' 0 32
    c.putV g 4 vd (c.t.getM mk) (Lanes.of fun i =>
      let e := c.t.getX xb + i.setWidth 64
      hare key stream (e >>> 2) (e.extractLsb' 0 2)) 0

/-- vfcvt (R208): every lane takes part. -/
def execVfcvt (from_ : Bool) (rm : BitVec 3) (sat : Bool) (fmt : BitVec 4) (vd va : Reg) (s : State) : Host.Outcome State Fault Refusal :=
  s.run fun g c =>
    let f := formatOf4 fmt
    let a := c.t.getV va
    let code := convertWarn from_ rm sat f
    if from_ then
      let r := unpackFrom f a
      { c with t := c.t.setFlags (activeFlags 0xFF r) }.putV g 4 vd 0xFF (Lanes.of fun i => (r.get i).1) code
    else
      let (l, fl) := packTo c.t f rm sat a
      { c with t := (c.t.setFlags fl).countSr rm }.putV g 4 vd 0xFF l code

/-- vfadd, compact form (R30). -/
def execVfadd16 (mk : BitVec 2) (vd va : BitVec 4) (s : State) : Host.Outcome State Fault Refusal :=
  float2 2 laneAdd (wideMask mk) (wideV vd) (wideV vd) (wideV va) s

/-- vfsub, compact form (R30). -/
def execVfsub16 (mk : BitVec 2) (vd va : BitVec 4) (s : State) : Host.Outcome State Fault Refusal :=
  float2 2 laneSub (wideMask mk) (wideV vd) (wideV vd) (wideV va) s

/-- vfmul, compact form (R30). -/
def execVfmul16 (mk : BitVec 2) (vd va : BitVec 4) (s : State) : Host.Outcome State Fault Refusal :=
  float2 2 laneMul (wideMask mk) (wideV vd) (wideV vd) (wideV va) s

/-- vfmin, compact form (R30). -/
def execVfmin16 (mk : BitVec 2) (vd va : BitVec 4) (s : State) : Host.Outcome State Fault Refusal :=
  floatExact 2 (fun ftz a b => (laneFmin ftz a b, 0)) (wideMask mk) (wideV vd) (wideV vd) (wideV va) s

/-- vfmax, compact form (R30). -/
def execVfmax16 (mk : BitVec 2) (vd va : BitVec 4) (s : State) : Host.Outcome State Fault Refusal :=
  floatExact 2 (fun ftz a b => (laneFmax ftz a b, 0)) (wideMask mk) (wideV vd) (wideV vd) (wideV va) s

end Sys2Proof.Machine
end

