-- ==== Sys2Proof/Machine/Memory.lean ====
section
/-! DEFINITION. Loads, stores, vector accesses, fship and the watching of jobs (R72, R121, R152, R193 to R195). -/

namespace Sys2Proof.Machine

/-- A plain load of 2^size bytes (R121). -/
def plainLoad (size : BitVec 2) (la : BitVec 4) (off : BitVec 12) (xd xb : Reg) (s : State) :
    Host.Outcome State Fault Refusal :=
  s.run fun g c => c.access g la (.x xd) (.load size (addrM (c.t.getX xb) off)) 0

/-- A plain store of 2^size bytes (R121). -/
def plainStore (size : BitVec 2) (la : BitVec 4) (off : BitVec 12) (xs xb : Reg) (s : State) :
    Host.Outcome State Fault Refusal :=
  s.run fun g c => c.access g la .none (.store size (addrM (c.t.getX xb) off) (c.t.getX xs)) 0

/-- ld.b (R121). -/
def execLdB (la : BitVec 4) (off : BitVec 12) (xd xb : Reg) (s : State) : Host.Outcome State Fault Refusal :=
  plainLoad 0 la off xd xb s

/-- ld.h (R121). -/
def execLdH (la : BitVec 4) (off : BitVec 12) (xd xb : Reg) (s : State) : Host.Outcome State Fault Refusal :=
  plainLoad 1 la off xd xb s

/-- ld.w (R121). -/
def execLdW (la : BitVec 4) (off : BitVec 12) (xd xb : Reg) (s : State) : Host.Outcome State Fault Refusal :=
  plainLoad 2 la off xd xb s

/-- ld.d (R121). -/
def execLdD (la : BitVec 4) (off : BitVec 12) (xd xb : Reg) (s : State) : Host.Outcome State Fault Refusal :=
  plainLoad 3 la off xd xb s

/-- st.b (R121). -/
def execStB (la : BitVec 4) (off : BitVec 12) (xs xb : Reg) (s : State) : Host.Outcome State Fault Refusal :=
  plainStore 0 la off xs xb s

/-- st.h (R121). -/
def execStH (la : BitVec 4) (off : BitVec 12) (xs xb : Reg) (s : State) : Host.Outcome State Fault Refusal :=
  plainStore 1 la off xs xb s

/-- st.w (R121). -/
def execStW (la : BitVec 4) (off : BitVec 12) (xs xb : Reg) (s : State) : Host.Outcome State Fault Refusal :=
  plainStore 2 la off xs xb s

/-- st.d (R121). -/
def execStD (la : BitVec 4) (off : BitVec 12) (xs xb : Reg) (s : State) : Host.Outcome State Fault Refusal :=
  plainStore 3 la off xs xb s

/-- vld (R193). -/
def execVld (la : BitVec 4) (off : BitVec 5) (mk : BitVec 3) (vd xb : Reg) (s : State) : Host.Outcome State Fault Refusal :=
  s.run fun g c =>
    let m := c.t.getM mk
    c.access g la (.v (vd.extractLsb' 0 4) m) (.vload (addrV (c.t.getX xb) off) m) 0

/-- vst (R193). -/
def execVst (la : BitVec 4) (off : BitVec 5) (mk : BitVec 3) (vd xb : Reg) (s : State) : Host.Outcome State Fault Refusal :=
  s.run fun g c => c.access g la .none (.vstore (addrV (c.t.getX xb) off) (c.t.getM mk) (c.t.getV vd)) 0

/-- vldc (R194). -/
def execVldc (la grp : BitVec 4) (mk : BitVec 3) (vd xb : Reg) (s : State) : Host.Outcome State Fault Refusal :=
  s.run fun g c =>
    let m := c.t.getM mk
    c.access g la (.v (vd.extractLsb' 0 4) m) (.vldc (c.t.getX xb) grp m) 0

/-- vstc (R195). -/
def execVstc (la grp : BitVec 4) (mk : BitVec 3) (vd xb : Reg) (s : State) : Host.Outcome State Fault Refusal :=
  s.run fun g c =>
    let k := c.t.csr
    c.access g la .none (.vstc (c.t.getX xb) grp (c.t.getM mk) (c.t.getV vd) (k.cellcv.extractLsb' 0 3)
      (k.cellcv.getLsbD 3) k.srseed) 0

/-- fship (R72): xp holds half the number of the pair of operands. -/
def execFship (la : BitVec 4) (op : BitVec 6) (xp : BitVec 4) (xd xb : Reg) (s : State) : Host.Outcome State Fault Refusal :=
  s.run fun g c =>
    c.access g la (.x xd) (.fship op (c.t.getX xb) (c.t.getX (xp ++ 0#1)) (c.t.getX (xp ++ 1#1))) 0

/-- wptr (R152): with x0 it does not wait. -/
def execWptr (la : BitVec 4) (xd xa xb : Reg) (s : State) : Host.Outcome State Fault Refusal :=
  s.run fun g c =>
    c.access g la (.x xd) (.wptr (c.t.getX xa) (if xb = 0 then none else some (c.t.getX xb))) 0

/-- The destination of a collection: a cut's bounds registers go with it (R173). -/
def Chip.collectDest (c : Chip) (xd : Reg) (ident : Dword) : Dest :=
  match c.jobOf c.tid.cluster ident with
  | some j => match j.kind with
    | .cut _ _ _ first => .group xd first
    | _ => .x xd
  | none => .x xd

/-- jwait (R152). -/
def execJwait (la : BitVec 4) (xd xa : Reg) (s : State) : Host.Outcome State Fault Refusal :=
  s.run fun g c => c.access g la (c.collectDest xd (c.t.getX xa)) (.jwait (c.t.getX xa)) 0

/-- jpoll (R152). -/
def execJpoll (la : BitVec 4) (xd xa : Reg) (s : State) : Host.Outcome State Fault Refusal :=
  s.run fun g c => c.access g la (c.collectDest xd (c.t.getX xa)) (.jpoll (c.t.getX xa)) 0

end Sys2Proof.Machine
end

