-- ==== Sys2Proof/Machine/Scalar.lean ====
section
/-! DEFINITION. Scalar integer and address instructions (R182 to R185): each writes one x register and touches no
memory. -/

namespace Sys2Proof.Machine

/-- A two-source scalar instruction with no trap. -/
def scalar2 (f : Dword → Dword → Dword) (rd ra rb : Reg) (s : State) : Host.Outcome State Fault Refusal :=
  s.run fun g c => c.putX g rd (f (c.t.getX ra) (c.t.getX rb))

/-- A one-source scalar instruction. -/
def scalar1 (f : Dword → Dword) (rd ra : Reg) (s : State) : Host.Outcome State Fault Refusal :=
  s.run fun g c => c.putX g rd (f (c.t.getX ra))

/-- A scalar instruction that also reads its destination. -/
def scalar3 (f : Dword → Dword → Dword → Dword) (rd ra rb : Reg) (s : State) : Host.Outcome State Fault Refusal :=
  s.run fun g c => c.putX g rd (f (c.t.getX rd) (c.t.getX ra) (c.t.getX rb))

/-- A division: DIV_ZERO precisely on a zero divisor (R183). -/
def divide (f : Dword → Dword → Dword) (rd ra rb : Reg) (s : State) : Host.Outcome State Fault Refusal :=
  s.run fun g c =>
    if c.t.getX rb = 0 then c.raise g Cause.divZero 0 0
    else c.putX g rd (f (c.t.getX ra) (c.t.getX rb))

/-- add (R182). -/
def execAdd (rd ra rb : Reg) (s : State) : Host.Outcome State Fault Refusal :=
  scalar2 (fun a b => a + b) rd ra rb s

/-- sub (R182). -/
def execSub (rd ra rb : Reg) (s : State) : Host.Outcome State Fault Refusal :=
  scalar2 (fun a b => a - b) rd ra rb s

/-- and (R182). -/
def execAnd (rd ra rb : Reg) (s : State) : Host.Outcome State Fault Refusal :=
  scalar2 (fun a b => a &&& b) rd ra rb s

/-- or (R182). -/
def execOr (rd ra rb : Reg) (s : State) : Host.Outcome State Fault Refusal :=
  scalar2 (fun a b => a ||| b) rd ra rb s

/-- xor (R182). -/
def execXor (rd ra rb : Reg) (s : State) : Host.Outcome State Fault Refusal :=
  scalar2 (fun a b => a ^^^ b) rd ra rb s

/-- shl (R182). -/
def execShl (rd ra rb : Reg) (s : State) : Host.Outcome State Fault Refusal :=
  scalar2 (fun a b => a <<< shiftOf b) rd ra rb s

/-- shr (R182). -/
def execShr (rd ra rb : Reg) (s : State) : Host.Outcome State Fault Refusal :=
  scalar2 (fun a b => a >>> shiftOf b) rd ra rb s

/-- sra (R182). -/
def execSra (rd ra rb : Reg) (s : State) : Host.Outcome State Fault Refusal :=
  scalar2 (fun a b => a.sshiftRight (shiftOf b)) rd ra rb s

/-- mul (R182). -/
def execMul (rd ra rb : Reg) (s : State) : Host.Outcome State Fault Refusal :=
  scalar2 (fun a b => a * b) rd ra rb s

/-- mulh (R182). -/
def execMulh (rd ra rb : Reg) (s : State) : Host.Outcome State Fault Refusal :=
  scalar2 (fun a b => mulHigh a b) rd ra rb s

/-- div (R182, R183). -/
def execDiv (rd ra rb : Reg) (s : State) : Host.Outcome State Fault Refusal :=
  divide (fun a b => a.sdiv b) rd ra rb s

/-- divu (R182, R183). -/
def execDivu (rd ra rb : Reg) (s : State) : Host.Outcome State Fault Refusal :=
  divide (fun a b => a / b) rd ra rb s

/-- rem (R182, R183). -/
def execRem (rd ra rb : Reg) (s : State) : Host.Outcome State Fault Refusal :=
  divide (fun a b => a.srem b) rd ra rb s

/-- remu (R182, R183). -/
def execRemu (rd ra rb : Reg) (s : State) : Host.Outcome State Fault Refusal :=
  divide (fun a b => a % b) rd ra rb s

/-- min (R182). -/
def execMin (rd ra rb : Reg) (s : State) : Host.Outcome State Fault Refusal :=
  scalar2 (fun a b => minS a b) rd ra rb s

/-- max (R182). -/
def execMax (rd ra rb : Reg) (s : State) : Host.Outcome State Fault Refusal :=
  scalar2 (fun a b => maxS a b) rd ra rb s

/-- clz (R182). -/
def execClz (rd ra : Reg) (s : State) : Host.Outcome State Fault Refusal :=
  scalar1 (fun a => BitVec.ofNat 64 (leadingZeros a 64)) rd ra s

/-- ctz (R182). -/
def execCtz (rd ra : Reg) (s : State) : Host.Outcome State Fault Refusal :=
  scalar1 (fun a => BitVec.ofNat 64 (trailingZeros a 0 64)) rd ra s

/-- popc (R182). -/
def execPopc (rd ra : Reg) (s : State) : Host.Outcome State Fault Refusal :=
  scalar1 (fun a => BitVec.ofNat 64 (popcount a 64)) rd ra s

/-- bext (R184). -/
def execBext (rd ra rb : Reg) (s : State) : Host.Outcome State Fault Refusal :=
  scalar2 extractField rd ra rb s

/-- bins (R184). -/
def execBins (rd ra rb : Reg) (s : State) : Host.Outcome State Fault Refusal :=
  scalar3 insertField rd ra rb s

/-- slt (R182). -/
def execSlt (rd ra rb : Reg) (s : State) : Host.Outcome State Fault Refusal :=
  scalar2 (fun a b => ofBoolX (a.slt b)) rd ra rb s

/-- sltu (R182). -/
def execSltu (rd ra rb : Reg) (s : State) : Host.Outcome State Fault Refusal :=
  scalar2 (fun a b => ofBoolX (a.ult b)) rd ra rb s

/-- seq (R182). -/
def execSeq (rd ra rb : Reg) (s : State) : Host.Outcome State Fault Refusal :=
  scalar2 (fun a b => ofBoolX (decide (a = b))) rd ra rb s

/-- sel (R182). -/
def execSel (rd ra rb : Reg) (s : State) : Host.Outcome State Fault Refusal :=
  scalar3 (fun old a b => if old ≠ 0 then a else b) rd ra rb s

/-- mov (R182). -/
def execMov (rd ra : Reg) (s : State) : Host.Outcome State Fault Refusal :=
  scalar1 (fun a => a) rd ra s

/-- addi (R185). -/
def execAddi (rd ra : Reg) (imm : BitVec 12) (s : State) : Host.Outcome State Fault Refusal :=
  scalar1 (fun a => a + immediate imm) rd ra s

/-- andi (R185). -/
def execAndi (rd ra : Reg) (imm : BitVec 12) (s : State) : Host.Outcome State Fault Refusal :=
  scalar1 (fun a => a &&& immediate imm) rd ra s

/-- ori (R185). -/
def execOri (rd ra : Reg) (imm : BitVec 12) (s : State) : Host.Outcome State Fault Refusal :=
  scalar1 (fun a => a ||| immediate imm) rd ra s

/-- xori (R185). -/
def execXori (rd ra : Reg) (imm : BitVec 12) (s : State) : Host.Outcome State Fault Refusal :=
  scalar1 (fun a => a ^^^ immediate imm) rd ra s

/-- shli (R185). -/
def execShli (rd ra : Reg) (n : BitVec 6) (s : State) : Host.Outcome State Fault Refusal :=
  scalar1 (fun a => a <<< n.toNat) rd ra s

/-- shri (R185). -/
def execShri (rd ra : Reg) (n : BitVec 6) (s : State) : Host.Outcome State Fault Refusal :=
  scalar1 (fun a => a >>> n.toNat) rd ra s

/-- srai (R185). -/
def execSrai (rd ra : Reg) (n : BitVec 6) (s : State) : Host.Outcome State Fault Refusal :=
  scalar1 (fun a => a.sshiftRight n.toNat) rd ra s

/-- li (R185). -/
def execLi (rd : Reg) (imm : BitVec 17) (s : State) : Host.Outcome State Fault Refusal :=
  s.run fun g c => c.putX g rd (immediate imm)

/-- lih (R185). -/
def execLih (rd : Reg) (imm : BitVec 15) (s : State) : Host.Outcome State Fault Refusal :=
  s.run fun g c => c.putX g rd (loadHigh (c.t.getX rd) imm)

/-- lea (R185). -/
def execLea (rd : Reg) (imm : BitVec 17) (s : State) : Host.Outcome State Fault Refusal :=
  s.run fun g c => c.putX g rd (c.t.pc + immediate imm)

end Sys2Proof.Machine
end

