-- ==== Sys2Proof/Machine/Dispatch.lean ====
section
/-! DEFINITION. One arm per instruction and event: a direct call of its meaning. -/

namespace Sys2Proof.Machine

/-- What an instruction or event does in a state. -/
def exec (i : Instr) (s : State) : Host.Outcome State Fault Refusal :=
  match i with
  | .add rd ra rb => Sys2Proof.Machine.execAdd rd ra rb s
  | .sub rd ra rb => Sys2Proof.Machine.execSub rd ra rb s
  | .and rd ra rb => Sys2Proof.Machine.execAnd rd ra rb s
  | .or rd ra rb => Sys2Proof.Machine.execOr rd ra rb s
  | .xor rd ra rb => Sys2Proof.Machine.execXor rd ra rb s
  | .shl rd ra rb => Sys2Proof.Machine.execShl rd ra rb s
  | .shr rd ra rb => Sys2Proof.Machine.execShr rd ra rb s
  | .sra rd ra rb => Sys2Proof.Machine.execSra rd ra rb s
  | .mul rd ra rb => Sys2Proof.Machine.execMul rd ra rb s
  | .mulh rd ra rb => Sys2Proof.Machine.execMulh rd ra rb s
  | .div rd ra rb => Sys2Proof.Machine.execDiv rd ra rb s
  | .divu rd ra rb => Sys2Proof.Machine.execDivu rd ra rb s
  | .rem rd ra rb => Sys2Proof.Machine.execRem rd ra rb s
  | .remu rd ra rb => Sys2Proof.Machine.execRemu rd ra rb s
  | .min rd ra rb => Sys2Proof.Machine.execMin rd ra rb s
  | .max rd ra rb => Sys2Proof.Machine.execMax rd ra rb s
  | .clz rd ra => Sys2Proof.Machine.execClz rd ra s
  | .ctz rd ra => Sys2Proof.Machine.execCtz rd ra s
  | .popc rd ra => Sys2Proof.Machine.execPopc rd ra s
  | .bext rd ra rb => Sys2Proof.Machine.execBext rd ra rb s
  | .bins rd ra rb => Sys2Proof.Machine.execBins rd ra rb s
  | .slt rd ra rb => Sys2Proof.Machine.execSlt rd ra rb s
  | .sltu rd ra rb => Sys2Proof.Machine.execSltu rd ra rb s
  | .seq rd ra rb => Sys2Proof.Machine.execSeq rd ra rb s
  | .sel rd ra rb => Sys2Proof.Machine.execSel rd ra rb s
  | .mov rd ra => Sys2Proof.Machine.execMov rd ra s
  | .addi rd ra imm => Sys2Proof.Machine.execAddi rd ra imm s
  | .andi rd ra imm => Sys2Proof.Machine.execAndi rd ra imm s
  | .ori rd ra imm => Sys2Proof.Machine.execOri rd ra imm s
  | .xori rd ra imm => Sys2Proof.Machine.execXori rd ra imm s
  | .shli rd ra n => Sys2Proof.Machine.execShli rd ra n s
  | .shri rd ra n => Sys2Proof.Machine.execShri rd ra n s
  | .srai rd ra n => Sys2Proof.Machine.execSrai rd ra n s
  | .jalr rd ra imm => Sys2Proof.Machine.execJalr rd ra imm s
  | .li rd imm => Sys2Proof.Machine.execLi rd imm s
  | .lih rd imm => Sys2Proof.Machine.execLih rd imm s
  | .lea rd imm => Sys2Proof.Machine.execLea rd imm s
  | .vadd u sat mk vd va vb => Sys2Proof.Machine.execVadd u sat mk vd va vb s
  | .vsub u sat mk vd va vb => Sys2Proof.Machine.execVsub u sat mk vd va vb s
  | .vmul u sat mk vd va vb => Sys2Proof.Machine.execVmul u sat mk vd va vb s
  | .vmulh u mk vd va vb => Sys2Proof.Machine.execVmulh u mk vd va vb s
  | .vand mk vd va vb => Sys2Proof.Machine.execVand mk vd va vb s
  | .vor mk vd va vb => Sys2Proof.Machine.execVor mk vd va vb s
  | .vxor mk vd va vb => Sys2Proof.Machine.execVxor mk vd va vb s
  | .vshl mk vd va vb => Sys2Proof.Machine.execVshl mk vd va vb s
  | .vshr mk vd va vb => Sys2Proof.Machine.execVshr mk vd va vb s
  | .vsra mk vd va vb => Sys2Proof.Machine.execVsra mk vd va vb s
  | .vmin u mk vd va vb => Sys2Proof.Machine.execVmin u mk vd va vb s
  | .vmax u mk vd va vb => Sys2Proof.Machine.execVmax u mk vd va vb s
  | .vsel mk vd va vb => Sys2Proof.Machine.execVsel mk vd va vb s
  | .vbcast mk vd xa => Sys2Proof.Machine.execVbcast mk vd xa s
  | .vpopc mk vd va => Sys2Proof.Machine.execVpopc mk vd va s
  | .vclz mk vd va => Sys2Proof.Machine.execVclz mk vd va s
  | .vcmp u cc mk md va vb => Sys2Proof.Machine.execVcmp u cc mk md va vb s
  | .vperm z mk vd va vb => Sys2Proof.Machine.execVperm z mk vd va vb s
  | .vshuf z mk vd va xb => Sys2Proof.Machine.execVshuf z mk vd va xb s
  | .vext z mk xd va xb => Sys2Proof.Machine.execVext z mk xd va xb s
  | .vins mk vd xa xb => Sys2Proof.Machine.execVins mk vd xa xb s
  | .vbext mk vd va vb => Sys2Proof.Machine.execVbext mk vd va vb s
  | .vred u op mk xd va => Sys2Proof.Machine.execVred u op mk xd va s
  | .mand md ma mb => Sys2Proof.Machine.execMand md ma mb s
  | .mor md ma mb => Sys2Proof.Machine.execMor md ma mb s
  | .mxor md ma mb => Sys2Proof.Machine.execMxor md ma mb s
  | .mnot md ma => Sys2Proof.Machine.execMnot md ma s
  | .mpop xd ma => Sys2Proof.Machine.execMpop xd ma s
  | .mset md imm => Sys2Proof.Machine.execMset md imm s
  | .vfcvt from_ rm sat fmt vd va => Sys2Proof.Machine.execVfcvt from_ rm sat fmt vd va s
  | .vfadd mk vd va vb => Sys2Proof.Machine.execVfadd mk vd va vb s
  | .vfsub mk vd va vb => Sys2Proof.Machine.execVfsub mk vd va vb s
  | .vfmul mk vd va vb => Sys2Proof.Machine.execVfmul mk vd va vb s
  | .vfma mk vd va vb => Sys2Proof.Machine.execVfma mk vd va vb s
  | .vfmin mk vd va vb => Sys2Proof.Machine.execVfmin mk vd va vb s
  | .vfmax mk vd va vb => Sys2Proof.Machine.execVfmax mk vd va vb s
  | .vfabs mk vd va => Sys2Proof.Machine.execVfabs mk vd va s
  | .vfneg mk vd va => Sys2Proof.Machine.execVfneg mk vd va s
  | .vfcmp cc mk md va vb => Sys2Proof.Machine.execVfcmp cc mk md va vb s
  | .vfred op mk xd va => Sys2Proof.Machine.execVfred op mk xd va s
  | .vexp mk vd va => Sys2Proof.Machine.execVexp mk vd va s
  | .vexpd mk vd va vb => Sys2Proof.Machine.execVexpd mk vd va vb s
  | .vlog2 mk vd va => Sys2Proof.Machine.execVlog2 mk vd va s
  | .vrcp er mk vd va => Sys2Proof.Machine.execVrcp er mk vd va s
  | .vrsqrt mk vd va => Sys2Proof.Machine.execVrsqrt mk vd va s
  | .vhare mk vd xa xb => Sys2Proof.Machine.execVhare mk vd xa xb s
  | .vld la off mk vd xb => Sys2Proof.Machine.execVld la off mk vd xb s
  | .vst la off mk vd xb => Sys2Proof.Machine.execVst la off mk vd xb s
  | .vldc la g mk vd xb => Sys2Proof.Machine.execVldc la g mk vd xb s
  | .vstc la g mk vd xb => Sys2Proof.Machine.execVstc la g mk vd xb s
  | .resld la slot xa => Sys2Proof.Machine.execResld la slot xa s
  | .resldSparse la pat slot xa => Sys2Proof.Machine.execResldSparse la pat slot xa s
  | .cbld la xa => Sys2Proof.Machine.execCbld la xa s
  | .tzero la int32 acc => Sys2Proof.Machine.execTzero la int32 acc s
  | .tload la int32 acc xa => Sys2Proof.Machine.execTload la int32 acc xa s
  | .tcov la xd acc => Sys2Proof.Machine.execTcov la xd acc s
  | .tstat la xd acc => Sys2Proof.Machine.execTstat la xd acc s
  | .tmov la accd accs => Sys2Proof.Machine.execTmov la accd accs s
  | .tdrain la sat rm fmt acc xd xb => Sys2Proof.Machine.execTdrain la sat rm fmt acc xd xb s
  | .fship la op xp xd xb => Sys2Proof.Machine.execFship la op xp xd xb s
  | .cpy la xd xa xb => Sys2Proof.Machine.execCpy la xd xa xb s
  | .cpy2 la xd xa xb => Sys2Proof.Machine.execCpy2 la xd xa xb s
  | .gath la xd xa xb => Sys2Proof.Machine.execGath la xd xa xb s
  | .scat la xd xa xb => Sys2Proof.Machine.execScat la xd xa xb s
  | .pub la xd xa xb => Sys2Proof.Machine.execPub la xd xa xb s
  | .wptr la xd xa xb => Sys2Proof.Machine.execWptr la xd xa xb s
  | .jwait la xd xa => Sys2Proof.Machine.execJwait la xd xa s
  | .jpoll la xd xa => Sys2Proof.Machine.execJpoll la xd xa s
  | .cut la xd xa => Sys2Proof.Machine.execCut la xd xa s
  | .cocut la xd xa => Sys2Proof.Machine.execCocut la xd xa s
  | .kvwalk la xd xa xb => Sys2Proof.Machine.execKvwalk la xd xa xb s
  | .sqk la xd xa xb => Sys2Proof.Machine.execSqk la xd xa xb s
  | .sqarm la xd xa xb => Sys2Proof.Machine.execSqarm la xd xa xb s
  | .sqoff la xd => Sys2Proof.Machine.execSqoff la xd s
  | .sqpf ya => Sys2Proof.Machine.execSqpf ya s
  | .sqend => Sys2Proof.Machine.execSqend s
  | .ldwFf la order scope xd xb => Sys2Proof.Machine.execLdwFf la order scope xd xb s
  | .ldwFe la order scope xd xb => Sys2Proof.Machine.execLdwFe la order scope xd xb s
  | .ldwNw la order scope xd xb => Sys2Proof.Machine.execLdwNw la order scope xd xb s
  | .stwEf la order scope xs xb => Sys2Proof.Machine.execStwEf la order scope xs xb s
  | .stwF la order scope xs xb => Sys2Proof.Machine.execStwF la order scope xs xb s
  | .purge la order scope xb => Sys2Proof.Machine.execPurge la order scope xb s
  | .mcst la xv xm xb => Sys2Proof.Machine.execMcst la xv xm xb s
  | .pref la xb => Sys2Proof.Machine.execPref la xb s
  | .amoAddW la xd xv xb => Sys2Proof.Machine.execAmoAddW la xd xv xb s
  | .amoAndW la xd xv xb => Sys2Proof.Machine.execAmoAndW la xd xv xb s
  | .amoOrW la xd xv xb => Sys2Proof.Machine.execAmoOrW la xd xv xb s
  | .amoXorW la xd xv xb => Sys2Proof.Machine.execAmoXorW la xd xv xb s
  | .amoMinW la xd xv xb => Sys2Proof.Machine.execAmoMinW la xd xv xb s
  | .amoMaxW la xd xv xb => Sys2Proof.Machine.execAmoMaxW la xd xv xb s
  | .amoSwapW la xd xv xb => Sys2Proof.Machine.execAmoSwapW la xd xv xb s
  | .cas la xd xn xb => Sys2Proof.Machine.execCas la xd xn xb s
  | .amoAddD la xd xv xb => Sys2Proof.Machine.execAmoAddD la xd xv xb s
  | .amoAndD la xd xv xb => Sys2Proof.Machine.execAmoAndD la xd xv xb s
  | .amoOrD la xd xv xb => Sys2Proof.Machine.execAmoOrD la xd xv xb s
  | .amoXorD la xd xv xb => Sys2Proof.Machine.execAmoXorD la xd xv xb s
  | .amoMinD la xd xv xb => Sys2Proof.Machine.execAmoMinD la xd xv xb s
  | .amoMaxD la xd xv xb => Sys2Proof.Machine.execAmoMaxD la xd xv xb s
  | .amoSwapD la xd xv xb => Sys2Proof.Machine.execAmoSwapD la xd xv xb s
  | .cas128 la xd xn xb => Sys2Proof.Machine.execCas128 la xd xn xb s
  | .ldl la xd xb => Sys2Proof.Machine.execLdl la xd xb s
  | .stu la xd xv xb => Sys2Proof.Machine.execStu la xd xv xb s
  | .spawn la xc xa xb => Sys2Proof.Machine.execSpawn la xc xa xb s
  | .join xa => Sys2Proof.Machine.execJoin xa s
  | .wfw => Sys2Proof.Machine.execWfw s
  | .disp la xd xa xb => Sys2Proof.Machine.execDisp la xd xa xb s
  | .depdec la xd xa => Sys2Proof.Machine.execDepdec la xd xa s
  | .yield => Sys2Proof.Machine.execYield s
  | .gang size => Sys2Proof.Machine.execGang size s
  | .ungang => Sys2Proof.Machine.execUngang s
  | .park xd xk xh => Sys2Proof.Machine.execPark xd xk xh s
  | .wake la xd xk xr => Sys2Proof.Machine.execWake la xd xk xr s
  | .pflush la xd xa xb => Sys2Proof.Machine.execPflush la xd xa xb s
  | .csrr xd csr => Sys2Proof.Machine.execCsrr xd csr s
  | .csrw csr xa => Sys2Proof.Machine.execCsrw csr xa s
  | .csrset xd csr xa => Sys2Proof.Machine.execCsrset xd csr xa s
  | .csrclr xd csr xa => Sys2Proof.Machine.execCsrclr xd csr xa s
  | .trap n => Sys2Proof.Machine.execTrap n s
  | .eret => Sys2Proof.Machine.execEret s
  | .halt => Sys2Proof.Machine.execHalt s
  | .ebrk => Sys2Proof.Machine.execEbrk s
  | .ctxsave xa => Sys2Proof.Machine.execCtxsave xa s
  | .ctxrest xa => Sys2Proof.Machine.execCtxrest xa s
  | .tlbinv xa n => Sys2Proof.Machine.execTlbinv xa n s
  | .idle xd => Sys2Proof.Machine.execIdle xd s
  | .phase scope => Sys2Proof.Machine.execPhase scope s
  | .fenceRel scope => Sys2Proof.Machine.execFenceRel scope s
  | .fenceAcq scope => Sys2Proof.Machine.execFenceAcq scope s
  | .bar scope id => Sys2Proof.Machine.execBar scope id s
  | .bcnt scope id xa => Sys2Proof.Machine.execBcnt scope id xa s
  | .fsload xd xa slot => Sys2Proof.Machine.execFsload xd xa slot s
  | .ldB la off xd xb => Sys2Proof.Machine.execLdB la off xd xb s
  | .ldH la off xd xb => Sys2Proof.Machine.execLdH la off xd xb s
  | .ldW la off xd xb => Sys2Proof.Machine.execLdW la off xd xb s
  | .ldD la off xd xb => Sys2Proof.Machine.execLdD la off xd xb s
  | .stB la off xs xb => Sys2Proof.Machine.execStB la off xs xb s
  | .stH la off xs xb => Sys2Proof.Machine.execStH la off xs xb s
  | .stW la off xs xb => Sys2Proof.Machine.execStW la off xs xb s
  | .stD la off xs xb => Sys2Proof.Machine.execStD la off xs xb s
  | .cld la form fold ord slot acc xd xb xs => Sys2Proof.Machine.execCld la form fold ord slot acc xd xb xs s
  | .beq ra rb off => Sys2Proof.Machine.execBeq ra rb off s
  | .bne ra rb off => Sys2Proof.Machine.execBne ra rb off s
  | .blt ra rb off => Sys2Proof.Machine.execBlt ra rb off s
  | .bge ra rb off => Sys2Proof.Machine.execBge ra rb off s
  | .bltu ra rb off => Sys2Proof.Machine.execBltu ra rb off s
  | .bgeu ra rb off => Sys2Proof.Machine.execBgeu ra rb off s
  | .jal xd off => Sys2Proof.Machine.execJal xd off s
  | .loop xs len => Sys2Proof.Machine.execLoop xs len s
  | .loopm xb off len => Sys2Proof.Machine.execLoopm xb off len s
  | .rep b a d count => Sys2Proof.Machine.execRep b a d count s
  | .vor16 mk vd va => Sys2Proof.Machine.execVor16 mk vd va s
  | .vadd16 mk vd va => Sys2Proof.Machine.execVadd16 mk vd va s
  | .vsub16 mk vd va => Sys2Proof.Machine.execVsub16 mk vd va s
  | .vmul16 mk vd va => Sys2Proof.Machine.execVmul16 mk vd va s
  | .vand16 mk vd va => Sys2Proof.Machine.execVand16 mk vd va s
  | .vxor16 mk vd va => Sys2Proof.Machine.execVxor16 mk vd va s
  | .vshl16 mk vd va => Sys2Proof.Machine.execVshl16 mk vd va s
  | .vshr16 mk vd va => Sys2Proof.Machine.execVshr16 mk vd va s
  | .vsra16 mk vd va => Sys2Proof.Machine.execVsra16 mk vd va s
  | .vmin16 mk vd va => Sys2Proof.Machine.execVmin16 mk vd va s
  | .vmax16 mk vd va => Sys2Proof.Machine.execVmax16 mk vd va s
  | .vfadd16 mk vd va => Sys2Proof.Machine.execVfadd16 mk vd va s
  | .vfsub16 mk vd va => Sys2Proof.Machine.execVfsub16 mk vd va s
  | .vfmul16 mk vd va => Sys2Proof.Machine.execVfmul16 mk vd va s
  | .vfmin16 mk vd va => Sys2Proof.Machine.execVfmin16 mk vd va s
  | .vfmax16 mk vd va => Sys2Proof.Machine.execVfmax16 mk vd va s
  | .windowEndWrite t => Sys2Proof.Machine.execWindowEndWrite t s
  | .badgerRoutineRun op addr a b => Sys2Proof.Machine.execBadgerRoutineRun op addr a b s
  | .cellRebuild key how => Sys2Proof.Machine.execCellRebuild key how s
  | .softError target correctable => Sys2Proof.Machine.execSoftError target correctable s
  | .pageZero addr sub => Sys2Proof.Machine.execPageZero addr sub s
  | .deferredReport t => Sys2Proof.Machine.execDeferredReport t s
  | .preemption launch t => Sys2Proof.Machine.execPreemption launch t s
  | .launchQueueRead die queue => Sys2Proof.Machine.execLaunchQueueRead die queue s
  | .launchTaskPlace launch tile t => Sys2Proof.Machine.execLaunchTaskPlace launch tile t s
  | .takeWork t source => Sys2Proof.Machine.execTakeWork t source s
  | .hintWalkHop item => Sys2Proof.Machine.execHintWalkHop item s
  | .taskEnd t => Sys2Proof.Machine.execTaskEnd t s
  | .completionTokenWrite launch => Sys2Proof.Machine.execCompletionTokenWrite launch s
  | .copyJobStart c entry => Sys2Proof.Machine.execCopyJobStart c entry s
  | .copyJobWordWrite c entry position => Sys2Proof.Machine.execCopyJobWordWrite c entry position s
  | .shadowFrameReturn die frame => Sys2Proof.Machine.execShadowFrameReturn die frame s
  | .pubSwap c entry => Sys2Proof.Machine.execPubSwap c entry s
  | .cutJobRun c entry => Sys2Proof.Machine.execCutJobRun c entry s
  | .kvwalkWordWrite c entry => Sys2Proof.Machine.execKvwalkWordWrite c entry s
  | .kvwalkHeaderPrefetch c entry => Sys2Proof.Machine.execKvwalkHeaderPrefetch c entry s
  | .cldJobStart c entry => Sys2Proof.Machine.execCldJobStart c entry s
  | .cldCellAdd c entry request => Sys2Proof.Machine.execCldCellAdd c entry request s
  | .squirrelRun t y1 => Sys2Proof.Machine.execSquirrelRun t y1 s
  | .hoardFill t cell => Sys2Proof.Machine.execHoardFill t cell s
  | .hoardDrop t cell => Sys2Proof.Machine.execHoardDrop t cell s
  | .denDemoteTier1 page => Sys2Proof.Machine.execDenDemoteTier1 page s
  | .denDemoteFlash page => Sys2Proof.Machine.execDenDemoteFlash page s
  | .wakeWrite key reply => Sys2Proof.Machine.execWakeWrite key reply s
  | .denStage1Frame key => Sys2Proof.Machine.execDenStage1Frame key s
  | .pagePromotionDone page => Sys2Proof.Machine.execPagePromotionDone page s
  | .hostApertureRead port offset size => Sys2Proof.Machine.execHostApertureRead port offset size s
  | .hostApertureWrite port offset size value relaxed => Sys2Proof.Machine.execHostApertureWrite port offset size value relaxed s
  | .fabricRequest source op addr key supervisor => Sys2Proof.Machine.execFabricRequest source op addr key supervisor s
  | .remoteFail t => Sys2Proof.Machine.execRemoteFail t s
  | .ucieLinkFail a b => Sys2Proof.Machine.execUcieLinkFail a b s
  | .powerUp => Sys2Proof.Machine.execPowerUp s
  | .mainSideReset => Sys2Proof.Machine.execMainSideReset s
  | .bootgoWrite value => Sys2Proof.Machine.execBootgoWrite value s
  | .bootVerifyDone => Sys2Proof.Machine.execBootVerifyDone s
  | .modidWrite value => Sys2Proof.Machine.execModidWrite value s
  | .fabenWrite value => Sys2Proof.Machine.execFabenWrite value s
  | .doorbellWrite die => Sys2Proof.Machine.execDoorbellWrite die s
  | .fwtmrWrite die value => Sys2Proof.Machine.execFwtmrWrite die value s
  | .fwtmrExpire die => Sys2Proof.Machine.execFwtmrExpire die s
  | .owlClear u => Sys2Proof.Machine.execOwlClear u s
  | .owlLevelSample u => Sys2Proof.Machine.execOwlLevelSample u s
  | .registerWrite offset value => Sys2Proof.Machine.execRegisterWrite offset value s
  | .spdmGetVersion => Sys2Proof.Machine.execSpdmGetVersion s
  | .spdmGetCapabilities => Sys2Proof.Machine.execSpdmGetCapabilities s
  | .spdmNegotiateAlgorithms => Sys2Proof.Machine.execSpdmNegotiateAlgorithms s
  | .spdmGetDigests => Sys2Proof.Machine.execSpdmGetDigests s
  | .spdmGetCertificate => Sys2Proof.Machine.execSpdmGetCertificate s
  | .spdmChallenge => Sys2Proof.Machine.execSpdmChallenge s
  | .spdmGetMeasurements => Sys2Proof.Machine.execSpdmGetMeasurements s
  | .mgmtReadRegister what => Sys2Proof.Machine.execMgmtReadRegister what s
  | .mgmtWriteOwlctl u value => Sys2Proof.Machine.execMgmtWriteOwlctl u value s
  | .mgmtWritePwrlim value => Sys2Proof.Machine.execMgmtWritePwrlim value s
  | .mgmtAssertReset => Sys2Proof.Machine.execMgmtAssertReset s
  | .mainSidePowerLoss => Sys2Proof.Machine.execMainSidePowerLoss s
  | .bootStagingBufferWrite offset value => Sys2Proof.Machine.execBootStagingBufferWrite offset value s

end Sys2Proof.Machine
end

