-- ==== Sys2Proof/Machine/Step.lean ====
section
/-! DEFINITION. One step: the event that is due, or one issue turn of the thread that was chosen, and what follows. -/

namespace Sys2Proof.Machine

/-- One step of the module. -/
def step (s : State) : Host.Outcome State Fault Refusal :=
  let done : Host.Outcome State Fault Refusal :=
    match s.inbox with
    | i :: rest => exec i { s with inbox := rest }
    | [] => if s.mayIssue then issue exec s else .next s
  thenState done State.after

/-- The state with an instruction stored where the next step fetches and runs it (log 14). -/
def State.withFetchWord (s : State) (nbits w : Nat) : State := s.place nbits w

end Sys2Proof.Machine
end

