-- ==== Sys2Proof/Safety.lean ====
section
/-! DEFINITION. What claims call a safe state and a safe step. -/

namespace Sys2Proof.Machine

/-- The module's identity is legal: the fabric is on only under an ID of 0x001 to 0xFFE, and MODID never holds 0xFFF
(R77, R340). -/
def Mgmt.identityOk (g : Mgmt) : Prop := g.modid ≠ 0xFFF ∧ (g.faben = true → g.modid ≠ 0)

/-- BOOTST holds one of its values (R348). -/
def Mgmt.bootOk (g : Mgmt) : Prop := 1 ≤ g.bootst.toNat ∧ g.bootst.toNat ≤ 4

/-- Memory keeps its canonical form. -/
def Chip.memoryOk (c : Chip) : Prop := Memory.wf c.mem = true

/-- A step that neither faults nor is refused. -/
def StepsSafely (s : State) : Prop := ∃ t, step s = .next t

end Sys2Proof.Machine
end

