-- ==== Sys2Proof/Certificates/Slice0/Obligations.lean ====
section
/-! DEFINITION. The statements for the provers. Claims holds the words they are written in: tables that say again, from the
manual's rules, what each instruction gives. -/

namespace Sys2Proof.Claims
open Sys2Proof.Machine

/-! ## Words of the statements -/

/-- The acting thread runs an instruction of n bytes by itself: it is READY, no earlier instruction has a write or a
snapshot to come, it is in no loop and no repeat, and the next address is not the end link. -/
structure Alone (s : State) (n : Dword) : Prop where
  ready : s.chip.t.run = .ready
  pend : s.chip.t.pend = []
  snaps : s.chip.t.snaps = []
  loops : s.chip.t.loops = []
  rep : s.chip.t.rep = none
  goesOn : s.chip.t.pc + n ≠ endLink

/-- The state with the acting thread's state replaced, and nothing else. -/
def withThread (s : State) (t : Thread) : State := { s with chip := { s.chip with t := t } }

/-- The thread n bytes further on. -/
def past (t : Thread) (n : Dword) : Thread := { t with pc := t.pc + n }

/-- X[r] ← v; x0 discards it (R177). -/
def writeX (t : Thread) (r : Reg) (v : Dword) : Thread := if r = 0 then t else { t with x := t.x.set r.toNat v r.isLt }

/-- M[r] ← v; m0 discards it (R177). -/
def writeM (t : Thread) (r : BitVec 3) (v : Byte) : Thread := if r = 0 then t else { t with m := t.m.set r.toNat v r.isLt }

/-- V[r][i] ← v i in the lanes that m names, the others kept (R186). -/
def writeV (t : Thread) (r : Reg) (m : Byte) (v : BitVec 3 → Word) : Thread :=
  let k := r.extractLsb' 0 4
  let l := Lanes.of fun i => if m.getLsbD i.toNat then v i else (t.v.get k.toFin).get i
  { t with v := t.v.set k.toNat l k.isLt }

/-- A signed value of w bits as a doubleword. -/
def sext {w : Nat} (v : BitVec w) : Dword := BitVec.ofInt 64 v.toInt

/-- An instruction stops precisely with a cause: the state is the one that taking the exception gives (R297). -/
def Traps (i : Instr) (s : State) (cause : Cause) (addr info : Dword) : Prop :=
  exec i s = s.run fun g c => c.raise g cause addr info

/-! ## Scalar instructions (R182 to R185) -/

/-- The position and the width of a field specification (R184). -/
def pos (b : Dword) : Nat := b.toNat % 64
def width (b : Dword) : Nat := b.toNat / 64 % 64 + 1

/-- Zeros at the low end of the first 64 bits that a function gives. -/
def zeros (bit : Nat → Bool) : Nat := ((List.range 64).takeWhile fun i => !bit i).length

/-- What X[rd] becomes: for each scalar instruction of register operands. -/
inductive Scalar (t : Thread) : Instr → Reg → Dword → Prop where
  | add rd ra rb : Scalar t (.add rd ra rb) rd (BitVec.ofNat 64 ((t.getX ra).toNat + (t.getX rb).toNat))
  | sub rd ra rb : Scalar t (.sub rd ra rb) rd (BitVec.ofInt 64 ((t.getX ra).toInt - (t.getX rb).toInt))
  | and rd ra rb : Scalar t (.and rd ra rb) rd (t.getX ra &&& t.getX rb)
  | or rd ra rb : Scalar t (.or rd ra rb) rd (t.getX ra ||| t.getX rb)
  | xor rd ra rb : Scalar t (.xor rd ra rb) rd (t.getX ra ^^^ t.getX rb)
  | shl rd ra rb : Scalar t (.shl rd ra rb) rd (BitVec.ofNat 64 ((t.getX ra).toNat * 2 ^ ((t.getX rb).toNat % 64)))
  | shr rd ra rb : Scalar t (.shr rd ra rb) rd (BitVec.ofNat 64 ((t.getX ra).toNat / 2 ^ ((t.getX rb).toNat % 64)))
  | sra rd ra rb : Scalar t (.sra rd ra rb) rd (BitVec.ofInt 64 ((t.getX ra).toInt / 2 ^ ((t.getX rb).toNat % 64)))
  | mul rd ra rb : Scalar t (.mul rd ra rb) rd (BitVec.ofInt 64 ((t.getX ra).toInt * (t.getX rb).toInt))
  | mulh rd ra rb : Scalar t (.mulh rd ra rb) rd (BitVec.ofInt 64 ((t.getX ra).toInt * (t.getX rb).toInt / 2 ^ 64))
  | div rd ra rb (h : t.getX rb ≠ 0) :
      Scalar t (.div rd ra rb) rd (BitVec.ofInt 64 ((t.getX ra).toInt.tdiv (t.getX rb).toInt))
  | divu rd ra rb (h : t.getX rb ≠ 0) :
      Scalar t (.divu rd ra rb) rd (BitVec.ofNat 64 ((t.getX ra).toNat / (t.getX rb).toNat))
  | rem rd ra rb (h : t.getX rb ≠ 0) :
      Scalar t (.rem rd ra rb) rd (BitVec.ofInt 64 ((t.getX ra).toInt.tmod (t.getX rb).toInt))
  | remu rd ra rb (h : t.getX rb ≠ 0) :
      Scalar t (.remu rd ra rb) rd (BitVec.ofNat 64 ((t.getX ra).toNat % (t.getX rb).toNat))
  | min rd ra rb : Scalar t (.min rd ra rb) rd (BitVec.ofInt 64 (min (t.getX ra).toInt (t.getX rb).toInt))
  | max rd ra rb : Scalar t (.max rd ra rb) rd (BitVec.ofInt 64 (max (t.getX ra).toInt (t.getX rb).toInt))
  | clz rd ra : Scalar t (.clz rd ra) rd (BitVec.ofNat 64 (zeros fun i => (t.getX ra).getLsbD (63 - i)))
  | ctz rd ra : Scalar t (.ctz rd ra) rd (BitVec.ofNat 64 (zeros (t.getX ra).getLsbD))
  | popc rd ra : Scalar t (.popc rd ra) rd (BitVec.ofNat 64 ((List.range 64).countP (t.getX ra).getLsbD))
  | bext rd ra rb : Scalar t (.bext rd ra rb) rd
      (BitVec.ofNat 64 ((t.getX ra).toNat / 2 ^ pos (t.getX rb) % 2 ^ width (t.getX rb)))
  | bins rd ra rb v
      (h : ∀ j, j < 64 → v.getLsbD j =
        if pos (t.getX rb) ≤ j ∧ j < pos (t.getX rb) + width (t.getX rb) then
          (t.getX ra).getLsbD (j - pos (t.getX rb)) else (t.getX rd).getLsbD j) : Scalar t (.bins rd ra rb) rd v
  | slt rd ra rb : Scalar t (.slt rd ra rb) rd (if (t.getX ra).toInt < (t.getX rb).toInt then 1 else 0)
  | sltu rd ra rb : Scalar t (.sltu rd ra rb) rd (if (t.getX ra).toNat < (t.getX rb).toNat then 1 else 0)
  | seq rd ra rb : Scalar t (.seq rd ra rb) rd (if t.getX ra = t.getX rb then 1 else 0)
  | sel rd ra rb : Scalar t (.sel rd ra rb) rd (if t.getX rd = 0 then t.getX rb else t.getX ra)
  | mov rd ra : Scalar t (.mov rd ra) rd (t.getX ra)

/-- What X[rd] becomes: for each scalar instruction with an immediate (R185). -/
inductive Immediate (t : Thread) : Instr → Reg → Dword → Prop where
  | addi rd ra imm : Immediate t (.addi rd ra imm) rd (BitVec.ofInt 64 ((t.getX ra).toInt + imm.toInt))
  | andi rd ra imm : Immediate t (.andi rd ra imm) rd (t.getX ra &&& sext imm)
  | ori rd ra imm : Immediate t (.ori rd ra imm) rd (t.getX ra ||| sext imm)
  | xori rd ra imm : Immediate t (.xori rd ra imm) rd (t.getX ra ^^^ sext imm)
  | shli rd ra n : Immediate t (.shli rd ra n) rd (BitVec.ofNat 64 ((t.getX ra).toNat * 2 ^ n.toNat))
  | shri rd ra n : Immediate t (.shri rd ra n) rd (BitVec.ofNat 64 ((t.getX ra).toNat / 2 ^ n.toNat))
  | srai rd ra n : Immediate t (.srai rd ra n) rd (BitVec.ofInt 64 ((t.getX ra).toInt / 2 ^ n.toNat))
  | li rd imm : Immediate t (.li rd imm) rd (sext imm)
  | lih rd imm : Immediate t (.lih rd imm) rd (sext (imm ++ (t.getX rd).extractLsb' 0 17))
  | lea rd imm : Immediate t (.lea rd imm) rd (BitVec.ofInt 64 (t.pc.toInt + imm.toInt))

end Sys2Proof.Claims

section
open Sys2Proof Sys2Proof.Machine

/-- R182, R183, R184: every scalar register instruction completes with the value of its rule in X[xd], and changes nothing
else but the program counter. -/
def Obligations.ScalarRegisterResults : Prop :=
  ∀ s i rd v, Claims.Scalar s.chip.t i rd v → Claims.Alone s 4 →
    exec i s = .next (Claims.withThread s (Claims.past (Claims.writeX s.chip.t rd v) 4))

/-- R185: every immediate form completes with the value of its rule. -/
def Obligations.ScalarImmediateResults : Prop :=
  ∀ s i rd v, Claims.Immediate s.chip.t i rd v → Claims.Alone s 4 →
    exec i s = .next (Claims.withThread s (Claims.past (Claims.writeX s.chip.t rd v) 4))

end

namespace Sys2Proof.Claims
open Sys2Proof.Machine

/-! ## Lanes and masks (R186 to R192) -/

/-- Lane i of a v register, and bit i of a mask. -/
def lane (t : Thread) (r : Reg) (i : BitVec 3) : Word := (t.getV r).get i
def on (t : Thread) (mk : BitVec 3) (i : BitVec 3) : Bool := (t.getM mk).getLsbD i.toNat
/-- The lanes that a mask makes active, in order. -/
def actives (t : Thread) (mk : BitVec 3) (r : Reg) : List Word :=
  (((List.range 8).map (BitVec.ofNat 3)).filter (on t mk)).map (lane t r)

/-- A sum, difference or product of lanes: wrapped, or clamped signed or unsigned. -/
def arith (op : Int → Int → Int) (u sat : Bool) (a b : Word) : Word :=
  match sat, u with
  | false, _ => BitVec.ofInt 32 (op a.toInt b.toInt)
  | true, false => BitVec.ofInt 32 (max (-(2 ^ 31)) (min (2 ^ 31 - 1) (op a.toInt b.toInt)))
  | true, true => BitVec.ofInt 32 (max 0 (min (2 ^ 32 - 1) (op a.toNat b.toNat)))

def mulhigh (u : Bool) (a b : Word) : Word :=
  if u then BitVec.ofNat 32 (a.toNat * b.toNat / 2 ^ 32) else BitVec.ofInt 32 (a.toInt * b.toInt / 2 ^ 32)
def least (u : Bool) (a b : Word) : Word :=
  if u then BitVec.ofNat 32 (min a.toNat b.toNat) else BitVec.ofInt 32 (min a.toInt b.toInt)
def greatest (u : Bool) (a b : Word) : Word :=
  if u then BitVec.ofNat 32 (max a.toNat b.toNat) else BitVec.ofInt 32 (max a.toInt b.toInt)
def shiftL (a b : Word) : Word := BitVec.ofNat 32 (a.toNat * 2 ^ (b.toNat % 32))
def shiftR (a b : Word) : Word := BitVec.ofNat 32 (a.toNat / 2 ^ (b.toNat % 32))
def shiftA (a b : Word) : Word := BitVec.ofInt 32 (a.toInt / 2 ^ (b.toNat % 32))

/-- Numbers of a nibble of a shuffle word, and of an index lane. -/
def nibble (x : Dword) (i : BitVec 3) : Nat := x.toNat / 16 ^ i.toNat % 16
def index (w : Word) : BitVec 3 := BitVec.ofNat 3 w.toNat

/-- The WARN code of `.u` without `.sat` (R56). -/
def warnU (u sat : Bool) : Byte := if u = true ∧ sat = false then 1 else 0

/-- V[vd] after a lane instruction of n bytes: the destination, the lanes that are written, their values, and the
fallback recorded. -/
inductive LaneOp (t : Thread) : Instr → Dword → Reg → Byte → (BitVec 3 → Word) → Byte → Prop where
  | vadd u sat mk vd va vb : LaneOp t (.vadd u sat mk vd va vb) 4 vd (t.getM mk)
      (fun i => arith (· + ·) u sat (lane t va i) (lane t vb i)) (warnU u sat)
  | vsub u sat mk vd va vb : LaneOp t (.vsub u sat mk vd va vb) 4 vd (t.getM mk)
      (fun i => arith (· - ·) u sat (lane t va i) (lane t vb i)) (warnU u sat)
  | vmul u sat mk vd va vb : LaneOp t (.vmul u sat mk vd va vb) 4 vd (t.getM mk)
      (fun i => arith (· * ·) u sat (lane t va i) (lane t vb i)) (warnU u sat)
  | vmulh u mk vd va vb : LaneOp t (.vmulh u mk vd va vb) 4 vd (t.getM mk)
      (fun i => mulhigh u (lane t va i) (lane t vb i)) 0
  | vand mk vd va vb : LaneOp t (.vand mk vd va vb) 4 vd (t.getM mk) (fun i => lane t va i &&& lane t vb i) 0
  | vor mk vd va vb : LaneOp t (.vor mk vd va vb) 4 vd (t.getM mk) (fun i => lane t va i ||| lane t vb i) 0
  | vxor mk vd va vb : LaneOp t (.vxor mk vd va vb) 4 vd (t.getM mk) (fun i => lane t va i ^^^ lane t vb i) 0
  | vshl mk vd va vb : LaneOp t (.vshl mk vd va vb) 4 vd (t.getM mk) (fun i => shiftL (lane t va i) (lane t vb i)) 0
  | vshr mk vd va vb : LaneOp t (.vshr mk vd va vb) 4 vd (t.getM mk) (fun i => shiftR (lane t va i) (lane t vb i)) 0
  | vsra mk vd va vb : LaneOp t (.vsra mk vd va vb) 4 vd (t.getM mk) (fun i => shiftA (lane t va i) (lane t vb i)) 0
  | vmin u mk vd va vb : LaneOp t (.vmin u mk vd va vb) 4 vd (t.getM mk)
      (fun i => least u (lane t va i) (lane t vb i)) 0
  | vmax u mk vd va vb : LaneOp t (.vmax u mk vd va vb) 4 vd (t.getM mk)
      (fun i => greatest u (lane t va i) (lane t vb i)) 0
  | vsel mk vd va vb : LaneOp t (.vsel mk vd va vb) 4 vd 0xFF
      (fun i => if on t mk i then lane t va i else lane t vb i) 0
  | vbcast mk vd xa : LaneOp t (.vbcast mk vd xa) 4 vd (t.getM mk) (fun _ => BitVec.ofNat 32 (t.getX xa).toNat) 0
  | vpopc mk vd va : LaneOp t (.vpopc mk vd va) 4 vd (t.getM mk)
      (fun i => BitVec.ofNat 32 ((List.range 32).countP (lane t va i).getLsbD)) 0
  | vclz mk vd va : LaneOp t (.vclz mk vd va) 4 vd (t.getM mk)
      (fun i => BitVec.ofNat 32 ((List.range 32).takeWhile fun k => !(lane t va i).getLsbD (31 - k)).length) 0
  | vperm z mk vd va vb (h : z = true ∨ ∀ i, on t mk i = true → on t mk (index (lane t vb i)) = true) :
      LaneOp t (.vperm z mk vd va vb) 4 vd (t.getM mk)
        (fun i => if on t mk (index (lane t vb i)) then lane t va (index (lane t vb i)) else 0) 0
  | vshuf z mk vd va xb
      (h : z = true ∨ ∀ i, on t mk i = true → on t mk (BitVec.ofNat 3 (nibble (t.getX xb) i)) = true) :
      LaneOp t (.vshuf z mk vd va xb) 4 vd (t.getM mk)
        (fun i =>
          let s := nibble (t.getX xb) i
          if on t mk (BitVec.ofNat 3 s) then lane t (if s < 8 then va else va + 1) (BitVec.ofNat 3 s) else 0) 0
  | vins mk vd xa xb j (hj : j = BitVec.ofNat 3 (t.getX xb).toNat) : LaneOp t (.vins mk vd xa xb) 4 vd
      (if on t mk j then 1 <<< j.toNat else 0) (fun _ => BitVec.ofNat 32 (t.getX xa).toNat) 0
  | vbext mk vd va vb : LaneOp t (.vbext mk vd va vb) 4 vd (t.getM mk)
      (fun i => BitVec.ofNat 32 (((lane t (va + 1) i).toNat * 2 ^ 32 + (lane t va i).toNat) /
        2 ^ ((lane t vb i).toNat % 32) % 2 ^ ((lane t vb i).toNat / 32 % 32 + 1))) 0

/-- V[vd] after a compact form, which names vd as its first source (R30). -/
inductive CompactOp (t : Thread) : Instr → BitVec 2 → BitVec 4 → (BitVec 3 → Word) → Prop where
  | vor16 mk vd va : CompactOp t (.vor16 mk vd va) mk vd
      (fun i => lane t (vd.setWidth 5) i ||| lane t (va.setWidth 5) i)
  | vadd16 mk vd va : CompactOp t (.vadd16 mk vd va) mk vd
      (fun i => arith (· + ·) false false (lane t (vd.setWidth 5) i) (lane t (va.setWidth 5) i))
  | vsub16 mk vd va : CompactOp t (.vsub16 mk vd va) mk vd
      (fun i => arith (· - ·) false false (lane t (vd.setWidth 5) i) (lane t (va.setWidth 5) i))
  | vmul16 mk vd va : CompactOp t (.vmul16 mk vd va) mk vd
      (fun i => arith (· * ·) false false (lane t (vd.setWidth 5) i) (lane t (va.setWidth 5) i))
  | vand16 mk vd va : CompactOp t (.vand16 mk vd va) mk vd
      (fun i => lane t (vd.setWidth 5) i &&& lane t (va.setWidth 5) i)
  | vxor16 mk vd va : CompactOp t (.vxor16 mk vd va) mk vd
      (fun i => lane t (vd.setWidth 5) i ^^^ lane t (va.setWidth 5) i)
  | vshl16 mk vd va : CompactOp t (.vshl16 mk vd va) mk vd
      (fun i => shiftL (lane t (vd.setWidth 5) i) (lane t (va.setWidth 5) i))
  | vshr16 mk vd va : CompactOp t (.vshr16 mk vd va) mk vd
      (fun i => shiftR (lane t (vd.setWidth 5) i) (lane t (va.setWidth 5) i))
  | vsra16 mk vd va : CompactOp t (.vsra16 mk vd va) mk vd
      (fun i => shiftA (lane t (vd.setWidth 5) i) (lane t (va.setWidth 5) i))
  | vmin16 mk vd va : CompactOp t (.vmin16 mk vd va) mk vd
      (fun i => least false (lane t (vd.setWidth 5) i) (lane t (va.setWidth 5) i))
  | vmax16 mk vd va : CompactOp t (.vmax16 mk vd va) mk vd
      (fun i => greatest false (lane t (vd.setWidth 5) i) (lane t (va.setWidth 5) i))

/-- The value of a reduction, from the active lanes in order (R192). -/
def reduce (op : BitVec 3) (u : Bool) (l : List Word) : Dword :=
  match op with
  | 0#3 => BitVec.ofInt 64 (l.map BitVec.toInt).sum
  | 1#3 => if u then BitVec.ofNat 64 ((l.map BitVec.toNat).foldl min (2 ^ 32 - 1))
      else BitVec.ofInt 64 ((l.map BitVec.toInt).foldl min (2 ^ 31 - 1))
  | 2#3 => if u then BitVec.ofNat 64 ((l.map BitVec.toNat).foldl max 0)
      else BitVec.ofInt 64 ((l.map BitVec.toInt).foldl max (-(2 ^ 31)))
  | 3#3 => BitVec.ofNat 64 (l.foldl (· &&& ·) 0xFFFFFFFF).toNat
  | 4#3 => BitVec.ofNat 64 (l.foldl (· ||| ·) 0).toNat
  | _ => BitVec.ofNat 64 (l.foldl (· ^^^ ·) 0).toNat

/-- X[xd] after an instruction that reads lanes or a mask, and the fallback recorded. -/
inductive ToX (t : Thread) : Instr → Reg → Dword → Byte → Prop where
  | vred u op mk xd va (h : (Instr.vred u op mk xd va).WellFormed) :
      ToX t (.vred u op mk xd va) xd (reduce op u (actives t mk va)) (if u = true ∧ op ≠ 1 ∧ op ≠ 2 then 3 else 0)
  | vext z mk xd va xb j (hj : j = BitVec.ofNat 3 (t.getX xb).toNat) (h : z = true ∨ on t mk j = true) :
      ToX t (.vext z mk xd va xb) xd (if on t mk j then sext (lane t va j) else 0) 0
  | mpop xd ma : ToX t (.mpop xd ma) xd (BitVec.ofNat 64 ((List.range 8).countP (t.getM ma).getLsbD)) 0

/-- A comparison of lanes (R188). -/
def holds (cc : BitVec 2) (u : Bool) (a b : Word) : Bool :=
  match cc with
  | 0#2 => decide (a = b)
  | 1#2 => decide (a ≠ b)
  | 2#2 => if u then decide (a.toNat < b.toNat) else decide (a.toInt < b.toInt)
  | 3#2 => if u then decide (b.toNat ≤ a.toNat) else decide (b.toInt ≤ a.toInt)

/-- M[md] after an instruction that writes a mask, by its bits, and the fallback recorded. -/
inductive ToM (t : Thread) : Instr → BitVec 3 → (Nat → Bool) → Byte → Prop where
  | vcmp u cc mk md va vb : ToM t (.vcmp u cc mk md va vb) md
      (fun i => on t mk (BitVec.ofNat 3 i) && holds cc u (lane t va (BitVec.ofNat 3 i)) (lane t vb (BitVec.ofNat 3 i)))
      (if u = true ∧ (cc = 0 ∨ cc = 1) then 2 else 0)
  | mand md ma mb : ToM t (.mand md ma mb) md (fun i => (t.getM ma).getLsbD i && (t.getM mb).getLsbD i) 0
  | mor md ma mb : ToM t (.mor md ma mb) md (fun i => (t.getM ma).getLsbD i || (t.getM mb).getLsbD i) 0
  | mxor md ma mb : ToM t (.mxor md ma mb) md (fun i => (t.getM ma).getLsbD i != (t.getM mb).getLsbD i) 0
  | mnot md ma : ToM t (.mnot md ma) md (fun i => !(t.getM ma).getLsbD i) 0
  | mset md imm : ToM t (.mset md imm) md imm.getLsbD 0

end Sys2Proof.Claims

section
open Sys2Proof Sys2Proof.Machine

/-- R30, R186 to R191: every integer lane instruction completes with the values of its rule in the lanes that it writes; the
eleven compact integer forms are the plain forms of their instructions, two bytes long. -/
def Obligations.LaneResults : Prop :=
  (∀ s i n vd m f code, Claims.LaneOp s.chip.t i n vd m f code → i.WellFormed → Claims.Alone s n →
     exec i s = .next (Claims.withThread s
       (Claims.past ((Claims.writeV s.chip.t vd m f).warn code s.chip.t.pc) n))) ∧
  (∀ s i mk vd f, Claims.CompactOp s.chip.t i mk vd f → Claims.Alone s 2 →
     exec i s = .next (Claims.withThread s
       (Claims.past (Claims.writeV s.chip.t (vd.setWidth 5) (s.chip.t.getM (mk.setWidth 3)) f) 2)))

/-- R189, R191, R192: vred, vext and mpop write X[xd]. -/
def Obligations.LaneToScalarResults : Prop :=
  ∀ s i xd v code, Claims.ToX s.chip.t i xd v code → Claims.Alone s 4 →
    exec i s = .next (Claims.withThread s
      (Claims.past ((Claims.writeX s.chip.t xd v).warn code s.chip.t.pc) 4))

/-- R188, R189: vcmp and the mask instructions write every bit of M[md]; m0 discards the write. -/
def Obligations.MaskResults : Prop :=
  ∀ s i md f code, Claims.ToM s.chip.t i md f code → Claims.Alone s 4 →
    ∃ b : Byte, (∀ k, k < 8 → b.getLsbD k = f k) ∧
      exec i s = .next (Claims.withThread s
        (Claims.past ((Claims.writeM s.chip.t md b).warn code s.chip.t.pc) 4))

/-- R183, R190, R191: a zero divisor traps DIV_ZERO precisely; without `.z` an inactive read traps LANE_INACTIVE precisely,
with a mask of the lanes read that are inactive. -/
def Obligations.OperandTraps : Prop :=
  (∀ s rd ra rb, s.chip.t.getX rb = 0 →
     Claims.Traps (.div rd ra rb) s Cause.divZero 0 0 ∧ Claims.Traps (.divu rd ra rb) s Cause.divZero 0 0 ∧
     Claims.Traps (.rem rd ra rb) s Cause.divZero 0 0 ∧ Claims.Traps (.remu rd ra rb) s Cause.divZero 0 0) ∧
  (∀ (s : State) mk vd va vb (info : Dword),
    (∀ j, info.getLsbD j = (decide (j < 8) && (!Claims.on s.chip.t mk (BitVec.ofNat 3 j) &&
      ((List.range 8).any fun i => Claims.on s.chip.t mk (BitVec.ofNat 3 i) &&
        decide (Claims.index (Claims.lane s.chip.t vb (BitVec.ofNat 3 i)) = BitVec.ofNat 3 j))))) →
    info ≠ 0 → Claims.Traps (.vperm false mk vd va vb) s Cause.laneInactive 0 info) ∧
  (∀ (s : State) mk vd va xb (info : Dword),
    (∀ j, info.getLsbD j = (decide (j < 8) && (!Claims.on s.chip.t mk (BitVec.ofNat 3 j) &&
      ((List.range 8).any fun i => Claims.on s.chip.t mk (BitVec.ofNat 3 i) &&
        decide (Claims.nibble (s.chip.t.getX xb) (BitVec.ofNat 3 i) % 8 = j))))) →
    info ≠ 0 → Claims.Traps (.vshuf false mk vd va xb) s Cause.laneInactive 0 info) ∧
  (∀ (s : State) mk xd va xb, Claims.on s.chip.t mk (BitVec.ofNat 3 (s.chip.t.getX xb).toNat) = false →
    Claims.Traps (.vext false mk xd va xb) s Cause.laneInactive 0
      (1 <<< (BitVec.ofNat 3 (s.chip.t.getX xb).toNat).toNat))

end

namespace Sys2Proof.Claims
open Sys2Proof.Machine

/-! ## Floating point in lanes (R198 to R217) -/

/-- FLAGS gains bits; none is cleared (R199). -/
def withFlags (t : Thread) (f : Word) : Thread := { t with csr := { t.csr with flags := t.csr.flags ||| f } }

/-- SRCTR counts an execution that rounds by SR (R202). -/
def counted (t : Thread) (rm : BitVec 3) : Thread :=
  if rm = 4 then { t with csr := { t.csr with srctr := t.csr.srctr + 1 } } else t

/-- FPCTL.RM. -/
def rmOf (t : Thread) : BitVec 3 := BitVec.ofNat 3 t.csr.fpctl.toNat

/-- A floating-point lane instruction of n bytes: its destination, the lanes that it writes, and the rounding mode whose
draws it counts (0 for those that do not round by a mode). -/
inductive FloatOp (t : Thread) : Instr → Dword → Reg → Byte → BitVec 3 → Prop where
  | vfadd mk vd va vb : FloatOp t (.vfadd mk vd va vb) 4 vd (t.getM mk) (rmOf t)
  | vfsub mk vd va vb : FloatOp t (.vfsub mk vd va vb) 4 vd (t.getM mk) (rmOf t)
  | vfmul mk vd va vb : FloatOp t (.vfmul mk vd va vb) 4 vd (t.getM mk) (rmOf t)
  | vfma mk vd va vb : FloatOp t (.vfma mk vd va vb) 4 vd (t.getM mk) (rmOf t)
  | vrcp er mk vd va : FloatOp t (.vrcp er mk vd va) 4 vd (t.getM mk) (rmOf t)
  | vrsqrt mk vd va : FloatOp t (.vrsqrt mk vd va) 4 vd (t.getM mk) (rmOf t)
  | vexp mk vd va : FloatOp t (.vexp mk vd va) 4 vd (t.getM mk) 0
  | vexpd mk vd va vb : FloatOp t (.vexpd mk vd va vb) 4 vd (t.getM mk) 0
  | vlog2 mk vd va : FloatOp t (.vlog2 mk vd va) 4 vd (t.getM mk) 0
  | vfadd16 mk vd va : FloatOp t (.vfadd16 mk vd va) 2 (vd.setWidth 5) (t.getM (mk.setWidth 3)) (rmOf t)
  | vfsub16 mk vd va : FloatOp t (.vfsub16 mk vd va) 2 (vd.setWidth 5) (t.getM (mk.setWidth 3)) (rmOf t)
  | vfmul16 mk vd va : FloatOp t (.vfmul16 mk vd va) 2 (vd.setWidth 5) (t.getM (mk.setWidth 3)) (rmOf t)

/-- A NaN of FP32. -/
def isNan (w : Word) : Bool := decide (w.extractLsb' 23 8 = 0xFF) && decide (w.extractLsb' 0 23 ≠ 0)
/-- The operand that FTZ leaves (R201). -/
def flushed (ftz : Bool) (w : Word) : Word := if ftz && decide (w.extractLsb' 23 8 = 0) then w &&& 0x80000000 else w
/-- FPCTL.FTZ. -/
def ftzOf (t : Thread) : Bool := t.csr.fpctl.getLsbD 3
/-- The order of FP32 values that are no NaN, −0 below +0. -/
def rank (w : Word) : Int := if w.getLsbD 31 then -((w &&& 0x7FFFFFFF).toNat : Int) - 1 else (w.toNat : Int)
/-- The smaller or the larger of two operands. -/
def extreme (greater ftz : Bool) (a b : Word) : Word :=
  if isNan a || isNan b then 0x7FC00000
  else
    let x := flushed ftz a
    let y := flushed ftz b
    if (rank x ≤ rank y) = (greater = false) then x else y

/-- The element-wise forms that round nothing and set no flag (R205). -/
inductive ExactFloat (t : Thread) : Instr → Dword → Reg → Byte → (BitVec 3 → Word) → Prop where
  | vfmin mk vd va vb : ExactFloat t (.vfmin mk vd va vb) 4 vd (t.getM mk)
      (fun i => extreme false (ftzOf t) (lane t va i) (lane t vb i))
  | vfmax mk vd va vb : ExactFloat t (.vfmax mk vd va vb) 4 vd (t.getM mk)
      (fun i => extreme true (ftzOf t) (lane t va i) (lane t vb i))
  | vfabs mk vd va : ExactFloat t (.vfabs mk vd va) 4 vd (t.getM mk)
      (fun i => if isNan (lane t va i) then 0x7FC00000 else lane t va i &&& 0x7FFFFFFF)
  | vfneg mk vd va : ExactFloat t (.vfneg mk vd va) 4 vd (t.getM mk)
      (fun i => if isNan (lane t va i) then 0x7FC00000 else lane t va i ^^^ 0x80000000)
  | vfmin16 mk vd va : ExactFloat t (.vfmin16 mk vd va) 2 (vd.setWidth 5) (t.getM (mk.setWidth 3))
      (fun i => extreme false (ftzOf t) (lane t (vd.setWidth 5) i) (lane t (va.setWidth 5) i))
  | vfmax16 mk vd va : ExactFloat t (.vfmax16 mk vd va) 2 (vd.setWidth 5) (t.getM (mk.setWidth 3))
      (fun i => extreme true (ftzOf t) (lane t (vd.setWidth 5) i) (lane t (va.setWidth 5) i))

/-- Two FP32 values that are no NaN: equal where both are zero. -/
def sameValue (a b : Word) : Bool := decide (a = b) || decide ((a ||| b) &&& 0x7FFFFFFF = 0)
/-- vfcmp's comparisons: eq, lt, le, un (R206). -/
def compares (cc : BitVec 2) (a b : Word) : Bool :=
  match cc with
  | 0#2 => !(isNan a || isNan b) && sameValue a b
  | 1#2 => !(isNan a || isNan b) && decide (rank a < rank b) && !sameValue a b
  | 2#2 => !(isNan a || isNan b) && (decide (rank a ≤ rank b) || sameValue a b)
  | 3#2 => isNan a || isNan b

/-! ### Values and their conversion (R104, R105, R111 to R114) -/

/-- A value: NaN, an infinity or a number; neg is the sign that a zero has. -/
inductive Num where
  | nan
  | inf (neg : Bool)
  | fin (neg : Bool) (x : ℚ)

/-- A floating-point format: widths, bias, the code of its largest number, of +∞ and of its NaN, and its cell code. -/
structure Shape where
  width : ℕ
  mant : ℕ
  bias : ℕ
  top : ℕ
  inf : Option ℕ
  nan : Option ℕ
  cell : ℕ

/-- A format of elements. -/
inductive Fmt where
  | float (f : Shape)
  | int (w cell : ℕ)

def fp32 : Shape := ⟨32, 23, 127, 0x7F7FFFFF, some 0x7F800000, some 0x7FC00000, 0x10⟩
/-- The formats by their FMT4 codes (R28, R99, R104, R105). -/
def formats : List Fmt :=
  [.float fp32, .float ⟨16, 7, 127, 0x7F7F, some 0x7F80, some 0x7FC0, 0x11⟩,
    .float ⟨16, 10, 15, 0x7BFF, some 0x7C00, some 0x7E00, 0x12⟩, .float ⟨8, 3, 7, 0x7E, none, some 0x7F, 0x20⟩,
    .float ⟨8, 2, 15, 0x7B, some 0x7C, some 0x7E, 0x21⟩, .float ⟨4, 1, 1, 7, none, none, 0x30⟩,
    .int 8 0x22, .int 4 0x31, .int 32 0x13]

def Fmt.width : Fmt → ℕ
  | .float f => f.width
  | .int w _ => w
def Fmt.cell : Fmt → ℕ
  | .float f => f.cell
  | .int _ c => c

/-- The number that a magnitude's code stands for. -/
def magnitude (f : Shape) (c : ℕ) : ℚ :=
  let e := c / 2 ^ f.mant
  let m := c % 2 ^ f.mant
  if e = 0 then m * 2 ^ (1 - f.bias - f.mant : ℤ) else (2 ^ f.mant + m) * 2 ^ ((e : ℤ) - f.bias - f.mant)

/-- An encoding from a sign and a magnitude's code. -/
def signed (f : Shape) (neg : Bool) (c : ℕ) : ℕ := if neg then 2 ^ (f.width - 1) + c else c

/-- What an element's bits mean. -/
def decoded : Fmt → ℕ → Num
  | .float f, b =>
    let c := b % 2 ^ (f.width - 1)
    let neg := decide (2 ^ (f.width - 1) ≤ b)
    if f.inf = some c then .inf neg
    else if f.top < c then .nan
    else .fin neg (if neg then -magnitude f c else magnitude f c)
  | .int w _, b => if b < 2 ^ (w - 1) then .fin false b else .fin true ((b : ℚ) - 2 ^ w)

/-- The integer n that x rounds to by a mode's code, with the word drawn for SR. -/
def RoundsTo (rm : BitVec 3) (draw : Word) (x : ℝ) (n : ℤ) : Prop :=
  ∃ lo : ℤ, (lo : ℝ) ≤ x ∧ x < lo + 1 ∧ (x = lo → n = lo) ∧ (x ≠ lo → (n = lo ∨ n = lo + 1) ∧
    (n = lo + 1 ↔
      (rm = 0 ∧ ((lo : ℝ) + 1 / 2 < x ∨ (x = lo + 1 / 2 ∧ lo % 2 = 1))) ∨ (rm = 1 ∧ lo < 0) ∨ rm = 3 ∨
      (rm = 4 ∧ ∃ k : ℕ, (k : ℝ) ≤ (x - lo) * 2 ^ 32 ∧ (x - lo) * 2 ^ 32 < k + 1 ∧ draw.toNat < k)))

/-- cvt of the number e, of sign neg, into a floating-point format (R113, and R201 where ftz): the grid's unit is 2^k. -/
def CvtReal (f : Shape) (rm : BitVec 3) (draw : Word) (sat ftz neg : Bool) (e : ℝ) (b : ℕ) (fl : Word) : Prop :=
  ∃ k n : ℤ, 1 - (f.bias : ℤ) - f.mant ≤ k ∧ |e| < 2 ^ (k + f.mant + 1) ∧
    (k = 1 - (f.bias : ℤ) - f.mant ∨ 2 ^ (k + f.mant) ≤ |e|) ∧ RoundsTo rm draw (e / 2 ^ k) n ∧
    (let q : ℝ := n * 2 ^ k
     let top : ℝ := (magnitude f f.top : ℚ)
     let tiny : ℝ := 2 ^ (1 - (f.bias : ℤ))
     (top < |q| → fl = 5 ∧ b = (match f.inf, f.nan, sat with
        | some i, _, false => signed f neg i
        | none, some m, false => m
        | _, _, _ => signed f neg f.top)) ∧
     (|q| ≤ top → ftz = true → n ≠ 0 → |q| < tiny → b = signed f neg 0 ∧ fl = 3) ∧
     (|q| ≤ top → ¬(ftz = true ∧ n ≠ 0 ∧ |q| < tiny) →
        (∃ c, c ≤ f.top ∧ ((magnitude f c : ℚ) : ℝ) = |q| ∧ b = signed f neg c) ∧
        (q = e → fl = 0) ∧ (q ≠ e → |e| < tiny → fl = 3) ∧ (q ≠ e → tiny ≤ |e| → fl = 1)))

/-- cvt of a value into a format (R113): the element's bits and the flags. -/
def Cvt (f : Fmt) (rm : BitVec 3) (draw : Word) (sat ftz : Bool) (v : Num) (b : ℕ) (fl : Word) : Prop :=
  match f, v with
  | .float f, .nan => (match f.nan with | some m => b = m ∧ fl = 0 | none => b = 0 ∧ fl = 16)
  | .float f, .inf neg => (match f.inf, sat with
    | some i, false => b = signed f neg i ∧ fl = 0
    | _, _ => fl = 5 ∧ b = (match f.nan, sat with | some m, false => m | _, _ => signed f neg f.top))
  | .float f, .fin neg x => CvtReal f rm draw sat ftz neg x b fl
  | .int _ _, .nan => b = 0 ∧ fl = 16
  | .int w _, .inf neg => fl = 16 ∧ b = (if neg then 2 ^ (w - 1) else 2 ^ (w - 1) - 1)
  | .int w _, .fin _ x => ∃ n : ℤ, RoundsTo rm draw x n ∧
      (2 ^ (w - 1) ≤ n → b = 2 ^ (w - 1) - 1 ∧ fl = 16) ∧ (n < -(2 ^ (w - 1)) → b = 2 ^ (w - 1) ∧ fl = 16) ∧
      (n < 2 ^ (w - 1) → -(2 ^ (w - 1)) ≤ n → (b : ℤ) = n % 2 ^ w ∧ fl = if (n : ℚ) = x then 0 else 1)

/-- A lane as a value, FTZ acting first; and a lane with its NaN made canonical. -/
def single (ftz : Bool) (w : Word) : Num := decoded (.float fp32) (flushed ftz w).toNat
def plain (ftz : Bool) (w : Word) : Word := if isNan w then 0x7FC00000 else flushed ftz w

/-- Exact operations: nothing where the operation is invalid (R204). -/
def plus (rdn : Bool) : Num → Num → Option Num
  | .nan, _ => some .nan
  | _, .nan => some .nan
  | .inf a, .inf b => if a = b then some (.inf a) else none
  | .inf a, .fin _ _ => some (.inf a)
  | .fin _ _, .inf b => some (.inf b)
  | .fin a x, .fin b y => some (.fin (if x + y = 0 then (if a = b then a else rdn) else decide (x + y < 0)) (x + y))
def times : Num → Num → Option Num
  | .nan, _ => some .nan
  | _, .nan => some .nan
  | .inf a, .inf b => some (.inf (a != b))
  | .inf a, .fin b y => if y = 0 then none else some (.inf (a != b))
  | .fin a x, .inf b => if x = 0 then none else some (.inf (a != b))
  | .fin a x, .fin b y => some (.fin (a != b) (x * y))
def negated : Num → Num
  | .nan => .nan
  | .inf a => .inf !a
  | .fin a x => .fin (!a) (-x)
def fused (rdn : Bool) (a b c : Num) : Option Num :=
  match a, b, c with
  | .nan, _, _ => some .nan
  | _, .nan, _ => some .nan
  | _, _, .nan => some .nan
  | a, b, c => (times a b).bind fun p => plus rdn p c

/-- A lane's word and flags from an exact result. -/
def Gives (rm : BitVec 3) (draw : Word) (ftz : Bool) (v : Option Num) (w fl : Word) : Prop :=
  match v with
  | none => w = 0x7FC00000 ∧ fl = 16
  | some v => Cvt (.float fp32) rm draw false ftz v w.toNat fl

/-! ### The Hare (R215 to R217) -/

def rounds : List (ℕ × ℕ) :=
  [(0x5A8371C4, 9), (0x2F9E0B67, 14), (0xC14D3A92, 6), (0x78B2E5D1, 21), (0x0E669F3B, 11), (0xB3D84A05, 3)]

/-- The four words of an evaluation. -/
def hareWords (key : Dword) (stream : Word) (counter : Dword) : List Word :=
  let low (n : ℕ) : Word := BitVec.ofNat 32 n
  let k := key.toNat
  let r := rounds.foldl (fun (s : Word × Word × Word × Word) (c : ℕ × ℕ) =>
      let a := low (s.1.toNat * 0xB7E43D59)
      let b := low (s.2.2.1.toNat * 0xD62FA8C3)
      let rotl (v : Word) : Word := low (v.toNat * 2 ^ c.2 + v.toNat / 2 ^ (32 - c.2))
      (s.2.1 ^^^ rotl a ^^^ (low k ^^^ low c.1), b,
        low (s.2.2.2.toNat + (rotl b).toNat + (k / 2 ^ 32 + c.1)), a))
    (low counter.toNat, low (counter.toNat / 2 ^ 32), stream, low 0x6C3F1E95)
  [r.1, r.2.1, r.2.2.1, r.2.2.2]

/-- The word that SR draws for lane i (R202). -/
def laneDraw (t : Thread) (cell : ℕ) (i : BitVec 3) : Word :=
  (hareWords t.csr.srseed (BitVec.ofNat 32 cell)
    (BitVec.ofNat 64 (t.csr.srctr.toNat % 2 ^ 61 * 8 + i.toNat))).getD 0 0

/-- The word of element X[xb] + i of vhare's stream. -/
def hareLane (t : Thread) (xa xb : Reg) (i : BitVec 3) : Word :=
  let e := ((t.getX xb).toNat + i.toNat) % 2 ^ 64
  (hareWords (t.getX xa) (BitVec.ofNat 32 (t.getX (xa + 1)).toNat) (BitVec.ofNat 64 (e / 4))).getD (e % 4) 0

/-! ### Exponential, logarithm, reciprocals (R209 to R214) -/

def Product (a b w : Word) : Prop := ∃ fl, Gives 0 0 false (times (single false a) (single false b)) w fl
def Fused (a b c w : Word) : Prop :=
  ∃ fl, Gives 0 0 false (fused false (single false a) (single false b) (single false c)) w fl

/-- E(x), from its procedure. -/
def Expo (x w fl : Word) : Prop :=
  match single false x with
  | .nan => w = 0x7FC00000 ∧ fl = 0
  | .inf neg => w = (if neg then 0 else 0x7F800000) ∧ fl = 0
  | .fin _ v =>
    (128 ≤ v → w = 0x7F800000 ∧ fl = 5) ∧ (v ≤ -128 → w = 0 ∧ fl = 3) ∧
    (-128 < v → v < 128 →
      ∃ (n : ℤ) (y k f₀ f g₀ g₁ g T m : Word) (sy sm : Bool) (vy vm : ℚ) (i₀ i₁ l : Word),
        Product x 0x42B8AA3B y ∧ single false y = .fin sy vy ∧ RoundsTo 0 0 vy n ∧
        Cvt (.float fp32) 0 0 false false (.fin (decide (0 < n)) (-n)) k.toNat i₀ ∧
        Fused k 0x3C317200 x f₀ ∧ Fused k 0x32BFBE8E f₀ f ∧
        Fused 0x3E2AAAAB f 0x3F000000 g₀ ∧ Fused g₀ f 0x3F800000 g₁ ∧ Product g₁ f g ∧
        CvtReal fp32 0 0 false false false ((2 : ℝ) ^ (((n % 64 : ℤ) : ℝ) / 64)) T.toNat i₁ ∧
        Fused T g T m ∧ single false m = .fin sm vm ∧
        Cvt (.float fp32) 0 0 false false (.fin sm (vm * 2 ^ (n / 64))) w.toNat l ∧ fl = l ||| (if v = 0 then 0 else 1))

/-- vexpd's table. -/
def ExpoDiff (a b w fl : Word) : Prop :=
  match single false a, single false b with
  | .nan, _ => w = 0x7FC00000 ∧ fl = 0
  | _, .nan => w = 0x7FC00000 ∧ fl = 0
  | .inf true, _ => w = 0 ∧ fl = 0
  | .inf false, .inf false => w = 0x3F800000 ∧ fl = 0
  | .inf false, _ => w = 0x7F800000 ∧ fl = 0
  | .fin _ _, .inf neg => w = (if neg then 0x7F800000 else 0) ∧ fl = 0
  | .fin s x, .fin s' y => ∃ d l, Gives 0 0 false (plus false (.fin s x) (negated (.fin s' y))) d l ∧ Expo d w fl

def Reciprocal (er : Bool) (rm : BitVec 3) (draw : Word) (ftz : Bool) (a : Num) (w fl : Word) : Prop :=
  match a with
  | .nan => w = 0x7FC00000 ∧ fl = 0
  | .inf neg => w = (if neg then 0x80000000 else 0) ∧ fl = 0
  | .fin neg x =>
    (x = 0 → er = true → w = 0 ∧ fl = 0x200) ∧
    (x = 0 → er = false → w = (if neg then 0xFF800000 else 0x7F800000) ∧ fl = 8) ∧
    (x ≠ 0 → Cvt (.float fp32) rm draw false ftz (.fin neg (1 / x)) w.toNat fl)

def RootReciprocal (rm : BitVec 3) (draw : Word) (ftz : Bool) (a : Num) (w fl : Word) : Prop :=
  match a with
  | .nan => w = 0x7FC00000 ∧ fl = 0
  | .inf neg => (if neg then w = 0x7FC00000 ∧ fl = 16 else w = 0 ∧ fl = 0)
  | .fin neg x =>
    (x = 0 → w = (if neg then 0xFF800000 else 0x7F800000) ∧ fl = 8) ∧ (x < 0 → w = 0x7FC00000 ∧ fl = 16) ∧
    (0 < x → CvtReal fp32 rm draw false ftz false (1 / Real.sqrt x) w.toNat fl)

/-- The logarithm, of which the conversion rounds a number within 2^−100 of the exact one. -/
def Logarithm (ftz : Bool) (a : Num) (w fl : Word) : Prop :=
  match a with
  | .nan => w = 0x7FC00000 ∧ fl = 0
  | .inf neg => (if neg then w = 0x7FC00000 ∧ fl = 16 else w = 0x7F800000 ∧ fl = 0)
  | .fin _ x =>
    (x = 0 → w = 0xFF800000 ∧ fl = 8) ∧ (x < 0 → w = 0x7FC00000 ∧ fl = 16) ∧
    (0 < x → ∃ (r : ℝ) (neg : Bool), |r - Real.logb 2 x| < (2 : ℝ) ^ (-100 : ℤ) ∧
      (∀ k : ℤ, x = 2 ^ k → r = k) ∧ (neg = true ↔ r < 0) ∧ CvtReal fp32 0 0 false ftz neg r w.toNat fl)

/-- Lane k's word and flags, for the instructions of FloatOp. -/
inductive FloatLane (t : Thread) : Instr → (BitVec 3 → Word → Word → Prop) → Prop where
  | vfadd mk vd va vb : FloatLane t (.vfadd mk vd va vb) fun k => Gives (rmOf t) (laneDraw t 0x10 k) (ftzOf t)
      (plus (decide (rmOf t = 2)) (single (ftzOf t) (lane t va k)) (single (ftzOf t) (lane t vb k)))
  | vfsub mk vd va vb : FloatLane t (.vfsub mk vd va vb) fun k => Gives (rmOf t) (laneDraw t 0x10 k) (ftzOf t)
      (plus (decide (rmOf t = 2)) (single (ftzOf t) (lane t va k)) (negated (single (ftzOf t) (lane t vb k))))
  | vfmul mk vd va vb : FloatLane t (.vfmul mk vd va vb) fun k => Gives (rmOf t) (laneDraw t 0x10 k) (ftzOf t)
      (times (single (ftzOf t) (lane t va k)) (single (ftzOf t) (lane t vb k)))
  | vfma mk vd va vb : FloatLane t (.vfma mk vd va vb) fun k => Gives (rmOf t) (laneDraw t 0x10 k) (ftzOf t)
      (fused (decide (rmOf t = 2)) (single (ftzOf t) (lane t va k)) (single (ftzOf t) (lane t vb k))
        (single (ftzOf t) (lane t vd k)))
  | vfadd16 mk (vd va : BitVec 4) : FloatLane t (.vfadd16 mk vd va) fun k =>
      Gives (rmOf t) (laneDraw t 0x10 k) (ftzOf t) (plus (decide (rmOf t = 2))
        (single (ftzOf t) (lane t (vd.setWidth 5) k)) (single (ftzOf t) (lane t (va.setWidth 5) k)))
  | vfsub16 mk (vd va : BitVec 4) : FloatLane t (.vfsub16 mk vd va) fun k =>
      Gives (rmOf t) (laneDraw t 0x10 k) (ftzOf t) (plus (decide (rmOf t = 2))
        (single (ftzOf t) (lane t (vd.setWidth 5) k)) (negated (single (ftzOf t) (lane t (va.setWidth 5) k))))
  | vfmul16 mk (vd va : BitVec 4) : FloatLane t (.vfmul16 mk vd va) fun k =>
      Gives (rmOf t) (laneDraw t 0x10 k) (ftzOf t)
        (times (single (ftzOf t) (lane t (vd.setWidth 5) k)) (single (ftzOf t) (lane t (va.setWidth 5) k)))
  | vexp mk vd va : FloatLane t (.vexp mk vd va) fun k => Expo (lane t va k)
  | vexpd mk vd va vb : FloatLane t (.vexpd mk vd va vb) fun k => ExpoDiff (lane t va k) (lane t vb k)
  | vlog2 mk vd va : FloatLane t (.vlog2 mk vd va) fun k => Logarithm (ftzOf t) (single (ftzOf t) (lane t va k))
  | vrcp er mk vd va : FloatLane t (.vrcp er mk vd va) fun k =>
      Reciprocal er (rmOf t) (laneDraw t 0x10 k) (ftzOf t) (single (ftzOf t) (lane t va k))
  | vrsqrt mk vd va : FloatLane t (.vrsqrt mk vd va) fun k =>
      RootReciprocal (rmOf t) (laneDraw t 0x10 k) (ftzOf t) (single (ftzOf t) (lane t va k))

/-- The flags of the active lanes together (R199). -/
def union (m : Byte) (fl : BitVec 3 → Word) : Word :=
  (List.range 8).foldl (fun a i => if m.getLsbD i then a ||| fl (BitVec.ofNat 3 i) else a) 0

/-! ### vfred and vfcvt (R207, R208) -/

/-- Two entries of vfred's tree, each a word and the flags so far, or absent. -/
def Joined (op : BitVec 2) (ftz : Bool) : Option (Word × Word) → Option (Word × Word) → Option (Word × Word) → Prop
  | none, y, z => z = y
  | x, none, z => z = x
  | some (a, fa), some (b, fb), z =>
    (op = 0 → ∃ w fl, Gives 0 0 ftz (plus false (single ftz a) (single ftz b)) w fl ∧ z = some (w, fl ||| fa ||| fb)) ∧
    (op ≠ 0 → z = some (extreme (decide (op = 2)) ftz a b, fa ||| fb))

/-- vfred's result over the active lanes. -/
def Reduced (t : Thread) (op : BitVec 2) (mk : BitVec 3) (va : Reg) (w fl : Word) : Prop :=
  let u (i : BitVec 3) : Option (Word × Word) := if on t mk i then some (plain (ftzOf t) (lane t va i), 0) else none
  ∃ a b c d e f r, Joined op (ftzOf t) (u 0) (u 1) a ∧ Joined op (ftzOf t) (u 2) (u 3) b ∧
    Joined op (ftzOf t) (u 4) (u 5) c ∧ Joined op (ftzOf t) (u 6) (u 7) d ∧ Joined op (ftzOf t) a b e ∧
    Joined op (ftzOf t) c d f ∧ Joined op (ftzOf t) e f r ∧
    r.getD (if op = 0 then 0 else if op = 1 then 0x7F800000 else 0xFF800000, 0) = (w, fl)

/-- Eight lanes as one number, lane j in bits [32j + 31 : 32j]. -/
def packed (f : BitVec 3 → Word) : ℕ := ((List.range 8).map fun j => (f (BitVec.ofNat 3 j)).toNat * 2 ^ (32 * j)).sum

/-- The fallback of a conversion (R56). -/
def convertCode (from_ : Bool) (rm : BitVec 3) (sat : Bool) (f : Fmt) : Byte :=
  match from_, f with
  | true, _ => if rm ≠ 0 then 7 else if sat then 8 else 0
  | false, .int _ _ => if sat then 6 else 0
  | false, .float _ => 0

end Sys2Proof.Claims

section
open Sys2Proof Sys2Proof.Machine

/-- R177: x0 and m0. A read of x0 gives 0 and of m0 gives 0xFF whatever their cells hold, and a write of either changes
no register. -/
def Obligations.HardwiredRegisters : Prop :=
  ∀ (t : Thread) v b, t.getX 0 = 0 ∧ t.getM 0 = 0xFF ∧ t.setX 0 v = t ∧ t.setM 0 b = t ∧
    (∀ r, r ≠ 0 → (t.setX r v).getX r = v ∧ ∀ q, q ≠ r → (t.setX r v).getX q = t.getX q) ∧
    (∀ r, r ≠ 0 → (t.setM r b).getM r = b ∧ ∀ q, q ≠ r → (t.setM r b).getM q = t.getM q)

/-- R206: vfcmp writes every bit of M[md] and sets no flag. -/
def Obligations.FloatCompareResults : Prop :=
  ∀ s cc mk md va vb, Claims.Alone s 4 →
    ∃ b : Byte, (∀ k, k < 8 → b.getLsbD k =
        (Claims.on s.chip.t mk (BitVec.ofNat 3 k) &&
          Claims.compares cc (Claims.flushed (Claims.ftzOf s.chip.t) (Claims.lane s.chip.t va (BitVec.ofNat 3 k)))
            (Claims.flushed (Claims.ftzOf s.chip.t) (Claims.lane s.chip.t vb (BitVec.ofNat 3 k))))) ∧
      exec (.vfcmp cc mk md va vb) s = .next (Claims.withThread s (Claims.past (Claims.writeM s.chip.t md b) 4))

/-- R198, R199, R202, R207, R208, R214, R217: the floating-point lane instructions write their active lanes, add only
IEEE flags (vrcp.er EMPTYROW too), count a draw where they round by SR, and change nothing else but the program
counter; vfred writes X[xd] with its upper half 0, +0, +∞ or −∞ where no lane is active; vfcvt writes every lane of vd
and may record a fallback; vhare writes its stream's words to the active lanes (R215 to R217). -/
def Obligations.FloatInstructionsComplete : Prop :=
  (∀ s i n vd m rm, Claims.FloatOp s.chip.t i n vd m rm → Claims.Alone s n →
     ∃ (f : BitVec 3 → Word) (fl : Word),
       (fl &&& ~~~0x1F = 0 ∨ (fl &&& ~~~0x21F = 0 ∧ ∃ mk vd va, i = .vrcp true mk vd va)) ∧ (m = 0 → fl = 0) ∧
       exec i s = .next (Claims.withThread s
         (Claims.past (Claims.counted (Claims.withFlags (Claims.writeV s.chip.t vd m f) fl) rm) n))) ∧
  (∀ s op mk xd va, (Instr.vfred op mk xd va).WellFormed → Claims.Alone s 4 →
    ∃ (w fl : Word), fl &&& ~~~0x1F = 0 ∧
      (s.chip.t.getM mk = 0 → w = (if op = 0 then 0 else if op = 1 then 0x7F800000 else 0xFF800000) ∧ fl = 0) ∧
      exec (.vfred op mk xd va) s = .next (Claims.withThread s
        (Claims.past (Claims.writeX (Claims.withFlags s.chip.t fl) xd (BitVec.ofNat 64 w.toNat)) 4))) ∧
  (∀ s from_ rm sat fmt vd va, (Instr.vfcvt from_ rm sat fmt vd va).WellFormed → Claims.Alone s 4 →
    ∃ (f : BitVec 3 → Word) (fl : Word) (code : Byte), fl &&& ~~~0x1F = 0 ∧ code ∈ [0, 6, 7, 8] ∧
      exec (.vfcvt from_ rm sat fmt vd va) s = .next (Claims.withThread s
        (Claims.past ((Claims.writeV (Claims.counted (Claims.withFlags s.chip.t fl) (if from_ then 0 else rm)) vd 0xFF f).warn
          code s.chip.t.pc) 4))) ∧
  (∀ s mk vd xa xb, (Instr.vhare mk vd xa xb).WellFormed → Claims.Alone s 4 →
    exec (.vhare mk vd xa xb) s = .next (Claims.withThread s
      (Claims.past (Claims.writeV s.chip.t vd (s.chip.t.getM mk) (Claims.hareLane s.chip.t xa xb)) 4)))

/-- R205: vfmin, vfmax, vfabs and vfneg, with their values; they set no flag. R204, R207 to R214: what the other
floating-point lane instructions write and which flags they set, by R113's conversion of the exact result: vfadd, vfsub,
vfmul, vfma and the compact forms, vrcp and vrsqrt; vexp and vexpd by their procedure; vlog2 of a number within 2^−100 of
the logarithm, exact at powers of two (its last bit beyond that is no part of this statement); vfred by its tree; vfcvt
both ways. RM's values 5 to 7 are never stored (R200). -/
def Obligations.ExactFloatResults : Prop :=
  (∀ s i n vd m f, Claims.ExactFloat s.chip.t i n vd m f → Claims.Alone s n →
     exec i s = .next (Claims.withThread s (Claims.past (Claims.writeV s.chip.t vd m f) n))) ∧
  (∀ s i n vd m rm v, Claims.FloatOp s.chip.t i n vd m rm → Claims.FloatLane s.chip.t i v →
     (Claims.rmOf s.chip.t).toNat ≤ 4 → Claims.Alone s n →
     ∃ f fl : BitVec 3 → Word, (∀ k, v k (f k) (fl k)) ∧
       exec i s = .next (Claims.withThread s (Claims.past (Claims.counted
         (Claims.withFlags (Claims.writeV s.chip.t vd m f) (Claims.union m fl)) rm) n))) ∧
  (∀ s op mk xd va, (Instr.vfred op mk xd va).WellFormed → Claims.Alone s 4 →
    ∃ w fl, Claims.Reduced s.chip.t op mk va w fl ∧
      exec (.vfred op mk xd va) s = .next (Claims.withThread s
        (Claims.past (Claims.writeX (Claims.withFlags s.chip.t fl) xd (BitVec.ofNat 64 w.toNat)) 4))) ∧
  (∀ s rm sat fmt vd va F, (Instr.vfcvt false rm sat fmt vd va).WellFormed → Claims.Alone s 4 →
    Claims.formats[fmt.toNat]? = some F →
    ∃ (p : BitVec 3 → ℕ) (fl : BitVec 3 → Word) (f : BitVec 3 → Word),
      (∀ k, Claims.Cvt F rm (Claims.laneDraw s.chip.t F.cell k) sat false
        (Claims.single false (Claims.lane s.chip.t va k)) (p k) (fl k)) ∧
      (∀ j, f j = BitVec.ofNat 32 (((List.range 8).map fun k =>
        p (BitVec.ofNat 3 k) * 2 ^ (F.width * k)).sum / 2 ^ (32 * j.toNat))) ∧
      exec (.vfcvt false rm sat fmt vd va) s = .next (Claims.withThread s (Claims.past
        ((Claims.writeV (Claims.counted (Claims.withFlags s.chip.t (Claims.union 0xFF fl)) rm) vd 0xFF f).warn
          (Claims.convertCode false rm sat F) s.chip.t.pc) 4))) ∧
  (∀ s rm sat fmt vd va F, (Instr.vfcvt true rm sat fmt vd va).WellFormed → Claims.Alone s 4 →
    Claims.formats[fmt.toNat]? = some F →
    ∃ f fl : BitVec 3 → Word,
      (∀ k, Claims.Cvt (.float Claims.fp32) 0 0 false false (Claims.decoded F
        (Claims.packed (Claims.lane s.chip.t va) / 2 ^ (F.width * k.toNat) % 2 ^ F.width)) (f k).toNat (fl k)) ∧
      exec (.vfcvt true rm sat fmt vd va) s = .next (Claims.withThread s (Claims.past
        ((Claims.writeV (Claims.withFlags s.chip.t (Claims.union 0xFF fl)) vd 0xFF f).warn
          (Claims.convertCode true rm sat F) s.chip.t.pc) 4)))

end

namespace Sys2Proof.Claims
open Sys2Proof.Machine

/-! ## CSRs (R312, R313) -/

/-- A register of fewer bits, zero-extended. -/
def wide {w : Nat} (v : BitVec w) : Dword := BitVec.ofNat 64 v.toNat

def withCsr (s : State) (k : Csrs) : State := withThread s { s.chip.t with csr := k }
/-- A die's and a core's own registers replaced. -/
def withDie (s : State) (d : Die) : State := { s with chip := s.chip.setDie s.chip.tid.die d }
def withRgn (s : State) (r : List Dword) : State :=
  let k := s.chip.core s.chip.tid.coreId
  { s with chip := s.chip.setCore s.chip.tid.coreId { k with rgn := r } }

/-- Bits of w kept where a mask has ones, in 32 bits. -/
def bits (w : Dword) (mask : Nat) : Word := BitVec.ofNat 32 w.toNat &&& BitVec.ofNat 32 mask
/-- RM and FTZ or SAT as written: a mode of 5 to 7 stores 0. -/
def mode (w : Dword) : Word := bits w 8 ||| (if w.toNat % 8 ≤ 4 then bits w 7 else 0)

/-- The value of a CSR: the field that its number names in the map, zero-extended. -/
def csrValue (s : State) (n : BitVec 10) : Dword :=
  let t := s.chip.t
  let k := t.csr
  let tid := s.chip.tid
  let d := s.chip.die tid.die
  let user := [wide k.flags, wide k.fpctl, wide k.expr, wide k.cellcv, wide k.drscl, wide k.jctl, wide k.cutctl,
    wide k.barp, k.srseed, k.srctr, wide k.warnc, k.warnpc, wide t.repc, (t.loops.map fun e => wide e.count).getD 0 0]
  let modid := if s.mgmt.modid = 0 then 0xFFF else s.mgmt.modid.toNat
  let place := modid * 2 ^ 32 + tid.cx % 256 * 2 ^ 24 + tid.cy % 256 * 2 ^ 16 + tid.core % 8 * 2 ^ 4 + tid.thread % 16
  let fixed := (List.range 4).map (fun i => wide (k.tile.getD i 0)) ++ (List.range 4).map (fun i => wide (k.org.getD i 0)) ++
    (List.range 4).map (fun i => wide (k.ext.getD i 0)) ++
    [BitVec.ofNat 64 place, BitVec.ofNat 64 (t.gangSize % 16 * 16 + t.gangMember % 8), wide k.ldkey, k.tframe]
  let windows := (List.range 4).map (fun i => k.lwin.getD i 0) ++
    (List.range 4).map (fun i => (s.chip.core tid.coreId).rgn.getD i 0)
  let supervisor := [d.tvec, k.sscr, wide k.even, wide d.evpend, wide s.chip.denT1, wide s.chip.denT2]
  if n.toNat < 0x10 then user.getD n.toNat 0
  else if n.toNat < 0x20 then fixed.getD (n.toNat - 0x10) 0
  else if n.toNat < 0x28 then windows.getD (n.toNat - 0x20) 0
  else supervisor.getD (n.toNat - 0x100) 0

/-- A CSR that the acting thread's mode may read: user CSRs, and the supervisor's. -/
def readable (t : Thread) (n : BitVec 10) : Prop :=
  n.toNat ≤ 0x0D ∨ (0x10 ≤ n.toNat ∧ n.toNat ≤ 0x27) ∨ (t.sup = true ∧ 0x100 ≤ n.toNat ∧ n.toNat ≤ 0x105)
/-- A CSR that it may write. -/
def writable (t : Thread) (n : BitVec 10) : Prop :=
  n.toNat ≤ 0x0D ∨ (t.sup = true ∧ ((0x20 ≤ n.toNat ∧ n.toNat ≤ 0x27) ∨ (0x100 ≤ n.toNat ∧ n.toNat ≤ 0x105)))

/-- The state after a CSR is written with w, where x is X[xa]: each field by its access in the CSR's map. -/
inductive CsrWrite (s : State) (w x : Dword) : BitVec 10 → State → Prop where
  | flags : CsrWrite s w x 0x000 (withCsr s { s.chip.t.csr with flags := bits w 0xF1F })
  | fpctl : CsrWrite s w x 0x001 (withCsr s { s.chip.t.csr with fpctl := mode w })
  | expr : CsrWrite s w x 0x002 (withCsr s { s.chip.t.csr with expr := if w.toNat % 32 ≤ 16 then bits w 0x1F else 16 })
  | cellcv : CsrWrite s w x 0x003 (withCsr s { s.chip.t.csr with cellcv := mode w })
  | drscl : CsrWrite s w x 0x004 (withCsr s { s.chip.t.csr with drscl := bits w 0xFF })
  | jctl : CsrWrite s w x 0x005 (withCsr s { s.chip.t.csr with jctl := bits w 0x1FF })
  | cutctl : CsrWrite s w x 0x006 (withCsr s { s.chip.t.csr with
      cutctl := bits w 1 ||| (if x.getLsbD 1 then 0 else s.chip.t.csr.cutctl &&& 2) })
  | barp : CsrWrite s w x 0x007 (withCsr s { s.chip.t.csr with barp := bits w 0xFFFFFFFF })
  | srseed : CsrWrite s w x 0x008 (withCsr s { s.chip.t.csr with srseed := w })
  | srctr : CsrWrite s w x 0x009 (withCsr s { s.chip.t.csr with srctr := w })
  | warnc : CsrWrite s w x 0x00A (withCsr s { s.chip.t.csr with warnc := bits w 0xFFFF })
  | warnpc : CsrWrite s w x 0x00B (withCsr s { s.chip.t.csr with warnpc := w &&& ~~~1 })
  | repc : CsrWrite s w x 0x00C (withThread s { s.chip.t with repc := bits w 0xBF })
  | lc : s.chip.t.loops = [] → CsrWrite s w x 0x00D s
  | lwin (i : Nat) : i < 4 → CsrWrite s w x (BitVec.ofNat 10 (0x20 + i))
      (withCsr s { s.chip.t.csr with lwin := s.chip.t.csr.lwin.set i (w &&& 0x00000301FFFFFFFF) })
  | rgn (i : Nat) : i < 4 → CsrWrite s w x (BitVec.ofNat 10 (0x24 + i))
      (withRgn s ((s.chip.core s.chip.tid.coreId).rgn.set i (w &&& ~~~0x3FFFF)))
  | tvec : CsrWrite s w x 0x100 (withDie s { s.chip.die s.chip.tid.die with tvec := w &&& ~~~1 })
  | sscr : CsrWrite s w x 0x101 (withCsr s { s.chip.t.csr with sscr := w })
  | even : CsrWrite s w x 0x102 (withCsr s { s.chip.t.csr with even := BitVec.ofNat 4 w.toNat })
  | evpend : CsrWrite s w x 0x103 (withDie s { s.chip.die s.chip.tid.die with
      evpend := (s.chip.die s.chip.tid.die).evpend &&& ~~~(BitVec.ofNat 4 x.toNat) })
  | denT1 : CsrWrite s w x 0x104 { s with chip := { s.chip with denT1 := bits w 0xFFFFFFFF } }
  | denT2 : CsrWrite s w x 0x105 { s with chip := { s.chip with denT2 := bits w 0xFFFFFFFF } }

/-- X[rd] ← v in the acting thread, and the program counter past an instruction of 4 bytes. -/
def resumeWith (s : State) (rd : Reg) (v : Dword) : State := withThread s (past (writeX s.chip.t rd v) 4)

/-! ## Control flow (R268 to R271) -/

/-- A conditional branch, its operands, its comparison and its offset. -/
inductive Branch : Instr → Reg → Reg → (Dword → Dword → Bool) → BitVec 17 → Prop where
  | beq ra rb off : Branch (.beq ra rb off) ra rb (fun a b => decide (a = b)) off
  | bne ra rb off : Branch (.bne ra rb off) ra rb (fun a b => decide (a ≠ b)) off
  | blt ra rb off : Branch (.blt ra rb off) ra rb (fun a b => decide (a.toInt < b.toInt)) off
  | bge ra rb off : Branch (.bge ra rb off) ra rb (fun a b => decide (b.toInt ≤ a.toInt)) off
  | bltu ra rb off : Branch (.bltu ra rb off) ra rb (fun a b => decide (a.toNat < b.toNat)) off
  | bgeu ra rb off : Branch (.bgeu ra rb off) ra rb (fun a b => decide (b.toNat ≤ a.toNat)) off

/-- 2·off17 from the instruction's own address. -/
def target (t : Thread) (off : BitVec 17) : Dword := BitVec.ofInt 64 (t.pc.toInt + 2 * off.toInt)

/-- The thread with another program counter. -/
def goTo (t : Thread) (a : Dword) : Thread := { t with pc := a }

/-- The acting thread is READY with nothing pending, in no repeat; it may be in loops. -/
structure Steady (s : State) : Prop where
  ready : s.chip.t.run = .ready
  pend : s.chip.t.pend = []
  snaps : s.chip.t.snaps = []
  rep : s.chip.t.rep = none
  kernel : s.chip.t.squirrel.armed = none

/-- R271, from the manual's own loop: the successor and the stack after the back-edges at s. -/
def backEdges : List LoopEntry → Dword → Dword × List LoopEntry
  | [], s => (s, [])
  | e :: rest, s =>
    if s ≠ e.stop then (s, e :: rest)
    else if 1 < e.count.toNat then (e.start, { e with count := e.count - 1 } :: rest)
    else backEdges rest s

/-- The entries that a taken conditional branch to s leaves. -/
def leaves : List LoopEntry → Dword → List LoopEntry
  | [], _ => []
  | e :: rest, s => if s.toNat < e.start.toNat ∨ e.stop.toNat < s.toNat then leaves rest s else e :: rest

end Sys2Proof.Claims

section
open Sys2Proof Sys2Proof.Machine

/-- R312, R313: csrr completes for every CSR that the thread's mode may read: X[xd] takes the value of the register that
the number names, field by field, and nothing else changes but the program counter. -/
def Obligations.CsrReadCompletes : Prop :=
  ∀ s n xd, Claims.readable s.chip.t n → Claims.Alone s 4 →
    exec (.csrr xd n) s = .next (Claims.resumeWith s xd (Claims.csrValue s n))

/-- R312, R313: csrw gives each field what its map says, csrset and csrclr write the OR and the AND NOT and return the old
value, and with x0 they write no CSR. -/
def Obligations.CsrWriteResults : Prop :=
  (∀ s n xa s', Claims.CsrWrite s (s.chip.t.getX xa) (s.chip.t.getX xa) n s' → Claims.writable s.chip.t n →
    Claims.Alone s 4 → exec (.csrw n xa) s = .next (Claims.withThread s' (Claims.past s'.chip.t 4))) ∧
  (∀ s n xd xa s', xa ≠ 0 →
    Claims.CsrWrite s (Claims.csrValue s n ||| s.chip.t.getX xa) (s.chip.t.getX xa) n s' →
    Claims.writable s.chip.t n → Claims.Alone s 4 →
    exec (.csrset xd n xa) s = .next (Claims.resumeWith s' xd (Claims.csrValue s n))) ∧
  (∀ s n xd xa s', xa ≠ 0 →
    Claims.CsrWrite s (Claims.csrValue s n &&& ~~~(s.chip.t.getX xa)) (s.chip.t.getX xa) n s' →
    Claims.writable s.chip.t n → Claims.Alone s 4 →
    exec (.csrclr xd n xa) s = .next (Claims.resumeWith s' xd (Claims.csrValue s n))) ∧
  (∀ s n xd, Claims.readable s.chip.t n → Claims.Alone s 4 →
    exec (.csrset xd n 0) s = .next (Claims.resumeWith s xd (Claims.csrValue s n)) ∧
    exec (.csrclr xd n 0) s = .next (Claims.resumeWith s xd (Claims.csrValue s n)))

/-- R57: a completed fallback sets FLAGS.WARN, adds 1 to WARNC.COUNT up to 255, and records its code and address where
CODE was 0; every other register keeps its value. -/
def Obligations.FallbackRecord : Prop :=
  ∀ (t : Thread) (code : Byte) (a : Dword), code ≠ 0 →
    ∃ k : Csrs, t.warn code a = { t with csr := k } ∧
      k = { t.csr with flags := t.csr.flags ||| 0x400, warnc := k.warnc, warnpc := k.warnpc } ∧
      k.warnc.toNat / 256 = min 255 (t.csr.warnc.toNat / 256 % 256 + 1) ∧
      (t.csr.warnc.toNat % 256 = 0 → k.warnc.toNat % 256 = code.toNat ∧ k.warnpc = a) ∧
      (t.csr.warnc.toNat % 256 ≠ 0 → k.warnc.toNat % 256 = t.csr.warnc.toNat % 256 ∧ k.warnpc = t.csr.warnpc)

/-- R268, R269: the six conditional branches, outside loops; jal and jalr write the link after reading their source; an odd
jalr target traps MISALIGN precisely. -/
def Obligations.BranchAndJumpResults : Prop :=
  (∀ s i ra rb c off, Claims.Branch i ra rb c off → Claims.Alone s 4 → Claims.target s.chip.t off ≠ endLink →
     exec i s = .next (Claims.withThread s
       (if c (s.chip.t.getX ra) (s.chip.t.getX rb) then Claims.goTo s.chip.t (Claims.target s.chip.t off)
         else Claims.past s.chip.t 4))) ∧
  (∀ s xd off, Claims.Alone s 4 → Claims.target s.chip.t off ≠ endLink →
    exec (.jal xd off) s = .next (Claims.withThread s
      (Claims.goTo (Claims.writeX s.chip.t xd (s.chip.t.pc + 4)) (Claims.target s.chip.t off)))) ∧
  (∀ s xd xa imm, Claims.Alone s 4 →
    s.chip.t.getX xa + Claims.sext imm ≠ endLink → (s.chip.t.getX xa + Claims.sext imm).getLsbD 0 = false →
    exec (.jalr xd xa imm) s = .next (Claims.withThread s
      (Claims.goTo (Claims.writeX s.chip.t xd (s.chip.t.pc + 4)) (s.chip.t.getX xa + Claims.sext imm)))) ∧
  (∀ s xd xa imm, (s.chip.t.getX xa + Claims.sext imm).getLsbD 0 = true →
    Claims.Traps (.jalr xd xa imm) s Cause.misalign (s.chip.t.getX xa + Claims.sext imm) 2)

/-- R270, R271: loop pushes its entry, passes its body over where the count is 0, and traps LOOP_DEPTH on a full stack;
after an instruction inside loops the back-edges at its successor address apply (after a write of LC with the new
count), and a taken conditional branch leaves the
loops that its target is outside of. -/
def Obligations.LoopResults : Prop :=
  (∀ s xs (len : BitVec 17) (n : Word), (Instr.loop xs len).WellFormed → n = BitVec.ofNat 32 (s.chip.t.getX xs).toNat →
     Claims.Steady s →
     (n = 0 → s.chip.t.loops = [] → s.chip.t.pc + 4 + 2 * len.setWidth 64 ≠ endLink →
       exec (.loop xs len) s = .next (Claims.withThread s
         (Claims.goTo s.chip.t (s.chip.t.pc + 4 + 2 * len.setWidth 64)))) ∧
     (n ≠ 0 → s.chip.t.loops.length < 4 → s.chip.t.pc + 4 ≠ endLink →
       exec (.loop xs len) s = .next (Claims.withThread s
         { s.chip.t with
           pc := s.chip.t.pc + 4
           loops := ⟨s.chip.t.pc + 4, s.chip.t.pc + 4 + 2 * len.setWidth 64, n⟩ :: s.chip.t.loops })) ∧
     (n ≠ 0 → 4 ≤ s.chip.t.loops.length → Claims.Traps (.loop xs len) s Cause.loopDepth 0 0)) ∧
  (∀ s rd ra a l, Claims.Steady s → Claims.backEdges s.chip.t.loops (s.chip.t.pc + 4) = (a, l) → a ≠ endLink →
    exec (.mov rd ra) s = .next (Claims.withThread s
      { Claims.writeX s.chip.t rd (s.chip.t.getX ra) with pc := a, loops := l })) ∧
  (∀ s i ra rb c off a l, Claims.Branch i ra rb c off → c (s.chip.t.getX ra) (s.chip.t.getX rb) = true →
    Claims.Steady s → Claims.backEdges s.chip.t.loops (Claims.target s.chip.t off) = (a, l) → a ≠ endLink →
    exec i s = .next (Claims.withThread s { s.chip.t with pc := a, loops := Claims.leaves l a })) ∧
  (∀ s xa e rest a l, Claims.Steady s → s.chip.t.loops = e :: rest →
    Claims.backEdges ({ e with count := BitVec.ofNat 32 (s.chip.t.getX xa).toNat } :: rest) (s.chip.t.pc + 4) = (a, l) →
    a ≠ endLink →
    exec (.csrw 0x00D xa) s = .next (Claims.withThread s { s.chip.t with pc := a, loops := l }))

end

namespace Sys2Proof.Claims
open Sys2Proof.Machine

/-! ## Steps, windows, repeats, exceptions, boundaries -/

/-- The module with the same contents: only the consistency model's records, the model's numbers and draws, the states of
leaves that translations hold, idle starts, hoard lines and events for kernels may differ. -/
def Books (c c' : Chip) : Prop :=
  ∃ hist agents rels sysRels reached clock draws frees idle triggers hoard asked dies,
    (∀ d, { Lanes.get dies d with spans := (c.die d).spans } = c.die d) ∧
    c' = { c with
      hist := hist, agents := agents, rels := rels, sysRels := sysRels, reached := reached, clock := clock, draws := draws
      frees := frees, idle := idle, triggers := triggers, hoard := hoard, asked := asked, dies := dies }

/-- A mark for LOOKAHEAD: an instruction of the window writes an x register of the pending destination (R47). -/
def marks (p : Pending) (rd : Reg) : Bool :=
  p.wr || (decide (rd ≠ 0) && match p.dest with
    | .x q => decide (q = rd)
    | .pair q => decide (q = rd) || decide (q + 1 = rd)
    | .group q b => decide (q = rd) || decide (b + 1 = rd) || decide (b + 2 = rd) || decide (b + 3 = rd)
    | _ => false)

/-- A heap address at which the hardware finds a 2 KiB frame (R301): its page's entry, its first byte's key, and no
tier copy of the page to withdraw. -/
structure FrameAt (s : State) (f : Dword) (key : Nat) : Prop where
  place : ∃ d off e p, homeHeap s.mgmt f = some (d, off) ∧ homeHeap s.mgmt (f + 1024) = some (d, off + 1024) ∧
    off % 1024 = 0 ∧ off % 2 ^ 21 + 2048 ≤ 2 ^ 21 ∧ walk s.chip.mem d (s.chip.die d).etroot off false = .leaf e p ∧
    (heldLeaf (s.chip.die d).spans (off / 2 ^ 21) false = none ∨
      heldLeaf (s.chip.die d).spans (off / 2 ^ 21) false = some e) ∧
    entryTier e ≠ 2 ∧ entryZero e = false ∧ key = heapKey d (entryAddr e + off % 2 ^ 21) ∧
    tableGet s.chip.tcopies (pageOf (heapLoc d off)) = none

/-- A frame's bytes hold no entry by which its own page is found. -/
def TableApart (s : State) (f : Dword) (key : Nat) : Prop :=
  ∀ d off (bs : List Byte), homeHeap s.mgmt f = some (d, off) → bs.length = 2048 →
    walk (Mem.write s.chip.mem key bs) d (s.chip.die d).etroot off false = walk s.chip.mem d (s.chip.die d).etroot off false

/-- No `vst` or `vstc` that the thread has moved past is still to be performed (R196). -/
def Stored (s : State) : Prop := ∀ p ∈ s.chip.t.pend, ∀ acc ∈ p.access, acc.lasting = false

/-- The bytes of a task's frame: the hardware's own while the task is in a handler or held (R301, R305), else memory's. -/
def frameOf (s : State) (task key : Nat) : List Byte :=
  match s.chip.images.find? (fun k => decide (k.task = task)) with
  | some k => k.bytes
  | none => Mem.bytes s.chip.mem key 2048

/-- What the hardware keeps of a task's frame is of the frame at an address. -/
def KeptAt (s : State) (task : Nat) (f : Dword) : Prop :=
  ∀ k ∈ s.chip.images, k.task = task → k.bytes.length = 2048 ∧ ∃ d off, homeHeap s.mgmt f = some (d, off) ∧ k.loc = heapLoc d off

/-- A frame's bytes with another ST. -/
def withSt (bs : List Byte) (st : Byte) : List Byte := ((bs.getD 0 0 &&& 0xF8) ||| st) :: bs.drop 1

/-- The thread that a handler begins with (R305). -/
def handlerThread (s : State) (state : Dword) (kept : List Pending) (nextPend : Nat) : Thread :=
  let t := s.chip.t
  let k := { Csrs.reset with tframe := t.csr.tframe, sscr := t.csr.sscr, even := t.csr.even }
  let u := { Thread.reset with
    csr := k, run := .ready, sup := true, handler := some state, task := t.task, report := t.report, kept := kept,
    nextPend := nextPend, pc := (s.chip.die s.chip.tid.die).tvec }
  writeX (writeX (writeX u 10 t.csr.tframe) 11 state) 1 0xFFF0

/-- A task is stopped for the handler: it stands in its frame as a stop says, and the handler begins. -/
def EntersBy (s : State) (key : Nat) (o : Host.Outcome State Fault Refusal) (stop : Stop) : Prop :=
  ∃ c, o = .next { s with chip := c } ∧ c.tid = s.chip.tid ∧
    c.t = handlerThread s (frameState s.chip.t stop) s.chip.t.pend s.chip.t.nextPend ∧
    Mem.bytes c.mem key 2048 = s.chip.frameBytes s.chip.t stop ∧
    (∀ task, s.chip.t.task = some task → frameOf { s with chip := c } task.id key = s.chip.frameBytes s.chip.t stop) ∧
    ∀ a, a < key ∨ key + 2048 ≤ a → Mem.get c.mem a = Mem.get s.chip.mem a

/-- An instruction takes an exception to the handler: the task stands in its frame, ST 4, with the program counter, the
cause, FAULTADDR and FAULTINFO given. -/
def Enters (s : State) (key : Nat) (o : Host.Outcome State Fault Refusal) (pc : Dword) (cause : Cause) (addr info : Dword) :
    Prop := EntersBy s key o ⟨pc, cause, addr, info, false, false, 4⟩

/-- A conditional boundary's kind: release, acquire or both, with its scope (R282). -/
inductive Boundary : Instr → Bool → Bool → BitVec 3 → Prop where
  | rel sc : Boundary (.fenceRel sc) true false sc
  | acq sc : Boundary (.fenceAcq sc) false true sc
  | phase sc : Boundary (.phase sc) true true sc

/-- CSRs as a write of each would store its value: reserved bits 0, modes and EXPR within their maps. -/
def stored (k : Csrs) : Csrs :=
  { k with
    flags := k.flags &&& 0xF1F, fpctl := mode (k.fpctl.setWidth 64), cellcv := mode (k.cellcv.setWidth 64)
    expr := if k.expr.toNat % 32 ≤ 16 then k.expr &&& 0x1F else 16, drscl := k.drscl &&& 0xFF, jctl := k.jctl &&& 0x1FF
    cutctl := k.cutctl &&& 3, warnc := k.warnc &&& 0xFFFF, warnpc := k.warnpc &&& ~~~1
    lwin := k.lwin.map fun p => p &&& 0x000003_01_FFFF_FFFF }

/-- The earliest write of a word that an agent's plain load may return: the latest that it can see, that it has read, or
that a completed release at `.sy` has put at its home (R278, R287). -/
def earliest (c : Chip) (a : AgentId) (loc : Nat) : Nat :=
  max (max ((c.agent a).view.get loc) ((c.agent a).reads.get loc)) (c.reached.get loc)

/-- Of a word's versions on record an agent may be given the latest only (R278). -/
def Seen (c : Chip) (a : AgentId) (loc : Nat) : Prop :=
  ∀ h, historyGet c.hist loc = some h →
    (h.versions.filter fun v => decide (earliest c a loc ≤ v.id)) = h.versions.take 1

/-- A halfword of code at an address of the heap, in an EXEC page whose entry the translation holds (R25, R89). -/
structure CodeAt (s : State) (a : Dword) (h : Half) : Prop where
  place : ∃ d off e p, homeHeap s.mgmt a = some (d, off) ∧ off % 2 = 0 ∧ denOffset s.mgmt d off = none ∧
    subPage (s.chip.core s.chip.tid.coreId).rgn d off = false ∧
    walk s.chip.mem d (s.chip.die d).etroot off false = .leaf e p ∧
    heldLeaf (s.chip.die d).spans (off / 2 ^ 21) false = some e ∧
    entryExec e = true ∧ entryTier e ≠ 2 ∧ entryZero e = false ∧
    Seen s.chip s.chip.t.agentId (heapLoc d off / 4 * 4) ∧
    h = Mem.half s.chip.mem (heapKey d (entryAddr e + off % 2 ^ 21))

/-- The number of a thread's task. -/
def taskOf (t : Thread) : Nat := (t.task.map Task.id).getD 0

/-- No arrival of the task stands at an instance of the scope and id through a save, nor has one passed (R292). -/
def Fresh (s : State) (sc : BitVec 3) (id : BitVec 5) : Prop :=
  (∀ e ∈ s.chip.passed, e.key.scope = sc → e.key.id = id → e.task ≠ taskOf s.chip.t) ∧
    ∀ b ∈ s.chip.barriers, b.key.scope = sc → b.key.id = id → taskOf s.chip.t ∉ b.standing

/-- Some access of a thread that still waits passes a test. -/
def Waits (t : Thread) (test : Access → Bool) : Prop := ∃ p ∈ t.pend, ∃ acc ∈ p.access, test acc = true

/-- What the releases of the numbers given carry, and writes tied to an instance, are in an agent's visible set (R280, R290). -/
def Sees (c : Chip) (ids : List Nat) (tied : View) (a : AgentId) : Prop :=
  (∀ rel ∈ c.rels, rel.id ∈ ids → ∀ loc, rel.view.get loc ≤ (c.agent a).view.get loc) ∧
    ∀ loc, tied.get loc ≤ (c.agent a).view.get loc

/-- A release of the acting thread at a scope, of the number given, carries what was in its visible set (R280). -/
def Released (s : State) (c : Chip) (sc : BitVec 3) (n : Nat) : Prop :=
  ∃ rel ∈ c.rels, rel.id = n ∧ rel.agent = s.chip.t.agentId ∧ rel.scope = sc ∧ rel.place = .thread s.chip.tid ∧
    rel.view = (s.chip.agent s.chip.t.agentId).view

/-- Each thread that waits at an instance goes on after it by its own instruction alone, or has a read that still waits. -/
def WaitersAlone (s : State) (k : BarKey) : Prop :=
  (s.chip.tid :: s.chip.others.map Prod.fst).Nodup ∧ ∀ e ∈ s.chip.others, e.2.run = .wait (.barrier k) →
    (e.2.pend = [] ∧ e.2.snaps = [] ∧ e.2.loops = [] ∧ e.2.rep = none ∧ e.2.pc + 4 ≠ endLink) ∨ Waits e.2 Access.readsMem

/-- An instance has completed (R290): it is free; each thread that waited there goes on and sees what the arrivals and counts
released and what was tied, or, while a read of it waits, is to go on so; and no other thread has changed. -/
structure Completes (s : State) (c : Chip) (k : BarKey) (ids : List Nat) : Prop where
  free : (barrierGet c.barriers k).arr = 0 ∧ ∀ k', k' ≠ k → barrierGet c.barriers k' = barrierGet s.chip.barriers k'
  others : ∀ e ∈ s.chip.others, e.2.run ≠ .wait (.barrier k) → c.thread e.1 = e.2
  leaves : ∀ e ∈ s.chip.others, e.2.run = .wait (.barrier k) → e.2.pend = [] →
    c.thread e.1 = { past e.2 4 with run := .ready } ∧ Sees c ids (barrierGet s.chip.barriers k).tied e.2.agentId
  later : ∀ e ∈ s.chip.others, e.2.run = .wait (.barrier k) → Waits e.2 Access.readsMem →
    c.thread e.1 = { e.2 with run := .wait .retry } ∧
      (⟨taskOf e.2, k, ids, (barrierGet s.chip.barriers k).tied⟩ : Passed) ∈ c.passed

/-- A die's translation holds no state of the spans of 64 MiB that tlbinv names (R83, R94). -/
def Dropped (c : Chip) (d : BitVec 3) (off : Nat) (n : BitVec 10) : Prop :=
  ∀ page sub, (n = 0 ∨ (off / 2 ^ 26 ≤ page * (if sub then 2 ^ 10 else 2 ^ 21) / 2 ^ 26 ∧
    page * (if sub then 2 ^ 10 else 2 ^ 21) / 2 ^ 26 < off / 2 ^ 26 + n.toNat)) → heldLeaf (c.die d).spans page sub = none

/-- NEED of an arrival (R290). -/
def need (s : State) (sc : BitVec 3) : Nat := if sc = 0 then 1 else s.chip.t.csr.barp.toNat

/-- The acting thread has no access that still waits. -/
def Quiet (s : State) : Prop := ∀ p ∈ s.chip.t.pend, p.access = none

/-- The word of an instruction as it stands in memory: a repeat's steps are in no field of it (R295). -/
def wordAt (t : Thread) (i : Instr) : Dword :=
  match t.rep with
  | none => instrWord i
  | some r => instrWord i - BitVec.ofNat 64 (t.repc.toNat % 64 *
      ((if r.d then 2 ^ 8 else 0) + (if r.a then 2 ^ 13 else 0) + (if r.b then 2 ^ 18 else 0)))

/-! ### Repeat prefixes and the code of small units (R37, R50, R51, R70, R75, R156) -/

/-- The register fields that step bits d, a and b step, each by how many registers of its file are left from it on: for
instructions of every layout. -/
inductive Fields : Instr → Option ℕ → Option ℕ → Option ℕ → Prop where
  | add d a b : Fields (.add d a b) (some (32 - d.toNat)) (some (32 - a.toNat)) (some (32 - b.toNat))
  | bins d a b : Fields (.bins d a b) (some (32 - d.toNat)) (some (32 - a.toNat)) (some (32 - b.toNat))
  | clz d a : Fields (.clz d a) (some (32 - d.toNat)) (some (32 - a.toNat)) none
  | mov d a : Fields (.mov d a) (some (32 - d.toNat)) (some (32 - a.toNat)) none
  | addi d a n : Fields (.addi d a n) (some (32 - d.toNat)) (some (32 - a.toNat)) none
  | shli d a n : Fields (.shli d a n) (some (32 - d.toNat)) (some (32 - a.toNat)) none
  | li d n : Fields (.li d n) (some (32 - d.toNat)) none none
  | lea d n : Fields (.lea d n) (some (32 - d.toNat)) none none
  | vadd u q k d a b : Fields (.vadd u q k d a b) (some (16 - d.toNat)) (some (16 - a.toNat)) (some (16 - b.toNat))
  | vbcast k d a : Fields (.vbcast k d a) (some (16 - d.toNat)) (some (32 - a.toNat)) none
  | vcmp u c k d a b : Fields (.vcmp u c k d a b) (some (8 - d.toNat)) (some (16 - a.toNat)) (some (16 - b.toNat))
  | vshuf z k d a b : Fields (.vshuf z k d a b) (some (16 - d.toNat)) none (some (32 - b.toNat))
  | vext z k d a b : Fields (.vext z k d a b) (some (32 - d.toNat)) (some (16 - a.toNat)) (some (32 - b.toNat))
  | vbext k d a b : Fields (.vbext k d a b) (some (16 - d.toNat)) none (some (16 - b.toNat))
  | vred u o k d a : Fields (.vred u o k d a) (some (32 - d.toNat)) (some (16 - a.toNat)) none
  | mand d a b : Fields (.mand d a b) (some (8 - d.toNat)) (some (8 - a.toNat)) (some (8 - b.toNat))
  | mset d n : Fields (.mset d n) (some (8 - d.toNat)) none none
  | vfma k d a b : Fields (.vfma k d a b) (some (16 - d.toNat)) (some (16 - a.toNat)) (some (16 - b.toNat))
  | vfcvt f r q m d a : Fields (.vfcvt f r q m d a) (some (16 - d.toNat)) (some (16 - a.toNat)) none
  | vhare k d a b : Fields (.vhare k d a b) (some (16 - d.toNat)) none (some (32 - b.toNat))
  | vld l o k d a : Fields (.vld l o k d a) (some (16 - d.toNat)) (some (32 - a.toNat)) none
  | vstc l g k d a : Fields (.vstc l g k d a) (some (16 - d.toNat)) (some (32 - a.toNat)) none
  | resld l n a : Fields (.resld l n a) none (some (32 - a.toNat)) none
  | tzero l i n : Fields (.tzero l i n) none none none
  | tcov l d n : Fields (.tcov l d n) (some (32 - d.toNat)) none none
  | tdrain l q r m n d b : Fields (.tdrain l q r m n d b) (some (32 - d.toNat)) none none
  | fship l o p d a : Fields (.fship l o p d a) (some (32 - d.toNat)) (some (32 - a.toNat)) none
  | cpy l d a b : Fields (.cpy l d a b) (some (32 - d.toNat)) none (some (32 - b.toNat))
  | cpy2 l d a b : Fields (.cpy2 l d a b) (some (32 - d.toNat)) none none
  | jwait l d a : Fields (.jwait l d a) (some (32 - d.toNat)) (some (32 - a.toNat)) none
  | ldwFf l o c d a : Fields (.ldwFf l o c d a) (some (32 - d.toNat)) (some (32 - a.toNat)) none
  | mcst l d b a : Fields (.mcst l d b a) (some (32 - d.toNat)) (some (32 - a.toNat)) (some (32 - b.toNat))
  | amoAddW l d b a : Fields (.amoAddW l d b a) (some (32 - d.toNat)) (some (32 - a.toNat)) (some (32 - b.toNat))
  | cas128 l d n a : Fields (.cas128 l d n a) none (some (32 - a.toNat)) none
  | spawn l d a b : Fields (.spawn l d a b) (some (32 - d.toNat)) (some (32 - a.toNat)) (some (32 - b.toNat))
  | csrr d n : Fields (.csrr d n) (some (32 - d.toNat)) none none
  | csrw n a : Fields (.csrw n a) none (some (32 - a.toNat)) none
  | ebrk : Fields .ebrk none none none
  | bar c n : Fields (.bar c n) none none none
  | fsload d a n : Fields (.fsload d a n) (some (32 - d.toNat)) none none
  | ldW l o d a : Fields (.ldW l o d a) (some (32 - d.toNat)) (some (32 - a.toNat)) none
  | stD l o d a : Fields (.stD l o d a) (some (32 - d.toNat)) (some (32 - a.toNat)) none
  | cld l f x o n c d a t : Fields (.cld l f x o n c d a t) (some (32 - d.toNat)) (some (32 - a.toNat)) none

/-- What one step adds to a word: at the fields d, a and b of its class (R33 to R35, R50). -/
def stepOf (w : ℕ) (d a b : Bool) : ℕ :=
  let (i, j) := if w % 8 = 5 then (6, 11) else if w % 16 = 9 then (4, 9) else (8, 13)
  (if d then 2 ^ i else 0) + (if a then 2 ^ j else 0) + (if b then 2 ^ 18 else 0)

/-- What no prefix may govern (R51). -/
inductive NoRepeat : Instr → Prop where
  | jalr d a n : NoRepeat (.jalr d a n)
  | trap n : NoRepeat (.trap n)
  | eret : NoRepeat .eret
  | halt : NoRepeat .halt
  | idle d : NoRepeat (.idle d)
  | ctxsave a : NoRepeat (.ctxsave a)
  | ctxrest a : NoRepeat (.ctxrest a)
  | join a : NoRepeat (.join a)
  | wfw : NoRepeat .wfw
  | yield : NoRepeat .yield
  | gang a : NoRepeat (.gang a)
  | ungang : NoRepeat .ungang
  | park a b c : NoRepeat (.park a b c)
  | rep b a d n : NoRepeat (.rep b a d n)
  | branch i ra rb c off : Branch i ra rb c off → NoRepeat i
  | jal d off : NoRepeat (.jal d off)
  | loop a n : NoRepeat (.loop a n)
  | loopm a o n : NoRepeat (.loopm a o n)

/-- The register fields of a word that a small unit may execute, by its class and major (R32 to R38). -/
def smallFields (kernel : Bool) (w : ℕ) : Option (List ℕ) :=
  let f (at_ : ℕ) : ℕ := w / 2 ^ at_ % 32
  if w % 4 = 3 then some (if w / 4 % 8 < 6 then [f 5, f 10] else [f 5])
  else if w % 8 = 5 then some [f 6, f 11]
  else if w % 16 ≠ 1 then none
  else
    let major := w / 16 % 16
    if major < 2 then some [f 8, f 13, f 18]
    else if major < 4 then some [f 8, f 13]
    else if major = 4 then some [f 8]
    else if major = 12 ∧ kernel = true ∧ (f 23 = 14 ∨ f 23 = 15) then some [f 13]
    else none

/-- Code cut into words and halfwords, each with its offset. -/
def pieces : List Half → ℕ → Option (List (ℕ × ℕ))
  | [], _ => some []
  | lo :: rest, p =>
    if lo.toNat % 2 = 1 then
      match rest with
      | [] => none
      | hi :: rest => (pieces rest (p + 4)).map fun l => (p, hi.toNat * 2 ^ 16 + lo.toNat) :: l
    else (pieces rest (p + 2)).map fun l => (p, lo.toNat) :: l

/-- An instruction that a small unit may execute, with its register fields below a limit. -/
def SmallWord (limit : ℕ) (kernel : Bool) (w : ℕ) : Prop :=
  ∃ l, smallFields kernel w = some l ∧ ∀ r ∈ l, r < limit

/-- Every instruction and prefix of a small unit's code is sound. -/
def Sound (limit : ℕ) (kernel : Bool) : List (ℕ × ℕ) → Prop
  | [] => True
  | (_, w) :: rest =>
    (if w % 4 = 2 then
      w / 2 ^ 11 = 0 ∧ ∃ p v tail i, rest = (p, v) :: tail ∧ v % 2 = 1 ∧ decode32 (BitVec.ofNat 32 v) = .ok i ∧
        w / 2 ^ 8 % 8 ≠ 0 ∧ ∀ k, k ≤ w / 4 % 64 → ∃ j,
          stepped i (w.testBit 8) (w.testBit 9) (w.testBit 10) k = some j ∧ j.WellFormed ∧
          SmallWord limit kernel (instrWord j).toNat
    else w % 2 = 1 ∧ (∃ i, decode32 (BitVec.ofNat 32 w) = .ok i) ∧ SmallWord limit kernel w) ∧ Sound limit kernel rest

/-- A branch's or a loop's target lies outside code of so many bytes. -/
def Outside (size : ℕ) (e : ℕ × ℕ) : Prop :=
  e.2 % 4 = 3 ∧
    let off : ℕ := e.2 / 2 ^ 15
    let t : ℤ := if e.2 / 4 % 8 = 7 then e.1 + 4 + 2 * off
      else e.1 + 2 * (BitVec.ofNat 17 off).toInt
    t < 0 ∨ size ≤ t

/-- The status of code (R75, R156): 2 where an instruction or its end is bad, else 3 where a target is outside, else 0. -/
def CodeStatus (limit : ℕ) (kernel : Bool) (code : List Half) (st : ℕ) : Prop :=
  match pieces code 0 with
  | none => st = 2
  | some l =>
    (¬Sound limit kernel l → st = 2) ∧ (Sound limit kernel l → (∃ e ∈ l, Outside (2 * code.length) e) → st = 3) ∧
      (Sound limit kernel l → (∀ e ∈ l, ¬Outside (2 * code.length) e) → st = 0)

end Sys2Proof.Claims

section
open Sys2Proof Sys2Proof.Machine

/-- R45, R46, R47: a pending write counts a window instruction, and is made after the last one over what that
instruction wrote, with LOOKAHEAD where an instruction of the window wrote its register; a result still to come holds
the thread. The model's readings: a fallback counts when its result is written (log 53), and a window instruction that
writes x0 sets no LOOKAHEAD (log 52). -/
def Obligations.PendingWindows : Prop :=
  ∀ s i rd v p, Claims.Scalar s.chip.t i rd v → s.chip.t.run = .ready → s.chip.t.pend = [p] → s.chip.t.snaps = [] →
    s.chip.t.loops = [] → s.chip.t.rep = none → s.chip.t.pc + 4 ≠ endLink →
    (2 ≤ p.rem → exec i s = .next (Claims.withThread s
      { Claims.past (Claims.writeX s.chip.t rd v) 4 with
        pend := [{ p with rem := p.rem - 1, wr := Claims.marks p rd }] })) ∧
    (∀ q w, p.rem = 1 → p.access = none → p.dest = .x q → p.result = .x w → p.snap = none →
      exec i s = .next (Claims.withThread s
        ((Claims.withFlags (Claims.writeX { Claims.past (Claims.writeX s.chip.t rd v) 4 with pend := [] } q w)
          (p.flags ||| if Claims.marks p rd then 0x800 else 0)).warn p.warn p.iaddr))) ∧
    (p.rem = 1 → p.access.isSome = true → exec i s = .next (Claims.withThread s
      { Claims.past (Claims.writeX s.chip.t rd v) 4 with
        pend := [{ p with rem := 0, wr := Claims.marks p rd }], run := .wait .window }))

/-- R50, R51, R52: a repeat prefix begins its repeats, from DONE on where ACT is 1; each repeat counts in REPC and the last
clears it; stepped fields grow by the repeat's number, in the instruction's word and in no other field; a prefix that R51
reserves traps ILLEGAL at the prefix with ACT 0: no step bit, a step bit of no register field or of a pair, a repeat past
the last register of the file, an instruction that no prefix may govern, a compact form with different d and a, or a
reserved word. The model's choice: where DONE is not below n, the repeat at DONE is the last (log 50). -/
def Obligations.RepeatResults : Prop :=
  (∀ (s : State) b a d (count : BitVec 6) i w c, s.chip.fetch s.mgmt (s.chip.t.pc + 2) = (.instr i w, c) →
    (repeatAllowed i d a b (count.toNat + 1) = true → exec (.rep b a d count) s = .next { s with chip := { c with
      t := { s.chip.t with
        rep := some ⟨s.chip.t.pc, count.toNat + 1, b, a, d⟩, pc := s.chip.t.pc + 2
        repc := if s.chip.t.repc.getLsbD 7 then s.chip.t.repc else 0x80 } } }) ∧
    (repeatAllowed i d a b (count.toNat + 1) = false → exec (.rep b a d count) s =
      ({ s with chip := { c with t := { s.chip.t with repc := s.chip.t.repc &&& ~~~0x80 } } } : State).run fun g c =>
        c.raise g Cause.illegal s.chip.t.stopPc ((w.setWidth 64 <<< (16 : Nat)) ||| instrWord (.rep b a d count)))) ∧
  (∀ (s : State) b a d (count : BitVec 6) w c, s.chip.fetch s.mgmt (s.chip.t.pc + 2) = (.reserved w, c) →
    exec (.rep b a d count) s =
      ({ s with chip := { c with t := { c.t with repc := c.t.repc &&& ~~~0x80 } } } : State).run fun g k =>
        k.raise g Cause.illegal c.t.stopPc ((w.setWidth 64 <<< (16 : Nat)) ||| instrWord (.rep b a d count))) ∧
  (∀ s i rd v r, Claims.Scalar s.chip.t i rd v → s.chip.t.run = .ready → s.chip.t.pend = [] → s.chip.t.snaps = [] →
    s.chip.t.loops = [] → s.chip.t.rep = some r → s.chip.t.pc + 4 ≠ endLink → s.chip.t.pc ≠ endLink →
    exec i s = .next (Claims.withThread s
      (if s.chip.t.repc.toNat % 64 + 1 < r.count then
        { Claims.writeX s.chip.t rd v with repc := 0x80 ||| BitVec.ofNat 32 (s.chip.t.repc.toNat % 64 + 1) }
      else { Claims.past (Claims.writeX s.chip.t rd v) 4 with rep := none, repc := 0 }))) ∧
  (∀ (rd ra rb : Reg) (d a b : Bool) (k : Nat), k < 64 →
    stepped (.add rd ra rb) d a b k =
      if (d = true → rd.toNat + k < 32) ∧ (a = true → ra.toNat + k < 32) ∧ (b = true → rb.toNat + k < 32) then
        some (.add (if d then rd + BitVec.ofNat 5 k else rd) (if a then ra + BitVec.ofNat 5 k else ra)
          (if b then rb + BitVec.ofNat 5 k else rb))
      else none) ∧
  (∀ i j (d a b : Bool) (k : Nat), k < 64 → i.WellFormed → 2 ^ 16 ≤ (instrWord i).toNat → stepped i d a b k = some j →
    (instrWord j).toNat = (instrWord i).toNat +
      k * Claims.stepOf (instrWord i).toNat d a b) ∧
  (∀ i fd fa fb (d a b : Bool) (n : Nat), Claims.Fields i fd fa fb → i.WellFormed → 1 ≤ n → n ≤ 64 →
    (repeatAllowed i d a b n = true ↔ (d = true ∨ a = true ∨ b = true) ∧ (d = true → ∃ r ∈ fd, n ≤ r) ∧
      (a = true → ∃ r ∈ fa, n ≤ r) ∧ (b = true → ∃ r ∈ fb, n ≤ r))) ∧
  (∀ i (d a b : Bool) (n : Nat), Claims.NoRepeat i → repeatAllowed i d a b n = false) ∧
  (∀ mk (vd va : BitVec 4) (d a b : Bool) (n : Nat), 1 ≤ n → n ≤ 64 →
    (repeatAllowed (.vadd16 mk vd va) d a b n = true ↔ d = a ∧ (d = true ∨ b = true) ∧
      (d = true → n ≤ 16 - vd.toNat) ∧ (b = true → n ≤ 16 - va.toNat)))

/-- A step runs the decoded instruction: with no event due, a thread that may issue executes the instruction that its
fetch gives, as its repeat steps it, and what follows a step (waits served, time, the choice of the next mover) is
State.after. The model's choices: the next mover and the time that passes (logs 3, 4). -/
def Obligations.StepRunsDecoded : Prop :=
  ∀ s i w c j, s.inbox = [] → s.mayIssue = true → s.chip.reporting = none → s.chip.t.gangSize = 0 →
    s.chip.fetch s.mgmt s.chip.t.pc = (.instr i w, c) → c.t.gangSize = 0 → (c.t.begin i).current i = some j →
    step s = thenState (exec j { s with chip := { c with t := c.t.begin i } }) State.after

/-- R25, R53: the fetch of an instruction in an EXEC page of the heap whose words the thread sees: the halfword at the
program counter, a second one where its low bits say so, and what the decoder makes of them. -/
def Obligations.FetchReads : Prop :=
  ∀ (s : State) lo hi, Claims.CodeAt s s.chip.t.pc lo → (isLong lo = true → Claims.CodeAt s (s.chip.t.pc + 2) hi) →
    s.chip.poison = [] →
    ∃ c, Claims.Books s.chip c ∧ s.chip.fetch s.mgmt s.chip.t.pc =
      (if isLong lo then
          (match decode32 (hi ++ lo) with | .ok i => .instr i (hi ++ lo) | .error _ => .reserved (hi ++ lo))
        else (match decode16 lo with | .ok i => .instr i (0#16 ++ lo) | .error _ => .reserved (0#16 ++ lo)), c)

/-- R297, R299, R302, R305, R307: taking an exception outside a handler saves the task in its frame with ST 4 and begins
the handler at TVEC; trap takes its own effect first, so that the saved program counter is its successor's, and ebrk saves
its own. Inside a handler a cause halts the trapped task instead (R306). While a vst or vstc that the thread has moved past
is still to be performed, a cause changes nothing yet, and the instruction meets it again (R196). The model's readings: the
handler's thread keeps EVEN (log 51), and the hardware keeps the frame's bytes (log 13). -/
def Obligations.ExceptionEntry : Prop :=
  (∀ s key cause addr info, s.chip.t.handler = none → s.chip.t.run = .ready → s.chip.t.gangSize = 0 → Claims.Stored s →
    Claims.FrameAt s s.chip.t.csr.tframe key →
    Claims.Enters s key (s.run fun g c => c.raise g cause addr info) s.chip.t.stopPc cause addr info) ∧
  (∀ s key (n : BitVec 10), s.chip.t.handler = none → s.chip.t.gangSize = 0 → Claims.Alone s 4 →
    Claims.FrameAt s s.chip.t.csr.tframe key →
    Claims.Enters (Claims.withThread s (Claims.past s.chip.t 4)) key (exec (.trap n) s) (s.chip.t.pc + 4) Cause.trap 0
      (n.setWidth 64)) ∧
  (∀ s key, s.chip.t.handler = none → s.chip.t.run = .ready → s.chip.t.gangSize = 0 → Claims.Stored s →
    Claims.FrameAt s s.chip.t.csr.tframe key →
    Claims.Enters s key (exec .ebrk s) s.chip.t.stopPc Cause.ebrk 0 0) ∧
  (∀ s cause addr info, ¬ Claims.Stored s →
    (s.run fun g c => c.raise g cause addr info) = .next s ∧ exec .ebrk s = .next s) ∧
  (∀ s key cause addr info st, s.chip.t.handler = some st → Claims.Stored s → Claims.FrameAt s s.chip.t.csr.tframe key →
    (s.chip.die s.chip.tid.die).logsize = 0 →
    ∃ c, (s.run fun g c => c.raise g cause addr info) = .next { s with chip := c } ∧ c.t.run = .wait .taskEnd ∧
      c.t.x = s.chip.t.x ∧ c.t.handler = some st ∧ Mem.get c.mem key = (Mem.get s.chip.mem key &&& 0xF8) ||| 5 ∧
      ∀ a, a ≠ key → Mem.get c.mem a = Mem.get s.chip.mem a)

/-- R302, R303: the fields of STATE, and a frame gives back what it was made of: every register, mask, CSR slot, loop and
REPC, with the program counter of the stop, its bit 0 clear, and the mode. The model's choice: reserved bits of a slot do not come
back (log 51). -/
def Obligations.FrameRoundTrip : Prop :=
  ∀ (c : Chip) (t : Thread) (stop : Stop) (task : Task) (frame : Dword) kept report,
    t.loops.length ≤ 4 → (∀ e ∈ t.loops, ∃ n : BitVec 17, e.stop = e.start + 2 * n.setWidth 64) →
    t.csr.lwin.length = 4 → t.csr.tile.length = 4 → t.csr.org.length = 4 → t.csr.ext.length = 4 → t.pend.length ≤ 16 →
    let u := Thread.fromFrame (c.frameBytes t stop) task frame kept report
    let w := frameDword (c.frameBytes t stop) 0
    (w.extractLsb' 0 3 = stop.st ∧ w.extractLsb' 3 2 = 0 ∧ w.getLsbD 5 = stop.defer ∧ w.getLsbD 6 = t.sup ∧
      w.getLsbD 7 = stop.unrest ∧ (w.extractLsb' 8 3).toNat = t.loops.length ∧
      (w.extractLsb' 11 5).toNat = t.pend.length ∧ w.extractLsb' 16 8 = stop.cause ∧ w.extractLsb' 24 2 = 0 ∧
      w.toNat / 2 ^ 29 = 0 ∧ ∀ k, t.task = some k → k.tiles ≤ 4 → (w.extractLsb' 26 3).toNat = k.tiles) ∧
    frameDword (c.frameBytes t stop) 8 = stop.pc ∧ frameDword (c.frameBytes t stop) 0x10 = stop.info ∧
    frameDword (c.frameBytes t stop) 0x18 = stop.addr ∧ (c.frameBytes t stop).length = 2048 ∧
    (∀ r, u.getX r = t.getX r) ∧ (∀ r, u.getV r = t.getV r) ∧ (∀ r, u.getM r = t.getM r) ∧ u.pc = stop.pc &&& ~~~1 ∧
    u.loops = t.loops ∧ u.repc = t.repc &&& 0xBF ∧ u.sup = t.sup ∧ u.run = .ready ∧ u.handler = none ∧ u.task = some task ∧
    u.pend.length = t.pend.length ∧
    u.csr = { Claims.stored t.csr with tframe := frame, sscr := 0, even := 0 }

/-- R303, R308: eret resumes the trapped task from its frame, ST 0, with its launch's key (R305); it traps FRAME_STATE
where STATE has changed since the handler's entry or UNREST is 1. The model's choice: the frame's bytes are those that the
hardware keeps, where it does (log 13). -/
def Obligations.EretResults : Prop :=
  (∀ s key task, s.chip.t.task = some task →
    let bs := Claims.frameOf s task.id key
    s.chip.t.handler = some (frameDword bs 0) → Claims.Quiet s → Claims.FrameAt s s.chip.t.csr.tframe key →
    (frameDword bs 0).getLsbD 7 = false → (frameDword bs 0).extractLsb' 11 5 = 0 → frameDword bs 8 &&& ~~~1 ≠ endLink →
    ∃ c, exec .eret s = .next { s with chip := c } ∧ c.tid = s.chip.tid ∧ c.others = s.chip.others ∧
      (let u := Thread.fromFrame bs task s.chip.t.csr.tframe s.chip.t.kept s.chip.t.report
       c.t = { u with csr := { u.csr with ldkey :=
         ((s.chip.launches.find? fun l => decide (l.id = task.launch)).map Launch.key).getD u.csr.ldkey } }) ∧
      Mem.dword c.mem key = frameDword bs 0 &&& ~~~7 ∧
      (∀ a, a < key ∨ key + 8 ≤ a → Mem.get c.mem a = Mem.get s.chip.mem a) ∧ (∀ k ∈ c.images, k.task ≠ task.id) ∧
      (∀ j ∈ c.jobs, j.task = task.id → ∀ k r a, j.state ≠ .stopped k r a)) ∧
  (∀ s key task st, s.chip.t.task = some task → s.chip.t.handler = some st → Claims.Quiet s →
    Claims.FrameAt s s.chip.t.csr.tframe key → st ≠ frameDword (Claims.frameOf s task.id key) 0 ∨ st.getLsbD 7 = true →
    ∃ c, Claims.Books s.chip c ∧ exec .eret s = ({ s with chip := c } : State).run fun g c => c.raise g Cause.frameState
      s.chip.t.csr.tframe ((frameDword (Claims.frameOf s task.id key) 0).extractLsb' 0 3 |>.setWidth 64))

/-- R309, R310: halt ends the trapped task with ST 5, after the handler's results still to come (R45), and ctxsave leaves it
held with ST 3, its frame's address in a doubleword of the local window with both words full, and the thread FREE. -/
def Obligations.HandlerEnds : Prop :=
  (∀ s key st, s.chip.t.handler = some st → s.chip.t.run = .ready → s.chip.t.gangSize = 0 → s.chip.t.pend = [] →
    Claims.FrameAt s s.chip.t.csr.tframe key → (s.chip.die s.chip.tid.die).logsize = 0 →
    ∃ c, exec .halt s = .next { s with chip := c } ∧
      c.t = { s.chip.t with run := .wait .taskEnd, report := none, pend := [] } ∧
      Mem.get c.mem key = (Mem.get s.chip.mem key &&& 0xF8) ||| 5 ∧ ∀ a, a ≠ key → Mem.get c.mem a = Mem.get s.chip.mem a) ∧
  (∀ s p st, s.chip.t.handler = some st → s.chip.t.run = .ready → s.chip.t.pend = [p] → p.access.isSome = true →
    exec .halt s = .next (Claims.withThread s { s.chip.t with pend := [{ p with rem := 0 }], run := .wait .window })) ∧
  (∀ s key st task xa, s.chip.t.handler = some st → s.chip.t.task = some task → s.chip.t.pend = [] →
    Claims.FrameAt s s.chip.t.csr.tframe key → Claims.TableApart s s.chip.t.csr.tframe key →
    Claims.KeptAt s task.id s.chip.t.csr.tframe → (s.chip.t.getX xa).toNat + 8 ≤ 2 ^ 16 → (s.chip.t.getX xa).toNat % 8 = 0 →
    windowAllows s.chip.t.csr.lwin (s.chip.t.getX xa).toNat 8 false true = true →
    tableGet s.chip.tcopies (pageOf (sliceLoc s.chip.tid.coreId (s.chip.t.getX xa).toNat)) = none →
    ∃ c, exec (.ctxsave xa) s = .next { s with chip := c } ∧ c.t = Thread.reset ∧
      (∃ k : Saved, c.saved = s.chip.saved ++ [k] ∧ k.task = task ∧ k.frame = s.chip.t.csr.tframe ∧ k.resume = .held ∧
        k.cluster = s.chip.tid.cluster ∧ k.accesses = s.chip.t.kept ∧ k.image = Claims.withSt (Claims.frameOf s task.id key) 3) ∧
      Mem.get c.mem key = (Mem.get s.chip.mem key &&& 0xF8) ||| 3 ∧
      Mem.dword c.mem (sliceKey s.chip.tid.coreId (s.chip.t.getX xa).toNat) = s.chip.t.csr.tframe ∧
      c.isFull (sliceKey s.chip.tid.coreId (s.chip.t.getX xa).toNat) = true ∧
      c.isFull (sliceKey s.chip.tid.coreId ((s.chip.t.getX xa).toNat + 4)) = true)

/-- R75, R94, R309, R311: the other instructions of supervisor mode. idle with an enabled event writes it; tlbinv drops
the states of the spans it names, once no access translated through one of them waits; ctxrest makes a held task ready;
fsload empties a slot, refuses a bad length, and installs the code that its checks pass. -/
def Obligations.SupervisorResults : Prop :=
  (∀ s xd, s.chip.t.sup = true → Claims.Alone s 4 →
    let v := (s.chip.die s.chip.tid.die).evpend &&& s.chip.t.csr.even
    exec (.idle xd) s = .next (if v = 0 then Claims.withThread s { s.chip.t with run := .wait (.idle xd) }
      else Claims.resumeWith s xd (v.setWidth 64))) ∧
  (∀ s xa (n : BitVec 10) d off, s.chip.t.sup = true → Claims.Alone s 4 → homeHeap s.mgmt (s.chip.t.getX xa) = some (d, off) →
    (∀ e ∈ s.chip.others, (∀ p ∈ e.2.pend, p.spots = []) ∧ ∀ t a l k w m, e.2.run = .wait (.access t a l k w m) → l = []) →
    (s.chip.t.dropped = none → ∃ c, Claims.Books s.chip c ∧
      exec (.tlbinv xa n) s = .next { s with chip := { c with t := Claims.past s.chip.t 4 } } ∧ Claims.Dropped c d off n) ∧
    (∀ l, s.chip.t.dropped = some l →
      exec (.tlbinv xa n) s = .next (Claims.withThread s { Claims.past s.chip.t 4 with dropped := none }))) ∧
  (∀ s xa (n : BitVec 10) d off tid u t a l k w m sp, s.chip.t.sup = true → s.chip.t.run = .ready → s.chip.t.pend = [] →
    homeHeap s.mgmt (s.chip.t.getX xa) = some (d, off) → (tid, u) ∈ s.chip.others → u.run = .wait (.access t a l k w m) →
    sp ∈ l → sp.leaf ≠ 0 → sp.spot.loc / 2 ^ 48 = d.toNat →
    (n = 0 ∨ (off / 2 ^ 26 ≤ sp.spot.loc % 2 ^ 48 / 2 ^ 26 ∧ sp.spot.loc % 2 ^ 48 / 2 ^ 26 < off / 2 ^ 26 + n.toNat)) →
    (s.chip.t.dropped = none → ∃ c q, Claims.Books s.chip c ∧ k ∈ q ∧ Claims.Dropped c d off n ∧
      exec (.tlbinv xa n) s = .next { s with chip := { c with t := { s.chip.t with run := .wait .retry, dropped := some q } } }) ∧
    (∀ q, s.chip.t.dropped = some q → k ∈ q →
      exec (.tlbinv xa n) s = .next (Claims.withThread s { s.chip.t with run := .wait .retry }))) ∧
  (∀ s xa (n : BitVec 10), s.chip.t.sup = true → homeHeap s.mgmt (s.chip.t.getX xa) = none →
    Claims.Traps (.tlbinv xa n) s Cause.addrInvalid (s.chip.t.getX xa) 0) ∧
  (∀ s xa key, s.chip.t.sup = true → Claims.Alone s 4 → Claims.FrameAt s (s.chip.t.getX xa) key →
    Claims.TableApart s (s.chip.t.getX xa) key → Claims.KeptAt s (s.chip.heldTask (s.chip.t.getX xa)) (s.chip.t.getX xa) →
    (∃ sp e c, s.chip.reach s.mgmt (s.chip.t.who s.chip.tid) .write false (s.chip.t.getX xa) 8 = (.ok sp e, c) ∧ sp.key = key) →
    let bs := Claims.frameOf s (s.chip.heldTask (s.chip.t.getX xa)) key
    (frameDword bs 0).extractLsb' 0 3 = 3 →
    ∃ c, exec (.ctxrest xa) s = .next { s with chip := c } ∧ c.t = Claims.past s.chip.t 4 ∧
      Mem.get c.mem key = (Mem.get s.chip.mem key &&& 0xF8) ||| 1 ∧ (∀ a, a ≠ key → Mem.get c.mem a = Mem.get s.chip.mem a) ∧
      c.saved = s.chip.saved.map fun (k : Saved) =>
        if k.frame = s.chip.t.getX xa ∧ k.resume = .held then
          { k with resume := .ready, image := Claims.withSt bs 1, pinned := pinnedBy (frameLwin bs) }
        else k) ∧
  (∀ s xd slot, s.chip.t.sup = true → Claims.Alone s 4 →
    exec (.fsload xd 0 slot) s = .next
      { Claims.resumeWith s xd 0 with chip := { (Claims.resumeWith s xd 0).chip with routines := tableErase s.chip.routines slot } }) ∧
  (∀ s xd xa slot, s.chip.t.sup = true → Claims.Alone s 4 → xa ≠ 0 →
    s.chip.t.getX (xa + 1) = 0 ∨ 1024 < (s.chip.t.getX (xa + 1)).toNat →
    exec (.fsload xd xa slot) s = .next (Claims.resumeWith s xd 1)) ∧
  (∀ s xd xa slot c code, s.chip.t.sup = true → Claims.Alone s 4 → xa ≠ 0 → s.chip.t.getX (xa + 1) ≠ 0 →
    (s.chip.t.getX (xa + 1)).toNat ≤ 1024 →
    Chip.readHalves s.mgmt s.chip.issuer [] (s.chip.t.getX (xa + 1)).toNat (s.chip.t.getX xa) [] s.chip = (.ok code, c) → c.t = s.chip.t →
    ∃ st : Nat, Claims.CodeStatus 16 false code st ∧ exec (.fsload xd xa slot) s = .next { s with chip := { c with
      t := Claims.past (Claims.writeX s.chip.t xd (BitVec.ofNat 64 st)) 4
      routines := if st = 0 then tableSet c.routines slot code else c.routines } })

/-- R304, R312: a reserved CSR number, and a write to a CSR that is read-only in every mode, raise ILLEGAL; in user mode a
write to a supervisor-write CSR, any access to a supervisor-only CSR, and each supervisor instruction raise PRIVILEGE.
FAULTADDR is the instruction's address and FAULTINFO its word (R295). eret, halt and ctxsave outside a handler trap
FRAME_STATE in supervisor mode (R308 to R310). -/
def Obligations.PrivilegeAndCsrFaults : Prop :=
  (∀ s (n : BitVec 10) xd xa, (0x0E ≤ n.toNat ∧ n.toNat ≤ 0x0F) ∨ (0x28 ≤ n.toNat ∧ n.toNat ≤ 0xFF) ∨ 0x106 ≤ n.toNat →
    Claims.Traps (.csrr xd n) s Cause.illegal s.chip.t.pc (Claims.wordAt s.chip.t (.csrr xd n)) ∧
    Claims.Traps (.csrw n xa) s Cause.illegal s.chip.t.pc (Claims.wordAt s.chip.t (.csrw n xa)) ∧
    Claims.Traps (.csrset xd n xa) s Cause.illegal s.chip.t.pc (Claims.wordAt s.chip.t (.csrset xd n xa)) ∧
    Claims.Traps (.csrclr xd n xa) s Cause.illegal s.chip.t.pc (Claims.wordAt s.chip.t (.csrclr xd n xa))) ∧
  (∀ s (n : BitVec 10) xd xa, 0x10 ≤ n.toNat ∧ n.toNat ≤ 0x1F →
    Claims.Traps (.csrw n xa) s Cause.illegal s.chip.t.pc (Claims.wordAt s.chip.t (.csrw n xa)) ∧
    (xa ≠ 0 → Claims.Traps (.csrset xd n xa) s Cause.illegal s.chip.t.pc (Claims.wordAt s.chip.t (.csrset xd n xa)) ∧
      Claims.Traps (.csrclr xd n xa) s Cause.illegal s.chip.t.pc (Claims.wordAt s.chip.t (.csrclr xd n xa)))) ∧
  (∀ s (n : BitVec 10) xa, s.chip.t.sup = false →
    (0x20 ≤ n.toNat ∧ n.toNat ≤ 0x27) ∨ (0x100 ≤ n.toNat ∧ n.toNat ≤ 0x105) →
    Claims.Traps (.csrw n xa) s Cause.privilege s.chip.t.pc (Claims.wordAt s.chip.t (.csrw n xa))) ∧
  (∀ s (n : BitVec 10) xd xa, s.chip.t.sup = false → 0x20 ≤ n.toNat ∧ n.toNat ≤ 0x27 → xa ≠ 0 →
    Claims.Traps (.csrset xd n xa) s Cause.privilege s.chip.t.pc (Claims.wordAt s.chip.t (.csrset xd n xa)) ∧
    Claims.Traps (.csrclr xd n xa) s Cause.privilege s.chip.t.pc (Claims.wordAt s.chip.t (.csrclr xd n xa))) ∧
  (∀ s (n : BitVec 10) xd xa, s.chip.t.sup = false → 0x100 ≤ n.toNat ∧ n.toNat ≤ 0x105 →
    Claims.Traps (.csrset xd n xa) s Cause.privilege s.chip.t.pc (Claims.wordAt s.chip.t (.csrset xd n xa)) ∧
    Claims.Traps (.csrclr xd n xa) s Cause.privilege s.chip.t.pc (Claims.wordAt s.chip.t (.csrclr xd n xa))) ∧
  (∀ s key xa, s.chip.t.sup = true → s.chip.t.handler = none → Claims.FrameAt s s.chip.t.csr.tframe key →
    ∀ i ∈ [Instr.eret, .halt, .ctxsave xa], Claims.Traps i s Cause.frameState s.chip.t.csr.tframe
      ((Mem.dword s.chip.mem key).extractLsb' 0 3 |>.setWidth 64)) ∧
  (∀ s (n : BitVec 10) xd, s.chip.t.sup = false → 0x100 ≤ n.toNat ∧ n.toNat ≤ 0x105 →
    Claims.Traps (.csrr xd n) s Cause.privilege s.chip.t.pc (Claims.wordAt s.chip.t (.csrr xd n))) ∧
  (∀ s xa xd n slot, s.chip.t.sup = false → s.chip.t.handler = none →
     ∀ i ∈ [Instr.eret, .halt, .ctxsave xa, .ctxrest xa, .idle xd, .tlbinv xa n, .fsload xd xa slot],
       Claims.Traps i s Cause.privilege s.chip.t.pc (Claims.wordAt s.chip.t i))

/-- R280, R282, R290 to R293: fence.rel releases, and fence.acq and phase acquire, at their scope, and change nothing else
but the program counter and the hoard. An acquire leaves in the visible set what it held and all that a release carries which
precedes it and matches its scope: one that the task's reads have met (R281), or at `.sy` a completed one at `.sy` (R287). A
release behind a store, or an acquire, that still waits is held, and so is an acquire behind a read that still waits. bar with
NEED 0 releases and traps BARRIER_STATE; the first arrival of several waits, and an arrival at a full instance waits for it; the
arrival or the count that completes an instance frees it, and every thread there goes on and sees what the arrivals and counts
released and the tied writes, once its own reads are performed; bar of a task whose arrival has passed goes on so (R292). bcnt
adds its signed 56 bits to CNT and goes on. The model's choices: held means tried again (log 9), and what precedes an acquire
beyond the releases named is drawn (log 7). -/
def Obligations.BoundaryAndBarrierResults : Prop :=
  (∀ s i r a sc, Claims.Boundary i r a sc → Claims.Alone s 4 →
    ∃ c, Claims.Books s.chip c ∧ exec i s = .next { s with chip := { c with t := Claims.past s.chip.t 4 } } ∧
      (r = true → ∃ n, Claims.Released s c sc n) ∧
      (a = true → (∀ e ∈ c.hoard, e.owner ≠ s.chip.tid) ∧
        (let from_ := if r then (s.chip.release s.chip.t.agentId (.thread s.chip.tid) sc).2 else s.chip
         (c.agent s.chip.t.agentId).view = ((from_.acquire s.chip.t.agentId (.thread s.chip.tid) sc []).agent s.chip.t.agentId).view) ∧
        (∀ loc, (s.chip.agent s.chip.t.agentId).view.get loc ≤ (c.agent s.chip.t.agentId).view.get loc) ∧
        (∀ rel ∈ s.chip.rels, rel.id ∈ (s.chip.agent s.chip.t.agentId).ahead ∨ (sc = 5 ∧ rel.id ∈ s.chip.sysRels) →
          inInstance rel.scope rel.agent rel.place s.chip.t.agentId (.thread s.chip.tid) = true →
          inInstance sc s.chip.t.agentId (.thread s.chip.tid) rel.agent rel.place = true →
          ∀ loc, rel.view.get loc ≤ (c.agent s.chip.t.agentId).view.get loc))) ∧
  (∀ s i r a sc, Claims.Boundary i r a sc → r = true → Claims.Waits s.chip.t (fun acc => acc.writes || acc.acquires) →
    exec i s = .next (Claims.withThread s { s.chip.t with run := .wait .retry })) ∧
  (∀ s i r a sc, Claims.Boundary i r a sc → a = true → Claims.Waits s.chip.t Access.readsMem →
    exec i s = .next (Claims.withThread s { s.chip.t with run := .wait .retry })) ∧
  (∀ s sc id, Claims.Fresh s sc id → Claims.Waits s.chip.t (fun acc => acc.writes || acc.acquires) →
    exec (.bar sc id) s = .next (Claims.withThread s { s.chip.t with run := .wait .retry })) ∧
  (∀ s sc id, sc ≠ 0 → s.chip.t.csr.barp = 0 → Claims.Alone s 4 → Claims.Fresh s sc id →
    ∃ c, Claims.Books s.chip c ∧ (∃ n, Claims.Released s c sc n) ∧
      exec (.bar sc id) s = ({ s with chip := c } : State).run fun g c => c.raise g Cause.barrierState 0 0) ∧
  (∀ s sc id, Claims.Alone s 4 → Claims.Fresh s sc id →
    let k := barKey s.chip.t s.chip.tid sc id s.chip.t.csr.ldkey
    let b := barrierGet s.chip.barriers k
    Claims.need s sc ≠ 0 →
    (Claims.WaitersAlone s k → (b.arr = 0 ∧ Claims.need s sc = 1) ∨ (b.arr ≠ 0 ∧ b.arr + 1 = b.need ∧ b.need = Claims.need s sc) →
      b.cnt = 0 → ∃ c n,
      exec (.bar sc id) s = .next { s with chip := c } ∧ c.tid = s.chip.tid ∧ c.t = Claims.past s.chip.t 4 ∧
      c.mem = s.chip.mem ∧ Claims.Released s c sc n ∧ Claims.Completes s c k (b.rels ++ [n]) ∧
      Claims.Sees c (b.rels ++ [n]) b.tied s.chip.t.agentId) ∧
    (b.arr = 0 → Claims.need s sc ≠ 1 ∨ b.cnt ≠ 0 → ∃ c n,
      exec (.bar sc id) s = .next { s with chip := c } ∧ c.t = { s.chip.t with run := .wait (.barrier k) } ∧
      c.mem = s.chip.mem ∧ Claims.Released s c sc n ∧
      barrierGet c.barriers k = { b with arr := 1, need := Claims.need s sc, rels := b.rels ++ [n] }) ∧
    (b.arr ≠ 0 → b.arr = b.need → ∃ c, Claims.Books s.chip c ∧
      exec (.bar sc id) s = .next { s with chip := { c with t := { s.chip.t with run := .wait (.barrierFull k) } } }) ∧
    (b.arr ≠ 0 → b.arr ≠ b.need → b.need ≠ Claims.need s sc →
      ∃ c, Claims.Books s.chip c ∧ exec (.bar sc id) s = ({ s with chip := c } : State).run fun g c =>
        c.raise g Cause.barrierState 0 0)) ∧
  (∀ s sc id e, s.chip.passed.find? (fun q => decide (q.task = Claims.taskOf s.chip.t ∧ q.key.scope = sc ∧ q.key.id = id)) = some e →
    (Claims.Alone s 4 → ∃ c, exec (.bar sc id) s = .next { s with chip := c } ∧ c.t = Claims.past s.chip.t 4 ∧
      c.mem = s.chip.mem ∧ e ∉ c.passed ∧ Claims.Sees c e.rels e.tied s.chip.t.agentId) ∧
    (Claims.Waits s.chip.t Access.readsMem →
      exec (.bar sc id) s = .next (Claims.withThread s { s.chip.t with run := .wait .retry }))) ∧
  (∀ s sc id xa, Claims.Alone s 4 →
    let k := barKey s.chip.t s.chip.tid sc id s.chip.t.csr.ldkey
    let b := barrierGet s.chip.barriers k
    let v := b.cnt + BitVec.ofNat 56 (s.chip.t.getX xa).toNat
    (b.arr = 0 ∨ b.arr ≠ b.need ∨ v ≠ 0 → ∃ c n,
      exec (.bcnt sc id xa) s = .next { s with chip := c } ∧ c.t = Claims.past s.chip.t 4 ∧ c.mem = s.chip.mem ∧
      Claims.Released s c sc n ∧ barrierGet c.barriers k = { b with cnt := v, rels := b.rels ++ [n] } ∧
      ∀ k', k' ≠ k → barrierGet c.barriers k' = barrierGet s.chip.barriers k') ∧
    (b.arr ≠ 0 → b.arr = b.need → v = 0 → Claims.WaitersAlone s k → ∃ c n,
      exec (.bcnt sc id xa) s = .next { s with chip := c } ∧ c.t = Claims.past s.chip.t 4 ∧ c.mem = s.chip.mem ∧
      Claims.Released s c sc n ∧ Claims.Completes s c k (b.rels ++ [n])))

/-- R278, R280: what a release carries is in the visible set of an agent that acquires it, by matched scopes where it
precedes the acquire, or by a direct pair; a visible set only grows; a release at `.sy` puts its author's writes at their
home (R287); and a plain load never returns a value older than the visible set's, nor than what stands at home so. -/
def Obligations.ReleaseReachesAcquire : Prop :=
  (∀ (c : Chip) a place sc b place' sc' loc,
    (inInstance sc a place b place' = true ∧ inInstance sc' b place' a place = true ∧
      c.clock ∈ ((c.release a place sc).2.agent b).ahead) ∨ (sc = 5 ∧ sc' = 5) →
    (c.agent a).view.get loc ≤ (((c.release a place sc).2.acquire b place' sc' []).agent b).view.get loc) ∧
  (∀ (c : Chip) a place sc b place' sc' loc,
    (c.agent a).view.get loc ≤ (((c.release a place sc).2.acquire b place' sc' [c.clock]).agent b).view.get loc) ∧
  (∀ (c : Chip) a place sc direct b loc, (c.agent b).view.get loc ≤ ((c.acquire a place sc direct).agent b).view.get loc) ∧
  (∀ (c : Chip) a place loc n, (loc, n) ∈ (c.agent a).mine → n < c.clock → n ≤ (c.release a place 5).2.reached.get loc) ∧
  (∀ (c : Chip) a loc key w c', c.readWord a loc key = (w, c') → ∀ h, historyGet c.hist loc = some h →
    h.current (Mem.word c.mem key) = true → (∃ v ∈ h.versions, Claims.earliest c a loc ≤ v.id) →
    ∃ v ∈ h.versions, v.value = w ∧ Claims.earliest c a loc ≤ v.id)

end

namespace Sys2Proof.Claims
open Sys2Proof.Machine

/-! ## Memory (R76 to R93, R120 to R137, R152, R193 to R195) -/

/-- Bytes of memory from a key on are replaced, and nothing else changes but bookkeeping: the records of the consistency
model, the model's numbers and draws, held leaf states, idle starts, hoard lines, events for kernels, full/empty bits, poison,
locks, the clean copies of the page and the hardware's own bytes of a frame (the statements say which of these change). -/
structure Changed (c c' : Chip) (key : Nat) (bs : List Byte) : Prop where
  rest : ∃ hist agents rels sysRels reached clock draws frees idle triggers hoard asked dies mem empties poison locks tcopies flash
      images,
    images.map (fun k => (k.task, k.loc)) = c.images.map (fun k => (k.task, k.loc)) ∧
    (∀ d, { Lanes.get dies d with spans := (c.die d).spans } = c.die d) ∧
    c' = { c with
      hist := hist, agents := agents, rels := rels, sysRels := sysRels, reached := reached, clock := clock, draws := draws
      frees := frees, idle := idle, triggers := triggers, hoard := hoard, asked := asked, dies := dies, mem := mem, empties := empties
      poison := poison, locks := locks, tcopies := tcopies, flash := flash, images := images }
  bytes : ∀ k, Mem.get c'.mem k = if key ≤ k ∧ k < key + bs.length then bs.getD (k - key) 0 else Mem.get c.mem k

/-- Every full/empty bit is as before. -/
def SameFull (c c' : Chip) : Prop := ∀ k, c'.isFull k = c.isFull k

/-- Step 4 of R120 lets the acting thread's access of n bytes at a act on the bytes of a spot. -/
def At (s : State) (kind : Kind) (rw : Bool) (a : Dword) (n : Nat) (sp : Spot) : Prop :=
  ∃ e c, s.chip.reach s.mgmt (s.chip.t.who s.chip.tid) kind rw a n = (.ok sp e, c)

/-- The words that n bytes at loc touch have no older value that the acting task may still be given. -/
def SeenBytes (s : State) (loc n : Nat) : Prop :=
  ∀ w, w % 4 = 0 → loc / 4 * 4 ≤ w → w < loc + n → Seen s.chip s.chip.t.agentId w

/-- No clean copy of the spot's page is in the tier, so that a write has no TSTATE byte to change (R327, R328). -/
def NoCopy (s : State) (sp : Spot) : Prop := tableGet s.chip.tcopies (pageOf sp.loc) = none

/-- No hoard line of the acting thread holds bytes at loc, and it has none at all (R161). -/
def NoLine (s : State) (loc : Nat) : Prop :=
  ∀ h ∈ s.chip.hoard, h.owner = s.chip.tid → h.cell ≠ globalOf (loc / 64 * 64)
def NoLines (s : State) : Prop := ∀ h ∈ s.chip.hoard, h.owner ≠ s.chip.tid

/-- The translation holds, of an address of a die's heap, the state that its entry has, and, of a sub-page, that its page's entry
has (R83, R93). -/
def Held (c : Chip) (die : BitVec 3) (off : Nat) (sub : Bool) (e : Dword) : Prop :=
  heldLeaf (c.die die).spans (off / if sub then 2 ^ 10 else 2 ^ 21) sub = some e ∧ (sub = true → ∃ table,
    spanTable c.mem die (c.die die).etroot off = .ok table ∧ heldLeaf (c.die die).spans (off / 2 ^ 21) false =
      some (Mem.dword c.mem (heapKey die (table + off / 2 ^ 21 % 32 * 8))))

/-- No other thread has an access that waits at a place in memory. -/
def NoneWaits (s : State) : Prop :=
  ∀ e ∈ s.chip.others, (∀ p ∈ e.2.pend, p.spots = []) ∧ ∀ t a l k w m, e.2.run = .wait (.access t a l k w m) → l = []

/-- The first poisoned byte of n at a key is at an offset (R295). -/
def FirstPoison (c : Chip) (key n o : Nat) : Prop :=
  o < n ∧ c.poisoned (key + o) = true ∧ ∀ k, k < o → c.poisoned (key + k) = false

/-- The thread after a long-latency instruction with lookahead la whose result has come: written at once where la is 0,
else pending with la window instructions left (R46). -/
def arrived (t : Thread) (la : BitVec 4) (dest : Dest) (r : Result) (fl : Word) (code : Byte) : Thread :=
  let u := { past t 4 with nextPend := t.nextPend + 1 }
  if la = 0 then
    (withFlags (match dest, r with
      | .x q, .x v => writeX u q v
      | .pair q, .pair lo hi => writeX (writeX u q lo) (q + 1) hi
      | .v q m, .v l => writeV u (0#1 ++ q) m l.get
      | _, _ => u) fl).warn code t.pc
  else
    { u with pend :=
      [{ id := t.nextPend, iaddr := t.pc, dest := dest, rem := la.toNat, access := none, spots := [], arrival := 0,
         result := r, wr := false, flags := fl, warn := code, rels := [], acqs := [], snap := none }] }

/-- A result that begins a snapshot when it is written (R153): where its window is still open, its entry holds the snapshot. -/
def beginning (t : Thread) (k : Snap) : Thread := { t with pend := t.pend.map fun p => { p with snap := some k } }

/-- A collected cut's result and the registers that take it (R173): pending where la is not 0. -/
def cutArrived (t : Thread) (la : BitVec 4) (xd q : Reg) (status b1 b2 b3 : Dword) : Thread :=
  if la = 0 then
    writeX (writeX (writeX (writeX { past t 4 with nextPend := t.nextPend + 1 } (q + 1) b1) (q + 2) b2) (q + 3) b3) xd status
  else arrived t la (.group xd q) (.group status b1 b2 b3 q) 0 0

/-- The thread after a long-latency instruction whose access waits: it waits where la is 0, else its entry pends. -/
def Awaits (t : Thread) (la : BitVec 4) (dest : Dest) (u : Thread) : Prop :=
  if la = 0 then ∃ acc l n code, u = { t with run := .wait (.access dest acc l n code 0) }
  else ∃ p : Pending, p.access.isSome = true ∧ p.dest = dest ∧ p.rem = la.toNat ∧ p.iaddr = t.pc ∧
    u = { past t 4 with nextPend := t.nextPend + 1, pend := [p] }

/-- The effective address of class M. -/
def addr (t : Thread) (xb : Reg) (off : BitVec 12) : Dword := BitVec.ofInt 64 ((t.getX xb).toInt + off.toInt)

/-- 2^size bytes of memory, sign-extended. -/
def loaded (m : List Host.Cell) (key : Nat) : Nat → Dword
  | 1 => sext (Mem.get m key)
  | 2 => sext (Mem.half m key)
  | 4 => sext (Mem.word m key)
  | _ => Mem.dword m key

/-- Plain loads, with lookahead, destination, address and bytes. -/
inductive Load (t : Thread) : Instr → BitVec 4 → Reg → Dword → Nat → Prop where
  | ldB la off xd xb : Load t (.ldB la off xd xb) la xd (addr t xb off) 1
  | ldH la off xd xb : Load t (.ldH la off xd xb) la xd (addr t xb off) 2
  | ldW la off xd xb : Load t (.ldW la off xd xb) la xd (addr t xb off) 4
  | ldD la off xd xb : Load t (.ldD la off xd xb) la xd (addr t xb off) 8

/-- Plain stores, with lookahead, address and the bytes stored. -/
inductive Store (t : Thread) : Instr → BitVec 4 → Dword → List Byte → Prop where
  | stB la off xs xb : Store t (.stB la off xs xb) la (addr t xb off) ((bytesOfDword (t.getX xs)).take 1)
  | stH la off xs xb : Store t (.stH la off xs xb) la (addr t xb off) ((bytesOfDword (t.getX xs)).take 2)
  | stW la off xs xb : Store t (.stW la off xs xb) la (addr t xb off) ((bytesOfDword (t.getX xs)).take 4)
  | stD la off xs xb : Store t (.stD la off xs xb) la (addr t xb off) (bytesOfDword (t.getX xs))

/-- Synchronising forms: lookahead, order, scope, destination, the word stored, address (R126). -/
inductive Sync (t : Thread) : Instr → SyncForm → BitVec 4 → BitVec 2 → BitVec 3 → Dest → Word → Dword → Prop where
  | ldwFf la o sc xd xb : Sync t (.ldwFf la o sc xd xb) .ldwFf la o sc (.x xd) 0 (t.getX xb)
  | ldwFe la o sc xd xb : Sync t (.ldwFe la o sc xd xb) .ldwFe la o sc (.x xd) 0 (t.getX xb)
  | ldwNw la o sc xd xb : Sync t (.ldwNw la o sc xd xb) .ldwNw la o sc (.x xd) 0 (t.getX xb)
  | stwEf la o sc xs xb :
      Sync t (.stwEf la o sc xs xb) .stwEf la o sc .none (BitVec.ofNat 32 (t.getX xs).toNat) (t.getX xb)
  | stwF la o sc xs xb : Sync t (.stwF la o sc xs xb) .stwF la o sc .none (BitVec.ofNat 32 (t.getX xs).toNat) (t.getX xb)
  | purge la o sc xb : Sync t (.purge la o sc xb) .purge la o sc .none 0 (t.getX xb)

/-- A form's condition on the word's bit, its bit afterwards, whether it stores, whether it may write the word or its bit, and
its kind for R79 and R89. -/
def SyncForm.ready : SyncForm → Bool → Prop
  | .ldwFf, f => f = true
  | .ldwFe, f => f = true
  | .stwEf, f => f = false
  | _, _ => True
def SyncForm.after : SyncForm → Bool → Bool
  | .ldwFf, f => f
  | .ldwNw, f => f
  | .stwEf, _ => true
  | .stwF, _ => true
  | .ldwFe, _ => false
  | .purge, _ => false
def SyncForm.stores : SyncForm → Bool
  | .stwEf => true
  | .stwF => true
  | _ => false
def SyncForm.changes : SyncForm → Bool
  | .ldwFf => false
  | .ldwNw => false
  | _ => true
def SyncForm.loads : SyncForm → Bool
  | .ldwFf => true
  | .ldwFe => true
  | .ldwNw => true
  | _ => false
def SyncForm.kind : SyncForm → Kind
  | .ldwFf => .read
  | .ldwNw => .read
  | _ => .write
/-- The fallback of an order and scope (R56 codes 0x04 and 0x05). -/
def SyncForm.code (f : SyncForm) (o : BitVec 2) (sc : BitVec 3) : Byte :=
  if o = 0 then (if sc = 0 then 0 else 5)
  else match f with
    | .ldwFe => 0
    | .ldwFf => if o = 1 then 0 else 4
    | .ldwNw => if o = 1 then 0 else 4
    | _ => if o = 2 then 0 else 4
/-- The form acquires: its order has `.acq`, or it falls back to both orders. -/
def SyncForm.acquires (f : SyncForm) (o : BitVec 2) (sc : BitVec 3) : Bool :=
  decide (o ≠ 0) && (o.getLsbD 0 || decide (SyncForm.code f o sc = 4))
/-- The register result. -/
def SyncForm.result (f : SyncForm) (full : Bool) (w : Word) : Result :=
  match f with
  | .ldwFf => .x (sext w)
  | .ldwFe => .x (sext w)
  | .ldwNw => .x (BitVec.ofNat 64 ((if full then 2 ^ 32 else 0) + w.toNat))
  | _ => .none

/-- The low word of a register. -/
def low (t : Thread) (r : Reg) : Word := BitVec.ofNat 32 (t.getX r).toNat

/-- Atomics on words and on doublewords: lookahead, destination, address and the new value (R129). -/
inductive AmoW (t : Thread) : Instr → BitVec 4 → Reg → Dword → (Word → Word) → Prop where
  | add la xd xv xb : AmoW t (.amoAddW la xd xv xb) la xd (t.getX xb) (fun old => BitVec.ofNat 32 (old.toNat + (low t xv).toNat))
  | and la xd xv xb : AmoW t (.amoAndW la xd xv xb) la xd (t.getX xb) (fun old => old &&& (low t xv))
  | or la xd xv xb : AmoW t (.amoOrW la xd xv xb) la xd (t.getX xb) (fun old => old ||| (low t xv))
  | xor la xd xv xb : AmoW t (.amoXorW la xd xv xb) la xd (t.getX xb) (fun old => old ^^^ (low t xv))
  | min la xd xv xb : AmoW t (.amoMinW la xd xv xb) la xd (t.getX xb) (fun old => BitVec.ofInt 32 (min old.toInt (low t xv).toInt))
  | max la xd xv xb : AmoW t (.amoMaxW la xd xv xb) la xd (t.getX xb) (fun old => BitVec.ofInt 32 (max old.toInt (low t xv).toInt))
  | swap la xd xv xb : AmoW t (.amoSwapW la xd xv xb) la xd (t.getX xb) (fun _ => (low t xv))
inductive AmoD (t : Thread) : Instr → BitVec 4 → Reg → Dword → (Dword → Dword) → Prop where
  | add la xd xv xb : AmoD t (.amoAddD la xd xv xb) la xd (t.getX xb) (fun old => BitVec.ofNat 64 (old.toNat + (t.getX xv).toNat))
  | and la xd xv xb : AmoD t (.amoAndD la xd xv xb) la xd (t.getX xb) (fun old => old &&& (t.getX xv))
  | or la xd xv xb : AmoD t (.amoOrD la xd xv xb) la xd (t.getX xb) (fun old => old ||| (t.getX xv))
  | xor la xd xv xb : AmoD t (.amoXorD la xd xv xb) la xd (t.getX xb) (fun old => old ^^^ (t.getX xv))
  | min la xd xv xb : AmoD t (.amoMinD la xd xv xb) la xd (t.getX xb) (fun old => BitVec.ofInt 64 (min old.toInt (t.getX xv).toInt))
  | max la xd xv xb : AmoD t (.amoMaxD la xd xv xb) la xd (t.getX xb) (fun old => BitVec.ofInt 64 (max old.toInt (t.getX xv).toInt))
  | swap la xd xv xb : AmoD t (.amoSwapD la xd xv xb) la xd (t.getX xb) (fun _ => (t.getX xv))

/-- The scalar accesses of R120 to R133: address, size, kind, the need of R and W in the local window, and whether they
read their bytes. -/
inductive Scal (t : Thread) : Instr → Dword → Nat → Kind → Bool → Bool → Prop where
  | load i la xd a n (h : Load t i la xd a n) : Scal t i a n .read false true
  | store i la a bs (h : Store t i la a bs) : Scal t i a bs.length .write false false
  | sync i f la o sc dest v a (h : Sync t i f la o sc dest v a) :
      Scal t i a 4 (SyncForm.kind f) true (SyncForm.loads f)
  | amoW i la xd a f (h : AmoW t i la xd a f) : Scal t i a 4 .atomic true true
  | amoD i la xd a f (h : AmoD t i la xd a f) : Scal t i a 8 .atomic true true
  | cas la xd xn xb : Scal t (.cas la xd xn xb) (t.getX xb) 8 .atomic true true
  | cas128 la xd xn xb : Scal t (.cas128 la xd xn xb) (t.getX xb) 16 .atomic true true
  | ldl la xd xb : Scal t (.ldl la xd xb) (t.getX xb) 8 .atomic true true
  | stu la xd xv xb : Scal t (.stu la xd xv xb) (t.getX xb) 8 .atomic true false

/-- FAULTINFO of a memory cause: 0 read, 1 write, 2 atomic (R295). -/
def info : Kind → Dword
  | .read => 0
  | .write => 1
  | .atomic => 2
  | .fetch => 3

/-- The protection pairs of a thread allow bytes off to off + n - 1 of its slice. -/
def Allows (t : Thread) (off n : Nat) (r w : Bool) : Prop :=
  ∃ p ∈ t.csr.lwin, p.toNat % 2 ^ 16 ≤ off ∧ off + n ≤ p.toNat / 2 ^ 16 % 2 ^ 17 ∧ (r = true → p.getLsbD 40 = true) ∧
    (w = true → p.getLsbD 41 = true)

/-- The active lanes of a vector access reach their spots, and the module is as before. -/
def LanesAt (s : State) (kind : Kind) (a : Dword) (m : Byte) (sp : BitVec 3 → Spot) : Prop :=
  ∀ i : BitVec 3, m.getLsbD i.toNat = true →
    ∃ e, s.chip.reach s.mgmt (s.chip.t.who s.chip.tid) kind false (a + 4 * i.setWidth 64) 4 = (.ok (sp i) e, s.chip)

/-- The access that a thread waits for, or that its entry still makes. -/
def LeftToStore (u : Thread) (acc : Access) : Prop :=
  (∃ dest l n code la, u.run = .wait (.access dest acc l n code la)) ∨ ∃ p ∈ u.pend, p.access = some acc

/-- The lanes of a vector load: the words of the active ones, 0 elsewhere. -/
def laneWords (s : State) (m : Byte) (sp : BitVec 3 → Spot) : Lanes Word :=
  Lanes.of fun i => if m.getLsbD i.toNat then Mem.word s.chip.mem (sp i).key else 0

/-! ### Cells (R98 to R102, R112, R194, R195) -/

/-- The format of a cell that arithmetic takes as described: a slice cell, or a heap cell of a page with DESC. -/
def cellFmt (key : Nat) (e : Dword) (code : Byte) : Option Fmt :=
  if isSliceKey key || e.getLsbD 43 then formats.find? fun f => decide (f.cell = code.toNat) else none
/-- Elements of a cell, and the byte at which one begins. -/
def countOf (f : Fmt) : Nat := if f.width = 32 then 15 else 496 / f.width
def elementAt (f : Fmt) (k : Nat) : Nat := if f.width = 32 then 4 + 4 * k else 2 + k * f.width / 8
/-- A second element of its byte. -/
def upper (f : Fmt) (k : Nat) : Bool := decide (f.width = 4) && decide (k % 2 = 1)
/-- The bits of element k of the cell at a key. -/
def elementOf (m : List Host.Cell) (key : Nat) (f : Fmt) (k : Nat) : Nat :=
  (Mem.word m (key + elementAt f k)).toNat / (if upper f k then 16 else 1) % 2 ^ f.width
/-- A value times, or divided by, a cell's scale. -/
def byScale (divide : Bool) (scale : Byte) (v : Num) : Num :=
  if scale = 0xFF then .nan
  else match v with
    | .fin neg x => .fin neg (x * 2 ^ (if divide then 127 - (scale.toNat : ℤ) else scale.toNat - 127))
    | v => v
/-- The word drawn for element k of the cell at loc. -/
def cellDraw (t : Thread) (f : Fmt) (loc k : Nat) : Word :=
  (hareWords t.csr.srseed (BitVec.ofNat 32 f.cell)
    (BitVec.ofNat 64 (2 * (0xFFF * 2 ^ 52 + loc + elementAt f k) + if upper f k then 1 else 0))).getD 0 0

/-- The bytes of memory that m' has and m has not are of the elements of group grp that the mask takes. -/
def OnlyElements (m m' : List Host.Cell) (key : Nat) (f : Fmt) (grp : Nat) (mask : Byte) : Prop :=
  (∀ k, k < key + 2 ∨ key + 64 ≤ k → Mem.get m' k = Mem.get m k) ∧
    ∀ k, k < countOf f → (∀ i : BitVec 3, mask.getLsbD i.toNat = true → k ≠ 8 * grp + i.toNat) →
      elementOf m' key f k = elementOf m key f k

/-! ### Copies of a page (R91, R135) -/

/-- The doubleword at offset off of the page that die d maps there, for a write, whatever the memory of another die is: where
its table finds it, or the cause. -/
inductive Copy (s : State) (m : List Host.Cell) (d : BitVec 3) (off : Nat) : Sum Nat Cause → Prop where
  | at_ e p (leaf : walk m d (s.chip.die d).etroot off false = .leaf e p)
      (open_ : e.getLsbD 47 = false ∧ e.getLsbD 46 = false ∧ e.getLsbD 49 = false ∧ e.extractLsb' 50 2 ≠ 2)
      (clean : tableGet s.chip.tcopies (pageOf (heapLoc d off)) = none) :
      Copy s m d off (.inl (heapKey d ((e.extractLsb' 8 32).toNat * 256 + off % 2 ^ 21)))
  | fails cause (walks : walk m d (s.chip.die d).etroot off false = .fails cause) : Copy s m d off (.inr cause)

/-- The thread waits at its mcst with copies still to write, those that have failed, and the cause of the lowest. -/
def McstWaits (t : Thread) (la : BitVec 4) (a v : Dword) (mask : Option (BitVec 4)) (left : List (BitVec 2))
    (failed : BitVec 4) (cause : Byte) (u : Thread) : Prop :=
  ∃ p n, u = { t with run := .wait (.access .none (.mcst a v mask (some left) failed cause) [p] n 0 la) }

end Sys2Proof.Claims

section
open Sys2Proof Sys2Proof.Machine

/-- R76 to R81: what an address names, and the first checks on it. A window address is checked against the protection
pairs, a slice address against its blocks' keys; any other form is ADDR_INVALID, and this module's own number names what
0xFFF names. -/
def Obligations.AddressChecks : Prop :=
  (∀ (c : Chip) g who kind rw (a : Dword) n, kind ≠ .fetch → a.toNat < 2 ^ 16 →
    (Claims.Allows (c.thread who.tid) a.toNat n (rw || decide (kind = .read)) (rw || decide (kind ≠ .read)) →
      c.reach g who kind rw a n = (.ok ⟨sliceLoc who.tid.coreId a.toNat, sliceKey who.tid.coreId a.toNat⟩ 0, c)) ∧
    (¬ Claims.Allows (c.thread who.tid) a.toNat n (rw || decide (kind = .read)) (rw || decide (kind ≠ .read)) →
      c.reach g who kind rw a n = (.fails Cause.localProtect, c))) ∧
  (∀ (c : Chip) g who kind rw (a : Dword) n, 2 ^ 16 ≤ a.toNat → a.toNat < 2 ^ 52 →
    c.reach g who kind rw a n = (.fails Cause.addrInvalid, c)) ∧
  (∀ (c : Chip) g who kind rw (a : Dword) n, 2 ^ 52 ≤ a.toNat → a.getLsbD 51 = true →
    49 < (a.extractLsb' 42 6).toNat ∨ 49 < (a.extractLsb' 36 6).toNat ∨ a.extractLsb' 16 17 ≠ 0 →
    c.reach g who kind rw a n = (.fails Cause.addrInvalid, c)) ∧
  (∀ (c : Chip) (g : Mgmt) who kind rw (a : Dword) n, 2 ^ 52 ≤ a.toNat → a.extractLsb' 52 12 ≠ 0xFFF →
    a.extractLsb' 52 12 ≠ g.modid → g.faben = false → c.reach g who kind rw a n = (.fails Cause.addrInvalid, c)) ∧
  (∀ (c : Chip) g who kind rw (a : Dword) n, kind ≠ .fetch → a.extractLsb' 52 12 = 0xFFF → a.getLsbD 51 = true →
    (a.extractLsb' 42 6).toNat ≤ 49 → (a.extractLsb' 36 6).toNat ≤ 49 → a.extractLsb' 16 17 = 0 → 0 < n →
    let off := (a.extractLsb' 0 16).toNat
    let k := sliceCore a
    let admits := who.sup = true ∨ ∀ b, off / 4096 ≤ b → b ≤ (off + n - 1) / 4096 → (c.core k).keys.getD b 0 = who.key
    (admits → c.reach g who kind rw a n = (.ok ⟨sliceLoc k off, sliceKey k off⟩ 0, c)) ∧
    (¬ admits → c.reach g who kind rw a n = (.fails Cause.sliceKey, c))) ∧
  (∀ (g : Mgmt) (low : BitVec 52), g.modid ≠ 0 → classify g (g.modid ++ low) = classify g (0xFFF#12 ++ low))

/-- R83, R85, R89, R90, R92: translation at the home. A walk stops PAGE_ABSENT at the first entry that is not valid; a leaf
that the translation holds is checked for RO, SHADOW and EXEC, an absent page is asked for, a ZERO page is zeroed first, and
else the access acts on the page's frame. Accesses of a region with SUB are sub-page accesses (R87). -/
def Obligations.TranslationResults : Prop :=
  (∀ mem die (et : Dword) off sub, et.getLsbD 0 = false → walk mem die et off sub = .fails Cause.pageAbsent) ∧
  (∀ mem die (et : Dword) off sub, et.getLsbD 0 = true → (et.extractLsb' 13 27).toNat * 2 ^ 13 < 0x20 * 2 ^ 32 →
    let e1 := Mem.dword mem (heapKey die ((et.extractLsb' 13 27).toNat * 2 ^ 13 + off / 2 ^ 38 % 1024 * 8))
    let e2 := Mem.dword mem (heapKey die ((e1.extractLsb' 8 32).toNat * 256 + off / 2 ^ 26 % 4096 * 8))
    let e3 := Mem.dword mem (heapKey die ((e2.extractLsb' 8 32).toNat * 256 + off / 2 ^ 21 % 32 * 8))
    let e4 := Mem.dword mem (heapKey die ((e3.extractLsb' 8 32).toNat * 256 + off / 2 ^ 10 % 2048 * 8))
    (e1.getLsbD 0 = false → walk mem die et off sub = .fails Cause.pageAbsent) ∧
    (e1.getLsbD 0 = true → pointerForm e1 (2 ^ 15) = false → walk mem die et off sub = .fails Cause.pageTable) ∧
    (e1.getLsbD 0 = true → pointerForm e1 (2 ^ 15) = true → e2.getLsbD 0 = false →
      walk mem die et off sub = .fails Cause.pageAbsent) ∧
    (e1.getLsbD 0 = true → pointerForm e1 (2 ^ 15) = true → e2.getLsbD 0 = true → pointerForm e2 (2 ^ 8) = true →
      (e3.getLsbD 0 = false → walk mem die et off sub = .fails Cause.pageAbsent) ∧
      (e3.getLsbD 0 = true → e3.getLsbD 1 = false → pageForm e3 die = true →
        walk mem die et off sub = if sub then .fails Cause.pageSize
          else .leaf e3 ((e2.extractLsb' 8 32).toNat * 256 + off / 2 ^ 21 % 32 * 8)) ∧
      (e3.getLsbD 0 = true → e3.getLsbD 1 = true → subTableForm e3 = true → sub = false →
        walk mem die et off sub = .fails Cause.pageSize) ∧
      (e3.getLsbD 0 = true → e3.getLsbD 1 = true → subTableForm e3 = true → sub = true → e4.getLsbD 0 = true →
        subPageForm e4 = true →
        walk mem die et off sub = .leaf e4 ((e3.extractLsb' 8 32).toNat * 256 + off / 2 ^ 10 % 2048 * 8)))) ∧
  (∀ (c : Chip) (who : Who) (die : BitVec 3) off, who.engine = false →
    (∀ r ∈ (c.core who.tid.coreId).rgn.find? (fun r => r.getLsbD 63 && decide (r.extractLsb' 18 3 = die) &&
        decide ((r.extractLsb' 21 27).toNat ≤ off / 2 ^ 21) &&
        decide (off / 2 ^ 21 < (r.extractLsb' 21 27).toNat + (r.extractLsb' 48 14).toNat)),
      subPage (c.regionsOf who) die off = r.getLsbD 62)) ∧
  (∀ (c : Chip) who kind die off e p, c.idle = [] →
    let sub := subPage (c.regionsOf who) die off
    let size := if sub then 2 ^ 10 else 2 ^ 21
    walk c.mem die (c.die die).etroot off sub = .leaf e p → Claims.Held c die off sub e →
    ((kind = .write ∨ kind = .atomic) ∧ (e.getLsbD 47 = true ∨ (e.getLsbD 46 = true ∧ who.engine = false)) ∨
        kind = .fetch ∧ e.getLsbD 48 = false → c.reachHeap who kind die off = (.fails Cause.pageProtect, c)) ∧
    (((kind = .write ∨ kind = .atomic) → e.getLsbD 47 = false ∧ (e.getLsbD 46 = false ∨ who.engine = true)) →
      (kind = .fetch → e.getLsbD 48 = true) →
      (e.extractLsb' 50 2 = 2 → (c.reachHeap who kind die off).1 = .absent (globalOf (heapLoc die (off / 2 ^ 21 * 2 ^ 21))) ∧
        globalOf (heapLoc die (off / 2 ^ 21 * 2 ^ 21)) ∈ (c.reachHeap who kind die off).2.promoting) ∧
      (e.extractLsb' 50 2 ≠ 2 → e.getLsbD 49 = true →
        let leaf := globalOf (heapLoc die (off / size * size))
        (c.reachHeap who kind die off).1 =
            .zeroing leaf sub ⟨heapLoc die off, heapKey die ((e.extractLsb' 8 32).toNat * 256 + off % size)⟩ e ∧
          (leaf, sub, e) ∈ (c.reachHeap who kind die off).2.zeroing) ∧
      (e.extractLsb' 50 2 ≠ 2 → e.getLsbD 49 = false → c.reachHeap who kind die off =
        (.ok ⟨heapLoc die off, heapKey die ((e.extractLsb' 8 32).toNat * 256 + off % size)⟩ e, c))))

/-- R121: a plain load that no hoard line serves completes with its bytes sign-extended, and changes nothing else. -/
def Obligations.LoadResults : Prop :=
  ∀ s i la xd a n sp, Claims.Load s.chip.t i la xd a n → Claims.Alone s 4 → a.toNat % n = 0 → Claims.At s .read false a n sp →
    s.chip.anyPoison sp.key n = false → Claims.SeenBytes s sp.loc n → Claims.NoLine s sp.loc →
    ∃ c, Claims.Books s.chip c ∧ exec i s = .next { s with chip := { c with
      t := Claims.arrived s.chip.t la (.x xd) (.x (Claims.loaded s.chip.mem sp.key n)) 0 0 } }

/-- R121, R131: a plain store completes: its bytes and no other, no full/empty bit, and the broken locks of other threads on
the doubleword. -/
def Obligations.StoreResults : Prop :=
  ∀ s i la a bs sp, Claims.Store s.chip.t i la a bs → Claims.Alone s 4 → a.toNat % bs.length = 0 →
    Claims.At s .write false a bs.length sp → Claims.NoCopy s sp →
    ∃ c, Claims.Changed s.chip c sp.key bs ∧ Claims.SameFull s.chip c ∧
      c.locks = s.chip.locks.map (fun l =>
        if l.loc < sp.loc + bs.length ∧ sp.loc < l.loc + 8 ∧ l.holder ≠ s.chip.tid then { l with broken := true } else l) ∧
      exec i s = .next { s with chip := { c with t := Claims.arrived s.chip.t la .none .none 0 0 } }

/-- R120: the checks of a scalar access that no hoard line serves, in their order; each stop is precise, and its access asks
for no page. FAULTADDR of a poisoned read is its first poisoned byte (R295). -/
def Obligations.AccessTraps : Prop :=
  ∀ s i a n kind rw reads, Claims.Scal s.chip.t i a n kind rw reads → s.chip.t.pend = [] → Claims.NoLines s →
    (a.toNat % n ≠ 0 → Claims.Traps i s Cause.misalign a (BitVec.ofNat 64 n)) ∧
    (a.toNat % n = 0 → ∀ cause c, s.chip.reach s.mgmt (s.chip.t.who s.chip.tid) kind rw a n = (.fails cause, c) →
      exec i s = ({ s with chip := Chip.unasked s.chip c } : State).run fun g c => c.raise g cause a (Claims.info kind)) ∧
    (a.toNat % n = 0 → ∀ sp e c, s.chip.reach s.mgmt (s.chip.t.who s.chip.tid) kind rw a n = (.ok sp e, c) →
      reads = true → ∀ o, Claims.FirstPoison c sp.key n o →
      exec i s = ({ s with chip := Chip.unasked s.chip c } : State).run fun g c =>
        c.raise g Cause.memPoison (a + BitVec.ofNat 64 o) (Claims.info kind)) ∧
    (a.toNat % n = 0 → s.chip.t.handler = none → ∀ page c, s.chip.reach s.mgmt (s.chip.t.who s.chip.tid) kind rw a n = (.absent page, c) →
      exec i s = ({ s with chip := c } : State).run fun g c => c.absentStop g page a (Claims.info kind))

/-- R124, R126, R127, R270: a synchronising access whose condition holds is performed, and one whose condition does not
hold waits with nothing changed; loopm enters its loop with the word that such a load reads. -/
def Obligations.SyncResults : Prop :=
  (∀ s i f la o sc dest v a sp, Claims.Sync s.chip.t i f la o sc dest v a → Claims.Alone s 4 → a.toNat % 4 = 0 →
    Claims.At s (Claims.SyncForm.kind f) true a 4 sp → (Claims.SyncForm.loads f = true → s.chip.anyPoison sp.key 4 = false) →
    (Claims.SyncForm.changes f = true → Claims.NoCopy s sp) →
    (Claims.SyncForm.ready f (s.chip.isFull sp.key) → ∃ c,
      Claims.Changed s.chip c sp.key (if Claims.SyncForm.stores f then bytesOfWord v else []) ∧
      (∀ k, c.isFull k = if k = sp.key then Claims.SyncForm.after f (s.chip.isFull sp.key) else s.chip.isFull k) ∧
      (Claims.SyncForm.acquires f o sc = true → ∀ e ∈ c.hoard, e.owner ≠ s.chip.tid) ∧
      exec i s = .next { s with chip := { c with
        t := Claims.arrived s.chip.t la dest
          (Claims.SyncForm.result f (s.chip.isFull sp.key) (Mem.word s.chip.mem sp.key)) 0 (Claims.SyncForm.code f o sc) } }) ∧
    (¬ Claims.SyncForm.ready f (s.chip.isFull sp.key) → ∃ c u, Claims.Changed s.chip c sp.key [] ∧
      Claims.SameFull s.chip c ∧ Claims.Awaits s.chip.t la dest u ∧
      exec i s = .next { s with chip := { c with t := u } })) ∧
  (∀ s xb (off : BitVec 4) (len : BitVec 17) sp, (Instr.loopm xb off len).WellFormed → Claims.Alone s 4 →
    let a := BitVec.ofInt 64 ((s.chip.t.getX xb).toInt + 4 * off.toInt)
    let n := Mem.word s.chip.mem sp.key
    let stop := s.chip.t.pc + 4 + 2 * len.setWidth 64
    a.toNat % 4 = 0 → Claims.At s .read true a 4 sp → s.chip.anyPoison sp.key 4 = false → s.chip.isFull sp.key = true →
    stop ≠ endLink → ∃ c, Claims.Changed s.chip c sp.key [] ∧ Claims.SameFull s.chip c ∧
      exec (.loopm xb off len) s = .next { s with chip := { c with
        t := if n = 0 then Claims.goTo s.chip.t stop
          else { s.chip.t with pc := s.chip.t.pc + 4, loops := [⟨s.chip.t.pc + 4, stop, n⟩] } } })

/-- R129, R130: the atomics write the new value of their operation over the old one, and give the old one. -/
def Obligations.AtomicResults : Prop :=
  (∀ s i la xd a f sp, Claims.AmoW s.chip.t i la xd a f → Claims.Alone s 4 → a.toNat % 4 = 0 → Claims.At s .atomic true a 4 sp →
    s.chip.anyPoison sp.key 4 = false → Claims.NoCopy s sp →
    ∃ c, Claims.Changed s.chip c sp.key (bytesOfWord (f (Mem.word s.chip.mem sp.key))) ∧ Claims.SameFull s.chip c ∧
      exec i s = .next { s with chip := { c with
        t := Claims.arrived s.chip.t la (.x xd) (.x (Claims.sext (Mem.word s.chip.mem sp.key))) 0 0 } }) ∧
  (∀ s i la xd a f sp, Claims.AmoD s.chip.t i la xd a f → Claims.Alone s 4 → a.toNat % 8 = 0 → Claims.At s .atomic true a 8 sp →
    s.chip.anyPoison sp.key 8 = false → Claims.NoCopy s sp →
    ∃ c, Claims.Changed s.chip c sp.key (bytesOfDword (f (Mem.dword s.chip.mem sp.key))) ∧ Claims.SameFull s.chip c ∧
      exec i s = .next { s with chip := { c with
        t := Claims.arrived s.chip.t la (.x xd) (.x (Mem.dword s.chip.mem sp.key)) 0 0 } }) ∧
  (∀ s la xd xn xb sp, Claims.Alone s 4 → (s.chip.t.getX xb).toNat % 8 = 0 → Claims.At s .atomic true (s.chip.t.getX xb) 8 sp →
    s.chip.anyPoison sp.key 8 = false → Claims.NoCopy s sp →
    let old := Mem.dword s.chip.mem sp.key
    ∃ c, Claims.Changed s.chip c sp.key (if old = s.chip.t.getX xd then bytesOfDword (s.chip.t.getX xn) else []) ∧
      Claims.SameFull s.chip c ∧
      exec (.cas la xd xn xb) s = .next { s with chip := { c with
        t := Claims.arrived s.chip.t la (.x xd) (.x old) 0 0 } }) ∧
  (∀ s la xd xn xb sp, Claims.Alone s 4 → (s.chip.t.getX xb).toNat % 16 = 0 → Claims.At s .atomic true (s.chip.t.getX xb) 16 sp →
    s.chip.anyPoison sp.key 16 = false → Claims.NoCopy s sp →
    let lo := Mem.dword s.chip.mem sp.key
    let hi := Mem.dword s.chip.mem (sp.key + 8)
    ∃ c, Claims.Changed s.chip c sp.key
        (if lo = s.chip.t.getX xd ∧ hi = s.chip.t.getX (xd + 1) then
          bytesOfDword (s.chip.t.getX xn) ++ bytesOfDword (s.chip.t.getX (xn + 1)) else []) ∧
      Claims.SameFull s.chip c ∧
      exec (.cas128 la xd xn xb) s = .next { s with chip := { c with
        t := Claims.arrived s.chip.t la (.pair xd) (.pair lo hi) 0 0 } })

/-- R131 to R133: ldl releases its thread's lock, then takes the bit and reads its doubleword, or waits while another thread
holds the bit or waits for it; stu stores
only where its thread's lock is on the doubleword and intact, says so, and releases the lock. -/
def Obligations.LockedPairResults : Prop :=
  (∀ s la xd xb sp, Claims.Alone s 4 → (s.chip.t.getX xb).toNat % 8 = 0 → Claims.At s .atomic true (s.chip.t.getX xb) 8 sp →
    s.chip.anyPoison sp.key 8 = false →
    ((∀ l ∈ s.chip.locks, l.holder ≠ s.chip.tid → sameLock l.loc sp.loc = false) → Claims.NoneWaits s → ∃ c,
      Claims.Changed s.chip c sp.key [] ∧ Claims.SameFull s.chip c ∧
      c.locks = (s.chip.locks.filter fun l => decide (l.holder ≠ s.chip.tid)) ++ [⟨sp.loc, s.chip.tid, false⟩] ∧
      exec (.ldl la xd xb) s = .next { s with chip := { c with
        t := Claims.arrived s.chip.t la (.x xd) (.x (Mem.dword s.chip.mem sp.key)) 0 0 } }) ∧
    (∀ l ∈ s.chip.locks, l.holder ≠ s.chip.tid → l.loc = sp.loc → ∃ c u,
      Claims.Changed s.chip c sp.key [] ∧ Claims.SameFull s.chip c ∧ Claims.Awaits s.chip.t la (.x xd) u ∧
      (∀ l ∈ c.locks, l.holder ≠ s.chip.tid) ∧ exec (.ldl la xd xb) s = .next { s with chip := { c with t := u } }) ∧
    (∀ tid u dest b l n w m q, (tid, u) ∈ s.chip.others → u.run = .wait (.access dest (.ldl b) l n w m) → q ∈ l →
      q.spot.loc = sp.loc → ∃ c u,
      Claims.Changed s.chip c sp.key [] ∧ Claims.SameFull s.chip c ∧ Claims.Awaits s.chip.t la (.x xd) u ∧
      (∀ l ∈ c.locks, l.holder ≠ s.chip.tid) ∧ exec (.ldl la xd xb) s = .next { s with chip := { c with t := u } })) ∧
  (∀ s la xd xv xb sp, Claims.Alone s 4 → (s.chip.t.getX xb).toNat % 8 = 0 → Claims.At s .atomic true (s.chip.t.getX xb) 8 sp →
    Claims.NoCopy s sp →
    let own := s.chip.locks.find? fun l => decide (l.holder = s.chip.tid)
    let st : Nat := match own with
      | none => 1
      | some l => if l.loc ≠ sp.loc then 2 else if l.broken then 3 else 0
    ∃ c, Claims.Changed s.chip c sp.key (if st = 0 then bytesOfDword (s.chip.t.getX xv) else []) ∧
      Claims.SameFull s.chip c ∧ (∀ l ∈ c.locks, l.holder ≠ s.chip.tid) ∧
      exec (.stu la xd xv xb) s = .next { s with chip := { c with
        t := Claims.arrived s.chip.t la (.x xd) (.x (BitVec.ofNat 64 st)) 0 0 } })

/-- R128, R193: pref asks for a line at most; vld loads the words of its active lanes, and vst stores those of its own: all at
once, or some of them now, at least one, while the access of the others waits (R58: the eight are not indivisible). The model's
choice: which lanes are written now is drawn (log 44). -/
def Obligations.VectorAccessResults : Prop :=
  (∀ s la xb, Claims.Alone s 4 → ∃ c, Claims.Books s.chip c ∧ exec (.pref la xb) s = .next { s with chip := { c with
    t := Claims.arrived s.chip.t la .none .none 0 0 } }) ∧
  (∀ s la (off : BitVec 5) mk vd xb sp, (Instr.vld la off mk vd xb).WellFormed → Claims.Alone s 4 →
    let a := BitVec.ofInt 64 ((s.chip.t.getX xb).toInt + 32 * off.toInt)
    let m := s.chip.t.getM mk
    a.toNat % 4 = 0 → Claims.LanesAt s .read a m sp → Claims.NoLines s →
    (∀ i : BitVec 3, m.getLsbD i.toNat = true → s.chip.anyPoison (sp i).key 4 = false ∧
      Claims.Seen s.chip s.chip.t.agentId (sp i).loc) →
    ∃ c, Claims.Books s.chip c ∧ exec (.vld la off mk vd xb) s = .next { s with chip := { c with
      t := Claims.arrived s.chip.t la (.v (vd.extractLsb' 0 4) m) (.v (Claims.laneWords s m sp)) 0 0 } }) ∧
  (∀ s la (off : BitVec 5) mk vd xb sp, (Instr.vst la off mk vd xb).WellFormed → Claims.Alone s 4 →
    let a := BitVec.ofInt 64 ((s.chip.t.getX xb).toInt + 32 * off.toInt)
    let m := s.chip.t.getM mk
    a.toNat % 4 = 0 → Claims.LanesAt s .write a m sp →
    (∀ i j : BitVec 3, m.getLsbD i.toNat = true → m.getLsbD j.toNat = true → i ≠ j →
      (sp i).key + 4 ≤ (sp j).key ∨ (sp j).key + 4 ≤ (sp i).key) →
    (∀ i : BitVec 3, m.getLsbD i.toNat = true → Claims.NoCopy s (sp i)) →
    ∃ (c : Chip) (now : Byte), (∀ i : BitVec 3, now.getLsbD i.toNat = true → m.getLsbD i.toNat = true) ∧ (m ≠ 0 → now ≠ 0) ∧
      (now = m → exec (.vst la off mk vd xb) s = .next { s with chip := { c with
        t := Claims.arrived s.chip.t la .none .none 0 0 } }) ∧
      (now ≠ m → ∃ u, Claims.Awaits s.chip.t la .none u ∧
        Claims.LeftToStore u (.vstore a (m &&& ~~~now) (s.chip.t.getV vd)) ∧
        exec (.vst la off mk vd xb) s = .next { s with chip := { c with t := u } }) ∧
      Claims.SameFull s.chip c ∧ c.tid = s.chip.tid ∧ c.others = s.chip.others ∧
      (∀ i : BitVec 3, now.getLsbD i.toNat = true → Mem.word c.mem (sp i).key = (s.chip.t.getV vd).get i) ∧
      ∀ k, (∀ i : BitVec 3, now.getLsbD i.toNat = true → k < (sp i).key ∨ (sp i).key + 4 ≤ k) →
        Mem.get c.mem k = Mem.get s.chip.mem k)

/-- R194, R195: vldc gives the elements of its group, by their scale, as FP32 to its active lanes, 0 past the cell's last
element, with the flags of the active lanes; vstc writes its active lanes, divided by the scale, as elements of the
cell's format, by CELLCV and the draw of R112, with the flags of those, and changes no other element and nothing outside
its cell; a cell without a format traps FORMAT_UNKNOWN in either, and a poisoned cell MEM_POISON in vldc. -/
def Obligations.CellAccessResults : Prop :=
  (∀ s la (grp : BitVec 4) mk vd xb sp e c0 f, (Instr.vldc la grp mk vd xb).WellFormed → Claims.Alone s 4 →
    let a := s.chip.t.getX xb
    let m := s.chip.t.getM mk
    a.toNat % 64 = 0 → s.chip.reach s.mgmt (s.chip.t.who s.chip.tid) .read false a 64 = (.ok sp e, c0) →
    s.chip.anyPoison sp.key 64 = false →
    (∀ w, w % 4 = 0 → sp.loc ≤ w → w < sp.loc + 64 → historyGet s.chip.hist w = none) →
    Claims.cellFmt sp.key e (Mem.get s.chip.mem sp.key) = some f →
    ∃ (c : Chip) (r : Lanes Word) (fl : BitVec 3 → Word), Claims.Books s.chip c ∧
      (∀ i : BitVec 3, let k := 8 * grp.toNat + i.toNat
        (k < Claims.countOf f → Claims.Cvt (.float Claims.fp32) 0 0 false false
          (Claims.byScale false (Mem.get s.chip.mem (sp.key + 1)) (Claims.decoded f (Claims.elementOf s.chip.mem sp.key f k)))
          (r.get i).toNat (fl i)) ∧
        (Claims.countOf f ≤ k → r.get i = 0 ∧ fl i = 0)) ∧
      exec (.vldc la grp mk vd xb) s = .next { s with chip := { c with
        t := Claims.arrived s.chip.t la (.v (vd.extractLsb' 0 4) m) (.v r) (Claims.union m fl) 0 } }) ∧
  (∀ s la (grp : BitVec 4) mk vd xb sp e c0, s.chip.t.pend = [] → (s.chip.t.getX xb).toNat % 64 = 0 →
    s.chip.reach s.mgmt (s.chip.t.who s.chip.tid) .read false (s.chip.t.getX xb) 64 = (.ok sp e, c0) →
    (s.chip.anyPoison sp.key 64 = false → (∀ w, w % 4 = 0 → sp.loc ≤ w → w < sp.loc + 64 → historyGet s.chip.hist w = none) →
      Claims.cellFmt sp.key e (Mem.get s.chip.mem sp.key) = none → ∃ c, Claims.Books s.chip c ∧
      exec (.vldc la grp mk vd xb) s = ({ s with chip := c } : State).run fun g c =>
        c.raise g Cause.formatUnknown (s.chip.t.getX xb) 0) ∧
    (∀ o, Claims.FirstPoison s.chip sp.key 64 o → ∃ c, Claims.Books s.chip c ∧
      exec (.vldc la grp mk vd xb) s = ({ s with chip := c } : State).run fun g c =>
        c.raise g Cause.memPoison (s.chip.t.getX xb + BitVec.ofNat 64 o) 0)) ∧
  (∀ s la (grp : BitVec 4) mk vd xb sp e c0 f, (Instr.vstc la grp mk vd xb).WellFormed → Claims.Alone s 4 →
    let a := s.chip.t.getX xb
    let m := s.chip.t.getM mk
    let rm := BitVec.ofNat 3 s.chip.t.csr.cellcv.toNat
    a.toNat % 64 = 0 → s.chip.reach s.mgmt (s.chip.t.who s.chip.tid) .write false a 64 = (.ok sp e, c0) →
    s.chip.poison = [] → Claims.NoCopy s sp → Claims.cellFmt sp.key e (Mem.get s.chip.mem sp.key) = some f → rm.toNat ≤ 4 →
    ∃ (c : Chip) (fl : BitVec 3 → Word), Claims.SameFull s.chip c ∧ c.tid = s.chip.tid ∧ c.others = s.chip.others ∧
      (∀ i : BitVec 3, let k := 8 * grp.toNat + i.toNat
        (m.getLsbD i.toNat = true → k < Claims.countOf f →
          Claims.Cvt f rm (Claims.cellDraw s.chip.t f sp.loc k) (s.chip.t.csr.cellcv.getLsbD 3) false
            (Claims.byScale true (Mem.get s.chip.mem (sp.key + 1))
              (Claims.decoded (.float Claims.fp32) ((s.chip.t.getV vd).get i).toNat))
            (Claims.elementOf c.mem sp.key f k) (fl i)) ∧
        (Claims.countOf f ≤ k → fl i = 0)) ∧
      Claims.OnlyElements s.chip.mem c.mem sp.key f grp.toNat m ∧
      exec (.vstc la grp mk vd xb) s = .next { s with chip := { c with
        t := Claims.arrived s.chip.t la .none .none (Claims.union m fl) 0 } }) ∧
  (∀ s la (grp : BitVec 4) mk vd xb sp e c0, s.chip.t.pend = [] → (s.chip.t.getX xb).toNat % 64 = 0 →
    s.chip.reach s.mgmt (s.chip.t.who s.chip.tid) .write false (s.chip.t.getX xb) 64 = (.ok sp e, c0) → s.chip.poison = [] →
    Claims.cellFmt sp.key e (Mem.get s.chip.mem sp.key) = none → ∃ c, Claims.Books s.chip c ∧
      exec (.vstc la grp mk vd xb) s = ({ s with chip := c } : State).run fun g c =>
        c.raise g Cause.formatUnknown (s.chip.t.getX xb) 0)

/-- R72, R135, R136: fship with a routine that ends gives X1 of the run and writes the cell where the routine stored; an
aborted routine traps SHIP_ABORT with the slot, the steps and the inner cause, an empty slot SHIP_EMPTY, a poisoned cell
MEM_POISON, an address outside the heap SHIP_SPACE. mcst with no replicas, or outside the heap, stores its
doubleword; to the home and one copy it writes both, and where the copy fails it traps MCAST_PARTIAL at the mcst once the home
is written. The model's choice: members are written in a drawn order and number at a time, the thread waiting for the rest
(R137, log 63). -/
def Obligations.ShipAndMulticastResults : Prop :=
  (∀ s la op (xp : BitVec 4) xd xb sp code small cell, Claims.Alone s 4 →
    let a := s.chip.t.getX xb
    let base : Spot := ⟨sp.loc / 64 * 64, sp.key - sp.loc % 64⟩
    a.extractLsb' 52 12 ≠ 0 → a.getLsbD 51 = false → Claims.At s .write false a 1 sp → tableGet s.chip.routines op = some code →
    s.chip.poison = [] → Claims.NoCopy s base →
    badgerRun code (Mem.bytes s.chip.mem base.key 64) ((List.range 16).map fun i => s.chip.isFull (base.key + 4 * i))
      (sp.loc % 64) op (s.chip.t.getX (xp ++ 0#1)) (s.chip.t.getX (xp ++ 1#1)) = (small, cell, .ended) →
    cell.bytes.length = 64 →
    ∃ c, Claims.Changed s.chip c base.key (if cell.stored then cell.bytes else []) ∧
      (∀ i, i < 16 → c.isFull (base.key + 4 * i) = (small.get 4).getLsbD i) ∧
      (∀ k, k < base.key ∨ base.key + 64 ≤ k → c.isFull k = s.chip.isFull k) ∧
      exec (.fship la op xp xd xb) s = .next { s with chip := { c with
        t := Claims.arrived s.chip.t la (.x xd) (.x (small.get 1)) 0 0 } }) ∧
  (∀ s la op (xp : BitVec 4) xd xb,
    (s.chip.t.getX xb).extractLsb' 52 12 = 0 ∨ (s.chip.t.getX xb).getLsbD 51 = true →
    Claims.Traps (.fship la op xp xd xb) s Cause.shipSpace (s.chip.t.getX xb) (op.setWidth 64)) ∧
  (∀ s la op (xp : BitVec 4) xd xb sp e c, (s.chip.t.getX xb).extractLsb' 52 12 ≠ 0 → (s.chip.t.getX xb).getLsbD 51 = false →
    s.chip.reach s.mgmt (s.chip.t.who s.chip.tid) .write false (s.chip.t.getX xb) 1 = (.ok sp e, c) →
    tableGet s.chip.routines op = none → exec (.fship la op xp xd xb) s =
      ({ s with chip := Chip.unasked s.chip c } : State).run fun g c =>
      c.raise g Cause.shipEmpty (s.chip.t.getX xb) (op.setWidth 64)) ∧
  (∀ s la op (xp : BitVec 4) xd xb sp code small cell inner, s.chip.t.pend = [] →
    let a := s.chip.t.getX xb
    let base : Spot := ⟨sp.loc / 64 * 64, sp.key - sp.loc % 64⟩
    a.extractLsb' 52 12 ≠ 0 → a.getLsbD 51 = false → Claims.At s .write false a 1 sp → tableGet s.chip.routines op = some code →
    (s.chip.anyPoison base.key 64 = true →
      ∃ c, Claims.Books s.chip c ∧ exec (.fship la op xp xd xb) s =
        ({ s with chip := c } : State).run fun g c => c.raise g Cause.memPoison a 1) ∧
    (s.chip.anyPoison base.key 64 = false →
      badgerRun code (Mem.bytes s.chip.mem base.key 64) ((List.range 16).map fun i => s.chip.isFull (base.key + 4 * i))
        (sp.loc % 64) op (s.chip.t.getX (xp ++ 0#1)) (s.chip.t.getX (xp ++ 1#1)) = (small, cell, .aborted inner) →
      ∃ (c : Chip) (k : Byte), Claims.Books s.chip c ∧ (∀ q ∈ inner, k = q) ∧ exec (.fship la op xp xd xb) s =
        ({ s with chip := c } : State).run fun g c => c.raise g Cause.shipAbort a
          (BitVec.ofNat 64 (op.toNat + small.steps % 2 ^ 11 * 2 ^ 16 + k.toNat * 2 ^ 32)))) ∧
  (∀ s la xv xm xb sp e c0, Claims.Alone s 4 → (s.chip.t.getX xb).toNat % 8 = 0 →
    s.chip.reach s.mgmt (s.chip.t.who s.chip.tid) .write false (s.chip.t.getX xb) 8 = (.ok sp e, c0) → Claims.NoCopy s sp →
    homeHeap s.mgmt (s.chip.t.getX xb) = none ∨
      (entryRepl e = false ∧ (xm = 0 ∨ (s.chip.t.getX xm).getLsbD 0 = true)) →
    ∃ c, Claims.Changed s.chip c sp.key (bytesOfDword (s.chip.t.getX xv)) ∧ Claims.SameFull s.chip c ∧
      exec (.mcst la xv xm xb) s = .next { s with chip := { c with t := Claims.arrived s.chip.t la .none .none 0 0 } }) ∧
  (∀ s la xv xb sp e c0 d off d1 k1, Claims.Alone s 4 →
    let a := s.chip.t.getX xb
    let v := s.chip.t.getX xv
    a.toNat % 8 = 0 → s.chip.reach s.mgmt (s.chip.t.who s.chip.tid) .write false a 8 = (.ok sp e, c0) →
    Claims.NoCopy s sp → homeHeap s.mgmt a = some (d, off) → entryRepl e = true →
    entryRepd e 0 = (true, d1) → (entryRepd e 1).1 = false → (entryRepd e 2).1 = false →
    denOffset s.mgmt d1 off = none → subPage (s.chip.core s.chip.tid.coreId).rgn d1 off = false →
    heldLeaf (s.chip.die d1).spans (off / 2 ^ 21) false = none → d1 ≠ d →
    Claims.Copy s s.chip.mem d1 off k1 → Claims.Copy s (Mem.write s.chip.mem sp.key (bytesOfDword v)) d1 off k1 →
    (∀ key, k1 = .inl key → (key + 8 ≤ sp.key ∨ sp.key + 8 ≤ key) → ∃ c : Chip, c.tid = s.chip.tid ∧ c.others = s.chip.others ∧
      Claims.SameFull s.chip c ∧
      (∀ k, (k < sp.key ∨ sp.key + 8 ≤ k) → (k < key ∨ key + 8 ≤ k) → Mem.get c.mem k = Mem.get s.chip.mem k) ∧
      ((exec (.mcst la xv 0 xb) s = .next { s with chip := { c with t := Claims.arrived s.chip.t la .none .none 0 0 } } ∧
          Mem.dword c.mem sp.key = v ∧ Mem.dword c.mem key = v) ∨
        (∃ u, Claims.McstWaits s.chip.t la a v none [1] 0 0 u ∧ exec (.mcst la xv 0 xb) s = .next { s with chip := { c with t := u } } ∧
          Mem.dword c.mem sp.key = v ∧ Mem.dword c.mem key = Mem.dword s.chip.mem key) ∨
        (∃ u, Claims.McstWaits s.chip.t la a v none [0] 0 0 u ∧ exec (.mcst la xv 0 xb) s = .next { s with chip := { c with t := u } } ∧
          Mem.dword c.mem sp.key = Mem.dword s.chip.mem sp.key ∧ Mem.dword c.mem key = v))) ∧
    (∀ cause, k1 = .inr cause →
      (∃ c, Claims.Changed s.chip c sp.key (bytesOfDword v) ∧ Claims.SameFull s.chip c ∧
        exec (.mcst la xv 0 xb) s = ({ s with chip := c } : State).run fun g c =>
          c.raise g Cause.mcastPartial s.chip.t.pc (BitVec.ofNat 64 (2 + cause.toNat * 2 ^ 8))) ∨
      (∃ c u, Claims.Changed s.chip c sp.key (bytesOfDword v) ∧ Claims.SameFull s.chip c ∧
        Claims.McstWaits s.chip.t la a v none [1] 0 0 u ∧ exec (.mcst la xv 0 xb) s = .next { s with chip := { c with t := u } }) ∨
      (∃ c u, Claims.Changed s.chip c sp.key [] ∧ Claims.SameFull s.chip c ∧
        Claims.McstWaits s.chip.t la a v none [0] 2 cause u ∧ exec (.mcst la xv 0 xb) s = .next { s with chip := { c with t := u } }))) ∧
  (∀ (c : Chip) (g : Mgmt) (w : Issuer) a v mask failed cause p d off, homeHeap g a = some (d, off) → failed ≠ 0#4 →
    tableGet c.tcopies (pageOf p.spot.loc) = none →
    ∃ c', Claims.Changed c c' p.spot.key (bytesOfDword v) ∧ c.actMcst g w a v mask (some [0]) failed cause p =
      (.stop Cause.mcastPartial w.iaddr (BitVec.ofNat 64 (failed.toNat + cause.toNat * 2 ^ 8)), c'))

/-- R46, R151 to R155, R173: wptr, jwait and jpoll on a job of the thread's own task, with any lookahead. wptr with x0, or with
bytes that are there or a job that is over, gives the write pointer, and else waits; jpoll gives the status word; jwait waits
while the job is not over; a job that is over is collected and its entry freed. A result begins a snapshot when it is written,
with the job's writes where they count from then on. wptr and jwait answer after an earlier read that still waits (R281). Any
other ID traps JOB_ID. -/
def Obligations.JobWatchResults : Prop :=
  (∀ s la xd xa xb j, Claims.Alone s 4 → s.chip.jobOf s.chip.tid.cluster (s.chip.t.getX xa) = some j →
    s.chip.t.agentId = .task j.task →
    (xb = 0 ∨ (s.chip.t.getX xb).toNat ≤ j.wp ∨ j.state.over = true →
      ∃ c, Claims.Books s.chip c ∧ exec (.wptr la xd xa xb) s = .next { s with chip := { c with
        t := Claims.beginning (Claims.arrived s.chip.t la (.x xd) (.x (BitVec.ofNat 64 j.wp)) 0 0)
          ⟨[], if j.streamed then j.wrote else [], false⟩ } }) ∧
    (xb ≠ 0 → j.wp < (s.chip.t.getX xb).toNat → j.state.over = false →
      ∃ c u, Claims.Books s.chip c ∧ Claims.Awaits s.chip.t la (.x xd) u ∧
        exec (.wptr la xd xa xb) s = .next { s with chip := { c with t := u } })) ∧
  (∀ s la xd xa j, Claims.Alone s 4 → s.chip.jobOf s.chip.tid.cluster (s.chip.t.getX xa) = some j →
    s.chip.t.agentId = .task j.task → j.state.over = false → (∀ r co mis q, j.kind ≠ .cut r co mis q) →
    (∃ c, Claims.Books s.chip c ∧ exec (.jpoll la xd xa) s = .next { s with chip := { c with
      t := Claims.beginning (Claims.arrived s.chip.t la (.x xd) (.x j.status) 0 0) ⟨[], [], false⟩ } }) ∧
    ∃ c u, Claims.Books s.chip c ∧ Claims.Awaits s.chip.t la (.x xd) u ∧
      exec (.jwait la xd xa) s = .next { s with chip := { c with t := u } }) ∧
  (∀ s la xd xa j, Claims.Alone s 4 → s.chip.jobOf s.chip.tid.cluster (s.chip.t.getX xa) = some j →
    s.chip.t.agentId = .task j.task → j.state.over = true → (∀ r co mis q, j.kind ≠ .cut r co mis q) → j.missed = false →
    ∀ i ∈ [Instr.jwait la xd xa, .jpoll la xd xa], ∃ c, Claims.Books s.chip c ∧ exec i s = .next { s with chip := { c with
      jobs := c.jobs.filter (fun k => !(decide (k.cluster = j.cluster) && decide (k.entry = j.entry)))
      t := Claims.beginning (Claims.arrived s.chip.t la (.x xd) (.x j.status) (if j.operr then 0x100 else 0) 0)
        ⟨j.wrote, [], false⟩ } }) ∧
  (∀ s la xd xa j r co mis q b1 b2 b3, Claims.Alone s 4 → s.chip.jobOf s.chip.tid.cluster (s.chip.t.getX xa) = some j →
    s.chip.t.agentId = .task j.task → j.state = .done → j.kind = .cut r co mis q → j.bounds = some (b1, b2, b3) →
    (la = 0 → j.missed = false) → j.operr = false →
    ∀ i ∈ [Instr.jwait la xd xa, .jpoll la xd xa], ∃ c, Claims.Books s.chip c ∧ exec i s = .next { s with chip := { c with
      jobs := c.jobs.filter (fun k => !(decide (k.cluster = j.cluster) && decide (k.entry = j.entry)))
      t := Claims.beginning (Claims.cutArrived s.chip.t la xd q j.status b1 b2 b3) ⟨j.wrote, [], j.missed⟩ } }) ∧
  (∀ s xd xa xb j, s.chip.t.run = .ready → Claims.Waits s.chip.t Access.readsMem →
    s.chip.jobOf s.chip.tid.cluster (s.chip.t.getX xa) = some j → s.chip.t.agentId = .task j.task →
    (∀ r co mis q, j.kind ≠ .cut r co mis q) → xb ≠ 0 →
    ∀ i ∈ [Instr.wptr 0 xd xa xb, .jwait 0 xd xa], ∃ c u, Claims.Books s.chip c ∧ Claims.Awaits s.chip.t 0 (.x xd) u ∧
      exec i s = .next { s with chip := { c with t := u } }) ∧
  (∀ s la xd xa xb, s.chip.t.pend = [] → s.chip.jobOf s.chip.tid.cluster (s.chip.t.getX xa) = none ∨
      (∀ j, s.chip.jobOf s.chip.tid.cluster (s.chip.t.getX xa) = some j → s.chip.t.agentId ≠ .task j.task) →
    ∀ i ∈ [Instr.wptr la xd xa xb, .jwait la xd xa, .jpoll la xd xa], Claims.Traps i s Cause.jobId 0 0)

end

namespace Sys2Proof.Claims
open Sys2Proof.Machine

/-! ## Engines, tiles, tasks and the Den -/

/-- Reading the next n cells of 64 bytes from an address changes nothing and gives the bytes at their spots: the protection
pairs admit the whole range at once or, where `each` says so, each byte on its own, the keys admit it, heap cells are
reached, none is poisoned, and no word of them has been written since reset. -/
structure BlocksAt (s : State) (each : Bool) (a : Dword) (n : Nat) (sp : Nat → Spot) (e : Nat → Dword) : Prop where
  place : a.toNat < 2 ^ 16 ∨ (∃ k off, classify s.mgmt a = some (.slice k off)) ∨ (homeHeap s.mgmt a).isSome = true
  heap : (homeHeap s.mgmt a).isSome = true → ∀ i, i < n →
    s.chip.reach s.mgmt (s.chip.t.who s.chip.tid) .read false (a + BitVec.ofNat 64 (64 * i)) 64 = (.ok (sp i) (e i), s.chip)
  window : a.toNat < 2 ^ 16 → a.toNat + 64 * n ≤ 2 ^ 16 ∧
    (if each then ∀ i, i < 64 * n → Allows s.chip.t (a.toNat + i) 1 true false else Allows s.chip.t a.toNat (64 * n) true false) ∧
    ∀ i, i < n → e i = 0 ∧
      sp i = ⟨sliceLoc s.chip.tid.coreId (a.toNat + 64 * i), sliceKey s.chip.tid.coreId (a.toNat + 64 * i)⟩
  slice : ∀ k off, classify s.mgmt a = some (.slice k off) → off + 64 * n ≤ 2 ^ 16 ∧
    keyAdmits (s.chip.core k) (s.chip.t.who s.chip.tid) off (64 * n) = true ∧
    ∀ i, i < n → e i = 0 ∧ sp i = ⟨sliceLoc k (off + 64 * i), sliceKey k (off + 64 * i)⟩
  clean : s.chip.poison = []
  fresh : ∀ i, i < n → ∀ w, (sp i).loc ≤ w → w < (sp i).loc + 64 → historyGet s.chip.hist w = none

/-- A contracting load of the acting thread's cluster that is not over and names resident slot n (R226, R240). -/
def SlotUsed (s : State) (n : Nat) : Prop :=
  ∃ j ∈ s.chip.jobs, ∃ p, j.kind = .cld p ∧ j.cluster = s.chip.tid.cluster ∧ j.state.over = false ∧ p.slot.toNat ≤ n ∧
    n < p.slot.toNat + match p.form, (((s.chip.cluster s.chip.tid.cluster).slots.getD p.slot.toNat Slot.reset).pattern) with
      | 2#2, some (k, m, _) => (p.cells + m / k - 1) / (m / k)
      | _, _ => p.cells

/-- A contracting load of the acting thread's cluster is not over. -/
def LoadLive (s : State) : Prop :=
  ∃ j ∈ s.chip.jobs, (∃ p, j.kind = .cld p) ∧ j.cluster = s.chip.tid.cluster ∧ j.state.over = false

/-- A byte range that an engine instruction names passes R141 steps 4 and 6: none, heap of this module, a slice, or the own
slice by the window with a pair for every byte. -/
def RangeOk (s : State) (a : Dword) (n : Nat) (write : Bool) : Prop :=
  n = 0 ∨ ((homeHeap s.mgmt a).isSome = true ∧ (homeHeap s.mgmt (a + BitVec.ofNat 64 (n - 1))).isSome = true ∧
      a.toNat % 2 ^ 52 + n ≤ 2 ^ 51) ∨
    (∃ k off, classify s.mgmt a = some (.slice k off) ∧ off + n ≤ 2 ^ 16) ∨
    (a.toNat + n ≤ 2 ^ 16 ∧ ∀ i, i < n → Allows s.chip.t (a.toNat + i) 1 (!write) write)

/-- The rows of a two-dimensional operand pass them: the whole extent does, or a pair allows every byte of every row in
the own slice by the window, whatever lies between rows (R147). -/
def RowsOk (s : State) (a : Dword) (w h stride : Nat) (write : Bool) : Prop :=
  RangeOk s a ((h - 1) * stride + w) write ∨
    (a.toNat + ((h - 1) * stride + w) ≤ 2 ^ 16 ∧
      ∀ r, r < h → ∀ i, i < w → Allows s.chip.t (a.toNat + r * stride + i) 1 (!write) write)

/-- Two ranges share no byte. -/
def Apart (a : Dword) (n : Nat) (b : Dword) (m : Nat) : Prop := a.toNat + n ≤ b.toNat ∨ b.toNat + m ≤ a.toNat

/-- The instructions that issue a job of no tied barrier, with the conditions of their issue: lookahead, destination, what
the job does, and whether it is done at once (R141, R147, R149, R168, R322). -/
inductive Issues (s : State) : Instr → BitVec 4 → Reg → JobKind → Bool → Prop where
  | cpy la xd xa xb (d src n : Dword) (hd : d = s.chip.t.getX xa) (hs : src = s.chip.t.getX (xa + 1)) (hn : n = s.chip.t.getX xb)
      (h : d.toNat % 4 = 0 ∧ src.toNat % 4 = 0 ∧ n.toNat % 4 = 0 ∧ n.toNat < 2 ^ 40 ∧ RangeOk s d n.toNat true ∧
        RangeOk s src n.toNat false ∧ (n = 0 ∨ Apart d n.toNat src n.toNat)) :
      Issues s (.cpy la xd xa xb) la xd (.cpy d src n.toNat) (decide (n = 0))
  | cpy2 la xd xa xb (d src : Dword) (w h p q : Nat) (hd : d = s.chip.t.getX xa) (hs : src = s.chip.t.getX (xa + 1))
      (hw : w = (s.chip.t.getX xb).toNat % 2 ^ 32) (hh : h = (s.chip.t.getX xb).toNat / 2 ^ 32)
      (hp : p = (s.chip.t.getX (xb + 1)).toNat % 2 ^ 32) (hq : q = (s.chip.t.getX (xb + 1)).toNat / 2 ^ 32)
      (hx : d.toNat % 4 = 0 ∧ src.toNat % 4 = 0 ∧ w % 4 = 0 ∧ p % 4 = 0 ∧ q % 4 = 0 ∧ 0 < w ∧ w ≤ 2 ^ 24 ∧ 0 < h ∧ h ≤ 2 ^ 20 ∧
        (1 < h → w ≤ p) ∧ RowsOk s d w h p true ∧ RowsOk s src w h q false ∧
        Apart d ((h - 1) * p + w) src ((h - 1) * q + w)) :
      Issues s (.cpy2 la xd xa xb) la xd (.cpy2 d src w h p q) false
  | cpy2Empty la xd xa xb (d src : Dword) (w h p q : Nat) (hd : d = s.chip.t.getX xa) (hs : src = s.chip.t.getX (xa + 1))
      (hw : w = (s.chip.t.getX xb).toNat % 2 ^ 32) (hh : h = (s.chip.t.getX xb).toNat / 2 ^ 32)
      (hp : p = (s.chip.t.getX (xb + 1)).toNat % 2 ^ 32) (hq : q = (s.chip.t.getX (xb + 1)).toNat / 2 ^ 32)
      (hx : d.toNat % 4 = 0 ∧ src.toNat % 4 = 0 ∧ w % 4 = 0 ∧ p % 4 = 0 ∧ q % 4 = 0 ∧ w ≤ 2 ^ 24 ∧ h ≤ 2 ^ 20 ∧
        (1 < h → w ≤ p) ∧ (w = 0 ∨ h = 0)) :
      Issues s (.cpy2 la xd xa xb) la xd (.cpy2 d src w h p q) true
  | gath la xd xa xb (d b l : Dword) (n e : Nat) (hd : d = s.chip.t.getX xa) (hb : b = s.chip.t.getX (xa + 1))
      (hl : l = s.chip.t.getX xb) (hn : n = (s.chip.t.getX (xb + 1)).toNat % 2 ^ 32)
      (he : e = (s.chip.t.getX (xb + 1)).toNat / 2 ^ 32)
      (h : d.toNat % 4 = 0 ∧ b.toNat % 4 = 0 ∧ l.toNat % 4 = 0 ∧ e % 4 = 0 ∧ n ≤ 2 ^ 24 ∧ 4 ≤ e ∧ e ≤ 4096 ∧
        RangeOk s d (n * e) true ∧ RangeOk s l (n * 4) false ∧ (n = 0 ∨ Apart d (n * e) l (n * 4))) :
      Issues s (.gath la xd xa xb) la xd (.gath d b l n e) (decide (n = 0))
  | scat la xd xa xb (b src l : Dword) (n e : Nat) (hb : b = s.chip.t.getX xa) (hs : src = s.chip.t.getX (xa + 1))
      (hl : l = s.chip.t.getX xb) (hn : n = (s.chip.t.getX (xb + 1)).toNat % 2 ^ 32)
      (he : e = (s.chip.t.getX (xb + 1)).toNat / 2 ^ 32)
      (h : b.toNat % 4 = 0 ∧ src.toNat % 4 = 0 ∧ l.toNat % 4 = 0 ∧ e % 4 = 0 ∧ n ≤ 2 ^ 24 ∧ 4 ≤ e ∧ e ≤ 4096 ∧
        RangeOk s src (n * e) false ∧ RangeOk s l (n * 4) false) :
      Issues s (.scat la xd xa xb) la xd (.scat b src l n e) (decide (n = 0))
  | pub la xd xa xb (a : Dword) (n : Nat) (ha : a = s.chip.t.getX xa) (hn : n = (s.chip.t.getX xb).toNat)
      (h : a.toNat % 2 ^ 21 = 0 ∧ 1 ≤ n ∧ n ≤ 32 ∧ (homeHeap s.mgmt a).isSome = true ∧
        a.toNat / 2 ^ 26 = (a.toNat + (n * 2 ^ 21 - 1)) / 2 ^ 26) :
      Issues s (.pub la xd xa xb) la xd (.pub a n) false
  | cut la xd xa (a : Dword) (ha : a = s.chip.t.getX xa)
      (h : a.toNat % 64 = 0 ∧ a.toNat + 64 ≤ 2 ^ 16 ∧ ∀ i, i < 64 → Allows s.chip.t (a.toNat + i) 1 true false) :
      Issues s (.cut la xd xa) la xd (.cut a false (s.chip.t.csr.cutctl.getLsbD 0) xd) false
  | cocut la xd xa (a : Dword) (ha : a = s.chip.t.getX xa)
      (h : a.toNat % 64 = 0 ∧ a.toNat + 128 ≤ 2 ^ 16 ∧ ∀ i, i < 128 → Allows s.chip.t (a.toNat + i) 1 true false) :
      Issues s (.cocut la xd xa) la xd (.cut a true (s.chip.t.csr.cutctl.getLsbD 0) xd) false
  | kvwalk la xd xa xb (head ring cr : Dword) (len n : Nat) (hh : head = s.chip.t.getX xa) (hr : ring = s.chip.t.getX (xa + 1))
      (hl : len = (s.chip.t.getX xb).toNat % 2 ^ 32) (hn : n = (s.chip.t.getX xb).toNat / 2 ^ 32)
      (hc : cr = s.chip.t.getX (xb + 1))
      (h : ring.toNat % 64 = 0 ∧ cr.toNat % 4 = 0 ∧ len % 64 = 0 ∧ 64 ≤ len ∧ len ≤ 32768 ∧ 1 ≤ n ∧ n ≤ 2 ^ 24 ∧
        head.extractLsb' 16 5 = 0 ∧ ring.toNat + len ≤ 2 ^ 16 ∧ cr.toNat + 4 ≤ 2 ^ 16 ∧ Apart cr 4 ring len ∧
        (∀ i, i < len → Allows s.chip.t (ring.toNat + i) 1 false true) ∧
        ∀ i, i < 4 → Allows s.chip.t (cr.toNat + i) 1 true false) :
      Issues s (.kvwalk la xd xa xb) la xd (.kvwalk head ring len n cr) (decide (head = 0))

/-- The bytes that a job of the Copy Unit will write (R142, R147). -/
def jobBytes : JobKind → Nat
  | .cpy _ _ n => n
  | .cpy2 _ _ w h _ _ => w * h
  | .gath _ _ _ n e => n * e
  | .scat _ _ _ n e => n * e
  | _ => 0

/-- A kind of job that JCTL governs (R142). -/
def governed : JobKind → Bool
  | .cpy _ _ _ => true
  | .cpy2 _ _ _ _ _ _ => true
  | .gath _ _ _ _ _ => true
  | .scat _ _ _ _ _ => true
  | .pub _ _ => true
  | _ => false

/-- The barrier instance that JCTL names: scope BSC and number BID (R142). -/
def tieOf (s : State) : BarKey :=
  barKey s.chip.t s.chip.tid (s.chip.t.csr.jctl.extractLsb' 0 3) (s.chip.t.csr.jctl.extractLsb' 3 5) s.chip.t.csr.ldkey

/-- The state after a job is issued in a free entry of the acting thread's cluster: the job with its kind, its state and the
barrier it is tied to, the entry's count one higher, the job's bytes pending at that barrier, and the job's ID as the
result (R139, R142). -/
def Issued (s : State) (o : Host.Outcome State Fault Refusal) (la : BitVec 4) (xd : Reg) (kind : JobKind) (empty : Bool)
    (tied : Option BarKey) (tiles : List Tile → List Tile) : Prop :=
  ∃ (c : Chip) (j : Job), Books s.chip c ∧ j.cluster = s.chip.tid.cluster ∧
    (∀ k ∈ s.chip.jobs, k.cluster = s.chip.tid.cluster → k.entry ≠ j.entry) ∧
    j.seq = (s.chip.cluster s.chip.tid.cluster).seqs.getD j.entry.toNat 0 ∧ j.kind = kind ∧
    j.task = (s.chip.t.task.map Task.id).getD 0 ∧ j.tid = s.chip.tid ∧ j.key = s.chip.t.csr.ldkey ∧
    j.lwin = s.chip.t.csr.lwin ∧ j.state = (if empty then .done else .queued) ∧ j.tied = tied ∧
    o = .next { s with chip := { c.setCluster s.chip.tid.cluster
        { s.chip.cluster s.chip.tid.cluster with
          seqs := (s.chip.cluster s.chip.tid.cluster).seqs.set j.entry.toNat (j.seq + 1) } with
      jobs := s.chip.jobs ++ [j], tiles := tiles s.chip.tiles
      barriers := (match tied with
        | none => s.chip.barriers
        | some k =>
          let b := barrierGet s.chip.barriers k
          barrierPut s.chip.barriers { b with cnt := b.cnt + BitVec.ofNat 56 (jobBytes kind), tied := b.tied.join [] })
      t := arrived s.chip.t la (.x xd) (.x (BitVec.ofNat 64 (j.seq.toNat * 256 + j.entry.toNat))) 0 0 } }

/-- A queue entry of the acting thread's cluster is free. -/
def EntryFree (s : State) : Prop :=
  ∃ e : BitVec 5, ∀ k ∈ s.chip.jobs, k.cluster = s.chip.tid.cluster → k.entry ≠ e

/-- Tile acc of the acting thread's task. -/
def TileIs (s : State) (acc : BitVec 2) (x : Tile) : Prop :=
  s.chip.tile ((s.chip.t.task.map Task.id).getD 0) acc.toNat = some x

/-- The module with a tile replaced, and a thread. -/
def withTile (s : State) (x : Tile) (t : Thread) : State :=
  { s with chip := { s.chip with
    tiles := s.chip.tiles.map fun y => if y.task = x.task ∧ y.acc = x.acc then x else y, t := t } }

/-- A zeroed tile of a type (R241). -/
def zeroed (x : Tile) (int32 : Bool) (elems : List Word) : Tile :=
  { x with elems := elems, v := true, d := false, t := int32, operr := false, isat := false, cov := 0 }

/-- The cluster of the acting thread replaced, and its thread. -/
def withCluster (s : State) (k : Cluster) (t : Thread) : State :=
  { s with chip := { s.chip.setCluster s.chip.tid.cluster k with t := t } }

/-- The CSRs of the acting thread's task: in a handler those of its frame (R302, R305). -/
def taskCsr (s : State) : Csrs :=
  match s.chip.t.handler, s.chip.images.find? fun k => decide (some k.task = s.chip.t.task.map Task.id) with
  | some _, some k => frameCsrs k.bytes s.chip.t.csr
  | _, _ => s.chip.t.csr

/-- The item of a record's bytes sent by the acting thread, with its task's identity and its launch's key (R81, R253, R254). -/
def itemFrom (s : State) (bs : List Byte) (counter : Option Dword) (tok : Nat) : Item where
  id := s.chip.nextTask
  entry := frameDword bs 0
  args := (List.range 6).map fun i => frameDword bs (8 + 8 * i)
  tiles := (byteAt bs 56).toNat
  res := (byteAt bs 57).toNat
  slice := fieldAt bs 58 2
  mode := (byteAt bs 60).toNat
  counter := counter
  launch := (s.chip.t.task.map Task.launch).getD 0
  tile := (taskCsr s).tile
  org := (taskCsr s).org
  ext := (taskCsr s).ext
  key := ((s.chip.t.task.bind fun k => s.chip.launches.find? fun l => decide (l.id = k.launch)).map Launch.key).getD
    (taskCsr s).ldkey
  rgn := (s.chip.t.task.map Task.rgn).getD (s.chip.core s.chip.tid.coreId).rgn
  tokens := [tok]

/-- The record at an address keeps the limits that spawn and disp share (R253, R254). -/
structure RecordAt (s : State) (a : Dword) (bs : List Byte) : Prop where
  aligned : a.toNat % 64 = 0
  read : ∃ sp e, s.chip.reach s.mgmt (s.chip.t.who s.chip.tid) .read false a 64 = (.ok sp e, s.chip) ∧ s.chip.poison = [] ∧
    (∀ w, sp.loc ≤ w → w < sp.loc + 64 → historyGet s.chip.hist w = none) ∧ bs = Mem.bytes s.chip.mem sp.key 64
  even : (frameDword bs 0).getLsbD 0 = false
  slice : fieldAt bs 58 2 % 64 = 0 ∧ fieldAt bs 58 2 ≤ 61440
  tiles : (byteAt bs 56).toNat ≤ 4
  res : (byteAt bs 57).toNat ≤ 8
  b61 : byteAt bs 61 = 0

/-- The acting thread's task is saved by the hardware, ST 2, to go on at a program counter when what it waits for has come, and
the thread is FREE (R247, R259, R263, R299); u is the thread as it is saved. -/
def SavesTo (s : State) (u : Thread) (key : Nat) (o : Host.Outcome State Fault Refusal) (pc : Dword) (resume : Resume) : Prop :=
  let bs := s.chip.frameBytes u ⟨pc, 0, 0, 0, false, false, 2⟩
  ∃ c k, o = .next { s with chip := c } ∧ c.tid = s.chip.tid ∧ c.others = s.chip.others ∧ c.t = Thread.reset ∧
    c.saved = s.chip.saved ++ [k] ∧ s.chip.t.task = some k.task ∧ k.frame = s.chip.t.csr.tframe ∧ k.image = bs ∧
    k.cluster = s.chip.tid.cluster ∧ k.resume = resume ∧ Mem.bytes c.mem key 2048 = bs ∧
    ∀ a, a < key ∨ key + 2048 ≤ a → Mem.get c.mem a = Mem.get s.chip.mem a

/-- A page of this module's heap, by its global address, with its entry and the entry's place, outside the frame that the entry
names. -/
structure PageAt (s : State) (page : Dword) (die : BitVec 3) (off : Nat) (e : Dword) (p : Nat) : Prop where
  page : page = globalOf (heapLoc die off) ∧ off % 2 ^ 21 = 0 ∧ off < 2 ^ 48
  walk : walk s.chip.mem die (s.chip.die die).etroot off false = .leaf e p
  apart : entryTier e ≠ 2 → p + 8 ≤ entryAddr e ∨ entryAddr e + 2 ^ 21 ≤ p

/-- Bytes of memory are as they were outside these ranges. -/
def SameOutside (m m' : List Host.Cell) (l : List (Nat × Nat)) : Prop :=
  ∀ a, (∀ r ∈ l, a < r.1 ∨ r.1 + r.2 ≤ a) → Mem.get m' a = Mem.get m a

/-- A frame's bytes, full/empty bits and poison are those of another (R60). -/
def SameFrame (c : Chip) (src dst : Nat) : Prop :=
  ∀ o, o < 2 ^ 21 → Mem.get c.mem (dst + o) = Mem.get c.mem (src + o) ∧ c.poisoned (dst + o) = c.poisoned (src + o) ∧
    (o % 4 = 0 → c.isFull (dst + o) = c.isFull (src + o))

/-- The flash frames of a die that hold copies. -/
def flashUsed (s : State) (die : BitVec 3) : List Nat :=
  ((s.chip.flash ++ s.chip.relics).filter fun e => decide (e.1.extractLsb' 48 3 = die)).map fun e => e.2 / 2 ^ 21

/-- A tile's element as a value, divided by the scale of DRSCL (R242). -/
def drained (t : Thread) (x : Tile) (r k : Nat) : Num :=
  byScale true (t.csr.drscl.extractLsb' 0 8)
    (decoded (if x.t then .int 32 0x13 else .float fp32) (x.elems.getD (16 * r + k) 0).toNat)

/-- The word drawn for element k of a row that is written from loc on (R112). -/
def drainDraw (t : Thread) (f : Fmt) (loc k : Nat) : Word :=
  (hareWords t.csr.srseed (BitVec.ofNat 32 f.cell)
    (BitVec.ofNat 64 (2 * (0xFFF * 2 ^ 52 + loc + k * f.width / 8) + if upper f k then 1 else 0))).getD 0 0

/-- What traps GANG_STATE in a gang (R265). -/
inductive BarredInGang : Instr → Prop where
  | gang n : BarredInGang (.gang n)
  | join a : BarredInGang (.join a)
  | wfw : BarredInGang .wfw
  | yield : BarredInGang .yield
  | park a b c : BarredInGang (.park a b c)

end Sys2Proof.Claims

section
open Sys2Proof Sys2Proof.Machine

/-- R138 to R149, R168, R222, R226, R322: an engine instruction whose checks hold issues its job in a free entry; with
JCTL.TIE a governed job's bytes are added to the pending bytes of the barrier that JCTL names, and a reserved BSC traps
JOB_ARG; with no free entry it is held. cpy's broken checks trap. The model's choice: held means tried again (log 9). -/
def Obligations.EngineIssueResults : Prop :=
  (∀ s i la xd kind empty, Claims.Issues s i la xd kind empty → Claims.Alone s 4 →
    (s.chip.t.csr.jctl.getLsbD 8 = true → Claims.governed kind = true → (s.chip.t.csr.jctl.extractLsb' 0 3).toNat ≤ 5) →
    (Claims.EntryFree s →
      (s.chip.t.csr.jctl.getLsbD 8 = false ∨ Claims.jobBytes kind = 0 → Claims.Issued s (exec i s) la xd kind empty none id) ∧
      (s.chip.t.csr.jctl.getLsbD 8 = true → 0 < Claims.jobBytes kind →
        (barrierGet s.chip.barriers (Claims.tieOf s)).arr = 0 →
        Claims.Issued s (exec i s) la xd kind empty (some (Claims.tieOf s)) id)) ∧
    (¬ Claims.EntryFree s → exec i s = .next (Claims.withThread s { s.chip.t with run := .wait .retry }))) ∧
  (∀ s la form fold ord slot acc xd xb xs x sp e bs, Claims.Alone s 4 → Claims.TileIs s acc x → x.v = true →
    (s.chip.t.getX xs).toNat % 32 = 0 → (s.chip.t.getX xb).toNat % 64 = 0 →
    s.chip.reach s.mgmt (s.chip.t.who s.chip.tid) .read false (s.chip.t.getX xs) 32 = (.ok sp e, s.chip) → s.chip.poison = [] →
    (∀ w, sp.loc ≤ w → w < sp.loc + 32 → historyGet s.chip.hist w = none) → bs = Mem.bytes s.chip.mem sp.key 32 →
    let p := shapeOf form fold ord slot acc (s.chip.t.getX xb) bs
    badShape p bs = false → s.chip.slotsFit p x.t = true → Claims.EntryFree s →
    Claims.Issued s (exec (.cld la form fold ord slot acc xd xb xs) s) la xd (.cld p) false none
      fun l => l.map fun y => if y.task = x.task then
        { y with f := decide (y.acc = acc) || s.chip.jobs.any fun j => j.loads y.task y.acc } else y) ∧
  (∀ s la xd xa xb, let d := s.chip.t.getX xa
    let n := s.chip.t.getX xb
    (d.toNat % 4 ≠ 0 → Claims.Traps (.cpy la xd xa xb) s Cause.misalign d 4) ∧
    (d.toNat % 4 = 0 → (s.chip.t.getX (xa + 1)).toNat % 4 = 0 → n.toNat % 4 = 0 → 2 ^ 40 ≤ n.toNat →
      Claims.Traps (.cpy la xd xa xb) s Cause.jobArg 0 0) ∧
    (d.toNat % 4 = 0 → (s.chip.t.getX (xa + 1)).toNat % 4 = 0 → n.toNat % 4 = 0 → n.toNat < 2 ^ 40 →
      s.chip.t.csr.jctl.getLsbD 8 = true → 5 < (s.chip.t.csr.jctl.extractLsb' 0 3).toNat →
      Claims.Traps (.cpy la xd xa xb) s Cause.jobArg 0 0) ∧
    (d.toNat % 4 = 0 → n.toNat % 4 = 0 → n.toNat < 2 ^ 40 → 0 < n.toNat → s.chip.t.getX (xa + 1) = d →
      s.chip.t.csr.jctl.getLsbD 8 = false → Claims.RangeOk s d n.toNat true → Claims.RangeOk s d n.toNat false →
      Claims.Traps (.cpy la xd xa xb) s Cause.jobOverlap d 0))

/-- R112, R113, R219 to R221, R237 to R242: the tile, slot and codebook instructions. tdrain writes each element, divided by
DRSCL's scale, as the conversion into its format gives it, with all 256 elements' flags. TILE_STATE is trapped by all of them
where a tile named is not mapped, by all but tcov and tstat where a contracting load owns it, and by tmov and tdrain where
their source's V is 0. tcov and tstat of a tile that a contracting load owns may, in a window, look at it later than their
issue. A slot that a contracting load uses, and the codebook while one is live, is not loaded: the instruction is held. The
model's choices: the moment of tcov and tstat is drawn (log 19), and accesses in one step (log 44). -/
def Obligations.TileResults : Prop :=
  (∀ s la int32 acc x, Claims.Alone s 4 → Claims.TileIs s acc x → x.f = false →
    exec (.tzero la int32 acc) s = .next (Claims.withTile s (Claims.zeroed x int32 (List.replicate 256 0))
      (Claims.arrived s.chip.t la .none .none 0 0))) ∧
  (∀ s la int32 acc xa x sp e, Claims.Alone s 4 → Claims.TileIs s acc x → x.f = false → (s.chip.t.getX xa).toNat % 64 = 0 →
    Claims.BlocksAt s false (s.chip.t.getX xa) 16 sp e →
    exec (.tload la int32 acc xa) s = .next (Claims.withTile s
      (Claims.zeroed x int32 ((List.range 256).map fun i => Mem.word s.chip.mem ((sp (i / 16)).key + 4 * (i % 16))))
      (Claims.arrived s.chip.t la .none .none 0 0))) ∧
  (∀ s la d a x y, Claims.Alone s 4 → Claims.TileIs s d y → Claims.TileIs s a x → x.v = true → x.f = false → y.f = false →
    exec (.tmov la d a) s = .next (Claims.withTile s { x with acc := y.acc } (Claims.arrived s.chip.t la .none .none 0 0))) ∧
  (∀ s la xd acc x, Claims.Alone s 4 → Claims.TileIs s acc x →
    ∃ w : Dword, (la = 0 ∨ x.f = false →
        exec (.tcov la xd acc) s = .next (Claims.withThread s (Claims.arrived s.chip.t la (.x xd) (.x x.cov) 0 0)) ∧
        exec (.tstat la xd acc) s = .next (Claims.withThread s (Claims.arrived s.chip.t la (.x xd) (.x w) 0 0))) ∧
      (∀ p ∈ [(Instr.tcov la xd acc, x.cov), (.tstat la xd acc, w)], ∃ c, Claims.Books s.chip c ∧
        (exec p.1 s = .next { s with chip := { c with t := Claims.arrived s.chip.t la (.x xd) (.x p.2) 0 0 } } ∨
          ∃ u, Claims.Awaits s.chip.t la (.x xd) u ∧ exec p.1 s = .next { s with chip := { c with t := u } })) ∧
      w.getLsbD 0 = x.v ∧ w.getLsbD 1 = x.d ∧ w.getLsbD 2 = x.f ∧ w.getLsbD 3 = x.t ∧ w.getLsbD 4 = x.operr ∧
      w.getLsbD 5 = x.isat ∧ w.extractLsb' 6 2 = 0 ∧ w.extractLsb' 16 48 = 0 ∧
      w.extractLsb' 8 8 = BitVec.ofNat 8 (s.chip.jobs.countP fun j => j.loads x.task x.acc)) ∧
  (∀ s la sat rm (fmt : BitVec 4) acc xd xb x (sp : Nat → Spot) f, (Instr.tdrain la sat rm fmt acc xd xb).WellFormed →
    Claims.Alone s 4 → Claims.formats[fmt.toNat]? = some f → Claims.TileIs s acc x → x.v = true → x.f = false →
    let a := s.chip.t.getX xb
    let p := s.chip.t.getX (xb + 1)
    let b := 2 * f.width
    a.toNat % b = 0 → p.toNat % b = 0 →
    (∀ r, r < 16 → ∃ e, s.chip.reach s.mgmt (s.chip.t.who s.chip.tid) .write false (a + BitVec.ofNat 64 r * p) b =
      (.ok (sp r) e, s.chip) ∧ Claims.NoCopy s (sp r)) →
    (∀ r q, r < 16 → q < 16 → r ≠ q → (sp r).key + b ≤ (sp q).key ∨ (sp q).key + b ≤ (sp r).key) →
    ∃ (c : Chip) (fl : Word) (fk : Nat → Nat → Word),
      (∀ n, fl.getLsbD n = true ↔ ∃ r k, r < 16 ∧ k < 16 ∧ (fk r k).getLsbD n = true) ∧
      exec (.tdrain la sat rm fmt acc xd xb) s = .next { s with chip := { c with
        t := Claims.arrived s.chip.t la (.x xd) (.x (a + 16 * p)) fl (if sat && decide (6 ≤ fmt.toNat) then 6 else 0) } } ∧
      c.tid = s.chip.tid ∧ c.others = s.chip.others ∧ Claims.SameFull s.chip c ∧
      c.tiles = (Claims.withTile s { x with d := false } s.chip.t).chip.tiles ∧
      (∀ r k, r < 16 → k < 16 → Claims.Cvt f rm (Claims.drainDraw s.chip.t f (sp r).loc k) sat false (Claims.drained s.chip.t x r k)
        ((Mem.word c.mem ((sp r).key + k * f.width / 8)).toNat / (if Claims.upper f k then 16 else 1) % 2 ^ f.width) (fk r k)) ∧
      ∀ k, (∀ r, r < 16 → k < (sp r).key ∨ (sp r).key + b ≤ k) → Mem.get c.mem k = Mem.get s.chip.mem k) ∧
  (∀ s la (n : BitVec 3) xa sp e f, Claims.Alone s 4 → n.toNat < (s.chip.t.task.map Task.res).getD 0 →
    (s.chip.t.getX xa).toNat % 64 = 0 → Claims.BlocksAt s true (s.chip.t.getX xa) 16 sp e →
    (∀ i, i < 16 → described (sp i) (e i) = true ∧ Mem.get s.chip.mem (sp i).key = Mem.get s.chip.mem (sp 0).key ∧
      (f.isInt = true → Mem.get s.chip.mem ((sp i).key + 1) = 0x7F)) →
    formatOfCell (Mem.get s.chip.mem (sp 0).key) = some f → f ≠ .fp32 → f ≠ .int32 →
    (Claims.SlotUsed s n.toNat → exec (.resld la n xa) s = .next (Claims.withThread s { s.chip.t with run := .wait .retry })) ∧
    (¬ Claims.SlotUsed s n.toNat → exec (.resld la n xa) s = .next (Claims.withCluster s
      { s.chip.cluster s.chip.tid.cluster with
        slots := (s.chip.cluster s.chip.tid.cluster).slots.set n.toNat
          ⟨true, Mem.get s.chip.mem (sp 0).key, none,
            (List.range 16).map fun i => ⟨Mem.bytes s.chip.mem (sp i).key 64, 0, []⟩⟩ }
      (Claims.arrived s.chip.t la .none .none 0 0)))) ∧
  (∀ s la (pat : BitVec 4) (n : BitVec 3) xa sp e f p, (Instr.resldSparse la pat n xa).WellFormed → Claims.Alone s 4 →
    n.toNat < (s.chip.t.task.map Task.res).getD 0 → (s.chip.t.getX xa).toNat % 64 = 0 →
    Claims.BlocksAt s true (s.chip.t.getX xa) 18 sp e → sparsePattern pat = some p →
    (∀ i, i < 16 → described (sp i) (e i) = true ∧ Mem.get s.chip.mem (sp i).key = Mem.get s.chip.mem (sp 0).key ∧
      (f.isInt = true → Mem.get s.chip.mem ((sp i).key + 1) = 0x7F)) →
    formatOfCell (Mem.get s.chip.mem (sp 0).key) = some f → f ≠ .fp32 → f ≠ .int32 →
    let map (i : Nat) : Dword := Mem.dword s.chip.mem ((sp (16 + i / 8)).key + 8 * (i % 8))
    (∀ i, i < 16 → bitmapOk p f.count (map i) = true) →
    ¬ Claims.SlotUsed s n.toNat →
    exec (.resldSparse la pat n xa) s = .next (Claims.withCluster s
      { s.chip.cluster s.chip.tid.cluster with
        slots := (s.chip.cluster s.chip.tid.cluster).slots.set n.toNat
          ⟨true, Mem.get s.chip.mem (sp 0).key, some p,
            (List.range 16).map fun i => ⟨Mem.bytes s.chip.mem (sp i).key 64, map i, []⟩⟩ }
      (Claims.arrived s.chip.t la .none .none 0 0))) ∧
  (∀ s la xa sp e, Claims.Alone s 4 → (s.chip.t.getX xa).toNat % 64 = 0 → Claims.BlocksAt s true (s.chip.t.getX xa) 16 sp e →
    (Claims.LoadLive s → exec (.cbld la xa) s = .next (Claims.withThread s { s.chip.t with run := .wait .retry })) ∧
    (¬ Claims.LoadLive s → exec (.cbld la xa) s = .next (Claims.withCluster s
      { s.chip.cluster s.chip.tid.cluster with
        codebook := ((List.range 16).map fun i => Mem.bytes s.chip.mem (sp i).key 64).flatten, badRoots := [] }
      (Claims.arrived s.chip.t la .none .none 0 0)))) ∧
  (∀ s la int32 acc xa, Claims.Quiet s → (∀ x, Claims.TileIs s acc x → x.f = true) →
    ∀ i ∈ [Instr.tzero la int32 acc, .tload la int32 acc xa], Claims.Traps i s Cause.tileState 0 0) ∧
  (∀ s la d a, Claims.Quiet s → (∀ y, Claims.TileIs s d y → y.f = true) ∨ (∀ x, Claims.TileIs s a x → x.v = false ∨ x.f = true) →
    Claims.Traps (.tmov la d a) s Cause.tileState 0 0) ∧
  (∀ s la sat rm fmt acc xd xb, Claims.Quiet s → (∀ x, Claims.TileIs s acc x → x.v = false ∨ x.f = true) →
    Claims.Traps (.tdrain la sat rm fmt acc xd xb) s Cause.tileState 0 0) ∧
  (∀ s la acc xd, Claims.Quiet s → (∀ x, ¬ Claims.TileIs s acc x) →
    Claims.Traps (.tcov la xd acc) s Cause.tileState 0 0 ∧ Claims.Traps (.tstat la xd acc) s Cause.tileState 0 0)

/-- R253 to R263: spawn puts its item on the bottom of the core's deque, or on a walk to its hint, or, where the deque is full,
saves its task until it is not; join goes on where its counter is 0, and else saves its task until it is; disp appends to a list or
fills a dependence entry; depdec counts one down, and the last one sends the item; wfw waits, or takes an item that waits; yield
goes on where nothing waits, and saves its task where an item could be taken. In a gang join, wfw, yield, park and gang trap
GANG_STATE in every member instead (R265). -/
def Obligations.TaskResults : Prop :=
  (∀ s la xa bs, Claims.Alone s 4 → Claims.RecordAt s (s.chip.t.getX xa) bs → byteAt bs 60 = 0 → fieldAt bs 62 2 = 0 →
    (s.chip.core s.chip.tid.coreId).deque.length < 64 →
    ∃ c tok, Claims.Books s.chip c ∧ exec (.spawn la 0 xa 0) s = .next { s with chip := {
      c.setCore s.chip.tid.coreId { s.chip.core s.chip.tid.coreId with
        deque := (s.chip.core s.chip.tid.coreId).deque ++ [Claims.itemFrom s bs none tok] } with
      nextTask := s.chip.nextTask + 1, t := Claims.arrived s.chip.t la .none .none 0 0 } }) ∧
  (∀ s la xc xa bs sp, Claims.Alone s 4 → Claims.RecordAt s (s.chip.t.getX xa) bs → byteAt bs 60 = 0 → fieldAt bs 62 2 = 0 →
    (s.chip.core s.chip.tid.coreId).deque.length < 64 → xc ≠ 0 → (s.chip.t.getX xc).toNat % 4 = 0 →
    Claims.At s .atomic true (s.chip.t.getX xc) 4 sp → Claims.NoCopy s sp →
    ∃ c tok, Claims.Changed s.chip c sp.key (bytesOfWord (Mem.word s.chip.mem sp.key + 1)) ∧
      exec (.spawn la xc xa 0) s = .next { s with chip := {
        c.setCore s.chip.tid.coreId { s.chip.core s.chip.tid.coreId with
          deque := (s.chip.core s.chip.tid.coreId).deque ++ [Claims.itemFrom s bs (some (globalOf sp.loc)) tok] } with
        nextTask := s.chip.nextTask + 1, t := Claims.arrived s.chip.t la .none .none 0 0 } }) ∧
  (∀ s la xa xb bs, Claims.Alone s 4 → Claims.RecordAt s (s.chip.t.getX xa) bs → byteAt bs 60 = 0 → fieldAt bs 62 2 = 0 →
    let h := s.chip.t.getX xb
    let k : CId := ⟨(h.extractLsb' 0 8).toNat, (h.extractLsb' 8 8).toNat⟩
    h.getLsbD 63 = true → h.extractLsb' 24 39 = 0 → k.cx < 200 → k.cy < 100 →
    s.chip.inDomain ((s.chip.t.task.map Task.launch).getD 0) s.chip.tid.cluster k = true →
    ∃ c tok, Claims.Books s.chip c ∧ exec (.spawn la 0 xa xb) s = .next { s with chip := { c with
      walks := s.chip.walks ++ [⟨Claims.itemFrom s bs none tok, s.chip.tid.cluster, k, (h.extractLsb' 16 8).toNat⟩]
      nextTask := s.chip.nextTask + 1, t := Claims.arrived s.chip.t la .none .none 0 0 } }) ∧
  (∀ s la xa bs key, Claims.Alone s 4 → Claims.RecordAt s (s.chip.t.getX xa) bs → byteAt bs 60 = 0 → fieldAt bs 62 2 = 0 →
    64 + Config.dequeExtra ≤ (s.chip.core s.chip.tid.coreId).deque.length → s.chip.t.handler = none → s.chip.t.gangSize = 0 →
    s.chip.t.task.isSome = true → Claims.FrameAt s s.chip.t.csr.tframe key →
    Claims.SavesTo s s.chip.t key (exec (.spawn la 0 xa 0) s) s.chip.t.pc (.deque s.chip.tid.coreId)) ∧
  (∀ s xa sp e key, Claims.Alone s 4 → s.chip.t.gangSize = 0 → s.chip.t.handler = none → s.chip.t.task.isSome = true →
    (s.chip.t.getX xa).toNat % 4 = 0 → s.chip.reach s.mgmt (s.chip.t.who s.chip.tid) .read false (s.chip.t.getX xa) 4 = (.ok sp e, s.chip) →
    s.chip.anyPoison sp.key 4 = false → Mem.word s.chip.mem sp.key ≠ 0 → Claims.FrameAt s s.chip.t.csr.tframe key →
    Claims.SavesTo s s.chip.t key (exec (.join xa) s) s.chip.t.pc (.join sp.loc)) ∧
  (∀ s key, Claims.Alone s 4 → s.chip.t.gangSize = 0 → s.chip.t.handler = none → (∃ task, s.chip.t.task = some task ∧
      s.chip.anyTakeable s.chip.tid.coreId (some task.id) (fun _ => true) = true) → s.chip.tid.core < 8 →
    Claims.FrameAt s s.chip.t.csr.tframe key →
    Claims.SavesTo s (Claims.past s.chip.t 4) key (exec .yield s) (s.chip.t.pc + 4) (.yielded (s.chip.waitingIn s.chip.tid.cluster))) ∧
  (∀ s xa sp, Claims.Alone s 4 → s.chip.t.gangSize = 0 → (s.chip.t.getX xa).toNat % 4 = 0 → Claims.At s .read false (s.chip.t.getX xa) 4 sp →
    s.chip.anyPoison sp.key 4 = false → Mem.word s.chip.mem sp.key = 0 →
    ∃ c, Claims.Books s.chip c ∧ exec (.join xa) s = .next { s with chip := { c with t := Claims.past s.chip.t 4 } }) ∧
  (∀ s la xd xa bs, Claims.Alone s 4 → Claims.RecordAt s (s.chip.t.getX xa) bs → byteAt bs 60 = 0 → fieldAt bs 62 2 = 0 →
    frameDword bs 0 ≠ endLink →
    ∃ c tok, Claims.Books s.chip c ∧ exec (.disp la xd xa 0) s = .next { s with chip := {
      c.setCluster s.chip.tid.cluster { s.chip.cluster s.chip.tid.cluster with
        modeZero := (s.chip.cluster s.chip.tid.cluster).modeZero ++ [Claims.itemFrom s bs none tok] } with
      nextTask := s.chip.nextTask + 1, t := Claims.arrived s.chip.t la (.x xd) (.x 0) 0 0 } }) ∧
  (∀ s la xd xa bs, Claims.Alone s 4 → Claims.RecordAt s (s.chip.t.getX xa) bs → byteAt bs 60 = 0 → 0 < fieldAt bs 62 2 →
    frameDword bs 0 ≠ endLink → s.chip.tid.cx < 256 → s.chip.tid.cy < 256 →
    let k := s.chip.cluster s.chip.tid.cluster
    (∃ i : Byte, ∀ e ∈ k.deps, e.index = i → e.held = none) →
    ∃ c tok, ∃ i : Byte, (∀ e ∈ k.deps, e.index = i → e.held = none) ∧ Claims.Books s.chip c ∧
      exec (.disp la xd xa 0) s = .next { s with chip := {
        c.setCluster s.chip.tid.cluster { k with
          deps := putDep k.deps ⟨i, depGen k.deps i, some (Claims.itemFrom s bs none tok, fieldAt bs 62 2)⟩ } with
        nextTask := s.chip.nextTask + 1
        t := Claims.arrived s.chip.t la (.x xd)
          (.x (BitVec.ofNat 64 ((depGen k.deps i).toNat * 2 ^ 24 + s.chip.tid.cy * 2 ^ 16 + s.chip.tid.cx * 2 ^ 8 + i.toNat)))
          0 0 } }) ∧
  (∀ s la xd xa item n gen, Claims.Alone s 4 →
    let h := s.chip.t.getX xa
    let k : CId := ⟨(h.extractLsb' 8 8).toNat, (h.extractLsb' 16 8).toNat⟩
    let cl := s.chip.cluster k
    h.extractLsb' 40 24 = 0 → k.cx < 200 → k.cy < 100 → gen = h.extractLsb' 24 16 →
    cl.deps.find? (fun e => decide (e.index = h.extractLsb' 0 8) && decide (e.gen = gen)) =
      some ⟨h.extractLsb' 0 8, gen, some (item, n)⟩ →
    (1 < n → ∃ c tok, Claims.Books s.chip c ∧ exec (.depdec la xd xa) s = .next { s with chip := {
      c.setCluster k { cl with
        deps := putDep cl.deps ⟨h.extractLsb' 0 8, gen, some ({ item with tokens := item.tokens ++ [tok] }, n - 1)⟩ } with
      t := Claims.arrived s.chip.t la (.x xd) (.x (BitVec.ofNat 64 (n - 1))) 0 0 } }) ∧
    (n = 1 → item.mode = 0 → ∃ c, exec (.depdec la xd xa) s = .next { s with chip := c } ∧
      c.t = Claims.arrived s.chip.t la (.x xd) (.x 0) 0 0 ∧ c.mem = s.chip.mem ∧
      (∃ tok, (c.cluster k).modeZero = cl.modeZero ++ [{ item with tokens := item.tokens ++ [tok] }]) ∧
      (c.cluster k).deps = putDep cl.deps ⟨h.extractLsb' 0 8, gen + 1, none⟩)) ∧
  (∀ s la xd xa, (∀ e ∈ (s.chip.cluster ⟨((s.chip.t.getX xa).extractLsb' 8 8).toNat,
      ((s.chip.t.getX xa).extractLsb' 16 8).toNat⟩).deps, e.index = (s.chip.t.getX xa).extractLsb' 0 8 → e.held = none) →
    Claims.Traps (.depdec la xd xa) s Cause.depHandle 0 0) ∧
  (∀ s, Claims.Alone s 4 → s.chip.t.gangSize = 0 → (s.chip.cluster s.chip.tid.cluster).modeOne = [] →
    ∃ c n, exec .wfw s = .next { s with chip := c } ∧ c.t = { s.chip.t with run := .wait (.wfw n) } ∧ c.mem = s.chip.mem) ∧
  (∀ s i task, Claims.Alone s 4 → s.chip.t.gangSize = 0 → s.chip.t.task = some task → i.launch = task.launch → i.entry ≠ endLink → i.args.length = 6 →
    (s.chip.cluster s.chip.tid.cluster).modeOne = [i] → (∀ e ∈ s.chip.others, ∀ n, e.2.run ≠ .wait (.wfw n)) →
    ∃ c, exec .wfw s = .next { s with chip := c } ∧
      c.t = Claims.goTo ((List.range 6).foldl (fun t k => Claims.writeX t (BitVec.ofNat 5 (10 + k)) (i.args.getD k 0)) s.chip.t)
        i.entry ∧
      c.mem = s.chip.mem ∧ (c.cluster s.chip.tid.cluster).modeOne = []) ∧
  (∀ s, Claims.Alone s 4 → s.chip.t.gangSize = 0 → s.chip.saved = [] → (s.chip.cluster s.chip.tid.cluster).modeZero = [] →
    (s.chip.cluster s.chip.tid.cluster).hints = [] → (∀ n, n < 8 → (s.chip.core ⟨s.chip.tid.cx, s.chip.tid.cy, n⟩).deque = []) →
    exec .yield s = .next (Claims.withThread s (Claims.past s.chip.t 4))) ∧
  (∀ s i w c mate u k1 k2, Claims.BarredInGang i → s.inbox = [] → s.mayIssue = true → s.chip.reporting = none →
    s.chip.t.pc ≠ endLink → s.chip.fetch s.mgmt s.chip.t.pc = (.instr i w, c) → c.t = s.chip.t → s.chip.t.returned = false →
    s.chip.t.rep = none → s.chip.t.gangSize = 2 → s.chip.t.gangMember = 0 → s.chip.t.gangLeader = s.chip.tid →
    mate ≠ s.chip.tid → s.chip.others = [(mate, u)] → u.gangSize = 2 → u.gangLeader = s.chip.tid → mate.cluster = s.chip.tid.cluster →
    mate.core < 8 → mate.thread = s.chip.tid.thread → u.run = .follow → s.chip.t.handler = none → u.handler = none →
    s.chip.t.pend = [] → u.pend = [] →
    Claims.FrameAt s s.chip.t.csr.tframe k1 → Claims.FrameAt s u.csr.tframe k2 → Claims.TableApart s u.csr.tframe k1 →
    (k1 + 2048 ≤ k2 ∨ k2 + 2048 ≤ k1) →
    ∃ o : State, step s = State.after o ∧ o.chip.tid = s.chip.tid ∧
      (∀ m ∈ [s.chip.tid, mate], (o.chip.thread m).handler.isSome = true ∧ (o.chip.thread m).gangSize = 0 ∧
        (o.chip.thread m).run = .ready ∧ (o.chip.thread m).sup = true ∧ (o.chip.thread m).pc = (s.chip.die m.die).tvec) ∧
      ∀ k ∈ [k1, k2], Mem.get o.chip.mem (k + 2) = 67)

/-- R264 to R266, R329 to R331, R336: gang waits for its members or forms the gang; ungang outside a gang changes nothing, and
in one it disbands it, each member going on alone with the leader's loop stack and REPC, which a follower takes over whenever all
have completed an instruction; park with a reply that came before takes it at once, and else gives its thread up with its task in
the Den; wake answers its status. pflush of a page makes a clean capacity-tier copy where the page is in HBM and has none,
TCOPY set, or a flash copy where it has none; its status is 1 where the module has no flash tier for one. The model's choices: a
gang's members act in one step (log 40); which frames are free is drawn (log 23), and where none is, no copy is made (log 24,
log 66). -/
def Obligations.GangAndDenResults : Prop :=
  (∀ s (size : BitVec 5), (Instr.gang size).WellFormed → Claims.Alone s 4 → s.chip.t.repc.getLsbD 7 = false →
    s.chip.t.gangSize = 0 → (∀ e ∈ s.chip.others, ∀ n, e.2.run ≠ .wait (.gang n)) →
    exec (.gang size) s = .next (Claims.withThread s { s.chip.t with run := .wait (.gang (2 ^ size.toNat)) })) ∧
  (∀ s u, Claims.Alone s 4 → s.chip.t.repc.getLsbD 7 = false → s.chip.t.gangSize = 0 →
    let me := s.chip.tid
    let mate : TId := ⟨me.cx, me.cy, if me.core % 2 = 0 then me.core + 1 else me.core - 1, me.thread⟩
    let lead : TId := ⟨me.cx, me.cy, me.core / 2 * 2, me.thread⟩
    tableGet s.chip.others mate = some u → u.run = .wait (.gang 2) → u.pend = [] → u.snaps = [] → u.loops = [] → u.rep = none →
    u.pc + 4 ≠ endLink → (∀ e ∈ s.chip.others, ∀ n, e.2.run = .wait (.gang n) → e.1 = mate) →
    ∃ c, exec (.gang 1) s = .next { s with chip := c } ∧ c.tid = me ∧ c.mem = s.chip.mem ∧
      ∀ m ∈ [me, mate], c.thread m = { s.chip.thread m with
        pc := (s.chip.thread m).pc + 4, gangSize := 2, gangMember := m.core % 2, gangLeader := lead
        run := if m = lead then .ready else .follow }) ∧
  (∀ s, Claims.Alone s 4 → s.chip.t.gangSize = 0 → exec .ungang s = .next (Claims.withThread s (Claims.past s.chip.t 4))) ∧
  (∀ s, Claims.Alone s 4 → s.chip.t.gangSize ≠ 0 → (s.chip.tid :: s.chip.others.map Prod.fst).Nodup →
    ∃ c, exec .ungang s = .next { s with chip := c } ∧ c.tid = s.chip.tid ∧ c.mem = s.chip.mem ∧
      c.t = { Claims.past s.chip.t 4 with gangSize := 0, gangMember := 0 } ∧
      ∀ e ∈ s.chip.others, c.thread e.1 =
        if e.2.gangSize ≠ 0 ∧ e.2.gangLeader = s.chip.t.gangLeader then
          { e.2 with gangSize := 0, gangMember := 0, run := if e.2.run = .follow then .ready else e.2.run } else e.2) ∧
  (∀ (c : Chip) lead, (c.thread lead).run = .ready → (∀ f ∈ c.followers lead, f ≠ lead) → (c.followers lead).Nodup →
    (∀ f ∈ c.followers lead, (c.thread f).run = .ready ∨ (c.thread f).run = .follow) →
    ∀ f ∈ c.followers lead, (c.regroup lead).thread f = { c.thread f with
      run := .follow, pc := (c.thread lead).pc, loops := (c.thread lead).loops, rep := (c.thread lead).rep
      repc := (c.thread lead).repc }) ∧
  (∀ s w c mate u, s.inbox = [] → s.mayIssue = true → s.chip.reporting = none → s.chip.t.pc ≠ endLink →
    s.chip.t.pc + 4 ≠ endLink → s.chip.fetch s.mgmt s.chip.t.pc = (.instr .ungang w, c) → c.t = s.chip.t →
    s.chip.t.returned = false → s.chip.t.rep = none → s.chip.t.snaps = [] → s.chip.t.pend = [] →
    (∀ e ∈ s.chip.t.loops, e.stop ≠ s.chip.t.pc + 4) →
    s.chip.t.gangSize = 2 → s.chip.t.gangMember = 0 → s.chip.t.gangLeader = s.chip.tid →
    mate ≠ s.chip.tid → s.chip.others = [(mate, u)] → u.gangSize = 2 → u.gangLeader = s.chip.tid → mate.cluster = s.chip.tid.cluster →
    mate.core < 8 → mate.thread = s.chip.tid.thread → u.run = .follow → u.pend = [] → u.snaps = [] →
    u.pc = s.chip.t.pc → u.loops = s.chip.t.loops → u.rep = none → u.repc = s.chip.t.repc →
    ∃ o : State, step s = State.after o ∧ o.chip.tid = s.chip.tid ∧ ∀ m ∈ [s.chip.tid, mate],
      (o.chip.thread m).gangSize = 0 ∧ (o.chip.thread m).run = .ready ∧ (o.chip.thread m).pc = s.chip.t.pc + 4 ∧
      (o.chip.thread m).loops = s.chip.t.loops ∧ (o.chip.thread m).repc = s.chip.t.repc ∧
      (o.chip.thread m).x = (s.chip.thread m).x) ∧
  (∀ s xd xk xh task reply rel, Claims.Alone s 4 → s.chip.t.gangSize = 0 → s.chip.t.handler = none → s.chip.t.task = some task →
    (∀ j ∈ s.chip.jobs, j.task ≠ task.id) → (∀ x ∈ s.chip.tiles, x.task = task.id → x.f = false ∧ (x.v = true → x.d = false)) →
    (s.chip.t.getX xk).toNat < 2 ^ 20 → s.chip.t.getX xh = 0 →
    tableGet s.chip.den (BitVec.ofNat 20 (s.chip.t.getX xk).toNat) = some (.pending reply rel) →
    ∃ c, Claims.Books s.chip c ∧ exec (.park xd xk xh) s = .next { s with chip := { c with
      den := tableErase s.chip.den (BitVec.ofNat 20 (s.chip.t.getX xk).toNat)
      t := Claims.past (Claims.writeX s.chip.t xd reply) 4 } }) ∧
  (∀ s key xd xk xh task, Claims.Alone s 4 → s.chip.t.handler = none → s.chip.t.gangSize = 0 → s.chip.t.task = some task →
    (∀ j ∈ s.chip.jobs, j.task ≠ task.id) → (∀ x ∈ s.chip.tiles, x.task = task.id → x.f = false ∧ (x.v = true → x.d = false)) →
    (s.chip.t.getX xk).toNat < 2 ^ 20 → s.chip.t.getX xh = 0 → Claims.FrameAt s s.chip.t.csr.tframe key →
    Claims.TableApart s s.chip.t.csr.tframe key →
    tableGet s.chip.den (BitVec.ofNat 20 (s.chip.t.getX xk).toNat) = none →
    ∃ c k, exec (.park xd xk xh) s = .next { s with chip := c } ∧ c.t = Thread.reset ∧
      tableGet c.den (BitVec.ofNat 20 (s.chip.t.getX xk).toNat) = some (.parked k) ∧ k.rd = xd ∧ k.pages = [] ∧
      k.saved.task = task ∧ k.saved.cluster = s.chip.tid.cluster ∧ k.frame.length = 2048 ∧
      frameDword k.frame 8 = s.chip.t.pc + 4 ∧ (∀ r, r ≠ 0 → frameDword k.frame (0x40 + 8 * r.toNat) = s.chip.t.getX r)) ∧
  (∀ s xd xk xh, s.chip.t.gangSize = 0 → 2 ^ 20 ≤ (s.chip.t.getX xk).toNat → Claims.Traps (.park xd xk xh) s Cause.parkState 0 0) ∧
  (∀ s la xd xk xr, Claims.Alone s 4 → (s.chip.t.getX xk).toNat < 2 ^ 20 →
    let key : BitVec 20 := BitVec.ofNat 20 (s.chip.t.getX xk).toNat
    ∃ c, exec (.wake la xd xk xr) s = .next { s with chip := c } ∧ c.mem = s.chip.mem ∧
      c.t = Claims.arrived s.chip.t la (.x xd)
        (.x (match tableGet s.chip.den key with | none => 1 | some (.parked _) => 0 | some _ => 2)) 0 0 ∧
      (tableGet s.chip.den key = none → ∃ n, tableGet c.den key = some (.pending (s.chip.t.getX xr) n)) ∧
      (∀ k, tableGet s.chip.den key = some (.parked k) → ∃ n s2 s3,
        tableGet c.den key = some (.woken k (s.chip.t.getX xr) n none s2 s3) ∧ s3 ++ s2 = k.pages ∧ s2.length = min 4 k.pages.length)) ∧
  (∀ s la xd xa xb sp e e' off die p, Claims.Alone s 4 →
    let a := s.chip.t.getX xa
    let b := s.chip.t.getX xb
    let page := globalOf (heapLoc die off)
    a.toNat % 2 ^ 21 = 0 → homeHeap s.mgmt a = some (die, off) → Claims.PageAt s page die off e p →
    s.chip.reach s.mgmt (s.chip.t.who s.chip.tid) .read false a 1 = (.ok sp e', s.chip) → entryAddr e % 2 ^ 21 = 0 →
    entryAddr e + 2 ^ 21 ≤ 2 ^ 40 → (entryTier e = 0 → entryAddr e + 2 ^ 21 ≤ hbmEnd) →
    let frame := heapKey die (entryAddr e)
    let Ends (c : Chip) (st : Dword) : Prop := exec (.pflush la xd xa xb) s = .next { s with chip := c } ∧
      c.t = Claims.arrived s.chip.t la (.x xd) (.x st) 0 0 ∧ c.tid = s.chip.tid ∧ c.others = s.chip.others
    (b = 1 <<< 62 ||| 1 →
      (entryTier e ≠ 0 ∨ (tableGet s.chip.tcopies page).isSome = true → ∃ c, Ends c 0 ∧ c.mem = s.chip.mem) ∧
      (entryTier e = 0 → tableGet s.chip.tcopies page = none → (s.chip.framesBusy die).length < (tierEnd - hbmEnd) / 2 ^ 21 →
        ∃ c tier, Ends c 0 ∧ tableGet c.tcopies page = some tier ∧ tier % 2 ^ 21 = 0 ∧ hbmEnd ≤ tier ∧ tier < tierEnd ∧
          tier / 2 ^ 21 ∉ s.chip.framesBusy die ∧ Claims.SameFrame c frame (heapKey die tier) ∧
          Mem.get c.mem (frame + 18) = Mem.get s.chip.mem (frame + 18) ||| 4 ∧
          Claims.SameOutside s.chip.mem c.mem [(frame + 18, 1), (heapKey die tier, 2 ^ 21)])) ∧
    (b = 2 <<< 62 ||| 1 →
      ((tableGet s.chip.flash page).isSome = true → ∃ c, Ends c 0 ∧ c.mem = s.chip.mem) ∧
      (tableGet s.chip.flash page = none → Config.flashTier = false → ∃ c, Ends c 1 ∧ c.mem = s.chip.mem) ∧
      (tableGet s.chip.flash page = none → Config.flashTier = true → (Claims.flashUsed s die).length < 2 ^ 19 →
        ∃ c fa, Ends c 0 ∧ tableGet c.flash page = some fa ∧ fa % 2 ^ 21 = 0 ∧ fa / 2 ^ 21 ∉ Claims.flashUsed s die ∧
          Claims.SameFrame c frame (flashKey die fa) ∧
          Claims.SameOutside s.chip.mem c.mem [(flashKey die fa, 2 ^ 21)])))

end

namespace Sys2Proof.Claims
open Sys2Proof.Machine

/-! ## The outside world's registers (R65, R311, R340, R341, R342, R350) -/

/-- A die's own registers changed. -/
def onDie (s : State) (die : BitVec 3) (f : Die → Die) : State := { s with chip := s.chip.setDie die (f (s.chip.die die)) }

/-- TIMEBASE has reached a timer that runs (R341). -/
def timeUp (s : State) (v : Dword) : Prop := v ≠ 0 ∧ v.toNat ≤ s.chip.timebase.toNat

/-- A die whose timer has ended (R341). -/
def timedOut (d : Die) : Die := { d with fwtmr := 0, evpend := d.evpend ||| 4 }

/-- A write of v to a launch queue's register at an offset in its block: the fixed ones keep their values (R340). -/
inductive QueueWrite (q : LaunchQueue) (v : Dword) : Nat → LaunchQueue → Prop where
  | lqbase : QueueWrite q v 0x00 { q with lqbase := v }
  | lqsize : QueueWrite q v 0x08 { q with lqsize := v }
  | lqprod : QueueWrite q v 0x10 { q with lqprod := BitVec.ofNat 32 v.toNat }
  | lqcons : QueueWrite q v 0x18 q
  | cqbase : QueueWrite q v 0x20 { q with cqbase := v }
  | cqsize : QueueWrite q v 0x28 { q with cqsize := v }
  | cqhead : QueueWrite q v 0x30 q
  | cqvec : QueueWrite q v 0x38 { q with cqvec := BitVec.ofNat 32 v.toNat }

/-- A write of v to a register at an offset of a die's block, where busy says that a task of the die runs (R340): ETROOT,
LOGBASE and the pools keep their values then. -/
inductive DieWrite (busy : Bool) (d : Die) (v : Dword) : Nat → Die → Prop where
  | etroot : DieWrite busy d v 0x000 { d with etroot := if busy then d.etroot else v &&& 0xFFFFFFE001 }
  | queue (n : Nat) (i : Nat) (q' : LaunchQueue) : n < 4 → n < d.queues.length → QueueWrite (d.queues.getD n LaunchQueue.reset) v i q' →
      DieWrite busy d v (0x100 + 0x40 * n + i) { d with queues := d.queues.set n q' }
  | logbase : DieWrite busy d v 0x200 { d with logbase := if busy then d.logbase else v }
  | logsize : DieWrite busy d v 0x208 { d with logsize := v }
  | loghead : DieWrite busy d v 0x210 d
  | logtail : d.loglost = 0 → DieWrite busy d v 0x218 { d with logtail := BitVec.ofNat 32 v.toNat }
  | logvec : DieWrite busy d v 0x220 { d with logvec := BitVec.ofNat 32 v.toNat }
  | fpbase : DieWrite busy d v 0x300 { d with fpbase := if busy then d.fpbase else v }
  | fpcount : DieWrite busy d v 0x308 { d with fpcount := if busy then d.fpcount else v }
  | spbase : DieWrite busy d v 0x400 { d with spbase := if busy then d.spbase else v }
  | spcount : DieWrite busy d v 0x408 { d with spcount := if busy then d.spcount else v }
  | hdoorbell : DieWrite busy d v 0x500 { d with evpend := d.evpend ||| 2 }

/-- A thread of a die holds a task. -/
def busy (s : State) (die : BitVec 3) : Bool := s.chip.threads.any fun e => decide (e.1.die = die) && e.2.task.isSome

/-- A write of v to a register of the module's own block (R340). -/
inductive ModuleWrite (g : Mgmt) (v : Dword) : Nat → Mgmt → Prop where
  | modid : ModuleWrite g v 0x00
      { g with modid := if g.faben = true ∨ v.toNat % 2 ^ 12 = 0xFFF then g.modid else BitVec.ofNat 12 v.toNat }
  | faben : ModuleWrite g v 0x08 { g with faben := if g.modid = 0 then v.getLsbD 0 && g.faben else v.getLsbD 0 }
  | bootst : ModuleWrite g v 0x10 g
  | denwin : ModuleWrite g v 0x20 { g with denwin := v &&& 0xFFFFFFFFFC000001 }
  | timebase : ModuleWrite g v 0x28 g
  | pwrlim : ModuleWrite g v 0x30 { g with pwrlim := BitVec.ofNat 16 v.toNat }
  | hap (n : Nat) : n < 16 → ModuleWrite g v (0x100 + 8 * n) { g with hap := g.hap.set n (v &&& 0xFFFFFFFFF0000000) }
  | unassigned (off : Nat) : 0x5000 ≤ off → off < 0xF000 → ModuleWrite g v off g

/-- What a register of the module's or of a die's block reads (R340). -/
inductive Reads (s : State) : Nat → Dword → Prop where
  | modid : Reads s 0x00 (s.mgmt.modid.setWidth 64)
  | faben : Reads s 0x08 (if s.mgmt.faben then 1 else 0)
  | bootgo : Reads s 0x18 0
  | bootst : Reads s 0x10 (BitVec.ofNat 64 (s.mgmt.bootReason.toNat * 256 + s.mgmt.bootst.toNat))
  | denwin : Reads s 0x20 s.mgmt.denwin
  | timebase : Reads s 0x28 s.chip.timebase
  | pwrlim : Reads s 0x30 (s.mgmt.pwrlim.setWidth 64)
  | hap (n : Nat) : n < 16 → Reads s (0x100 + 8 * n) (s.mgmt.hap.getD n 0)
  | unassigned (off : Nat) : 0x5000 ≤ off → off < 0xF000 → Reads s off 0
  | etroot (d : BitVec 3) : Reads s (0x10000 * (d.toNat + 1)) (s.chip.die d).etroot
  | loghead (d : BitVec 3) : Reads s (0x10000 * (d.toNat + 1) + 0x210) ((s.chip.die d).loghead.setWidth 64)
  | fpcount (d : BitVec 3) : Reads s (0x10000 * (d.toNat + 1) + 0x308) (s.chip.die d).fpcount
  | hdoorbell (d : BitVec 3) : Reads s (0x10000 * (d.toNat + 1) + 0x500) 0
  | fwtmr (d : BitVec 3) : Reads s (0x10000 * (d.toNat + 1) + 0x600) (s.chip.die d).fwtmr
  | owl (x y : Nat) : x < 200 → y < 100 →
      Reads s (0x800000 + 0x100 * (200 * y + x)) (s.chip.owl (.cluster ⟨x, y⟩)).ctl

/-- A monitor's capture cleared: MIN all ones, the others 0 (R350). -/
def cleared (o : Owl) : Owl := { o with min := 0xFFFFFFFF, max := 0, cnt := 0, bins := List.replicate 32 0 }

/-- A count one higher that saturates. -/
def more {n : Nat} (v : BitVec n) : BitVec n := BitVec.ofNat n (min (2 ^ n - 1) (v.toNat + 1))

/-- A monitor after a sample: bin 0 for 0, else bin n for 2^(n−1) to 2^n − 1, the last bin for more (R350). -/
def sampled (o : Owl) (v : Word) (n : Nat) : Owl :=
  { o with
    cnt := more o.cnt, min := BitVec.ofNat 32 (min v.toNat o.min.toNat), max := BitVec.ofNat 32 (max v.toNat o.max.toNat)
    bins := o.bins.set n (more (o.bins.getD n 0)) }
def binFor (v : Word) (n : Nat) : Prop :=
  (v = 0 ∧ n = 0) ∨ (1 ≤ n ∧ n < 31 ∧ 2 ^ (n - 1) ≤ v.toNat ∧ v.toNat < 2 ^ n) ∨ (n = 31 ∧ 2 ^ 30 ≤ v.toNat)

/-- A write of the host through a port has arrived: the port's monitor, where it captures latencies, has taken a sample (R350);
and, unless it is relaxed, it is a release at `.sy` of the port's agent, which carries what that agent has written and seen
(R286, R339). -/
def HostReleases (s : State) (w : HostWrite) (c : Chip) : Prop :=
  let o := s.chip.owl (hostPort w.port)
  Books { s.chip with owls := c.owls } c ∧ c.dies = s.chip.dies ∧ (∀ u, u ≠ hostPort w.port → c.owl u = s.chip.owl u) ∧
  (o.ctl.getLsbD 0 = false ∨ o.ctl.toNat / 2 ^ 8 % 2 ^ 8 ≠ 0 → c.owls = s.chip.owls) ∧
  (o.ctl.getLsbD 0 = true → o.ctl.toNat / 2 ^ 8 % 2 ^ 8 = 0 → ∃ v n, binFor v n ∧ c.owl (hostPort w.port) = sampled o v n) ∧
  (w.relaxed = true → { c with owls := s.chip.owls, frees := s.chip.frees } = s.chip) ∧
  (w.relaxed = false → ∃ rel ∈ c.rels, rel.id = s.chip.clock ∧ rel.agent = .host w.port ∧ rel.scope = 5 ∧
    rel.view = (s.chip.agent (.host w.port)).view)

/-- Of the module's monitors one has changed, and nothing else of it but free values taken. -/
def OneOwl (c c' : Chip) (u : OwlUnit) (o : Owl) : Prop :=
  c'.owl u = o ∧ (∀ w, w ≠ u → c'.owl w = c.owl w) ∧ { c' with owls := c.owls, frees := c.frees } = c

end Sys2Proof.Claims

section
open Sys2Proof Sys2Proof.Machine

/-- R77, R311, R339 to R342, R349, R350: the host's register writes give each register what its row says, and locked,
read-only and unassigned ones keep their values; each write not relaxed releases for its port; BAR0 reads what a register
holds; the firmware timer raises its event when TIMEBASE reaches it; monitors clear, capture a sample each PER ticks and take
OWLCTL; the management port reads the register space and writes OWLCTL and PWRLIM, and while the main side is down it serves
the log records. The model's choices: a sample that timing decides and a sensor's value are open (log 49). -/
def Obligations.RegisterSpaceResults : Prop :=
  (∀ s by_ v, s.runs = true → ∃ c, Claims.HostReleases s by_ c ∧
    (∀ g, Claims.ModuleWrite s.mgmt v 0x00 g → exec (.modidWrite ⟨by_, v⟩) s = .next { s with mgmt := g, chip := c }) ∧
    (∀ g, Claims.ModuleWrite s.mgmt v 0x08 g → exec (.fabenWrite ⟨by_, v⟩) s = .next { s with mgmt := g, chip := c }) ∧
    (v = 1 → s.mgmt.bootst = 1 ∨ s.mgmt.bootst = 4 →
      exec (.bootgoWrite ⟨by_, v⟩) s = .next { s with mgmt := { s.mgmt with bootst := 2, bootReason := 0 }, chip := c }) ∧
    (v ≠ 1 ∨ (s.mgmt.bootst ≠ 1 ∧ s.mgmt.bootst ≠ 4) → exec (.bootgoWrite ⟨by_, v⟩) s = .next { s with chip := c }) ∧
    (∀ off g, Claims.ModuleWrite s.mgmt v off g →
      exec (.registerWrite (BitVec.ofNat 26 off) ⟨by_, v⟩) s = .next { s with mgmt := g, chip := c }) ∧
    (∀ n, n < 4096 → ∃ f, exec (.registerWrite (BitVec.ofNat 26 (0x1000 + 4 * n)) ⟨by_, v⟩) s =
        .next { s with mgmt := { s.mgmt with froute := f }, chip := c } ∧
      ∀ k, (tableGet f k).getD 0 =
        if k = n then BitVec.ofNat 32 v.toNat &&& 0x8000FFFF else (tableGet s.mgmt.froute k).getD 0) ∧
    (∀ n, n < 128 → ∃ f, exec (.registerWrite (BitVec.ofNat 26 (0xF000 + 8 * n)) ⟨by_, v⟩) s =
        .next { s with mgmt := { s.mgmt with msix := f }, chip := c } ∧
      ∀ k, (tableGet f k).getD 0 = if k = n then v else (tableGet s.mgmt.msix k).getD 0) ∧
    ∀ die : BitVec 3,
      exec (.doorbellWrite ⟨by_, die⟩) s = .next (Claims.onDie { s with chip := c } die fun d => { d with evpend := d.evpend ||| 2 }) ∧
      (Claims.timeUp s v → exec (.fwtmrWrite die ⟨by_, v⟩) s = .next (Claims.onDie { s with chip := c } die Claims.timedOut)) ∧
      (¬ Claims.timeUp s v →
        exec (.fwtmrWrite die ⟨by_, v⟩) s = .next (Claims.onDie { s with chip := c } die fun d => { d with fwtmr := v })) ∧
      exec (.registerWrite (BitVec.ofNat 26 (0x10000 * (die.toNat + 1) + 0x600)) ⟨by_, v⟩) s = exec (.fwtmrWrite die ⟨by_, v⟩) s ∧
      ∀ i d, Claims.DieWrite (Claims.busy s die) (s.chip.die die) v i d →
        exec (.registerWrite (BitVec.ofNat 26 (0x10000 * (die.toNat + 1) + i)) ⟨by_, v⟩) s = .next { s with chip := c.setDie die d }) ∧
  (∀ s die,
    (Claims.timeUp s (s.chip.die die).fwtmr → exec (.fwtmrExpire die) s = .next (Claims.onDie s die Claims.timedOut)) ∧
    (¬ Claims.timeUp s (s.chip.die die).fwtmr → exec (.fwtmrExpire die) s = .next s)) ∧
  (∀ s off v, s.mgmt.powered = true → Claims.Reads s off v →
    exec (.mgmtReadRegister (.register (BitVec.ofNat 26 off))) s = .next { s with chip := s.chip.send (.mgmtData v) }) ∧
  (∀ s x y, x < 200 → y < 100 →
    exec (.mgmtReadRegister (.register (BitVec.ofNat 26 (0x800000 + 0x100 * (200 * y + x))))) s =
      .next { s with chip := s.chip.send (.mgmtData (s.chip.owl (.cluster ⟨x, y⟩)).ctl) }) ∧
  (∀ s die n bytes, s.runs = false → (s.chip.die die).records[n]? = some bytes →
    exec (.mgmtReadRegister (.record die n)) s = .next { s with chip := s.chip.send (.mgmtRecord die bytes) }) ∧
  (∀ s n, s.runs = false → ∃ v, exec (.mgmtReadRegister (.health n)) s =
    .next { s with chip := Chip.send { s.chip with frees := s.chip.frees + 1 } (.mgmtData v) }) ∧
  (∀ s port off n v, s.runs = true → n = 1 ∨ n = 2 ∨ n = 4 ∨ n = 8 → Claims.Reads s off v →
    ∃ c owls, Claims.Books s.chip c ∧ exec (.hostApertureRead port ⟨.registers, BitVec.ofNat 32 off⟩ n) s =
      .next { s with chip := Chip.send { c with owls := owls } (.hostReadData port (BitVec.ofNat 64 (v.toNat % 2 ^ (8 * n)))) }) ∧
  (∀ s u, ∃ c, exec (.owlClear u) s = .next { s with chip := c } ∧ Claims.OneOwl s.chip c u (Claims.cleared (s.chip.owl u))) ∧
  (∀ s u v, s.mgmt.powered = true → ∃ c, exec (.mgmtWriteOwlctl u v) s = .next { s with chip := c } ∧
    let o : Owl := { s.chip.owl u with ctl := v &&& 0xFFFFFF000000FF01, since := s.chip.timebase }
    Claims.OneOwl s.chip c u (if v.getLsbD 1 then Claims.cleared o else o)) ∧
  (∀ s u, let o := s.chip.owl u
    let src := o.ctl.toNat / 2 ^ 8 % 2 ^ 8
    let per := o.ctl.toNat / 2 ^ 40
    o.ctl.getLsbD 0 = true → per ≠ 0 → per ≤ (s.chip.timebase - o.since).toNat → 1 ≤ src → src ≤ 3 →
    ∃ c v n, exec (.owlLevelSample u) s = .next { s with chip := c } ∧ Claims.binFor v n ∧
      Claims.OneOwl s.chip c u (Claims.sampled { o with since := o.since + BitVec.ofNat 64 per } v n) ∧
      ∀ k, u = .cluster k → src = 2 →
        v = BitVec.ofNat 32 (s.chip.threads.filter fun e => decide (e.1.cluster = k) && decide (e.2.run = .ready)).length) ∧
  (∀ s u, let o := s.chip.owl u
    o.ctl.getLsbD 0 = false ∨ (s.chip.timebase - o.since).toNat < o.ctl.toNat / 2 ^ 40 → exec (.owlLevelSample u) s = .next s) ∧
  (∀ s v, exec (.mgmtWritePwrlim v) s = .next { s with mgmt := { s.mgmt with pwrlim := BitVec.ofNat 16 v.toNat } })

/-- R69, R276, R336, R338, R347, R348, R349: the staging buffer takes the host's bytes, as write events of its port, and reads
them while no firmware runs, and reads 0 then; verification rejects the image
with a reason, or measures it and starts it on each die's reserved cluster in supervisor mode; a reset and the return
of power put every main-side state at its reset value but the flash tier; a lost link stops the module; each SPDM
request is answered, and measurements give slot 1. The model's choices: where and how the firmware starts (log 28),
and the SPDM codes (log 12). -/
def Obligations.BootAndResetResults : Prop :=
  (∀ s by_ (off : BitVec 28) b, s.runs = true → ∃ c, Claims.HostReleases s by_ c ∧
    (s.mgmt.bootst = 3 → exec (.bootStagingBufferWrite off ⟨by_, b⟩) s = .next { s with chip := c }) ∧
    (s.mgmt.bootst ≠ 3 → tableGet s.chip.tcopies (pageOf (heapLoc 0 (stagingBase + off.toNat))) = none →
      ∃ c', exec (.bootStagingBufferWrite off ⟨by_, b⟩) s = .next { s with chip := c' } ∧
        Claims.Changed c c' (stagingBase + off.toNat) [b] ∧
        c'.newest (heapLoc 0 (stagingBase + off.toNat / 4 * 4)) =
          some ⟨c.clock, Mem.word c'.mem (stagingBase + off.toNat / 4 * 4), (c.agent (.host by_.port)).lastRel, none⟩)) ∧
  (∀ s port off n, s.runs = true → n = 1 ∨ n = 2 ∨ n = 4 ∨ n = 8 → ∃ c owls, Claims.Books s.chip c ∧
    exec (.hostApertureRead port ⟨.staging, off⟩ n) s = .next { s with chip := Chip.send { c with owls := owls } (.hostReadData port
      (if s.mgmt.bootst = 3 then 0
        else BitVec.ofNat 64 (natOfBytes (Mem.bytes s.chip.mem (stagingBase + off.toNat % 2 ^ 28) n)))) }) ∧
  (∀ s, s.runs = true → s.mgmt.bootst = 2 →
    let m := s.chip.mem
    let len := (Mem.dword m (stagingBase + 8)).toNat
    let reject (r : Byte) : Host.Outcome State Fault Refusal := .next { s with mgmt := { s.mgmt with bootst := 4, bootReason := r } }
    (Mem.word m stagingBase ≠ 0x534B4657 → exec .bootVerifyDone s = reject 1) ∧
    (Mem.word m stagingBase = 0x534B4657 → len = 0 ∨ 2 ^ 28 - 512 < len → exec .bootVerifyDone s = reject 2) ∧
    (Mem.word m stagingBase = 0x534B4657 → 1 ≤ len → len ≤ 2 ^ 28 - 512 →
      if Config.signatureValid (Mem.bytes m stagingBase (512 + len)) = false then exec .bootVerifyDone s = reject 3
      else if (Mem.word m (stagingBase + 4)).toNat < s.mgmt.minVersion.toNat then exec .bootVerifyDone s = reject 4
      else ∃ c g, exec .bootVerifyDone s = .next { s with mgmt := g, chip := c } ∧ g.bootst = 3 ∧ c.mem = m ∧
        g.slot1 = Config.sha384 (measureBytes s.mgmt.slot1 ++ measureBytes (Config.sha384 (hashedImage m))) ∧
        g = { s.mgmt with bootst := 3, bootReason := 0, slot1 := g.slot1 } ∧
        ∀ die : BitVec 3, let t := c.thread ⟨50 * (die.toNat % 4), 50 * (die.toNat / 4), 0, 0⟩
          t.run = .ready ∧ t.sup = true ∧ t.getX 1 = endLink ∧
            t.pc = 0xFFF0_000F_F000_0000 + Mem.dword m (stagingBase + 16))) ∧
  (∀ s, s.mgmt.powered = true → ∀ i ∈ [Instr.mainSideReset, .mgmtAssertReset],
    exec i s = .next s.restart) ∧
  (∀ s, s.mgmt.powered = false → exec .powerUp s = .next s.restart) ∧
  (∀ s : State, s.restart.mgmt = { Mgmt.reset with minVersion := s.mgmt.minVersion } ∧
    { s.restart.chip with mem := [], empties := [], poison := [], relics := [], out := [], draws := 0, frees := 0, steps := 0 } =
      Chip.reset ∧
    (∀ k, Mem.get s.restart.chip.mem k = if 2 ^ 44 ≤ k then Mem.get s.chip.mem k else 0) ∧
    (∀ k, k < 2 ^ 44 → s.restart.chip.isFull k = true ∧ k ∉ s.restart.chip.poison)) ∧
  (∀ s, exec .mainSidePowerLoss s = .next { s with mgmt := { s.mgmt with powered := false } }) ∧
  (∀ s a b, s.runs = true → a ≠ b → exec (.ucieLinkFail a b) s =
    .next { s with mgmt := { s.mgmt with stopped := true }, chip := s.chip.send (.linkFailure a b) }) ∧
  (∀ s, exec .spdmGetMeasurements s = .next { s with chip := s.chip.send (.measurement s.mgmt.slot1) }) ∧
  (∀ s, ∀ e ∈ [(Instr.spdmGetVersion, 0x84), (.spdmGetCapabilities, 0xE1), (.spdmNegotiateAlgorithms, 0xE3),
      (.spdmGetDigests, 0x81), (.spdmGetCertificate, 0x82), (.spdmChallenge, 0x83)],
    ∃ body, exec e.1 s = .next { s with chip := Chip.send { s.chip with frees := s.chip.frees + 1 } (.spdm e.2 body) })

end

namespace Sys2Proof.Claims
open Sys2Proof.Machine

/-! ## Accesses from outside, and events of threads and memory -/

/-- The global address of an offset of the apertures: the segment of its top four bits (R338). -/
def aperture (g : Mgmt) (off : BitVec 32) : Dword :=
  BitVec.ofNat 64 ((g.hap.getD (off.toNat / 2 ^ 28) 0).toNat / 2 ^ 28 * 2 ^ 28 + off.toNat % 2 ^ 28)

/-- The spot of a heap byte that a requester from outside reaches, to write or only to read (R89); tid stands for it. -/
structure OutsideAt (s : State) (tid : TId) (a : Dword) (w : Bool) (sp : Spot) : Prop where
  place : ∃ d off e p, homeHeap s.mgmt a = some (d, off) ∧ denOffset s.mgmt d off = none ∧
    subPage (s.chip.core tid.coreId).rgn d off = false ∧
    walk s.chip.mem d (s.chip.die d).etroot off false = .leaf e p ∧
    (heldLeaf (s.chip.die d).spans (off / 2 ^ 21) false = none ∨
      heldLeaf (s.chip.die d).spans (off / 2 ^ 21) false = some e) ∧
    (w = true → entryRo e = false ∧ entryShadow e = false) ∧ entryTier e ≠ 2 ∧ entryZero e = false ∧
    sp = ⟨heapLoc d off, heapKey d (entryAddr e + off % 2 ^ 21)⟩

/-- Of the words that n bytes at a spot touch, an agent may be given the latest version only. -/
def SeenBy (s : State) (a : AgentId) (sp : Spot) (n : Nat) : Prop :=
  ∀ w, w % 4 = 0 → sp.loc / 4 * 4 ≤ w → w < sp.loc + n → Seen s.chip a w

/-- What stands for a thread of another module: it holds one lock bit here at most (R131, R132). -/
def requester (src : FabricSource) : TId := ⟨Config.meshX + src.module.toNat, Config.meshY, 0, src.thread.toNat⟩

/-- The alignment of a request of another module. -/
def requestAlign : FabricOp → Nat
  | .read size => 2 ^ size.toNat
  | .write size _ => 2 ^ size.toNat
  | .sync _ _ => 4
  | .amo _ wide _ => if wide then 8 else 4
  | .cas128 _ _ _ _ => 16
  | .cell => 64
  | .vldc _ _ => 64
  | .vstc _ _ _ _ _ _ => 64
  | .jobRead => 4
  | .jobWrite _ _ _ => 4
  | .unlock => 1
  | _ => 8

/-- Requests that write their bytes: the bytes they leave in memory, and their answer (R121, R129, R130). -/
inductive Request (m : List Host.Cell) (key : Nat) : FabricOp → List Byte → Dword → Prop where
  | write size v : Request m key (.write size v) ((bytesOfDword v).take (2 ^ size.toNat)) 0
  | addD v : Request m key (.amo .add true v) (bytesOfDword (BitVec.ofNat 64 ((Mem.dword m key).toNat + v.toNat))) (Mem.dword m key)
  | addW v : Request m key (.amo .add false v) (bytesOfWord (BitVec.ofNat 32 ((Mem.word m key).toNat + v.toNat)))
      (sext (Mem.word m key))
  | swapD v : Request m key (.amo .swap true v) (bytesOfDword v) (Mem.dword m key)
  | swapW v : Request m key (.amo .swap false v) (bytesOfWord (BitVec.ofNat 32 v.toNat)) (sext (Mem.word m key))
  | cas n : Request m key (.cas (Mem.dword m key) n) (bytesOfDword n) (Mem.dword m key)

/-- The instruction at a thread's program counter waits with an access of which a condition holds. -/
def OwnWaits (t : Thread) (P : Access → Prop) : Prop := ∃ d acc l n w la, t.run = .wait (.access d acc l n w la) ∧ P acc

/-- A `vst` or `vstc` that a thread has moved past is still to be performed, beside the pending entry `but` (R196). -/
def Storing (t : Thread) (but : Option Nat) : Prop := ∃ p ∈ t.pend, some p.id ≠ but ∧ ∃ acc ∈ p.access, acc.lasting = true

/-- The request of the instruction at a thread's program counter has been sent: its `mcst` has written copies, or another module
is to answer a part of it (R48, R135). -/
def Sent (s : State) (t : TId) : Prop := OwnWaits (s.chip.thread t) fun acc =>
  (∃ a v m left f k, acc = .mcst a v m (some left) f k) ∨ ∃ p ∈ acc.parts, ∃ m, classify s.mgmt p.1 = some (.remote m) ∧
    (⟨t, m⟩ : Remote) ∈ s.chip.remotes

/-- A thread is not to be stopped yet: the request of its instruction has been sent, or a `vst` or a `vstc` of its has issued
(R48, R196). -/
def Fixed (s : State) (t : TId) : Prop :=
  Sent s t ∨ OwnWaits (s.chip.thread t) (fun acc => acc.lasting = true) ∨ Storing (s.chip.thread t) none

/-- A stop that an access of a thread meets, late where the thread has moved past its instruction, is put off: another `vst` or
`vstc` has issued, or the instruction at the program counter cannot be withdrawn and does not wait for that access (R48, R196). -/
def PutOff (s : State) (t : TId) (late : Option Nat) (acc : Access) : Prop :=
  Storing (s.chip.thread t) late ∨ (late.isSome = true ∧
    (Sent s t ∨ OwnWaits (s.chip.thread t) fun own => own.lasting = true ∧ meetsBytes s.mgmt t own acc = false))

/-- REPC as a stop saves it: of a thread that has just returned it keeps ACT only at a repeat prefix (R52). -/
def RepcKept (s : State) (r : Word) : Prop :=
  let atRep := ∃ b a d n w c, s.chip.fetch s.mgmt s.chip.t.pc = (.instr (.rep b a d n) w, c)
  (s.chip.t.returned = false ∨ atRep → r = s.chip.t.repc) ∧
    (s.chip.t.returned = true → ¬ atRep → r = s.chip.t.repc &&& ~~~0x80)

/-- The cell of a clean copy for the cell at a physical address of a die, by its key (R67, R328). -/
def CopyAt (s : State) (die : BitVec 3) (pa k : Nat) : Prop :=
  ∃ page tier e, (page, tier) ∈ s.chip.tcopies ∧ page.extractLsb' 48 3 = die ∧ s.chip.pageEntry page = some e ∧
    entryTier e = 0 ∧ entryAddr e ≤ pa ∧ pa < entryAddr e + 2 ^ 21 ∧ k = heapKey die (tier + (pa - entryAddr e))

/-- The state of a thread, or a tile of its task, that an uncorrectable error meets, with its bit of FAULTINFO (R295). -/
inductive PoisonBit (s : State) (t : TId) (task : Nat) : SoftTarget → Nat → Prop where
  | x : PoisonBit s t task (.threadX t) 0
  | v : PoisonBit s t task (.threadV t) 1
  | m : PoisonBit s t task (.threadM t) 2
  | csr : PoisonBit s t task (.threadCsr t) 3
  | tile acc : (s.chip.tile task acc.toNat).isSome = true → PoisonBit s t task (.tile task acc) (4 + acc.toNat)

/-- The state seen with another thread as the one that acts. -/
def focused (s : State) (t : TId) : State := { s with chip := s.chip.focus t }

/-- Only bookkeeping and one die's log counter changed: a record found no room (R315). -/
def LogDropped (c c' : Chip) (die : BitVec 3) : Prop :=
  ∃ d, Books c d ∧ c' = d.setDie die { d.die die with loglost := (d.die die).loglost + 1 }

/-- The cells of a cluster replaced by a change. -/
def onCluster (s : State) (k : CId) (f : Cluster → Cluster) : State :=
  { s with chip := s.chip.setCluster k (f (s.chip.cluster k)) }

end Sys2Proof.Claims

section
open Sys2Proof Sys2Proof.Machine

/-- R81, R89, R286, R338, R339, R346, R71: a host read or write through an aperture reaches the byte that the segment
names, and fails as Unsupported Request where the address has no form; a request of another module under this module's
ID is served as the access that it is, and a wrong ID or a misaligned address is answered with its cause; a word read for another
module's engine job is answered with its poison (R145); a routine that
another module ships runs on its cell, and a slot that holds none is answered SHIP_EMPTY; a lost path stops the access that
waits for it, unless a `vst` or `vstc`, or the thread's own instruction, is to complete first (R48, R196). The model's choices: the host's rights
(log 26) and how a lost path is drawn (log 10). -/
def Obligations.OutsideAccessResults : Prop :=
  (∀ s port off n sp, s.runs = true → n ∈ [1, 2, 4, 8] → (Claims.aperture s.mgmt off).toNat % 64 + n ≤ 64 →
    Claims.OutsideAt s outsideTid (Claims.aperture s.mgmt off) false sp → s.chip.poison = [] → Claims.SeenBy s (.host port) sp n →
    ∃ c owls, Claims.Books s.chip c ∧ exec (.hostApertureRead port ⟨.aperture, off⟩ n) s = .next { s with chip := { c with
      owls := owls
      out := s.chip.out ++ [.hostReadData port (BitVec.ofNat 64 (natOfBytes (Mem.bytes s.chip.mem sp.key n)))] } }) ∧
  (∀ s port off n v rx sp, s.runs = true → n ∈ [1, 2, 4, 8] → (Claims.aperture s.mgmt off).toNat % 64 + n ≤ 64 →
    Claims.OutsideAt s outsideTid (Claims.aperture s.mgmt off) true sp → Claims.NoCopy s sp →
    ∃ c owls, Claims.Changed s.chip c sp.key ((bytesOfDword v).take n) ∧ Claims.SameFull s.chip c ∧
      exec (.hostApertureWrite port off n v rx) s = .next { s with chip := { c with owls := owls } }) ∧
  (∀ s port off n v rx, s.runs = true → n ∈ [1, 2, 4, 8] → classify s.mgmt (Claims.aperture s.mgmt off) = none →
    ∀ i ∈ [Instr.hostApertureRead port ⟨.aperture, off⟩ n, .hostApertureWrite port off n v rx],
      ∃ c owls, Claims.Books s.chip c ∧
        exec i s = .next { s with chip := { c with owls := owls, out := s.chip.out ++ [.hostUnsupported port] } }) ∧
  (∀ s src (size : BitVec 2) a key sup sp, s.runs = true → s.mgmt.faben = true → src.module ≠ s.mgmt.modid →
    a.extractLsb' 52 12 = s.mgmt.modid → let n := 2 ^ size.toNat
    a.toNat % n = 0 → Claims.OutsideAt s (Claims.requester src) a false sp → s.chip.poison = [] →
    Claims.SeenBy s (.fabric src.module) sp n → (∀ h ∈ s.chip.hoard, h.owner ≠ Claims.requester src) →
    ∃ c, Claims.Books s.chip c ∧ exec (.fabricRequest src (.read size) a key sup) s = .next { s with chip := { c with
      out := s.chip.out ++ [.fabricReply src.module (Claims.loaded s.chip.mem sp.key n)] } }) ∧
  (∀ s src op bs v a key sup sp, s.runs = true → s.mgmt.faben = true → src.module ≠ s.mgmt.modid →
    a.extractLsb' 52 12 = s.mgmt.modid → a.toNat % bs.length = 0 → Claims.OutsideAt s (Claims.requester src) a true sp →
    s.chip.poison = [] → Claims.NoCopy s sp → Claims.Request s.chip.mem sp.key op bs v →
    ∃ c, Claims.Changed s.chip c sp.key bs ∧ Claims.SameFull s.chip c ∧
      exec (.fabricRequest src op a key sup) s = .next { s with chip := { c with out := s.chip.out ++ [.fabricReply src.module v] } }) ∧
  (∀ s src a key sup sp, s.runs = true → s.mgmt.faben = true → src.module ≠ s.mgmt.modid →
    a.extractLsb' 52 12 = s.mgmt.modid → a.toNat % 4 = 0 → Claims.OutsideAt s (Claims.requester src) a false sp →
    Claims.SeenBy s (.fabric src.module) sp 4 →
    ∃ c, Claims.Books s.chip c ∧ exec (.fabricRequest src .jobRead a key sup) s = .next { s with chip := { c with
      out := s.chip.out ++ [.fabricData src.module [BitVec.ofNat 64 (Mem.word s.chip.mem sp.key).toNat,
        if s.chip.anyPoison sp.key 4 then 1 else 0]] } }) ∧
  (∀ s src op a key sup, s.runs = true → s.mgmt.faben = true → src.module ≠ s.mgmt.modid →
    (a.extractLsb' 52 12 ≠ s.mgmt.modid →
      exec (.fabricRequest src op a key sup) s = .next { s with chip := s.chip.send (.fabricFault src.module Cause.addrInvalid) }) ∧
    (a.extractLsb' 52 12 = s.mgmt.modid → a.toNat % Claims.requestAlign op ≠ 0 → ∃ c, Claims.Books s.chip c ∧
      exec (.fabricRequest src op a key sup) s = .next { s with chip := c.send (.fabricFault src.module Cause.misalign) })) ∧
  (∀ s op addr a b sp, s.mgmt.faben = true → Claims.OutsideAt s outsideTid addr true sp →
    tableGet s.chip.routines op = none → ∃ c, Claims.Books s.chip c ∧
      exec (.badgerRoutineRun op addr a b) s = .next { s with chip := c.send (.fabricFault 0 Cause.shipEmpty) }) ∧
  (∀ s op addr a b sp code small cell,
    let base : Spot := ⟨sp.loc / 64 * 64, sp.key - sp.loc % 64⟩
    s.mgmt.faben = true → Claims.OutsideAt s outsideTid addr true sp → tableGet s.chip.routines op = some code → s.chip.poison = [] →
    Claims.NoCopy s base →
    badgerRun code (Mem.bytes s.chip.mem base.key 64) ((List.range 16).map fun i => s.chip.isFull (base.key + 4 * i))
      (sp.loc % 64) op a b = (small, cell, .ended) → cell.bytes.length = 64 →
    ∃ c, Claims.Changed s.chip c base.key (if cell.stored then cell.bytes else []) ∧
      exec (.badgerRoutineRun op addr a b) s = .next { s with chip := { c with
        out := s.chip.out ++ [.fabricReply 0 (small.get 1)] } }) ∧
  (∀ s t r p key, s.chip.remotes.find? (fun r => decide (r.tid = t)) = some r →
    (s.chip.thread t).firstWaiting (awayAt s.mgmt r.module) = some p →
    (s.chip.thread t).handler = none → (s.chip.thread t).gangSize = 0 →
    (Claims.PutOff s t p.late p.acc → exec (.remoteFail t) s = .next s) ∧
    let u := Claims.focused { s with chip := { s.chip with remotes := s.chip.remotes.erase r } } t
    ¬ Claims.PutOff s t p.late p.acc → Claims.FrameAt u u.chip.t.csr.tframe key →
    Claims.EntersBy u key (exec (.remoteFail t) s) ⟨u.chip.t.stopPc, Cause.remoteFail, p.a,
      BitVec.ofNat 64 (r.module.toNat * 2 ^ 32 + p.lane.toNat * 2 ^ 8 + (Claims.info p.kind).toNat), p.late.isSome, false, 4⟩)

/-- R46, R61, R66 to R68, R92, R119, R298, R317: a window that ends writes the result that has come and its thread
goes on; a waiting thread takes its deferred report, unless its instruction is to complete first, and waits for every page of several stops; the frame of an entry found with ZERO = 1 is zeroed, its words full, and ZERO cleared in the
entry if the table still holds it; a
lost cell is rebuilt from its clean copy, or poisoned where it has none; a soft error is recorded, or damages the state that it meets.
The model's reading: what a late stop saves (log 33). -/
def Obligations.ThreadAndMemoryEvents : Prop :=
  (∀ s t p q w, (s.chip.thread t).run = .wait .window → (s.chip.thread t).pend = [p] → (s.chip.thread t).snaps = [] →
    p.rem = 0 → p.access = none → p.dest = .x q → p.result = .x w → p.snap = none →
    exec (.windowEndWrite t) s = .next (Claims.withThread (Claims.focused s t)
      ((Claims.withFlags (Claims.writeX { s.chip.thread t with pend := [], run := .ready } q w)
        (p.flags ||| if p.wr then 0x800 else 0)).warn p.warn p.iaddr))) ∧
  (∀ s t r w key, (s.chip.thread t).run = .wait w → ¬ Claims.Fixed s t →
    (s.chip.thread t).handler = none → (s.chip.thread t).gangSize = 0 → (s.chip.thread t).report = some r →
    let u := Claims.focused s t
    ∀ rc, Claims.RepcKept u rc →
    let v := Claims.withThread u { u.chip.t with report := none, repc := rc }
    Claims.FrameAt v v.chip.t.csr.tframe key →
    (r.pages = [] → Claims.EntersBy v key (exec (.deferredReport t) s)
      ⟨v.chip.t.stopPc, r.cause, r.addr, r.info, true, decide (r.cause = Cause.ctxPoison), 4⟩) ∧
    (r.pages ≠ [] → ∀ task, (s.chip.thread t).task = some task → ∃ c k, exec (.deferredReport t) s = .next { s with chip := c } ∧
      c.thread t = Thread.reset ∧ c.saved = s.chip.saved ++ [k] ∧ k.task = task ∧ k.resume = .pages r.pages ∧
      k.frame = v.chip.t.csr.tframe ∧ k.image = Mem.bytes c.mem key 2048 ∧
      k.image = s.chip.frameBytes v.chip.t ⟨v.chip.t.stopPc, r.cause, r.addr, r.info, true, false, 2⟩)) ∧
  (∀ s t, Claims.Fixed s t → exec (.deferredReport t) s = .next s) ∧
  (∀ s addr sub d off e,
    s.chip.zeroing.find? (fun z => decide (z.1 = addr) && decide (z.2.1 = sub)) = some (addr, sub, e) →
    homeHeap s.mgmt addr = some (d, off) →
    let n := if sub then 2 ^ 10 else 2 ^ 21
    let key := heapKey d (entryAddr e)
    let found := walk (s.chip.mem.filter fun x => decide (x.1 < key) || decide (key + n ≤ x.1)) d (s.chip.die d).etroot off sub
    (∀ p, found = .leaf e p → heapKey d p + 8 ≤ key ∨ key + n ≤ heapKey d p) →
    ∃ c mem empties poison hist agents clock reached locks tcopies flash dies zeroing, exec (.pageZero addr sub) s = .next { s with chip := c } ∧
      c = { s.chip with
        mem := mem, empties := empties, poison := poison, hist := hist, agents := agents, clock := clock, reached := reached
        locks := locks, tcopies := tcopies, flash := flash
        dies := dies, zeroing := zeroing } ∧
      (addr, sub, e) ∉ zeroing ∧ (∀ k, key ≤ k → k < key + n → Mem.get mem k = 0 ∧ c.isFull k = true ∧ k ∉ poison) ∧
      (∀ w v, w % 4 = 0 → heapLoc d (off / n * n) ≤ w → w < heapLoc d (off / n * n) + n → c.newest w = some v → v.value = 0) ∧
      (∀ p, found = .leaf e p → Mem.dword mem (heapKey d p) = e &&& ~~~(0x2000000000000 : Dword) ∧
        ∀ k, k < key ∨ key + n ≤ k → k < heapKey d p ∨ heapKey d p + 8 ≤ k → Mem.get mem k = Mem.get s.chip.mem k) ∧
      ((∀ p, found ≠ .leaf e p) → ∀ k, k < key ∨ key + n ≤ k → Mem.get mem k = Mem.get s.chip.mem k)) ∧
  (∀ s (die : BitVec 3) pa, pa < hbmEnd → pa % 64 = 0 → (s.chip.die die).logsize = 0 →
    let key := heapKey die pa
    (∃ c, Claims.LogDropped s.chip c die ∧ exec (.cellRebuild key .parity) s = .next { s with chip := c }) ∧
    ((∀ k, ¬ Claims.CopyAt s die pa k) → ∃ c p, Claims.LogDropped { s.chip with poison := p } c die ∧
      exec (.cellRebuild key .lost) s = .next { s with chip := c } ∧ ∀ q, c.poisoned q = true ↔
        (s.chip.poisoned q = true ∨ poisonUnit q = key)) ∧
    ∀ k how, Claims.CopyAt s die pa k → (∀ q, Claims.CopyAt s die pa q → q = k) → s.chip.poisoned k = false → how ≠ .parity →
      ∃ c m, Claims.LogDropped { s.chip with mem := m } c die ∧ exec (.cellRebuild key how) s = .next { s with chip := c } ∧
        ∀ q, Mem.get m q = if key ≤ q ∧ q < key + 64 then Mem.get s.chip.mem (k + (q - key)) else Mem.get s.chip.mem q) ∧
  (∀ s key, isSliceKey key = true → (s.chip.die (keyDie key)).logsize = 0 →
    ∃ c p, Claims.LogDropped { s.chip with poison := p } c (keyDie key) ∧
      exec (.cellRebuild key .lost) s = .next { s with chip := c } ∧ c.poisoned key = true) ∧
  (∀ s target sp, (∀ k, target ≠ .memoryCell k) →
    let die := s.chip.softDie target
    let d := s.chip.die die
    (d.loghead - d.logtail).toNat < d.logsize.toNat → d.loglost = 0 → d.logwait = [] →
    s.chip.hardwareSpot s.mgmt (d.logbase + BitVec.ofNat 64 (d.loghead.toNat % d.logsize.toNat * 64)) = (.here sp, s.chip) →
    Claims.NoCopy s sp →
    ∃ c, exec (.softError target true) s = .next { s with chip := c } ∧
      let bytes := ({ LogRecord.of logCorrected with phys := some (BitVec.ofNat 64 (die.toNat * 2 ^ 56)) } : LogRecord).bytes d.logseq
      c.die die = { d with
        loghead := d.loghead + 1, logseq := d.logseq + 1, evpend := d.evpend ||| 1, records := (bytes :: d.records).take 256 } ∧
      Mem.bytes c.mem sp.key 64 = bytes ∧
      (∀ k, k < sp.key ∨ sp.key + 64 ≤ k → Mem.get c.mem k = Mem.get s.chip.mem k) ∧ c.t = s.chip.t ∧ c.others = s.chip.others ∧
      c.out = s.chip.out ++ (if d.logvec.getLsbD 31 then [.msix (d.logvec.extractLsb' 0 6)] else [])) ∧
  (∀ s t task, (s.chip.thread t).task = some task → s.chip.threadOf task.id = some (t, s.chip.thread t) →
    (s.chip.thread t).report = none → (s.chip.die t.die).logsize = 0 →
    ∀ target n, Claims.PoisonBit s t task.id target n →
      ∃ c, Claims.LogDropped (s.chip.setThread t { s.chip.thread t with
          report := some ⟨Cause.ctxPoison, 0, BitVec.ofNat 64 (2 ^ n), [], 0⟩ }) c t.die ∧
        exec (.softError target false) s = .next { s with chip := c }) ∧
  (∀ s k acc, s.chip.threadOf k.task.id = none → s.chip.saved = [k] → k.report = none →
    (s.chip.tile k.task.id acc.toNat).isSome = true → (s.chip.die k.cluster.die).logsize = 0 →
    ∃ c, Claims.LogDropped { s.chip with saved := [{ k with
        report := some ⟨Cause.ctxPoison, 0, BitVec.ofNat 64 (2 ^ (4 + acc.toNat)), [], 0⟩ }] } c k.cluster.die ∧
      exec (.softError (.tile k.task.id acc) false) s = .next { s with chip := c }) ∧
  (∀ s k (n : BitVec 3) (col : BitVec 4) (word : BitVec 4) x root, ((s.chip.cluster k).slot n.toNat).columns[col.toNat]? = some x →
    exec (.softError (.slot k n col word) false) s = .next (Claims.onCluster s k fun cl => { cl with
      slots := cl.slots.set n.toNat { cl.slot n.toNat with
        columns := (cl.slot n.toNat).columns.set col.toNat { x with damaged := word.toNat :: x.damaged } } }) ∧
    exec (.softError (.codebook k root) false) s = .next (Claims.onCluster s k fun cl => { cl with badRoots := root :: cl.badRoots }))

end

namespace Sys2Proof.Claims
open Sys2Proof.Machine

/-! ## Events of the engines (R141 to R163, R225 to R236, R318 to R324) -/

/-- The spot of n bytes at a that a job reaches, with its page's entry (0 for a slice): to read, or to write in its own window,
in a slice that its key opens, or in a SHADOW page (R143, R144, R146). -/
def JobSpot (s : State) (j : Job) (w : Bool) (a : Dword) (n : Nat) (sp : Spot) (e : Dword) : Prop :=
  (∃ off, classify s.mgmt a = some (.window off) ∧ windowAllows j.lwin off n (!w) w = true ∧ e = 0 ∧
    sp = ⟨sliceLoc j.tid.coreId off, sliceKey j.tid.coreId off⟩) ∨
  (∃ k off, classify s.mgmt a = some (.slice k off) ∧ keyAdmits (s.chip.core k) j.who off n = true ∧ e = 0 ∧
    sp = ⟨sliceLoc k off, sliceKey k off⟩) ∨
  (∃ d off p, homeHeap s.mgmt a = some (d, off) ∧ denOffset s.mgmt d off = none ∧
    subPage (s.chip.regionsOf j.who) d off = false ∧
    walk s.chip.mem d (s.chip.die d).etroot off false = .leaf e p ∧
    (heldLeaf (s.chip.die d).spans (off / 2 ^ 21) false = none ∨
      heldLeaf (s.chip.die d).spans (off / 2 ^ 21) false = some e) ∧
    (w = true → entryRo e = false ∧ entryShadow e = true) ∧ entryTier e ≠ 2 ∧ entryZero e = false ∧
    sp = ⟨heapLoc d off, heapKey d (entryAddr e + off % 2 ^ 21)⟩)

/-- The key of the bytes that a job writes at a: in a slice, or in the shadow frame that the page has (R144). -/
def JobDest (s : State) (j : Job) (a : Dword) (n : Nat) (key : Nat) : Prop :=
  ∃ sp e, JobSpot s j true a n sp e ∧
    (if isSliceKey sp.key then key = sp.key
      else ∃ sh, (s.chip.die (locDie sp.loc)).shadows.find? (fun x => decide (x.page = sp.loc % 2 ^ 48 / 2 ^ 21)) = some sh ∧
        key = heapKey (locDie sp.loc) (sh.frame + sp.loc % 2 ^ 21))

/-- A job reads the word at a, and may be given its latest version only. -/
def JobWord (s : State) (j : Job) (a : Dword) (w : Word) : Prop :=
  ∃ sp e, JobSpot s j false a 4 sp e ∧ w = Mem.word s.chip.mem sp.key ∧
    ∀ h, historyGet s.chip.hist sp.loc = some h →
      (h.versions.filter fun v => decide (j.view.get sp.loc ≤ v.id)) = h.versions.take 1

/-- The index word i of a job at an address: read before, or read now (R148). -/
def IndexWord (s : State) (j : Job) (i : Nat) (a : Dword) (w : Word) : Prop :=
  j.indices.find? (fun e => decide (e.1 = i)) = some (i, w) ∨
    j.indices.find? (fun e => decide (e.1 = i)) = none ∧ (∀ e ∈ j.known, e.1 ≠ Chip.locOf s.mgmt j.tid a) ∧ JobWord s j a w

/-- Position p of a transfer: the addresses of the word's destination and of its source, and the words that the job moves
(R147, R148). -/
inductive Moves (s : State) (j : Job) (p : Nat) : Dword → Dword → Nat → Prop where
  | cpy d src n (kind : j.kind = .cpy d src n) : Moves s j p (d + BitVec.ofNat 64 (4 * p)) (src + BitVec.ofNat 64 (4 * p)) (n / 4)
  | cpy2 d src w h dp sp (kind : j.kind = .cpy2 d src w h dp sp) :
      Moves s j p (d + BitVec.ofNat 64 (p / (w / 4) * dp + 4 * (p % (w / 4))))
        (src + BitVec.ofNat 64 (p / (w / 4) * sp + 4 * (p % (w / 4)))) (w * h / 4)
  | gath d b l c e i (kind : j.kind = .gath d b l c e)
      (index : IndexWord s j (p / (e / 4)) (l + BitVec.ofNat 64 (4 * (p / (e / 4)))) i) :
      Moves s j p (d + BitVec.ofNat 64 (4 * p)) (b + BitVec.ofNat 64 (i.toNat * e + 4 * (p % (e / 4)))) (c * e / 4)
  | scat b src l c e i (kind : j.kind = .scat b src l c e)
      (index : IndexWord s j (p / (e / 4)) (l + BitVec.ofNat 64 (4 * (p / (e / 4)))) i) :
      Moves s j p (b + BitVec.ofNat 64 (i.toNat * e + 4 * (p % (e / 4)))) (src + BitVec.ofNat 64 (4 * p)) (c * e / 4)

/-- A running, untied transfer is to move the word w next, which is not poisoned, as one of its positions that have not landed, to
dst; no cell that it completes is to lose a poison. -/
structure NextWord (s : State) (k : CId) (entry : BitVec 5) (p : Nat) (j : Job) (dst : Dword) (w : Word) (words : Nat) : Prop where
  job : s.chip.jobAt k entry = some j ∧ j.state = .running ∧ j.tied = none
  landed : j.scattered.Nodup ∧ ∀ q ∈ j.scattered, j.landed < q
  place : j.landed ≤ p ∧ p < words ∧ p ∉ j.scattered ∧ (j.streamed = true → p = j.landed)
  clean : (s.chip.poison = [] ∨ words < 16) ∧ ∀ src sp e, Moves s j p dst src words → JobSpot s j false src 4 sp e →
    s.chip.anyPoison sp.key 4 = false
  source : ∃ src, Moves s j p dst src words ∧ (∀ e ∈ j.known, e.1 ≠ Chip.locOf s.mgmt j.tid src) ∧ JobWord s j src w

/-- One more position of a transfer has landed: all below `landed` have, and those of `scattered`; the last one ends the job. -/
def Progressed (j j' : Job) (p words : Nat) : Prop :=
  (∀ q, q < j'.landed ∨ q ∈ j'.scattered ↔ q < j.landed ∨ q ∈ j.scattered ∨ q = p) ∧ j'.landed ∉ j'.scattered ∧
    j'.state = if j.landed + j.scattered.length + 1 = words then .done else .running

/-- A page that a job writes is found at its home: the entry e, at p, of the page at an offset of a die (R89, R149). -/
structure PageFor (s : State) (j : Job) (a : Dword) (d : BitVec 3) (off : Nat) (e : Dword) (p : Nat) : Prop where
  home : homeHeap s.mgmt a = some (d, off) ∧ denOffset s.mgmt d off = none ∧ subPage (s.chip.regionsOf j.who) d off = false
  entry : walk s.chip.mem d (s.chip.die d).etroot off false = .leaf e p ∧
    (heldLeaf (s.chip.die d).spans (off / 2 ^ 21) false = none ∨ heldLeaf (s.chip.die d).spans (off / 2 ^ 21) false = some e)
  free : entryRo e = false ∧ entryTier e ≠ 2 ∧ entryZero e = false

/-- A page of a publication: its die, its offset, its entry and where that is, and its shadow frame. -/
structure PubPage where
  die : BitVec 3
  off : Nat
  e : Dword
  p : Nat
  sh : Nat

/-- Memory with the entries of published pages naming their shadow frames, and the rest of each as it was (R149). -/
def published (m : List Host.Cell) (l : List PubPage) : List Host.Cell :=
  l.foldl (fun m x => Mem.write m (heapKey x.die x.p)
    (bytesOfDword (x.e.extractLsb' 40 24 ++ BitVec.ofNat 32 (x.sh / 256) ++ x.e.extractLsb' 0 8))) m

/-- A pub of these pages is to swap: each is a SHADOW page with a shadow frame, whose entry no earlier one's hides. -/
structure PubReady (s : State) (j : Job) (a : Dword) (l : List PubPage) : Prop where
  pages : ∀ i x, l[i]? = some x → a.toNat % 2 ^ 21 = 0 ∧ PageFor s j (a + BitVec.ofNat 64 (i * 2 ^ 21)) x.die x.off x.e x.p ∧
    entryShadow x.e = true ∧ tableGet s.chip.tcopies (pageOf (heapLoc x.die x.off)) = none
  frames : ∀ x ∈ l, ∃ sh, (s.chip.die x.die).shadows.find? (fun y => decide (y.page = x.off / 2 ^ 21)) = some sh ∧ sh.frame = x.sh
  apart : ∀ i x, l[i]? = some x →
    walk (published s.chip.mem (l.take i)) x.die (s.chip.die x.die).etroot x.off false = .leaf x.e x.p

/-- The earlier jobs of a job's task are over (R149). -/
def FirstOfTask (s : State) (k : CId) (entry : BitVec 5) (j : Job) : Prop :=
  (s.chip.jobs.takeWhile fun x => !(decide (x.cluster = k) && decide (x.entry = entry))).all
    (fun x => decide (x.task ≠ j.task) || x.state.over) = true

/-- The heap word at a that a job writes lies in a page that has no shadow frame yet, which e maps (R144). -/
def NoShadowYet (s : State) (j : Job) (a : Dword) (sp : Spot) (e : Dword) : Prop :=
  JobSpot s j true a 4 sp e ∧ isSliceKey sp.key = false ∧
    (s.chip.die (locDie sp.loc)).shadows.find? (fun x => decide (x.page = sp.loc % 2 ^ 48 / 2 ^ 21)) = none

/-- No access waits at a place in memory. -/
def NoWaiter (s : State) : Prop :=
  NoneWaits s ∧ (∀ p ∈ s.chip.t.pend, p.spots = []) ∧ ∀ d a l k w m, s.chip.t.run = .wait (.access d a l k w m) → l = []

/-! ### The cut of a frontier (R164, R170 to R173) -/

/-- Bytes of a record of c elements of e bytes. -/
def blockBytes (c e : Nat) : Nat := 16 + (c * e + 7) / 8 * 8

/-- The blocks of a stream, by the words that its addresses hold: where each record is, and its count, which its bitmap bears
out. -/
structure Blocks (word : Dword → Word) (r : CutRecord) (e : Nat) (at_ : Nat → Nat → Dword) (cnt : Nat → Nat → Nat) : Prop where
  first : ∀ m, m < r.mb → (word (r.t + BitVec.ofNat 64 (4 * m))).toNat % 8 = 0 ∧
    at_ m 0 = r.b + BitVec.ofNat 64 (word (r.t + BitVec.ofNat 64 (4 * m))).toNat
  next : ∀ m k, m < r.mb → k + 1 < r.kb → at_ m (k + 1) = at_ m k + BitVec.ofNat 64 (blockBytes (cnt m k) e)
  count : ∀ m k, m < r.mb → k < r.kb → cnt m k = (word (at_ m k + 8)).toNat ∧ cnt m k ≤ 64 ∧
    (List.range 64).countP (word (at_ m k + 4) ++ word (at_ m k)).getLsbD = cnt m k

/-- The bytes of a record in a tile: its bitmap and count, its values, and zeros (R172). -/
def recordOf (word : Dword → Word) (a : Dword) (c e : Nat) : List Byte :=
  let values := ((List.range ((c * e + 3) / 4)).map fun i => bytesOfWord (word (a + 16 + BitVec.ofNat 64 (4 * i)))).flatten
  bytesOfWord (word a) ++ bytesOfWord (word (a + 4)) ++ bytesOfWord (BitVec.ofNat 32 c) ++ List.replicate 4 0 ++
    values.take (c * e) ++ List.replicate ((c * e + 7) / 8 * 8 - c * e) 0

/-- The elements of blocks a to b − 1 of row m, and of rows m to n − 1. -/
def rowOf (cnt : Nat → Nat → Nat) (m a b : Nat) : Nat := ((List.range (b - a)).map fun i => cnt m (a + i)).sum
def areaOf (cnt : Nat → Nat → Nat) (m n a b : Nat) : Nat := ((List.range (n - m)).map fun i => rowOf cnt (m + i) a b).sum

/-- The rectangle that a cut takes from a frontier w, with blocks in it: grown along k, then along m (R171). -/
structure Grown (r : CutRecord) (w : Nat → Nat) (cnt : Nat → Nat → Nat) (m0 m1 k0 k1 : Nat) : Prop where
  least : m0 < r.mb ∧ ∀ k, k < r.kb → m0 ≤ w k
  first : k0 < r.kb ∧ w k0 = m0 ∧ ∀ k, k < k0 → w k ≠ m0
  alongK : k0 < k1 ∧ k1 ≤ r.kb ∧ k1 - k0 ≤ r.klim ∧ (∀ k, k0 ≤ k → k < k1 → w k = m0) ∧ rowOf cnt m0 k0 k1 ≤ r.budget
  endK : k1 = r.kb ∨ k1 - k0 = r.klim ∨ w k1 ≠ m0 ∨ r.budget < rowOf cnt m0 k0 (k1 + 1)
  alongM : m0 < m1 ∧ m1 ≤ r.mb ∧ m1 - m0 ≤ r.mlim ∧ areaOf cnt m0 m1 k0 k1 ≤ r.budget
  endM : m1 = r.mb ∨ m1 - m0 = r.mlim ∨ r.budget < areaOf cnt m0 (m1 + 1) k0 k1
  some_ : 0 < areaOf cnt m0 m1 k0 k1

/-- Planned words put in a core's slice, in order. -/
def plannedIn (k : CoreId) (m : List Host.Cell) (l : List Planned) : List Host.Cell :=
  l.foldl (fun m p => Mem.write m (sliceKey k p.a.toNat) (bytesOfWord p.word)) m

/-- The words of bytes at an address on, each with its address. -/
def wordsFrom (a : Dword) (bs : List Byte) : List (Dword × Word) :=
  (List.range (bs.length / 4)).map fun i => (a + BitVec.ofNat 64 (4 * i), BitVec.ofNat 32 (natOfBytes ((bs.drop (4 * i)).take 4)))

/-- A running, untied cut that has read nothing: its record r, of elements of e bytes, lies with its frontier in the issuing thread's window, open to
it, and breaks no limit (R169). -/
structure CutReady (s : State) (k : CId) (entry : BitVec 5) (j : Job) (r : CutRecord) (e : Nat) (a : Dword) : Prop where
  job : s.chip.jobAt k entry = some j ∧ j.state = .running ∧ j.tied = none ∧ j.plan = none ∧ s.chip.hist = []
  record : a.toNat + 64 ≤ 2 ^ 16 ∧ windowAllows j.lwin a.toNat 64 true false = true ∧
    r = CutRecord.ofBytes (Mem.bytes s.chip.mem (sliceKey j.tid.coreId a.toNat) 64)
  front : r.f.toNat + 4 * r.kb ≤ 2 ^ 16 ∧ windowAllows j.lwin r.f.toNat (4 * r.kb) true true = true
  limits : cutLimits s.mgmt j.tid r (CutRecord.ofBytes []) false = none ∧ cutElement r.fmt = some e
  ranges : let l : List Machine.Range := [⟨r.d, 24 * r.klim * r.mlim + r.budget * e, true⟩, ⟨r.f, 4 * r.kb, true⟩]
    rangeChecksOver s.mgmt j.lwin l (l ++ [⟨r.f, 4 * r.kb, false⟩]) none = none ∧
      anyOverlap ((Chip.locOf s.mgmt j.tid a, 64) :: l.map fun x => (Chip.locOf s.mgmt j.tid x.first, x.extent)) = false

/-- The threads, and the rest of what an engine's job does not touch. -/
def SameThreads (c c' : Chip) : Prop := c'.tid = c.tid ∧ c'.t = c.t ∧ c'.others = c.others ∧ c'.tiles = c.tiles ∧ c'.saved = c.saved

/-- Two links name one page of this module, by whichever of its names (R77), or the same address. -/
def SamePage (g : Mgmt) (a b : Dword) : Prop :=
  (∃ d o q, homeHeap g a = some (d, o) ∧ homeHeap g b = some (d, q) ∧ o / 2 ^ 21 = q / 2 ^ 21) ∨ a.toNat / 2 ^ 21 = b.toNat / 2 ^ 21

/-- The bits of element k of a cell of bytes, its value, and its format where it is dense (R99, R103). -/
def bitsOf (bs : List Byte) (f : Fmt) (k : Nat) : Nat :=
  natOfBytes ((bs.drop (elementAt f k)).take ((f.width + 7) / 8)) / (if upper f k then 16 else 1) % 2 ^ f.width
def valueOf (bs : List Byte) (f : Fmt) (k : Nat) : Num := byScale false (bs.getD 1 0) (decoded f (bitsOf bs f k))
def denseFmt (code : Byte) : Option Fmt := formats.find? fun f => decide (f.cell = code.toNat)

/-- A dense cell's format agrees with its slot's and its tile's type (R225). -/
def Agrees (cell scale slot : Byte) (int32 : Bool) : Prop :=
  (int32 = false ∧ ((cell ∈ [(0x11 : Byte), 0x12] ∧ slot ∈ [(0x11 : Byte), 0x12]) ∨
      (cell ∈ [(0x20 : Byte), 0x21] ∧ slot ∈ [(0x20 : Byte), 0x21]) ∨ (cell = 0x30 ∧ slot = 0x30))) ∨
    (int32 = true ∧ scale = 0x7F ∧ ((cell = 0x22 ∧ slot = 0x22) ∨ (cell = 0x31 ∧ slot = 0x31)))

/-- A job is replaced in its queue entry, and nothing else changes. -/
def putJob (s : State) (j : Job) : State := { s with chip := s.chip.setJob j }

/-! ### Contracting loads' sums (R228) -/

/-- A value as a number. -/
def numOf : Value → Num
  | .nan => .nan
  | .inf neg => .inf neg
  | .fin neg n e => .fin neg ((if neg then -n else n : ℤ) * (2 : ℚ) ^ e)

/-- The finite numbers of a list. -/
def finites (l : List Num) : List ℚ := l.filterMap fun v => match v with | .fin _ x => some x | _ => none

/-- The partial of products: NaN, an infinity, nothing, or the sum of the products each truncated towards −∞ to a multiple of
2^(E − 79), where 2^E is the greatest power of two not above the greatest of them. -/
def Partial (l : List Num) (s : Option Num) : Prop :=
  ((Num.nan ∈ l ∨ Num.inf true ∈ l ∧ Num.inf false ∈ l) → s = some .nan) ∧
  (∀ b, Num.nan ∉ l → Num.inf b ∈ l → Num.inf (!b) ∉ l → s = some (.inf b)) ∧
  (Num.nan ∉ l → (∀ b, Num.inf b ∉ l) →
    ((∀ x ∈ finites l, x = 0) → s = none) ∧
    ((∃ x ∈ finites l, x ≠ 0) → ∃ (top sum : ℤ), (∃ x ∈ finites l, 2 ^ top ≤ |x|) ∧ (∀ x ∈ finites l, |x| < 2 ^ (top + 1)) ∧
      sum = ((finites l).map fun x => ⌊x / 2 ^ (top - 79)⌋).sum ∧ s = some (.fin (decide (sum < 0)) (sum * 2 ^ (top - 79)))))

/-- An element of an FP32 tile after a partial has been added: one rounding, to nearest. -/
def Added (old : Word) (s : Option Num) (w : Word) : Prop :=
  match s with
  | none => w = old
  | some v => ∃ fl, Gives 0 0 false (plus false (decoded (.float fp32) old.toNat) v) w fl

/-! ### Kernels (R158, R185) -/

/-- A thread whose x registers are a kernel's y registers, at offset p of the kernel's code, which was read from base. -/
def kernelThread (base : Dword) (y : List Dword) (p : Nat) : Thread :=
  (List.range 8).foldl (fun t r => writeX t (BitVec.ofNat 5 r) (y.getD r 0)) { Thread.reset with pc := base + BitVec.ofNat 64 p }

/-- A kernel's run from offset p with registers y: after n instructions without loops and repeats it ends at sqend with
registers y', and asks for the lines of these addresses. -/
inductive KernelRun (s : State) (t : TId) (base : Dword) (code : List Half) :
    Nat → List Dword → Nat → List Dword → List Dword → Prop where
  | sqend p y k (here : smallDecode (code.drop (p / 2)) = some (.sqend, k)) (even : p % 2 = 0) (inside : p < 2 * code.length) :
      KernelRun s t base code p y 0 y []
  | compute p y n y' l i k (rd : Reg) v (here : smallDecode (code.drop (p / 2)) = some (i, k)) (even : p % 2 = 0)
      (inside : p < 2 * code.length) (small : rd.toNat < 8)
      (value : Scalar (kernelThread base y p) i rd v ∨ Immediate (kernelThread base y p) i rd v)
      (rest : KernelRun s t base code (p + 4) (if rd = 0 then y else y.set rd.toNat v) n y' l) :
      KernelRun s t base code p y (n + 1) y' l
  | branch p y n y' l i k ra rb cmp off (q : Nat) (here : smallDecode (code.drop (p / 2)) = some (i, k)) (even : p % 2 = 0)
      (inside : p < 2 * code.length) (form : Branch i ra rb cmp off)
      (target : (q : ℤ) = if cmp ((kernelThread base y p).getX ra) ((kernelThread base y p).getX rb) then p + 2 * off.toInt
        else p + 4)
      (rest : KernelRun s t base code q y n y' l) : KernelRun s t base code p y (n + 1) y' l
  | load p y n y' l i k la (rd : Reg) a size (here : smallDecode (code.drop (p / 2)) = some (i, k)) (even : p % 2 = 0)
      (inside : p < 2 * code.length) (small : rd.toNat < 8) (form : Load (kernelThread base y p) i la rd a size)
      (aligned : a.toNat % size = 0) (window : a.toNat + size ≤ 2 ^ 16)
      (allowed : Allows (s.chip.thread t) a.toNat size true false)
      (rest : KernelRun s t base code (p + 4)
        (if rd = 0 then y else y.set rd.toNat (loaded s.chip.mem (sliceKey t.coreId a.toNat) size)) n y' l) :
      KernelRun s t base code p y (n + 1) y' l
  | sqpf p y n y' l k (r : Reg) (here : smallDecode (code.drop (p / 2)) = some (.sqpf r, k)) (even : p % 2 = 0)
      (inside : p < 2 * code.length) (small : r.toNat < 8) (rest : KernelRun s t base code (p + 4) y n y' l) :
      KernelRun s t base code p y (n + 1) y' ((kernelThread base y p).getX r :: l)

/-- n bytes of memory from a key on hold bs, and the others what they held. -/
def Wrote (m m' : List Host.Cell) (key : Nat) (bs : List Byte) : Prop :=
  ∀ k, Mem.get m' k = if key ≤ k ∧ k < key + bs.length then bs.getD (k - key) 0 else Mem.get m k

end Sys2Proof.Claims

section
open Sys2Proof Sys2Proof.Machine

/-- R141, R143 to R150, R171 to R173, R288: a queued job starts; a running transfer lands one word, the last one ends it; the
first word to a SHADOW page takes a shadow frame, a copy of the visible one, or meets SHADOW_EMPTY; pub names the shadow frames
in its pages' entries in one step, and meets PUB_ATTR at a page with SHADOW = 0, and changes nothing; a replaced frame returns; a cut
of a finished frontier gives its bounds, and of an unfinished
one the words of its tile, and then the frontier's, to be written; it writes them in order, some at a time, and ends with the last;
every run of a cut reads, writes, ends its job or waits for a page. The model's choice: a cut reads all that it reads in one step
(log 38). -/
def Obligations.TransferEvents : Prop :=
  (∀ s k entry j, s.chip.jobAt k entry = some j → j.state = .queued → (∀ p, j.kind ≠ .cld p) →
    exec (.copyJobStart k entry) s = .next (Claims.putJob s { j with state := .running })) ∧
  (∀ s k entry j p dst w words key, Claims.NextWord s k entry p j dst w words → Claims.JobDest s j dst 4 key →
    (isSliceKey key = true → ∀ sp e, Claims.JobSpot s j true dst 4 sp e → Claims.NoCopy s sp) →
    ∃ c j', exec (.copyJobWordWrite k entry p) s = .next { s with chip := c } ∧ Claims.SameThreads s.chip c ∧
      Claims.Wrote s.chip.mem c.mem key (bytesOfWord w) ∧ c.isFull key = true ∧ c.jobAt k entry = some j' ∧
      Claims.Progressed j j' p words) ∧
  (∀ s k entry j p dst w words sp e, Claims.NextWord s k entry p j dst w words → Claims.NoShadowYet s j dst sp e →
    let die := locDie sp.loc
    let d := s.chip.die die
    (d.freeShadows ≠ [] → ∃ c f j', f ∈ d.freeShadows ∧ exec (.copyJobWordWrite k entry p) s = .next { s with chip := c } ∧
      Claims.SameThreads s.chip c ∧ (c.die die).shadows = ⟨sp.loc % 2 ^ 48 / 2 ^ 21, f⟩ :: d.shadows ∧
      c.jobAt k entry = some j' ∧ Claims.Progressed j j' p words ∧
      let at_ := heapKey die (f + sp.loc % 2 ^ 21)
      let from_ (q : Nat) : Nat := heapKey die (entryAddr e) + (q - heapKey die f)
      let inside (q : Nat) : Prop := heapKey die f ≤ q ∧ q < heapKey die f + 2 ^ 21
      (∀ q, (at_ ≤ q ∧ q < at_ + 4 → Mem.get c.mem q = (bytesOfWord w).getD (q - at_) 0) ∧
        (¬ (at_ ≤ q ∧ q < at_ + 4) → Mem.get c.mem q = Mem.get s.chip.mem (if heapKey die f ≤ q ∧ q < heapKey die f + 2 ^ 21 then from_ q else q))) ∧
      c.isFull at_ = true ∧ ∀ q,
        (q ≠ at_ → (inside q → c.isFull q = s.chip.isFull (from_ q)) ∧ (¬ inside q → c.isFull q = s.chip.isFull q)) ∧
        (inside q → (q ∈ c.poison ↔ from_ q ∈ s.chip.poison)) ∧ (¬ inside q → (q ∈ c.poison ↔ q ∈ s.chip.poison))) ∧
    (d.freeShadows = [] → d.returning ≠ [] → ∃ c j', exec (.copyJobWordWrite k entry p) s = .next { s with chip := c } ∧
      Claims.SameThreads s.chip c ∧ c.mem = s.chip.mem ∧ c.jobAt k entry = some j' ∧ j'.state = .running ∧
      j'.landed = j.landed ∧ j'.scattered = j.scattered) ∧
    (d.freeShadows = [] → d.returning = [] → ∃ c j', exec (.copyJobWordWrite k entry p) s = .next { s with chip := c } ∧
      Claims.SameThreads s.chip c ∧ c.mem = s.chip.mem ∧ c.jobAt k entry = some j' ∧ j'.state = .faulted Cause.shadowEmpty)) ∧
  (∀ s k entry j a l, s.chip.jobAt k entry = some j → j.kind = .pub a l.length → j.state = .running → j.tied = none →
    Claims.NoWaiter s → Claims.FirstOfTask s k entry j → Claims.PubReady s j a l →
    ∃ c j', exec (.pubSwap k entry) s = .next { s with chip := c } ∧ Claims.SameThreads s.chip c ∧
      (∀ q, Mem.get c.mem q = Mem.get (Claims.published s.chip.mem l) q) ∧ c.jobAt k entry = some j' ∧ j'.state = .done ∧
      (∀ x ∈ l, ∀ y ∈ (c.die x.die).shadows, y.page ≠ x.off / 2 ^ 21) ∧
      ∀ d, (c.die d).returning =
        ((l.filter fun x => decide (x.die = d)).map fun x => entryAddr x.e).reverse ++ (s.chip.die d).returning) ∧
  (∀ s k entry j a n i d off e p, s.chip.jobAt k entry = some j → j.kind = .pub a n → j.state = .running → j.tied = none →
    Claims.FirstOfTask s k entry j → i < n →
    (∀ q, q < i → ∃ d off e p, Claims.PageFor s j (a + BitVec.ofNat 64 (q * 2 ^ 21)) d off e p ∧ entryShadow e = true) →
    Claims.PageFor s j (a + BitVec.ofNat 64 (i * 2 ^ 21)) d off e p → entryShadow e = false →
    ∃ c, Claims.Books s.chip c ∧ exec (.pubSwap k entry) s =
      .next { s with chip := c.setJob { j with state := .faulted Cause.pubAttr } }) ∧
  (∀ s die frame, frame ∈ (s.chip.die die).returning →
    exec (.shadowFrameReturn die frame) s = .next (Claims.onDie s die fun d => { d with
      returning := d.returning.filter fun f => decide (f ≠ frame)
      spans := d.spans.filter fun e => !(decide (entryAddr e.leaf = frame) && !e.sub) })) ∧
  (∀ s k entry j a mis grp r e, j.kind = .cut a false mis grp → Claims.CutReady s k entry j r e a →
    let key (o : Nat) : Nat := sliceKey j.tid.coreId o
    let w (i : Nat) : Nat := (Mem.word s.chip.mem (key (r.f.toNat + 4 * i))).toNat
    let front (f : Nat → Nat) : List (Dword × Word) :=
      (List.range r.kb).map fun i => (r.f + BitVec.ofNat 64 (4 * i), BitVec.ofNat 32 (f i))
    ((∀ i, i < r.kb → w i = r.mb) →
      ∃ c j' l, exec (.cutJobRun k entry) s = .next { s with chip := c } ∧ Claims.SameThreads s.chip c ∧ c.mem = s.chip.mem ∧
        c.jobAt k entry = some j' ∧ j'.state = .running ∧ j'.plan = some (l, .done) ∧
        j'.bounds = some (BitVec.ofNat 64 (8 * r.kb * 2 ^ 32 + 8 * r.kb), BitVec.ofNat 64 (8 * r.mb * 2 ^ 32 + 8 * r.mb), 0) ∧
        l.map (fun p => (p.a, p.word)) = front w ∧ ∀ p ∈ l, p.poison = false ∧ p.counted = false) ∧
    (∀ word at_ cnt m0 m1 k0 k1, s.chip.poison = [] → (∀ i, i < r.kb → w i ≤ r.mb) →
      Claims.Blocks word r e at_ cnt → Claims.Grown r w cnt m0 m1 k0 k1 →
      (∀ b, ((∃ m, m < r.mb ∧ b = r.t + BitVec.ofNat 64 (4 * m)) ∨
          ∃ m q i, m < r.mb ∧ q < r.kb ∧ 4 * i < Claims.blockBytes (cnt m q) e ∧ b = at_ m q + BitVec.ofNat 64 (4 * i)) →
        ∃ sp x, Claims.JobSpot s j false b 4 sp x ∧ word b = Mem.word s.chip.mem sp.key) →
      let tile := ((List.range (m1 - m0)).map fun i => ((List.range (k1 - k0)).map fun q =>
        Claims.recordOf word (at_ (m0 + i) (k0 + q)) (cnt (m0 + i) (k0 + q)) e).flatten).flatten
      ∃ c j' l l', exec (.cutJobRun k entry) s = .next { s with chip := c } ∧ Claims.SameThreads s.chip c ∧ c.mem = s.chip.mem ∧
        c.jobAt k entry = some j' ∧ j'.state = .running ∧ j'.plan = some (l ++ l', .done) ∧
        j'.bounds = some (BitVec.ofNat 64 (8 * k1 * 2 ^ 32 + 8 * k0), BitVec.ofNat 64 (8 * m1 * 2 ^ 32 + 8 * m0),
          BitVec.ofNat 64 (Claims.areaOf cnt m0 m1 k0 k1)) ∧
        l.map (fun p => (p.a, p.word)) = Claims.wordsFrom r.d tile ∧
        l'.map (fun p => (p.a, p.word)) = front (fun i => if k0 ≤ i ∧ i < k1 then m1 else w i) ∧
        (∀ p ∈ l ++ l', p.poison = false) ∧ (∀ p ∈ l, p.counted = true) ∧ ∀ p ∈ l', p.counted = false)) ∧
  (∀ s k entry j a co mis grp l ending, s.chip.jobAt k entry = some j → j.kind = .cut a co mis grp → j.state = .running →
    j.tied = none → j.plan = some (l, ending) → l ≠ [] → s.chip.poison = [] → s.chip.tcopies = [] →
    (∀ p ∈ l, p.poison = false ∧ p.a.toNat % 4 = 0 ∧ p.a.toNat + 4 ≤ 2 ^ 16 ∧ windowAllows j.lwin p.a.toNat 4 false true = true) →
    ∃ c j' n, 0 < n ∧ n ≤ l.length ∧ exec (.cutJobRun k entry) s = .next { s with chip := c } ∧ Claims.SameThreads s.chip c ∧
      (∀ q, Mem.get c.mem q = Mem.get (Claims.plannedIn j.tid.coreId s.chip.mem (l.take n)) q) ∧
      (∀ p ∈ l.take n, c.isFull (sliceKey j.tid.coreId p.a.toNat) = true) ∧ c.jobAt k entry = some j' ∧ j'.bounds = j.bounds ∧
      j'.landed = j.landed + ((l.take n).filter Planned.counted).length ∧
      (n = l.length → j'.plan = none ∧ j'.state = ending) ∧
      (n < l.length → j'.plan = some (l.drop n, ending) ∧ j'.state = .running)) ∧
  (∀ s k entry j a co mis grp, s.chip.jobAt k entry = some j → j.kind = .cut a co mis grp → j.state = .running →
    j.tied = none →
    ∃ c, exec (.cutJobRun k entry) s = .next { s with chip := c } ∧ c.t = s.chip.t ∧ c.others = s.chip.others ∧
      (j.plan = none →
        (∃ j' l ending, c.jobAt k entry = some j' ∧ j'.state = .running ∧ j'.plan = some (l, ending) ∧ ending.over = true) ∨
          c = { s.chip with promoting := c.promoting, zeroing := c.zeroing, draws := c.draws }) ∧
      (∀ l ending, j.plan = some (l, ending) → ending.over = true → ∃ j', c.jobAt k entry = some j' ∧
        (j'.state.over = true ∨ ∃ n, j'.state = .running ∧ j'.plan = some (l.drop n, ending))))

/-- R227 to R229, R318 to R324: a walk puts the next word of a token in its ring, passes to the next page, ends with its
chain, and reads headers ahead; a contracting load starts, and each request adds its cell to the tile: for every column, the
products of its elements with the column's, by the rules of the tile's type. The elements of a dense cell and of a pad cell meet the
rows of R224, with the values of R103, where R225 lets the formats meet; a slot's resident rows are those of R224 and R237; and a job
uses one state of its slots (R240). -/
def Obligations.StreamEvents : Prop :=
  (∀ s k entry j head ring len limit credit h cw w key, s.chip.jobAt k entry = some j →
    j.kind = .kvwalk head ring len limit credit → j.state = .running → j.headers[j.pages]? = some h → h.bad = false →
    4 * j.inPage < h.ntok * h.tbytes → s.chip.poison = [] →
    (∃ sp e, Claims.JobSpot s j false credit 4 sp e ∧ cw = Mem.word s.chip.mem sp.key) →
    (BitVec.ofNat 32 (4 * j.landed + 4) - cw).toNat ≤ len →
    Claims.JobWord s j ((h.link &&& ~~~(0x1FFFFF : Dword)) + BitVec.ofNat 64 (64 + 4 * j.inPage)) w →
    Claims.JobDest s j (ring + BitVec.ofNat 64 (4 * j.landed % len)) 4 key →
    (isSliceKey key = true →
      ∀ sp e, Claims.JobSpot s j true (ring + BitVec.ofNat 64 (4 * j.landed % len)) 4 sp e → Claims.NoCopy s sp) →
    ∃ c v, exec (.kvwalkWordWrite k entry) s = .next { s with chip := c } ∧ Claims.SameThreads s.chip c ∧
      Claims.Wrote s.chip.mem c.mem key (bytesOfWord w) ∧ c.isFull key = true ∧
      c.jobAt k entry = some { j with landed := j.landed + 1, inPage := j.inPage + 1, wrote := v }) ∧
  (∀ s k entry j head ring len limit credit, s.chip.jobAt k entry = some j → j.kind = .kvwalk head ring len limit credit →
    j.state = .running →
    (∀ h, j.headers[j.pages]? = some h → h.bad = false → h.ntok * h.tbytes ≤ 4 * j.inPage →
      exec (.kvwalkWordWrite k entry) s = .next (Claims.putJob s { j with pages := j.pages + 1, inPage := 0 })) ∧
    (j.tied = none → j.headers[j.pages]? = none → j.nextLink head = 0 →
      ∃ c, exec (.kvwalkWordWrite k entry) s = .next { s with chip := c } ∧ Claims.SameThreads s.chip c ∧
        c.jobAt k entry = some { j with state := .done } ∧ c.mem = s.chip.mem) ∧
    (∀ h, j.tied = none → j.headers[j.pages]? = some h → h.bad = true →
      exec (.kvwalkWordWrite k entry) s = .next (Claims.putJob s { j with state := .faulted Cause.kvLink })) ∧
    (j.tied = none → j.headers[j.pages]? = none → j.nextLink head ≠ 0 → j.pages = limit →
      exec (.kvwalkWordWrite k entry) s = .next (Claims.putJob s { j with state := .faulted Cause.kvLink }))) ∧
  (∀ s k entry j head ring len limit credit (w : List Word), s.chip.jobAt k entry = some j →
    j.kind = .kvwalk head ring len limit credit → j.state = .running → j.headers.length ≤ j.pages + 4 →
    j.headers.length < limit → (∀ h, j.headers.getLast? = some h → h.bad = false) →
    let link := j.nextLink head
    link ≠ 0 → badLink link = false → w.length = 5 →
    (∀ i, i < 5 → Claims.JobWord s j ((link &&& ~~~(0x1FFFFF : Dword)) + BitVec.ofNat 64 (4 * i)) (w.getD i 0)) →
    let h := judgeHeader s.mgmt link j.headers w
    ∃ c, exec (.kvwalkHeaderPrefetch k entry) s = .next { s with chip := c } ∧ Claims.SameThreads s.chip c ∧
      c.jobAt k entry = some { j with headers := j.headers ++ [h] } ∧ c.mem = s.chip.mem ∧
      (∀ sp e, h.bad = false → Claims.JobSpot s j false (link &&& ~~~(0x1FFFFF : Dword)) 4 sp e → entryTier e = 1 →
        pageOf sp.loc ∈ c.promoting)) ∧
  (∀ (g : Mgmt) (link : Dword) (earlier : List KvHeader) (w : List Word), w.length = 5 →
    let h := judgeHeader g link earlier w
    h.link = link ∧ h.next = (w.getD 1 0) ++ (w.getD 0 0) ∧ h.ntok = (w.getD 2 0).toNat ∧ h.tbytes = (w.getD 3 0).toNat ∧
      (h.bad = true ↔ (w.getD 4 0).toNat % 2 ^ 16 ≠ link.toNat % 2 ^ 16 ∨ h.tbytes % 64 ≠ 0 ∨ h.tbytes < 64 ∨
        2 ^ 20 < h.tbytes ∨ (∃ x ∈ earlier, x.tbytes ≠ h.tbytes ∨ Claims.SamePage g x.link link) ∨
        (2 ^ 21 - 64) / h.tbytes < h.ntok)) ∧
  (∀ s k entry j p x, s.chip.jobAt k entry = some j → j.kind = .cld p → j.state = .queued →
    s.chip.tile j.task p.acc.toNat = some x →
    (∀ y ∈ s.chip.jobs.takeWhile fun y => !(decide (y.cluster = j.cluster) && decide (y.entry = j.entry)),
      y.loads j.task p.acc = false) →
    exec (.cldJobStart k entry) s =
      .next (Claims.putJob { s with chip := s.chip.setTile { x with cov := 0 } } { j with state := .running })) ∧
  (∀ s k entry (r : BitVec 6) j p x l, s.chip.jobAt k entry = some j → j.kind = .cld p → j.state = .running → j.tied = none →
    s.chip.tile j.task p.acc.toNat = some x → r.toNat < p.count → x.cov.getLsbD r.toNat = false →
    (p.ord = true → ∀ i, i < r.toNat → x.cov.getLsbD i = true) → s.chip.poison = [] →
    let cl := s.chip.loadCluster j
    (p.address r.toNat = none ∧ l = padCell p cl x.t (r.toNat % p.cells) ∨
      ∃ a sp e bs, p.address r.toNat = some a ∧ Claims.JobSpot s j false a 64 sp e ∧ (isSliceKey sp.key = true ∨ e.getLsbD 43 = true ∧ s.chip.hist = []) ∧
        (∀ i, i < 16 → ∃ v, Claims.JobWord s j (a + BitVec.ofNat 64 (4 * i)) v ∧
          bytesOfWord v = ((bs : List Byte).drop (4 * i)).take 4) ∧ bs.length = 64 ∧
        streamCell p cl x.t (r.toNat % p.cells) bs [] = some l) →
    (∀ e ∈ l, e.zeroed = false) → meetsDamage cl l = false →
    ∃ c y, exec (.cldCellAdd k entry r) s = .next { s with chip := c } ∧ c.tid = s.chip.tid ∧ c.t = s.chip.t ∧
      c.others = s.chip.others ∧ c.mem = s.chip.mem ∧ c.tile j.task p.acc.toNat = some y ∧
      y.cov = x.cov ||| (1#64 <<< r.toNat) ∧ y.d = true ∧ y.elems = (x.addCell cl p.isat (p.row r.toNat) l).elems ∧
      (∃ j', c.jobAt k entry = some j' ∧
        j'.state = if (List.range p.count).all (fun i => y.cov.getLsbD i) then .done else .running)) ∧
  (∀ (x : Tile) cl isat r l i, i < 256 → r < 16 →
    let old := x.elems.getD i 0
    let new := (x.addCell cl isat r l).elems.getD i 0
    let products := columnProducts cl l (i % 16)
    let sum := old.toInt + (products.map Value.whole).sum
    (i / 16 ≠ r → new = old) ∧
    (i / 16 = r → x.t = true → new = BitVec.ofInt 32 (if isat then max (-(2 ^ 31)) (min (2 ^ 31 - 1) sum) else sum)) ∧
    (i / 16 = r → x.t = false → ∃ p, Claims.Partial (products.map Claims.numOf) p ∧ Claims.Added old p new)) ∧
  (∀ neg (n : Nat) (e : ℤ), 0 ≤ e → Claims.numOf (.fin neg n e) = .fin neg ((Value.fin neg n e).whole : ℚ)) ∧
  (∀ cl l n, (columnProducts cl l n).map Claims.numOf = l.filterMap fun e =>
    ((cl.slot e.slot).resident n e.row).map fun b => (Claims.times (Claims.numOf e.value) (Claims.numOf b)).getD .nan) ∧
  (∀ (p : CldJob) cl int32 kk (bs : List Byte) f, Claims.denseFmt (bs.getD 0 0) = some f →
    let base := p.slot.toNat
    let ratio := match p.form, (cl.slot base).pattern with | 2#2, some (n, m, _) => m / n | _, _ => 1
    p.form ≠ 3 →
    let at_ := base + kk / ratio
    ((streamCell p cl int32 kk bs []).isSome = true ↔ Claims.Agrees (bs.getD 0 0) (bs.getD 1 0) (cl.slot at_).fmt int32) ∧
    ∀ l, streamCell p cl int32 kk bs [] = some l → l.length = Claims.countOf f ∧ ∀ i, i < Claims.countOf f →
      ∃ v, l[i]? = some ⟨at_, kk % ratio * Claims.countOf f + i, v, false⟩ ∧ Claims.numOf v = Claims.valueOf bs f i) ∧
  (∀ (p : CldJob) cl int32 kk f, Claims.denseFmt (cl.slot (p.slot.toNat + kk)).fmt = some f →
    (padCell p cl int32 kk).length = Claims.countOf f ∧ ∀ i, i < Claims.countOf f →
      ∃ v, (padCell p cl int32 kk)[i]? = some ⟨p.slot.toNat + kk, i, v, false⟩ ∧
        Claims.numOf v = Claims.decoded (if int32 then .int 32 0x13 else .float Claims.fp32) p.padv.toNat) ∧
  (∀ (s : Slot) n row f, Claims.denseFmt s.fmt = some f →
    let k := s.column n
    k.damaged = [] →
    (s.pattern = none → (row < Claims.countOf f → ∃ v, s.resident n row = some v ∧ Claims.numOf v = Claims.valueOf k.cell f row) ∧
      (Claims.countOf f ≤ row → s.resident n row = none)) ∧
    (∀ N M v, s.pattern = some (N, M, v) →
      let L := M / N * Claims.countOf f / (M * v) * (M * v)
      let kept (u : Nat) : Bool := k.bitmap.getLsbD u
      (L ≤ row ∨ kept (row / v) = false → s.resident n row = none) ∧
      (row < L → kept (row / v) = true → ∃ x, s.resident n row = some x ∧
        Claims.numOf x = Claims.valueOf k.cell f ((List.range (row / v)).countP kept * v + row % v)))) ∧
  (∀ (c : Chip) (j : Job) n, n < 8 → let now := (c.cluster j.cluster).slot n
    let old := j.slots.getD n now
    ((c.loadCluster j).slot n).fmt = old.fmt ∧ ((c.loadCluster j).slot n).pattern = old.pattern ∧
      ((c.loadCluster j).slot n).columns.map (fun k => (k.cell, k.bitmap)) = old.columns.map fun k => (k.cell, k.bitmap))

/-- R20, R156 to R159, R161, R162, R37: sqk refuses a bad length and disarms, and installs code that passes its checks;
sqarm arms a kernel, and says where there is none or a bit that must be 0 is set; sqoff disarms and says whether a
kernel was armed; sqpf and sqend outside a kernel are ILLEGAL; an event of an armed kernel runs it with y0 = 0 and the
y1 of the event, and drops the events of its thread before it: its registers follow its instructions, and sqpf asks for lines;
a line asked for is filled where it may be kept, in one of the 64 of its core, serves a plain load or gives way to memory, and
is dropped. The model's choice: a run is one step (log 38). -/
def Obligations.SquirrelResults : Prop :=
  (∀ s la xd xa xb, Claims.Alone s 4 → s.chip.t.getX xb = 0 ∨ 128 < (s.chip.t.getX xb).toNat →
    ∃ c, Claims.Books s.chip c ∧ exec (.sqk la xd xa xb) s = .next { s with chip := { c with
      t := Claims.arrived { s.chip.t with squirrel := { s.chip.t.squirrel with armed := none } } la (.x xd) (.x 1) 0 0 } }) ∧
  (∀ s la xd xa xb c code, Claims.Alone s 4 → s.chip.t.getX xb ≠ 0 → (s.chip.t.getX xb).toNat ≤ 128 →
    Chip.readHalves s.mgmt s.chip.issuer [] (s.chip.t.getX xb).toNat (s.chip.t.getX xa) [] s.chip = (.ok code, c) →
    c.t = s.chip.t → c.tid = s.chip.tid →
    ∃ st : Nat, Claims.CodeStatus 8 true code st ∧ exec (.sqk la xd xa xb) s = .next { s with chip := { c with
      triggers := c.triggers.filter (fun e => decide (e.1 ≠ s.chip.tid))
      t := Claims.arrived { s.chip.t with squirrel := { s.chip.t.squirrel with
          armed := none, kernel := if st = 0 then some code else s.chip.t.squirrel.kernel
          base := if st = 0 then s.chip.t.getX xa else s.chip.t.squirrel.base } }
        la (.x xd) (.x (BitVec.ofNat 64 st)) 0 0 } }) ∧
  (∀ s la xd xa xb, Claims.Alone s 4 →
    let w := s.chip.t.getX xa
    let q := s.chip.t.squirrel
    let st : Dword := if q.kernel = none then 1 else if w.extractLsb' 2 4 ≠ 0 ∨ w.extractLsb' 32 32 ≠ 0 then 2 else 0
    ∃ c, Claims.Books s.chip c ∧ exec (.sqarm la xd xa xb) s = .next { s with chip := { c with
      t := Claims.arrived { s.chip.t with squirrel := { q with
          y := [0, q.y.getD 1 0, s.chip.t.getX xb, 0, 0, 0, 0, 0]
          armed := if st = 0 then some ⟨w.extractLsb' 0 2, s.chip.t.getX (xa + 1), (w.extractLsb' 6 26).toNat⟩ else q.armed } }
        la (.x xd) (.x st) 0 0 } }) ∧
  (∀ s la xd, Claims.Alone s 4 → ∃ c, Claims.Books s.chip c ∧ exec (.sqoff la xd) s = .next { s with chip := { c with
    t := Claims.arrived { s.chip.t with squirrel := { s.chip.t.squirrel with armed := none } } la (.x xd)
      (.x (if s.chip.t.squirrel.armed = none then 0 else 1)) 0 0 } }) ∧
  (∀ s ya, s.chip.t.squirrel.running = false →
    Claims.Traps (.sqpf ya) s Cause.illegal s.chip.t.stopPc (instrWord (.sqpf ya)) ∧
    Claims.Traps .sqend s Cause.illegal s.chip.t.stopPc (instrWord .sqend)) ∧
  (∀ s ya, s.chip.t.squirrel.running = true → (∃ c, Claims.Books s.chip c ∧ c.t = s.chip.t ∧
      exec (.sqpf ya) s = .next { s with chip := c }) ∧
    exec .sqend s = .next (Claims.withThread s { s.chip.t with squirrel := { s.chip.t.squirrel with running := false } })) ∧
  (∀ s t y1 code arm n, let q := (s.chip.thread t).squirrel
    q.kernel = some code → q.armed = some arm → (t, y1) ∈ s.chip.triggers → smallDecode code = some (.sqend, n) → code ≠ [] →
    ∃ c, exec (.squirrelRun t y1) s = .next { s with chip := c } ∧
      c.thread t = { s.chip.thread t with squirrel := { q with running := false, y := (q.y.set 0 0).set 1 y1 } } ∧
      (∀ u, u ≠ t → c.thread u = s.chip.thread u) ∧ c.mem = s.chip.mem ∧ c.tid = s.chip.tid ∧
      c.triggers = (s.chip.triggers.filter fun e => decide (e.1 ≠ t)) ++
        ((s.chip.triggers.filter fun e => decide (e.1 = t)).dropWhile fun e => decide (e.2 ≠ y1)).drop 1) ∧
  (∀ s t y1 code arm n y' l, let q := (s.chip.thread t).squirrel
    q.kernel = some code → q.armed = some arm → (t, y1) ∈ s.chip.triggers → q.y.length = 8 → code.length ≤ 128 → s.chip.hist = [] →
    s.chip.poison = [] → (∀ h ∈ s.chip.hoard, h.owner ≠ t) →
    Claims.KernelRun s t q.base code 0 ((q.y.set 0 0).set 1 y1) n y' l → n ≤ 255 →
    ∃ c, exec (.squirrelRun t y1) s = .next { s with chip := c } ∧
      c.thread t = { s.chip.thread t with squirrel := { q with running := false, y := y' } } ∧
      (∀ u, u ≠ t → c.thread u = s.chip.thread u) ∧ c.mem = s.chip.mem ∧
      ∀ a ∈ l, s.chip.hoardable s.mgmt t a = true → (t, a &&& ~~~63) ∈ c.asked) ∧
  (∀ s t cell, (t, cell) ∈ s.chip.asked →
    let c := { s.chip with asked := s.chip.asked.erase (t, cell) }
    (c.hoardSpot s.mgmt t cell).1 = none → ∃ c', Claims.Books s.chip c' ∧ c'.hoard = s.chip.hoard ∧
      c'.asked = c.asked ∧ exec (.hoardFill t cell) s = .next { s with chip := c' }) ∧
  (∀ s t cell sp, (t, cell) ∈ s.chip.asked →
    let c := { s.chip with asked := s.chip.asked.erase (t, cell) }
    (c.hoardSpot s.mgmt t cell).1 = some sp → (∀ h ∈ s.chip.hoard, h.owner = t → h.cell ≠ globalOf sp.loc) →
    (∀ w, w % 4 = 0 → sp.loc ≤ w → w < sp.loc + 64 → Claims.Seen s.chip (s.chip.thread t).agentId w) →
    let here (x : HoardLine) : Bool := decide (x.owner.coreId = t.coreId)
    ∃ c' h, Claims.Books s.chip c' ∧ exec (.hoardFill t cell) s = .next { s with chip := c' } ∧ c'.asked = c.asked ∧
      h.owner = t ∧ h.cell = globalOf sp.loc ∧
      h.words.map Prod.fst = (List.range 16).map (fun i => Mem.word s.chip.mem (sp.key + 4 * i)) ∧
      c'.hoard = (if (s.chip.hoard.filter here).length < 64 then s.chip.hoard else s.chip.hoard.eraseP here) ++ [h]) ∧
  (∀ s i la xd a sp h w ver, Claims.Load s.chip.t i la xd a 4 → Claims.Alone s 4 → a.toNat % 4 = 0 →
    Claims.At s .read false a 4 sp → s.chip.anyPoison sp.key 4 = false → Claims.SeenBytes s sp.loc 4 →
    s.chip.hoard.find? (fun x => decide (x.owner = s.chip.tid) && decide (x.cell = globalOf (sp.loc / 64 * 64))) = some h →
    h.words[sp.loc % 64 / 4]? = some (w, ver) →
    let r := s.chip.agent s.chip.t.agentId
    max (r.view.get sp.loc) (r.reads.get sp.loc) ≤ (ver.map Version.id).getD 0 →
    ∃ c v, Claims.Books s.chip c ∧ (v = Claims.sext w ∨ v = Claims.sext (Mem.word s.chip.mem sp.key)) ∧
      exec i s = .next { s with chip := { c with t := Claims.arrived s.chip.t la (.x xd) (.x v) 0 0 } }) ∧
  (∀ s t cell, exec (.hoardDrop t cell) s = .next { s with chip := { s.chip with
    hoard := s.chip.hoard.filter fun h => !(decide (h.owner = t) && decide (h.cell = cell)) } })

end

namespace Sys2Proof.Claims
open Sys2Proof.Machine

/-! ## Events of launches and of the scheduler (R245, R248 to R258, R300, R343, R344) -/

/-- Every thread but t is as it was; the one that acted, where it differed from its state after reset. -/
def Kept (s : State) (c : Chip) (t : TId) : Prop :=
  (∀ u, u ≠ t → u ≠ s.chip.tid → c.thread u = s.chip.thread u) ∧
    (t ≠ s.chip.tid → s.chip.t ≠ Thread.reset → c.thread s.chip.tid = s.chip.t)

/-- An item runs on a thread that was FREE: READY at its entry with x1 the end link, its arguments from x10 on and every other
register 0, its identity, its key, a frame of its die's pool, and its slice bytes zeroed, with the whole of each block new to
its launch, which takes its key (R80, R118, R178, R180, R244, R301). -/
structure Started (s : State) (c : Chip) (t : TId) (i : Item) : Prop where
  here : c.tid = t
  others : Kept s c t
  ready : c.t.run = .ready ∧ c.t.pc = i.entry ∧ c.t.sup = reservedCluster t.cluster ∧ c.t.handler = none ∧ c.t.pend = []
  regs : ∀ r : Reg, c.t.getX r = if r = 1 then endLink else if 10 ≤ r.toNat ∧ r.toNat < 10 + i.args.length then
    i.args.getD (r.toNat - 10) 0 else 0
  masks : (∀ r, c.t.getV r = ⟨0, 0, 0, 0, 0, 0, 0, 0⟩) ∧ ∀ r, r ≠ 0 → c.t.getM r = 0
  identity : c.t.csr.tile = i.tile ∧ c.t.csr.org = i.org ∧ c.t.csr.ext = i.ext ∧ c.t.csr.ldkey = i.key
  frame : ∃ f, f < (s.chip.die t.die).fpcount.toNat ∧ f ∉ (s.chip.die t.die).fptaken ∧ f ∈ (c.die t.die).fptaken ∧
    c.t.csr.tframe = (s.chip.die t.die).fpbase + BitVec.ofNat 64 (2048 * f)
  task : ∃ off, c.t.task = some ⟨i.id, i.launch, i.counter, i.tiles, i.res, off, i.slice, i.rgn⟩ ∧
    (0 < i.slice → off % 64 = 0 ∧ off + i.slice ≤ 0xF000 ∧ c.t.csr.lwin.head? =
      some (BitVec.ofNat 64 (3 * 2 ^ 40 + (off + i.slice) * 2 ^ 16 + off)) ∧
      (∀ o, off ≤ o → o < off + i.slice → Mem.get c.mem (sliceKey t.coreId o) = 0) ∧
      ∀ b, off / 4096 ≤ b → 4096 * b < off + i.slice → (s.chip.core t.coreId).keys.length = 15 →
        (s.chip.core t.coreId).owners.getD b none = none → (c.core t.coreId).keys.getD b 0 = i.key ∧
        ∀ o, o < 4096 → Mem.get c.mem (sliceKey t.coreId (4096 * b + o)) = 0) ∧
    (i.slice = 0 → c.t.csr.lwin = [0, 0, 0, 0] ∧ c.mem = s.chip.mem)
  tiles : ∀ n, n < i.tiles → n < 4 → ∃ x, c.tile i.id n = some x ∧ x.v = false ∧ x.d = false
  regions : (c.core t.coreId).rgn = i.rgn

/-- With these bytes in memory, no free frame of a die lies in a page that is away or still to be zeroed (R90, R92). -/
def PoolHome (s : State) (die : BitVec 3) (mem : List Host.Cell) : Prop :=
  ∀ f ∈ s.chip.framesFree die, ∀ h d off e, h = 0 ∨ h = 1024 →
    homeHeap s.mgmt ((s.chip.die die).fpbase + BitVec.ofNat 64 (2048 * f + h)) = some (d, off) →
    (∃ p, walk mem d (s.chip.die d).etroot off false = .leaf e p) ∨
      heldLeaf (s.chip.die d).spans (off / 2 ^ 21) false = some e → entryTier e ≠ 2 ∧ entryZero e = false

/-- An item fits on a thread that is FREE (R256): the thread, a frame, tiles, slice bytes, regions, THREADS and slots. -/
def Fits (s : State) (t : TId) (i : Item) : Prop :=
  s.chip.isFree t = true ∧ s.chip.framesFree t.die ≠ [] ∧ s.chip.canTake t.coreId i none = true ∧ i.args.length ≤ 6 ∧
    i.slice ≤ 61440 ∧ (∀ x ∈ s.chip.tiles, x.task ≠ i.id) ∧ PoolHome s t.die s.chip.mem

/-- The tiles of a cluster's pool that are not to be had: those that a thread's task, or a job queued or running, holds there (R221,
R256, R299). -/
def tilesHeld (s : State) (k : CId) : Nat := (s.chip.tiles.filter fun x =>
  decide (x.cluster = k) && !x.spilled && ((s.chip.threadOf x.task).isSome || s.chip.tileBusy x)).length

/-- R88 and THREADS: every task that holds a thread of a core carries these region values, and those of the launch are fewer than it
allows (R256). -/
def CoreOpen (s : State) (k : CoreId) (rgn : List Dword) (launch : Nat) : Prop :=
  (∀ e ∈ s.chip.threadsOf k, ∀ t ∈ e.2.task, t.rgn = rgn) ∧
    ((s.chip.threadsOf k).filter fun e => decide (e.2.task.map Task.launch = some launch)).length <
      ((s.chip.launchOf launch).map Launch.threads).getD 16

/-- Slice bytes of a core are free for a launch: a range of them that no task holds, in blocks that are free or the launch's (R80,
R81, R118). -/
def SliceFree (s : State) (k : CoreId) (launch n : Nat) : Prop :=
  n = 0 ∨ ∃ off, off % 64 = 0 ∧ off + n ≤ 0xF000 ∧
    (∀ e ∈ (s.chip.core k).grants, off + n ≤ e.2.1 ∨ e.2.1 + e.2.2 ≤ off) ∧
    ∀ b, off / 4096 ≤ b → 4096 * b < off + n →
      ((s.chip.core k).keys.getD b 0 = 0 ∧ (s.chip.core k).owners.getD b none = none) ∨
        (s.chip.core k).owners.getD b none = some launch

/-- An item can be taken by a thread of a core: the four conditions of R256, with the rules of slots (R220) and of reserved clusters
(R304). -/
structure Takeable (s : State) (k : CoreId) (i : Item) : Prop where
  tiles : tilesHeld s k.cluster + i.tiles ≤ 32
  slice : SliceFree s k i.launch i.slice
  open_ : CoreOpen s k i.rgn i.launch
  slots : i.res = 0 ∨ (s.chip.cluster k.cluster).holder = none ∨ (s.chip.cluster k.cluster).holder = some i.launch
  reserved : reservedCluster k.cluster = true ↔ i.launch = 0

/-- A saved task can be taken by a thread of a core: in the cluster where it was saved, on its own core where its pairs allow
something, by the conditions of R256 (R247), and never with UNREST 1 (R303). -/
structure Restorable (s : State) (k : CoreId) (x : Saved) : Prop where
  sound : (frameDword x.image 0).getLsbD 7 = false
  place : x.cluster = k.cluster ∧ (x.pinned = true → x.core = k.core)
  tiles : tilesHeld s k.cluster +
    (s.chip.tiles.filter fun y => decide (y.task = x.task.id) && (y.spilled || !s.chip.tileBusy y)).length ≤ 32
  open_ : CoreOpen s k x.task.rgn x.task.launch

/-- What a thread of a core may take next of its Dispenser, hints and deque. -/
def Next (s : State) (k : CoreId) (i : Item) : Prop :=
  (s.chip.cluster k.cluster).modeZero.head? = some i ∨ (s.chip.cluster k.cluster).hints.head? = some i ∨
    (s.chip.core k).deque.getLast? = some i

/-- A saved task is taken under source 1: it is ready; or `yield` saved it, and of what then waited nothing can be taken (R263). -/
def Ready (s : State) (k : CoreId) (x : Saved) : Prop :=
  Restorable s k x ∧ (x.resume = .ready ∨ ∃ left, x.resume = .yielded left ∧
    (∀ y ∈ s.chip.saved, (y.resume = .ready ∨ ∃ l, y.resume = .yielded l) → y.task.id ∈ left → ¬ Restorable s k y) ∧
    ∀ i, Next s k i → i.id ∈ left → ¬ Takeable s k i)

/-- A launch descriptor's fields are within the limits of R248, and its hint is whole or absent (R250). -/
structure ArgsFit (d : Descriptor) : Prop where
  entry : d.entry.toNat % 2 = 0
  size : (∀ n ∈ d.size, 1 ≤ n) ∧ ∀ n ∈ d.grid, 1 ≤ n
  threads : 1 ≤ d.threads
  steal : d.steal ≤ 2
  slice : d.slice % 64 = 0
  prio : d.prio ≤ 7
  token : d.token = 0 ∨ (d.token.toNat % 8 = 0 ∧ d.token.getLsbD 51 = false)
  hint : (d.hintX = 0xFFFF ∧ d.hintY = 0xFFFF) ∨ (d.hintX < 200 ∧ d.hintY < 100)
  rgn : ∀ r ∈ d.rgn, r.toNat % 2 ^ 18 = 0
  reserved : d.reserved = 0

/-- What a descriptor asks for can be had of a core and a cluster (R250). -/
def ResourcesFit (d : Descriptor) : Prop :=
  d.threads ≤ 16 ∧ d.tiles ≤ 4 ∧ d.res ≤ 8 ∧ d.threads * d.tiles ≤ 32 ∧ d.threads * d.slice ≤ 61440

/-- A saved task after another has been taken: what its `yield` left waiting no longer counts that one (R263). -/
def taken (id : Nat) (k : Saved) : Saved :=
  match k.resume with
  | .yielded left => { k with resume := .yielded (left.filter fun n => decide (n ≠ id)) }
  | _ => k

/-- A task runs again on a thread from its frame, ST 0, with the key of its launch (R303, R305). -/
structure Restored (s : State) (c : Chip) (t : TId) (k : Saved) (key : Nat) : Prop where
  here : c.tid = t
  others : Kept s c t
  thread :
    let u := Thread.fromFrame k.image k.task k.frame k.accesses k.report
    c.t = { u with csr := { u.csr with ldkey :=
      ((s.chip.launches.find? fun l => decide (l.id = k.task.launch)).map Launch.key).getD u.csr.ldkey } }
  frame : Mem.dword c.mem key = BitVec.ofNat 64 ((frameDword k.image 0).toNat / 8 * 8) ∧
    ∀ a, a < key ∨ key + 8 ≤ a → Mem.get c.mem a = Mem.get s.chip.mem a
  saved : c.saved = (s.chip.saved.filter fun x => decide (x.task.id ≠ k.task.id)).map (taken k.task.id)
  regions : (c.core t.coreId).rgn = k.task.rgn

/-- Eight bytes at each of these keys hold no entry by which these addresses are found. -/
def EntriesKept (s : State) (as : List Dword) (keys : List Nat) : Prop :=
  ∀ m : List Host.Cell, (∀ x, (∀ k ∈ keys, x < k ∨ k + 8 ≤ x) → Mem.get m x = Mem.get s.chip.mem x) →
    ∀ a ∈ as, ∀ d off, homeHeap s.mgmt a = some (d, off) →
      walk m d (s.chip.die d).etroot off false = walk s.chip.mem d (s.chip.die d).etroot off false

/-- The words of a launch's TOKEN, where its token is written: none for no TOKEN, or for one that is not 8-aligned, whose loss a
full log drops (R251). -/
def TokenAt (s : State) (l : Launch) (ring : List Dword) (key : Nat) (w : Option Spot) : Prop :=
  (w = none ∧ (l.token = 0 ∨ l.token.toNat % 8 ≠ 0 ∧ (s.chip.die l.die).logsize = 0)) ∨
  ∃ tk, w = some tk ∧ l.token ≠ 0 ∧ l.token.toNat % 8 = 0 ∧ OutsideAt s outsideTid l.token true tk ∧ NoCopy s tk ∧
    EntriesKept s ring [tk.key, key] ∧ (tk.key + 8 ≤ key ∨ key + 16 ≤ tk.key)

/-- The launches of a queue that are over, in the order of their completion. -/
def firstOver (s : State) (l : Launch) : Option Launch :=
  s.chip.launches.find? fun x => x.finished && decide (x.die = l.die) && decide (x.queue = l.queue)

/-- A completion token (R251). -/
def token (l : Launch) : Dword :=
  match l.rejected with
  | some cause => BitVec.ofNat 64 (3 * 2 ^ 62 + cause.toNat * 2 ^ 48)
  | none => BitVec.ofNat 64 (2 * 2 ^ 62 + l.started.length % 2 ^ 32)

/-- No thread waits for an access. -/
def NoWaits (s : State) : Prop :=
  ∀ e ∈ s.chip.others, e.2.pend = [] ∧ ∀ d acc l n w la, e.2.run ≠ .wait (.access d acc l n w la)

end Sys2Proof.Claims

section
open Sys2Proof Sys2Proof.Machine

/-- R248, R250, R251, R343, R344: the Launch Unit reads a queue's entry and its descriptor, admits the launch or
rejects it with its cause, none where every field is within the limits of R248 and its demands can be met, and LQCONS goes on; a tile's task starts on a thread that it fits; the token of a launch
that is over goes to its TOKEN, and to its ring behind its address, CQHEAD goes on, and the vector is sent. The model's choices: a
launch's number (log 56); a TOKEN that is not 8-aligned is lost with MISALIGN (log 36). -/
def Obligations.LaunchResults : Prop :=
  (∀ s die queue (spots : Nat → Spot) (sp : Spot), let q := (s.chip.die die).queue queue
    queue.toNat < (s.chip.die die).queues.length → q.lqcons ≠ q.lqprod → q.lqsize ≠ 0 → s.chip.poison = [] →
    let a := q.lqbase + BitVec.ofNat 64 (q.lqcons.toNat % q.lqsize.toNat * 8)
    let desc := Mem.dword s.chip.mem sp.key
    Claims.OutsideAt s outsideTid a false sp → Claims.SeenBy s (.launchUnit die) sp 8 →
    (desc.toNat % 32 = 0 → ∀ i, i < 3 → Claims.OutsideAt s outsideTid (desc + BitVec.ofNat 64 (32 * i)) false (spots i) ∧
      Claims.SeenBy s (.launchUnit die) (spots i) 32) →
    let d := Descriptor.ofBytes (((List.range 3).map fun i => Mem.bytes s.chip.mem (spots i).key 32).flatten)
    ∃ c l, exec (.launchQueueRead die queue) s = .next { s with chip := c } ∧ c.launches = s.chip.launches ++ [l] ∧
      c.mem = s.chip.mem ∧ c.t = s.chip.t ∧ c.others = s.chip.others ∧ c.nextTask = s.chip.nextTask + 1 ∧
      (c.die die).queues = (s.chip.die die).queues.set queue.toNat { q with lqcons := q.lqcons + 1 } ∧
      l.id = s.chip.nextTask ∧ l.die = die ∧ l.queue = queue ∧ l.desc = desc ∧ l.started = [] ∧
      (desc.toNat % 32 ≠ 0 → l.rejected = some Cause.launchArg ∧ l.finished = true) ∧
      (desc.toNat % 32 = 0 → l.rejected = d.rejection ∧ l.finished = d.rejection.isSome ∧ l.entry = d.entry ∧ l.size = d.size ∧
        l.grid = d.grid ∧ l.threads = d.threads ∧ l.tiles = d.tiles ∧ l.res = d.res ∧ l.steal = d.steal ∧ l.slice = d.slice ∧
        l.prio = d.prio ∧ l.rgn = d.rgn ∧ l.token = d.token ∧
        l.hint = (if d.hintX = 0xFFFF then none else some (d.hintX, d.hintY, d.hintR)) ∧ (d.rejection = none → d.key ≠ 0 → l.key = BitVec.ofNat 16 d.key))) ∧
  (∀ d : Descriptor, (¬ Claims.ArgsFit d → d.rejection = some Cause.launchArg) ∧
    (Claims.ArgsFit d → ¬ Claims.ResourcesFit d → d.rejection = some Cause.launchResource) ∧
    (Claims.ArgsFit d → Claims.ResourcesFit d → d.rejection = none)) ∧
  (∀ bs : List Byte, bs.length = 96 →
    let d := Descriptor.ofBytes bs
    let at_ (n i : Nat) : Nat := natOfBytes ((bs.drop i).take n)
    d.entry = BitVec.ofNat 64 (at_ 8 0) ∧ d.size = [8, 12, 16, 20].map (at_ 4) ∧ d.grid = [24, 26, 28, 30].map (at_ 2) ∧
      d.threads = at_ 1 32 ∧ d.tiles = at_ 1 33 ∧ d.res = at_ 1 34 ∧ d.steal = at_ 1 35 ∧ d.slice = at_ 2 36 ∧ d.hintR = at_ 1 38 ∧
      d.prio = at_ 1 39 ∧ d.hintX = at_ 2 40 ∧ d.hintY = at_ 2 42 ∧ d.key = at_ 2 44 ∧ d.token = BitVec.ofNat 64 (at_ 8 48) ∧
      (d.reserved = 0 ↔ at_ 2 46 = 0 ∧ at_ 8 56 = 0) ∧ d.rgn = [64, 72, 80, 88].map fun i => BitVec.ofNat 64 (at_ 8 i)) ∧
  (∀ s launch tile t l, s.chip.launchOf launch = some l → l.rejected = none → tile ∉ l.started → tile < l.tasks →
    l.steal = 2 ∨ l.die = t.die → s.chip.firstSource t.coreId = none →
    let i := l.item s.chip.nextTask tile
    Claims.Fits s t i →
    ∃ c, exec (.launchTaskPlace launch tile t) s = .next { s with chip := c } ∧ Claims.Started s c t i ∧
      c.nextTask = s.chip.nextTask + 1 ∧ ∃ l', c.launchOf launch = some l' ∧ l'.started = l.started ++ [tile]) ∧
  (∀ (l : Launch) id tile, l.size.length = 4 → l.grid.length = 4 → (∀ n ∈ l.size ++ l.grid, 1 ≤ n) → tile < l.tasks →
    let i := l.item id tile
    i.id = id ∧ i.entry = l.entry ∧ i.args = [] ∧ i.launch = l.id ∧ i.key = l.key ∧ i.slice = l.slice ∧ i.tiles = l.tiles ∧
      ∀ n, n < 4 → ∃ e c, tileSize (l.size.getD n 0) (l.grid.getD n 0) = 2 ^ e ∧
        l.size.getD n 0 ≤ l.grid.getD n 0 * 2 ^ e ∧ (e = 0 ∨ l.grid.getD n 0 * 2 ^ (e - 1) < l.size.getD n 0) ∧
        i.tile.getD n 0 = BitVec.ofNat 32 c ∧ c * 2 ^ e < l.size.getD n 0 ∧ i.org.getD n 0 = BitVec.ofNat 32 (c * 2 ^ e) ∧
        i.ext.getD n 0 = BitVec.ofNat 32 (min (2 ^ e) (l.size.getD n 0 - c * 2 ^ e))) ∧
  (∀ s l (sa st : Spot) (w : Option Spot), let q := (s.chip.die l.die).queue l.queue
    s.chip.launches.find? (fun x => decide (x.id = l.id)) = some l → l.finished = true →
    (Claims.firstOver s l).map Launch.id = some l.id → q.cqsize ≠ 0 → l.queue.toNat < (s.chip.die l.die).queues.length →
    s.chip.poison = [] →
    let a := q.cqbase + BitVec.ofNat 64 (q.cqhead.toNat % q.cqsize.toNat * 16)
    Claims.OutsideAt s outsideTid a true sa → Claims.OutsideAt s outsideTid (a + 8) true st → Claims.NoCopy s sa →
    Claims.NoCopy s st → st.key = sa.key + 8 → Claims.SeenBy s (.launchUnit l.die) st 8 →
    (Mem.dword s.chip.mem st.key).toNat < 2 ^ 62 → Claims.EntriesKept s [a, a + 8] [sa.key] →
    Claims.TokenAt s l [a, a + 8] sa.key w →
    ∃ c, exec (.completionTokenWrite l.id) s = .next { s with chip := c } ∧
      Mem.bytes c.mem sa.key 16 = bytesOfDword l.desc ++ bytesOfDword (Claims.token l) ∧
      c.isFull st.key = true ∧ c.isFull (st.key + 4) = true ∧
      (∀ tk, w = some tk → Mem.bytes c.mem tk.key 8 = bytesOfDword (Claims.token l) ∧ c.isFull tk.key = true ∧
        c.isFull (tk.key + 4) = true) ∧
      (∀ x, x < sa.key ∨ sa.key + 16 ≤ x → (∀ tk, w = some tk → x < tk.key ∨ tk.key + 8 ≤ x) →
        Mem.get c.mem x = Mem.get s.chip.mem x) ∧ c.t = s.chip.t ∧ c.others = s.chip.others ∧
      (c.die l.die).queues = (s.chip.die l.die).queues.set l.queue.toNat { q with cqhead := q.cqhead + 1 } ∧
      (c.die l.die).loglost = (s.chip.die l.die).loglost + (if l.token.toNat % 8 = 0 then 0 else 1) ∧
      c.launches = s.chip.launches.filter (fun x => decide (x.id ≠ l.id)) ∧
      c.out = s.chip.out ++ (if q.cqvec.getLsbD 31 then [.msix (q.cqvec.extractLsb' 0 6)] else []))

/-- R245, R255, R256, R258, R263, R300, R303: a FREE thread takes work from the first source that has an item it can
take, saved tasks first, then the Dispenser's list, the hints and the deque, and leaves those behind it; what can be taken is what the
conditions of R256, with R88, R220 and R247, let it take, but never a saved task whose frame has UNREST 1; a hinted item moves a hop along cx, then along cy, and joins the list of
its cluster; pre-emption saves a task of lower priority and starts the launch's next one in its place, where that one lacks only
a FREE thread, tiles or slice bytes; a task whose jobs are over ends. The model's choice: pre-emption is one step (log 57). -/
def Obligations.SchedulerResults : Prop :=
  (∀ s k i, s.chip.canTake k i none = true ↔ Claims.Takeable s k i) ∧
  (∀ s k,
    (∀ l x r, s.chip.saved = l ++ x :: r → (∀ y ∈ l, ¬ Claims.Ready s k y) → Claims.Ready s k x →
      s.chip.firstSource k = some (.saved x.task.id)) ∧
    ((∀ x ∈ s.chip.saved, ¬ Claims.Ready s k x) →
      let takes (o : Option Item) : Prop := ∃ i, o = some i ∧ Claims.Takeable s k i
      let zero := (s.chip.cluster k.cluster).modeZero.head?
      let hint := (s.chip.cluster k.cluster).hints.head?
      let bottom := (s.chip.core k).deque.getLast?
      (takes zero → s.chip.firstSource k = some .modeZero) ∧
      (¬ takes zero → takes hint → s.chip.firstSource k = some .hint) ∧
      (¬ takes zero → ¬ takes hint → takes bottom → s.chip.firstSource k = some .deque) ∧
      (¬ takes zero → ¬ takes hint → ¬ takes bottom → s.chip.firstSource k = none))) ∧
  (∀ s t src, s.chip.firstSource t.coreId ≠ some src → (src = .modeZero ∨ src = .hint ∨ src = .deque ∨ ∃ n, src = .saved n) →
    exec (.takeWork t src) s = .next s) ∧
  (∀ s t victim launch tile, s.chip.firstSource t.coreId ≠ none →
    exec (.takeWork t (.steal victim)) s = .next s ∧ exec (.launchTaskPlace launch tile t) s = .next s) ∧
  (∀ s t i rest, s.chip.firstSource t.coreId = some .modeZero → (s.chip.cluster t.cluster).modeZero = i :: rest →
    Claims.Fits s t i → ∃ c, exec (.takeWork t .modeZero) s = .next { s with chip := c } ∧ Claims.Started s c t i ∧
      (c.cluster t.cluster).modeZero = rest) ∧
  (∀ s t i rest, s.chip.firstSource t.coreId = some .hint → (s.chip.cluster t.cluster).hints = i :: rest →
    Claims.Fits s t i → ∃ c, exec (.takeWork t .hint) s = .next { s with chip := c } ∧ Claims.Started s c t i ∧
      (c.cluster t.cluster).hints = rest) ∧
  (∀ s t i front, s.chip.firstSource t.coreId = some .deque → (s.chip.core t.coreId).deque = front ++ [i] →
    Claims.Fits s t i → ∃ c, exec (.takeWork t .deque) s = .next { s with chip := c } ∧ Claims.Started s c t i ∧
      (c.core t.coreId).deque = front) ∧
  (∀ s t victim i rest, s.chip.firstSource t.coreId = none → victim ≠ t.coreId → (s.chip.core victim).deque = i :: rest →
    s.chip.inDomain i.launch victim.cluster t.cluster = true → Claims.Fits s t i →
    ∃ c, exec (.takeWork t (.steal victim)) s = .next { s with chip := c } ∧ Claims.Started s c t i ∧
      (c.core victim).deque = rest) ∧
  (∀ s t (w : Walk), s.chip.walks.find? (fun x => decide (x.item.id = w.item.id)) = some w → w.here = t.cluster →
    w.here.cx + w.here.cy ≤ w.target.cx + w.target.cy + w.radius → w.target.cx + w.target.cy ≤ w.here.cx + w.here.cy + w.radius →
    w.here.cx + w.target.cy ≤ w.target.cx + w.here.cy + w.radius → w.target.cx + w.here.cy ≤ w.here.cx + w.target.cy + w.radius →
    (∀ n, s.chip.firstSource t.coreId ≠ some (.saved n)) → Claims.Fits s t w.item →
    ∃ c, exec (.takeWork t (.walk w.item.id)) s = .next { s with chip := c } ∧ Claims.Started s c t w.item ∧
      c.walks = s.chip.walks.filter fun x => decide (x.item.id ≠ w.item.id)) ∧
  (∀ s t k key, s.chip.firstSource t.coreId = some (.saved k.task.id) →
    s.chip.saved.find? (fun x => decide (x.task.id = k.task.id)) = some k → s.chip.isFree t = true →
    Claims.FrameAt s k.frame key → (frameDword k.image 0).getLsbD 7 = false → (frameDword k.image 0).extractLsb' 11 5 = 0 →
    frameDword k.image 8 &&& ~~~1 ≠ endLink →
    ∃ c, exec (.takeWork t (.saved k.task.id)) s = .next { s with chip := c } ∧ Claims.Restored s c t k key) ∧
  (∀ s t id, (∀ k ∈ s.chip.saved, k.task.id = id → (frameDword k.image 0).getLsbD 7 = true) →
    exec (.takeWork t (.saved id)) s = .next s) ∧
  (∀ s (w : Walk), s.chip.walks.find? (fun x => decide (x.item.id = w.item.id)) = some w → w.here ≠ w.target →
    ∃ c, exec (.hintWalkHop w.item.id) s = .next { s with chip := c } ∧ c = { s.chip with
      walks := s.chip.walks.map fun (x : Walk) => if x.item.id = w.item.id then
        { x with here := if w.here.cx < w.target.cx then ⟨w.here.cx + 1, w.here.cy⟩
          else if w.target.cx < w.here.cx then ⟨w.here.cx - 1, w.here.cy⟩
          else if w.here.cy < w.target.cy then ⟨w.here.cx, w.here.cy + 1⟩ else ⟨w.here.cx, w.here.cy - 1⟩ } else x }) ∧
  (∀ s (w : Walk), s.chip.walks.find? (fun x => decide (x.item.id = w.item.id)) = some w → w.here = w.target →
    exec (.hintWalkHop w.item.id) s = .next (Claims.onCluster
      { s with chip := { s.chip with walks := s.chip.walks.filter fun x => decide (x.item.id ≠ w.item.id) } } w.here
      fun cl => { cl with hints := cl.hints ++ [w.item] })) ∧
  (∀ s t key task l low tile, let u := s.chip.thread t
    s.chip.launchOf l.id = some l → l.rejected = none → (List.range l.tasks).filter (fun n => !l.started.contains n) = tile :: low →
    l.steal = 2 ∨ l.die = t.die → u.task = some task → (∃ l0, s.chip.launchOf task.launch = some l0 ∧ l0.prio < l.prio) →
    u.sup = false → u.handler = none → u.gangSize = 0 → u.run = .ready → ¬ Claims.Storing u none →
    ∀ rc, Claims.RepcKept (Claims.focused s t) rc →
    let i := l.item s.chip.nextTask tile
    s.chip.openTo t.coreId i none = true →
    s.chip.canTake t.coreId i none = false → (s.chip.setThread t Thread.reset).canTake t.coreId i none = true →
    ((s.chip.threadsOf t.coreId).filter fun e => decide (e.2.run ≠ .free)).length ≤ 16 → inMesh t.cluster = true →
    t.core < 8 → t.thread < 16 → s.chip.framesFree t.die ≠ [] → i.slice = 0 → (∀ x ∈ s.chip.tiles, x.task ≠ i.id) →
    Claims.FrameAt (Claims.focused s t) u.csr.tframe key →
    (∀ bs : List Byte, bs.length = 2048 → Claims.PoolHome s t.die (Mem.write s.chip.mem key bs)) →
    ∃ c, exec (.preemption l.id t) s = .next { s with chip := c } ∧ c.tid = t ∧ c.t.run = .ready ∧ c.t.pc = i.entry ∧
      c.t.task.map Task.id = some i.id ∧ Claims.Kept s c t ∧
      Mem.bytes c.mem key 2048 = (s.chip.focus t).frameBytes { u with repc := rc } ⟨u.stopPc, Cause.preempt, 0, 0, false, false, 1⟩ ∧
      (∀ a, a < key ∨ key + 2048 ≤ a → Mem.get c.mem a = Mem.get s.chip.mem a) ∧
      ∃ k, c.saved = s.chip.saved.map (Claims.taken i.id) ++ [k] ∧ k.task = task ∧ k.frame = u.csr.tframe ∧
        k.resume = .ready ∧ k.accesses = u.pend ∧ k.image = Mem.bytes c.mem key 2048) ∧
  (∀ s t task, let u := s.chip.thread t
    u.run = .wait .taskEnd → u.task = some task → u.pend = [] → u.snaps = [] → s.chip.jobsOver task.id = true →
    Claims.NoWaits s → (t ≠ s.chip.tid → s.chip.t.pend = [] ∧ ∀ d acc l n w la, s.chip.t.run ≠ .wait (.access d acc l n w la)) →
    (task.counter = none → ∃ c, exec (.taskEnd t) s = .next { s with chip := c } ∧ c.thread t = Thread.reset ∧
      Claims.Kept s c t ∧ c.mem = s.chip.mem ∧ (∀ j ∈ c.jobs, j.task ≠ task.id) ∧
      (∀ x ∈ c.tiles, x.task ≠ task.id) ∧ c.saved = s.chip.saved) ∧
    (∀ a k off, task.counter = some a → classify s.mgmt a = some (.slice k off) →
      tableGet s.chip.tcopies (pageOf (sliceLoc k off)) = none →
      ∃ c, exec (.taskEnd t) s = .next { s with chip := c } ∧ c.thread t = Thread.reset ∧
        Claims.Kept s c t ∧
        Claims.Wrote s.chip.mem c.mem (sliceKey k off) (bytesOfWord (Mem.word s.chip.mem (sliceKey k off) - 1)) ∧
        (∀ j ∈ c.jobs, j.task ≠ task.id) ∧ ∀ x ∈ c.tiles, x.task ≠ task.id) ∧
    (∀ a sp, task.counter = some a → Claims.OutsideAt s t a true sp → Claims.NoCopy s sp →
      ∃ c, exec (.taskEnd t) s = .next { s with chip := c } ∧ c.thread t = Thread.reset ∧ Claims.Kept s c t ∧
        Claims.Wrote s.chip.mem c.mem sp.key (bytesOfWord (Mem.word s.chip.mem sp.key - 1)) ∧
        (∀ j ∈ c.jobs, j.task ≠ task.id) ∧ ∀ x ∈ c.tiles, x.task ≠ task.id))

end

namespace Sys2Proof.Claims
open Sys2Proof.Machine

/-! ## Events of the Den and of pages (R59, R60, R90, R326 to R335) -/

/-- The page's new entry: another frame and tier, its attributes kept (R60). -/
def moved (e : Dword) (frame : Nat) (tier : BitVec 2) : Dword :=
  BitVec.ofNat 64 (e.toNat / 2 ^ 52 * 2 ^ 52 + tier.toNat * 2 ^ 50 + e.toNat / 2 ^ 40 % 2 ^ 10 * 2 ^ 40 + frame / 256 % 2 ^ 32 * 2 ^ 8 +
    e.toNat % 2 ^ 8)

/-- A PARKED continuation lists the page, its entry lets it age, and its idle time has reached a stage's time: in
microseconds, of 100 ticks (R326). -/
structure Aged (s : State) (page e : Dword) (time : Word) : Prop where
  listed : ∃ k c, (k, DenEntry.parked c) ∈ s.chip.den ∧ page ∈ c.pages
  ages : entryAge e = true ∧ entryRepl e = false ∧ entryShadow e = false
  idle : time ≠ 0 ∧ ∃ n, tableGet s.chip.idle page = some n ∧ n + 100 * time.toNat ≤ s.chip.timebase.toNat

/-- What a saved task waits for once a page is home (R90). -/
def waitsStill (page : Dword) : Resume → Resume
  | .page p => if p = page then .ready else .page p
  | r => r

/-- A page's entry puts it in TIER 0 or 1. -/
def Home (s : State) (page : Dword) : Prop := ∀ e, s.chip.pageEntry page = some e → entryTier e ≠ 2

end Sys2Proof.Claims

section
open Sys2Proof Sys2Proof.Machine

/-- R60, R90, R325 to R328, R330, R332, R335: an aged page moves to its clean copy in the capacity tier, or to its
flash frame where the module has a flash tier; a wake write leaves a reply, wakes a continuation, or is an event;
stage 1 puts the continuation's contents, with the reply, into a frame, and its task is ready when stage 2 has ended
too; a page that is home is asked for no longer, and the tasks that wait for it are ready. The model's choice: which
frames are free (log 23). A page promoted from the flash tier comes through a frame of the capacity tier, which stays as its clean
copy (R328); and a task whose jobs stopped at several pages is ready only while all of them are home (R352). -/
def Obligations.DenEvents : Prop :=
  (∀ s page die off e p tier, Claims.PageAt s page die off e p → Claims.Aged s page e s.chip.denT1 → entryTier e = 0 → Claims.NoWaiter s →
    tableGet s.chip.tcopies page = some tier → p + 8 ≤ tier ∨ tier + 2 ^ 21 ≤ p →
    ∃ c, exec (.denDemoteTier1 page) s = .next { s with chip := c } ∧
      Mem.dword c.mem (heapKey die p) = Claims.moved e tier 1 ∧ Mem.get c.mem (heapKey die tier + 18) = 1 ∧
      Claims.SameOutside s.chip.mem c.mem [(heapKey die p, 8), (heapKey die tier + 18, 1)] ∧
      tableGet c.tcopies page = none ∧ c.t = s.chip.t ∧ c.others = s.chip.others ∧ c.den = s.chip.den) ∧
  (∀ s page die off e p, Claims.PageAt s page die off e p → Claims.Aged s page e s.chip.denT2 → entryTier e ≠ 2 →
    (∀ f, tableGet s.chip.flash page = some f → f + 2 ^ 21 ≤ 2 ^ 40) →
    (tableGet s.chip.flash page = none → (Claims.flashUsed s die).length < 2 ^ 19) → p < 2 ^ 40 - 8 → entryAddr e + 2 ^ 21 ≤ 2 ^ 40 →
    (s.chip.t.pend = [] ∧ ∀ d acc l n w la, s.chip.t.run ≠ .wait (.access d acc l n w la)) → Claims.NoWaits s →
    walk (Mem.write s.chip.mem (heapKey die (entryAddr e) + 18) [2]) die (s.chip.die die).etroot off false = .leaf e p →
    if Config.flashTier = true then
      ∃ c fa, exec (.denDemoteFlash page) s = .next { s with chip := c } ∧
        (∀ f, tableGet s.chip.flash page = some f → fa = f) ∧
        (tableGet s.chip.flash page = none → fa % 2 ^ 21 = 0 ∧ fa / 2 ^ 21 ∉ Claims.flashUsed s die) ∧
        Mem.dword c.mem (heapKey die p) = Claims.moved e 0 2 ∧
        Claims.SameOutside s.chip.mem c.mem
          [(heapKey die p, 8), (heapKey die (entryAddr e) + 18, 1), (flashKey die fa, 2 ^ 21)] ∧
        (∀ o, o < 2 ^ 21 → Mem.get c.mem (flashKey die fa + o) =
          if o = 18 then 2 else Mem.get s.chip.mem (heapKey die (entryAddr e) + o)) ∧
        tableGet c.flash page = some fa ∧ c.t = s.chip.t ∧ c.others = s.chip.others
    else exec (.denDemoteFlash page) s = .next s) ∧
  (∀ s port key reply, s.mgmt.denwin.getLsbD 0 = true →
    let home : BitVec 3 := s.mgmt.denwin.extractLsb' 48 3
    ∃ c n, Claims.Books s.chip c ∧
      (tableGet s.chip.den key = none → exec (.wakeWrite key ⟨port, reply⟩) s =
        .next (Claims.onDie { s with chip := { c with den := tableSet s.chip.den key (.pending reply n) } } home
          fun d => { d with evpend := d.evpend ||| 8 })) ∧
      (∀ k, tableGet s.chip.den key = some (.parked k) → k.pages ≠ [] → ∃ s2 s3, s3 ++ s2 = k.pages ∧
        s2.length = min 4 k.pages.length ∧ exec (.wakeWrite key ⟨port, reply⟩) s =
          .next { s with chip := { c with den := tableSet s.chip.den key (.woken k reply n none s2 s3) } }) ∧
      (∀ k, tableGet s.chip.den key = some (.parked k) → k.pages = [] → exec (.wakeWrite key ⟨port, reply⟩) s =
        .next (Claims.onDie { s with chip := { c with den := tableSet s.chip.den key (.woken k reply n none [] []) } }
          k.saved.cluster.die fun d => { d with evpend := d.evpend ||| 8 })) ∧
      (∀ e, tableGet s.chip.den key = some e → (∀ k, e ≠ .parked k) → exec (.wakeWrite key ⟨port, reply⟩) s =
        .next (Claims.onDie { s with chip := c } home fun d => { d with evpend := d.evpend ||| 8 }))) ∧
  (∀ s (key : BitVec 20) k reply rel s2 s3 (at_ : Nat → Nat), tableGet s.chip.den key = some (.woken k reply rel none s2 s3) →
    let die := k.saved.cluster.die
    let d := s.chip.die die
    s.chip.framesFree die ≠ [] → k.frame.length = 2048 →
    (frameDword k.frame 0).toNat / 2 ^ 11 % 2 ^ 5 ≤ 16 →
    (∀ f ∈ s.chip.framesFree die, Claims.FrameAt s (d.fpbase + BitVec.ofNat 64 (2048 * f)) (at_ f)) →
    ∃ c, ∃ f ∈ s.chip.framesFree die, exec (.denStage1Frame key) s = .next { s with chip := c } ∧
      Mem.bytes c.mem (at_ f) 2048 = filled k.frame reply ∧ Claims.SameOutside s.chip.mem c.mem [(at_ f, 2048)] ∧
      f ∈ (c.die die).fptaken ∧ c.t = s.chip.t ∧ c.others = s.chip.others ∧
      (s2 ≠ [] → tableGet c.den key = some (.woken k reply rel (some (d.fpbase + BitVec.ofNat 64 (2048 * f))) s2 s3) ∧
        c.saved = s.chip.saved) ∧
      (s2 = [] → tableGet c.den key = none ∧ c.saved = s.chip.saved ++
        [{ k.saved with
          frame := d.fpbase + BitVec.ofNat 64 (2048 * f), image := filled k.frame reply, tokens := [rel], resume := .ready }])) ∧
  (∀ (bs : List Byte) reply, bs.length = 2048 →
    let n := (frameDword bs 0).toNat / 2 ^ 11 % 2 ^ 5
    1 ≤ n → n ≤ 16 →
    let at_ := 0x500 + 48 * (n - 1)
    (filled bs reply).length = 2048 ∧ frameDword (filled bs reply) (at_ + 16) = reply ∧
      byteAt (filled bs reply) (at_ + 9) = byteAt bs (at_ + 9) ||| 0x10 ∧
      ∀ i, i ≠ at_ + 9 → i < at_ + 16 ∨ at_ + 24 ≤ i → byteAt (filled bs reply) i = byteAt bs i) ∧
  (∀ s page die off e p, Claims.PageAt s page die off e p → page ∈ s.chip.promoting → s.chip.den = [] → s.chip.stage3 = [] →
    let saved := s.chip.saved.map fun (k : Saved) => { k with resume := Claims.waitsStill page k.resume }
    (entryTier e = 0 → exec (.pagePromotionDone page) s = .next { s with chip := { s.chip with
      promoting := s.chip.promoting.filter fun x => decide (x ≠ page), saved := saved } }) ∧
    (entryTier e = 1 → Claims.NoWaiter s → (s.chip.framesBusy die).length < hbmEnd / 2 ^ 21 →
      ∃ c hbm, exec (.pagePromotionDone page) s = .next { s with chip := c } ∧ hbm % 2 ^ 21 = 0 ∧ hbm < hbmEnd ∧
        hbm / 2 ^ 21 ∉ s.chip.framesBusy die ∧ Mem.dword c.mem (heapKey die p) = Claims.moved e hbm 0 ∧
        (∀ o, o < 2 ^ 21 → Mem.get c.mem (heapKey die hbm + o) =
          if o = 18 then 4 else Mem.get s.chip.mem (heapKey die (entryAddr e) + o)) ∧
        tableGet c.tcopies page = some (entryAddr e) ∧ page ∉ c.promoting ∧ c.saved = saved) ∧
    (∀ fa, entryTier e = 2 → Claims.NoWaiter s → tableGet s.chip.flash page = some fa → fa % 2 ^ 21 = 0 → fa + 2 ^ 21 ≤ 2 ^ 40 →
      (s.chip.framesBusy die).length < hbmEnd / 2 ^ 21 → (s.chip.framesBusy die).length < (tierEnd - hbmEnd) / 2 ^ 21 →
      ∃ c hbm tier, exec (.pagePromotionDone page) s = .next { s with chip := c } ∧ hbm % 2 ^ 21 = 0 ∧ hbm < hbmEnd ∧
        tier % 2 ^ 21 = 0 ∧ hbmEnd ≤ tier ∧ tier < tierEnd ∧ hbm / 2 ^ 21 ∉ s.chip.framesBusy die ∧
        tier / 2 ^ 21 ∉ s.chip.framesBusy die ∧ Mem.dword c.mem (heapKey die p) = Claims.moved e hbm 0 ∧
        (∀ f ∈ [hbm, tier], ∀ o, o < 2 ^ 21 → Mem.get c.mem (heapKey die f + o) =
          if o = 18 then 4 else Mem.get s.chip.mem (flashKey die fa + o)) ∧
        (∀ o, o < 2 ^ 21 → c.poisoned (heapKey die hbm + o) = s.chip.poisoned (flashKey die fa + o) ∧
          (o % 4 = 0 → c.isFull (heapKey die hbm + o) = s.chip.isFull (flashKey die fa + o))) ∧
        Claims.SameOutside s.chip.mem c.mem [(heapKey die p, 8), (heapKey die hbm, 2 ^ 21), (heapKey die tier, 2 ^ 21)] ∧
        tableGet c.tcopies page = some tier ∧ page ∉ c.promoting ∧ c.saved = saved)) ∧
  (∀ (s : State) (i : Nat) (k : Saved) l, s.chip.saved[i]? = some k → k.resume = .pages l →
    ((∀ page ∈ l, Claims.Home s page) → (s.chip.wakeSaved s.mgmt).saved[i]? = some { k with resume := .ready }) ∧
    ((∃ page ∈ l, ¬ Claims.Home s page) → (s.chip.wakeSaved s.mgmt).saved[i]? = some k)) ∧
  (∀ s page die off e p (key : BitVec 20) k reply rel f, Claims.PageAt s page die off e p → entryTier e = 0 →
    s.chip.den = [(key, .woken k reply rel (some f) [page] [])] → s.chip.stage3 = [] → s.chip.saved = [] →
    ∃ c, exec (.pagePromotionDone page) s = .next (Claims.onDie { s with chip := c } k.saved.cluster.die
        fun d => { d with evpend := d.evpend ||| 8 }) ∧
      c = { s.chip with
        den := [], saved := [{ k.saved with frame := f, image := filled k.frame reply, tokens := [rel], resume := .ready }]
        promoting := s.chip.promoting.filter fun x => decide (x ≠ page) })

end

section
open Sys2Proof Sys2Proof.Machine

/-! ## Encoding, reset, and rules of the whole machine -/

/-- R25, R29 to R43: words written out from the manual's layouts and examples decode to their instructions: of every class
and of every layout of the major opcodes. -/
def Obligations.DecodedWords : Prop :=
  decodeTableWord 32 0b00_0001_000_00111_00110_00101_0000_0001 = some (.sub 5 6 7) ∧
    decodeTableWord 32 0b00_0000_000_00000_00110_00101_0001_0001 = some (.clz 5 6) ∧
    decodeTableWord 32 0b111111111101_00_00110_00101_0010_0001 = some (.addi 5 6 (-3)) ∧
    decodeTableWord 32 0b000000111111_10_00110_00101_0011_0001 = some (.srai 5 6 63) ∧
    decodeTableWord 32 0b11111111111111010_10_01001_0100_0001 = some (.lea 9 (-6)) ∧
    decodeTableWord 32 0x048D2941 = some (.lih 9 0x91A) ∧
    decodeTableWord 32 0b11_0000_101_00011_00010_00001_0101_0001 = some (.vadd true true 5 1 2 3) ∧
    decodeTableWord 32 0x40247261 = some (.vcmp true 2 0 2 3 9) ∧
    decodeTableWord 32 0b00_1100_000_00101_00101_00011_0110_0001 = some (.mset 3 0xA5) ∧
    decodeTableWord 32 0x34842561 = some (.vfcvt false 1 false 1 5 1) ∧
    decodeTableWord 32 0x0C906271 = some (.vfma 1 2 3 4) ∧
    decodeTableWord 32 0x600C2271 = some (.vfcmp 1 0 2 1 3) ∧
    decodeTableWord 32 0b0010_001001_0101_00110_00100_1000_0001 = some (.fship 2 9 5 4 6) ∧
    decodeTableWord 32 0x00A4E391 = some (.vst 0 1 1 3 7) ∧
    decodeTableWord 32 0x0041E491 = some (.vldc 0 0 0 4 15) ∧
    decodeTableWord 32 0b0001_00110_011_00_00110_00000_1010_0001 = some (.resldSparse 1 6 3 6) ∧
    decodeTableWord 32 0x058500A1 = some (.tload 0 false 1 8) ∧
    decodeTableWord 32 0x0014C9B1 = some (.tdrain 0 false 0 1 1 9 6) ∧
    decodeTableWord 32 0b0001_00001_01000_00110_00101_1100_0001 = some (.cpy2 1 5 6 8) ∧
    decodeTableWord 32 0x05188AC1 = some (.kvwalk 0 10 4 6) ∧
    decodeTableWord 32 0b0000_01111_00000_00000_00000_1100_0001 = some .sqend ∧
    decodeTableWord 32 0x0028C4D1 = some (.ldwFf 0 1 2 4 6) ∧
    decodeTableWord 32 0x0BBA8CD1 = some (.cas128 0 12 14 20) ∧
    decodeTableWord 32 0x032D24D1 = some (.mcst 0 4 11 9) ∧
    decodeTableWord 32 0x0418AAE1 = some (.park 10 5 6) ∧
    decodeTableWord 32 0x030800E1 = some (.gang 2) ∧
    decodeTableWord 32 0x200107F1 = some (.csrset 7 0 8) ∧
    decodeTableWord 32 0xC2E800F1 = some (.bar 2 5) ∧
    decodeTableWord 32 0b0001_111111111000_00110_00101_000_101 = some (.ldB 1 (-8) 5 6) ∧
    decodeTableWord 32 0b0000_011111111111_00110_00101_111_101 = some (.stD 0 2047 5 6) ∧
    decodeTableWord 32 0x234A5149 = some (.cld 2 0 true true 2 1 20 8 9) ∧
    decodeTableWord 32 0x00021483 = some (.beq 4 5 4) ∧
    decodeTableWord 32 0xFFFC003B = some (.jal 1 (-8)) ∧
    decodeTableWord 32 0x0017023F = some (.loop 17 46) ∧
    decodeTableWord 32 0b00000000000001001_11001_00100_111_11 = some (.loopm 4 9 9) ∧
    decodeTableWord 16 0b11_0010_0001_1100_00 = some (.vfsub16 3 1 2) ∧
    decodeTableWord 16 0b00000_1_0_1_000111_10 = some (.rep true false true 7)

/-- R4, R25 to R43, R53: for every well-formed instruction that has an encoding, at every value of its operands, decoding its
bytes gives it back and leaves the bytes that follow. -/
def Obligations.EncodeThenDecode : Prop :=
  ∀ i : Instr, i.WellFormed → i.encoded = true → ∀ rest, decode (encode i ++ rest) = .ok (i, rest)

/-- R25, R36, R43, R53: whatever the decoder accepts is well formed and is the encoding of what it gives: no bit is dropped and no
reserved word is an instruction. -/
def Obligations.DecodeThenEncode : Prop :=
  ∀ bs i rest, decode bs = .ok (i, rest) → i.WellFormed ∧ i.encoded = true ∧ encode i ++ rest = bs

/-- R86, R139, R156, R219, R247, R311 to R313, R325, R340, R348, R350: after reset every thread is FREE and holds no
task, no kernel and no pending write, EXPR holds 8 and DRSCL 0x7F, and the other CSRs that have a reset value hold 0;
no job, tile, launch, lock, Den entry or shadow page is in use; no slot is valid; every register of the module and of
the dies holds 0, and BOOTST 1. Memory lists nothing, and the identity and the boot state are legal. The model's
choices: memory that lists nothing (log 2), and 0 where the manual gives no value (log 1). -/
def Obligations.ResetState : Prop :=
  let s := State.reset
  let c := s.chip
  s.mgmt.identityOk ∧ s.mgmt.bootOk ∧ c.memoryOk ∧ s.mgmt.bootst = 1 ∧ s.mgmt.modid = 0 ∧ s.mgmt.faben = false ∧
    s.mgmt.denwin = 0 ∧ s.mgmt.pwrlim = 0 ∧ s.mgmt.froute = [] ∧ (∀ n, n < 16 → s.mgmt.hap.getD n 0 = 0) ∧
    (∀ t, (c.thread t).run = .free ∧ (c.thread t).task = none ∧ (c.thread t).pend = [] ∧ (c.thread t).loops = [] ∧
      (c.thread t).squirrel.kernel = none ∧ (c.thread t).sup = false ∧ (c.thread t).repc = 0 ∧ (c.thread t).csr.flags = 0 ∧
      (c.thread t).csr.fpctl = 0 ∧ (c.thread t).csr.expr = 8 ∧ (c.thread t).csr.drscl = 0x7F ∧ (c.thread t).csr.jctl = 0 ∧
      (c.thread t).csr.cutctl = 0 ∧ (c.thread t).csr.warnc = 0 ∧ (c.thread t).csr.even = 0) ∧
    (∀ d, c.die d = Die.reset ∧ (c.die d).etroot = 0 ∧ (c.die d).evpend = 0 ∧ (c.die d).fwtmr = 0 ∧ (c.die d).fpcount = 0 ∧
      (c.die d).loghead = 0 ∧ ∀ q, (c.die d).queue q = ⟨0, 0, 0, 0, 0, 0, 0, 0⟩) ∧
    (∀ k n, ((c.cluster k).slot n).valid = false) ∧ (∀ k, (c.core k).keys = List.replicate 16 0 ∧ (c.core k).deque = []) ∧
    (∀ u, (c.owl u).ctl = 0 ∧ (c.owl u).cnt = 0) ∧ c.jobs = [] ∧ c.tiles = [] ∧ c.launches = [] ∧ c.locks = [] ∧ c.den = [] ∧
    c.saved = [] ∧ c.barriers = [] ∧ c.routines = [] ∧ c.denT1 = 0 ∧ c.denT2 = 0 ∧ c.timebase = 0 ∧ c.mem = []

/-- R77, R340, R348: whatever a step does, the fabric is on only under an ID of 0x001 to 0xFFE, MODID never holds 0xFFF, and
BOOTST holds one of its four values. -/
def Obligations.StepKeepsIdentity : Prop :=
  ∀ s t, s.mgmt.identityOk → s.mgmt.bootOk → step s = .next t → t.mgmt.identityOk ∧ t.mgmt.bootOk

/-- Log 2, and the form of memory that the model keeps: whatever a step does, memory stays a list of rising addresses
without an entry that equals what an unlisted address reads as, so that equal memories are equal data. The form is the model's. -/
def Obligations.StepKeepsMemoryForm : Prop :=
  ∀ s t, s.chip.memoryOk → step s = .next t → t.chip.memoryOk

/-- R304, R340, R348, R349: no instruction of a thread, in any mode and on any operands, changes a register of the module's own
block, its boot state or its measurement, or the commands that the outside world has given: only events of the outside world
do. -/
def Obligations.ThreadsLeaveTheModule : Prop :=
  ∀ i : Instr, i.encoded = true → ∀ s t, exec i s = .next t → t.mgmt = s.mgmt ∧ t.env = s.env ∧ t.inbox = s.inbox

end
end

