-- ==== Sys2Proof/Laws/State.lean ====
section
/-! SUPPORT. What each update of the state leaves and sets: one lemma per field, so that no later proof unfolds a
record update. Then the laws of the tables, the lanes and the threads. -/

namespace Sys2Proof.Machine


/-! Chip.setCore changes cores only. -/
@[simp] theorem Chip.setCore_tid (c : Chip) (k : CoreId) (v : CoreState) : (c.setCore k v).tid = c.tid := rfl
@[simp] theorem Chip.setCore_t (c : Chip) (k : CoreId) (v : CoreState) : (c.setCore k v).t = c.t := rfl
@[simp] theorem Chip.setCore_others (c : Chip) (k : CoreId) (v : CoreState) : (c.setCore k v).others = c.others := rfl
@[simp] theorem Chip.setCore_mem (c : Chip) (k : CoreId) (v : CoreState) : (c.setCore k v).mem = c.mem := rfl
@[simp] theorem Chip.setCore_empties (c : Chip) (k : CoreId) (v : CoreState) : (c.setCore k v).empties = c.empties := rfl
@[simp] theorem Chip.setCore_poison (c : Chip) (k : CoreId) (v : CoreState) : (c.setCore k v).poison = c.poison := rfl
@[simp] theorem Chip.setCore_clusters (c : Chip) (k : CoreId) (v : CoreState) : (c.setCore k v).clusters = c.clusters := rfl
@[simp] theorem Chip.setCore_dies (c : Chip) (k : CoreId) (v : CoreState) : (c.setCore k v).dies = c.dies := rfl
@[simp] theorem Chip.setCore_routines (c : Chip) (k : CoreId) (v : CoreState) : (c.setCore k v).routines = c.routines := rfl
@[simp] theorem Chip.setCore_jobs (c : Chip) (k : CoreId) (v : CoreState) : (c.setCore k v).jobs = c.jobs := rfl
@[simp] theorem Chip.setCore_tiles (c : Chip) (k : CoreId) (v : CoreState) : (c.setCore k v).tiles = c.tiles := rfl
@[simp] theorem Chip.setCore_launches (c : Chip) (k : CoreId) (v : CoreState) : (c.setCore k v).launches = c.launches := rfl
@[simp] theorem Chip.setCore_walks (c : Chip) (k : CoreId) (v : CoreState) : (c.setCore k v).walks = c.walks := rfl
@[simp] theorem Chip.setCore_saved (c : Chip) (k : CoreId) (v : CoreState) : (c.setCore k v).saved = c.saved := rfl
@[simp] theorem Chip.setCore_images (c : Chip) (k : CoreId) (v : CoreState) : (c.setCore k v).images = c.images := rfl
@[simp] theorem Chip.setCore_locks (c : Chip) (k : CoreId) (v : CoreState) : (c.setCore k v).locks = c.locks := rfl
@[simp] theorem Chip.setCore_barriers (c : Chip) (k : CoreId) (v : CoreState) : (c.setCore k v).barriers = c.barriers := rfl
@[simp] theorem Chip.setCore_passed (c : Chip) (k : CoreId) (v : CoreState) : (c.setCore k v).passed = c.passed := rfl
@[simp] theorem Chip.setCore_hoard (c : Chip) (k : CoreId) (v : CoreState) : (c.setCore k v).hoard = c.hoard := rfl
@[simp] theorem Chip.setCore_asked (c : Chip) (k : CoreId) (v : CoreState) : (c.setCore k v).asked = c.asked := rfl
@[simp] theorem Chip.setCore_triggers (c : Chip) (k : CoreId) (v : CoreState) : (c.setCore k v).triggers = c.triggers := rfl
@[simp] theorem Chip.setCore_den (c : Chip) (k : CoreId) (v : CoreState) : (c.setCore k v).den = c.den := rfl
@[simp] theorem Chip.setCore_stage3 (c : Chip) (k : CoreId) (v : CoreState) : (c.setCore k v).stage3 = c.stage3 := rfl
@[simp] theorem Chip.setCore_denT1 (c : Chip) (k : CoreId) (v : CoreState) : (c.setCore k v).denT1 = c.denT1 := rfl
@[simp] theorem Chip.setCore_denT2 (c : Chip) (k : CoreId) (v : CoreState) : (c.setCore k v).denT2 = c.denT2 := rfl
@[simp] theorem Chip.setCore_idle (c : Chip) (k : CoreId) (v : CoreState) : (c.setCore k v).idle = c.idle := rfl
@[simp] theorem Chip.setCore_tcopies (c : Chip) (k : CoreId) (v : CoreState) : (c.setCore k v).tcopies = c.tcopies := rfl
@[simp] theorem Chip.setCore_flash (c : Chip) (k : CoreId) (v : CoreState) : (c.setCore k v).flash = c.flash := rfl
@[simp] theorem Chip.setCore_relics (c : Chip) (k : CoreId) (v : CoreState) : (c.setCore k v).relics = c.relics := rfl
@[simp] theorem Chip.setCore_promoting (c : Chip) (k : CoreId) (v : CoreState) : (c.setCore k v).promoting = c.promoting := rfl
@[simp] theorem Chip.setCore_zeroing (c : Chip) (k : CoreId) (v : CoreState) : (c.setCore k v).zeroing = c.zeroing := rfl
@[simp] theorem Chip.setCore_timebase (c : Chip) (k : CoreId) (v : CoreState) : (c.setCore k v).timebase = c.timebase := rfl
@[simp] theorem Chip.setCore_owls (c : Chip) (k : CoreId) (v : CoreState) : (c.setCore k v).owls = c.owls := rfl
@[simp] theorem Chip.setCore_channels (c : Chip) (k : CoreId) (v : CoreState) : (c.setCore k v).channels = c.channels := rfl
@[simp] theorem Chip.setCore_remotes (c : Chip) (k : CoreId) (v : CoreState) : (c.setCore k v).remotes = c.remotes := rfl
@[simp] theorem Chip.setCore_out (c : Chip) (k : CoreId) (v : CoreState) : (c.setCore k v).out = c.out := rfl
@[simp] theorem Chip.setCore_joins (c : Chip) (k : CoreId) (v : CoreState) : (c.setCore k v).joins = c.joins := rfl
@[simp] theorem Chip.setCore_hist (c : Chip) (k : CoreId) (v : CoreState) : (c.setCore k v).hist = c.hist := rfl
@[simp] theorem Chip.setCore_agents (c : Chip) (k : CoreId) (v : CoreState) : (c.setCore k v).agents = c.agents := rfl
@[simp] theorem Chip.setCore_rels (c : Chip) (k : CoreId) (v : CoreState) : (c.setCore k v).rels = c.rels := rfl
@[simp] theorem Chip.setCore_sysRels (c : Chip) (k : CoreId) (v : CoreState) : (c.setCore k v).sysRels = c.sysRels := rfl
@[simp] theorem Chip.setCore_reached (c : Chip) (k : CoreId) (v : CoreState) : (c.setCore k v).reached = c.reached := rfl
@[simp] theorem Chip.setCore_clock (c : Chip) (k : CoreId) (v : CoreState) : (c.setCore k v).clock = c.clock := rfl
@[simp] theorem Chip.setCore_nextTask (c : Chip) (k : CoreId) (v : CoreState) : (c.setCore k v).nextTask = c.nextTask := rfl
@[simp] theorem Chip.setCore_draws (c : Chip) (k : CoreId) (v : CoreState) : (c.setCore k v).draws = c.draws := rfl
@[simp] theorem Chip.setCore_frees (c : Chip) (k : CoreId) (v : CoreState) : (c.setCore k v).frees = c.frees := rfl
@[simp] theorem Chip.setCore_steps (c : Chip) (k : CoreId) (v : CoreState) : (c.setCore k v).steps = c.steps := rfl

/-! Chip.setCluster changes clusters only. -/
@[simp] theorem Chip.setCluster_tid (c : Chip) (k : CId) (v : Cluster) : (c.setCluster k v).tid = c.tid := rfl
@[simp] theorem Chip.setCluster_t (c : Chip) (k : CId) (v : Cluster) : (c.setCluster k v).t = c.t := rfl
@[simp] theorem Chip.setCluster_others (c : Chip) (k : CId) (v : Cluster) : (c.setCluster k v).others = c.others := rfl
@[simp] theorem Chip.setCluster_mem (c : Chip) (k : CId) (v : Cluster) : (c.setCluster k v).mem = c.mem := rfl
@[simp] theorem Chip.setCluster_empties (c : Chip) (k : CId) (v : Cluster) : (c.setCluster k v).empties = c.empties := rfl
@[simp] theorem Chip.setCluster_poison (c : Chip) (k : CId) (v : Cluster) : (c.setCluster k v).poison = c.poison := rfl
@[simp] theorem Chip.setCluster_cores (c : Chip) (k : CId) (v : Cluster) : (c.setCluster k v).cores = c.cores := rfl
@[simp] theorem Chip.setCluster_dies (c : Chip) (k : CId) (v : Cluster) : (c.setCluster k v).dies = c.dies := rfl
@[simp] theorem Chip.setCluster_routines (c : Chip) (k : CId) (v : Cluster) : (c.setCluster k v).routines = c.routines := rfl
@[simp] theorem Chip.setCluster_jobs (c : Chip) (k : CId) (v : Cluster) : (c.setCluster k v).jobs = c.jobs := rfl
@[simp] theorem Chip.setCluster_tiles (c : Chip) (k : CId) (v : Cluster) : (c.setCluster k v).tiles = c.tiles := rfl
@[simp] theorem Chip.setCluster_launches (c : Chip) (k : CId) (v : Cluster) : (c.setCluster k v).launches = c.launches := rfl
@[simp] theorem Chip.setCluster_walks (c : Chip) (k : CId) (v : Cluster) : (c.setCluster k v).walks = c.walks := rfl
@[simp] theorem Chip.setCluster_saved (c : Chip) (k : CId) (v : Cluster) : (c.setCluster k v).saved = c.saved := rfl
@[simp] theorem Chip.setCluster_images (c : Chip) (k : CId) (v : Cluster) : (c.setCluster k v).images = c.images := rfl
@[simp] theorem Chip.setCluster_locks (c : Chip) (k : CId) (v : Cluster) : (c.setCluster k v).locks = c.locks := rfl
@[simp] theorem Chip.setCluster_barriers (c : Chip) (k : CId) (v : Cluster) : (c.setCluster k v).barriers = c.barriers := rfl
@[simp] theorem Chip.setCluster_passed (c : Chip) (k : CId) (v : Cluster) : (c.setCluster k v).passed = c.passed := rfl
@[simp] theorem Chip.setCluster_hoard (c : Chip) (k : CId) (v : Cluster) : (c.setCluster k v).hoard = c.hoard := rfl
@[simp] theorem Chip.setCluster_asked (c : Chip) (k : CId) (v : Cluster) : (c.setCluster k v).asked = c.asked := rfl
@[simp] theorem Chip.setCluster_triggers (c : Chip) (k : CId) (v : Cluster) : (c.setCluster k v).triggers = c.triggers := rfl
@[simp] theorem Chip.setCluster_den (c : Chip) (k : CId) (v : Cluster) : (c.setCluster k v).den = c.den := rfl
@[simp] theorem Chip.setCluster_stage3 (c : Chip) (k : CId) (v : Cluster) : (c.setCluster k v).stage3 = c.stage3 := rfl
@[simp] theorem Chip.setCluster_denT1 (c : Chip) (k : CId) (v : Cluster) : (c.setCluster k v).denT1 = c.denT1 := rfl
@[simp] theorem Chip.setCluster_denT2 (c : Chip) (k : CId) (v : Cluster) : (c.setCluster k v).denT2 = c.denT2 := rfl
@[simp] theorem Chip.setCluster_idle (c : Chip) (k : CId) (v : Cluster) : (c.setCluster k v).idle = c.idle := rfl
@[simp] theorem Chip.setCluster_tcopies (c : Chip) (k : CId) (v : Cluster) : (c.setCluster k v).tcopies = c.tcopies := rfl
@[simp] theorem Chip.setCluster_flash (c : Chip) (k : CId) (v : Cluster) : (c.setCluster k v).flash = c.flash := rfl
@[simp] theorem Chip.setCluster_relics (c : Chip) (k : CId) (v : Cluster) : (c.setCluster k v).relics = c.relics := rfl
@[simp] theorem Chip.setCluster_promoting (c : Chip) (k : CId) (v : Cluster) : (c.setCluster k v).promoting = c.promoting := rfl
@[simp] theorem Chip.setCluster_zeroing (c : Chip) (k : CId) (v : Cluster) : (c.setCluster k v).zeroing = c.zeroing := rfl
@[simp] theorem Chip.setCluster_timebase (c : Chip) (k : CId) (v : Cluster) : (c.setCluster k v).timebase = c.timebase := rfl
@[simp] theorem Chip.setCluster_owls (c : Chip) (k : CId) (v : Cluster) : (c.setCluster k v).owls = c.owls := rfl
@[simp] theorem Chip.setCluster_channels (c : Chip) (k : CId) (v : Cluster) : (c.setCluster k v).channels = c.channels := rfl
@[simp] theorem Chip.setCluster_remotes (c : Chip) (k : CId) (v : Cluster) : (c.setCluster k v).remotes = c.remotes := rfl
@[simp] theorem Chip.setCluster_out (c : Chip) (k : CId) (v : Cluster) : (c.setCluster k v).out = c.out := rfl
@[simp] theorem Chip.setCluster_joins (c : Chip) (k : CId) (v : Cluster) : (c.setCluster k v).joins = c.joins := rfl
@[simp] theorem Chip.setCluster_hist (c : Chip) (k : CId) (v : Cluster) : (c.setCluster k v).hist = c.hist := rfl
@[simp] theorem Chip.setCluster_agents (c : Chip) (k : CId) (v : Cluster) : (c.setCluster k v).agents = c.agents := rfl
@[simp] theorem Chip.setCluster_rels (c : Chip) (k : CId) (v : Cluster) : (c.setCluster k v).rels = c.rels := rfl
@[simp] theorem Chip.setCluster_sysRels (c : Chip) (k : CId) (v : Cluster) : (c.setCluster k v).sysRels = c.sysRels := rfl
@[simp] theorem Chip.setCluster_reached (c : Chip) (k : CId) (v : Cluster) : (c.setCluster k v).reached = c.reached := rfl
@[simp] theorem Chip.setCluster_clock (c : Chip) (k : CId) (v : Cluster) : (c.setCluster k v).clock = c.clock := rfl
@[simp] theorem Chip.setCluster_nextTask (c : Chip) (k : CId) (v : Cluster) : (c.setCluster k v).nextTask = c.nextTask := rfl
@[simp] theorem Chip.setCluster_draws (c : Chip) (k : CId) (v : Cluster) : (c.setCluster k v).draws = c.draws := rfl
@[simp] theorem Chip.setCluster_frees (c : Chip) (k : CId) (v : Cluster) : (c.setCluster k v).frees = c.frees := rfl
@[simp] theorem Chip.setCluster_steps (c : Chip) (k : CId) (v : Cluster) : (c.setCluster k v).steps = c.steps := rfl

/-! Chip.setDie changes dies only. -/
@[simp] theorem Chip.setDie_tid (c : Chip) (d : BitVec 3) (v : Die) : (c.setDie d v).tid = c.tid := rfl
@[simp] theorem Chip.setDie_t (c : Chip) (d : BitVec 3) (v : Die) : (c.setDie d v).t = c.t := rfl
@[simp] theorem Chip.setDie_others (c : Chip) (d : BitVec 3) (v : Die) : (c.setDie d v).others = c.others := rfl
@[simp] theorem Chip.setDie_mem (c : Chip) (d : BitVec 3) (v : Die) : (c.setDie d v).mem = c.mem := rfl
@[simp] theorem Chip.setDie_empties (c : Chip) (d : BitVec 3) (v : Die) : (c.setDie d v).empties = c.empties := rfl
@[simp] theorem Chip.setDie_poison (c : Chip) (d : BitVec 3) (v : Die) : (c.setDie d v).poison = c.poison := rfl
@[simp] theorem Chip.setDie_cores (c : Chip) (d : BitVec 3) (v : Die) : (c.setDie d v).cores = c.cores := rfl
@[simp] theorem Chip.setDie_clusters (c : Chip) (d : BitVec 3) (v : Die) : (c.setDie d v).clusters = c.clusters := rfl
@[simp] theorem Chip.setDie_routines (c : Chip) (d : BitVec 3) (v : Die) : (c.setDie d v).routines = c.routines := rfl
@[simp] theorem Chip.setDie_jobs (c : Chip) (d : BitVec 3) (v : Die) : (c.setDie d v).jobs = c.jobs := rfl
@[simp] theorem Chip.setDie_tiles (c : Chip) (d : BitVec 3) (v : Die) : (c.setDie d v).tiles = c.tiles := rfl
@[simp] theorem Chip.setDie_launches (c : Chip) (d : BitVec 3) (v : Die) : (c.setDie d v).launches = c.launches := rfl
@[simp] theorem Chip.setDie_walks (c : Chip) (d : BitVec 3) (v : Die) : (c.setDie d v).walks = c.walks := rfl
@[simp] theorem Chip.setDie_saved (c : Chip) (d : BitVec 3) (v : Die) : (c.setDie d v).saved = c.saved := rfl
@[simp] theorem Chip.setDie_images (c : Chip) (d : BitVec 3) (v : Die) : (c.setDie d v).images = c.images := rfl
@[simp] theorem Chip.setDie_locks (c : Chip) (d : BitVec 3) (v : Die) : (c.setDie d v).locks = c.locks := rfl
@[simp] theorem Chip.setDie_barriers (c : Chip) (d : BitVec 3) (v : Die) : (c.setDie d v).barriers = c.barriers := rfl
@[simp] theorem Chip.setDie_passed (c : Chip) (d : BitVec 3) (v : Die) : (c.setDie d v).passed = c.passed := rfl
@[simp] theorem Chip.setDie_hoard (c : Chip) (d : BitVec 3) (v : Die) : (c.setDie d v).hoard = c.hoard := rfl
@[simp] theorem Chip.setDie_asked (c : Chip) (d : BitVec 3) (v : Die) : (c.setDie d v).asked = c.asked := rfl
@[simp] theorem Chip.setDie_triggers (c : Chip) (d : BitVec 3) (v : Die) : (c.setDie d v).triggers = c.triggers := rfl
@[simp] theorem Chip.setDie_den (c : Chip) (d : BitVec 3) (v : Die) : (c.setDie d v).den = c.den := rfl
@[simp] theorem Chip.setDie_stage3 (c : Chip) (d : BitVec 3) (v : Die) : (c.setDie d v).stage3 = c.stage3 := rfl
@[simp] theorem Chip.setDie_denT1 (c : Chip) (d : BitVec 3) (v : Die) : (c.setDie d v).denT1 = c.denT1 := rfl
@[simp] theorem Chip.setDie_denT2 (c : Chip) (d : BitVec 3) (v : Die) : (c.setDie d v).denT2 = c.denT2 := rfl
@[simp] theorem Chip.setDie_idle (c : Chip) (d : BitVec 3) (v : Die) : (c.setDie d v).idle = c.idle := rfl
@[simp] theorem Chip.setDie_tcopies (c : Chip) (d : BitVec 3) (v : Die) : (c.setDie d v).tcopies = c.tcopies := rfl
@[simp] theorem Chip.setDie_flash (c : Chip) (d : BitVec 3) (v : Die) : (c.setDie d v).flash = c.flash := rfl
@[simp] theorem Chip.setDie_relics (c : Chip) (d : BitVec 3) (v : Die) : (c.setDie d v).relics = c.relics := rfl
@[simp] theorem Chip.setDie_promoting (c : Chip) (d : BitVec 3) (v : Die) : (c.setDie d v).promoting = c.promoting := rfl
@[simp] theorem Chip.setDie_zeroing (c : Chip) (d : BitVec 3) (v : Die) : (c.setDie d v).zeroing = c.zeroing := rfl
@[simp] theorem Chip.setDie_timebase (c : Chip) (d : BitVec 3) (v : Die) : (c.setDie d v).timebase = c.timebase := rfl
@[simp] theorem Chip.setDie_owls (c : Chip) (d : BitVec 3) (v : Die) : (c.setDie d v).owls = c.owls := rfl
@[simp] theorem Chip.setDie_channels (c : Chip) (d : BitVec 3) (v : Die) : (c.setDie d v).channels = c.channels := rfl
@[simp] theorem Chip.setDie_remotes (c : Chip) (d : BitVec 3) (v : Die) : (c.setDie d v).remotes = c.remotes := rfl
@[simp] theorem Chip.setDie_out (c : Chip) (d : BitVec 3) (v : Die) : (c.setDie d v).out = c.out := rfl
@[simp] theorem Chip.setDie_joins (c : Chip) (d : BitVec 3) (v : Die) : (c.setDie d v).joins = c.joins := rfl
@[simp] theorem Chip.setDie_hist (c : Chip) (d : BitVec 3) (v : Die) : (c.setDie d v).hist = c.hist := rfl
@[simp] theorem Chip.setDie_agents (c : Chip) (d : BitVec 3) (v : Die) : (c.setDie d v).agents = c.agents := rfl
@[simp] theorem Chip.setDie_rels (c : Chip) (d : BitVec 3) (v : Die) : (c.setDie d v).rels = c.rels := rfl
@[simp] theorem Chip.setDie_sysRels (c : Chip) (d : BitVec 3) (v : Die) : (c.setDie d v).sysRels = c.sysRels := rfl
@[simp] theorem Chip.setDie_reached (c : Chip) (d : BitVec 3) (v : Die) : (c.setDie d v).reached = c.reached := rfl
@[simp] theorem Chip.setDie_clock (c : Chip) (d : BitVec 3) (v : Die) : (c.setDie d v).clock = c.clock := rfl
@[simp] theorem Chip.setDie_nextTask (c : Chip) (d : BitVec 3) (v : Die) : (c.setDie d v).nextTask = c.nextTask := rfl
@[simp] theorem Chip.setDie_draws (c : Chip) (d : BitVec 3) (v : Die) : (c.setDie d v).draws = c.draws := rfl
@[simp] theorem Chip.setDie_frees (c : Chip) (d : BitVec 3) (v : Die) : (c.setDie d v).frees = c.frees := rfl
@[simp] theorem Chip.setDie_steps (c : Chip) (d : BitVec 3) (v : Die) : (c.setDie d v).steps = c.steps := rfl

/-! Chip.setAgent changes agents only. -/
@[simp] theorem Chip.setAgent_tid (c : Chip) (a : Agent) : (c.setAgent a).tid = c.tid := rfl
@[simp] theorem Chip.setAgent_t (c : Chip) (a : Agent) : (c.setAgent a).t = c.t := rfl
@[simp] theorem Chip.setAgent_others (c : Chip) (a : Agent) : (c.setAgent a).others = c.others := rfl
@[simp] theorem Chip.setAgent_mem (c : Chip) (a : Agent) : (c.setAgent a).mem = c.mem := rfl
@[simp] theorem Chip.setAgent_empties (c : Chip) (a : Agent) : (c.setAgent a).empties = c.empties := rfl
@[simp] theorem Chip.setAgent_poison (c : Chip) (a : Agent) : (c.setAgent a).poison = c.poison := rfl
@[simp] theorem Chip.setAgent_cores (c : Chip) (a : Agent) : (c.setAgent a).cores = c.cores := rfl
@[simp] theorem Chip.setAgent_clusters (c : Chip) (a : Agent) : (c.setAgent a).clusters = c.clusters := rfl
@[simp] theorem Chip.setAgent_dies (c : Chip) (a : Agent) : (c.setAgent a).dies = c.dies := rfl
@[simp] theorem Chip.setAgent_routines (c : Chip) (a : Agent) : (c.setAgent a).routines = c.routines := rfl
@[simp] theorem Chip.setAgent_jobs (c : Chip) (a : Agent) : (c.setAgent a).jobs = c.jobs := rfl
@[simp] theorem Chip.setAgent_tiles (c : Chip) (a : Agent) : (c.setAgent a).tiles = c.tiles := rfl
@[simp] theorem Chip.setAgent_launches (c : Chip) (a : Agent) : (c.setAgent a).launches = c.launches := rfl
@[simp] theorem Chip.setAgent_walks (c : Chip) (a : Agent) : (c.setAgent a).walks = c.walks := rfl
@[simp] theorem Chip.setAgent_saved (c : Chip) (a : Agent) : (c.setAgent a).saved = c.saved := rfl
@[simp] theorem Chip.setAgent_images (c : Chip) (a : Agent) : (c.setAgent a).images = c.images := rfl
@[simp] theorem Chip.setAgent_locks (c : Chip) (a : Agent) : (c.setAgent a).locks = c.locks := rfl
@[simp] theorem Chip.setAgent_barriers (c : Chip) (a : Agent) : (c.setAgent a).barriers = c.barriers := rfl
@[simp] theorem Chip.setAgent_passed (c : Chip) (a : Agent) : (c.setAgent a).passed = c.passed := rfl
@[simp] theorem Chip.setAgent_hoard (c : Chip) (a : Agent) : (c.setAgent a).hoard = c.hoard := rfl
@[simp] theorem Chip.setAgent_asked (c : Chip) (a : Agent) : (c.setAgent a).asked = c.asked := rfl
@[simp] theorem Chip.setAgent_triggers (c : Chip) (a : Agent) : (c.setAgent a).triggers = c.triggers := rfl
@[simp] theorem Chip.setAgent_den (c : Chip) (a : Agent) : (c.setAgent a).den = c.den := rfl
@[simp] theorem Chip.setAgent_stage3 (c : Chip) (a : Agent) : (c.setAgent a).stage3 = c.stage3 := rfl
@[simp] theorem Chip.setAgent_denT1 (c : Chip) (a : Agent) : (c.setAgent a).denT1 = c.denT1 := rfl
@[simp] theorem Chip.setAgent_denT2 (c : Chip) (a : Agent) : (c.setAgent a).denT2 = c.denT2 := rfl
@[simp] theorem Chip.setAgent_idle (c : Chip) (a : Agent) : (c.setAgent a).idle = c.idle := rfl
@[simp] theorem Chip.setAgent_tcopies (c : Chip) (a : Agent) : (c.setAgent a).tcopies = c.tcopies := rfl
@[simp] theorem Chip.setAgent_flash (c : Chip) (a : Agent) : (c.setAgent a).flash = c.flash := rfl
@[simp] theorem Chip.setAgent_relics (c : Chip) (a : Agent) : (c.setAgent a).relics = c.relics := rfl
@[simp] theorem Chip.setAgent_promoting (c : Chip) (a : Agent) : (c.setAgent a).promoting = c.promoting := rfl
@[simp] theorem Chip.setAgent_zeroing (c : Chip) (a : Agent) : (c.setAgent a).zeroing = c.zeroing := rfl
@[simp] theorem Chip.setAgent_timebase (c : Chip) (a : Agent) : (c.setAgent a).timebase = c.timebase := rfl
@[simp] theorem Chip.setAgent_owls (c : Chip) (a : Agent) : (c.setAgent a).owls = c.owls := rfl
@[simp] theorem Chip.setAgent_channels (c : Chip) (a : Agent) : (c.setAgent a).channels = c.channels := rfl
@[simp] theorem Chip.setAgent_remotes (c : Chip) (a : Agent) : (c.setAgent a).remotes = c.remotes := rfl
@[simp] theorem Chip.setAgent_out (c : Chip) (a : Agent) : (c.setAgent a).out = c.out := rfl
@[simp] theorem Chip.setAgent_joins (c : Chip) (a : Agent) : (c.setAgent a).joins = c.joins := rfl
@[simp] theorem Chip.setAgent_hist (c : Chip) (a : Agent) : (c.setAgent a).hist = c.hist := rfl
@[simp] theorem Chip.setAgent_rels (c : Chip) (a : Agent) : (c.setAgent a).rels = c.rels := rfl
@[simp] theorem Chip.setAgent_sysRels (c : Chip) (a : Agent) : (c.setAgent a).sysRels = c.sysRels := rfl
@[simp] theorem Chip.setAgent_reached (c : Chip) (a : Agent) : (c.setAgent a).reached = c.reached := rfl
@[simp] theorem Chip.setAgent_clock (c : Chip) (a : Agent) : (c.setAgent a).clock = c.clock := rfl
@[simp] theorem Chip.setAgent_nextTask (c : Chip) (a : Agent) : (c.setAgent a).nextTask = c.nextTask := rfl
@[simp] theorem Chip.setAgent_draws (c : Chip) (a : Agent) : (c.setAgent a).draws = c.draws := rfl
@[simp] theorem Chip.setAgent_frees (c : Chip) (a : Agent) : (c.setAgent a).frees = c.frees := rfl
@[simp] theorem Chip.setAgent_steps (c : Chip) (a : Agent) : (c.setAgent a).steps = c.steps := rfl

/-! Chip.tick changes clock only. -/
@[simp] theorem Chip.tick_tid (c : Chip) : (c.tick.2).tid = c.tid := rfl
@[simp] theorem Chip.tick_t (c : Chip) : (c.tick.2).t = c.t := rfl
@[simp] theorem Chip.tick_others (c : Chip) : (c.tick.2).others = c.others := rfl
@[simp] theorem Chip.tick_mem (c : Chip) : (c.tick.2).mem = c.mem := rfl
@[simp] theorem Chip.tick_empties (c : Chip) : (c.tick.2).empties = c.empties := rfl
@[simp] theorem Chip.tick_poison (c : Chip) : (c.tick.2).poison = c.poison := rfl
@[simp] theorem Chip.tick_cores (c : Chip) : (c.tick.2).cores = c.cores := rfl
@[simp] theorem Chip.tick_clusters (c : Chip) : (c.tick.2).clusters = c.clusters := rfl
@[simp] theorem Chip.tick_dies (c : Chip) : (c.tick.2).dies = c.dies := rfl
@[simp] theorem Chip.tick_routines (c : Chip) : (c.tick.2).routines = c.routines := rfl
@[simp] theorem Chip.tick_jobs (c : Chip) : (c.tick.2).jobs = c.jobs := rfl
@[simp] theorem Chip.tick_tiles (c : Chip) : (c.tick.2).tiles = c.tiles := rfl
@[simp] theorem Chip.tick_launches (c : Chip) : (c.tick.2).launches = c.launches := rfl
@[simp] theorem Chip.tick_walks (c : Chip) : (c.tick.2).walks = c.walks := rfl
@[simp] theorem Chip.tick_saved (c : Chip) : (c.tick.2).saved = c.saved := rfl
@[simp] theorem Chip.tick_images (c : Chip) : (c.tick.2).images = c.images := rfl
@[simp] theorem Chip.tick_locks (c : Chip) : (c.tick.2).locks = c.locks := rfl
@[simp] theorem Chip.tick_barriers (c : Chip) : (c.tick.2).barriers = c.barriers := rfl
@[simp] theorem Chip.tick_passed (c : Chip) : (c.tick.2).passed = c.passed := rfl
@[simp] theorem Chip.tick_hoard (c : Chip) : (c.tick.2).hoard = c.hoard := rfl
@[simp] theorem Chip.tick_asked (c : Chip) : (c.tick.2).asked = c.asked := rfl
@[simp] theorem Chip.tick_triggers (c : Chip) : (c.tick.2).triggers = c.triggers := rfl
@[simp] theorem Chip.tick_den (c : Chip) : (c.tick.2).den = c.den := rfl
@[simp] theorem Chip.tick_stage3 (c : Chip) : (c.tick.2).stage3 = c.stage3 := rfl
@[simp] theorem Chip.tick_denT1 (c : Chip) : (c.tick.2).denT1 = c.denT1 := rfl
@[simp] theorem Chip.tick_denT2 (c : Chip) : (c.tick.2).denT2 = c.denT2 := rfl
@[simp] theorem Chip.tick_idle (c : Chip) : (c.tick.2).idle = c.idle := rfl
@[simp] theorem Chip.tick_tcopies (c : Chip) : (c.tick.2).tcopies = c.tcopies := rfl
@[simp] theorem Chip.tick_flash (c : Chip) : (c.tick.2).flash = c.flash := rfl
@[simp] theorem Chip.tick_relics (c : Chip) : (c.tick.2).relics = c.relics := rfl
@[simp] theorem Chip.tick_promoting (c : Chip) : (c.tick.2).promoting = c.promoting := rfl
@[simp] theorem Chip.tick_zeroing (c : Chip) : (c.tick.2).zeroing = c.zeroing := rfl
@[simp] theorem Chip.tick_timebase (c : Chip) : (c.tick.2).timebase = c.timebase := rfl
@[simp] theorem Chip.tick_owls (c : Chip) : (c.tick.2).owls = c.owls := rfl
@[simp] theorem Chip.tick_channels (c : Chip) : (c.tick.2).channels = c.channels := rfl
@[simp] theorem Chip.tick_remotes (c : Chip) : (c.tick.2).remotes = c.remotes := rfl
@[simp] theorem Chip.tick_out (c : Chip) : (c.tick.2).out = c.out := rfl
@[simp] theorem Chip.tick_joins (c : Chip) : (c.tick.2).joins = c.joins := rfl
@[simp] theorem Chip.tick_hist (c : Chip) : (c.tick.2).hist = c.hist := rfl
@[simp] theorem Chip.tick_agents (c : Chip) : (c.tick.2).agents = c.agents := rfl
@[simp] theorem Chip.tick_rels (c : Chip) : (c.tick.2).rels = c.rels := rfl
@[simp] theorem Chip.tick_sysRels (c : Chip) : (c.tick.2).sysRels = c.sysRels := rfl
@[simp] theorem Chip.tick_reached (c : Chip) : (c.tick.2).reached = c.reached := rfl
@[simp] theorem Chip.tick_nextTask (c : Chip) : (c.tick.2).nextTask = c.nextTask := rfl
@[simp] theorem Chip.tick_draws (c : Chip) : (c.tick.2).draws = c.draws := rfl
@[simp] theorem Chip.tick_frees (c : Chip) : (c.tick.2).frees = c.frees := rfl
@[simp] theorem Chip.tick_steps (c : Chip) : (c.tick.2).steps = c.steps := rfl

/-! Chip.free changes frees only. -/
@[simp] theorem Chip.free_tid (c : Chip) : (c.free.2).tid = c.tid := rfl
@[simp] theorem Chip.free_t (c : Chip) : (c.free.2).t = c.t := rfl
@[simp] theorem Chip.free_others (c : Chip) : (c.free.2).others = c.others := rfl
@[simp] theorem Chip.free_mem (c : Chip) : (c.free.2).mem = c.mem := rfl
@[simp] theorem Chip.free_empties (c : Chip) : (c.free.2).empties = c.empties := rfl
@[simp] theorem Chip.free_poison (c : Chip) : (c.free.2).poison = c.poison := rfl
@[simp] theorem Chip.free_cores (c : Chip) : (c.free.2).cores = c.cores := rfl
@[simp] theorem Chip.free_clusters (c : Chip) : (c.free.2).clusters = c.clusters := rfl
@[simp] theorem Chip.free_dies (c : Chip) : (c.free.2).dies = c.dies := rfl
@[simp] theorem Chip.free_routines (c : Chip) : (c.free.2).routines = c.routines := rfl
@[simp] theorem Chip.free_jobs (c : Chip) : (c.free.2).jobs = c.jobs := rfl
@[simp] theorem Chip.free_tiles (c : Chip) : (c.free.2).tiles = c.tiles := rfl
@[simp] theorem Chip.free_launches (c : Chip) : (c.free.2).launches = c.launches := rfl
@[simp] theorem Chip.free_walks (c : Chip) : (c.free.2).walks = c.walks := rfl
@[simp] theorem Chip.free_saved (c : Chip) : (c.free.2).saved = c.saved := rfl
@[simp] theorem Chip.free_images (c : Chip) : (c.free.2).images = c.images := rfl
@[simp] theorem Chip.free_locks (c : Chip) : (c.free.2).locks = c.locks := rfl
@[simp] theorem Chip.free_barriers (c : Chip) : (c.free.2).barriers = c.barriers := rfl
@[simp] theorem Chip.free_passed (c : Chip) : (c.free.2).passed = c.passed := rfl
@[simp] theorem Chip.free_hoard (c : Chip) : (c.free.2).hoard = c.hoard := rfl
@[simp] theorem Chip.free_asked (c : Chip) : (c.free.2).asked = c.asked := rfl
@[simp] theorem Chip.free_triggers (c : Chip) : (c.free.2).triggers = c.triggers := rfl
@[simp] theorem Chip.free_den (c : Chip) : (c.free.2).den = c.den := rfl
@[simp] theorem Chip.free_stage3 (c : Chip) : (c.free.2).stage3 = c.stage3 := rfl
@[simp] theorem Chip.free_denT1 (c : Chip) : (c.free.2).denT1 = c.denT1 := rfl
@[simp] theorem Chip.free_denT2 (c : Chip) : (c.free.2).denT2 = c.denT2 := rfl
@[simp] theorem Chip.free_idle (c : Chip) : (c.free.2).idle = c.idle := rfl
@[simp] theorem Chip.free_tcopies (c : Chip) : (c.free.2).tcopies = c.tcopies := rfl
@[simp] theorem Chip.free_flash (c : Chip) : (c.free.2).flash = c.flash := rfl
@[simp] theorem Chip.free_relics (c : Chip) : (c.free.2).relics = c.relics := rfl
@[simp] theorem Chip.free_promoting (c : Chip) : (c.free.2).promoting = c.promoting := rfl
@[simp] theorem Chip.free_zeroing (c : Chip) : (c.free.2).zeroing = c.zeroing := rfl
@[simp] theorem Chip.free_timebase (c : Chip) : (c.free.2).timebase = c.timebase := rfl
@[simp] theorem Chip.free_owls (c : Chip) : (c.free.2).owls = c.owls := rfl
@[simp] theorem Chip.free_channels (c : Chip) : (c.free.2).channels = c.channels := rfl
@[simp] theorem Chip.free_remotes (c : Chip) : (c.free.2).remotes = c.remotes := rfl
@[simp] theorem Chip.free_out (c : Chip) : (c.free.2).out = c.out := rfl
@[simp] theorem Chip.free_joins (c : Chip) : (c.free.2).joins = c.joins := rfl
@[simp] theorem Chip.free_hist (c : Chip) : (c.free.2).hist = c.hist := rfl
@[simp] theorem Chip.free_agents (c : Chip) : (c.free.2).agents = c.agents := rfl
@[simp] theorem Chip.free_rels (c : Chip) : (c.free.2).rels = c.rels := rfl
@[simp] theorem Chip.free_sysRels (c : Chip) : (c.free.2).sysRels = c.sysRels := rfl
@[simp] theorem Chip.free_reached (c : Chip) : (c.free.2).reached = c.reached := rfl
@[simp] theorem Chip.free_clock (c : Chip) : (c.free.2).clock = c.clock := rfl
@[simp] theorem Chip.free_nextTask (c : Chip) : (c.free.2).nextTask = c.nextTask := rfl
@[simp] theorem Chip.free_draws (c : Chip) : (c.free.2).draws = c.draws := rfl
@[simp] theorem Chip.free_steps (c : Chip) : (c.free.2).steps = c.steps := rfl

/-! Chip.setTile changes tiles only. -/
@[simp] theorem Chip.setTile_tid (c : Chip) (x : Tile) : (c.setTile x).tid = c.tid := rfl
@[simp] theorem Chip.setTile_t (c : Chip) (x : Tile) : (c.setTile x).t = c.t := rfl
@[simp] theorem Chip.setTile_others (c : Chip) (x : Tile) : (c.setTile x).others = c.others := rfl
@[simp] theorem Chip.setTile_mem (c : Chip) (x : Tile) : (c.setTile x).mem = c.mem := rfl
@[simp] theorem Chip.setTile_empties (c : Chip) (x : Tile) : (c.setTile x).empties = c.empties := rfl
@[simp] theorem Chip.setTile_poison (c : Chip) (x : Tile) : (c.setTile x).poison = c.poison := rfl
@[simp] theorem Chip.setTile_cores (c : Chip) (x : Tile) : (c.setTile x).cores = c.cores := rfl
@[simp] theorem Chip.setTile_clusters (c : Chip) (x : Tile) : (c.setTile x).clusters = c.clusters := rfl
@[simp] theorem Chip.setTile_dies (c : Chip) (x : Tile) : (c.setTile x).dies = c.dies := rfl
@[simp] theorem Chip.setTile_routines (c : Chip) (x : Tile) : (c.setTile x).routines = c.routines := rfl
@[simp] theorem Chip.setTile_jobs (c : Chip) (x : Tile) : (c.setTile x).jobs = c.jobs := rfl
@[simp] theorem Chip.setTile_launches (c : Chip) (x : Tile) : (c.setTile x).launches = c.launches := rfl
@[simp] theorem Chip.setTile_walks (c : Chip) (x : Tile) : (c.setTile x).walks = c.walks := rfl
@[simp] theorem Chip.setTile_saved (c : Chip) (x : Tile) : (c.setTile x).saved = c.saved := rfl
@[simp] theorem Chip.setTile_images (c : Chip) (x : Tile) : (c.setTile x).images = c.images := rfl
@[simp] theorem Chip.setTile_locks (c : Chip) (x : Tile) : (c.setTile x).locks = c.locks := rfl
@[simp] theorem Chip.setTile_barriers (c : Chip) (x : Tile) : (c.setTile x).barriers = c.barriers := rfl
@[simp] theorem Chip.setTile_passed (c : Chip) (x : Tile) : (c.setTile x).passed = c.passed := rfl
@[simp] theorem Chip.setTile_hoard (c : Chip) (x : Tile) : (c.setTile x).hoard = c.hoard := rfl
@[simp] theorem Chip.setTile_asked (c : Chip) (x : Tile) : (c.setTile x).asked = c.asked := rfl
@[simp] theorem Chip.setTile_triggers (c : Chip) (x : Tile) : (c.setTile x).triggers = c.triggers := rfl
@[simp] theorem Chip.setTile_den (c : Chip) (x : Tile) : (c.setTile x).den = c.den := rfl
@[simp] theorem Chip.setTile_stage3 (c : Chip) (x : Tile) : (c.setTile x).stage3 = c.stage3 := rfl
@[simp] theorem Chip.setTile_denT1 (c : Chip) (x : Tile) : (c.setTile x).denT1 = c.denT1 := rfl
@[simp] theorem Chip.setTile_denT2 (c : Chip) (x : Tile) : (c.setTile x).denT2 = c.denT2 := rfl
@[simp] theorem Chip.setTile_idle (c : Chip) (x : Tile) : (c.setTile x).idle = c.idle := rfl
@[simp] theorem Chip.setTile_tcopies (c : Chip) (x : Tile) : (c.setTile x).tcopies = c.tcopies := rfl
@[simp] theorem Chip.setTile_flash (c : Chip) (x : Tile) : (c.setTile x).flash = c.flash := rfl
@[simp] theorem Chip.setTile_relics (c : Chip) (x : Tile) : (c.setTile x).relics = c.relics := rfl
@[simp] theorem Chip.setTile_promoting (c : Chip) (x : Tile) : (c.setTile x).promoting = c.promoting := rfl
@[simp] theorem Chip.setTile_zeroing (c : Chip) (x : Tile) : (c.setTile x).zeroing = c.zeroing := rfl
@[simp] theorem Chip.setTile_timebase (c : Chip) (x : Tile) : (c.setTile x).timebase = c.timebase := rfl
@[simp] theorem Chip.setTile_owls (c : Chip) (x : Tile) : (c.setTile x).owls = c.owls := rfl
@[simp] theorem Chip.setTile_channels (c : Chip) (x : Tile) : (c.setTile x).channels = c.channels := rfl
@[simp] theorem Chip.setTile_remotes (c : Chip) (x : Tile) : (c.setTile x).remotes = c.remotes := rfl
@[simp] theorem Chip.setTile_out (c : Chip) (x : Tile) : (c.setTile x).out = c.out := rfl
@[simp] theorem Chip.setTile_joins (c : Chip) (x : Tile) : (c.setTile x).joins = c.joins := rfl
@[simp] theorem Chip.setTile_hist (c : Chip) (x : Tile) : (c.setTile x).hist = c.hist := rfl
@[simp] theorem Chip.setTile_agents (c : Chip) (x : Tile) : (c.setTile x).agents = c.agents := rfl
@[simp] theorem Chip.setTile_rels (c : Chip) (x : Tile) : (c.setTile x).rels = c.rels := rfl
@[simp] theorem Chip.setTile_sysRels (c : Chip) (x : Tile) : (c.setTile x).sysRels = c.sysRels := rfl
@[simp] theorem Chip.setTile_reached (c : Chip) (x : Tile) : (c.setTile x).reached = c.reached := rfl
@[simp] theorem Chip.setTile_clock (c : Chip) (x : Tile) : (c.setTile x).clock = c.clock := rfl
@[simp] theorem Chip.setTile_nextTask (c : Chip) (x : Tile) : (c.setTile x).nextTask = c.nextTask := rfl
@[simp] theorem Chip.setTile_draws (c : Chip) (x : Tile) : (c.setTile x).draws = c.draws := rfl
@[simp] theorem Chip.setTile_frees (c : Chip) (x : Tile) : (c.setTile x).frees = c.frees := rfl
@[simp] theorem Chip.setTile_steps (c : Chip) (x : Tile) : (c.setTile x).steps = c.steps := rfl

/-! Chip.releaseLock changes locks only. -/
@[simp] theorem Chip.releaseLock_tid (c : Chip) (u : TId) : (c.releaseLock u).tid = c.tid := rfl
@[simp] theorem Chip.releaseLock_t (c : Chip) (u : TId) : (c.releaseLock u).t = c.t := rfl
@[simp] theorem Chip.releaseLock_others (c : Chip) (u : TId) : (c.releaseLock u).others = c.others := rfl
@[simp] theorem Chip.releaseLock_mem (c : Chip) (u : TId) : (c.releaseLock u).mem = c.mem := rfl
@[simp] theorem Chip.releaseLock_empties (c : Chip) (u : TId) : (c.releaseLock u).empties = c.empties := rfl
@[simp] theorem Chip.releaseLock_poison (c : Chip) (u : TId) : (c.releaseLock u).poison = c.poison := rfl
@[simp] theorem Chip.releaseLock_cores (c : Chip) (u : TId) : (c.releaseLock u).cores = c.cores := rfl
@[simp] theorem Chip.releaseLock_clusters (c : Chip) (u : TId) : (c.releaseLock u).clusters = c.clusters := rfl
@[simp] theorem Chip.releaseLock_dies (c : Chip) (u : TId) : (c.releaseLock u).dies = c.dies := rfl
@[simp] theorem Chip.releaseLock_routines (c : Chip) (u : TId) : (c.releaseLock u).routines = c.routines := rfl
@[simp] theorem Chip.releaseLock_jobs (c : Chip) (u : TId) : (c.releaseLock u).jobs = c.jobs := rfl
@[simp] theorem Chip.releaseLock_tiles (c : Chip) (u : TId) : (c.releaseLock u).tiles = c.tiles := rfl
@[simp] theorem Chip.releaseLock_launches (c : Chip) (u : TId) : (c.releaseLock u).launches = c.launches := rfl
@[simp] theorem Chip.releaseLock_walks (c : Chip) (u : TId) : (c.releaseLock u).walks = c.walks := rfl
@[simp] theorem Chip.releaseLock_saved (c : Chip) (u : TId) : (c.releaseLock u).saved = c.saved := rfl
@[simp] theorem Chip.releaseLock_images (c : Chip) (u : TId) : (c.releaseLock u).images = c.images := rfl
@[simp] theorem Chip.releaseLock_barriers (c : Chip) (u : TId) : (c.releaseLock u).barriers = c.barriers := rfl
@[simp] theorem Chip.releaseLock_passed (c : Chip) (u : TId) : (c.releaseLock u).passed = c.passed := rfl
@[simp] theorem Chip.releaseLock_hoard (c : Chip) (u : TId) : (c.releaseLock u).hoard = c.hoard := rfl
@[simp] theorem Chip.releaseLock_asked (c : Chip) (u : TId) : (c.releaseLock u).asked = c.asked := rfl
@[simp] theorem Chip.releaseLock_triggers (c : Chip) (u : TId) : (c.releaseLock u).triggers = c.triggers := rfl
@[simp] theorem Chip.releaseLock_den (c : Chip) (u : TId) : (c.releaseLock u).den = c.den := rfl
@[simp] theorem Chip.releaseLock_stage3 (c : Chip) (u : TId) : (c.releaseLock u).stage3 = c.stage3 := rfl
@[simp] theorem Chip.releaseLock_denT1 (c : Chip) (u : TId) : (c.releaseLock u).denT1 = c.denT1 := rfl
@[simp] theorem Chip.releaseLock_denT2 (c : Chip) (u : TId) : (c.releaseLock u).denT2 = c.denT2 := rfl
@[simp] theorem Chip.releaseLock_idle (c : Chip) (u : TId) : (c.releaseLock u).idle = c.idle := rfl
@[simp] theorem Chip.releaseLock_tcopies (c : Chip) (u : TId) : (c.releaseLock u).tcopies = c.tcopies := rfl
@[simp] theorem Chip.releaseLock_flash (c : Chip) (u : TId) : (c.releaseLock u).flash = c.flash := rfl
@[simp] theorem Chip.releaseLock_relics (c : Chip) (u : TId) : (c.releaseLock u).relics = c.relics := rfl
@[simp] theorem Chip.releaseLock_promoting (c : Chip) (u : TId) : (c.releaseLock u).promoting = c.promoting := rfl
@[simp] theorem Chip.releaseLock_zeroing (c : Chip) (u : TId) : (c.releaseLock u).zeroing = c.zeroing := rfl
@[simp] theorem Chip.releaseLock_timebase (c : Chip) (u : TId) : (c.releaseLock u).timebase = c.timebase := rfl
@[simp] theorem Chip.releaseLock_owls (c : Chip) (u : TId) : (c.releaseLock u).owls = c.owls := rfl
@[simp] theorem Chip.releaseLock_channels (c : Chip) (u : TId) : (c.releaseLock u).channels = c.channels := rfl
@[simp] theorem Chip.releaseLock_remotes (c : Chip) (u : TId) : (c.releaseLock u).remotes = c.remotes := rfl
@[simp] theorem Chip.releaseLock_out (c : Chip) (u : TId) : (c.releaseLock u).out = c.out := rfl
@[simp] theorem Chip.releaseLock_joins (c : Chip) (u : TId) : (c.releaseLock u).joins = c.joins := rfl
@[simp] theorem Chip.releaseLock_hist (c : Chip) (u : TId) : (c.releaseLock u).hist = c.hist := rfl
@[simp] theorem Chip.releaseLock_agents (c : Chip) (u : TId) : (c.releaseLock u).agents = c.agents := rfl
@[simp] theorem Chip.releaseLock_rels (c : Chip) (u : TId) : (c.releaseLock u).rels = c.rels := rfl
@[simp] theorem Chip.releaseLock_sysRels (c : Chip) (u : TId) : (c.releaseLock u).sysRels = c.sysRels := rfl
@[simp] theorem Chip.releaseLock_reached (c : Chip) (u : TId) : (c.releaseLock u).reached = c.reached := rfl
@[simp] theorem Chip.releaseLock_clock (c : Chip) (u : TId) : (c.releaseLock u).clock = c.clock := rfl
@[simp] theorem Chip.releaseLock_nextTask (c : Chip) (u : TId) : (c.releaseLock u).nextTask = c.nextTask := rfl
@[simp] theorem Chip.releaseLock_draws (c : Chip) (u : TId) : (c.releaseLock u).draws = c.draws := rfl
@[simp] theorem Chip.releaseLock_frees (c : Chip) (u : TId) : (c.releaseLock u).frees = c.frees := rfl
@[simp] theorem Chip.releaseLock_steps (c : Chip) (u : TId) : (c.releaseLock u).steps = c.steps := rfl

/-! Chip.dropHoard changes hoard and asked only. -/
@[simp] theorem Chip.dropHoard_tid (c : Chip) (u : TId) : (c.dropHoard u).tid = c.tid := rfl
@[simp] theorem Chip.dropHoard_t (c : Chip) (u : TId) : (c.dropHoard u).t = c.t := rfl
@[simp] theorem Chip.dropHoard_others (c : Chip) (u : TId) : (c.dropHoard u).others = c.others := rfl
@[simp] theorem Chip.dropHoard_mem (c : Chip) (u : TId) : (c.dropHoard u).mem = c.mem := rfl
@[simp] theorem Chip.dropHoard_empties (c : Chip) (u : TId) : (c.dropHoard u).empties = c.empties := rfl
@[simp] theorem Chip.dropHoard_poison (c : Chip) (u : TId) : (c.dropHoard u).poison = c.poison := rfl
@[simp] theorem Chip.dropHoard_cores (c : Chip) (u : TId) : (c.dropHoard u).cores = c.cores := rfl
@[simp] theorem Chip.dropHoard_clusters (c : Chip) (u : TId) : (c.dropHoard u).clusters = c.clusters := rfl
@[simp] theorem Chip.dropHoard_dies (c : Chip) (u : TId) : (c.dropHoard u).dies = c.dies := rfl
@[simp] theorem Chip.dropHoard_routines (c : Chip) (u : TId) : (c.dropHoard u).routines = c.routines := rfl
@[simp] theorem Chip.dropHoard_jobs (c : Chip) (u : TId) : (c.dropHoard u).jobs = c.jobs := rfl
@[simp] theorem Chip.dropHoard_tiles (c : Chip) (u : TId) : (c.dropHoard u).tiles = c.tiles := rfl
@[simp] theorem Chip.dropHoard_launches (c : Chip) (u : TId) : (c.dropHoard u).launches = c.launches := rfl
@[simp] theorem Chip.dropHoard_walks (c : Chip) (u : TId) : (c.dropHoard u).walks = c.walks := rfl
@[simp] theorem Chip.dropHoard_saved (c : Chip) (u : TId) : (c.dropHoard u).saved = c.saved := rfl
@[simp] theorem Chip.dropHoard_images (c : Chip) (u : TId) : (c.dropHoard u).images = c.images := rfl
@[simp] theorem Chip.dropHoard_locks (c : Chip) (u : TId) : (c.dropHoard u).locks = c.locks := rfl
@[simp] theorem Chip.dropHoard_barriers (c : Chip) (u : TId) : (c.dropHoard u).barriers = c.barriers := rfl
@[simp] theorem Chip.dropHoard_passed (c : Chip) (u : TId) : (c.dropHoard u).passed = c.passed := rfl
@[simp] theorem Chip.dropHoard_triggers (c : Chip) (u : TId) : (c.dropHoard u).triggers = c.triggers := rfl
@[simp] theorem Chip.dropHoard_den (c : Chip) (u : TId) : (c.dropHoard u).den = c.den := rfl
@[simp] theorem Chip.dropHoard_stage3 (c : Chip) (u : TId) : (c.dropHoard u).stage3 = c.stage3 := rfl
@[simp] theorem Chip.dropHoard_denT1 (c : Chip) (u : TId) : (c.dropHoard u).denT1 = c.denT1 := rfl
@[simp] theorem Chip.dropHoard_denT2 (c : Chip) (u : TId) : (c.dropHoard u).denT2 = c.denT2 := rfl
@[simp] theorem Chip.dropHoard_idle (c : Chip) (u : TId) : (c.dropHoard u).idle = c.idle := rfl
@[simp] theorem Chip.dropHoard_tcopies (c : Chip) (u : TId) : (c.dropHoard u).tcopies = c.tcopies := rfl
@[simp] theorem Chip.dropHoard_flash (c : Chip) (u : TId) : (c.dropHoard u).flash = c.flash := rfl
@[simp] theorem Chip.dropHoard_relics (c : Chip) (u : TId) : (c.dropHoard u).relics = c.relics := rfl
@[simp] theorem Chip.dropHoard_promoting (c : Chip) (u : TId) : (c.dropHoard u).promoting = c.promoting := rfl
@[simp] theorem Chip.dropHoard_zeroing (c : Chip) (u : TId) : (c.dropHoard u).zeroing = c.zeroing := rfl
@[simp] theorem Chip.dropHoard_timebase (c : Chip) (u : TId) : (c.dropHoard u).timebase = c.timebase := rfl
@[simp] theorem Chip.dropHoard_owls (c : Chip) (u : TId) : (c.dropHoard u).owls = c.owls := rfl
@[simp] theorem Chip.dropHoard_channels (c : Chip) (u : TId) : (c.dropHoard u).channels = c.channels := rfl
@[simp] theorem Chip.dropHoard_remotes (c : Chip) (u : TId) : (c.dropHoard u).remotes = c.remotes := rfl
@[simp] theorem Chip.dropHoard_out (c : Chip) (u : TId) : (c.dropHoard u).out = c.out := rfl
@[simp] theorem Chip.dropHoard_joins (c : Chip) (u : TId) : (c.dropHoard u).joins = c.joins := rfl
@[simp] theorem Chip.dropHoard_hist (c : Chip) (u : TId) : (c.dropHoard u).hist = c.hist := rfl
@[simp] theorem Chip.dropHoard_agents (c : Chip) (u : TId) : (c.dropHoard u).agents = c.agents := rfl
@[simp] theorem Chip.dropHoard_rels (c : Chip) (u : TId) : (c.dropHoard u).rels = c.rels := rfl
@[simp] theorem Chip.dropHoard_sysRels (c : Chip) (u : TId) : (c.dropHoard u).sysRels = c.sysRels := rfl
@[simp] theorem Chip.dropHoard_reached (c : Chip) (u : TId) : (c.dropHoard u).reached = c.reached := rfl
@[simp] theorem Chip.dropHoard_clock (c : Chip) (u : TId) : (c.dropHoard u).clock = c.clock := rfl
@[simp] theorem Chip.dropHoard_nextTask (c : Chip) (u : TId) : (c.dropHoard u).nextTask = c.nextTask := rfl
@[simp] theorem Chip.dropHoard_draws (c : Chip) (u : TId) : (c.dropHoard u).draws = c.draws := rfl
@[simp] theorem Chip.dropHoard_frees (c : Chip) (u : TId) : (c.dropHoard u).frees = c.frees := rfl
@[simp] theorem Chip.dropHoard_steps (c : Chip) (u : TId) : (c.dropHoard u).steps = c.steps := rfl

/-! Chip.restartJobs changes jobs and tiles only. -/
@[simp] theorem Chip.restartJobs_tid (c : Chip) (n : Nat) : (c.restartJobs n).tid = c.tid := rfl
@[simp] theorem Chip.restartJobs_t (c : Chip) (n : Nat) : (c.restartJobs n).t = c.t := rfl
@[simp] theorem Chip.restartJobs_others (c : Chip) (n : Nat) : (c.restartJobs n).others = c.others := rfl
@[simp] theorem Chip.restartJobs_mem (c : Chip) (n : Nat) : (c.restartJobs n).mem = c.mem := rfl
@[simp] theorem Chip.restartJobs_empties (c : Chip) (n : Nat) : (c.restartJobs n).empties = c.empties := rfl
@[simp] theorem Chip.restartJobs_poison (c : Chip) (n : Nat) : (c.restartJobs n).poison = c.poison := rfl
@[simp] theorem Chip.restartJobs_cores (c : Chip) (n : Nat) : (c.restartJobs n).cores = c.cores := rfl
@[simp] theorem Chip.restartJobs_clusters (c : Chip) (n : Nat) : (c.restartJobs n).clusters = c.clusters := rfl
@[simp] theorem Chip.restartJobs_dies (c : Chip) (n : Nat) : (c.restartJobs n).dies = c.dies := rfl
@[simp] theorem Chip.restartJobs_routines (c : Chip) (n : Nat) : (c.restartJobs n).routines = c.routines := rfl
@[simp] theorem Chip.restartJobs_launches (c : Chip) (n : Nat) : (c.restartJobs n).launches = c.launches := rfl
@[simp] theorem Chip.restartJobs_walks (c : Chip) (n : Nat) : (c.restartJobs n).walks = c.walks := rfl
@[simp] theorem Chip.restartJobs_saved (c : Chip) (n : Nat) : (c.restartJobs n).saved = c.saved := rfl
@[simp] theorem Chip.restartJobs_images (c : Chip) (n : Nat) : (c.restartJobs n).images = c.images := rfl
@[simp] theorem Chip.restartJobs_locks (c : Chip) (n : Nat) : (c.restartJobs n).locks = c.locks := rfl
@[simp] theorem Chip.restartJobs_barriers (c : Chip) (n : Nat) : (c.restartJobs n).barriers = c.barriers := rfl
@[simp] theorem Chip.restartJobs_passed (c : Chip) (n : Nat) : (c.restartJobs n).passed = c.passed := rfl
@[simp] theorem Chip.restartJobs_hoard (c : Chip) (n : Nat) : (c.restartJobs n).hoard = c.hoard := rfl
@[simp] theorem Chip.restartJobs_asked (c : Chip) (n : Nat) : (c.restartJobs n).asked = c.asked := rfl
@[simp] theorem Chip.restartJobs_triggers (c : Chip) (n : Nat) : (c.restartJobs n).triggers = c.triggers := rfl
@[simp] theorem Chip.restartJobs_den (c : Chip) (n : Nat) : (c.restartJobs n).den = c.den := rfl
@[simp] theorem Chip.restartJobs_stage3 (c : Chip) (n : Nat) : (c.restartJobs n).stage3 = c.stage3 := rfl
@[simp] theorem Chip.restartJobs_denT1 (c : Chip) (n : Nat) : (c.restartJobs n).denT1 = c.denT1 := rfl
@[simp] theorem Chip.restartJobs_denT2 (c : Chip) (n : Nat) : (c.restartJobs n).denT2 = c.denT2 := rfl
@[simp] theorem Chip.restartJobs_idle (c : Chip) (n : Nat) : (c.restartJobs n).idle = c.idle := rfl
@[simp] theorem Chip.restartJobs_tcopies (c : Chip) (n : Nat) : (c.restartJobs n).tcopies = c.tcopies := rfl
@[simp] theorem Chip.restartJobs_flash (c : Chip) (n : Nat) : (c.restartJobs n).flash = c.flash := rfl
@[simp] theorem Chip.restartJobs_relics (c : Chip) (n : Nat) : (c.restartJobs n).relics = c.relics := rfl
@[simp] theorem Chip.restartJobs_promoting (c : Chip) (n : Nat) : (c.restartJobs n).promoting = c.promoting := rfl
@[simp] theorem Chip.restartJobs_zeroing (c : Chip) (n : Nat) : (c.restartJobs n).zeroing = c.zeroing := rfl
@[simp] theorem Chip.restartJobs_timebase (c : Chip) (n : Nat) : (c.restartJobs n).timebase = c.timebase := rfl
@[simp] theorem Chip.restartJobs_owls (c : Chip) (n : Nat) : (c.restartJobs n).owls = c.owls := rfl
@[simp] theorem Chip.restartJobs_channels (c : Chip) (n : Nat) : (c.restartJobs n).channels = c.channels := rfl
@[simp] theorem Chip.restartJobs_remotes (c : Chip) (n : Nat) : (c.restartJobs n).remotes = c.remotes := rfl
@[simp] theorem Chip.restartJobs_out (c : Chip) (n : Nat) : (c.restartJobs n).out = c.out := rfl
@[simp] theorem Chip.restartJobs_joins (c : Chip) (n : Nat) : (c.restartJobs n).joins = c.joins := rfl
@[simp] theorem Chip.restartJobs_hist (c : Chip) (n : Nat) : (c.restartJobs n).hist = c.hist := rfl
@[simp] theorem Chip.restartJobs_agents (c : Chip) (n : Nat) : (c.restartJobs n).agents = c.agents := rfl
@[simp] theorem Chip.restartJobs_rels (c : Chip) (n : Nat) : (c.restartJobs n).rels = c.rels := rfl
@[simp] theorem Chip.restartJobs_sysRels (c : Chip) (n : Nat) : (c.restartJobs n).sysRels = c.sysRels := rfl
@[simp] theorem Chip.restartJobs_reached (c : Chip) (n : Nat) : (c.restartJobs n).reached = c.reached := rfl
@[simp] theorem Chip.restartJobs_clock (c : Chip) (n : Nat) : (c.restartJobs n).clock = c.clock := rfl
@[simp] theorem Chip.restartJobs_nextTask (c : Chip) (n : Nat) : (c.restartJobs n).nextTask = c.nextTask := rfl
@[simp] theorem Chip.restartJobs_draws (c : Chip) (n : Nat) : (c.restartJobs n).draws = c.draws := rfl
@[simp] theorem Chip.restartJobs_frees (c : Chip) (n : Nat) : (c.restartJobs n).frees = c.frees := rfl
@[simp] theorem Chip.restartJobs_steps (c : Chip) (n : Nat) : (c.restartJobs n).steps = c.steps := rfl

/-! Chip.settleTiles changes tiles only. -/
@[simp] theorem Chip.settleTiles_tid (c : Chip) (n : Nat) : (c.settleTiles n).tid = c.tid := rfl
@[simp] theorem Chip.settleTiles_t (c : Chip) (n : Nat) : (c.settleTiles n).t = c.t := rfl
@[simp] theorem Chip.settleTiles_others (c : Chip) (n : Nat) : (c.settleTiles n).others = c.others := rfl
@[simp] theorem Chip.settleTiles_mem (c : Chip) (n : Nat) : (c.settleTiles n).mem = c.mem := rfl
@[simp] theorem Chip.settleTiles_empties (c : Chip) (n : Nat) : (c.settleTiles n).empties = c.empties := rfl
@[simp] theorem Chip.settleTiles_poison (c : Chip) (n : Nat) : (c.settleTiles n).poison = c.poison := rfl
@[simp] theorem Chip.settleTiles_cores (c : Chip) (n : Nat) : (c.settleTiles n).cores = c.cores := rfl
@[simp] theorem Chip.settleTiles_clusters (c : Chip) (n : Nat) : (c.settleTiles n).clusters = c.clusters := rfl
@[simp] theorem Chip.settleTiles_dies (c : Chip) (n : Nat) : (c.settleTiles n).dies = c.dies := rfl
@[simp] theorem Chip.settleTiles_routines (c : Chip) (n : Nat) : (c.settleTiles n).routines = c.routines := rfl
@[simp] theorem Chip.settleTiles_jobs (c : Chip) (n : Nat) : (c.settleTiles n).jobs = c.jobs := rfl
@[simp] theorem Chip.settleTiles_launches (c : Chip) (n : Nat) : (c.settleTiles n).launches = c.launches := rfl
@[simp] theorem Chip.settleTiles_walks (c : Chip) (n : Nat) : (c.settleTiles n).walks = c.walks := rfl
@[simp] theorem Chip.settleTiles_saved (c : Chip) (n : Nat) : (c.settleTiles n).saved = c.saved := rfl
@[simp] theorem Chip.settleTiles_images (c : Chip) (n : Nat) : (c.settleTiles n).images = c.images := rfl
@[simp] theorem Chip.settleTiles_locks (c : Chip) (n : Nat) : (c.settleTiles n).locks = c.locks := rfl
@[simp] theorem Chip.settleTiles_barriers (c : Chip) (n : Nat) : (c.settleTiles n).barriers = c.barriers := rfl
@[simp] theorem Chip.settleTiles_passed (c : Chip) (n : Nat) : (c.settleTiles n).passed = c.passed := rfl
@[simp] theorem Chip.settleTiles_hoard (c : Chip) (n : Nat) : (c.settleTiles n).hoard = c.hoard := rfl
@[simp] theorem Chip.settleTiles_asked (c : Chip) (n : Nat) : (c.settleTiles n).asked = c.asked := rfl
@[simp] theorem Chip.settleTiles_triggers (c : Chip) (n : Nat) : (c.settleTiles n).triggers = c.triggers := rfl
@[simp] theorem Chip.settleTiles_den (c : Chip) (n : Nat) : (c.settleTiles n).den = c.den := rfl
@[simp] theorem Chip.settleTiles_stage3 (c : Chip) (n : Nat) : (c.settleTiles n).stage3 = c.stage3 := rfl
@[simp] theorem Chip.settleTiles_denT1 (c : Chip) (n : Nat) : (c.settleTiles n).denT1 = c.denT1 := rfl
@[simp] theorem Chip.settleTiles_denT2 (c : Chip) (n : Nat) : (c.settleTiles n).denT2 = c.denT2 := rfl
@[simp] theorem Chip.settleTiles_idle (c : Chip) (n : Nat) : (c.settleTiles n).idle = c.idle := rfl
@[simp] theorem Chip.settleTiles_tcopies (c : Chip) (n : Nat) : (c.settleTiles n).tcopies = c.tcopies := rfl
@[simp] theorem Chip.settleTiles_flash (c : Chip) (n : Nat) : (c.settleTiles n).flash = c.flash := rfl
@[simp] theorem Chip.settleTiles_relics (c : Chip) (n : Nat) : (c.settleTiles n).relics = c.relics := rfl
@[simp] theorem Chip.settleTiles_promoting (c : Chip) (n : Nat) : (c.settleTiles n).promoting = c.promoting := rfl
@[simp] theorem Chip.settleTiles_zeroing (c : Chip) (n : Nat) : (c.settleTiles n).zeroing = c.zeroing := rfl
@[simp] theorem Chip.settleTiles_timebase (c : Chip) (n : Nat) : (c.settleTiles n).timebase = c.timebase := rfl
@[simp] theorem Chip.settleTiles_owls (c : Chip) (n : Nat) : (c.settleTiles n).owls = c.owls := rfl
@[simp] theorem Chip.settleTiles_channels (c : Chip) (n : Nat) : (c.settleTiles n).channels = c.channels := rfl
@[simp] theorem Chip.settleTiles_remotes (c : Chip) (n : Nat) : (c.settleTiles n).remotes = c.remotes := rfl
@[simp] theorem Chip.settleTiles_out (c : Chip) (n : Nat) : (c.settleTiles n).out = c.out := rfl
@[simp] theorem Chip.settleTiles_joins (c : Chip) (n : Nat) : (c.settleTiles n).joins = c.joins := rfl
@[simp] theorem Chip.settleTiles_hist (c : Chip) (n : Nat) : (c.settleTiles n).hist = c.hist := rfl
@[simp] theorem Chip.settleTiles_agents (c : Chip) (n : Nat) : (c.settleTiles n).agents = c.agents := rfl
@[simp] theorem Chip.settleTiles_rels (c : Chip) (n : Nat) : (c.settleTiles n).rels = c.rels := rfl
@[simp] theorem Chip.settleTiles_sysRels (c : Chip) (n : Nat) : (c.settleTiles n).sysRels = c.sysRels := rfl
@[simp] theorem Chip.settleTiles_reached (c : Chip) (n : Nat) : (c.settleTiles n).reached = c.reached := rfl
@[simp] theorem Chip.settleTiles_clock (c : Chip) (n : Nat) : (c.settleTiles n).clock = c.clock := rfl
@[simp] theorem Chip.settleTiles_nextTask (c : Chip) (n : Nat) : (c.settleTiles n).nextTask = c.nextTask := rfl
@[simp] theorem Chip.settleTiles_draws (c : Chip) (n : Nat) : (c.settleTiles n).draws = c.draws := rfl
@[simp] theorem Chip.settleTiles_frees (c : Chip) (n : Nat) : (c.settleTiles n).frees = c.frees := rfl
@[simp] theorem Chip.settleTiles_steps (c : Chip) (n : Nat) : (c.settleTiles n).steps = c.steps := rfl

/-! Chip.abandonJobs changes jobs and tiles only. -/
@[simp] theorem Chip.abandonJobs_tid (c : Chip) (n : Nat) : (c.abandonJobs n).tid = c.tid := rfl
@[simp] theorem Chip.abandonJobs_t (c : Chip) (n : Nat) : (c.abandonJobs n).t = c.t := rfl
@[simp] theorem Chip.abandonJobs_others (c : Chip) (n : Nat) : (c.abandonJobs n).others = c.others := rfl
@[simp] theorem Chip.abandonJobs_mem (c : Chip) (n : Nat) : (c.abandonJobs n).mem = c.mem := rfl
@[simp] theorem Chip.abandonJobs_empties (c : Chip) (n : Nat) : (c.abandonJobs n).empties = c.empties := rfl
@[simp] theorem Chip.abandonJobs_poison (c : Chip) (n : Nat) : (c.abandonJobs n).poison = c.poison := rfl
@[simp] theorem Chip.abandonJobs_cores (c : Chip) (n : Nat) : (c.abandonJobs n).cores = c.cores := rfl
@[simp] theorem Chip.abandonJobs_clusters (c : Chip) (n : Nat) : (c.abandonJobs n).clusters = c.clusters := rfl
@[simp] theorem Chip.abandonJobs_dies (c : Chip) (n : Nat) : (c.abandonJobs n).dies = c.dies := rfl
@[simp] theorem Chip.abandonJobs_routines (c : Chip) (n : Nat) : (c.abandonJobs n).routines = c.routines := rfl
@[simp] theorem Chip.abandonJobs_launches (c : Chip) (n : Nat) : (c.abandonJobs n).launches = c.launches := rfl
@[simp] theorem Chip.abandonJobs_walks (c : Chip) (n : Nat) : (c.abandonJobs n).walks = c.walks := rfl
@[simp] theorem Chip.abandonJobs_saved (c : Chip) (n : Nat) : (c.abandonJobs n).saved = c.saved := rfl
@[simp] theorem Chip.abandonJobs_images (c : Chip) (n : Nat) : (c.abandonJobs n).images = c.images := rfl
@[simp] theorem Chip.abandonJobs_locks (c : Chip) (n : Nat) : (c.abandonJobs n).locks = c.locks := rfl
@[simp] theorem Chip.abandonJobs_barriers (c : Chip) (n : Nat) : (c.abandonJobs n).barriers = c.barriers := rfl
@[simp] theorem Chip.abandonJobs_passed (c : Chip) (n : Nat) : (c.abandonJobs n).passed = c.passed := rfl
@[simp] theorem Chip.abandonJobs_hoard (c : Chip) (n : Nat) : (c.abandonJobs n).hoard = c.hoard := rfl
@[simp] theorem Chip.abandonJobs_asked (c : Chip) (n : Nat) : (c.abandonJobs n).asked = c.asked := rfl
@[simp] theorem Chip.abandonJobs_triggers (c : Chip) (n : Nat) : (c.abandonJobs n).triggers = c.triggers := rfl
@[simp] theorem Chip.abandonJobs_den (c : Chip) (n : Nat) : (c.abandonJobs n).den = c.den := rfl
@[simp] theorem Chip.abandonJobs_stage3 (c : Chip) (n : Nat) : (c.abandonJobs n).stage3 = c.stage3 := rfl
@[simp] theorem Chip.abandonJobs_denT1 (c : Chip) (n : Nat) : (c.abandonJobs n).denT1 = c.denT1 := rfl
@[simp] theorem Chip.abandonJobs_denT2 (c : Chip) (n : Nat) : (c.abandonJobs n).denT2 = c.denT2 := rfl
@[simp] theorem Chip.abandonJobs_idle (c : Chip) (n : Nat) : (c.abandonJobs n).idle = c.idle := rfl
@[simp] theorem Chip.abandonJobs_tcopies (c : Chip) (n : Nat) : (c.abandonJobs n).tcopies = c.tcopies := rfl
@[simp] theorem Chip.abandonJobs_flash (c : Chip) (n : Nat) : (c.abandonJobs n).flash = c.flash := rfl
@[simp] theorem Chip.abandonJobs_relics (c : Chip) (n : Nat) : (c.abandonJobs n).relics = c.relics := rfl
@[simp] theorem Chip.abandonJobs_promoting (c : Chip) (n : Nat) : (c.abandonJobs n).promoting = c.promoting := rfl
@[simp] theorem Chip.abandonJobs_zeroing (c : Chip) (n : Nat) : (c.abandonJobs n).zeroing = c.zeroing := rfl
@[simp] theorem Chip.abandonJobs_timebase (c : Chip) (n : Nat) : (c.abandonJobs n).timebase = c.timebase := rfl
@[simp] theorem Chip.abandonJobs_owls (c : Chip) (n : Nat) : (c.abandonJobs n).owls = c.owls := rfl
@[simp] theorem Chip.abandonJobs_channels (c : Chip) (n : Nat) : (c.abandonJobs n).channels = c.channels := rfl
@[simp] theorem Chip.abandonJobs_remotes (c : Chip) (n : Nat) : (c.abandonJobs n).remotes = c.remotes := rfl
@[simp] theorem Chip.abandonJobs_out (c : Chip) (n : Nat) : (c.abandonJobs n).out = c.out := rfl
@[simp] theorem Chip.abandonJobs_joins (c : Chip) (n : Nat) : (c.abandonJobs n).joins = c.joins := rfl
@[simp] theorem Chip.abandonJobs_hist (c : Chip) (n : Nat) : (c.abandonJobs n).hist = c.hist := rfl
@[simp] theorem Chip.abandonJobs_agents (c : Chip) (n : Nat) : (c.abandonJobs n).agents = c.agents := rfl
@[simp] theorem Chip.abandonJobs_rels (c : Chip) (n : Nat) : (c.abandonJobs n).rels = c.rels := rfl
@[simp] theorem Chip.abandonJobs_sysRels (c : Chip) (n : Nat) : (c.abandonJobs n).sysRels = c.sysRels := rfl
@[simp] theorem Chip.abandonJobs_reached (c : Chip) (n : Nat) : (c.abandonJobs n).reached = c.reached := rfl
@[simp] theorem Chip.abandonJobs_clock (c : Chip) (n : Nat) : (c.abandonJobs n).clock = c.clock := rfl
@[simp] theorem Chip.abandonJobs_nextTask (c : Chip) (n : Nat) : (c.abandonJobs n).nextTask = c.nextTask := rfl
@[simp] theorem Chip.abandonJobs_draws (c : Chip) (n : Nat) : (c.abandonJobs n).draws = c.draws := rfl
@[simp] theorem Chip.abandonJobs_frees (c : Chip) (n : Nat) : (c.abandonJobs n).frees = c.frees := rfl
@[simp] theorem Chip.abandonJobs_steps (c : Chip) (n : Nat) : (c.abandonJobs n).steps = c.steps := rfl

/-! Chip.askPromotion changes promoting only. -/
@[simp] theorem Chip.askPromotion_tid (c : Chip) (p : Dword) : (c.askPromotion p).tid = c.tid := rfl
@[simp] theorem Chip.askPromotion_t (c : Chip) (p : Dword) : (c.askPromotion p).t = c.t := rfl
@[simp] theorem Chip.askPromotion_others (c : Chip) (p : Dword) : (c.askPromotion p).others = c.others := rfl
@[simp] theorem Chip.askPromotion_mem (c : Chip) (p : Dword) : (c.askPromotion p).mem = c.mem := rfl
@[simp] theorem Chip.askPromotion_empties (c : Chip) (p : Dword) : (c.askPromotion p).empties = c.empties := rfl
@[simp] theorem Chip.askPromotion_poison (c : Chip) (p : Dword) : (c.askPromotion p).poison = c.poison := rfl
@[simp] theorem Chip.askPromotion_cores (c : Chip) (p : Dword) : (c.askPromotion p).cores = c.cores := rfl
@[simp] theorem Chip.askPromotion_clusters (c : Chip) (p : Dword) : (c.askPromotion p).clusters = c.clusters := rfl
@[simp] theorem Chip.askPromotion_dies (c : Chip) (p : Dword) : (c.askPromotion p).dies = c.dies := rfl
@[simp] theorem Chip.askPromotion_routines (c : Chip) (p : Dword) : (c.askPromotion p).routines = c.routines := rfl
@[simp] theorem Chip.askPromotion_jobs (c : Chip) (p : Dword) : (c.askPromotion p).jobs = c.jobs := rfl
@[simp] theorem Chip.askPromotion_tiles (c : Chip) (p : Dword) : (c.askPromotion p).tiles = c.tiles := rfl
@[simp] theorem Chip.askPromotion_launches (c : Chip) (p : Dword) : (c.askPromotion p).launches = c.launches := rfl
@[simp] theorem Chip.askPromotion_walks (c : Chip) (p : Dword) : (c.askPromotion p).walks = c.walks := rfl
@[simp] theorem Chip.askPromotion_saved (c : Chip) (p : Dword) : (c.askPromotion p).saved = c.saved := rfl
@[simp] theorem Chip.askPromotion_images (c : Chip) (p : Dword) : (c.askPromotion p).images = c.images := rfl
@[simp] theorem Chip.askPromotion_locks (c : Chip) (p : Dword) : (c.askPromotion p).locks = c.locks := rfl
@[simp] theorem Chip.askPromotion_barriers (c : Chip) (p : Dword) : (c.askPromotion p).barriers = c.barriers := rfl
@[simp] theorem Chip.askPromotion_passed (c : Chip) (p : Dword) : (c.askPromotion p).passed = c.passed := rfl
@[simp] theorem Chip.askPromotion_hoard (c : Chip) (p : Dword) : (c.askPromotion p).hoard = c.hoard := rfl
@[simp] theorem Chip.askPromotion_asked (c : Chip) (p : Dword) : (c.askPromotion p).asked = c.asked := rfl
@[simp] theorem Chip.askPromotion_triggers (c : Chip) (p : Dword) : (c.askPromotion p).triggers = c.triggers := rfl
@[simp] theorem Chip.askPromotion_den (c : Chip) (p : Dword) : (c.askPromotion p).den = c.den := rfl
@[simp] theorem Chip.askPromotion_stage3 (c : Chip) (p : Dword) : (c.askPromotion p).stage3 = c.stage3 := rfl
@[simp] theorem Chip.askPromotion_denT1 (c : Chip) (p : Dword) : (c.askPromotion p).denT1 = c.denT1 := rfl
@[simp] theorem Chip.askPromotion_denT2 (c : Chip) (p : Dword) : (c.askPromotion p).denT2 = c.denT2 := rfl
@[simp] theorem Chip.askPromotion_idle (c : Chip) (p : Dword) : (c.askPromotion p).idle = c.idle := rfl
@[simp] theorem Chip.askPromotion_tcopies (c : Chip) (p : Dword) : (c.askPromotion p).tcopies = c.tcopies := rfl
@[simp] theorem Chip.askPromotion_flash (c : Chip) (p : Dword) : (c.askPromotion p).flash = c.flash := rfl
@[simp] theorem Chip.askPromotion_relics (c : Chip) (p : Dword) : (c.askPromotion p).relics = c.relics := rfl
@[simp] theorem Chip.askPromotion_zeroing (c : Chip) (p : Dword) : (c.askPromotion p).zeroing = c.zeroing := rfl
@[simp] theorem Chip.askPromotion_timebase (c : Chip) (p : Dword) : (c.askPromotion p).timebase = c.timebase := rfl
@[simp] theorem Chip.askPromotion_owls (c : Chip) (p : Dword) : (c.askPromotion p).owls = c.owls := rfl
@[simp] theorem Chip.askPromotion_channels (c : Chip) (p : Dword) : (c.askPromotion p).channels = c.channels := rfl
@[simp] theorem Chip.askPromotion_remotes (c : Chip) (p : Dword) : (c.askPromotion p).remotes = c.remotes := rfl
@[simp] theorem Chip.askPromotion_out (c : Chip) (p : Dword) : (c.askPromotion p).out = c.out := rfl
@[simp] theorem Chip.askPromotion_joins (c : Chip) (p : Dword) : (c.askPromotion p).joins = c.joins := rfl
@[simp] theorem Chip.askPromotion_hist (c : Chip) (p : Dword) : (c.askPromotion p).hist = c.hist := rfl
@[simp] theorem Chip.askPromotion_agents (c : Chip) (p : Dword) : (c.askPromotion p).agents = c.agents := rfl
@[simp] theorem Chip.askPromotion_rels (c : Chip) (p : Dword) : (c.askPromotion p).rels = c.rels := rfl
@[simp] theorem Chip.askPromotion_sysRels (c : Chip) (p : Dword) : (c.askPromotion p).sysRels = c.sysRels := rfl
@[simp] theorem Chip.askPromotion_reached (c : Chip) (p : Dword) : (c.askPromotion p).reached = c.reached := rfl
@[simp] theorem Chip.askPromotion_clock (c : Chip) (p : Dword) : (c.askPromotion p).clock = c.clock := rfl
@[simp] theorem Chip.askPromotion_nextTask (c : Chip) (p : Dword) : (c.askPromotion p).nextTask = c.nextTask := rfl
@[simp] theorem Chip.askPromotion_draws (c : Chip) (p : Dword) : (c.askPromotion p).draws = c.draws := rfl
@[simp] theorem Chip.askPromotion_frees (c : Chip) (p : Dword) : (c.askPromotion p).frees = c.frees := rfl
@[simp] theorem Chip.askPromotion_steps (c : Chip) (p : Dword) : (c.askPromotion p).steps = c.steps := rfl

/-! Chip.askZeroing changes zeroing only. -/
@[simp] theorem Chip.askZeroing_tid (c : Chip) (p : Dword) (sub : Bool) (e : Dword) : (c.askZeroing p sub e).tid = c.tid := rfl
@[simp] theorem Chip.askZeroing_t (c : Chip) (p : Dword) (sub : Bool) (e : Dword) : (c.askZeroing p sub e).t = c.t := rfl
@[simp] theorem Chip.askZeroing_others (c : Chip) (p : Dword) (sub : Bool) (e : Dword) : (c.askZeroing p sub e).others = c.others := rfl
@[simp] theorem Chip.askZeroing_mem (c : Chip) (p : Dword) (sub : Bool) (e : Dword) : (c.askZeroing p sub e).mem = c.mem := rfl
@[simp] theorem Chip.askZeroing_empties (c : Chip) (p : Dword) (sub : Bool) (e : Dword) : (c.askZeroing p sub e).empties = c.empties := rfl
@[simp] theorem Chip.askZeroing_poison (c : Chip) (p : Dword) (sub : Bool) (e : Dword) : (c.askZeroing p sub e).poison = c.poison := rfl
@[simp] theorem Chip.askZeroing_cores (c : Chip) (p : Dword) (sub : Bool) (e : Dword) : (c.askZeroing p sub e).cores = c.cores := rfl
@[simp] theorem Chip.askZeroing_clusters (c : Chip) (p : Dword) (sub : Bool) (e : Dword) : (c.askZeroing p sub e).clusters = c.clusters := rfl
@[simp] theorem Chip.askZeroing_dies (c : Chip) (p : Dword) (sub : Bool) (e : Dword) : (c.askZeroing p sub e).dies = c.dies := rfl
@[simp] theorem Chip.askZeroing_routines (c : Chip) (p : Dword) (sub : Bool) (e : Dword) : (c.askZeroing p sub e).routines = c.routines := rfl
@[simp] theorem Chip.askZeroing_jobs (c : Chip) (p : Dword) (sub : Bool) (e : Dword) : (c.askZeroing p sub e).jobs = c.jobs := rfl
@[simp] theorem Chip.askZeroing_tiles (c : Chip) (p : Dword) (sub : Bool) (e : Dword) : (c.askZeroing p sub e).tiles = c.tiles := rfl
@[simp] theorem Chip.askZeroing_launches (c : Chip) (p : Dword) (sub : Bool) (e : Dword) : (c.askZeroing p sub e).launches = c.launches := rfl
@[simp] theorem Chip.askZeroing_walks (c : Chip) (p : Dword) (sub : Bool) (e : Dword) : (c.askZeroing p sub e).walks = c.walks := rfl
@[simp] theorem Chip.askZeroing_saved (c : Chip) (p : Dword) (sub : Bool) (e : Dword) : (c.askZeroing p sub e).saved = c.saved := rfl
@[simp] theorem Chip.askZeroing_images (c : Chip) (p : Dword) (sub : Bool) (e : Dword) : (c.askZeroing p sub e).images = c.images := rfl
@[simp] theorem Chip.askZeroing_locks (c : Chip) (p : Dword) (sub : Bool) (e : Dword) : (c.askZeroing p sub e).locks = c.locks := rfl
@[simp] theorem Chip.askZeroing_barriers (c : Chip) (p : Dword) (sub : Bool) (e : Dword) : (c.askZeroing p sub e).barriers = c.barriers := rfl
@[simp] theorem Chip.askZeroing_passed (c : Chip) (p : Dword) (sub : Bool) (e : Dword) : (c.askZeroing p sub e).passed = c.passed := rfl
@[simp] theorem Chip.askZeroing_hoard (c : Chip) (p : Dword) (sub : Bool) (e : Dword) : (c.askZeroing p sub e).hoard = c.hoard := rfl
@[simp] theorem Chip.askZeroing_asked (c : Chip) (p : Dword) (sub : Bool) (e : Dword) : (c.askZeroing p sub e).asked = c.asked := rfl
@[simp] theorem Chip.askZeroing_triggers (c : Chip) (p : Dword) (sub : Bool) (e : Dword) : (c.askZeroing p sub e).triggers = c.triggers := rfl
@[simp] theorem Chip.askZeroing_den (c : Chip) (p : Dword) (sub : Bool) (e : Dword) : (c.askZeroing p sub e).den = c.den := rfl
@[simp] theorem Chip.askZeroing_stage3 (c : Chip) (p : Dword) (sub : Bool) (e : Dword) : (c.askZeroing p sub e).stage3 = c.stage3 := rfl
@[simp] theorem Chip.askZeroing_denT1 (c : Chip) (p : Dword) (sub : Bool) (e : Dword) : (c.askZeroing p sub e).denT1 = c.denT1 := rfl
@[simp] theorem Chip.askZeroing_denT2 (c : Chip) (p : Dword) (sub : Bool) (e : Dword) : (c.askZeroing p sub e).denT2 = c.denT2 := rfl
@[simp] theorem Chip.askZeroing_idle (c : Chip) (p : Dword) (sub : Bool) (e : Dword) : (c.askZeroing p sub e).idle = c.idle := rfl
@[simp] theorem Chip.askZeroing_tcopies (c : Chip) (p : Dword) (sub : Bool) (e : Dword) : (c.askZeroing p sub e).tcopies = c.tcopies := rfl
@[simp] theorem Chip.askZeroing_flash (c : Chip) (p : Dword) (sub : Bool) (e : Dword) : (c.askZeroing p sub e).flash = c.flash := rfl
@[simp] theorem Chip.askZeroing_relics (c : Chip) (p : Dword) (sub : Bool) (e : Dword) : (c.askZeroing p sub e).relics = c.relics := rfl
@[simp] theorem Chip.askZeroing_promoting (c : Chip) (p : Dword) (sub : Bool) (e : Dword) : (c.askZeroing p sub e).promoting = c.promoting := rfl
@[simp] theorem Chip.askZeroing_timebase (c : Chip) (p : Dword) (sub : Bool) (e : Dword) : (c.askZeroing p sub e).timebase = c.timebase := rfl
@[simp] theorem Chip.askZeroing_owls (c : Chip) (p : Dword) (sub : Bool) (e : Dword) : (c.askZeroing p sub e).owls = c.owls := rfl
@[simp] theorem Chip.askZeroing_channels (c : Chip) (p : Dword) (sub : Bool) (e : Dword) : (c.askZeroing p sub e).channels = c.channels := rfl
@[simp] theorem Chip.askZeroing_remotes (c : Chip) (p : Dword) (sub : Bool) (e : Dword) : (c.askZeroing p sub e).remotes = c.remotes := rfl
@[simp] theorem Chip.askZeroing_out (c : Chip) (p : Dword) (sub : Bool) (e : Dword) : (c.askZeroing p sub e).out = c.out := rfl
@[simp] theorem Chip.askZeroing_joins (c : Chip) (p : Dword) (sub : Bool) (e : Dword) : (c.askZeroing p sub e).joins = c.joins := rfl
@[simp] theorem Chip.askZeroing_hist (c : Chip) (p : Dword) (sub : Bool) (e : Dword) : (c.askZeroing p sub e).hist = c.hist := rfl
@[simp] theorem Chip.askZeroing_agents (c : Chip) (p : Dword) (sub : Bool) (e : Dword) : (c.askZeroing p sub e).agents = c.agents := rfl
@[simp] theorem Chip.askZeroing_rels (c : Chip) (p : Dword) (sub : Bool) (e : Dword) : (c.askZeroing p sub e).rels = c.rels := rfl
@[simp] theorem Chip.askZeroing_sysRels (c : Chip) (p : Dword) (sub : Bool) (e : Dword) : (c.askZeroing p sub e).sysRels = c.sysRels := rfl
@[simp] theorem Chip.askZeroing_reached (c : Chip) (p : Dword) (sub : Bool) (e : Dword) : (c.askZeroing p sub e).reached = c.reached := rfl
@[simp] theorem Chip.askZeroing_clock (c : Chip) (p : Dword) (sub : Bool) (e : Dword) : (c.askZeroing p sub e).clock = c.clock := rfl
@[simp] theorem Chip.askZeroing_nextTask (c : Chip) (p : Dword) (sub : Bool) (e : Dword) : (c.askZeroing p sub e).nextTask = c.nextTask := rfl
@[simp] theorem Chip.askZeroing_draws (c : Chip) (p : Dword) (sub : Bool) (e : Dword) : (c.askZeroing p sub e).draws = c.draws := rfl
@[simp] theorem Chip.askZeroing_frees (c : Chip) (p : Dword) (sub : Bool) (e : Dword) : (c.askZeroing p sub e).frees = c.frees := rfl
@[simp] theorem Chip.askZeroing_steps (c : Chip) (p : Dword) (sub : Bool) (e : Dword) : (c.askZeroing p sub e).steps = c.steps := rfl

/-! Chip.moveSpots changes t and others only. -/
@[simp] theorem Chip.moveSpots_tid (c : Chip) (src dst len : Nat) : (c.moveSpots src dst len).tid = c.tid := rfl
@[simp] theorem Chip.moveSpots_mem (c : Chip) (src dst len : Nat) : (c.moveSpots src dst len).mem = c.mem := rfl
@[simp] theorem Chip.moveSpots_empties (c : Chip) (src dst len : Nat) : (c.moveSpots src dst len).empties = c.empties := rfl
@[simp] theorem Chip.moveSpots_poison (c : Chip) (src dst len : Nat) : (c.moveSpots src dst len).poison = c.poison := rfl
@[simp] theorem Chip.moveSpots_cores (c : Chip) (src dst len : Nat) : (c.moveSpots src dst len).cores = c.cores := rfl
@[simp] theorem Chip.moveSpots_clusters (c : Chip) (src dst len : Nat) : (c.moveSpots src dst len).clusters = c.clusters := rfl
@[simp] theorem Chip.moveSpots_dies (c : Chip) (src dst len : Nat) : (c.moveSpots src dst len).dies = c.dies := rfl
@[simp] theorem Chip.moveSpots_routines (c : Chip) (src dst len : Nat) : (c.moveSpots src dst len).routines = c.routines := rfl
@[simp] theorem Chip.moveSpots_jobs (c : Chip) (src dst len : Nat) : (c.moveSpots src dst len).jobs = c.jobs := rfl
@[simp] theorem Chip.moveSpots_tiles (c : Chip) (src dst len : Nat) : (c.moveSpots src dst len).tiles = c.tiles := rfl
@[simp] theorem Chip.moveSpots_launches (c : Chip) (src dst len : Nat) : (c.moveSpots src dst len).launches = c.launches := rfl
@[simp] theorem Chip.moveSpots_walks (c : Chip) (src dst len : Nat) : (c.moveSpots src dst len).walks = c.walks := rfl
@[simp] theorem Chip.moveSpots_saved (c : Chip) (src dst len : Nat) : (c.moveSpots src dst len).saved = c.saved := rfl
@[simp] theorem Chip.moveSpots_images (c : Chip) (src dst len : Nat) : (c.moveSpots src dst len).images = c.images := rfl
@[simp] theorem Chip.moveSpots_locks (c : Chip) (src dst len : Nat) : (c.moveSpots src dst len).locks = c.locks := rfl
@[simp] theorem Chip.moveSpots_barriers (c : Chip) (src dst len : Nat) : (c.moveSpots src dst len).barriers = c.barriers := rfl
@[simp] theorem Chip.moveSpots_passed (c : Chip) (src dst len : Nat) : (c.moveSpots src dst len).passed = c.passed := rfl
@[simp] theorem Chip.moveSpots_hoard (c : Chip) (src dst len : Nat) : (c.moveSpots src dst len).hoard = c.hoard := rfl
@[simp] theorem Chip.moveSpots_asked (c : Chip) (src dst len : Nat) : (c.moveSpots src dst len).asked = c.asked := rfl
@[simp] theorem Chip.moveSpots_triggers (c : Chip) (src dst len : Nat) : (c.moveSpots src dst len).triggers = c.triggers := rfl
@[simp] theorem Chip.moveSpots_den (c : Chip) (src dst len : Nat) : (c.moveSpots src dst len).den = c.den := rfl
@[simp] theorem Chip.moveSpots_stage3 (c : Chip) (src dst len : Nat) : (c.moveSpots src dst len).stage3 = c.stage3 := rfl
@[simp] theorem Chip.moveSpots_denT1 (c : Chip) (src dst len : Nat) : (c.moveSpots src dst len).denT1 = c.denT1 := rfl
@[simp] theorem Chip.moveSpots_denT2 (c : Chip) (src dst len : Nat) : (c.moveSpots src dst len).denT2 = c.denT2 := rfl
@[simp] theorem Chip.moveSpots_idle (c : Chip) (src dst len : Nat) : (c.moveSpots src dst len).idle = c.idle := rfl
@[simp] theorem Chip.moveSpots_tcopies (c : Chip) (src dst len : Nat) : (c.moveSpots src dst len).tcopies = c.tcopies := rfl
@[simp] theorem Chip.moveSpots_flash (c : Chip) (src dst len : Nat) : (c.moveSpots src dst len).flash = c.flash := rfl
@[simp] theorem Chip.moveSpots_relics (c : Chip) (src dst len : Nat) : (c.moveSpots src dst len).relics = c.relics := rfl
@[simp] theorem Chip.moveSpots_promoting (c : Chip) (src dst len : Nat) : (c.moveSpots src dst len).promoting = c.promoting := rfl
@[simp] theorem Chip.moveSpots_zeroing (c : Chip) (src dst len : Nat) : (c.moveSpots src dst len).zeroing = c.zeroing := rfl
@[simp] theorem Chip.moveSpots_timebase (c : Chip) (src dst len : Nat) : (c.moveSpots src dst len).timebase = c.timebase := rfl
@[simp] theorem Chip.moveSpots_owls (c : Chip) (src dst len : Nat) : (c.moveSpots src dst len).owls = c.owls := rfl
@[simp] theorem Chip.moveSpots_channels (c : Chip) (src dst len : Nat) : (c.moveSpots src dst len).channels = c.channels := rfl
@[simp] theorem Chip.moveSpots_remotes (c : Chip) (src dst len : Nat) : (c.moveSpots src dst len).remotes = c.remotes := rfl
@[simp] theorem Chip.moveSpots_out (c : Chip) (src dst len : Nat) : (c.moveSpots src dst len).out = c.out := rfl
@[simp] theorem Chip.moveSpots_joins (c : Chip) (src dst len : Nat) : (c.moveSpots src dst len).joins = c.joins := rfl
@[simp] theorem Chip.moveSpots_hist (c : Chip) (src dst len : Nat) : (c.moveSpots src dst len).hist = c.hist := rfl
@[simp] theorem Chip.moveSpots_agents (c : Chip) (src dst len : Nat) : (c.moveSpots src dst len).agents = c.agents := rfl
@[simp] theorem Chip.moveSpots_rels (c : Chip) (src dst len : Nat) : (c.moveSpots src dst len).rels = c.rels := rfl
@[simp] theorem Chip.moveSpots_sysRels (c : Chip) (src dst len : Nat) : (c.moveSpots src dst len).sysRels = c.sysRels := rfl
@[simp] theorem Chip.moveSpots_reached (c : Chip) (src dst len : Nat) : (c.moveSpots src dst len).reached = c.reached := rfl
@[simp] theorem Chip.moveSpots_clock (c : Chip) (src dst len : Nat) : (c.moveSpots src dst len).clock = c.clock := rfl
@[simp] theorem Chip.moveSpots_nextTask (c : Chip) (src dst len : Nat) : (c.moveSpots src dst len).nextTask = c.nextTask := rfl
@[simp] theorem Chip.moveSpots_draws (c : Chip) (src dst len : Nat) : (c.moveSpots src dst len).draws = c.draws := rfl
@[simp] theorem Chip.moveSpots_frees (c : Chip) (src dst len : Nat) : (c.moveSpots src dst len).frees = c.frees := rfl
@[simp] theorem Chip.moveSpots_steps (c : Chip) (src dst len : Nat) : (c.moveSpots src dst len).steps = c.steps := rfl

/-! Chip.dropSpots changes t and others only. -/
@[simp] theorem Chip.dropSpots_tid (c : Chip) (src len : Nat) : (c.dropSpots src len).tid = c.tid := rfl
@[simp] theorem Chip.dropSpots_mem (c : Chip) (src len : Nat) : (c.dropSpots src len).mem = c.mem := rfl
@[simp] theorem Chip.dropSpots_empties (c : Chip) (src len : Nat) : (c.dropSpots src len).empties = c.empties := rfl
@[simp] theorem Chip.dropSpots_poison (c : Chip) (src len : Nat) : (c.dropSpots src len).poison = c.poison := rfl
@[simp] theorem Chip.dropSpots_cores (c : Chip) (src len : Nat) : (c.dropSpots src len).cores = c.cores := rfl
@[simp] theorem Chip.dropSpots_clusters (c : Chip) (src len : Nat) : (c.dropSpots src len).clusters = c.clusters := rfl
@[simp] theorem Chip.dropSpots_dies (c : Chip) (src len : Nat) : (c.dropSpots src len).dies = c.dies := rfl
@[simp] theorem Chip.dropSpots_routines (c : Chip) (src len : Nat) : (c.dropSpots src len).routines = c.routines := rfl
@[simp] theorem Chip.dropSpots_jobs (c : Chip) (src len : Nat) : (c.dropSpots src len).jobs = c.jobs := rfl
@[simp] theorem Chip.dropSpots_tiles (c : Chip) (src len : Nat) : (c.dropSpots src len).tiles = c.tiles := rfl
@[simp] theorem Chip.dropSpots_launches (c : Chip) (src len : Nat) : (c.dropSpots src len).launches = c.launches := rfl
@[simp] theorem Chip.dropSpots_walks (c : Chip) (src len : Nat) : (c.dropSpots src len).walks = c.walks := rfl
@[simp] theorem Chip.dropSpots_saved (c : Chip) (src len : Nat) : (c.dropSpots src len).saved = c.saved := rfl
@[simp] theorem Chip.dropSpots_images (c : Chip) (src len : Nat) : (c.dropSpots src len).images = c.images := rfl
@[simp] theorem Chip.dropSpots_locks (c : Chip) (src len : Nat) : (c.dropSpots src len).locks = c.locks := rfl
@[simp] theorem Chip.dropSpots_barriers (c : Chip) (src len : Nat) : (c.dropSpots src len).barriers = c.barriers := rfl
@[simp] theorem Chip.dropSpots_passed (c : Chip) (src len : Nat) : (c.dropSpots src len).passed = c.passed := rfl
@[simp] theorem Chip.dropSpots_hoard (c : Chip) (src len : Nat) : (c.dropSpots src len).hoard = c.hoard := rfl
@[simp] theorem Chip.dropSpots_asked (c : Chip) (src len : Nat) : (c.dropSpots src len).asked = c.asked := rfl
@[simp] theorem Chip.dropSpots_triggers (c : Chip) (src len : Nat) : (c.dropSpots src len).triggers = c.triggers := rfl
@[simp] theorem Chip.dropSpots_den (c : Chip) (src len : Nat) : (c.dropSpots src len).den = c.den := rfl
@[simp] theorem Chip.dropSpots_stage3 (c : Chip) (src len : Nat) : (c.dropSpots src len).stage3 = c.stage3 := rfl
@[simp] theorem Chip.dropSpots_denT1 (c : Chip) (src len : Nat) : (c.dropSpots src len).denT1 = c.denT1 := rfl
@[simp] theorem Chip.dropSpots_denT2 (c : Chip) (src len : Nat) : (c.dropSpots src len).denT2 = c.denT2 := rfl
@[simp] theorem Chip.dropSpots_idle (c : Chip) (src len : Nat) : (c.dropSpots src len).idle = c.idle := rfl
@[simp] theorem Chip.dropSpots_tcopies (c : Chip) (src len : Nat) : (c.dropSpots src len).tcopies = c.tcopies := rfl
@[simp] theorem Chip.dropSpots_flash (c : Chip) (src len : Nat) : (c.dropSpots src len).flash = c.flash := rfl
@[simp] theorem Chip.dropSpots_relics (c : Chip) (src len : Nat) : (c.dropSpots src len).relics = c.relics := rfl
@[simp] theorem Chip.dropSpots_promoting (c : Chip) (src len : Nat) : (c.dropSpots src len).promoting = c.promoting := rfl
@[simp] theorem Chip.dropSpots_zeroing (c : Chip) (src len : Nat) : (c.dropSpots src len).zeroing = c.zeroing := rfl
@[simp] theorem Chip.dropSpots_timebase (c : Chip) (src len : Nat) : (c.dropSpots src len).timebase = c.timebase := rfl
@[simp] theorem Chip.dropSpots_owls (c : Chip) (src len : Nat) : (c.dropSpots src len).owls = c.owls := rfl
@[simp] theorem Chip.dropSpots_channels (c : Chip) (src len : Nat) : (c.dropSpots src len).channels = c.channels := rfl
@[simp] theorem Chip.dropSpots_remotes (c : Chip) (src len : Nat) : (c.dropSpots src len).remotes = c.remotes := rfl
@[simp] theorem Chip.dropSpots_out (c : Chip) (src len : Nat) : (c.dropSpots src len).out = c.out := rfl
@[simp] theorem Chip.dropSpots_joins (c : Chip) (src len : Nat) : (c.dropSpots src len).joins = c.joins := rfl
@[simp] theorem Chip.dropSpots_hist (c : Chip) (src len : Nat) : (c.dropSpots src len).hist = c.hist := rfl
@[simp] theorem Chip.dropSpots_agents (c : Chip) (src len : Nat) : (c.dropSpots src len).agents = c.agents := rfl
@[simp] theorem Chip.dropSpots_rels (c : Chip) (src len : Nat) : (c.dropSpots src len).rels = c.rels := rfl
@[simp] theorem Chip.dropSpots_sysRels (c : Chip) (src len : Nat) : (c.dropSpots src len).sysRels = c.sysRels := rfl
@[simp] theorem Chip.dropSpots_reached (c : Chip) (src len : Nat) : (c.dropSpots src len).reached = c.reached := rfl
@[simp] theorem Chip.dropSpots_clock (c : Chip) (src len : Nat) : (c.dropSpots src len).clock = c.clock := rfl
@[simp] theorem Chip.dropSpots_nextTask (c : Chip) (src len : Nat) : (c.dropSpots src len).nextTask = c.nextTask := rfl
@[simp] theorem Chip.dropSpots_draws (c : Chip) (src len : Nat) : (c.dropSpots src len).draws = c.draws := rfl
@[simp] theorem Chip.dropSpots_frees (c : Chip) (src len : Nat) : (c.dropSpots src len).frees = c.frees := rfl
@[simp] theorem Chip.dropSpots_steps (c : Chip) (src len : Nat) : (c.dropSpots src len).steps = c.steps := rfl

/-! Chip.enterHandler changes t only. -/
@[simp] theorem Chip.enterHandler_tid (c : Chip) (st : Dword) (kept : List Pending) : (c.enterHandler st kept).tid = c.tid := rfl
@[simp] theorem Chip.enterHandler_others (c : Chip) (st : Dword) (kept : List Pending) : (c.enterHandler st kept).others = c.others := rfl
@[simp] theorem Chip.enterHandler_mem (c : Chip) (st : Dword) (kept : List Pending) : (c.enterHandler st kept).mem = c.mem := rfl
@[simp] theorem Chip.enterHandler_empties (c : Chip) (st : Dword) (kept : List Pending) : (c.enterHandler st kept).empties = c.empties := rfl
@[simp] theorem Chip.enterHandler_poison (c : Chip) (st : Dword) (kept : List Pending) : (c.enterHandler st kept).poison = c.poison := rfl
@[simp] theorem Chip.enterHandler_cores (c : Chip) (st : Dword) (kept : List Pending) : (c.enterHandler st kept).cores = c.cores := rfl
@[simp] theorem Chip.enterHandler_clusters (c : Chip) (st : Dword) (kept : List Pending) : (c.enterHandler st kept).clusters = c.clusters := rfl
@[simp] theorem Chip.enterHandler_dies (c : Chip) (st : Dword) (kept : List Pending) : (c.enterHandler st kept).dies = c.dies := rfl
@[simp] theorem Chip.enterHandler_routines (c : Chip) (st : Dword) (kept : List Pending) : (c.enterHandler st kept).routines = c.routines := rfl
@[simp] theorem Chip.enterHandler_jobs (c : Chip) (st : Dword) (kept : List Pending) : (c.enterHandler st kept).jobs = c.jobs := rfl
@[simp] theorem Chip.enterHandler_tiles (c : Chip) (st : Dword) (kept : List Pending) : (c.enterHandler st kept).tiles = c.tiles := rfl
@[simp] theorem Chip.enterHandler_launches (c : Chip) (st : Dword) (kept : List Pending) : (c.enterHandler st kept).launches = c.launches := rfl
@[simp] theorem Chip.enterHandler_walks (c : Chip) (st : Dword) (kept : List Pending) : (c.enterHandler st kept).walks = c.walks := rfl
@[simp] theorem Chip.enterHandler_saved (c : Chip) (st : Dword) (kept : List Pending) : (c.enterHandler st kept).saved = c.saved := rfl
@[simp] theorem Chip.enterHandler_images (c : Chip) (st : Dword) (kept : List Pending) : (c.enterHandler st kept).images = c.images := rfl
@[simp] theorem Chip.enterHandler_locks (c : Chip) (st : Dword) (kept : List Pending) : (c.enterHandler st kept).locks = c.locks := rfl
@[simp] theorem Chip.enterHandler_barriers (c : Chip) (st : Dword) (kept : List Pending) : (c.enterHandler st kept).barriers = c.barriers := rfl
@[simp] theorem Chip.enterHandler_passed (c : Chip) (st : Dword) (kept : List Pending) : (c.enterHandler st kept).passed = c.passed := rfl
@[simp] theorem Chip.enterHandler_hoard (c : Chip) (st : Dword) (kept : List Pending) : (c.enterHandler st kept).hoard = c.hoard := rfl
@[simp] theorem Chip.enterHandler_asked (c : Chip) (st : Dword) (kept : List Pending) : (c.enterHandler st kept).asked = c.asked := rfl
@[simp] theorem Chip.enterHandler_triggers (c : Chip) (st : Dword) (kept : List Pending) : (c.enterHandler st kept).triggers = c.triggers := rfl
@[simp] theorem Chip.enterHandler_den (c : Chip) (st : Dword) (kept : List Pending) : (c.enterHandler st kept).den = c.den := rfl
@[simp] theorem Chip.enterHandler_stage3 (c : Chip) (st : Dword) (kept : List Pending) : (c.enterHandler st kept).stage3 = c.stage3 := rfl
@[simp] theorem Chip.enterHandler_denT1 (c : Chip) (st : Dword) (kept : List Pending) : (c.enterHandler st kept).denT1 = c.denT1 := rfl
@[simp] theorem Chip.enterHandler_denT2 (c : Chip) (st : Dword) (kept : List Pending) : (c.enterHandler st kept).denT2 = c.denT2 := rfl
@[simp] theorem Chip.enterHandler_idle (c : Chip) (st : Dword) (kept : List Pending) : (c.enterHandler st kept).idle = c.idle := rfl
@[simp] theorem Chip.enterHandler_tcopies (c : Chip) (st : Dword) (kept : List Pending) : (c.enterHandler st kept).tcopies = c.tcopies := rfl
@[simp] theorem Chip.enterHandler_flash (c : Chip) (st : Dword) (kept : List Pending) : (c.enterHandler st kept).flash = c.flash := rfl
@[simp] theorem Chip.enterHandler_relics (c : Chip) (st : Dword) (kept : List Pending) : (c.enterHandler st kept).relics = c.relics := rfl
@[simp] theorem Chip.enterHandler_promoting (c : Chip) (st : Dword) (kept : List Pending) : (c.enterHandler st kept).promoting = c.promoting := rfl
@[simp] theorem Chip.enterHandler_zeroing (c : Chip) (st : Dword) (kept : List Pending) : (c.enterHandler st kept).zeroing = c.zeroing := rfl
@[simp] theorem Chip.enterHandler_timebase (c : Chip) (st : Dword) (kept : List Pending) : (c.enterHandler st kept).timebase = c.timebase := rfl
@[simp] theorem Chip.enterHandler_owls (c : Chip) (st : Dword) (kept : List Pending) : (c.enterHandler st kept).owls = c.owls := rfl
@[simp] theorem Chip.enterHandler_channels (c : Chip) (st : Dword) (kept : List Pending) : (c.enterHandler st kept).channels = c.channels := rfl
@[simp] theorem Chip.enterHandler_remotes (c : Chip) (st : Dword) (kept : List Pending) : (c.enterHandler st kept).remotes = c.remotes := rfl
@[simp] theorem Chip.enterHandler_out (c : Chip) (st : Dword) (kept : List Pending) : (c.enterHandler st kept).out = c.out := rfl
@[simp] theorem Chip.enterHandler_joins (c : Chip) (st : Dword) (kept : List Pending) : (c.enterHandler st kept).joins = c.joins := rfl
@[simp] theorem Chip.enterHandler_hist (c : Chip) (st : Dword) (kept : List Pending) : (c.enterHandler st kept).hist = c.hist := rfl
@[simp] theorem Chip.enterHandler_agents (c : Chip) (st : Dword) (kept : List Pending) : (c.enterHandler st kept).agents = c.agents := rfl
@[simp] theorem Chip.enterHandler_rels (c : Chip) (st : Dword) (kept : List Pending) : (c.enterHandler st kept).rels = c.rels := rfl
@[simp] theorem Chip.enterHandler_sysRels (c : Chip) (st : Dword) (kept : List Pending) : (c.enterHandler st kept).sysRels = c.sysRels := rfl
@[simp] theorem Chip.enterHandler_reached (c : Chip) (st : Dword) (kept : List Pending) : (c.enterHandler st kept).reached = c.reached := rfl
@[simp] theorem Chip.enterHandler_clock (c : Chip) (st : Dword) (kept : List Pending) : (c.enterHandler st kept).clock = c.clock := rfl
@[simp] theorem Chip.enterHandler_nextTask (c : Chip) (st : Dword) (kept : List Pending) : (c.enterHandler st kept).nextTask = c.nextTask := rfl
@[simp] theorem Chip.enterHandler_draws (c : Chip) (st : Dword) (kept : List Pending) : (c.enterHandler st kept).draws = c.draws := rfl
@[simp] theorem Chip.enterHandler_frees (c : Chip) (st : Dword) (kept : List Pending) : (c.enterHandler st kept).frees = c.frees := rfl
@[simp] theorem Chip.enterHandler_steps (c : Chip) (st : Dword) (kept : List Pending) : (c.enterHandler st kept).steps = c.steps := rfl

/-! Chip.setThread changes t and others only, Chip.focus these and tid. -/
@[simp] theorem Chip.setThread_tid (c : Chip) (u : TId) (t : Thread) : (c.setThread u t).tid = c.tid := by
  unfold Chip.setThread; split <;> [rfl; (split <;> rfl)]
@[simp] theorem Chip.setThread_mem (c : Chip) (u : TId) (t : Thread) : (c.setThread u t).mem = c.mem := by
  unfold Chip.setThread; split <;> [rfl; (split <;> rfl)]
@[simp] theorem Chip.setThread_empties (c : Chip) (u : TId) (t : Thread) : (c.setThread u t).empties = c.empties := by
  unfold Chip.setThread; split <;> [rfl; (split <;> rfl)]
@[simp] theorem Chip.setThread_poison (c : Chip) (u : TId) (t : Thread) : (c.setThread u t).poison = c.poison := by
  unfold Chip.setThread; split <;> [rfl; (split <;> rfl)]
@[simp] theorem Chip.setThread_cores (c : Chip) (u : TId) (t : Thread) : (c.setThread u t).cores = c.cores := by
  unfold Chip.setThread; split <;> [rfl; (split <;> rfl)]
@[simp] theorem Chip.setThread_clusters (c : Chip) (u : TId) (t : Thread) : (c.setThread u t).clusters = c.clusters := by
  unfold Chip.setThread; split <;> [rfl; (split <;> rfl)]
@[simp] theorem Chip.setThread_dies (c : Chip) (u : TId) (t : Thread) : (c.setThread u t).dies = c.dies := by
  unfold Chip.setThread; split <;> [rfl; (split <;> rfl)]
@[simp] theorem Chip.setThread_routines (c : Chip) (u : TId) (t : Thread) : (c.setThread u t).routines = c.routines := by
  unfold Chip.setThread; split <;> [rfl; (split <;> rfl)]
@[simp] theorem Chip.setThread_jobs (c : Chip) (u : TId) (t : Thread) : (c.setThread u t).jobs = c.jobs := by
  unfold Chip.setThread; split <;> [rfl; (split <;> rfl)]
@[simp] theorem Chip.setThread_tiles (c : Chip) (u : TId) (t : Thread) : (c.setThread u t).tiles = c.tiles := by
  unfold Chip.setThread; split <;> [rfl; (split <;> rfl)]
@[simp] theorem Chip.setThread_launches (c : Chip) (u : TId) (t : Thread) : (c.setThread u t).launches = c.launches := by
  unfold Chip.setThread; split <;> [rfl; (split <;> rfl)]
@[simp] theorem Chip.setThread_walks (c : Chip) (u : TId) (t : Thread) : (c.setThread u t).walks = c.walks := by
  unfold Chip.setThread; split <;> [rfl; (split <;> rfl)]
@[simp] theorem Chip.setThread_saved (c : Chip) (u : TId) (t : Thread) : (c.setThread u t).saved = c.saved := by
  unfold Chip.setThread; split <;> [rfl; (split <;> rfl)]
@[simp] theorem Chip.setThread_images (c : Chip) (u : TId) (t : Thread) : (c.setThread u t).images = c.images := by
  unfold Chip.setThread; split <;> [rfl; (split <;> rfl)]
@[simp] theorem Chip.setThread_locks (c : Chip) (u : TId) (t : Thread) : (c.setThread u t).locks = c.locks := by
  unfold Chip.setThread; split <;> [rfl; (split <;> rfl)]
@[simp] theorem Chip.setThread_barriers (c : Chip) (u : TId) (t : Thread) : (c.setThread u t).barriers = c.barriers := by
  unfold Chip.setThread; split <;> [rfl; (split <;> rfl)]
@[simp] theorem Chip.setThread_passed (c : Chip) (u : TId) (t : Thread) : (c.setThread u t).passed = c.passed := by
  unfold Chip.setThread; split <;> [rfl; (split <;> rfl)]
@[simp] theorem Chip.setThread_hoard (c : Chip) (u : TId) (t : Thread) : (c.setThread u t).hoard = c.hoard := by
  unfold Chip.setThread; split <;> [rfl; (split <;> rfl)]
@[simp] theorem Chip.setThread_asked (c : Chip) (u : TId) (t : Thread) : (c.setThread u t).asked = c.asked := by
  unfold Chip.setThread; split <;> [rfl; (split <;> rfl)]
@[simp] theorem Chip.setThread_triggers (c : Chip) (u : TId) (t : Thread) : (c.setThread u t).triggers = c.triggers := by
  unfold Chip.setThread; split <;> [rfl; (split <;> rfl)]
@[simp] theorem Chip.setThread_den (c : Chip) (u : TId) (t : Thread) : (c.setThread u t).den = c.den := by
  unfold Chip.setThread; split <;> [rfl; (split <;> rfl)]
@[simp] theorem Chip.setThread_stage3 (c : Chip) (u : TId) (t : Thread) : (c.setThread u t).stage3 = c.stage3 := by
  unfold Chip.setThread; split <;> [rfl; (split <;> rfl)]
@[simp] theorem Chip.setThread_denT1 (c : Chip) (u : TId) (t : Thread) : (c.setThread u t).denT1 = c.denT1 := by
  unfold Chip.setThread; split <;> [rfl; (split <;> rfl)]
@[simp] theorem Chip.setThread_denT2 (c : Chip) (u : TId) (t : Thread) : (c.setThread u t).denT2 = c.denT2 := by
  unfold Chip.setThread; split <;> [rfl; (split <;> rfl)]
@[simp] theorem Chip.setThread_idle (c : Chip) (u : TId) (t : Thread) : (c.setThread u t).idle = c.idle := by
  unfold Chip.setThread; split <;> [rfl; (split <;> rfl)]
@[simp] theorem Chip.setThread_tcopies (c : Chip) (u : TId) (t : Thread) : (c.setThread u t).tcopies = c.tcopies := by
  unfold Chip.setThread; split <;> [rfl; (split <;> rfl)]
@[simp] theorem Chip.setThread_flash (c : Chip) (u : TId) (t : Thread) : (c.setThread u t).flash = c.flash := by
  unfold Chip.setThread; split <;> [rfl; (split <;> rfl)]
@[simp] theorem Chip.setThread_relics (c : Chip) (u : TId) (t : Thread) : (c.setThread u t).relics = c.relics := by
  unfold Chip.setThread; split <;> [rfl; (split <;> rfl)]
@[simp] theorem Chip.setThread_promoting (c : Chip) (u : TId) (t : Thread) : (c.setThread u t).promoting = c.promoting := by
  unfold Chip.setThread; split <;> [rfl; (split <;> rfl)]
@[simp] theorem Chip.setThread_zeroing (c : Chip) (u : TId) (t : Thread) : (c.setThread u t).zeroing = c.zeroing := by
  unfold Chip.setThread; split <;> [rfl; (split <;> rfl)]
@[simp] theorem Chip.setThread_timebase (c : Chip) (u : TId) (t : Thread) : (c.setThread u t).timebase = c.timebase := by
  unfold Chip.setThread; split <;> [rfl; (split <;> rfl)]
@[simp] theorem Chip.setThread_owls (c : Chip) (u : TId) (t : Thread) : (c.setThread u t).owls = c.owls := by
  unfold Chip.setThread; split <;> [rfl; (split <;> rfl)]
@[simp] theorem Chip.setThread_channels (c : Chip) (u : TId) (t : Thread) : (c.setThread u t).channels = c.channels := by
  unfold Chip.setThread; split <;> [rfl; (split <;> rfl)]
@[simp] theorem Chip.setThread_remotes (c : Chip) (u : TId) (t : Thread) : (c.setThread u t).remotes = c.remotes := by
  unfold Chip.setThread; split <;> [rfl; (split <;> rfl)]
@[simp] theorem Chip.setThread_out (c : Chip) (u : TId) (t : Thread) : (c.setThread u t).out = c.out := by
  unfold Chip.setThread; split <;> [rfl; (split <;> rfl)]
@[simp] theorem Chip.setThread_joins (c : Chip) (u : TId) (t : Thread) : (c.setThread u t).joins = c.joins := by
  unfold Chip.setThread; split <;> [rfl; (split <;> rfl)]
@[simp] theorem Chip.setThread_hist (c : Chip) (u : TId) (t : Thread) : (c.setThread u t).hist = c.hist := by
  unfold Chip.setThread; split <;> [rfl; (split <;> rfl)]
@[simp] theorem Chip.setThread_agents (c : Chip) (u : TId) (t : Thread) : (c.setThread u t).agents = c.agents := by
  unfold Chip.setThread; split <;> [rfl; (split <;> rfl)]
@[simp] theorem Chip.setThread_rels (c : Chip) (u : TId) (t : Thread) : (c.setThread u t).rels = c.rels := by
  unfold Chip.setThread; split <;> [rfl; (split <;> rfl)]
@[simp] theorem Chip.setThread_sysRels (c : Chip) (u : TId) (t : Thread) : (c.setThread u t).sysRels = c.sysRels := by
  unfold Chip.setThread; split <;> [rfl; (split <;> rfl)]
@[simp] theorem Chip.setThread_reached (c : Chip) (u : TId) (t : Thread) : (c.setThread u t).reached = c.reached := by
  unfold Chip.setThread; split <;> [rfl; (split <;> rfl)]
@[simp] theorem Chip.setThread_clock (c : Chip) (u : TId) (t : Thread) : (c.setThread u t).clock = c.clock := by
  unfold Chip.setThread; split <;> [rfl; (split <;> rfl)]
@[simp] theorem Chip.setThread_nextTask (c : Chip) (u : TId) (t : Thread) : (c.setThread u t).nextTask = c.nextTask := by
  unfold Chip.setThread; split <;> [rfl; (split <;> rfl)]
@[simp] theorem Chip.setThread_draws (c : Chip) (u : TId) (t : Thread) : (c.setThread u t).draws = c.draws := by
  unfold Chip.setThread; split <;> [rfl; (split <;> rfl)]
@[simp] theorem Chip.setThread_frees (c : Chip) (u : TId) (t : Thread) : (c.setThread u t).frees = c.frees := by
  unfold Chip.setThread; split <;> [rfl; (split <;> rfl)]
@[simp] theorem Chip.setThread_steps (c : Chip) (u : TId) (t : Thread) : (c.setThread u t).steps = c.steps := by
  unfold Chip.setThread; split <;> [rfl; (split <;> rfl)]
@[simp] theorem Chip.focus_mem (c : Chip) (u : TId) : (c.focus u).mem = c.mem := by
  unfold Chip.focus; split <;> rfl
@[simp] theorem Chip.focus_empties (c : Chip) (u : TId) : (c.focus u).empties = c.empties := by
  unfold Chip.focus; split <;> rfl
@[simp] theorem Chip.focus_poison (c : Chip) (u : TId) : (c.focus u).poison = c.poison := by
  unfold Chip.focus; split <;> rfl
@[simp] theorem Chip.focus_cores (c : Chip) (u : TId) : (c.focus u).cores = c.cores := by
  unfold Chip.focus; split <;> rfl
@[simp] theorem Chip.focus_clusters (c : Chip) (u : TId) : (c.focus u).clusters = c.clusters := by
  unfold Chip.focus; split <;> rfl
@[simp] theorem Chip.focus_dies (c : Chip) (u : TId) : (c.focus u).dies = c.dies := by
  unfold Chip.focus; split <;> rfl
@[simp] theorem Chip.focus_routines (c : Chip) (u : TId) : (c.focus u).routines = c.routines := by
  unfold Chip.focus; split <;> rfl
@[simp] theorem Chip.focus_jobs (c : Chip) (u : TId) : (c.focus u).jobs = c.jobs := by
  unfold Chip.focus; split <;> rfl
@[simp] theorem Chip.focus_tiles (c : Chip) (u : TId) : (c.focus u).tiles = c.tiles := by
  unfold Chip.focus; split <;> rfl
@[simp] theorem Chip.focus_launches (c : Chip) (u : TId) : (c.focus u).launches = c.launches := by
  unfold Chip.focus; split <;> rfl
@[simp] theorem Chip.focus_walks (c : Chip) (u : TId) : (c.focus u).walks = c.walks := by
  unfold Chip.focus; split <;> rfl
@[simp] theorem Chip.focus_saved (c : Chip) (u : TId) : (c.focus u).saved = c.saved := by
  unfold Chip.focus; split <;> rfl
@[simp] theorem Chip.focus_images (c : Chip) (u : TId) : (c.focus u).images = c.images := by
  unfold Chip.focus; split <;> rfl
@[simp] theorem Chip.focus_locks (c : Chip) (u : TId) : (c.focus u).locks = c.locks := by
  unfold Chip.focus; split <;> rfl
@[simp] theorem Chip.focus_barriers (c : Chip) (u : TId) : (c.focus u).barriers = c.barriers := by
  unfold Chip.focus; split <;> rfl
@[simp] theorem Chip.focus_passed (c : Chip) (u : TId) : (c.focus u).passed = c.passed := by
  unfold Chip.focus; split <;> rfl
@[simp] theorem Chip.focus_hoard (c : Chip) (u : TId) : (c.focus u).hoard = c.hoard := by
  unfold Chip.focus; split <;> rfl
@[simp] theorem Chip.focus_asked (c : Chip) (u : TId) : (c.focus u).asked = c.asked := by
  unfold Chip.focus; split <;> rfl
@[simp] theorem Chip.focus_triggers (c : Chip) (u : TId) : (c.focus u).triggers = c.triggers := by
  unfold Chip.focus; split <;> rfl
@[simp] theorem Chip.focus_den (c : Chip) (u : TId) : (c.focus u).den = c.den := by
  unfold Chip.focus; split <;> rfl
@[simp] theorem Chip.focus_stage3 (c : Chip) (u : TId) : (c.focus u).stage3 = c.stage3 := by
  unfold Chip.focus; split <;> rfl
@[simp] theorem Chip.focus_denT1 (c : Chip) (u : TId) : (c.focus u).denT1 = c.denT1 := by
  unfold Chip.focus; split <;> rfl
@[simp] theorem Chip.focus_denT2 (c : Chip) (u : TId) : (c.focus u).denT2 = c.denT2 := by
  unfold Chip.focus; split <;> rfl
@[simp] theorem Chip.focus_idle (c : Chip) (u : TId) : (c.focus u).idle = c.idle := by
  unfold Chip.focus; split <;> rfl
@[simp] theorem Chip.focus_tcopies (c : Chip) (u : TId) : (c.focus u).tcopies = c.tcopies := by
  unfold Chip.focus; split <;> rfl
@[simp] theorem Chip.focus_flash (c : Chip) (u : TId) : (c.focus u).flash = c.flash := by
  unfold Chip.focus; split <;> rfl
@[simp] theorem Chip.focus_relics (c : Chip) (u : TId) : (c.focus u).relics = c.relics := by
  unfold Chip.focus; split <;> rfl
@[simp] theorem Chip.focus_promoting (c : Chip) (u : TId) : (c.focus u).promoting = c.promoting := by
  unfold Chip.focus; split <;> rfl
@[simp] theorem Chip.focus_zeroing (c : Chip) (u : TId) : (c.focus u).zeroing = c.zeroing := by
  unfold Chip.focus; split <;> rfl
@[simp] theorem Chip.focus_timebase (c : Chip) (u : TId) : (c.focus u).timebase = c.timebase := by
  unfold Chip.focus; split <;> rfl
@[simp] theorem Chip.focus_owls (c : Chip) (u : TId) : (c.focus u).owls = c.owls := by
  unfold Chip.focus; split <;> rfl
@[simp] theorem Chip.focus_channels (c : Chip) (u : TId) : (c.focus u).channels = c.channels := by
  unfold Chip.focus; split <;> rfl
@[simp] theorem Chip.focus_remotes (c : Chip) (u : TId) : (c.focus u).remotes = c.remotes := by
  unfold Chip.focus; split <;> rfl
@[simp] theorem Chip.focus_out (c : Chip) (u : TId) : (c.focus u).out = c.out := by
  unfold Chip.focus; split <;> rfl
@[simp] theorem Chip.focus_joins (c : Chip) (u : TId) : (c.focus u).joins = c.joins := by
  unfold Chip.focus; split <;> rfl
@[simp] theorem Chip.focus_hist (c : Chip) (u : TId) : (c.focus u).hist = c.hist := by
  unfold Chip.focus; split <;> rfl
@[simp] theorem Chip.focus_agents (c : Chip) (u : TId) : (c.focus u).agents = c.agents := by
  unfold Chip.focus; split <;> rfl
@[simp] theorem Chip.focus_rels (c : Chip) (u : TId) : (c.focus u).rels = c.rels := by
  unfold Chip.focus; split <;> rfl
@[simp] theorem Chip.focus_sysRels (c : Chip) (u : TId) : (c.focus u).sysRels = c.sysRels := by
  unfold Chip.focus; split <;> rfl
@[simp] theorem Chip.focus_reached (c : Chip) (u : TId) : (c.focus u).reached = c.reached := by
  unfold Chip.focus; split <;> rfl
@[simp] theorem Chip.focus_clock (c : Chip) (u : TId) : (c.focus u).clock = c.clock := by
  unfold Chip.focus; split <;> rfl
@[simp] theorem Chip.focus_nextTask (c : Chip) (u : TId) : (c.focus u).nextTask = c.nextTask := by
  unfold Chip.focus; split <;> rfl
@[simp] theorem Chip.focus_draws (c : Chip) (u : TId) : (c.focus u).draws = c.draws := by
  unfold Chip.focus; split <;> rfl
@[simp] theorem Chip.focus_frees (c : Chip) (u : TId) : (c.focus u).frees = c.frees := by
  unfold Chip.focus; split <;> rfl
@[simp] theorem Chip.focus_steps (c : Chip) (u : TId) : (c.focus u).steps = c.steps := by
  unfold Chip.focus; split <;> rfl

/-! A draw changes draws only. -/
@[simp] theorem Chip.draw_tid (c : Chip) (n : Nat) : (c.draw n).2.tid = c.tid := by
  unfold Chip.draw; split <;> rfl
@[simp] theorem Chip.draw_t (c : Chip) (n : Nat) : (c.draw n).2.t = c.t := by
  unfold Chip.draw; split <;> rfl
@[simp] theorem Chip.draw_others (c : Chip) (n : Nat) : (c.draw n).2.others = c.others := by
  unfold Chip.draw; split <;> rfl
@[simp] theorem Chip.draw_mem (c : Chip) (n : Nat) : (c.draw n).2.mem = c.mem := by
  unfold Chip.draw; split <;> rfl
@[simp] theorem Chip.draw_empties (c : Chip) (n : Nat) : (c.draw n).2.empties = c.empties := by
  unfold Chip.draw; split <;> rfl
@[simp] theorem Chip.draw_poison (c : Chip) (n : Nat) : (c.draw n).2.poison = c.poison := by
  unfold Chip.draw; split <;> rfl
@[simp] theorem Chip.draw_cores (c : Chip) (n : Nat) : (c.draw n).2.cores = c.cores := by
  unfold Chip.draw; split <;> rfl
@[simp] theorem Chip.draw_clusters (c : Chip) (n : Nat) : (c.draw n).2.clusters = c.clusters := by
  unfold Chip.draw; split <;> rfl
@[simp] theorem Chip.draw_dies (c : Chip) (n : Nat) : (c.draw n).2.dies = c.dies := by
  unfold Chip.draw; split <;> rfl
@[simp] theorem Chip.draw_routines (c : Chip) (n : Nat) : (c.draw n).2.routines = c.routines := by
  unfold Chip.draw; split <;> rfl
@[simp] theorem Chip.draw_jobs (c : Chip) (n : Nat) : (c.draw n).2.jobs = c.jobs := by
  unfold Chip.draw; split <;> rfl
@[simp] theorem Chip.draw_tiles (c : Chip) (n : Nat) : (c.draw n).2.tiles = c.tiles := by
  unfold Chip.draw; split <;> rfl
@[simp] theorem Chip.draw_launches (c : Chip) (n : Nat) : (c.draw n).2.launches = c.launches := by
  unfold Chip.draw; split <;> rfl
@[simp] theorem Chip.draw_walks (c : Chip) (n : Nat) : (c.draw n).2.walks = c.walks := by
  unfold Chip.draw; split <;> rfl
@[simp] theorem Chip.draw_saved (c : Chip) (n : Nat) : (c.draw n).2.saved = c.saved := by
  unfold Chip.draw; split <;> rfl
@[simp] theorem Chip.draw_images (c : Chip) (n : Nat) : (c.draw n).2.images = c.images := by
  unfold Chip.draw; split <;> rfl
@[simp] theorem Chip.draw_locks (c : Chip) (n : Nat) : (c.draw n).2.locks = c.locks := by
  unfold Chip.draw; split <;> rfl
@[simp] theorem Chip.draw_barriers (c : Chip) (n : Nat) : (c.draw n).2.barriers = c.barriers := by
  unfold Chip.draw; split <;> rfl
@[simp] theorem Chip.draw_passed (c : Chip) (n : Nat) : (c.draw n).2.passed = c.passed := by
  unfold Chip.draw; split <;> rfl
@[simp] theorem Chip.draw_hoard (c : Chip) (n : Nat) : (c.draw n).2.hoard = c.hoard := by
  unfold Chip.draw; split <;> rfl
@[simp] theorem Chip.draw_asked (c : Chip) (n : Nat) : (c.draw n).2.asked = c.asked := by
  unfold Chip.draw; split <;> rfl
@[simp] theorem Chip.draw_triggers (c : Chip) (n : Nat) : (c.draw n).2.triggers = c.triggers := by
  unfold Chip.draw; split <;> rfl
@[simp] theorem Chip.draw_den (c : Chip) (n : Nat) : (c.draw n).2.den = c.den := by
  unfold Chip.draw; split <;> rfl
@[simp] theorem Chip.draw_stage3 (c : Chip) (n : Nat) : (c.draw n).2.stage3 = c.stage3 := by
  unfold Chip.draw; split <;> rfl
@[simp] theorem Chip.draw_denT1 (c : Chip) (n : Nat) : (c.draw n).2.denT1 = c.denT1 := by
  unfold Chip.draw; split <;> rfl
@[simp] theorem Chip.draw_denT2 (c : Chip) (n : Nat) : (c.draw n).2.denT2 = c.denT2 := by
  unfold Chip.draw; split <;> rfl
@[simp] theorem Chip.draw_idle (c : Chip) (n : Nat) : (c.draw n).2.idle = c.idle := by
  unfold Chip.draw; split <;> rfl
@[simp] theorem Chip.draw_tcopies (c : Chip) (n : Nat) : (c.draw n).2.tcopies = c.tcopies := by
  unfold Chip.draw; split <;> rfl
@[simp] theorem Chip.draw_flash (c : Chip) (n : Nat) : (c.draw n).2.flash = c.flash := by
  unfold Chip.draw; split <;> rfl
@[simp] theorem Chip.draw_relics (c : Chip) (n : Nat) : (c.draw n).2.relics = c.relics := by
  unfold Chip.draw; split <;> rfl
@[simp] theorem Chip.draw_promoting (c : Chip) (n : Nat) : (c.draw n).2.promoting = c.promoting := by
  unfold Chip.draw; split <;> rfl
@[simp] theorem Chip.draw_zeroing (c : Chip) (n : Nat) : (c.draw n).2.zeroing = c.zeroing := by
  unfold Chip.draw; split <;> rfl
@[simp] theorem Chip.draw_timebase (c : Chip) (n : Nat) : (c.draw n).2.timebase = c.timebase := by
  unfold Chip.draw; split <;> rfl
@[simp] theorem Chip.draw_owls (c : Chip) (n : Nat) : (c.draw n).2.owls = c.owls := by
  unfold Chip.draw; split <;> rfl
@[simp] theorem Chip.draw_channels (c : Chip) (n : Nat) : (c.draw n).2.channels = c.channels := by
  unfold Chip.draw; split <;> rfl
@[simp] theorem Chip.draw_remotes (c : Chip) (n : Nat) : (c.draw n).2.remotes = c.remotes := by
  unfold Chip.draw; split <;> rfl
@[simp] theorem Chip.draw_out (c : Chip) (n : Nat) : (c.draw n).2.out = c.out := by
  unfold Chip.draw; split <;> rfl
@[simp] theorem Chip.draw_joins (c : Chip) (n : Nat) : (c.draw n).2.joins = c.joins := by
  unfold Chip.draw; split <;> rfl
@[simp] theorem Chip.draw_hist (c : Chip) (n : Nat) : (c.draw n).2.hist = c.hist := by
  unfold Chip.draw; split <;> rfl
@[simp] theorem Chip.draw_agents (c : Chip) (n : Nat) : (c.draw n).2.agents = c.agents := by
  unfold Chip.draw; split <;> rfl
@[simp] theorem Chip.draw_rels (c : Chip) (n : Nat) : (c.draw n).2.rels = c.rels := by
  unfold Chip.draw; split <;> rfl
@[simp] theorem Chip.draw_sysRels (c : Chip) (n : Nat) : (c.draw n).2.sysRels = c.sysRels := by
  unfold Chip.draw; split <;> rfl
@[simp] theorem Chip.draw_reached (c : Chip) (n : Nat) : (c.draw n).2.reached = c.reached := by
  unfold Chip.draw; split <;> rfl
@[simp] theorem Chip.draw_clock (c : Chip) (n : Nat) : (c.draw n).2.clock = c.clock := by
  unfold Chip.draw; split <;> rfl
@[simp] theorem Chip.draw_nextTask (c : Chip) (n : Nat) : (c.draw n).2.nextTask = c.nextTask := by
  unfold Chip.draw; split <;> rfl
@[simp] theorem Chip.draw_frees (c : Chip) (n : Nat) : (c.draw n).2.frees = c.frees := by
  unfold Chip.draw; split <;> rfl
@[simp] theorem Chip.draw_steps (c : Chip) (n : Nat) : (c.draw n).2.steps = c.steps := by
  unfold Chip.draw; split <;> rfl

/-! Thread.setX changes x and pend only. -/
@[simp] theorem Thread.setX_v (t : Thread) (r : Reg) (v : Dword) : (t.setX r v).v = t.v := by
  unfold Thread.setX; split <;> rfl
@[simp] theorem Thread.setX_m (t : Thread) (r : Reg) (v : Dword) : (t.setX r v).m = t.m := by
  unfold Thread.setX; split <;> rfl
@[simp] theorem Thread.setX_pc (t : Thread) (r : Reg) (v : Dword) : (t.setX r v).pc = t.pc := by
  unfold Thread.setX; split <;> rfl
@[simp] theorem Thread.setX_loops (t : Thread) (r : Reg) (v : Dword) : (t.setX r v).loops = t.loops := by
  unfold Thread.setX; split <;> rfl
@[simp] theorem Thread.setX_csr (t : Thread) (r : Reg) (v : Dword) : (t.setX r v).csr = t.csr := by
  unfold Thread.setX; split <;> rfl
@[simp] theorem Thread.setX_repc (t : Thread) (r : Reg) (v : Dword) : (t.setX r v).repc = t.repc := by
  unfold Thread.setX; split <;> rfl
@[simp] theorem Thread.setX_rep (t : Thread) (r : Reg) (v : Dword) : (t.setX r v).rep = t.rep := by
  unfold Thread.setX; split <;> rfl
@[simp] theorem Thread.setX_run (t : Thread) (r : Reg) (v : Dword) : (t.setX r v).run = t.run := by
  unfold Thread.setX; split <;> rfl
@[simp] theorem Thread.setX_sup (t : Thread) (r : Reg) (v : Dword) : (t.setX r v).sup = t.sup := by
  unfold Thread.setX; split <;> rfl
@[simp] theorem Thread.setX_handler (t : Thread) (r : Reg) (v : Dword) : (t.setX r v).handler = t.handler := by
  unfold Thread.setX; split <;> rfl
@[simp] theorem Thread.setX_nextPend (t : Thread) (r : Reg) (v : Dword) : (t.setX r v).nextPend = t.nextPend := by
  unfold Thread.setX; split <;> rfl
@[simp] theorem Thread.setX_task (t : Thread) (r : Reg) (v : Dword) : (t.setX r v).task = t.task := by
  unfold Thread.setX; split <;> rfl
@[simp] theorem Thread.setX_squirrel (t : Thread) (r : Reg) (v : Dword) : (t.setX r v).squirrel = t.squirrel := by
  unfold Thread.setX; split <;> rfl
@[simp] theorem Thread.setX_report (t : Thread) (r : Reg) (v : Dword) : (t.setX r v).report = t.report := by
  unfold Thread.setX; split <;> rfl
@[simp] theorem Thread.setX_kept (t : Thread) (r : Reg) (v : Dword) : (t.setX r v).kept = t.kept := by
  unfold Thread.setX; split <;> rfl
@[simp] theorem Thread.setX_snaps (t : Thread) (r : Reg) (v : Dword) : (t.setX r v).snaps = t.snaps := by
  unfold Thread.setX; split <;> rfl
@[simp] theorem Thread.setX_returned (t : Thread) (r : Reg) (v : Dword) : (t.setX r v).returned = t.returned := by
  unfold Thread.setX; split <;> rfl
@[simp] theorem Thread.setX_dropped (t : Thread) (r : Reg) (v : Dword) : (t.setX r v).dropped = t.dropped := by
  unfold Thread.setX; split <;> rfl
@[simp] theorem Thread.setX_gangSize (t : Thread) (r : Reg) (v : Dword) : (t.setX r v).gangSize = t.gangSize := by
  unfold Thread.setX; split <;> rfl
@[simp] theorem Thread.setX_gangMember (t : Thread) (r : Reg) (v : Dword) : (t.setX r v).gangMember = t.gangMember := by
  unfold Thread.setX; split <;> rfl
@[simp] theorem Thread.setX_gangLeader (t : Thread) (r : Reg) (v : Dword) : (t.setX r v).gangLeader = t.gangLeader := by
  unfold Thread.setX; split <;> rfl

/-! Thread.setM changes m only. -/
@[simp] theorem Thread.setM_x (t : Thread) (r : BitVec 3) (v : Byte) : (t.setM r v).x = t.x := by
  unfold Thread.setM; split <;> rfl
@[simp] theorem Thread.setM_v (t : Thread) (r : BitVec 3) (v : Byte) : (t.setM r v).v = t.v := by
  unfold Thread.setM; split <;> rfl
@[simp] theorem Thread.setM_pc (t : Thread) (r : BitVec 3) (v : Byte) : (t.setM r v).pc = t.pc := by
  unfold Thread.setM; split <;> rfl
@[simp] theorem Thread.setM_loops (t : Thread) (r : BitVec 3) (v : Byte) : (t.setM r v).loops = t.loops := by
  unfold Thread.setM; split <;> rfl
@[simp] theorem Thread.setM_csr (t : Thread) (r : BitVec 3) (v : Byte) : (t.setM r v).csr = t.csr := by
  unfold Thread.setM; split <;> rfl
@[simp] theorem Thread.setM_repc (t : Thread) (r : BitVec 3) (v : Byte) : (t.setM r v).repc = t.repc := by
  unfold Thread.setM; split <;> rfl
@[simp] theorem Thread.setM_rep (t : Thread) (r : BitVec 3) (v : Byte) : (t.setM r v).rep = t.rep := by
  unfold Thread.setM; split <;> rfl
@[simp] theorem Thread.setM_run (t : Thread) (r : BitVec 3) (v : Byte) : (t.setM r v).run = t.run := by
  unfold Thread.setM; split <;> rfl
@[simp] theorem Thread.setM_sup (t : Thread) (r : BitVec 3) (v : Byte) : (t.setM r v).sup = t.sup := by
  unfold Thread.setM; split <;> rfl
@[simp] theorem Thread.setM_handler (t : Thread) (r : BitVec 3) (v : Byte) : (t.setM r v).handler = t.handler := by
  unfold Thread.setM; split <;> rfl
@[simp] theorem Thread.setM_pend (t : Thread) (r : BitVec 3) (v : Byte) : (t.setM r v).pend = t.pend := by
  unfold Thread.setM; split <;> rfl
@[simp] theorem Thread.setM_nextPend (t : Thread) (r : BitVec 3) (v : Byte) : (t.setM r v).nextPend = t.nextPend := by
  unfold Thread.setM; split <;> rfl
@[simp] theorem Thread.setM_task (t : Thread) (r : BitVec 3) (v : Byte) : (t.setM r v).task = t.task := by
  unfold Thread.setM; split <;> rfl
@[simp] theorem Thread.setM_squirrel (t : Thread) (r : BitVec 3) (v : Byte) : (t.setM r v).squirrel = t.squirrel := by
  unfold Thread.setM; split <;> rfl
@[simp] theorem Thread.setM_report (t : Thread) (r : BitVec 3) (v : Byte) : (t.setM r v).report = t.report := by
  unfold Thread.setM; split <;> rfl
@[simp] theorem Thread.setM_kept (t : Thread) (r : BitVec 3) (v : Byte) : (t.setM r v).kept = t.kept := by
  unfold Thread.setM; split <;> rfl
@[simp] theorem Thread.setM_snaps (t : Thread) (r : BitVec 3) (v : Byte) : (t.setM r v).snaps = t.snaps := by
  unfold Thread.setM; split <;> rfl
@[simp] theorem Thread.setM_returned (t : Thread) (r : BitVec 3) (v : Byte) : (t.setM r v).returned = t.returned := by
  unfold Thread.setM; split <;> rfl
@[simp] theorem Thread.setM_dropped (t : Thread) (r : BitVec 3) (v : Byte) : (t.setM r v).dropped = t.dropped := by
  unfold Thread.setM; split <;> rfl
@[simp] theorem Thread.setM_gangSize (t : Thread) (r : BitVec 3) (v : Byte) : (t.setM r v).gangSize = t.gangSize := by
  unfold Thread.setM; split <;> rfl
@[simp] theorem Thread.setM_gangMember (t : Thread) (r : BitVec 3) (v : Byte) : (t.setM r v).gangMember = t.gangMember := by
  unfold Thread.setM; split <;> rfl
@[simp] theorem Thread.setM_gangLeader (t : Thread) (r : BitVec 3) (v : Byte) : (t.setM r v).gangLeader = t.gangLeader := by
  unfold Thread.setM; split <;> rfl

/-! Thread.warn changes csr only. -/
@[simp] theorem Thread.warn_x (t : Thread) (k : Byte) (a : Dword) : (t.warn k a).x = t.x := by
  unfold Thread.warn; split <;> rfl
@[simp] theorem Thread.warn_v (t : Thread) (k : Byte) (a : Dword) : (t.warn k a).v = t.v := by
  unfold Thread.warn; split <;> rfl
@[simp] theorem Thread.warn_m (t : Thread) (k : Byte) (a : Dword) : (t.warn k a).m = t.m := by
  unfold Thread.warn; split <;> rfl
@[simp] theorem Thread.warn_pc (t : Thread) (k : Byte) (a : Dword) : (t.warn k a).pc = t.pc := by
  unfold Thread.warn; split <;> rfl
@[simp] theorem Thread.warn_loops (t : Thread) (k : Byte) (a : Dword) : (t.warn k a).loops = t.loops := by
  unfold Thread.warn; split <;> rfl
@[simp] theorem Thread.warn_repc (t : Thread) (k : Byte) (a : Dword) : (t.warn k a).repc = t.repc := by
  unfold Thread.warn; split <;> rfl
@[simp] theorem Thread.warn_rep (t : Thread) (k : Byte) (a : Dword) : (t.warn k a).rep = t.rep := by
  unfold Thread.warn; split <;> rfl
@[simp] theorem Thread.warn_run (t : Thread) (k : Byte) (a : Dword) : (t.warn k a).run = t.run := by
  unfold Thread.warn; split <;> rfl
@[simp] theorem Thread.warn_sup (t : Thread) (k : Byte) (a : Dword) : (t.warn k a).sup = t.sup := by
  unfold Thread.warn; split <;> rfl
@[simp] theorem Thread.warn_handler (t : Thread) (k : Byte) (a : Dword) : (t.warn k a).handler = t.handler := by
  unfold Thread.warn; split <;> rfl
@[simp] theorem Thread.warn_pend (t : Thread) (k : Byte) (a : Dword) : (t.warn k a).pend = t.pend := by
  unfold Thread.warn; split <;> rfl
@[simp] theorem Thread.warn_nextPend (t : Thread) (k : Byte) (a : Dword) : (t.warn k a).nextPend = t.nextPend := by
  unfold Thread.warn; split <;> rfl
@[simp] theorem Thread.warn_task (t : Thread) (k : Byte) (a : Dword) : (t.warn k a).task = t.task := by
  unfold Thread.warn; split <;> rfl
@[simp] theorem Thread.warn_squirrel (t : Thread) (k : Byte) (a : Dword) : (t.warn k a).squirrel = t.squirrel := by
  unfold Thread.warn; split <;> rfl
@[simp] theorem Thread.warn_report (t : Thread) (k : Byte) (a : Dword) : (t.warn k a).report = t.report := by
  unfold Thread.warn; split <;> rfl
@[simp] theorem Thread.warn_kept (t : Thread) (k : Byte) (a : Dword) : (t.warn k a).kept = t.kept := by
  unfold Thread.warn; split <;> rfl
@[simp] theorem Thread.warn_snaps (t : Thread) (k : Byte) (a : Dword) : (t.warn k a).snaps = t.snaps := by
  unfold Thread.warn; split <;> rfl
@[simp] theorem Thread.warn_returned (t : Thread) (k : Byte) (a : Dword) : (t.warn k a).returned = t.returned := by
  unfold Thread.warn; split <;> rfl
@[simp] theorem Thread.warn_dropped (t : Thread) (k : Byte) (a : Dword) : (t.warn k a).dropped = t.dropped := by
  unfold Thread.warn; split <;> rfl
@[simp] theorem Thread.warn_gangSize (t : Thread) (k : Byte) (a : Dword) : (t.warn k a).gangSize = t.gangSize := by
  unfold Thread.warn; split <;> rfl
@[simp] theorem Thread.warn_gangMember (t : Thread) (k : Byte) (a : Dword) : (t.warn k a).gangMember = t.gangMember := by
  unfold Thread.warn; split <;> rfl
@[simp] theorem Thread.warn_gangLeader (t : Thread) (k : Byte) (a : Dword) : (t.warn k a).gangLeader = t.gangLeader := by
  unfold Thread.warn; split <;> rfl

/-! Thread.setV changes v and pend only. -/
@[simp] theorem Thread.setV_x (t : Thread) (r : Reg) (a : Byte) (l : Lanes Word) : (t.setV r a l).x = t.x := rfl
@[simp] theorem Thread.setV_m (t : Thread) (r : Reg) (a : Byte) (l : Lanes Word) : (t.setV r a l).m = t.m := rfl
@[simp] theorem Thread.setV_pc (t : Thread) (r : Reg) (a : Byte) (l : Lanes Word) : (t.setV r a l).pc = t.pc := rfl
@[simp] theorem Thread.setV_loops (t : Thread) (r : Reg) (a : Byte) (l : Lanes Word) : (t.setV r a l).loops = t.loops := rfl
@[simp] theorem Thread.setV_csr (t : Thread) (r : Reg) (a : Byte) (l : Lanes Word) : (t.setV r a l).csr = t.csr := rfl
@[simp] theorem Thread.setV_repc (t : Thread) (r : Reg) (a : Byte) (l : Lanes Word) : (t.setV r a l).repc = t.repc := rfl
@[simp] theorem Thread.setV_rep (t : Thread) (r : Reg) (a : Byte) (l : Lanes Word) : (t.setV r a l).rep = t.rep := rfl
@[simp] theorem Thread.setV_run (t : Thread) (r : Reg) (a : Byte) (l : Lanes Word) : (t.setV r a l).run = t.run := rfl
@[simp] theorem Thread.setV_sup (t : Thread) (r : Reg) (a : Byte) (l : Lanes Word) : (t.setV r a l).sup = t.sup := rfl
@[simp] theorem Thread.setV_handler (t : Thread) (r : Reg) (a : Byte) (l : Lanes Word) : (t.setV r a l).handler = t.handler := rfl
@[simp] theorem Thread.setV_nextPend (t : Thread) (r : Reg) (a : Byte) (l : Lanes Word) : (t.setV r a l).nextPend = t.nextPend := rfl
@[simp] theorem Thread.setV_task (t : Thread) (r : Reg) (a : Byte) (l : Lanes Word) : (t.setV r a l).task = t.task := rfl
@[simp] theorem Thread.setV_squirrel (t : Thread) (r : Reg) (a : Byte) (l : Lanes Word) : (t.setV r a l).squirrel = t.squirrel := rfl
@[simp] theorem Thread.setV_report (t : Thread) (r : Reg) (a : Byte) (l : Lanes Word) : (t.setV r a l).report = t.report := rfl
@[simp] theorem Thread.setV_kept (t : Thread) (r : Reg) (a : Byte) (l : Lanes Word) : (t.setV r a l).kept = t.kept := rfl
@[simp] theorem Thread.setV_snaps (t : Thread) (r : Reg) (a : Byte) (l : Lanes Word) : (t.setV r a l).snaps = t.snaps := rfl
@[simp] theorem Thread.setV_returned (t : Thread) (r : Reg) (a : Byte) (l : Lanes Word) : (t.setV r a l).returned = t.returned := rfl
@[simp] theorem Thread.setV_dropped (t : Thread) (r : Reg) (a : Byte) (l : Lanes Word) : (t.setV r a l).dropped = t.dropped := rfl
@[simp] theorem Thread.setV_gangSize (t : Thread) (r : Reg) (a : Byte) (l : Lanes Word) : (t.setV r a l).gangSize = t.gangSize := rfl
@[simp] theorem Thread.setV_gangMember (t : Thread) (r : Reg) (a : Byte) (l : Lanes Word) : (t.setV r a l).gangMember = t.gangMember := rfl
@[simp] theorem Thread.setV_gangLeader (t : Thread) (r : Reg) (a : Byte) (l : Lanes Word) : (t.setV r a l).gangLeader = t.gangLeader := rfl

/-! Thread.setFlags changes csr only. -/
@[simp] theorem Thread.setFlags_x (t : Thread) (w : Word) : (t.setFlags w).x = t.x := rfl
@[simp] theorem Thread.setFlags_v (t : Thread) (w : Word) : (t.setFlags w).v = t.v := rfl
@[simp] theorem Thread.setFlags_m (t : Thread) (w : Word) : (t.setFlags w).m = t.m := rfl
@[simp] theorem Thread.setFlags_pc (t : Thread) (w : Word) : (t.setFlags w).pc = t.pc := rfl
@[simp] theorem Thread.setFlags_loops (t : Thread) (w : Word) : (t.setFlags w).loops = t.loops := rfl
@[simp] theorem Thread.setFlags_repc (t : Thread) (w : Word) : (t.setFlags w).repc = t.repc := rfl
@[simp] theorem Thread.setFlags_rep (t : Thread) (w : Word) : (t.setFlags w).rep = t.rep := rfl
@[simp] theorem Thread.setFlags_run (t : Thread) (w : Word) : (t.setFlags w).run = t.run := rfl
@[simp] theorem Thread.setFlags_sup (t : Thread) (w : Word) : (t.setFlags w).sup = t.sup := rfl
@[simp] theorem Thread.setFlags_handler (t : Thread) (w : Word) : (t.setFlags w).handler = t.handler := rfl
@[simp] theorem Thread.setFlags_pend (t : Thread) (w : Word) : (t.setFlags w).pend = t.pend := rfl
@[simp] theorem Thread.setFlags_nextPend (t : Thread) (w : Word) : (t.setFlags w).nextPend = t.nextPend := rfl
@[simp] theorem Thread.setFlags_task (t : Thread) (w : Word) : (t.setFlags w).task = t.task := rfl
@[simp] theorem Thread.setFlags_squirrel (t : Thread) (w : Word) : (t.setFlags w).squirrel = t.squirrel := rfl
@[simp] theorem Thread.setFlags_report (t : Thread) (w : Word) : (t.setFlags w).report = t.report := rfl
@[simp] theorem Thread.setFlags_kept (t : Thread) (w : Word) : (t.setFlags w).kept = t.kept := rfl
@[simp] theorem Thread.setFlags_snaps (t : Thread) (w : Word) : (t.setFlags w).snaps = t.snaps := rfl
@[simp] theorem Thread.setFlags_returned (t : Thread) (w : Word) : (t.setFlags w).returned = t.returned := rfl
@[simp] theorem Thread.setFlags_dropped (t : Thread) (w : Word) : (t.setFlags w).dropped = t.dropped := rfl
@[simp] theorem Thread.setFlags_gangSize (t : Thread) (w : Word) : (t.setFlags w).gangSize = t.gangSize := rfl
@[simp] theorem Thread.setFlags_gangMember (t : Thread) (w : Word) : (t.setFlags w).gangMember = t.gangMember := rfl
@[simp] theorem Thread.setFlags_gangLeader (t : Thread) (w : Word) : (t.setFlags w).gangLeader = t.gangLeader := rfl

/-! Thread.clearAct changes repc only. -/
@[simp] theorem Thread.clearAct_x (t : Thread) : (t.clearAct).x = t.x := rfl
@[simp] theorem Thread.clearAct_v (t : Thread) : (t.clearAct).v = t.v := rfl
@[simp] theorem Thread.clearAct_m (t : Thread) : (t.clearAct).m = t.m := rfl
@[simp] theorem Thread.clearAct_pc (t : Thread) : (t.clearAct).pc = t.pc := rfl
@[simp] theorem Thread.clearAct_loops (t : Thread) : (t.clearAct).loops = t.loops := rfl
@[simp] theorem Thread.clearAct_csr (t : Thread) : (t.clearAct).csr = t.csr := rfl
@[simp] theorem Thread.clearAct_rep (t : Thread) : (t.clearAct).rep = t.rep := rfl
@[simp] theorem Thread.clearAct_run (t : Thread) : (t.clearAct).run = t.run := rfl
@[simp] theorem Thread.clearAct_sup (t : Thread) : (t.clearAct).sup = t.sup := rfl
@[simp] theorem Thread.clearAct_handler (t : Thread) : (t.clearAct).handler = t.handler := rfl
@[simp] theorem Thread.clearAct_pend (t : Thread) : (t.clearAct).pend = t.pend := rfl
@[simp] theorem Thread.clearAct_nextPend (t : Thread) : (t.clearAct).nextPend = t.nextPend := rfl
@[simp] theorem Thread.clearAct_task (t : Thread) : (t.clearAct).task = t.task := rfl
@[simp] theorem Thread.clearAct_squirrel (t : Thread) : (t.clearAct).squirrel = t.squirrel := rfl
@[simp] theorem Thread.clearAct_report (t : Thread) : (t.clearAct).report = t.report := rfl
@[simp] theorem Thread.clearAct_kept (t : Thread) : (t.clearAct).kept = t.kept := rfl
@[simp] theorem Thread.clearAct_snaps (t : Thread) : (t.clearAct).snaps = t.snaps := rfl
@[simp] theorem Thread.clearAct_returned (t : Thread) : (t.clearAct).returned = t.returned := rfl
@[simp] theorem Thread.clearAct_dropped (t : Thread) : (t.clearAct).dropped = t.dropped := rfl
@[simp] theorem Thread.clearAct_gangSize (t : Thread) : (t.clearAct).gangSize = t.gangSize := rfl
@[simp] theorem Thread.clearAct_gangMember (t : Thread) : (t.clearAct).gangMember = t.gangMember := rfl
@[simp] theorem Thread.clearAct_gangLeader (t : Thread) : (t.clearAct).gangLeader = t.gangLeader := rfl

/-! The values that the updates set. -/

@[simp] theorem Chip.setAgent_agents (c : Chip) (a : Agent) : (c.setAgent a).agents = agentPut c.agents a := rfl
@[simp] theorem Chip.setCore_cores (c : Chip) (k : CoreId) (v : CoreState) : (c.setCore k v).cores = tableSet c.cores k v := rfl
@[simp] theorem Chip.setCluster_clusters (c : Chip) (k : CId) (v : Cluster) :
    (c.setCluster k v).clusters = tableSet c.clusters k v := rfl
@[simp] theorem Chip.setDie_dies (c : Chip) (d : BitVec 3) (v : Die) : (c.setDie d v).dies = Lanes.set c.dies d v := rfl
@[simp] theorem Chip.tick_clock (c : Chip) : c.tick.2.clock = c.clock + 1 := rfl
@[simp] theorem Chip.free_frees (c : Chip) : c.free.2.frees = c.frees + 1 := rfl
@[simp] theorem Thread.setFlags_flags (t : Thread) (w : Word) : (t.setFlags w).csr.flags = t.csr.flags ||| w := rfl
@[simp] theorem Thread.warn_zero (t : Thread) (a : Dword) : t.warn 0 a = t := rfl
@[simp] theorem Thread.setX_zero (t : Thread) (v : Dword) : t.setX 0 v = t := rfl
@[simp] theorem Thread.setM_zero (t : Thread) (v : Byte) : t.setM 0 v = t := rfl
@[simp] theorem Thread.getX_zero (t : Thread) : t.getX 0 = 0 := rfl
@[simp] theorem Thread.getM_zero (t : Thread) : t.getM 0 = 0xFF := rfl

/-! ## Tables and lanes -/

/-- A key that was set reads what was set, and every other key what it read. -/
@[simp] theorem tableGet_tableSet {κ α : Type} [DecidableEq κ] (l : List (κ × α)) (k q : κ) (v : α) :
    tableGet (tableSet l k v) q = if k = q then some v else tableGet l q := by
  induction l with
  | nil => rfl
  | cons e rest ih =>
    obtain ⟨a, w⟩ := e
    simp only [tableSet]
    by_cases h : a = k
    · subst h; simp only [tableGet, if_true]; split <;> rfl
    · simp only [h, if_false, tableGet, ih]
      by_cases ha : a = q
      · subst ha; simp [Ne.symm h]
      · simp [ha]

/-- A key that was erased reads none, and every other key what it read. -/
@[simp] theorem tableGet_tableErase {κ α : Type} [DecidableEq κ] (l : List (κ × α)) (k q : κ) :
    tableGet (tableErase l k) q = if k = q then none else tableGet l q := by
  induction l with
  | nil => simp [tableErase, tableGet]
  | cons e rest ih =>
    obtain ⟨a, w⟩ := e
    simp only [tableErase] at ih ⊢
    by_cases h : a = k
    · subst h; simp only [ne_eq, not_true, decide_false, List.filter_cons, Bool.false_eq_true, if_false, ih, tableGet]
      split <;> rfl
    · simp only [ne_eq, h, not_false_iff, decide_true, List.filter_cons, if_true, tableGet, ih]
      by_cases ha : a = q
      · subst ha; simp [Ne.symm h]
      · simp [ha]

/-- An element of eight that was set reads what was set, and the others what they read. -/
@[simp] theorem Lanes.get_set {α : Type} (l : Lanes α) (i j : BitVec 3) (v : α) :
    Lanes.get (Lanes.set l i v) j = if i = j then v else Lanes.get l j := by
  have h : ∀ i j : BitVec 3, (Lanes.get (Lanes.set l i v) j = if i = j then v else Lanes.get l j) := by
    obtain ⟨a, b, c, d, e, f, g, h⟩ := l
    intro i j
    match i, j with
    | 0#3, 0#3 => rfl
    | 0#3, 1#3 => rfl
    | 0#3, 2#3 => rfl
    | 0#3, 3#3 => rfl
    | 0#3, 4#3 => rfl
    | 0#3, 5#3 => rfl
    | 0#3, 6#3 => rfl
    | 0#3, 7#3 => rfl
    | 1#3, 0#3 => rfl
    | 1#3, 1#3 => rfl
    | 1#3, 2#3 => rfl
    | 1#3, 3#3 => rfl
    | 1#3, 4#3 => rfl
    | 1#3, 5#3 => rfl
    | 1#3, 6#3 => rfl
    | 1#3, 7#3 => rfl
    | 2#3, 0#3 => rfl
    | 2#3, 1#3 => rfl
    | 2#3, 2#3 => rfl
    | 2#3, 3#3 => rfl
    | 2#3, 4#3 => rfl
    | 2#3, 5#3 => rfl
    | 2#3, 6#3 => rfl
    | 2#3, 7#3 => rfl
    | 3#3, 0#3 => rfl
    | 3#3, 1#3 => rfl
    | 3#3, 2#3 => rfl
    | 3#3, 3#3 => rfl
    | 3#3, 4#3 => rfl
    | 3#3, 5#3 => rfl
    | 3#3, 6#3 => rfl
    | 3#3, 7#3 => rfl
    | 4#3, 0#3 => rfl
    | 4#3, 1#3 => rfl
    | 4#3, 2#3 => rfl
    | 4#3, 3#3 => rfl
    | 4#3, 4#3 => rfl
    | 4#3, 5#3 => rfl
    | 4#3, 6#3 => rfl
    | 4#3, 7#3 => rfl
    | 5#3, 0#3 => rfl
    | 5#3, 1#3 => rfl
    | 5#3, 2#3 => rfl
    | 5#3, 3#3 => rfl
    | 5#3, 4#3 => rfl
    | 5#3, 5#3 => rfl
    | 5#3, 6#3 => rfl
    | 5#3, 7#3 => rfl
    | 6#3, 0#3 => rfl
    | 6#3, 1#3 => rfl
    | 6#3, 2#3 => rfl
    | 6#3, 3#3 => rfl
    | 6#3, 4#3 => rfl
    | 6#3, 5#3 => rfl
    | 6#3, 6#3 => rfl
    | 6#3, 7#3 => rfl
    | 7#3, 0#3 => rfl
    | 7#3, 1#3 => rfl
    | 7#3, 2#3 => rfl
    | 7#3, 3#3 => rfl
    | 7#3, 4#3 => rfl
    | 7#3, 5#3 => rfl
    | 7#3, 6#3 => rfl
    | 7#3, 7#3 => rfl
  exact h i j

/-- Eight elements from a function read as the function. -/
@[simp] theorem Lanes.get_of {α : Type} (f : BitVec 3 → α) (i : BitVec 3) : Lanes.get (Lanes.of f) i = f i := by
  match i with
  | 0#3 | 1#3 | 2#3 | 3#3 | 4#3 | 5#3 | 6#3 | 7#3 => rfl

@[simp] theorem Chip.core_setCore (c : Chip) (k q : CoreId) (v : CoreState) :
    (c.setCore k v).core q = if k = q then v else c.core q := by
  unfold Chip.core Chip.setCore; rw [tableGet_tableSet]; split <;> rfl
@[simp] theorem Chip.cluster_setCluster (c : Chip) (k q : CId) (v : Cluster) :
    (c.setCluster k v).cluster q = if k = q then v else c.cluster q := by
  unfold Chip.cluster Chip.setCluster; rw [tableGet_tableSet]; split <;> rfl
@[simp] theorem Chip.die_setDie (c : Chip) (d e : BitVec 3) (v : Die) :
    (c.setDie d v).die e = if d = e then v else c.die e := Lanes.get_set c.dies d e v

/-- An agent's record that was set, and the others'. -/
@[simp] theorem agentGet_agentPut (l : List Agent) (a : Agent) (q : AgentId) :
    agentGet (agentPut l a) q = if a.agent = q then a else agentGet l q := by
  induction l with
  | nil => simp only [agentPut, agentGet]
  | cons x rest ih =>
    simp only [agentPut]
    by_cases h : x.agent = a.agent
    · rw [if_pos h]; simp only [agentGet]; rw [← h]; split <;> rfl
    · rw [if_neg h]; simp only [agentGet, ih]
      by_cases hq : x.agent = q
      · rw [if_pos hq, if_neg (fun e => h (hq.trans e.symm)), if_pos hq]
      · rw [if_neg hq, if_neg hq]
@[simp] theorem Chip.agent_setAgent (c : Chip) (a : Agent) (q : AgentId) :
    (c.setAgent a).agent q = if a.agent = q then a else c.agent q := agentGet_agentPut c.agents a q

/-! ## Threads -/

/-- A thread that was set, and the others. -/
@[simp] theorem Chip.thread_setThread (c : Chip) (u w : TId) (t : Thread) :
    (c.setThread u t).thread w = if u = w then t else c.thread w := by
  unfold Chip.setThread
  by_cases hu : u = c.tid
  · subst hu; simp only [if_true]; unfold Chip.thread
    by_cases hw : w = c.tid
    · subst hw; simp
    · simp [hw, Ne.symm hw]
  · simp only [hu, if_false]
    by_cases ht : t = Thread.reset
    · subst ht; simp only [if_true]; unfold Chip.thread
      by_cases hw : w = c.tid
      · subst hw; simp [hu]
      · simp only [hw, if_false, tableGet_tableErase]
        by_cases huw : u = w
        · subst huw; simp
        · simp [huw]
    · simp only [ht, if_false]; unfold Chip.thread
      by_cases hw : w = c.tid
      · subst hw; simp [hu]
      · simp only [hw, if_false, tableGet_tableSet]
        by_cases huw : u = w
        · subst huw; simp
        · simp [huw]

/-- Another thread in focus: it acts, and every thread is as it was, but that a thread in its state after reset is listed no
longer. -/
@[simp] theorem Chip.focus_tid (c : Chip) (u : TId) : (c.focus u).tid = u := by
  unfold Chip.focus; split <;> [(rename_i h; exact h.symm); rfl]
@[simp] theorem Chip.focus_t (c : Chip) (u : TId) : (c.focus u).t = c.thread u := by
  unfold Chip.focus; split
  · rename_i h; subst h; simp [Chip.thread]
  · rfl
@[simp] theorem Chip.thread_focus_self (c : Chip) (u : TId) : (c.focus u).thread u = c.thread u := by
  unfold Chip.thread; rw [Chip.focus_tid, Chip.focus_t]; simp [Chip.thread]
/-- Threads that did not act are as they were. -/
theorem Chip.thread_focus (c : Chip) (u w : TId) (h : w ≠ c.tid) : (c.focus u).thread w = c.thread w := by
  by_cases hw : w = u
  · subst hw; exact Chip.thread_focus_self c w
  · by_cases hu : u = c.tid
    · subst hu; simp [Chip.focus]
    · have e : (c.focus u).tid = u := Chip.focus_tid c u
      unfold Chip.thread; rw [e]; simp only [hw, h, if_false]; unfold Chip.focus
      by_cases ht : c.t = Thread.reset
      · simp [hu, ht, Ne.symm hw]
      · simp [hu, ht, Ne.symm hw, Ne.symm h]
/-- The thread that acted is as it was, where it differed from its state after reset. -/
theorem Chip.thread_focus_tid (c : Chip) (u : TId) (h : c.t ≠ Thread.reset) : (c.focus u).thread c.tid = c.t := by
  by_cases hu : u = c.tid
  · subst hu; simp [Chip.focus, Chip.thread]
  · have e : (c.focus u).tid = u := Chip.focus_tid c u
    unfold Chip.thread; rw [e]; simp only [Ne.symm hu, if_false]; unfold Chip.focus; simp [hu, h]

end Sys2Proof.Machine
end

