-- ==== Sys2Proof/Laws/Memory.lean ====
section
/-! SUPPORT. The laws of memory: a byte after a write, a copy or a removal, and that each keeps the canonical form. -/

namespace Sys2Proof.Machine

/-! ## Bytes after an operation -/

/-- A removal keeps the bytes of the addresses that stay. -/
theorem Mem.get_filter (m : List Host.Cell) (p : Nat → Bool) (a : Nat) :
    Mem.get (m.filter fun c => p c.1) a = if p a then Mem.get m a else Mem.default := by
  induction m with
  | nil => simp [Mem.get]
  | cons c rest ih =>
    obtain ⟨k, b⟩ := c
    by_cases hk : k = a
    · subst hk
      cases hp : p k <;> simp [hp, Mem.get, ih]
    · cases hp : p k <;> simp [hp, Mem.get, ih, hk]

/-- An address listed nowhere in the first part reads in the second. -/
theorem Mem.get_append (m n : List Host.Cell) (a : Nat) :
    Mem.get (m ++ n) a = if (m.any fun c => decide (c.1 = a)) then Mem.get m a else Mem.get n a := by
  induction m with
  | nil => simp
  | cons c rest ih =>
    obtain ⟨k, b⟩ := c
    by_cases hk : k = a
    · simp [hk, Mem.get]
    · simp [hk, Mem.get, ih]

theorem Mem.get_cells (bs : List Byte) (a k : Nat) :
    Mem.get (Mem.cells a bs) k = if a ≤ k ∧ k < a + bs.length then bs.getD (k - a) 0 else Mem.default := by
  induction bs generalizing a with
  | nil => simp only [Mem.cells, Mem.get, List.length_nil]; rw [if_neg (by omega)]
  | cons b bs ih =>
    have key : Mem.get (Mem.cells a (b :: bs)) k = if a = k then b else Mem.get (Mem.cells (a + 1) bs) k := by
      simp only [Mem.cells]
      by_cases hb : b = Mem.default
      · rw [if_pos hb]
        by_cases ha : a = k
        · rw [if_pos ha, ih, if_neg (by omega), hb]
        · rw [if_neg ha]
      · rw [if_neg hb]; rfl
    rw [key, ih]
    by_cases ha : a = k
    · subst ha; simp
    · simp only [ha, if_false, List.length_cons]
      by_cases hr : a + 1 ≤ k ∧ k < a + 1 + bs.length
      · rw [if_pos hr, if_pos (by omega), show k - a = (k - (a + 1)) + 1 by omega]; rfl
      · rw [if_neg hr, if_neg (by omega)]

/-- A part that lists no entry of an address reads as the rest. -/
theorem Mem.get_skip (m n : List Host.Cell) (a : Nat) (h : ∀ c ∈ m, c.1 ≠ a) : Mem.get (m ++ n) a = Mem.get n a := by
  rw [Mem.get_append, if_neg]
  simp only [Bool.not_eq_true, List.any_eq_false, decide_eq_true_eq]; exact h

/-- A part that is followed by none of an address reads as itself. -/
theorem Mem.get_keep (m n : List Host.Cell) (a : Nat) (h : ∀ c ∈ n, c.1 ≠ a) : Mem.get (m ++ n) a = Mem.get m a := by
  induction m with
  | nil =>
    simp only [List.nil_append, Mem.get]
    induction n with
    | nil => rfl
    | cons c n ih =>
      obtain ⟨k, b⟩ := c
      simp only [Mem.get]; rw [if_neg (h (k, b) (by simp)), ih (fun c hc => h c (by simp [hc]))]
  | cons c m ih => obtain ⟨k, b⟩ := c; simp only [List.cons_append, Mem.get, ih]

/-- The bytes of a range moved to another. -/
theorem Mem.get_moved (m : List Host.Cell) (src dst len k : Nat) :
    Mem.get ((m.filter fun c => decide (src ≤ c.1) && decide (c.1 < src + len)).map fun c => (c.1 - src + dst, c.2)) k =
      if dst ≤ k ∧ k < dst + len then Mem.get m (k - dst + src) else Mem.default := by
  induction m with
  | nil => simp [Mem.get]
  | cons c m ih =>
    obtain ⟨a, b⟩ := c
    by_cases ha : src ≤ a ∧ a < src + len
    · rw [List.filter_cons_of_pos (by simpa using ha), List.map_cons]
      simp only [Mem.get, ih]
      by_cases hk : a - src + dst = k
      · rw [if_pos hk, if_pos (by omega), if_pos (by omega)]
      · rw [if_neg hk]
        by_cases hr : dst ≤ k ∧ k < dst + len
        · rw [if_pos hr, if_pos hr, if_neg (by omega)]
        · rw [if_neg hr, if_neg hr]
    · rw [List.filter_cons_of_neg (by simpa using ha), ih]
      by_cases hr : dst ≤ k ∧ k < dst + len
      · rw [if_pos hr, if_pos hr]; simp only [Mem.get]; rw [if_neg (by omega)]
      · rw [if_neg hr, if_neg hr]

/-- Every byte after a copy: the source's in the destination's range, and every other byte as it was. -/
theorem Mem.get_copy (m : List Host.Cell) (src dst len k : Nat) :
    Mem.get (Mem.copy m src dst len) k = if dst ≤ k ∧ k < dst + len then Mem.get m (k - dst + src) else Mem.get m k := by
  unfold Mem.copy
  have hlow : ∀ c ∈ m.filter (fun c => decide (c.1 < dst)), c.1 < dst := by
    intro c hc; simpa using (List.mem_filter.1 hc).2
  have hhigh : ∀ c ∈ m.filter (fun c => decide (dst + len ≤ c.1)), dst + len ≤ c.1 := by
    intro c hc; simpa using (List.mem_filter.1 hc).2
  have hmid : ∀ c ∈ (m.filter fun c => decide (src ≤ c.1) && decide (c.1 < src + len)).map
      (fun c => (c.1 - src + dst, c.2)), dst ≤ c.1 ∧ c.1 < dst + len := by
    intro c hc
    obtain ⟨d, hd, rfl⟩ := List.mem_map.1 hc
    simp only [List.mem_filter, Bool.and_eq_true, decide_eq_true_eq] at hd
    simp only; omega
  by_cases h1 : k < dst
  · rw [Mem.get_keep _ _ _ (fun c hc => by have := hhigh c hc; omega),
      Mem.get_keep _ _ _ (fun c hc => by have := hmid c hc; omega), Mem.get_filter m (fun x => decide (x < dst)),
      if_pos (by simpa using h1), if_neg (by omega)]
  · by_cases h2 : k < dst + len
    · rw [Mem.get_keep _ _ _ (fun c hc => by have := hhigh c hc; omega),
        Mem.get_skip _ _ _ (fun c hc => by have := hlow c hc; omega), Mem.get_moved]
      have hin : dst ≤ k ∧ k < dst + len := by omega
      rw [if_pos hin, if_pos hin]
    · rw [List.append_assoc, Mem.get_skip _ _ _ (fun c hc => by have := hlow c hc; omega),
        Mem.get_skip _ _ _ (fun c hc => by have := hmid c hc; omega), Mem.get_filter m (fun x => decide (dst + len ≤ x)),
        if_pos (by simp only [decide_eq_true_eq]; omega), if_neg (by omega)]

theorem Mem.cells_range (bs : List Byte) (a : Nat) : ∀ c ∈ Mem.cells a bs, a ≤ c.1 ∧ c.1 < a + bs.length := by
  induction bs generalizing a with
  | nil => simp [Mem.cells]
  | cons b bs ih =>
    intro c hc
    simp only [Mem.cells] at hc
    split at hc
    · have := ih _ c hc; simp only [List.length_cons]; omega
    · rcases List.mem_cons.1 hc with rfl | hc
      · simp
      · have := ih _ c hc; simp only [List.length_cons]; omega

/-- Every byte after a write: the bytes written in their range, and every other byte as it was. -/
theorem Mem.get_write (m : List Host.Cell) (a : Nat) (bs : List Byte) (k : Nat) :
    Mem.get (Mem.write m a bs) k = if a ≤ k ∧ k < a + bs.length then bs.getD (k - a) 0 else Mem.get m k := by
  unfold Mem.write
  have hlow : ∀ c ∈ m.filter (fun c => decide (c.1 < a)), c.1 < a := by
    intro c hc; simpa using (List.mem_filter.1 hc).2
  have hhigh : ∀ c ∈ m.filter (fun c => decide (a + bs.length ≤ c.1)), a + bs.length ≤ c.1 := by
    intro c hc; simpa using (List.mem_filter.1 hc).2
  by_cases h1 : k < a
  · rw [Mem.get_keep _ _ _ (fun c hc => by have := hhigh c hc; omega),
      Mem.get_keep _ _ _ (fun c hc => by have := Mem.cells_range bs a c hc; omega),
      Mem.get_filter m (fun x => decide (x < a)), if_pos (by simpa using h1), if_neg (by omega)]
  · by_cases h2 : k < a + bs.length
    · have hin : a ≤ k ∧ k < a + bs.length := by omega
      rw [Mem.get_keep _ _ _ (fun c hc => by have := hhigh c hc; omega),
        Mem.get_skip _ _ _ (fun c hc => by have := hlow c hc; omega), Mem.get_cells, if_pos hin, if_pos hin]
    · rw [List.append_assoc, Mem.get_skip _ _ _ (fun c hc => by have := hlow c hc; omega),
        Mem.get_skip _ _ _ (fun c hc => by have := Mem.cells_range bs a c hc; omega),
        Mem.get_filter m (fun x => decide (a + bs.length ≤ x)),
        if_pos (by simp only [decide_eq_true_eq]; omega), if_neg (by omega)]

/-- A write of one byte. -/
theorem Mem.get_write_one (m : List Host.Cell) (a : Nat) (b : Byte) (k : Nat) :
    Mem.get (Mem.write m a [b]) k = if k = a then b else Mem.get m k := by
  rw [Mem.get_write]
  by_cases h : k = a
  · subst h; simp
  · simp only [h, if_false, List.length_singleton]; rw [if_neg (by omega)]

theorem Mem.bytes_length (m : List Host.Cell) (a n : Nat) : (Mem.bytes m a n).length = n := by
  induction n generalizing a with
  | zero => rfl
  | succ n ih => simp [Mem.bytes, ih]

theorem Mem.bytes_getD (m : List Host.Cell) (a n i : Nat) (h : i < n) : (Mem.bytes m a n).getD i 0 = Mem.get m (a + i) := by
  induction n generalizing a i with
  | zero => omega
  | succ n ih =>
    cases i with
    | zero => simp [Mem.bytes]
    | succ i => simp only [Mem.bytes, List.getD_cons_succ]; rw [ih _ _ (by omega)]; congr 1; omega

/-- A range that a write covers reads as what was written. -/
theorem Mem.bytes_write (m : List Host.Cell) (a : Nat) (bs : List Byte) : Mem.bytes (Mem.write m a bs) a bs.length = bs := by
  apply List.ext_getElem (Mem.bytes_length _ _ _)
  intro i h1 h2
  have e := Mem.bytes_getD (Mem.write m a bs) a bs.length i h2
  rw [Mem.get_write, if_pos (by omega), show a + i - a = i by omega] at e
  simpa [List.getD_eq_getElem, h1, h2] using e

/-- Two memories that read alike from an address on hold the same bytes there. -/
theorem Mem.bytes_congr {m n : List Host.Cell} {a len : Nat} (h : ∀ k, a ≤ k → k < a + len → Mem.get m k = Mem.get n k) :
    Mem.bytes m a len = Mem.bytes n a len := by
  induction len generalizing a with
  | zero => rfl
  | succ len ih => simp only [Mem.bytes]; rw [h a (by omega) (by omega), ih (fun k h1 h2 => h k (by omega) (by omega))]

/-! ## The canonical form -/

theorem Memory.wf_cons (a : Nat) (b : Byte) (rest : List Host.Cell) :
    Memory.wf ((a, b) :: rest) = true ↔ b ≠ Mem.default ∧ (∀ c ∈ rest, a < c.1) ∧ Memory.wf rest = true := by
  simp [Memory.wf, and_assoc]

/-- The canonical form: rising addresses, and no byte at the default. -/
theorem Memory.wf_iff (m : List Host.Cell) :
    Memory.wf m = true ↔ m.Pairwise (fun c d => c.1 < d.1) ∧ ∀ c ∈ m, c.2 ≠ Mem.default := by
  induction m with
  | nil => simp [Memory.wf]
  | cons c rest ih =>
    obtain ⟨a, b⟩ := c
    rw [Memory.wf_cons, ih, List.pairwise_cons]
    constructor
    · rintro ⟨h1, h2, h3, h4⟩; exact ⟨⟨h2, h3⟩, by simpa using ⟨h1, fun x y hy => h4 (x, y) hy⟩⟩
    · rintro ⟨⟨h2, h3⟩, h⟩; exact ⟨h (a, b) (by simp), h2, h3, fun c hc => h c (by simp [hc])⟩

theorem Mem.wf_cells (a : Nat) (bs : List Byte) : Memory.wf (Mem.cells a bs) = true := by
  induction bs generalizing a with
  | nil => rfl
  | cons b bs ih =>
    simp only [Mem.cells]
    split
    · exact ih _
    · rename_i hb
      exact (Memory.wf_cons _ _ _).2 ⟨hb, fun c hc => by have := Mem.cells_range bs (a + 1) c hc; omega, ih _⟩

/-- Parts one above the other. -/
theorem Memory.wf_append {m n : List Host.Cell} (hm : Memory.wf m = true) (hn : Memory.wf n = true)
    (h : ∀ c ∈ m, ∀ d ∈ n, c.1 < d.1) : Memory.wf (m ++ n) = true := by
  rw [Memory.wf_iff] at *
  refine ⟨List.pairwise_append.2 ⟨hm.1, hn.1, h⟩, ?_⟩
  intro c hc
  rcases List.mem_append.1 hc with hc | hc
  · exact hm.2 c hc
  · exact hn.2 c hc

/-- A removal keeps the form. -/
theorem Memory.wf_filter {m : List Host.Cell} (h : Memory.wf m = true) (p : Host.Cell → Bool) :
    Memory.wf (m.filter p) = true := by
  rw [Memory.wf_iff] at *
  exact ⟨h.1.filter p, fun c hc => h.2 c (List.mem_filter.1 hc).1⟩

/-- A write keeps the form. -/
theorem Memory.wf_write {m : List Host.Cell} (h : Memory.wf m = true) (a : Nat) (bs : List Byte) :
    Memory.wf (Mem.write m a bs) = true := by
  unfold Mem.write
  refine Memory.wf_append (Memory.wf_append (Memory.wf_filter h _) (Mem.wf_cells a bs) ?_) (Memory.wf_filter h _) ?_
  · intro c hc d hd
    have := Mem.cells_range bs a d hd
    simp only [List.mem_filter, decide_eq_true_eq] at hc; omega
  · intro c hc d hd
    simp only [List.mem_filter, decide_eq_true_eq, List.mem_append] at hc hd
    rcases hc with hc | hc
    · omega
    · have := Mem.cells_range bs a c hc; omega

/-- A copy keeps the form. -/
theorem Memory.wf_copy {m : List Host.Cell} (h : Memory.wf m = true) (src dst len : Nat) :
    Memory.wf (Mem.copy m src dst len) = true := by
  unfold Mem.copy
  have hmid : Memory.wf ((m.filter fun c => decide (src ≤ c.1) && decide (c.1 < src + len)).map
      fun c => (c.1 - src + dst, c.2)) = true := by
    rw [Memory.wf_iff] at *
    constructor
    · refine List.pairwise_map.2 (List.Pairwise.imp_of_mem ?_ (h.1.filter _))
      intro c d hc hd hcd
      simp only [List.mem_filter, Bool.and_eq_true, decide_eq_true_eq] at hc hd
      simp only; omega
    · intro c hc
      obtain ⟨d, hd, rfl⟩ := List.mem_map.1 hc
      exact h.2 d (List.mem_filter.1 hd).1
  have hin : ∀ c ∈ (m.filter fun c => decide (src ≤ c.1) && decide (c.1 < src + len)).map
      (fun c => (c.1 - src + dst, c.2)), dst ≤ c.1 ∧ c.1 < dst + len := by
    intro c hc
    obtain ⟨d, hd, rfl⟩ := List.mem_map.1 hc
    simp only [List.mem_filter, Bool.and_eq_true, decide_eq_true_eq] at hd
    simp only; omega
  refine Memory.wf_append (Memory.wf_append (Memory.wf_filter h _) hmid ?_) (Memory.wf_filter h _) ?_
  · intro c hc d hd
    have := hin d hd
    simp only [List.mem_filter, decide_eq_true_eq] at hc; omega
  · intro c hc d hd
    simp only [List.mem_filter, decide_eq_true_eq, List.mem_append] at hc hd
    rcases hc with hc | hc
    · omega
    · have := hin c hc; omega

theorem Memory.wf_reset : Memory.wf State.reset.chip.mem = true := rfl

end Sys2Proof.Machine
end

