-- ==== Sys2Proof/Laws/Coherence.lean ====
section
/-! SUPPORT. What the operations of the consistency model and of memory can change, once for each: releases and acquires,
reads and writes of words, full/empty bits, poison; and that memory keeps its form. -/

namespace Sys2Proof.Machine

/-- A draw takes a number at most. -/
theorem Chip.draw_frame (c : Chip) (n : Nat) : ∃ draws, (c.draw n).2 = { c with draws := draws } := by
  unfold Chip.draw
  split
  · exact ⟨_, rfl⟩
  · exact ⟨_, rfl⟩

/-- A release enters the list of releases at some place, changes its agent's record, and takes a number. -/
theorem Chip.releaseOpen_frame (c : Chip) (a : AgentId) (p : Place) (sc : BitVec 3) :
    (c.releaseOpen a p sc).1 = c.clock ∧ ∃ agents rels draws, (c.releaseOpen a p sc).2 =
      { c with agents := agents, rels := rels, clock := c.clock + 1, draws := draws } := by
  unfold Chip.releaseOpen
  simp only
  obtain ⟨d, h⟩ := Chip.draw_frame c (c.rels.length - (c.agents.map Agent.pos).foldl max (c.placeOf (c.agent a)) + 1)
  rw [h]
  exact ⟨trivial, _, _, d, rfl⟩

/-- A release's completion is noted. -/
theorem Chip.complete_frame (c : Chip) (a : AgentId) (n : Nat) :
    ∃ sysRels reached, c.complete a n = { c with sysRels := sysRels, reached := reached } := ⟨_, _, rfl⟩

/-- A release with none of its agent's writes on the way. -/
theorem Chip.release_frame (c : Chip) (a : AgentId) (p : Place) (sc : BitVec 3) :
    (c.release a p sc).1 = c.clock ∧ ∃ agents rels sysRels reached draws, (c.release a p sc).2 =
      { c with
        agents := agents, rels := rels, sysRels := sysRels, reached := reached, clock := c.clock + 1, draws := draws } := by
  obtain ⟨h1, ag, rl, dr, h2⟩ := Chip.releaseOpen_frame c a p sc
  unfold Chip.release
  simp only
  rw [h2]
  refine ⟨h1, ?_⟩
  by_cases h : sc = 5
  · simp only [h, if_true]; exact ⟨_, _, _, _, _, rfl⟩
  · simp only [h, if_false]; exact ⟨_, _, _, _, _, rfl⟩

/-- A release by the acting thread also notes itself in the accesses that wait. -/
theorem Chip.releaseT_frame (c : Chip) (sc : BitVec 3) : ∃ agents rels sysRels reached draws, (c.releaseT sc).2 =
    { c with
      agents := agents, rels := rels, sysRels := sysRels, reached := reached, clock := c.clock + 1, draws := draws
      t := { c.t with pend := c.t.pend.map fun p => if p.access.isSome then { p with rels := c.clock :: p.rels } else p } } := by
  obtain ⟨h1, ag, rl, dr, h2⟩ := Chip.releaseOpen_frame c c.t.agentId (.thread c.tid) sc
  unfold Chip.releaseT
  simp only
  rw [h1, h2]
  split <;> exact ⟨_, _, _, _, _, rfl⟩

/-- An acquire changes its agent's record, and takes a number. -/
theorem Chip.acquire_frame (c : Chip) (a : AgentId) (p : Place) (sc : BitVec 3) (l : List Nat) :
    ∃ agents draws, c.acquire a p sc l = { c with agents := agents, clock := c.clock + 1, draws := draws } := by
  have h : ∀ (c : Chip) (lo : Nat), ∃ draws, (c.acquirePlace lo).2 = { c with draws := draws } := by
    intro c lo
    unfold Chip.acquirePlace
    split
    · exact ⟨_, rfl⟩
    · simp only
      obtain ⟨d, h⟩ := Chip.draw_frame c _
      exact ⟨d, h⟩
  unfold Chip.acquire
  simp only
  obtain ⟨d, hd⟩ := h { c with clock := c.clock + 1 } _
  rw [hd]
  exact ⟨_, d, rfl⟩

/-- An acquire by the acting thread also drops its hoard lines, and notes itself in the accesses that wait. -/
theorem Chip.acquireT_frame (c : Chip) (sc : BitVec 3) (l : List Nat) : ∃ agents draws, c.acquireT sc l =
    { c with
      agents := agents, clock := c.clock + 1, draws := draws
      hoard := c.hoard.filter (fun h => decide (h.owner ≠ c.tid)), asked := c.asked.filter (fun h => decide (h.1 ≠ c.tid))
      t := { c.t with pend := c.t.pend.map fun p => if p.access.isSome then { p with acqs := sc :: p.acqs } else p } } := by
  obtain ⟨ag, d, h⟩ := Chip.acquire_frame (c.dropHoard c.tid) c.t.agentId (.thread c.tid) sc l
  unfold Chip.acquireT
  simp only
  rw [h]
  exact ⟨ag, d, rfl⟩

/-- A write event changes the word's history and its author's record. -/
theorem Chip.noteEvent_frame (c : Chip) (n : Nat) (a : AgentId) (own : Bool) (x y : Option Nat) (loc : Nat)
    (old new : Word) : ∃ hist agents, c.noteEvent n a own x y loc old new = { c with hist := hist, agents := agents } := by
  unfold Chip.noteEvent
  cases own
  · exact ⟨_, _, rfl⟩
  · exact ⟨_, _, rfl⟩

/-- A write event of one word takes a number besides. -/
theorem Chip.noteWrite_frame (c : Chip) (a : AgentId) (own : Bool) (x y : Option Nat) (loc : Nat) (old new : Word) :
    ∃ hist agents, c.noteWrite a own x y loc old new = { c with hist := hist, agents := agents, clock := c.clock + 1 } :=
  Chip.noteEvent_frame { c with clock := c.clock + 1 } c.clock a own x y loc old new

/-- A read changes its agent's record. -/
theorem Chip.noteRead_frame (c : Chip) (a : AgentId) (loc : Nat) (v : Version) :
    ∃ agents, c.noteRead a loc v = { c with agents := agents } := ⟨_, rfl⟩

/-- Choosing a version draws at most. -/
theorem Chip.readFrom_frame (c : Chip) (floor loc key : Nat) :
    ∃ draws, (c.readFrom floor loc key).2.2 = { c with draws := draws } := by
  unfold Chip.readFrom
  split
  · exact ⟨_, rfl⟩
  · split
    · exact ⟨_, rfl⟩
    · rename_i h _ _
      obtain ⟨d, hd⟩ := Chip.draw_frame c (h.versions.filter fun v => decide (floor ≤ v.id)).length
      simp only
      rw [hd]
      split
      · exact ⟨d, rfl⟩
      · exact ⟨d, rfl⟩

/-- A plain load of a word draws and changes its agent's record at most. -/
theorem Chip.readWord_frame (c : Chip) (a : AgentId) (loc key : Nat) :
    ∃ agents draws, (c.readWord a loc key).2 = { c with agents := agents, draws := draws } := by
  unfold Chip.readWord
  obtain ⟨d, hd⟩ := Chip.readFrom_frame c (c.floorOf (c.agent a) loc) loc key
  generalize hq : c.readFrom _ loc key = q
  rw [hq] at hd
  obtain ⟨w, v, c1⟩ := q
  simp only at hd
  subst hd
  cases v
  · exact ⟨_, _, rfl⟩
  · exact ⟨_, _, rfl⟩

/-- Without a history a word reads as memory holds it, and nothing changes. -/
theorem Chip.readWord_fresh (c : Chip) (a : AgentId) (loc key : Nat) (h : historyGet c.hist loc = none) :
    c.readWord a loc key = (Mem.word c.mem key, c) := by
  simp [Chip.readWord, Chip.readFrom, h]

/-- An indivisible read gives the word in memory, and changes its agent's record at most. -/
theorem Chip.readLatest_frame (c : Chip) (a : AgentId) (loc key : Nat) :
    (c.readLatest a loc key).1 = Mem.word c.mem key ∧ ∃ agents, (c.readLatest a loc key).2 = { c with agents := agents } := by
  unfold Chip.readLatest
  split
  · exact ⟨rfl, _, rfl⟩
  · exact ⟨rfl, _, rfl⟩

/-- A plain load of a doubleword draws and changes its agent's record at most. -/
theorem Chip.readPair_frame (c : Chip) (a : AgentId) (loc key : Nat) :
    ∃ agents draws, (c.readPair a loc key).2 = { c with agents := agents, draws := draws } := by
  have apart : ∃ agents draws, ((c.readWord a loc key).2.readWord a (loc + 4) (key + 4)).2 =
      { c with agents := agents, draws := draws } := by
    obtain ⟨_, _, h1⟩ := Chip.readWord_frame c a loc key
    obtain ⟨ag, dr, h2⟩ := Chip.readWord_frame (c.readWord a loc key).2 a (loc + 4) (key + 4)
    exact ⟨ag, dr, by rw [h2, h1]⟩
  unfold Chip.readPair
  simp only
  split
  · split
    · split
      · obtain ⟨d, h1⟩ := Chip.draw_frame c _
        rw [h1]
        exact ⟨_, _, rfl⟩
      · obtain ⟨d, h1⟩ := Chip.draw_frame c _
        rw [h1]
        exact ⟨_, _, rfl⟩
    · exact apart
  · exact apart

/-- A plain load of bytes draws and changes its agent's record at most. -/
theorem Chip.readBytes_frame (c : Chip) (a : AgentId) (s : Spot) (n : Nat) :
    ∃ agents draws, (c.readBytes a s n).2 = { c with agents := agents, draws := draws } := by
  unfold Chip.readBytes
  split
  · exact Chip.readPair_frame c a s.loc s.key
  suffices h : ∀ (l : List Nat) (bs : List Byte) (c : Chip), ∃ agents draws, (l.foldl
      (fun (acc : List Byte × Chip) w =>
        let (v, c) := acc.2.readWord a w (s.key - s.loc % 4 + (w - s.loc / 4 * 4))
        (acc.1 ++ bytesOfWord v, c)) (bs, c)).2 = { c with agents := agents, draws := draws } from h _ [] c
  intro l
  induction l with
  | nil => intro bs c; exact ⟨_, _, rfl⟩
  | cons w l ih =>
    intro bs c
    obtain ⟨ag, dr, h1⟩ := Chip.readWord_frame c a w (s.key - s.loc % 4 + (w - s.loc / 4 * 4))
    obtain ⟨ag', dr', h2⟩ := ih (bs ++ bytesOfWord (c.readWord a w (s.key - s.loc % 4 + (w - s.loc / 4 * 4))).1)
      (c.readWord a w (s.key - s.loc % 4 + (w - s.loc / 4 * 4))).2
    refine ⟨ag', dr', ?_⟩
    rw [List.foldl_cons]
    simp only at h2 ⊢
    rw [h2, h1]

/-- An indivisible read of bytes gives what memory holds, and changes its agent's record at most. -/
theorem Chip.readBytesLatest_frame (c : Chip) (a : AgentId) (s : Spot) (n : Nat) :
    (c.readBytesLatest a s n).1 = Mem.bytes c.mem s.key n ∧
      ∃ agents, (c.readBytesLatest a s n).2 = { c with agents := agents } := by
  have h : ∀ (l : List Nat) (c : Chip), ∃ agents, l.foldl
      (fun (c : Chip) w => (c.readLatest a w (s.key - s.loc % 4 + (w - s.loc / 4 * 4))).2) c = { c with agents := agents } := by
    intro l
    induction l with
    | nil => intro c; exact ⟨_, rfl⟩
    | cons w l ih =>
      intro c
      obtain ⟨_, ag, h1⟩ := Chip.readLatest_frame c a w (s.key - s.loc % 4 + (w - s.loc / 4 * 4))
      obtain ⟨ag', h2⟩ := ih (c.readLatest a w (s.key - s.loc % 4 + (w - s.loc / 4 * 4))).2
      exact ⟨ag', by rw [List.foldl_cons, h2, h1]⟩
  obtain ⟨ag, h1⟩ := h (wordsTouched s.loc n) c
  unfold Chip.readBytesLatest
  simp only
  rw [h1]
  exact ⟨rfl, ag, rfl⟩

/-- An access to a page changes the idle starts at most. -/
theorem Chip.touch_frame (c : Chip) (loc : Nat) : ∃ idle, c.touch loc = { c with idle := idle } := by
  unfold Chip.touch
  split
  · exact ⟨_, rfl⟩
  · exact ⟨_, rfl⟩

/-- TSTATE written: one byte of memory, and bookkeeping. -/
theorem Chip.writeTstate_frame (c : Chip) (loc key : Nat) (v : Byte) :
    ∃ hist agents rels sysRels reached clock draws locks, c.writeTstate loc key v =
      { c with
        mem := Mem.write c.mem (key + 18) [v], hist := hist, agents := agents, rels := rels, sysRels := sysRels
        reached := reached, clock := clock, draws := draws, locks := locks } := by
  unfold Chip.writeTstate
  simp only
  generalize hq : Chip.noteWrite _ _ _ _ _ _ _ _ = q
  obtain ⟨hist, ag, h1⟩ := Chip.noteWrite_frame { c with mem := Mem.write c.mem (key + 18) [v], locks := breakLocks c.locks none (loc + 18) 1 }
    (AgentId.launchUnit (BitVec.ofNat 3 (loc / 2 ^ 48))) true none none (loc + 16) (Mem.word c.mem (key + 16))
    (Mem.word (Mem.write c.mem (key + 18) [v]) (key + 16))
  rw [hq] at h1
  subst h1
  obtain ⟨_, ag', rl, sr, re, dr, h2⟩ := Chip.release_frame
    { c with
      mem := Mem.write c.mem (key + 18) [v], locks := breakLocks c.locks none (loc + 18) 1, hist := hist, agents := ag
      clock := c.clock + 1 }
    (AgentId.launchUnit (BitVec.ofNat 3 (loc / 2 ^ 48))) (.unit (BitVec.ofNat 3 (loc / 2 ^ 48))) 5
  rw [h2]
  exact ⟨_, _, _, _, _, _, _, _, rfl⟩

/-- The end of a page's copies: at most one byte of memory, TSTATE, which changes only where a clean tier copy ends. -/
theorem Chip.dirty_frame (c : Chip) (loc key : Nat) :
    ∃ mem hist agents rels sysRels reached clock draws locks, c.dirty loc key =
      { c with
        mem := mem, hist := hist, agents := agents, rels := rels, sysRels := sysRels, reached := reached, clock := clock
        draws := draws, locks := locks
        tcopies := tableErase c.tcopies (pageOf loc), flash := tableErase c.flash (pageOf loc) } ∧
      (mem = c.mem ∨ ∃ v, mem = Mem.write c.mem (key - loc % 2 ^ 21 + 18) [v]) ∧
      (tableGet c.tcopies (pageOf loc) = none → mem = c.mem) := by
  unfold Chip.dirty
  simp only
  by_cases h : (tableGet c.tcopies (pageOf loc)).isSome = true
  · rw [if_pos h]
    obtain ⟨hist, ag, rl, sr, re, ck, dr, lk, h1⟩ := Chip.writeTstate_frame
      { c with tcopies := tableErase c.tcopies (pageOf loc), flash := tableErase c.flash (pageOf loc) }
      (loc / 2 ^ 21 * 2 ^ 21) (key - loc % 2 ^ 21) (Mem.get c.mem (key - loc % 2 ^ 21 + 18) &&& 0xFB)
    exact ⟨_, hist, ag, rl, sr, re, ck, dr, lk, h1, Or.inr ⟨_, rfl⟩, fun hn => by rw [hn] at h; cases h⟩
  · rw [if_neg h]
    exact ⟨_, _, _, _, _, _, _, _, _, rfl, Or.inl rfl, fun _ => rfl⟩

/-- Bytes written change the kept images of frames at most. -/
theorem Chip.followFrames_frame (c : Chip) (a : AgentId) (loc : Nat) (bs : List Byte) :
    ∃ images, c.followFrames a loc bs = { c with images := images } := by
  unfold Chip.followFrames
  split
  · exact ⟨_, rfl⟩
  · exact ⟨_, rfl⟩

/-- Bytes written under a number: memory at the spot, and beyond it at most TSTATE of a page with a clean tier copy; the rest is
bookkeeping. -/
theorem Chip.writeAs_frame (c : Chip) (n : Nat) (a : AgentId) (h : Option TId) (own : Bool) (x y : Option Nat) (s : Spot)
    (bs : List Byte) :
    ∃ mem hist agents rels sysRels reached clock draws locks tcopies flash idle images, c.writeAs n a h own x y s bs =
      { c with
        mem := mem, hist := hist, agents := agents, rels := rels, sysRels := sysRels, reached := reached, clock := clock
        draws := draws, locks := locks, tcopies := tcopies, flash := flash, idle := idle
        images := images } ∧
      (mem = Mem.write c.mem s.key bs ∨
        ∃ v, mem = Mem.write (Mem.write c.mem s.key bs) (s.key - s.loc % 2 ^ 21 + 18) [v]) ∧
      (tableGet c.tcopies (pageOf s.loc) = none → mem = Mem.write c.mem s.key bs) := by
  have hf : ∀ (l : List Nat) (c0 : Chip) (before : List Host.Cell), ∃ hist agents, l.foldl
      (fun (c : Chip) w =>
        let k := s.key - s.loc % 4 + (w - s.loc / 4 * 4)
        c.noteEvent n a own x y w (Mem.word before k) (Mem.word c.mem k)) c0 =
      { c0 with hist := hist, agents := agents } := by
    intro l
    induction l with
    | nil => intro c0 _; exact ⟨_, _, rfl⟩
    | cons w l ih =>
      intro c0 before
      obtain ⟨hi, ag, h1⟩ := Chip.noteEvent_frame c0 n a own x y w (Mem.word before (s.key - s.loc % 4 + (w - s.loc / 4 * 4)))
        (Mem.word c0.mem (s.key - s.loc % 4 + (w - s.loc / 4 * 4)))
      rw [List.foldl_cons]
      simp only
      rw [h1]
      obtain ⟨hi', ag', h2⟩ := ih { c0 with hist := hi, agents := ag } before
      exact ⟨hi', ag', h2⟩
  unfold Chip.writeAs
  simp only
  obtain ⟨hi, ag, h1⟩ := hf (wordsTouched s.loc bs.length)
    { c with mem := Mem.write c.mem s.key bs, locks := breakLocks c.locks h s.loc bs.length } c.mem
  simp only at h1
  rw [h1]
  obtain ⟨m, hi', ag', rl, sr, re, ck', dr, lk, h2, h3, h4⟩ := Chip.dirty_frame
    { c with
      mem := Mem.write c.mem s.key bs, locks := breakLocks c.locks h s.loc bs.length, hist := hi, agents := ag }
    s.loc s.key
  rw [h2]
  obtain ⟨id, h5⟩ := Chip.touch_frame
    { c with
      mem := m, hist := hi', agents := ag', rels := rl, sysRels := sr, reached := re, clock := ck', draws := dr, locks := lk
      tcopies := tableErase c.tcopies (pageOf s.loc), flash := tableErase c.flash (pageOf s.loc) } s.loc
  rw [h5]
  obtain ⟨im, h6⟩ := Chip.followFrames_frame
    { c with
      mem := m, hist := hi', agents := ag', rels := rl, sysRels := sr, reached := re, clock := ck', draws := dr, locks := lk
      tcopies := tableErase c.tcopies (pageOf s.loc), flash := tableErase c.flash (pageOf s.loc), idle := id } a s.loc bs
  exact ⟨m, hi', ag', rl, sr, re, ck', dr, lk, _, _, id, im, h6, h3, h4⟩

/-- Bytes written as one indivisible step. -/
theorem Chip.writeBytes_frame (c : Chip) (a : AgentId) (h : Option TId) (own : Bool) (x y : Option Nat) (s : Spot)
    (bs : List Byte) :
    ∃ mem hist agents rels sysRels reached clock draws locks tcopies flash idle images, c.writeBytes a h own x y s bs =
      { c with
        mem := mem, hist := hist, agents := agents, rels := rels, sysRels := sysRels, reached := reached, clock := clock
        draws := draws, locks := locks, tcopies := tcopies, flash := flash, idle := idle
        images := images } ∧
      (mem = Mem.write c.mem s.key bs ∨
        ∃ v, mem = Mem.write (Mem.write c.mem s.key bs) (s.key - s.loc % 2 ^ 21 + 18) [v]) ∧
      (tableGet c.tcopies (pageOf s.loc) = none → mem = Mem.write c.mem s.key bs) :=
  Chip.writeAs_frame { c with clock := c.clock + 1 } c.clock a h own x y s bs

/-- Where the page has no clean tier copy, memory after a write of bytes is what was written and else as before. -/
theorem Chip.writeBytes_get (c : Chip) (a : AgentId) (h : Option TId) (own : Bool) (x y : Option Nat) (s : Spot)
    (bs : List Byte) (hn : tableGet c.tcopies (pageOf s.loc) = none) (k : Nat) :
    Mem.get (c.writeBytes a h own x y s bs).mem k =
      if s.key ≤ k ∧ k < s.key + bs.length then bs.getD (k - s.key) 0 else Mem.get c.mem k := by
  obtain ⟨m, _, _, _, _, _, _, _, _, _, _, _, _, e, _, h2⟩ := Chip.writeBytes_frame c a h own x y s bs
  rw [e]; simp only; rw [h2 hn, Mem.get_write]

/-- Memory keeps its form under a write of bytes. -/
theorem Chip.writeBytes_wf (c : Chip) (a : AgentId) (h : Option TId) (own : Bool) (x y : Option Nat) (s : Spot)
    (bs : List Byte) (hw : Memory.wf c.mem = true) : Memory.wf (c.writeBytes a h own x y s bs).mem = true := by
  obtain ⟨m, _, _, _, _, _, _, _, _, _, _, _, _, e, h1, _⟩ := Chip.writeBytes_frame c a h own x y s bs
  rw [e]; simp only
  rcases h1 with rfl | ⟨v, rfl⟩
  · exact Memory.wf_write hw _ _
  · exact Memory.wf_write (Memory.wf_write hw _ _) _ _

/-- A word made full or empty changes its bit, breaks locks, and ends the page's copies; at most TSTATE of its page changes in
memory. -/
theorem Chip.setFull_frame (c : Chip) (h : Option TId) (loc key : Nat) (full : Bool) :
    ∃ mem empties hist agents rels sysRels reached clock draws locks tcopies flash, c.setFull h loc key full =
      { c with
        mem := mem, empties := empties, hist := hist, agents := agents, rels := rels, sysRels := sysRels, reached := reached
        clock := clock, draws := draws, locks := locks, tcopies := tcopies, flash := flash } ∧
      (mem = c.mem ∨ ∃ v, mem = Mem.write c.mem (key - loc % 2 ^ 21 + 18) [v]) ∧
      (tableGet c.tcopies (pageOf loc) = none → mem = c.mem) := by
  unfold Chip.setFull
  split
  · exact ⟨_, _, _, _, _, _, _, _, _, _, _, _, rfl, Or.inl rfl, fun _ => rfl⟩
  · obtain ⟨m, hi, ag, rl, sr, re, ck, dr, lk, h1, h2, h3⟩ := Chip.dirty_frame
      { c with
        empties := if full then keyErase c.empties key else keyInsert c.empties key
        locks := breakLocks c.locks h loc 4 } loc key
    exact ⟨m, _, hi, ag, rl, sr, re, ck, dr, lk, _, _, h1, h2, h3⟩

/-- Memory keeps its form where a word is made full or empty. -/
theorem Chip.setFull_wf (c : Chip) (h : Option TId) (loc key : Nat) (full : Bool) (hw : Memory.wf c.mem = true) :
    Memory.wf (c.setFull h loc key full).mem = true := by
  obtain ⟨m, _, _, _, _, _, _, _, _, _, _, _, e, h1, _⟩ := Chip.setFull_frame c h loc key full
  rw [e]; simp only
  rcases h1 with rfl | ⟨v, rfl⟩
  · exact hw
  · exact Memory.wf_write hw _ _

theorem contains_keyInsert (l : List Nat) (k q : Nat) : (keyInsert l k).contains q = (decide (q = k) || l.contains q) := by
  induction l with
  | nil => simp [keyInsert, eq_comm]
  | cons a l ih =>
    simp only [keyInsert]
    by_cases h1 : k < a
    · simp [h1, eq_comm]
    · by_cases h2 : k = a
      · subst h2; by_cases hq : q = k <;> simp [hq]
      · simp only [h1, h2, if_false, List.contains_cons, ih]
        by_cases hq : q = k <;> by_cases ha : q = a <;> simp [hq, ha]

/-- The end of a page's copies leaves every full/empty bit. -/
theorem Chip.dirty_empties (c : Chip) (loc key : Nat) : (c.dirty loc key).empties = c.empties := by
  obtain ⟨_, _, _, _, _, _, _, _, _, e, _, _⟩ := Chip.dirty_frame c loc key
  rw [e]

/-- The bit of the word that was set, and every other word's. -/
theorem Chip.isFull_setFull (c : Chip) (h : Option TId) (loc key : Nat) (full : Bool) (k : Nat) :
    (c.setFull h loc key full).isFull k = if k = key then full else c.isFull k := by
  unfold Chip.setFull
  by_cases hf : c.isFull key = full
  · rw [if_pos hf]
    by_cases hk : k = key
    · rw [if_pos hk, hk, hf]
    · rw [if_neg hk]
  · rw [if_neg hf]
    unfold Chip.isFull at *
    rw [Chip.dirty_empties]
    cases full
    · simp only [Bool.false_eq_true, if_false, contains_keyInsert]
      by_cases hk : k = key <;> simp [hk]
    · simp only [if_true]
      by_cases hk : k = key
      · subst hk; simp [keyErase]
      · simp [hk, keyErase, List.mem_filter]

/-- A store changes poison at most. -/
theorem Chip.storeClears_frame (c : Chip) (key n : Nat) : ∃ poison, c.storeClears key n = { c with poison := poison } := by
  unfold Chip.storeClears
  split
  · exact ⟨_, rfl⟩
  · split
    · exact ⟨_, rfl⟩
    · split <;> exact ⟨_, rfl⟩

/-- Write events noted for a range change histories and, where they are the agent's own, its record. -/
theorem Chip.noteRange_frame (c : Chip) (a : AgentId) (own : Bool) (x : Option Nat) (before : List Host.Cell) (loc key len : Nat) :
    ∃ hist agents, c.noteRange a own x before loc key len = { c with hist := hist, agents := agents, clock := c.clock + 1 } := by
  suffices H : ∀ (l : List Nat) (c0 : Chip), ∃ hist agents, l.foldl (fun (c' : Chip) o =>
      c'.noteEvent c.clock a own x none (loc + o) (Mem.word before (key + o)) (Mem.word c'.mem (key + o))) c0 =
      { c0 with hist := hist, agents := agents } by
    obtain ⟨hi, ag, h⟩ := H _ { c with clock := c.clock + 1 }
    exact ⟨hi, ag, h⟩
  intro l
  induction l with
  | nil => exact fun c0 => ⟨_, _, rfl⟩
  | cons o l ih =>
    intro c0
    obtain ⟨h1, a1, e1⟩ := Chip.noteEvent_frame c0 c.clock a own x none (loc + o) (Mem.word before (key + o)) (Mem.word c0.mem (key + o))
    obtain ⟨h2, a2, e2⟩ := ih (c0.noteEvent c.clock a own x none (loc + o) (Mem.word before (key + o)) (Mem.word c0.mem (key + o)))
    exact ⟨h2, a2, by rw [List.foldl_cons, e2, e1]⟩

end Sys2Proof.Machine
end

