-- ==== Sys2Proof/Laws/Decode.lean ====
section
/-! SUPPORT. The fields of a packed word read back, the class of each layout, and the bytes of a word decoded. -/

namespace Sys2Proof.Laws
open BitVec

/-- Bit 0 of a word whose low two bits are odd. -/
theorem long_of_low2 {w : Word} (h : (w.extractLsb' 0 2).getLsbD 0 = true) : w.getLsbD 0 = true := by
  simpa using h

/-- A word's four bytes put together again. -/
theorem bytes_word (w : Word) :
    w.extractLsb' 24 8 ++ w.extractLsb' 16 8 ++ w.extractLsb' 8 8 ++ w.extractLsb' 0 8 = w := by
  apply BitVec.eq_of_getLsbD_eq
  intro i hi
  simp only [BitVec.getLsbD_append, BitVec.getLsbD_extractLsb']
  rcases Nat.lt_or_ge i 8 with h | h
  · simp [h]
  · rcases Nat.lt_or_ge i 16 with h2 | h2
    · simp [Nat.not_lt.mpr h, show i - 8 < 8 by omega, show 8 + (i - 8) = i by omega]
    · rcases Nat.lt_or_ge i 24 with h3 | h3
      · simp [Nat.not_lt.mpr h, show ¬ i - 8 < 8 by omega, show i - 8 - 8 < 8 by omega,
          show 16 + (i - 8 - 8) = i by omega]
      · simp [Nat.not_lt.mpr h, show ¬ i - 8 < 8 by omega, show ¬ i - 8 - 8 < 8 by omega,
          show i - 8 - 8 - 8 < 8 by omega, show 24 + (i - 8 - 8 - 8) = i by omega]

/-- A halfword's two bytes put together again. -/
theorem bytes_half (h : Half) : h.extractLsb' 8 8 ++ h.extractLsb' 0 8 = h := by
  apply BitVec.eq_of_getLsbD_eq
  intro i hi
  simp only [BitVec.getLsbD_append, BitVec.getLsbD_extractLsb']
  rcases Nat.lt_or_ge i 8 with h' | h'
  · simp [h']
  · simp [Nat.not_lt.mpr h', show i - 8 < 8 by omega, show 8 + (i - 8) = i by omega]

/-- The bytes of a 32-bit instruction word decode as the word does (R25). -/
theorem decode_long (w : Word) (rest : List Byte) (h : w.getLsbD 0 = true) (i : Instr) (hd : decode32 w = .ok i) :
    decode ([w.extractLsb' 0 8, w.extractLsb' 8 8, w.extractLsb' 16 8, w.extractLsb' 24 8] ++ rest) = .ok (i, rest) := by
  have l : isLong (w.extractLsb' 8 8 ++ w.extractLsb' 0 8) = true := by
    rw [isLong, BitVec.getLsbD_append]
    simpa using h
  simp only [decode, List.cons_append, List.nil_append, bytes_word, l, hd, if_true]

/-- The bytes of a 16-bit instruction decode as the halfword does (R25). -/
theorem decode_short (h : Half) (rest : List Byte) (hl : h.getLsbD 0 = false) (i : Instr) (hd : decode16 h = .ok i) :
    decode ([h.extractLsb' 0 8, h.extractLsb' 8 8] ++ rest) = .ok (i, rest) := by
  simp only [decode, List.cons_append, List.nil_append, bytes_half, isLong, hl, hd, Bool.false_eq_true, if_false]

@[simp] theorem aFx_packA (fx : BitVec 2) (fn : BitVec 4) (mk : BitVec 3) (rb : BitVec 5) (ra : BitVec 5) (rd : BitVec 5) (maj : BitVec 4) :
    aFx (packA fx fn mk rb ra rd maj) = fx :=
  (extractLsb'_append_eq_of_le (xlo := 1#4) (by decide)).trans <| (extractLsb'_append_eq_of_le (xlo := maj) (by decide)).trans <| (extractLsb'_append_eq_of_le (xlo := rd) (by decide)).trans <| (extractLsb'_append_eq_of_le (xlo := ra) (by decide)).trans <| (extractLsb'_append_eq_of_le (xlo := rb) (by decide)).trans <| (extractLsb'_append_eq_of_le (xlo := mk) (by decide)).trans <| (extractLsb'_append_eq_of_le (xlo := fn) (by decide)).trans <| extractLsb'_eq_self

@[simp] theorem aFn_packA (fx : BitVec 2) (fn : BitVec 4) (mk : BitVec 3) (rb : BitVec 5) (ra : BitVec 5) (rd : BitVec 5) (maj : BitVec 4) :
    aFn (packA fx fn mk rb ra rd maj) = fn :=
  (extractLsb'_append_eq_of_le (xlo := 1#4) (by decide)).trans <| (extractLsb'_append_eq_of_le (xlo := maj) (by decide)).trans <| (extractLsb'_append_eq_of_le (xlo := rd) (by decide)).trans <| (extractLsb'_append_eq_of_le (xlo := ra) (by decide)).trans <| (extractLsb'_append_eq_of_le (xlo := rb) (by decide)).trans <| (extractLsb'_append_eq_of_le (xlo := mk) (by decide)).trans <| extractLsb'_append_eq_right

@[simp] theorem aMk_packA (fx : BitVec 2) (fn : BitVec 4) (mk : BitVec 3) (rb : BitVec 5) (ra : BitVec 5) (rd : BitVec 5) (maj : BitVec 4) :
    aMk (packA fx fn mk rb ra rd maj) = mk :=
  (extractLsb'_append_eq_of_le (xlo := 1#4) (by decide)).trans <| (extractLsb'_append_eq_of_le (xlo := maj) (by decide)).trans <| (extractLsb'_append_eq_of_le (xlo := rd) (by decide)).trans <| (extractLsb'_append_eq_of_le (xlo := ra) (by decide)).trans <| (extractLsb'_append_eq_of_le (xlo := rb) (by decide)).trans <| extractLsb'_append_eq_right

@[simp] theorem gRb_packA (fx : BitVec 2) (fn : BitVec 4) (mk : BitVec 3) (rb : BitVec 5) (ra : BitVec 5) (rd : BitVec 5) (maj : BitVec 4) :
    gRb (packA fx fn mk rb ra rd maj) = rb :=
  (extractLsb'_append_eq_of_le (xlo := 1#4) (by decide)).trans <| (extractLsb'_append_eq_of_le (xlo := maj) (by decide)).trans <| (extractLsb'_append_eq_of_le (xlo := rd) (by decide)).trans <| (extractLsb'_append_eq_of_le (xlo := ra) (by decide)).trans <| extractLsb'_append_eq_right

@[simp] theorem gRa_packA (fx : BitVec 2) (fn : BitVec 4) (mk : BitVec 3) (rb : BitVec 5) (ra : BitVec 5) (rd : BitVec 5) (maj : BitVec 4) :
    gRa (packA fx fn mk rb ra rd maj) = ra :=
  (extractLsb'_append_eq_of_le (xlo := 1#4) (by decide)).trans <| (extractLsb'_append_eq_of_le (xlo := maj) (by decide)).trans <| (extractLsb'_append_eq_of_le (xlo := rd) (by decide)).trans <| extractLsb'_append_eq_right

@[simp] theorem gRd_packA (fx : BitVec 2) (fn : BitVec 4) (mk : BitVec 3) (rb : BitVec 5) (ra : BitVec 5) (rd : BitVec 5) (maj : BitVec 4) :
    gRd (packA fx fn mk rb ra rd maj) = rd :=
  (extractLsb'_append_eq_of_le (xlo := 1#4) (by decide)).trans <| (extractLsb'_append_eq_of_le (xlo := maj) (by decide)).trans <| extractLsb'_append_eq_right

@[simp] theorem gMaj_packA (fx : BitVec 2) (fn : BitVec 4) (mk : BitVec 3) (rb : BitVec 5) (ra : BitVec 5) (rd : BitVec 5) (maj : BitVec 4) :
    gMaj (packA fx fn mk rb ra rd maj) = maj :=
  (extractLsb'_append_eq_of_le (xlo := 1#4) (by decide)).trans <| extractLsb'_append_eq_right

theorem low2_packA (fx : BitVec 2) (fn : BitVec 4) (mk : BitVec 3) (rb : BitVec 5) (ra : BitVec 5) (rd : BitVec 5) (maj : BitVec 4) :
    (packA fx fn mk rb ra rd maj).extractLsb' 0 2 = 1#2 :=
  (extractLsb'_append_eq_of_add_le (xlo := 1#4) (by decide)).trans (by decide)

theorem low3_packA (fx : BitVec 2) (fn : BitVec 4) (mk : BitVec 3) (rb : BitVec 5) (ra : BitVec 5) (rd : BitVec 5) (maj : BitVec 4) :
    (packA fx fn mk rb ra rd maj).extractLsb' 0 3 = 1#3 :=
  (extractLsb'_append_eq_of_add_le (xlo := 1#4) (by decide)).trans (by decide)

theorem low4_packA (fx : BitVec 2) (fn : BitVec 4) (mk : BitVec 3) (rb : BitVec 5) (ra : BitVec 5) (rd : BitVec 5) (maj : BitVec 4) :
    (packA fx fn mk rb ra rd maj).extractLsb' 0 4 = 1#4 :=
  extractLsb'_append_eq_right

/-- A word of the layout is of class G (R26). -/
theorem fields32_packA (fx : BitVec 2) (fn : BitVec 4) (mk : BitVec 3) (rb : BitVec 5) (ra : BitVec 5) (rd : BitVec 5) (maj : BitVec 4) :
    decodeFields32 (packA fx fn mk rb ra rd maj) = decodeG (packA fx fn mk rb ra rd maj) := by
  simp [decodeFields32, low2_packA, low3_packA, low4_packA]

theorem long_packA (fx : BitVec 2) (fn : BitVec 4) (mk : BitVec 3) (rb : BitVec 5) (ra : BitVec 5) (rd : BitVec 5) (maj : BitVec 4) : (packA fx fn mk rb ra rd maj).getLsbD 0 = true :=
  long_of_low2 (by rw [low2_packA]; decide)

@[simp] theorem gRa_packI (imm : BitVec 12) (fn : BitVec 2) (ra : BitVec 5) (rd : BitVec 5) (maj : BitVec 4) :
    gRa (packI imm fn ra rd maj) = ra :=
  (extractLsb'_append_eq_of_le (xlo := 1#4) (by decide)).trans <| (extractLsb'_append_eq_of_le (xlo := maj) (by decide)).trans <| (extractLsb'_append_eq_of_le (xlo := rd) (by decide)).trans <| extractLsb'_append_eq_right

@[simp] theorem gRd_packI (imm : BitVec 12) (fn : BitVec 2) (ra : BitVec 5) (rd : BitVec 5) (maj : BitVec 4) :
    gRd (packI imm fn ra rd maj) = rd :=
  (extractLsb'_append_eq_of_le (xlo := 1#4) (by decide)).trans <| (extractLsb'_append_eq_of_le (xlo := maj) (by decide)).trans <| extractLsb'_append_eq_right

@[simp] theorem gMaj_packI (imm : BitVec 12) (fn : BitVec 2) (ra : BitVec 5) (rd : BitVec 5) (maj : BitVec 4) :
    gMaj (packI imm fn ra rd maj) = maj :=
  (extractLsb'_append_eq_of_le (xlo := 1#4) (by decide)).trans <| extractLsb'_append_eq_right

@[simp] theorem iImm_packI (imm : BitVec 12) (fn : BitVec 2) (ra : BitVec 5) (rd : BitVec 5) (maj : BitVec 4) :
    iImm (packI imm fn ra rd maj) = imm :=
  (extractLsb'_append_eq_of_le (xlo := 1#4) (by decide)).trans <| (extractLsb'_append_eq_of_le (xlo := maj) (by decide)).trans <| (extractLsb'_append_eq_of_le (xlo := rd) (by decide)).trans <| (extractLsb'_append_eq_of_le (xlo := ra) (by decide)).trans <| (extractLsb'_append_eq_of_le (xlo := fn) (by decide)).trans <| extractLsb'_eq_self

@[simp] theorem iFn_packI (imm : BitVec 12) (fn : BitVec 2) (ra : BitVec 5) (rd : BitVec 5) (maj : BitVec 4) :
    iFn (packI imm fn ra rd maj) = fn :=
  (extractLsb'_append_eq_of_le (xlo := 1#4) (by decide)).trans <| (extractLsb'_append_eq_of_le (xlo := maj) (by decide)).trans <| (extractLsb'_append_eq_of_le (xlo := rd) (by decide)).trans <| (extractLsb'_append_eq_of_le (xlo := ra) (by decide)).trans <| extractLsb'_append_eq_right

@[simp] theorem gAcc_packI (imm : BitVec 12) (fn : BitVec 2) (ra : BitVec 5) (rd : BitVec 5) (maj : BitVec 4) :
    gAcc (packI imm fn ra rd maj) = fn :=
  (extractLsb'_append_eq_of_le (xlo := 1#4) (by decide)).trans <| (extractLsb'_append_eq_of_le (xlo := maj) (by decide)).trans <| (extractLsb'_append_eq_of_le (xlo := rd) (by decide)).trans <| (extractLsb'_append_eq_of_le (xlo := ra) (by decide)).trans <| extractLsb'_append_eq_right

theorem low2_packI (imm : BitVec 12) (fn : BitVec 2) (ra : BitVec 5) (rd : BitVec 5) (maj : BitVec 4) :
    (packI imm fn ra rd maj).extractLsb' 0 2 = 1#2 :=
  (extractLsb'_append_eq_of_add_le (xlo := 1#4) (by decide)).trans (by decide)

theorem low3_packI (imm : BitVec 12) (fn : BitVec 2) (ra : BitVec 5) (rd : BitVec 5) (maj : BitVec 4) :
    (packI imm fn ra rd maj).extractLsb' 0 3 = 1#3 :=
  (extractLsb'_append_eq_of_add_le (xlo := 1#4) (by decide)).trans (by decide)

theorem low4_packI (imm : BitVec 12) (fn : BitVec 2) (ra : BitVec 5) (rd : BitVec 5) (maj : BitVec 4) :
    (packI imm fn ra rd maj).extractLsb' 0 4 = 1#4 :=
  extractLsb'_append_eq_right

/-- A word of the layout is of class G (R26). -/
theorem fields32_packI (imm : BitVec 12) (fn : BitVec 2) (ra : BitVec 5) (rd : BitVec 5) (maj : BitVec 4) :
    decodeFields32 (packI imm fn ra rd maj) = decodeG (packI imm fn ra rd maj) := by
  simp [decodeFields32, low2_packI, low3_packI, low4_packI]

theorem long_packI (imm : BitVec 12) (fn : BitVec 2) (ra : BitVec 5) (rd : BitVec 5) (maj : BitVec 4) : (packI imm fn ra rd maj).getLsbD 0 = true :=
  long_of_low2 (by rw [low2_packI]; decide)

@[simp] theorem gRd_packL (imm : BitVec 17) (fn : BitVec 2) (rd : BitVec 5) (maj : BitVec 4) :
    gRd (packL imm fn rd maj) = rd :=
  (extractLsb'_append_eq_of_le (xlo := 1#4) (by decide)).trans <| (extractLsb'_append_eq_of_le (xlo := maj) (by decide)).trans <| extractLsb'_append_eq_right

@[simp] theorem gMaj_packL (imm : BitVec 17) (fn : BitVec 2) (rd : BitVec 5) (maj : BitVec 4) :
    gMaj (packL imm fn rd maj) = maj :=
  (extractLsb'_append_eq_of_le (xlo := 1#4) (by decide)).trans <| extractLsb'_append_eq_right

@[simp] theorem lImm_packL (imm : BitVec 17) (fn : BitVec 2) (rd : BitVec 5) (maj : BitVec 4) :
    lImm (packL imm fn rd maj) = imm :=
  (extractLsb'_append_eq_of_le (xlo := 1#4) (by decide)).trans <| (extractLsb'_append_eq_of_le (xlo := maj) (by decide)).trans <| (extractLsb'_append_eq_of_le (xlo := rd) (by decide)).trans <| (extractLsb'_append_eq_of_le (xlo := fn) (by decide)).trans <| extractLsb'_eq_self

@[simp] theorem lFn_packL (imm : BitVec 17) (fn : BitVec 2) (rd : BitVec 5) (maj : BitVec 4) :
    lFn (packL imm fn rd maj) = fn :=
  (extractLsb'_append_eq_of_le (xlo := 1#4) (by decide)).trans <| (extractLsb'_append_eq_of_le (xlo := maj) (by decide)).trans <| (extractLsb'_append_eq_of_le (xlo := rd) (by decide)).trans <| extractLsb'_append_eq_right

@[simp] theorem bOff_packL (imm : BitVec 17) (fn : BitVec 2) (rd : BitVec 5) (maj : BitVec 4) :
    bOff (packL imm fn rd maj) = imm :=
  (extractLsb'_append_eq_of_le (xlo := 1#4) (by decide)).trans <| (extractLsb'_append_eq_of_le (xlo := maj) (by decide)).trans <| (extractLsb'_append_eq_of_le (xlo := rd) (by decide)).trans <| (extractLsb'_append_eq_of_le (xlo := fn) (by decide)).trans <| extractLsb'_eq_self

theorem low2_packL (imm : BitVec 17) (fn : BitVec 2) (rd : BitVec 5) (maj : BitVec 4) :
    (packL imm fn rd maj).extractLsb' 0 2 = 1#2 :=
  (extractLsb'_append_eq_of_add_le (xlo := 1#4) (by decide)).trans (by decide)

theorem low3_packL (imm : BitVec 17) (fn : BitVec 2) (rd : BitVec 5) (maj : BitVec 4) :
    (packL imm fn rd maj).extractLsb' 0 3 = 1#3 :=
  (extractLsb'_append_eq_of_add_le (xlo := 1#4) (by decide)).trans (by decide)

theorem low4_packL (imm : BitVec 17) (fn : BitVec 2) (rd : BitVec 5) (maj : BitVec 4) :
    (packL imm fn rd maj).extractLsb' 0 4 = 1#4 :=
  extractLsb'_append_eq_right

/-- A word of the layout is of class G (R26). -/
theorem fields32_packL (imm : BitVec 17) (fn : BitVec 2) (rd : BitVec 5) (maj : BitVec 4) :
    decodeFields32 (packL imm fn rd maj) = decodeG (packL imm fn rd maj) := by
  simp [decodeFields32, low2_packL, low3_packL, low4_packL]

theorem long_packL (imm : BitVec 17) (fn : BitVec 2) (rd : BitVec 5) (maj : BitVec 4) : (packL imm fn rd maj).getLsbD 0 = true :=
  long_of_low2 (by rw [low2_packL]; decide)

@[simp] theorem gRa_packV (la : BitVec 4) (off : BitVec 5) (fn : BitVec 2) (mk : BitVec 3) (xb : BitVec 5) (vd : BitVec 5) (maj : BitVec 4) :
    gRa (packV la off fn mk xb vd maj) = xb :=
  (extractLsb'_append_eq_of_le (xlo := 1#4) (by decide)).trans <| (extractLsb'_append_eq_of_le (xlo := maj) (by decide)).trans <| (extractLsb'_append_eq_of_le (xlo := vd) (by decide)).trans <| extractLsb'_append_eq_right

@[simp] theorem gRd_packV (la : BitVec 4) (off : BitVec 5) (fn : BitVec 2) (mk : BitVec 3) (xb : BitVec 5) (vd : BitVec 5) (maj : BitVec 4) :
    gRd (packV la off fn mk xb vd maj) = vd :=
  (extractLsb'_append_eq_of_le (xlo := 1#4) (by decide)).trans <| (extractLsb'_append_eq_of_le (xlo := maj) (by decide)).trans <| extractLsb'_append_eq_right

@[simp] theorem gMaj_packV (la : BitVec 4) (off : BitVec 5) (fn : BitVec 2) (mk : BitVec 3) (xb : BitVec 5) (vd : BitVec 5) (maj : BitVec 4) :
    gMaj (packV la off fn mk xb vd maj) = maj :=
  (extractLsb'_append_eq_of_le (xlo := 1#4) (by decide)).trans <| extractLsb'_append_eq_right

@[simp] theorem fLa_packV (la : BitVec 4) (off : BitVec 5) (fn : BitVec 2) (mk : BitVec 3) (xb : BitVec 5) (vd : BitVec 5) (maj : BitVec 4) :
    fLa (packV la off fn mk xb vd maj) = la :=
  (extractLsb'_append_eq_of_le (xlo := 1#4) (by decide)).trans <| (extractLsb'_append_eq_of_le (xlo := maj) (by decide)).trans <| (extractLsb'_append_eq_of_le (xlo := vd) (by decide)).trans <| (extractLsb'_append_eq_of_le (xlo := xb) (by decide)).trans <| (extractLsb'_append_eq_of_le (xlo := mk) (by decide)).trans <| (extractLsb'_append_eq_of_le (xlo := fn) (by decide)).trans <| (extractLsb'_append_eq_of_le (xlo := off) (by decide)).trans <| extractLsb'_eq_self

@[simp] theorem vOff_packV (la : BitVec 4) (off : BitVec 5) (fn : BitVec 2) (mk : BitVec 3) (xb : BitVec 5) (vd : BitVec 5) (maj : BitVec 4) :
    vOff (packV la off fn mk xb vd maj) = off :=
  (extractLsb'_append_eq_of_le (xlo := 1#4) (by decide)).trans <| (extractLsb'_append_eq_of_le (xlo := maj) (by decide)).trans <| (extractLsb'_append_eq_of_le (xlo := vd) (by decide)).trans <| (extractLsb'_append_eq_of_le (xlo := xb) (by decide)).trans <| (extractLsb'_append_eq_of_le (xlo := mk) (by decide)).trans <| (extractLsb'_append_eq_of_le (xlo := fn) (by decide)).trans <| extractLsb'_append_eq_right

@[simp] theorem vFn_packV (la : BitVec 4) (off : BitVec 5) (fn : BitVec 2) (mk : BitVec 3) (xb : BitVec 5) (vd : BitVec 5) (maj : BitVec 4) :
    vFn (packV la off fn mk xb vd maj) = fn :=
  (extractLsb'_append_eq_of_le (xlo := 1#4) (by decide)).trans <| (extractLsb'_append_eq_of_le (xlo := maj) (by decide)).trans <| (extractLsb'_append_eq_of_le (xlo := vd) (by decide)).trans <| (extractLsb'_append_eq_of_le (xlo := xb) (by decide)).trans <| (extractLsb'_append_eq_of_le (xlo := mk) (by decide)).trans <| extractLsb'_append_eq_right

@[simp] theorem vMk_packV (la : BitVec 4) (off : BitVec 5) (fn : BitVec 2) (mk : BitVec 3) (xb : BitVec 5) (vd : BitVec 5) (maj : BitVec 4) :
    vMk (packV la off fn mk xb vd maj) = mk :=
  (extractLsb'_append_eq_of_le (xlo := 1#4) (by decide)).trans <| (extractLsb'_append_eq_of_le (xlo := maj) (by decide)).trans <| (extractLsb'_append_eq_of_le (xlo := vd) (by decide)).trans <| (extractLsb'_append_eq_of_le (xlo := xb) (by decide)).trans <| extractLsb'_append_eq_right

@[simp] theorem eFn_packV (la : BitVec 4) (off : BitVec 5) (fn : BitVec 2) (mk : BitVec 3) (xb : BitVec 5) (vd : BitVec 5) (maj : BitVec 4) :
    eFn (packV la off fn mk xb vd maj) = off :=
  (extractLsb'_append_eq_of_le (xlo := 1#4) (by decide)).trans <| (extractLsb'_append_eq_of_le (xlo := maj) (by decide)).trans <| (extractLsb'_append_eq_of_le (xlo := vd) (by decide)).trans <| (extractLsb'_append_eq_of_le (xlo := xb) (by decide)).trans <| (extractLsb'_append_eq_of_le (xlo := mk) (by decide)).trans <| (extractLsb'_append_eq_of_le (xlo := fn) (by decide)).trans <| extractLsb'_append_eq_right

@[simp] theorem sFn_packV (la : BitVec 4) (off : BitVec 5) (fn : BitVec 2) (mk : BitVec 3) (xb : BitVec 5) (vd : BitVec 5) (maj : BitVec 4) :
    sFn (packV la off fn mk xb vd maj) = la :=
  (extractLsb'_append_eq_of_le (xlo := 1#4) (by decide)).trans <| (extractLsb'_append_eq_of_le (xlo := maj) (by decide)).trans <| (extractLsb'_append_eq_of_le (xlo := vd) (by decide)).trans <| (extractLsb'_append_eq_of_le (xlo := xb) (by decide)).trans <| (extractLsb'_append_eq_of_le (xlo := mk) (by decide)).trans <| (extractLsb'_append_eq_of_le (xlo := fn) (by decide)).trans <| (extractLsb'_append_eq_of_le (xlo := off) (by decide)).trans <| extractLsb'_eq_self

theorem low2_packV (la : BitVec 4) (off : BitVec 5) (fn : BitVec 2) (mk : BitVec 3) (xb : BitVec 5) (vd : BitVec 5) (maj : BitVec 4) :
    (packV la off fn mk xb vd maj).extractLsb' 0 2 = 1#2 :=
  (extractLsb'_append_eq_of_add_le (xlo := 1#4) (by decide)).trans (by decide)

theorem low3_packV (la : BitVec 4) (off : BitVec 5) (fn : BitVec 2) (mk : BitVec 3) (xb : BitVec 5) (vd : BitVec 5) (maj : BitVec 4) :
    (packV la off fn mk xb vd maj).extractLsb' 0 3 = 1#3 :=
  (extractLsb'_append_eq_of_add_le (xlo := 1#4) (by decide)).trans (by decide)

theorem low4_packV (la : BitVec 4) (off : BitVec 5) (fn : BitVec 2) (mk : BitVec 3) (xb : BitVec 5) (vd : BitVec 5) (maj : BitVec 4) :
    (packV la off fn mk xb vd maj).extractLsb' 0 4 = 1#4 :=
  extractLsb'_append_eq_right

/-- A word of the layout is of class G (R26). -/
theorem fields32_packV (la : BitVec 4) (off : BitVec 5) (fn : BitVec 2) (mk : BitVec 3) (xb : BitVec 5) (vd : BitVec 5) (maj : BitVec 4) :
    decodeFields32 (packV la off fn mk xb vd maj) = decodeG (packV la off fn mk xb vd maj) := by
  simp [decodeFields32, low2_packV, low3_packV, low4_packV]

theorem long_packV (la : BitVec 4) (off : BitVec 5) (fn : BitVec 2) (mk : BitVec 3) (xb : BitVec 5) (vd : BitVec 5) (maj : BitVec 4) : (packV la off fn mk xb vd maj).getLsbD 0 = true :=
  long_of_low2 (by rw [low2_packV]; decide)

@[simp] theorem gRb_packE (la : BitVec 4) (fn : BitVec 5) (rb : BitVec 5) (ra : BitVec 5) (rd : BitVec 5) (maj : BitVec 4) :
    gRb (packE la fn rb ra rd maj) = rb :=
  (extractLsb'_append_eq_of_le (xlo := 1#4) (by decide)).trans <| (extractLsb'_append_eq_of_le (xlo := maj) (by decide)).trans <| (extractLsb'_append_eq_of_le (xlo := rd) (by decide)).trans <| (extractLsb'_append_eq_of_le (xlo := ra) (by decide)).trans <| extractLsb'_append_eq_right

@[simp] theorem gRa_packE (la : BitVec 4) (fn : BitVec 5) (rb : BitVec 5) (ra : BitVec 5) (rd : BitVec 5) (maj : BitVec 4) :
    gRa (packE la fn rb ra rd maj) = ra :=
  (extractLsb'_append_eq_of_le (xlo := 1#4) (by decide)).trans <| (extractLsb'_append_eq_of_le (xlo := maj) (by decide)).trans <| (extractLsb'_append_eq_of_le (xlo := rd) (by decide)).trans <| extractLsb'_append_eq_right

@[simp] theorem gRd_packE (la : BitVec 4) (fn : BitVec 5) (rb : BitVec 5) (ra : BitVec 5) (rd : BitVec 5) (maj : BitVec 4) :
    gRd (packE la fn rb ra rd maj) = rd :=
  (extractLsb'_append_eq_of_le (xlo := 1#4) (by decide)).trans <| (extractLsb'_append_eq_of_le (xlo := maj) (by decide)).trans <| extractLsb'_append_eq_right

@[simp] theorem gMaj_packE (la : BitVec 4) (fn : BitVec 5) (rb : BitVec 5) (ra : BitVec 5) (rd : BitVec 5) (maj : BitVec 4) :
    gMaj (packE la fn rb ra rd maj) = maj :=
  (extractLsb'_append_eq_of_le (xlo := 1#4) (by decide)).trans <| extractLsb'_append_eq_right

@[simp] theorem fLa_packE (la : BitVec 4) (fn : BitVec 5) (rb : BitVec 5) (ra : BitVec 5) (rd : BitVec 5) (maj : BitVec 4) :
    fLa (packE la fn rb ra rd maj) = la :=
  (extractLsb'_append_eq_of_le (xlo := 1#4) (by decide)).trans <| (extractLsb'_append_eq_of_le (xlo := maj) (by decide)).trans <| (extractLsb'_append_eq_of_le (xlo := rd) (by decide)).trans <| (extractLsb'_append_eq_of_le (xlo := ra) (by decide)).trans <| (extractLsb'_append_eq_of_le (xlo := rb) (by decide)).trans <| (extractLsb'_append_eq_of_le (xlo := fn) (by decide)).trans <| extractLsb'_eq_self

@[simp] theorem vOff_packE (la : BitVec 4) (fn : BitVec 5) (rb : BitVec 5) (ra : BitVec 5) (rd : BitVec 5) (maj : BitVec 4) :
    vOff (packE la fn rb ra rd maj) = fn :=
  (extractLsb'_append_eq_of_le (xlo := 1#4) (by decide)).trans <| (extractLsb'_append_eq_of_le (xlo := maj) (by decide)).trans <| (extractLsb'_append_eq_of_le (xlo := rd) (by decide)).trans <| (extractLsb'_append_eq_of_le (xlo := ra) (by decide)).trans <| (extractLsb'_append_eq_of_le (xlo := rb) (by decide)).trans <| extractLsb'_append_eq_right

@[simp] theorem eFn_packE (la : BitVec 4) (fn : BitVec 5) (rb : BitVec 5) (ra : BitVec 5) (rd : BitVec 5) (maj : BitVec 4) :
    eFn (packE la fn rb ra rd maj) = fn :=
  (extractLsb'_append_eq_of_le (xlo := 1#4) (by decide)).trans <| (extractLsb'_append_eq_of_le (xlo := maj) (by decide)).trans <| (extractLsb'_append_eq_of_le (xlo := rd) (by decide)).trans <| (extractLsb'_append_eq_of_le (xlo := ra) (by decide)).trans <| (extractLsb'_append_eq_of_le (xlo := rb) (by decide)).trans <| extractLsb'_append_eq_right

@[simp] theorem sFn_packE (la : BitVec 4) (fn : BitVec 5) (rb : BitVec 5) (ra : BitVec 5) (rd : BitVec 5) (maj : BitVec 4) :
    sFn (packE la fn rb ra rd maj) = la :=
  (extractLsb'_append_eq_of_le (xlo := 1#4) (by decide)).trans <| (extractLsb'_append_eq_of_le (xlo := maj) (by decide)).trans <| (extractLsb'_append_eq_of_le (xlo := rd) (by decide)).trans <| (extractLsb'_append_eq_of_le (xlo := ra) (by decide)).trans <| (extractLsb'_append_eq_of_le (xlo := rb) (by decide)).trans <| (extractLsb'_append_eq_of_le (xlo := fn) (by decide)).trans <| extractLsb'_eq_self

theorem low2_packE (la : BitVec 4) (fn : BitVec 5) (rb : BitVec 5) (ra : BitVec 5) (rd : BitVec 5) (maj : BitVec 4) :
    (packE la fn rb ra rd maj).extractLsb' 0 2 = 1#2 :=
  (extractLsb'_append_eq_of_add_le (xlo := 1#4) (by decide)).trans (by decide)

theorem low3_packE (la : BitVec 4) (fn : BitVec 5) (rb : BitVec 5) (ra : BitVec 5) (rd : BitVec 5) (maj : BitVec 4) :
    (packE la fn rb ra rd maj).extractLsb' 0 3 = 1#3 :=
  (extractLsb'_append_eq_of_add_le (xlo := 1#4) (by decide)).trans (by decide)

theorem low4_packE (la : BitVec 4) (fn : BitVec 5) (rb : BitVec 5) (ra : BitVec 5) (rd : BitVec 5) (maj : BitVec 4) :
    (packE la fn rb ra rd maj).extractLsb' 0 4 = 1#4 :=
  extractLsb'_append_eq_right

/-- A word of the layout is of class G (R26). -/
theorem fields32_packE (la : BitVec 4) (fn : BitVec 5) (rb : BitVec 5) (ra : BitVec 5) (rd : BitVec 5) (maj : BitVec 4) :
    decodeFields32 (packE la fn rb ra rd maj) = decodeG (packE la fn rb ra rd maj) := by
  simp [decodeFields32, low2_packE, low3_packE, low4_packE]

theorem long_packE (la : BitVec 4) (fn : BitVec 5) (rb : BitVec 5) (ra : BitVec 5) (rd : BitVec 5) (maj : BitVec 4) : (packE la fn rb ra rd maj).getLsbD 0 = true :=
  long_of_low2 (by rw [low2_packE]; decide)

@[simp] theorem gRa_packT (la : BitVec 4) (fn : BitVec 5) (res : BitVec 3) (acc : BitVec 2) (ra : BitVec 5) (rd : BitVec 5) (maj : BitVec 4) :
    gRa (packT la fn res acc ra rd maj) = ra :=
  (extractLsb'_append_eq_of_le (xlo := 1#4) (by decide)).trans <| (extractLsb'_append_eq_of_le (xlo := maj) (by decide)).trans <| (extractLsb'_append_eq_of_le (xlo := rd) (by decide)).trans <| extractLsb'_append_eq_right

@[simp] theorem gRd_packT (la : BitVec 4) (fn : BitVec 5) (res : BitVec 3) (acc : BitVec 2) (ra : BitVec 5) (rd : BitVec 5) (maj : BitVec 4) :
    gRd (packT la fn res acc ra rd maj) = rd :=
  (extractLsb'_append_eq_of_le (xlo := 1#4) (by decide)).trans <| (extractLsb'_append_eq_of_le (xlo := maj) (by decide)).trans <| extractLsb'_append_eq_right

@[simp] theorem gMaj_packT (la : BitVec 4) (fn : BitVec 5) (res : BitVec 3) (acc : BitVec 2) (ra : BitVec 5) (rd : BitVec 5) (maj : BitVec 4) :
    gMaj (packT la fn res acc ra rd maj) = maj :=
  (extractLsb'_append_eq_of_le (xlo := 1#4) (by decide)).trans <| extractLsb'_append_eq_right

@[simp] theorem iFn_packT (la : BitVec 4) (fn : BitVec 5) (res : BitVec 3) (acc : BitVec 2) (ra : BitVec 5) (rd : BitVec 5) (maj : BitVec 4) :
    iFn (packT la fn res acc ra rd maj) = acc :=
  (extractLsb'_append_eq_of_le (xlo := 1#4) (by decide)).trans <| (extractLsb'_append_eq_of_le (xlo := maj) (by decide)).trans <| (extractLsb'_append_eq_of_le (xlo := rd) (by decide)).trans <| (extractLsb'_append_eq_of_le (xlo := ra) (by decide)).trans <| extractLsb'_append_eq_right

@[simp] theorem fLa_packT (la : BitVec 4) (fn : BitVec 5) (res : BitVec 3) (acc : BitVec 2) (ra : BitVec 5) (rd : BitVec 5) (maj : BitVec 4) :
    fLa (packT la fn res acc ra rd maj) = la :=
  (extractLsb'_append_eq_of_le (xlo := 1#4) (by decide)).trans <| (extractLsb'_append_eq_of_le (xlo := maj) (by decide)).trans <| (extractLsb'_append_eq_of_le (xlo := rd) (by decide)).trans <| (extractLsb'_append_eq_of_le (xlo := ra) (by decide)).trans <| (extractLsb'_append_eq_of_le (xlo := acc) (by decide)).trans <| (extractLsb'_append_eq_of_le (xlo := res) (by decide)).trans <| (extractLsb'_append_eq_of_le (xlo := fn) (by decide)).trans <| extractLsb'_eq_self

@[simp] theorem vOff_packT (la : BitVec 4) (fn : BitVec 5) (res : BitVec 3) (acc : BitVec 2) (ra : BitVec 5) (rd : BitVec 5) (maj : BitVec 4) :
    vOff (packT la fn res acc ra rd maj) = fn :=
  (extractLsb'_append_eq_of_le (xlo := 1#4) (by decide)).trans <| (extractLsb'_append_eq_of_le (xlo := maj) (by decide)).trans <| (extractLsb'_append_eq_of_le (xlo := rd) (by decide)).trans <| (extractLsb'_append_eq_of_le (xlo := ra) (by decide)).trans <| (extractLsb'_append_eq_of_le (xlo := acc) (by decide)).trans <| (extractLsb'_append_eq_of_le (xlo := res) (by decide)).trans <| extractLsb'_append_eq_right

@[simp] theorem eFn_packT (la : BitVec 4) (fn : BitVec 5) (res : BitVec 3) (acc : BitVec 2) (ra : BitVec 5) (rd : BitVec 5) (maj : BitVec 4) :
    eFn (packT la fn res acc ra rd maj) = fn :=
  (extractLsb'_append_eq_of_le (xlo := 1#4) (by decide)).trans <| (extractLsb'_append_eq_of_le (xlo := maj) (by decide)).trans <| (extractLsb'_append_eq_of_le (xlo := rd) (by decide)).trans <| (extractLsb'_append_eq_of_le (xlo := ra) (by decide)).trans <| (extractLsb'_append_eq_of_le (xlo := acc) (by decide)).trans <| (extractLsb'_append_eq_of_le (xlo := res) (by decide)).trans <| extractLsb'_append_eq_right

@[simp] theorem eRes_packT (la : BitVec 4) (fn : BitVec 5) (res : BitVec 3) (acc : BitVec 2) (ra : BitVec 5) (rd : BitVec 5) (maj : BitVec 4) :
    eRes (packT la fn res acc ra rd maj) = res :=
  (extractLsb'_append_eq_of_le (xlo := 1#4) (by decide)).trans <| (extractLsb'_append_eq_of_le (xlo := maj) (by decide)).trans <| (extractLsb'_append_eq_of_le (xlo := rd) (by decide)).trans <| (extractLsb'_append_eq_of_le (xlo := ra) (by decide)).trans <| (extractLsb'_append_eq_of_le (xlo := acc) (by decide)).trans <| extractLsb'_append_eq_right

@[simp] theorem gAcc_packT (la : BitVec 4) (fn : BitVec 5) (res : BitVec 3) (acc : BitVec 2) (ra : BitVec 5) (rd : BitVec 5) (maj : BitVec 4) :
    gAcc (packT la fn res acc ra rd maj) = acc :=
  (extractLsb'_append_eq_of_le (xlo := 1#4) (by decide)).trans <| (extractLsb'_append_eq_of_le (xlo := maj) (by decide)).trans <| (extractLsb'_append_eq_of_le (xlo := rd) (by decide)).trans <| (extractLsb'_append_eq_of_le (xlo := ra) (by decide)).trans <| extractLsb'_append_eq_right

@[simp] theorem sFn_packT (la : BitVec 4) (fn : BitVec 5) (res : BitVec 3) (acc : BitVec 2) (ra : BitVec 5) (rd : BitVec 5) (maj : BitVec 4) :
    sFn (packT la fn res acc ra rd maj) = la :=
  (extractLsb'_append_eq_of_le (xlo := 1#4) (by decide)).trans <| (extractLsb'_append_eq_of_le (xlo := maj) (by decide)).trans <| (extractLsb'_append_eq_of_le (xlo := rd) (by decide)).trans <| (extractLsb'_append_eq_of_le (xlo := ra) (by decide)).trans <| (extractLsb'_append_eq_of_le (xlo := acc) (by decide)).trans <| (extractLsb'_append_eq_of_le (xlo := res) (by decide)).trans <| (extractLsb'_append_eq_of_le (xlo := fn) (by decide)).trans <| extractLsb'_eq_self

theorem low2_packT (la : BitVec 4) (fn : BitVec 5) (res : BitVec 3) (acc : BitVec 2) (ra : BitVec 5) (rd : BitVec 5) (maj : BitVec 4) :
    (packT la fn res acc ra rd maj).extractLsb' 0 2 = 1#2 :=
  (extractLsb'_append_eq_of_add_le (xlo := 1#4) (by decide)).trans (by decide)

theorem low3_packT (la : BitVec 4) (fn : BitVec 5) (res : BitVec 3) (acc : BitVec 2) (ra : BitVec 5) (rd : BitVec 5) (maj : BitVec 4) :
    (packT la fn res acc ra rd maj).extractLsb' 0 3 = 1#3 :=
  (extractLsb'_append_eq_of_add_le (xlo := 1#4) (by decide)).trans (by decide)

theorem low4_packT (la : BitVec 4) (fn : BitVec 5) (res : BitVec 3) (acc : BitVec 2) (ra : BitVec 5) (rd : BitVec 5) (maj : BitVec 4) :
    (packT la fn res acc ra rd maj).extractLsb' 0 4 = 1#4 :=
  extractLsb'_append_eq_right

/-- A word of the layout is of class G (R26). -/
theorem fields32_packT (la : BitVec 4) (fn : BitVec 5) (res : BitVec 3) (acc : BitVec 2) (ra : BitVec 5) (rd : BitVec 5) (maj : BitVec 4) :
    decodeFields32 (packT la fn res acc ra rd maj) = decodeG (packT la fn res acc ra rd maj) := by
  simp [decodeFields32, low2_packT, low3_packT, low4_packT]

theorem long_packT (la : BitVec 4) (fn : BitVec 5) (res : BitVec 3) (acc : BitVec 2) (ra : BitVec 5) (rd : BitVec 5) (maj : BitVec 4) : (packT la fn res acc ra rd maj).getLsbD 0 = true :=
  long_of_low2 (by rw [low2_packT]; decide)

@[simp] theorem gRa_packD (la : BitVec 4) (sat : BitVec 1) (rm : BitVec 3) (fmt : BitVec 4) (acc : BitVec 2) (xb : BitVec 5) (rd : BitVec 5) (maj : BitVec 4) :
    gRa (packD la sat rm fmt acc xb rd maj) = xb :=
  (extractLsb'_append_eq_of_le (xlo := 1#4) (by decide)).trans <| (extractLsb'_append_eq_of_le (xlo := maj) (by decide)).trans <| (extractLsb'_append_eq_of_le (xlo := rd) (by decide)).trans <| extractLsb'_append_eq_right

@[simp] theorem gRd_packD (la : BitVec 4) (sat : BitVec 1) (rm : BitVec 3) (fmt : BitVec 4) (acc : BitVec 2) (xb : BitVec 5) (rd : BitVec 5) (maj : BitVec 4) :
    gRd (packD la sat rm fmt acc xb rd maj) = rd :=
  (extractLsb'_append_eq_of_le (xlo := 1#4) (by decide)).trans <| (extractLsb'_append_eq_of_le (xlo := maj) (by decide)).trans <| extractLsb'_append_eq_right

@[simp] theorem gMaj_packD (la : BitVec 4) (sat : BitVec 1) (rm : BitVec 3) (fmt : BitVec 4) (acc : BitVec 2) (xb : BitVec 5) (rd : BitVec 5) (maj : BitVec 4) :
    gMaj (packD la sat rm fmt acc xb rd maj) = maj :=
  (extractLsb'_append_eq_of_le (xlo := 1#4) (by decide)).trans <| extractLsb'_append_eq_right

@[simp] theorem iFn_packD (la : BitVec 4) (sat : BitVec 1) (rm : BitVec 3) (fmt : BitVec 4) (acc : BitVec 2) (xb : BitVec 5) (rd : BitVec 5) (maj : BitVec 4) :
    iFn (packD la sat rm fmt acc xb rd maj) = acc :=
  (extractLsb'_append_eq_of_le (xlo := 1#4) (by decide)).trans <| (extractLsb'_append_eq_of_le (xlo := maj) (by decide)).trans <| (extractLsb'_append_eq_of_le (xlo := rd) (by decide)).trans <| (extractLsb'_append_eq_of_le (xlo := xb) (by decide)).trans <| extractLsb'_append_eq_right

@[simp] theorem fLa_packD (la : BitVec 4) (sat : BitVec 1) (rm : BitVec 3) (fmt : BitVec 4) (acc : BitVec 2) (xb : BitVec 5) (rd : BitVec 5) (maj : BitVec 4) :
    fLa (packD la sat rm fmt acc xb rd maj) = la :=
  (extractLsb'_append_eq_of_le (xlo := 1#4) (by decide)).trans <| (extractLsb'_append_eq_of_le (xlo := maj) (by decide)).trans <| (extractLsb'_append_eq_of_le (xlo := rd) (by decide)).trans <| (extractLsb'_append_eq_of_le (xlo := xb) (by decide)).trans <| (extractLsb'_append_eq_of_le (xlo := acc) (by decide)).trans <| (extractLsb'_append_eq_of_le (xlo := fmt) (by decide)).trans <| (extractLsb'_append_eq_of_le (xlo := rm) (by decide)).trans <| (extractLsb'_append_eq_of_le (xlo := sat) (by decide)).trans <| extractLsb'_eq_self

@[simp] theorem gAcc_packD (la : BitVec 4) (sat : BitVec 1) (rm : BitVec 3) (fmt : BitVec 4) (acc : BitVec 2) (xb : BitVec 5) (rd : BitVec 5) (maj : BitVec 4) :
    gAcc (packD la sat rm fmt acc xb rd maj) = acc :=
  (extractLsb'_append_eq_of_le (xlo := 1#4) (by decide)).trans <| (extractLsb'_append_eq_of_le (xlo := maj) (by decide)).trans <| (extractLsb'_append_eq_of_le (xlo := rd) (by decide)).trans <| (extractLsb'_append_eq_of_le (xlo := xb) (by decide)).trans <| extractLsb'_append_eq_right

@[simp] theorem dSat_packD (la : BitVec 4) (sat : BitVec 1) (rm : BitVec 3) (fmt : BitVec 4) (acc : BitVec 2) (xb : BitVec 5) (rd : BitVec 5) (maj : BitVec 4) :
    dSat (packD la sat rm fmt acc xb rd maj) = sat :=
  (extractLsb'_append_eq_of_le (xlo := 1#4) (by decide)).trans <| (extractLsb'_append_eq_of_le (xlo := maj) (by decide)).trans <| (extractLsb'_append_eq_of_le (xlo := rd) (by decide)).trans <| (extractLsb'_append_eq_of_le (xlo := xb) (by decide)).trans <| (extractLsb'_append_eq_of_le (xlo := acc) (by decide)).trans <| (extractLsb'_append_eq_of_le (xlo := fmt) (by decide)).trans <| (extractLsb'_append_eq_of_le (xlo := rm) (by decide)).trans <| extractLsb'_append_eq_right

@[simp] theorem dRm_packD (la : BitVec 4) (sat : BitVec 1) (rm : BitVec 3) (fmt : BitVec 4) (acc : BitVec 2) (xb : BitVec 5) (rd : BitVec 5) (maj : BitVec 4) :
    dRm (packD la sat rm fmt acc xb rd maj) = rm :=
  (extractLsb'_append_eq_of_le (xlo := 1#4) (by decide)).trans <| (extractLsb'_append_eq_of_le (xlo := maj) (by decide)).trans <| (extractLsb'_append_eq_of_le (xlo := rd) (by decide)).trans <| (extractLsb'_append_eq_of_le (xlo := xb) (by decide)).trans <| (extractLsb'_append_eq_of_le (xlo := acc) (by decide)).trans <| (extractLsb'_append_eq_of_le (xlo := fmt) (by decide)).trans <| extractLsb'_append_eq_right

@[simp] theorem dFmt_packD (la : BitVec 4) (sat : BitVec 1) (rm : BitVec 3) (fmt : BitVec 4) (acc : BitVec 2) (xb : BitVec 5) (rd : BitVec 5) (maj : BitVec 4) :
    dFmt (packD la sat rm fmt acc xb rd maj) = fmt :=
  (extractLsb'_append_eq_of_le (xlo := 1#4) (by decide)).trans <| (extractLsb'_append_eq_of_le (xlo := maj) (by decide)).trans <| (extractLsb'_append_eq_of_le (xlo := rd) (by decide)).trans <| (extractLsb'_append_eq_of_le (xlo := xb) (by decide)).trans <| (extractLsb'_append_eq_of_le (xlo := acc) (by decide)).trans <| extractLsb'_append_eq_right

@[simp] theorem sFn_packD (la : BitVec 4) (sat : BitVec 1) (rm : BitVec 3) (fmt : BitVec 4) (acc : BitVec 2) (xb : BitVec 5) (rd : BitVec 5) (maj : BitVec 4) :
    sFn (packD la sat rm fmt acc xb rd maj) = la :=
  (extractLsb'_append_eq_of_le (xlo := 1#4) (by decide)).trans <| (extractLsb'_append_eq_of_le (xlo := maj) (by decide)).trans <| (extractLsb'_append_eq_of_le (xlo := rd) (by decide)).trans <| (extractLsb'_append_eq_of_le (xlo := xb) (by decide)).trans <| (extractLsb'_append_eq_of_le (xlo := acc) (by decide)).trans <| (extractLsb'_append_eq_of_le (xlo := fmt) (by decide)).trans <| (extractLsb'_append_eq_of_le (xlo := rm) (by decide)).trans <| (extractLsb'_append_eq_of_le (xlo := sat) (by decide)).trans <| extractLsb'_eq_self

theorem low2_packD (la : BitVec 4) (sat : BitVec 1) (rm : BitVec 3) (fmt : BitVec 4) (acc : BitVec 2) (xb : BitVec 5) (rd : BitVec 5) (maj : BitVec 4) :
    (packD la sat rm fmt acc xb rd maj).extractLsb' 0 2 = 1#2 :=
  (extractLsb'_append_eq_of_add_le (xlo := 1#4) (by decide)).trans (by decide)

theorem low3_packD (la : BitVec 4) (sat : BitVec 1) (rm : BitVec 3) (fmt : BitVec 4) (acc : BitVec 2) (xb : BitVec 5) (rd : BitVec 5) (maj : BitVec 4) :
    (packD la sat rm fmt acc xb rd maj).extractLsb' 0 3 = 1#3 :=
  (extractLsb'_append_eq_of_add_le (xlo := 1#4) (by decide)).trans (by decide)

theorem low4_packD (la : BitVec 4) (sat : BitVec 1) (rm : BitVec 3) (fmt : BitVec 4) (acc : BitVec 2) (xb : BitVec 5) (rd : BitVec 5) (maj : BitVec 4) :
    (packD la sat rm fmt acc xb rd maj).extractLsb' 0 4 = 1#4 :=
  extractLsb'_append_eq_right

/-- A word of the layout is of class G (R26). -/
theorem fields32_packD (la : BitVec 4) (sat : BitVec 1) (rm : BitVec 3) (fmt : BitVec 4) (acc : BitVec 2) (xb : BitVec 5) (rd : BitVec 5) (maj : BitVec 4) :
    decodeFields32 (packD la sat rm fmt acc xb rd maj) = decodeG (packD la sat rm fmt acc xb rd maj) := by
  simp [decodeFields32, low2_packD, low3_packD, low4_packD]

theorem long_packD (la : BitVec 4) (sat : BitVec 1) (rm : BitVec 3) (fmt : BitVec 4) (acc : BitVec 2) (xb : BitVec 5) (rd : BitVec 5) (maj : BitVec 4) : (packD la sat rm fmt acc xb rd maj).getLsbD 0 = true :=
  long_of_low2 (by rw [low2_packD]; decide)

@[simp] theorem gRa_packF (la : BitVec 4) (op : BitVec 6) (xp : BitVec 4) (xb : BitVec 5) (rd : BitVec 5) (maj : BitVec 4) :
    gRa (packF la op xp xb rd maj) = xb :=
  (extractLsb'_append_eq_of_le (xlo := 1#4) (by decide)).trans <| (extractLsb'_append_eq_of_le (xlo := maj) (by decide)).trans <| (extractLsb'_append_eq_of_le (xlo := rd) (by decide)).trans <| extractLsb'_append_eq_right

@[simp] theorem gRd_packF (la : BitVec 4) (op : BitVec 6) (xp : BitVec 4) (xb : BitVec 5) (rd : BitVec 5) (maj : BitVec 4) :
    gRd (packF la op xp xb rd maj) = rd :=
  (extractLsb'_append_eq_of_le (xlo := 1#4) (by decide)).trans <| (extractLsb'_append_eq_of_le (xlo := maj) (by decide)).trans <| extractLsb'_append_eq_right

@[simp] theorem gMaj_packF (la : BitVec 4) (op : BitVec 6) (xp : BitVec 4) (xb : BitVec 5) (rd : BitVec 5) (maj : BitVec 4) :
    gMaj (packF la op xp xb rd maj) = maj :=
  (extractLsb'_append_eq_of_le (xlo := 1#4) (by decide)).trans <| extractLsb'_append_eq_right

@[simp] theorem fLa_packF (la : BitVec 4) (op : BitVec 6) (xp : BitVec 4) (xb : BitVec 5) (rd : BitVec 5) (maj : BitVec 4) :
    fLa (packF la op xp xb rd maj) = la :=
  (extractLsb'_append_eq_of_le (xlo := 1#4) (by decide)).trans <| (extractLsb'_append_eq_of_le (xlo := maj) (by decide)).trans <| (extractLsb'_append_eq_of_le (xlo := rd) (by decide)).trans <| (extractLsb'_append_eq_of_le (xlo := xb) (by decide)).trans <| (extractLsb'_append_eq_of_le (xlo := xp) (by decide)).trans <| (extractLsb'_append_eq_of_le (xlo := op) (by decide)).trans <| extractLsb'_eq_self

@[simp] theorem fOp_packF (la : BitVec 4) (op : BitVec 6) (xp : BitVec 4) (xb : BitVec 5) (rd : BitVec 5) (maj : BitVec 4) :
    fOp (packF la op xp xb rd maj) = op :=
  (extractLsb'_append_eq_of_le (xlo := 1#4) (by decide)).trans <| (extractLsb'_append_eq_of_le (xlo := maj) (by decide)).trans <| (extractLsb'_append_eq_of_le (xlo := rd) (by decide)).trans <| (extractLsb'_append_eq_of_le (xlo := xb) (by decide)).trans <| (extractLsb'_append_eq_of_le (xlo := xp) (by decide)).trans <| extractLsb'_append_eq_right

@[simp] theorem fXp_packF (la : BitVec 4) (op : BitVec 6) (xp : BitVec 4) (xb : BitVec 5) (rd : BitVec 5) (maj : BitVec 4) :
    fXp (packF la op xp xb rd maj) = xp :=
  (extractLsb'_append_eq_of_le (xlo := 1#4) (by decide)).trans <| (extractLsb'_append_eq_of_le (xlo := maj) (by decide)).trans <| (extractLsb'_append_eq_of_le (xlo := rd) (by decide)).trans <| (extractLsb'_append_eq_of_le (xlo := xb) (by decide)).trans <| extractLsb'_append_eq_right

@[simp] theorem sFn_packF (la : BitVec 4) (op : BitVec 6) (xp : BitVec 4) (xb : BitVec 5) (rd : BitVec 5) (maj : BitVec 4) :
    sFn (packF la op xp xb rd maj) = la :=
  (extractLsb'_append_eq_of_le (xlo := 1#4) (by decide)).trans <| (extractLsb'_append_eq_of_le (xlo := maj) (by decide)).trans <| (extractLsb'_append_eq_of_le (xlo := rd) (by decide)).trans <| (extractLsb'_append_eq_of_le (xlo := xb) (by decide)).trans <| (extractLsb'_append_eq_of_le (xlo := xp) (by decide)).trans <| (extractLsb'_append_eq_of_le (xlo := op) (by decide)).trans <| extractLsb'_eq_self

theorem low2_packF (la : BitVec 4) (op : BitVec 6) (xp : BitVec 4) (xb : BitVec 5) (rd : BitVec 5) (maj : BitVec 4) :
    (packF la op xp xb rd maj).extractLsb' 0 2 = 1#2 :=
  (extractLsb'_append_eq_of_add_le (xlo := 1#4) (by decide)).trans (by decide)

theorem low3_packF (la : BitVec 4) (op : BitVec 6) (xp : BitVec 4) (xb : BitVec 5) (rd : BitVec 5) (maj : BitVec 4) :
    (packF la op xp xb rd maj).extractLsb' 0 3 = 1#3 :=
  (extractLsb'_append_eq_of_add_le (xlo := 1#4) (by decide)).trans (by decide)

theorem low4_packF (la : BitVec 4) (op : BitVec 6) (xp : BitVec 4) (xb : BitVec 5) (rd : BitVec 5) (maj : BitVec 4) :
    (packF la op xp xb rd maj).extractLsb' 0 4 = 1#4 :=
  extractLsb'_append_eq_right

/-- A word of the layout is of class G (R26). -/
theorem fields32_packF (la : BitVec 4) (op : BitVec 6) (xp : BitVec 4) (xb : BitVec 5) (rd : BitVec 5) (maj : BitVec 4) :
    decodeFields32 (packF la op xp xb rd maj) = decodeG (packF la op xp xb rd maj) := by
  simp [decodeFields32, low2_packF, low3_packF, low4_packF]

theorem long_packF (la : BitVec 4) (op : BitVec 6) (xp : BitVec 4) (xb : BitVec 5) (rd : BitVec 5) (maj : BitVec 4) : (packF la op xp xb rd maj).getLsbD 0 = true :=
  long_of_low2 (by rw [low2_packF]; decide)

@[simp] theorem gRa_packS (fn : BitVec 4) (imm : BitVec 10) (ra : BitVec 5) (rd : BitVec 5) (maj : BitVec 4) :
    gRa (packS fn imm ra rd maj) = ra :=
  (extractLsb'_append_eq_of_le (xlo := 1#4) (by decide)).trans <| (extractLsb'_append_eq_of_le (xlo := maj) (by decide)).trans <| (extractLsb'_append_eq_of_le (xlo := rd) (by decide)).trans <| extractLsb'_append_eq_right

@[simp] theorem gRd_packS (fn : BitVec 4) (imm : BitVec 10) (ra : BitVec 5) (rd : BitVec 5) (maj : BitVec 4) :
    gRd (packS fn imm ra rd maj) = rd :=
  (extractLsb'_append_eq_of_le (xlo := 1#4) (by decide)).trans <| (extractLsb'_append_eq_of_le (xlo := maj) (by decide)).trans <| extractLsb'_append_eq_right

@[simp] theorem gMaj_packS (fn : BitVec 4) (imm : BitVec 10) (ra : BitVec 5) (rd : BitVec 5) (maj : BitVec 4) :
    gMaj (packS fn imm ra rd maj) = maj :=
  (extractLsb'_append_eq_of_le (xlo := 1#4) (by decide)).trans <| extractLsb'_append_eq_right

@[simp] theorem fLa_packS (fn : BitVec 4) (imm : BitVec 10) (ra : BitVec 5) (rd : BitVec 5) (maj : BitVec 4) :
    fLa (packS fn imm ra rd maj) = fn :=
  (extractLsb'_append_eq_of_le (xlo := 1#4) (by decide)).trans <| (extractLsb'_append_eq_of_le (xlo := maj) (by decide)).trans <| (extractLsb'_append_eq_of_le (xlo := rd) (by decide)).trans <| (extractLsb'_append_eq_of_le (xlo := ra) (by decide)).trans <| (extractLsb'_append_eq_of_le (xlo := imm) (by decide)).trans <| extractLsb'_eq_self

@[simp] theorem sFn_packS (fn : BitVec 4) (imm : BitVec 10) (ra : BitVec 5) (rd : BitVec 5) (maj : BitVec 4) :
    sFn (packS fn imm ra rd maj) = fn :=
  (extractLsb'_append_eq_of_le (xlo := 1#4) (by decide)).trans <| (extractLsb'_append_eq_of_le (xlo := maj) (by decide)).trans <| (extractLsb'_append_eq_of_le (xlo := rd) (by decide)).trans <| (extractLsb'_append_eq_of_le (xlo := ra) (by decide)).trans <| (extractLsb'_append_eq_of_le (xlo := imm) (by decide)).trans <| extractLsb'_eq_self

@[simp] theorem sImm_packS (fn : BitVec 4) (imm : BitVec 10) (ra : BitVec 5) (rd : BitVec 5) (maj : BitVec 4) :
    sImm (packS fn imm ra rd maj) = imm :=
  (extractLsb'_append_eq_of_le (xlo := 1#4) (by decide)).trans <| (extractLsb'_append_eq_of_le (xlo := maj) (by decide)).trans <| (extractLsb'_append_eq_of_le (xlo := rd) (by decide)).trans <| (extractLsb'_append_eq_of_le (xlo := ra) (by decide)).trans <| extractLsb'_append_eq_right

theorem low2_packS (fn : BitVec 4) (imm : BitVec 10) (ra : BitVec 5) (rd : BitVec 5) (maj : BitVec 4) :
    (packS fn imm ra rd maj).extractLsb' 0 2 = 1#2 :=
  (extractLsb'_append_eq_of_add_le (xlo := 1#4) (by decide)).trans (by decide)

theorem low3_packS (fn : BitVec 4) (imm : BitVec 10) (ra : BitVec 5) (rd : BitVec 5) (maj : BitVec 4) :
    (packS fn imm ra rd maj).extractLsb' 0 3 = 1#3 :=
  (extractLsb'_append_eq_of_add_le (xlo := 1#4) (by decide)).trans (by decide)

theorem low4_packS (fn : BitVec 4) (imm : BitVec 10) (ra : BitVec 5) (rd : BitVec 5) (maj : BitVec 4) :
    (packS fn imm ra rd maj).extractLsb' 0 4 = 1#4 :=
  extractLsb'_append_eq_right

/-- A word of the layout is of class G (R26). -/
theorem fields32_packS (fn : BitVec 4) (imm : BitVec 10) (ra : BitVec 5) (rd : BitVec 5) (maj : BitVec 4) :
    decodeFields32 (packS fn imm ra rd maj) = decodeG (packS fn imm ra rd maj) := by
  simp [decodeFields32, low2_packS, low3_packS, low4_packS]

theorem long_packS (fn : BitVec 4) (imm : BitVec 10) (ra : BitVec 5) (rd : BitVec 5) (maj : BitVec 4) : (packS fn imm ra rd maj).getLsbD 0 = true :=
  long_of_low2 (by rw [low2_packS]; decide)

@[simp] theorem fLa_packM (la : BitVec 4) (off : BitVec 12) (xb : BitVec 5) (rd : BitVec 5) (op : BitVec 3) :
    fLa (packM la off xb rd op) = la :=
  (extractLsb'_append_eq_of_le (xlo := 5#3) (by decide)).trans <| (extractLsb'_append_eq_of_le (xlo := op) (by decide)).trans <| (extractLsb'_append_eq_of_le (xlo := rd) (by decide)).trans <| (extractLsb'_append_eq_of_le (xlo := xb) (by decide)).trans <| (extractLsb'_append_eq_of_le (xlo := off) (by decide)).trans <| extractLsb'_eq_self

@[simp] theorem sFn_packM (la : BitVec 4) (off : BitVec 12) (xb : BitVec 5) (rd : BitVec 5) (op : BitVec 3) :
    sFn (packM la off xb rd op) = la :=
  (extractLsb'_append_eq_of_le (xlo := 5#3) (by decide)).trans <| (extractLsb'_append_eq_of_le (xlo := op) (by decide)).trans <| (extractLsb'_append_eq_of_le (xlo := rd) (by decide)).trans <| (extractLsb'_append_eq_of_le (xlo := xb) (by decide)).trans <| (extractLsb'_append_eq_of_le (xlo := off) (by decide)).trans <| extractLsb'_eq_self

@[simp] theorem mOff_packM (la : BitVec 4) (off : BitVec 12) (xb : BitVec 5) (rd : BitVec 5) (op : BitVec 3) :
    mOff (packM la off xb rd op) = off :=
  (extractLsb'_append_eq_of_le (xlo := 5#3) (by decide)).trans <| (extractLsb'_append_eq_of_le (xlo := op) (by decide)).trans <| (extractLsb'_append_eq_of_le (xlo := rd) (by decide)).trans <| (extractLsb'_append_eq_of_le (xlo := xb) (by decide)).trans <| extractLsb'_append_eq_right

@[simp] theorem mXb_packM (la : BitVec 4) (off : BitVec 12) (xb : BitVec 5) (rd : BitVec 5) (op : BitVec 3) :
    mXb (packM la off xb rd op) = xb :=
  (extractLsb'_append_eq_of_le (xlo := 5#3) (by decide)).trans <| (extractLsb'_append_eq_of_le (xlo := op) (by decide)).trans <| (extractLsb'_append_eq_of_le (xlo := rd) (by decide)).trans <| extractLsb'_append_eq_right

@[simp] theorem mRd_packM (la : BitVec 4) (off : BitVec 12) (xb : BitVec 5) (rd : BitVec 5) (op : BitVec 3) :
    mRd (packM la off xb rd op) = rd :=
  (extractLsb'_append_eq_of_le (xlo := 5#3) (by decide)).trans <| (extractLsb'_append_eq_of_le (xlo := op) (by decide)).trans <| extractLsb'_append_eq_right

@[simp] theorem mOp_packM (la : BitVec 4) (off : BitVec 12) (xb : BitVec 5) (rd : BitVec 5) (op : BitVec 3) :
    mOp (packM la off xb rd op) = op :=
  (extractLsb'_append_eq_of_le (xlo := 5#3) (by decide)).trans <| extractLsb'_append_eq_right

theorem low2_packM (la : BitVec 4) (off : BitVec 12) (xb : BitVec 5) (rd : BitVec 5) (op : BitVec 3) :
    (packM la off xb rd op).extractLsb' 0 2 = 1#2 :=
  (extractLsb'_append_eq_of_add_le (xlo := 5#3) (by decide)).trans (by decide)

theorem low3_packM (la : BitVec 4) (off : BitVec 12) (xb : BitVec 5) (rd : BitVec 5) (op : BitVec 3) :
    (packM la off xb rd op).extractLsb' 0 3 = 5#3 :=
  extractLsb'_append_eq_right

/-- A word of the layout is of class M (R26). -/
theorem fields32_packM (la : BitVec 4) (off : BitVec 12) (xb : BitVec 5) (rd : BitVec 5) (op : BitVec 3) :
    decodeFields32 (packM la off xb rd op) = decodeM (packM la off xb rd op) := by
  simp [decodeFields32, low2_packM, low3_packM]

theorem long_packM (la : BitVec 4) (off : BitVec 12) (xb : BitVec 5) (rd : BitVec 5) (op : BitVec 3) : (packM la off xb rd op).getLsbD 0 = true :=
  long_of_low2 (by rw [low2_packM]; decide)

@[simp] theorem fLa_packC (la : BitVec 4) (form : BitVec 2) (fold : BitVec 1) (ord : BitVec 1) (res : BitVec 3) (acc : BitVec 2) (xs : BitVec 5) (xb : BitVec 5) (rd : BitVec 5) :
    fLa (packC la form fold ord res acc xs xb rd) = la :=
  (extractLsb'_append_eq_of_le (xlo := 9#4) (by decide)).trans <| (extractLsb'_append_eq_of_le (xlo := rd) (by decide)).trans <| (extractLsb'_append_eq_of_le (xlo := xb) (by decide)).trans <| (extractLsb'_append_eq_of_le (xlo := xs) (by decide)).trans <| (extractLsb'_append_eq_of_le (xlo := acc) (by decide)).trans <| (extractLsb'_append_eq_of_le (xlo := res) (by decide)).trans <| (extractLsb'_append_eq_of_le (xlo := ord) (by decide)).trans <| (extractLsb'_append_eq_of_le (xlo := fold) (by decide)).trans <| (extractLsb'_append_eq_of_le (xlo := form) (by decide)).trans <| extractLsb'_eq_self

@[simp] theorem sFn_packC (la : BitVec 4) (form : BitVec 2) (fold : BitVec 1) (ord : BitVec 1) (res : BitVec 3) (acc : BitVec 2) (xs : BitVec 5) (xb : BitVec 5) (rd : BitVec 5) :
    sFn (packC la form fold ord res acc xs xb rd) = la :=
  (extractLsb'_append_eq_of_le (xlo := 9#4) (by decide)).trans <| (extractLsb'_append_eq_of_le (xlo := rd) (by decide)).trans <| (extractLsb'_append_eq_of_le (xlo := xb) (by decide)).trans <| (extractLsb'_append_eq_of_le (xlo := xs) (by decide)).trans <| (extractLsb'_append_eq_of_le (xlo := acc) (by decide)).trans <| (extractLsb'_append_eq_of_le (xlo := res) (by decide)).trans <| (extractLsb'_append_eq_of_le (xlo := ord) (by decide)).trans <| (extractLsb'_append_eq_of_le (xlo := fold) (by decide)).trans <| (extractLsb'_append_eq_of_le (xlo := form) (by decide)).trans <| extractLsb'_eq_self

@[simp] theorem cForm_packC (la : BitVec 4) (form : BitVec 2) (fold : BitVec 1) (ord : BitVec 1) (res : BitVec 3) (acc : BitVec 2) (xs : BitVec 5) (xb : BitVec 5) (rd : BitVec 5) :
    cForm (packC la form fold ord res acc xs xb rd) = form :=
  (extractLsb'_append_eq_of_le (xlo := 9#4) (by decide)).trans <| (extractLsb'_append_eq_of_le (xlo := rd) (by decide)).trans <| (extractLsb'_append_eq_of_le (xlo := xb) (by decide)).trans <| (extractLsb'_append_eq_of_le (xlo := xs) (by decide)).trans <| (extractLsb'_append_eq_of_le (xlo := acc) (by decide)).trans <| (extractLsb'_append_eq_of_le (xlo := res) (by decide)).trans <| (extractLsb'_append_eq_of_le (xlo := ord) (by decide)).trans <| (extractLsb'_append_eq_of_le (xlo := fold) (by decide)).trans <| extractLsb'_append_eq_right

@[simp] theorem cFold_packC (la : BitVec 4) (form : BitVec 2) (fold : BitVec 1) (ord : BitVec 1) (res : BitVec 3) (acc : BitVec 2) (xs : BitVec 5) (xb : BitVec 5) (rd : BitVec 5) :
    cFold (packC la form fold ord res acc xs xb rd) = fold :=
  (extractLsb'_append_eq_of_le (xlo := 9#4) (by decide)).trans <| (extractLsb'_append_eq_of_le (xlo := rd) (by decide)).trans <| (extractLsb'_append_eq_of_le (xlo := xb) (by decide)).trans <| (extractLsb'_append_eq_of_le (xlo := xs) (by decide)).trans <| (extractLsb'_append_eq_of_le (xlo := acc) (by decide)).trans <| (extractLsb'_append_eq_of_le (xlo := res) (by decide)).trans <| (extractLsb'_append_eq_of_le (xlo := ord) (by decide)).trans <| extractLsb'_append_eq_right

@[simp] theorem cOrd_packC (la : BitVec 4) (form : BitVec 2) (fold : BitVec 1) (ord : BitVec 1) (res : BitVec 3) (acc : BitVec 2) (xs : BitVec 5) (xb : BitVec 5) (rd : BitVec 5) :
    cOrd (packC la form fold ord res acc xs xb rd) = ord :=
  (extractLsb'_append_eq_of_le (xlo := 9#4) (by decide)).trans <| (extractLsb'_append_eq_of_le (xlo := rd) (by decide)).trans <| (extractLsb'_append_eq_of_le (xlo := xb) (by decide)).trans <| (extractLsb'_append_eq_of_le (xlo := xs) (by decide)).trans <| (extractLsb'_append_eq_of_le (xlo := acc) (by decide)).trans <| (extractLsb'_append_eq_of_le (xlo := res) (by decide)).trans <| extractLsb'_append_eq_right

@[simp] theorem cRes_packC (la : BitVec 4) (form : BitVec 2) (fold : BitVec 1) (ord : BitVec 1) (res : BitVec 3) (acc : BitVec 2) (xs : BitVec 5) (xb : BitVec 5) (rd : BitVec 5) :
    cRes (packC la form fold ord res acc xs xb rd) = res :=
  (extractLsb'_append_eq_of_le (xlo := 9#4) (by decide)).trans <| (extractLsb'_append_eq_of_le (xlo := rd) (by decide)).trans <| (extractLsb'_append_eq_of_le (xlo := xb) (by decide)).trans <| (extractLsb'_append_eq_of_le (xlo := xs) (by decide)).trans <| (extractLsb'_append_eq_of_le (xlo := acc) (by decide)).trans <| extractLsb'_append_eq_right

@[simp] theorem cAcc_packC (la : BitVec 4) (form : BitVec 2) (fold : BitVec 1) (ord : BitVec 1) (res : BitVec 3) (acc : BitVec 2) (xs : BitVec 5) (xb : BitVec 5) (rd : BitVec 5) :
    cAcc (packC la form fold ord res acc xs xb rd) = acc :=
  (extractLsb'_append_eq_of_le (xlo := 9#4) (by decide)).trans <| (extractLsb'_append_eq_of_le (xlo := rd) (by decide)).trans <| (extractLsb'_append_eq_of_le (xlo := xb) (by decide)).trans <| (extractLsb'_append_eq_of_le (xlo := xs) (by decide)).trans <| extractLsb'_append_eq_right

@[simp] theorem cXs_packC (la : BitVec 4) (form : BitVec 2) (fold : BitVec 1) (ord : BitVec 1) (res : BitVec 3) (acc : BitVec 2) (xs : BitVec 5) (xb : BitVec 5) (rd : BitVec 5) :
    cXs (packC la form fold ord res acc xs xb rd) = xs :=
  (extractLsb'_append_eq_of_le (xlo := 9#4) (by decide)).trans <| (extractLsb'_append_eq_of_le (xlo := rd) (by decide)).trans <| (extractLsb'_append_eq_of_le (xlo := xb) (by decide)).trans <| extractLsb'_append_eq_right

@[simp] theorem cXb_packC (la : BitVec 4) (form : BitVec 2) (fold : BitVec 1) (ord : BitVec 1) (res : BitVec 3) (acc : BitVec 2) (xs : BitVec 5) (xb : BitVec 5) (rd : BitVec 5) :
    cXb (packC la form fold ord res acc xs xb rd) = xb :=
  (extractLsb'_append_eq_of_le (xlo := 9#4) (by decide)).trans <| (extractLsb'_append_eq_of_le (xlo := rd) (by decide)).trans <| extractLsb'_append_eq_right

@[simp] theorem cRd_packC (la : BitVec 4) (form : BitVec 2) (fold : BitVec 1) (ord : BitVec 1) (res : BitVec 3) (acc : BitVec 2) (xs : BitVec 5) (xb : BitVec 5) (rd : BitVec 5) :
    cRd (packC la form fold ord res acc xs xb rd) = rd :=
  (extractLsb'_append_eq_of_le (xlo := 9#4) (by decide)).trans <| extractLsb'_append_eq_right

theorem low2_packC (la : BitVec 4) (form : BitVec 2) (fold : BitVec 1) (ord : BitVec 1) (res : BitVec 3) (acc : BitVec 2) (xs : BitVec 5) (xb : BitVec 5) (rd : BitVec 5) :
    (packC la form fold ord res acc xs xb rd).extractLsb' 0 2 = 1#2 :=
  (extractLsb'_append_eq_of_add_le (xlo := 9#4) (by decide)).trans (by decide)

theorem low3_packC (la : BitVec 4) (form : BitVec 2) (fold : BitVec 1) (ord : BitVec 1) (res : BitVec 3) (acc : BitVec 2) (xs : BitVec 5) (xb : BitVec 5) (rd : BitVec 5) :
    (packC la form fold ord res acc xs xb rd).extractLsb' 0 3 = 1#3 :=
  (extractLsb'_append_eq_of_add_le (xlo := 9#4) (by decide)).trans (by decide)

theorem low4_packC (la : BitVec 4) (form : BitVec 2) (fold : BitVec 1) (ord : BitVec 1) (res : BitVec 3) (acc : BitVec 2) (xs : BitVec 5) (xb : BitVec 5) (rd : BitVec 5) :
    (packC la form fold ord res acc xs xb rd).extractLsb' 0 4 = 9#4 :=
  extractLsb'_append_eq_right

/-- A word of the layout is of class C (R26). -/
theorem fields32_packC (la : BitVec 4) (form : BitVec 2) (fold : BitVec 1) (ord : BitVec 1) (res : BitVec 3) (acc : BitVec 2) (xs : BitVec 5) (xb : BitVec 5) (rd : BitVec 5) :
    decodeFields32 (packC la form fold ord res acc xs xb rd) = decodeC (packC la form fold ord res acc xs xb rd) := by
  simp [decodeFields32, low2_packC, low3_packC, low4_packC]

theorem long_packC (la : BitVec 4) (form : BitVec 2) (fold : BitVec 1) (ord : BitVec 1) (res : BitVec 3) (acc : BitVec 2) (xs : BitVec 5) (xb : BitVec 5) (rd : BitVec 5) : (packC la form fold ord res acc xs xb rd).getLsbD 0 = true :=
  long_of_low2 (by rw [low2_packC]; decide)

@[simp] theorem lImm_packB (off : BitVec 17) (rb : BitVec 5) (ra : BitVec 5) (cond : BitVec 3) :
    lImm (packB off rb ra cond) = off :=
  (extractLsb'_append_eq_of_le (xlo := 3#2) (by decide)).trans <| (extractLsb'_append_eq_of_le (xlo := cond) (by decide)).trans <| (extractLsb'_append_eq_of_le (xlo := ra) (by decide)).trans <| (extractLsb'_append_eq_of_le (xlo := rb) (by decide)).trans <| extractLsb'_eq_self

@[simp] theorem bOff_packB (off : BitVec 17) (rb : BitVec 5) (ra : BitVec 5) (cond : BitVec 3) :
    bOff (packB off rb ra cond) = off :=
  (extractLsb'_append_eq_of_le (xlo := 3#2) (by decide)).trans <| (extractLsb'_append_eq_of_le (xlo := cond) (by decide)).trans <| (extractLsb'_append_eq_of_le (xlo := ra) (by decide)).trans <| (extractLsb'_append_eq_of_le (xlo := rb) (by decide)).trans <| extractLsb'_eq_self

@[simp] theorem bRb_packB (off : BitVec 17) (rb : BitVec 5) (ra : BitVec 5) (cond : BitVec 3) :
    bRb (packB off rb ra cond) = rb :=
  (extractLsb'_append_eq_of_le (xlo := 3#2) (by decide)).trans <| (extractLsb'_append_eq_of_le (xlo := cond) (by decide)).trans <| (extractLsb'_append_eq_of_le (xlo := ra) (by decide)).trans <| extractLsb'_append_eq_right

@[simp] theorem bRa_packB (off : BitVec 17) (rb : BitVec 5) (ra : BitVec 5) (cond : BitVec 3) :
    bRa (packB off rb ra cond) = ra :=
  (extractLsb'_append_eq_of_le (xlo := 3#2) (by decide)).trans <| (extractLsb'_append_eq_of_le (xlo := cond) (by decide)).trans <| extractLsb'_append_eq_right

@[simp] theorem bCond_packB (off : BitVec 17) (rb : BitVec 5) (ra : BitVec 5) (cond : BitVec 3) :
    bCond (packB off rb ra cond) = cond :=
  (extractLsb'_append_eq_of_le (xlo := 3#2) (by decide)).trans <| extractLsb'_append_eq_right

theorem low2_packB (off : BitVec 17) (rb : BitVec 5) (ra : BitVec 5) (cond : BitVec 3) :
    (packB off rb ra cond).extractLsb' 0 2 = 3#2 :=
  extractLsb'_append_eq_right

/-- A word of the layout is of class B (R26). -/
theorem fields32_packB (off : BitVec 17) (rb : BitVec 5) (ra : BitVec 5) (cond : BitVec 3) :
    decodeFields32 (packB off rb ra cond) = decodeB (packB off rb ra cond) := by
  simp [decodeFields32, low2_packB]

theorem long_packB (off : BitVec 17) (rb : BitVec 5) (ra : BitVec 5) (cond : BitVec 3) : (packB off rb ra cond).getLsbD 0 = true :=
  long_of_low2 (by rw [low2_packB]; decide)

/-! ## Parts of a field put together -/

theorem part0 (n : BitVec 6) :
    extractLsb' 6 6 (0#6 ++ n : BitVec 12) = 0#6 :=
  (extractLsb'_append_eq_of_le (xlo := n) (by decide)).trans <| extractLsb'_eq_self

theorem part1 (n : BitVec 6) :
    extractLsb' 0 6 (0#6 ++ n : BitVec 12) = n :=
  extractLsb'_append_eq_right

theorem part2 (imm : BitVec 15) :
    extractLsb' 15 2 (0#2 ++ imm : BitVec 17) = 0#2 :=
  (extractLsb'_append_eq_of_le (xlo := imm) (by decide)).trans <| extractLsb'_eq_self

theorem part3 (imm : BitVec 15) :
    extractLsb' 0 15 (0#2 ++ imm : BitVec 17) = imm :=
  extractLsb'_append_eq_right

theorem part4 (cc : BitVec 2) (md : BitVec 3) :
    extractLsb' 3 2 (cc ++ md : BitVec 5) = cc :=
  (extractLsb'_append_eq_of_le (xlo := md) (by decide)).trans <| extractLsb'_eq_self

theorem part5 (cc : BitVec 2) (md : BitVec 3) :
    extractLsb' 0 3 (cc ++ md : BitVec 5) = md :=
  extractLsb'_append_eq_right

theorem part6 (mb : BitVec 3) :
    extractLsb' 3 2 (0#2 ++ mb : BitVec 5) = 0#2 :=
  (extractLsb'_append_eq_of_le (xlo := mb) (by decide)).trans <| extractLsb'_eq_self

theorem part7 (mb : BitVec 3) :
    extractLsb' 0 3 (0#2 ++ mb : BitVec 5) = mb :=
  extractLsb'_append_eq_right

theorem part8 (b : BitVec 1) (f : BitVec 4) :
    extractLsb' 0 4 (b ++ f : BitVec 5) = f :=
  extractLsb'_append_eq_right

theorem part9 (g : BitVec 4) :
    extractLsb' 0 4 (0#1 ++ g : BitVec 5) = g :=
  extractLsb'_append_eq_right

theorem part10 (g : BitVec 4) :
    extractLsb' 0 4 (1#1 ++ g : BitVec 5) = g :=
  extractLsb'_append_eq_right

theorem part11 (b : BitVec 1) :
    extractLsb' 1 2 (0#2 ++ b : BitVec 3) = 0#2 :=
  (extractLsb'_append_eq_of_le (xlo := b) (by decide)).trans <| extractLsb'_eq_self

theorem part12 (a : BitVec 2) :
    extractLsb' 2 3 (0#3 ++ a : BitVec 5) = 0#3 :=
  (extractLsb'_append_eq_of_le (xlo := a) (by decide)).trans <| extractLsb'_eq_self

theorem part13 (a : BitVec 2) :
    extractLsb' 0 2 (0#3 ++ a : BitVec 5) = a :=
  extractLsb'_append_eq_right

theorem part14 (i : BitVec 5) (k : BitVec 2) (c : BitVec 3) :
    extractLsb' 0 3 (i ++ k ++ c : BitVec 10) = c :=
  extractLsb'_append_eq_right

theorem part15 (i : BitVec 5) (k : BitVec 2) (c : BitVec 3) :
    extractLsb' 3 2 (i ++ k ++ c : BitVec 10) = k :=
  (extractLsb'_append_eq_of_le (xlo := c) (by decide)).trans <| extractLsb'_append_eq_right

theorem part16 (i : BitVec 5) (k : BitVec 2) (c : BitVec 3) :
    extractLsb' 5 5 (i ++ k ++ c : BitVec 10) = i :=
  (extractLsb'_append_eq_of_le (xlo := c) (by decide)).trans <| (extractLsb'_append_eq_of_le (xlo := k) (by decide)).trans <| extractLsb'_eq_self

theorem part17 (k : BitVec 6) :
    extractLsb' 0 6 (0#4 ++ k : BitVec 10) = k :=
  extractLsb'_append_eq_right

theorem part18 (k : BitVec 6) :
    extractLsb' 6 4 (0#4 ++ k : BitVec 10) = 0#4 :=
  (extractLsb'_append_eq_of_le (xlo := k) (by decide)).trans <| extractLsb'_eq_self

theorem bitHi (u s : Bool) : (BitVec.ofBool u ++ BitVec.ofBool s : BitVec 2).getLsbD 1 = u := by cases u <;> cases s <;> rfl
theorem bitLo (u s : Bool) : (BitVec.ofBool u ++ BitVec.ofBool s : BitVec 2).getLsbD 0 = s := by cases u <;> cases s <;> rfl
theorem bitHi0 (u : Bool) : (BitVec.ofBool u ++ 0#1 : BitVec 2).getLsbD 1 = u := by cases u <;> rfl
theorem bitLo0 (u : Bool) : (BitVec.ofBool u ++ 0#1 : BitVec 2).getLsbD 0 = false := by cases u <;> rfl
theorem bitHi1 (u : Bool) : (0#1 ++ BitVec.ofBool u : BitVec 2).getLsbD 1 = false := by cases u <;> rfl
theorem bitLo1 (u : Bool) : (0#1 ++ BitVec.ofBool u : BitVec 2).getLsbD 0 = u := by cases u <;> rfl
theorem bit4 (b : Bool) (f : BitVec 4) : (BitVec.ofBool b ++ f : BitVec 5).getLsbD 4 = b := by
  rw [BitVec.getLsbD_append]; cases b <;> rfl
theorem bit4z (f : BitVec 4) : (0#1 ++ f : BitVec 5).getLsbD 4 = false := bit4 false f
theorem bit4o (f : BitVec 4) : (1#1 ++ f : BitVec 5).getLsbD 4 = true := bit4 true f
theorem bit0 (b : Bool) : (0#2 ++ BitVec.ofBool b : BitVec 3).getLsbD 0 = b := by cases b <;> rfl
theorem only (b : Bool) : (BitVec.ofBool b).getLsbD 0 = b := by cases b <;> rfl
theorem halves (b : Byte) : (b.extractLsb' 5 3 ++ b.extractLsb' 0 5 : BitVec 8) = b := by
  apply BitVec.eq_of_getLsbD_eq
  intro i hi
  rw [BitVec.getLsbD_append, BitVec.getLsbD_extractLsb', BitVec.getLsbD_extractLsb']
  rcases Nat.lt_or_ge i 5 with h' | h'
  · simp [h']
  · simp [Nat.not_lt.mpr h', show i - 5 < 3 by omega, show 5 + (i - 5) = i by omega]

end Sys2Proof.Laws
end

