-- ==== Sys2Proof/Laws/PerInstr.lean ====
section
/-! SUPPORT. The family RoundTrip: for each instruction, decoding its encoding gives it back, and the bytes after it; an
event has no encoding. -/

namespace Sys2Proof.Laws.RoundTrip

set_option Elab.async false
set_option linter.unusedSimpArgs false

/-- What the family says of an instruction. -/
def Statement (i : Instr) : Prop :=
  i.WellFormed → if i.encoded then ∀ rest, decode (encode i ++ rest) = .ok (i, rest) else encode i = []

/-- A 32-bit instruction, by its word and the word's fields. -/
theorem long {i : Instr} (w : Word) (he : i.encoded = true) (h16 : encode16 i = none) (h32 : encode32 i = w)
    (hl : w.getLsbD 0 = true) (hd : decodeFields32 w = .ok i) : Statement i := by
  intro hw
  have hw : i.wf = true := hw
  rw [if_pos he]
  intro rest
  subst h32
  have e : encode i = [(encode32 i).extractLsb' 0 8, (encode32 i).extractLsb' 8 8, (encode32 i).extractLsb' 16 8,
      (encode32 i).extractLsb' 24 8] := by simp only [encode, h16, he, if_true]
  rw [e]
  exact decode_long _ rest hl i (by simp only [decode32, hd, hw, if_true])

/-- A 16-bit instruction, by its halfword. -/
theorem short {i : Instr} (h : Half) (he : i.encoded = true) (h16 : encode16 i = some h) (hl : h.getLsbD 0 = false)
    (hd : decode16 h = .ok i) : Statement i := by
  intro _
  rw [if_pos he]
  intro rest
  have e : encode i = [h.extractLsb' 0 8, h.extractLsb' 8 8] := by simp only [encode, h16]
  rw [e]
  exact decode_short h rest hl i hd

/-- The bits of a compact form (R30). -/
theorem compact_fields (mk : BitVec 2) (va vd op : BitVec 4) :
    (mk ++ va ++ vd ++ op ++ 0#2 : Half).getLsbD 0 = false ∧
    decode16 (mk ++ va ++ vd ++ op ++ 0#2) = .ok (decodeCompact (mk ++ va ++ vd ++ op ++ 0#2)) ∧
    BitVec.extractLsb' 14 2 (mk ++ va ++ vd ++ op ++ 0#2 : Half) = mk ∧
    BitVec.extractLsb' 10 4 (mk ++ va ++ vd ++ op ++ 0#2 : Half) = va ∧
    BitVec.extractLsb' 6 4 (mk ++ va ++ vd ++ op ++ 0#2 : Half) = vd ∧
    BitVec.extractLsb' 2 4 (mk ++ va ++ vd ++ op ++ 0#2 : Half) = op := by
  have low : BitVec.extractLsb' 0 2 (mk ++ va ++ vd ++ op ++ 0#2 : Half) = 0#2 := BitVec.extractLsb'_append_eq_right
  refine ⟨?_, ?_, ?_, ?_, ?_, ?_⟩
  · have h := congrArg (fun b : BitVec 2 => b.getLsbD 0) low
    simpa using h
  · simp only [decode16, low]; rfl
  · exact (BitVec.extractLsb'_append_eq_of_le (xlo := 0#2) (by decide)).trans <|
      (BitVec.extractLsb'_append_eq_of_le (xlo := op) (by decide)).trans <|
      (BitVec.extractLsb'_append_eq_of_le (xlo := vd) (by decide)).trans <|
      (BitVec.extractLsb'_append_eq_of_le (xlo := va) (by decide)).trans BitVec.extractLsb'_eq_self
  · exact (BitVec.extractLsb'_append_eq_of_le (xlo := 0#2) (by decide)).trans <|
      (BitVec.extractLsb'_append_eq_of_le (xlo := op) (by decide)).trans <|
      (BitVec.extractLsb'_append_eq_of_le (xlo := vd) (by decide)).trans BitVec.extractLsb'_append_eq_right
  · exact (BitVec.extractLsb'_append_eq_of_le (xlo := 0#2) (by decide)).trans <|
      (BitVec.extractLsb'_append_eq_of_le (xlo := op) (by decide)).trans BitVec.extractLsb'_append_eq_right
  · exact (BitVec.extractLsb'_append_eq_of_le (xlo := 0#2) (by decide)).trans BitVec.extractLsb'_append_eq_right

/-- A compact form, by its operation. -/
theorem compact {i : Instr} (mk : BitVec 2) (va vd op : BitVec 4) (he : i.encoded = true)
    (h16 : encode16 i = some (mk ++ va ++ vd ++ op ++ 0#2)) (hd : decodeCompact (mk ++ va ++ vd ++ op ++ 0#2) = i) :
    Statement i :=
  short _ he h16 (compact_fields mk va vd op).1 (by rw [(compact_fields mk va vd op).2.1, hd])


theorem add (rd ra rb : Reg) : Statement (.add rd ra rb) :=
  long (packA 0 0 0 rb ra rd 0) rfl rfl rfl (long_packA ..) (by
    rw [fields32_packA]; simp only [decodeG, decodeSalu, ifUnused, aFx_packA, aFn_packA, aMk_packA, gRb_packA, gRa_packA, gRd_packA, gMaj_packA]; simp)

theorem sub (rd ra rb : Reg) : Statement (.sub rd ra rb) :=
  long (packA 0 1 0 rb ra rd 0) rfl rfl rfl (long_packA ..) (by
    rw [fields32_packA]; simp only [decodeG, decodeSalu, ifUnused, aFx_packA, aFn_packA, aMk_packA, gRb_packA, gRa_packA, gRd_packA, gMaj_packA]; simp)

theorem and (rd ra rb : Reg) : Statement (.and rd ra rb) :=
  long (packA 0 2 0 rb ra rd 0) rfl rfl rfl (long_packA ..) (by
    rw [fields32_packA]; simp only [decodeG, decodeSalu, ifUnused, aFx_packA, aFn_packA, aMk_packA, gRb_packA, gRa_packA, gRd_packA, gMaj_packA]; simp)

theorem or (rd ra rb : Reg) : Statement (.or rd ra rb) :=
  long (packA 0 3 0 rb ra rd 0) rfl rfl rfl (long_packA ..) (by
    rw [fields32_packA]; simp only [decodeG, decodeSalu, ifUnused, aFx_packA, aFn_packA, aMk_packA, gRb_packA, gRa_packA, gRd_packA, gMaj_packA]; simp)

theorem xor (rd ra rb : Reg) : Statement (.xor rd ra rb) :=
  long (packA 0 4 0 rb ra rd 0) rfl rfl rfl (long_packA ..) (by
    rw [fields32_packA]; simp only [decodeG, decodeSalu, ifUnused, aFx_packA, aFn_packA, aMk_packA, gRb_packA, gRa_packA, gRd_packA, gMaj_packA]; simp)

theorem shl (rd ra rb : Reg) : Statement (.shl rd ra rb) :=
  long (packA 0 5 0 rb ra rd 0) rfl rfl rfl (long_packA ..) (by
    rw [fields32_packA]; simp only [decodeG, decodeSalu, ifUnused, aFx_packA, aFn_packA, aMk_packA, gRb_packA, gRa_packA, gRd_packA, gMaj_packA]; simp)

theorem shr (rd ra rb : Reg) : Statement (.shr rd ra rb) :=
  long (packA 0 6 0 rb ra rd 0) rfl rfl rfl (long_packA ..) (by
    rw [fields32_packA]; simp only [decodeG, decodeSalu, ifUnused, aFx_packA, aFn_packA, aMk_packA, gRb_packA, gRa_packA, gRd_packA, gMaj_packA]; simp)

theorem sra (rd ra rb : Reg) : Statement (.sra rd ra rb) :=
  long (packA 0 7 0 rb ra rd 0) rfl rfl rfl (long_packA ..) (by
    rw [fields32_packA]; simp only [decodeG, decodeSalu, ifUnused, aFx_packA, aFn_packA, aMk_packA, gRb_packA, gRa_packA, gRd_packA, gMaj_packA]; simp)

theorem mul (rd ra rb : Reg) : Statement (.mul rd ra rb) :=
  long (packA 0 8 0 rb ra rd 0) rfl rfl rfl (long_packA ..) (by
    rw [fields32_packA]; simp only [decodeG, decodeSalu, ifUnused, aFx_packA, aFn_packA, aMk_packA, gRb_packA, gRa_packA, gRd_packA, gMaj_packA]; simp)

theorem mulh (rd ra rb : Reg) : Statement (.mulh rd ra rb) :=
  long (packA 0 9 0 rb ra rd 0) rfl rfl rfl (long_packA ..) (by
    rw [fields32_packA]; simp only [decodeG, decodeSalu, ifUnused, aFx_packA, aFn_packA, aMk_packA, gRb_packA, gRa_packA, gRd_packA, gMaj_packA]; simp)

theorem div (rd ra rb : Reg) : Statement (.div rd ra rb) :=
  long (packA 0 10 0 rb ra rd 0) rfl rfl rfl (long_packA ..) (by
    rw [fields32_packA]; simp only [decodeG, decodeSalu, ifUnused, aFx_packA, aFn_packA, aMk_packA, gRb_packA, gRa_packA, gRd_packA, gMaj_packA]; simp)

theorem divu (rd ra rb : Reg) : Statement (.divu rd ra rb) :=
  long (packA 0 11 0 rb ra rd 0) rfl rfl rfl (long_packA ..) (by
    rw [fields32_packA]; simp only [decodeG, decodeSalu, ifUnused, aFx_packA, aFn_packA, aMk_packA, gRb_packA, gRa_packA, gRd_packA, gMaj_packA]; simp)

theorem rem (rd ra rb : Reg) : Statement (.rem rd ra rb) :=
  long (packA 0 12 0 rb ra rd 0) rfl rfl rfl (long_packA ..) (by
    rw [fields32_packA]; simp only [decodeG, decodeSalu, ifUnused, aFx_packA, aFn_packA, aMk_packA, gRb_packA, gRa_packA, gRd_packA, gMaj_packA]; simp)

theorem remu (rd ra rb : Reg) : Statement (.remu rd ra rb) :=
  long (packA 0 13 0 rb ra rd 0) rfl rfl rfl (long_packA ..) (by
    rw [fields32_packA]; simp only [decodeG, decodeSalu, ifUnused, aFx_packA, aFn_packA, aMk_packA, gRb_packA, gRa_packA, gRd_packA, gMaj_packA]; simp)

theorem min (rd ra rb : Reg) : Statement (.min rd ra rb) :=
  long (packA 0 14 0 rb ra rd 0) rfl rfl rfl (long_packA ..) (by
    rw [fields32_packA]; simp only [decodeG, decodeSalu, ifUnused, aFx_packA, aFn_packA, aMk_packA, gRb_packA, gRa_packA, gRd_packA, gMaj_packA]; simp)

theorem max (rd ra rb : Reg) : Statement (.max rd ra rb) :=
  long (packA 0 15 0 rb ra rd 0) rfl rfl rfl (long_packA ..) (by
    rw [fields32_packA]; simp only [decodeG, decodeSalu, ifUnused, aFx_packA, aFn_packA, aMk_packA, gRb_packA, gRa_packA, gRd_packA, gMaj_packA]; simp)

theorem clz (rd ra : Reg) : Statement (.clz rd ra) :=
  long (packA 0 0 0 0 ra rd 1) rfl rfl rfl (long_packA ..) (by
    rw [fields32_packA]; simp only [decodeG, decodeSbit, ifUnused, aFx_packA, aFn_packA, aMk_packA, gRb_packA, gRa_packA, gRd_packA, gMaj_packA]; simp)

theorem ctz (rd ra : Reg) : Statement (.ctz rd ra) :=
  long (packA 0 1 0 0 ra rd 1) rfl rfl rfl (long_packA ..) (by
    rw [fields32_packA]; simp only [decodeG, decodeSbit, ifUnused, aFx_packA, aFn_packA, aMk_packA, gRb_packA, gRa_packA, gRd_packA, gMaj_packA]; simp)

theorem popc (rd ra : Reg) : Statement (.popc rd ra) :=
  long (packA 0 2 0 0 ra rd 1) rfl rfl rfl (long_packA ..) (by
    rw [fields32_packA]; simp only [decodeG, decodeSbit, ifUnused, aFx_packA, aFn_packA, aMk_packA, gRb_packA, gRa_packA, gRd_packA, gMaj_packA]; simp)

theorem bext (rd ra rb : Reg) : Statement (.bext rd ra rb) :=
  long (packA 0 3 0 rb ra rd 1) rfl rfl rfl (long_packA ..) (by
    rw [fields32_packA]; simp only [decodeG, decodeSbit, ifUnused, aFx_packA, aFn_packA, aMk_packA, gRb_packA, gRa_packA, gRd_packA, gMaj_packA]; simp)

theorem bins (rd ra rb : Reg) : Statement (.bins rd ra rb) :=
  long (packA 0 4 0 rb ra rd 1) rfl rfl rfl (long_packA ..) (by
    rw [fields32_packA]; simp only [decodeG, decodeSbit, ifUnused, aFx_packA, aFn_packA, aMk_packA, gRb_packA, gRa_packA, gRd_packA, gMaj_packA]; simp)

theorem slt (rd ra rb : Reg) : Statement (.slt rd ra rb) :=
  long (packA 0 5 0 rb ra rd 1) rfl rfl rfl (long_packA ..) (by
    rw [fields32_packA]; simp only [decodeG, decodeSbit, ifUnused, aFx_packA, aFn_packA, aMk_packA, gRb_packA, gRa_packA, gRd_packA, gMaj_packA]; simp)

theorem sltu (rd ra rb : Reg) : Statement (.sltu rd ra rb) :=
  long (packA 0 6 0 rb ra rd 1) rfl rfl rfl (long_packA ..) (by
    rw [fields32_packA]; simp only [decodeG, decodeSbit, ifUnused, aFx_packA, aFn_packA, aMk_packA, gRb_packA, gRa_packA, gRd_packA, gMaj_packA]; simp)

theorem seq (rd ra rb : Reg) : Statement (.seq rd ra rb) :=
  long (packA 0 7 0 rb ra rd 1) rfl rfl rfl (long_packA ..) (by
    rw [fields32_packA]; simp only [decodeG, decodeSbit, ifUnused, aFx_packA, aFn_packA, aMk_packA, gRb_packA, gRa_packA, gRd_packA, gMaj_packA]; simp)

theorem sel (rd ra rb : Reg) : Statement (.sel rd ra rb) :=
  long (packA 0 8 0 rb ra rd 1) rfl rfl rfl (long_packA ..) (by
    rw [fields32_packA]; simp only [decodeG, decodeSbit, ifUnused, aFx_packA, aFn_packA, aMk_packA, gRb_packA, gRa_packA, gRd_packA, gMaj_packA]; simp)

theorem mov (rd ra : Reg) : Statement (.mov rd ra) :=
  long (packA 0 9 0 0 ra rd 1) rfl rfl rfl (long_packA ..) (by
    rw [fields32_packA]; simp only [decodeG, decodeSbit, ifUnused, aFx_packA, aFn_packA, aMk_packA, gRb_packA, gRa_packA, gRd_packA, gMaj_packA]; simp)

theorem addi (rd ra : Reg) (imm : BitVec 12) : Statement (.addi rd ra imm) :=
  long (packI imm 0 ra rd 2) rfl rfl rfl (long_packI ..) (by
    rw [fields32_packI]; simp only [decodeG, decodeSimm, ifUnused, gRa_packI, gRd_packI, gMaj_packI, iImm_packI, iFn_packI]; simp)

theorem andi (rd ra : Reg) (imm : BitVec 12) : Statement (.andi rd ra imm) :=
  long (packI imm 1 ra rd 2) rfl rfl rfl (long_packI ..) (by
    rw [fields32_packI]; simp only [decodeG, decodeSimm, ifUnused, gRa_packI, gRd_packI, gMaj_packI, iImm_packI, iFn_packI]; simp)

theorem ori (rd ra : Reg) (imm : BitVec 12) : Statement (.ori rd ra imm) :=
  long (packI imm 2 ra rd 2) rfl rfl rfl (long_packI ..) (by
    rw [fields32_packI]; simp only [decodeG, decodeSimm, ifUnused, gRa_packI, gRd_packI, gMaj_packI, iImm_packI, iFn_packI]; simp)

theorem xori (rd ra : Reg) (imm : BitVec 12) : Statement (.xori rd ra imm) :=
  long (packI imm 3 ra rd 2) rfl rfl rfl (long_packI ..) (by
    rw [fields32_packI]; simp only [decodeG, decodeSimm, ifUnused, gRa_packI, gRd_packI, gMaj_packI, iImm_packI, iFn_packI]; simp)

theorem shli (rd ra : Reg) (n : BitVec 6) : Statement (.shli rd ra n) :=
  long (packI (0#6 ++ n) 0 ra rd 3) rfl rfl rfl (long_packI ..) (by
    rw [fields32_packI]; simp only [decodeG, decodeSshi, ifUnused, gRa_packI, gRd_packI, gMaj_packI, iImm_packI, iFn_packI, part0, part1, part2, part3, part4, part5, part6, part7, part8, part9, part10, part11, part12, part13, part14, part15, part16, part17, part18, bitHi, bitLo, bitHi0, bitLo0, bitHi1, bitLo1, bit4, bit4z, bit4o, bit0, only, halves]; simp)

theorem shri (rd ra : Reg) (n : BitVec 6) : Statement (.shri rd ra n) :=
  long (packI (0#6 ++ n) 1 ra rd 3) rfl rfl rfl (long_packI ..) (by
    rw [fields32_packI]; simp only [decodeG, decodeSshi, ifUnused, gRa_packI, gRd_packI, gMaj_packI, iImm_packI, iFn_packI, part0, part1, part2, part3, part4, part5, part6, part7, part8, part9, part10, part11, part12, part13, part14, part15, part16, part17, part18, bitHi, bitLo, bitHi0, bitLo0, bitHi1, bitLo1, bit4, bit4z, bit4o, bit0, only, halves]; simp)

theorem srai (rd ra : Reg) (n : BitVec 6) : Statement (.srai rd ra n) :=
  long (packI (0#6 ++ n) 2 ra rd 3) rfl rfl rfl (long_packI ..) (by
    rw [fields32_packI]; simp only [decodeG, decodeSshi, ifUnused, gRa_packI, gRd_packI, gMaj_packI, iImm_packI, iFn_packI, part0, part1, part2, part3, part4, part5, part6, part7, part8, part9, part10, part11, part12, part13, part14, part15, part16, part17, part18, bitHi, bitLo, bitHi0, bitLo0, bitHi1, bitLo1, bit4, bit4z, bit4o, bit0, only, halves]; simp)

theorem jalr (rd ra : Reg) (imm : BitVec 12) : Statement (.jalr rd ra imm) :=
  long (packI imm 3 ra rd 3) rfl rfl rfl (long_packI ..) (by
    rw [fields32_packI]; simp only [decodeG, decodeSshi, ifUnused, gRa_packI, gRd_packI, gMaj_packI, iImm_packI, iFn_packI]; simp)

theorem li (rd : Reg) (imm : BitVec 17) : Statement (.li rd imm) :=
  long (packL imm 0 rd 4) rfl rfl rfl (long_packL ..) (by
    rw [fields32_packL]; simp only [decodeG, decodeLim, ifUnused, gRd_packL, gMaj_packL, lImm_packL, lFn_packL]; simp)

theorem lih (rd : Reg) (imm : BitVec 15) : Statement (.lih rd imm) :=
  long (packL (0#2 ++ imm) 1 rd 4) rfl rfl rfl (long_packL ..) (by
    rw [fields32_packL]; simp only [decodeG, decodeLim, ifUnused, gRd_packL, gMaj_packL, lImm_packL, lFn_packL, part0, part1, part2, part3, part4, part5, part6, part7, part8, part9, part10, part11, part12, part13, part14, part15, part16, part17, part18, bitHi, bitLo, bitHi0, bitLo0, bitHi1, bitLo1, bit4, bit4z, bit4o, bit0, only, halves]; simp)

theorem lea (rd : Reg) (imm : BitVec 17) : Statement (.lea rd imm) :=
  long (packL imm 2 rd 4) rfl rfl rfl (long_packL ..) (by
    rw [fields32_packL]; simp only [decodeG, decodeLim, ifUnused, gRd_packL, gMaj_packL, lImm_packL, lFn_packL]; simp)

theorem vadd (u s : Bool) (mk : BitVec 3) (vd va vb : Reg) : Statement (.vadd u s mk vd va vb) :=
  long (packA (BitVec.ofBool u ++ BitVec.ofBool s) 0 mk vb va vd 5) rfl rfl rfl (long_packA ..) (by
    rw [fields32_packA]; simp only [decodeG, decodeVint, ifUnused, aFx_packA, aFn_packA, aMk_packA, gRb_packA, gRa_packA, gRd_packA, gMaj_packA, part0, part1, part2, part3, part4, part5, part6, part7, part8, part9, part10, part11, part12, part13, part14, part15, part16, part17, part18, bitHi, bitLo, bitHi0, bitLo0, bitHi1, bitLo1, bit4, bit4z, bit4o, bit0, only, halves]; simp)

theorem vsub (u s : Bool) (mk : BitVec 3) (vd va vb : Reg) : Statement (.vsub u s mk vd va vb) :=
  long (packA (BitVec.ofBool u ++ BitVec.ofBool s) 1 mk vb va vd 5) rfl rfl rfl (long_packA ..) (by
    rw [fields32_packA]; simp only [decodeG, decodeVint, ifUnused, aFx_packA, aFn_packA, aMk_packA, gRb_packA, gRa_packA, gRd_packA, gMaj_packA, part0, part1, part2, part3, part4, part5, part6, part7, part8, part9, part10, part11, part12, part13, part14, part15, part16, part17, part18, bitHi, bitLo, bitHi0, bitLo0, bitHi1, bitLo1, bit4, bit4z, bit4o, bit0, only, halves]; simp)

theorem vmul (u s : Bool) (mk : BitVec 3) (vd va vb : Reg) : Statement (.vmul u s mk vd va vb) :=
  long (packA (BitVec.ofBool u ++ BitVec.ofBool s) 2 mk vb va vd 5) rfl rfl rfl (long_packA ..) (by
    rw [fields32_packA]; simp only [decodeG, decodeVint, ifUnused, aFx_packA, aFn_packA, aMk_packA, gRb_packA, gRa_packA, gRd_packA, gMaj_packA, part0, part1, part2, part3, part4, part5, part6, part7, part8, part9, part10, part11, part12, part13, part14, part15, part16, part17, part18, bitHi, bitLo, bitHi0, bitLo0, bitHi1, bitLo1, bit4, bit4z, bit4o, bit0, only, halves]; simp)

theorem vmulh (u : Bool) (mk : BitVec 3) (vd va vb : Reg) : Statement (.vmulh u mk vd va vb) :=
  long (packA (BitVec.ofBool u ++ 0#1) 3 mk vb va vd 5) rfl rfl rfl (long_packA ..) (by
    rw [fields32_packA]; simp only [decodeG, decodeVint, ifUnused, aFx_packA, aFn_packA, aMk_packA, gRb_packA, gRa_packA, gRd_packA, gMaj_packA, part0, part1, part2, part3, part4, part5, part6, part7, part8, part9, part10, part11, part12, part13, part14, part15, part16, part17, part18, bitHi, bitLo, bitHi0, bitLo0, bitHi1, bitLo1, bit4, bit4z, bit4o, bit0, only, halves]; simp)

theorem vand (mk : BitVec 3) (vd va vb : Reg) : Statement (.vand mk vd va vb) :=
  long (packA 0 4 mk vb va vd 5) rfl rfl rfl (long_packA ..) (by
    rw [fields32_packA]; simp only [decodeG, decodeVint, ifUnused, aFx_packA, aFn_packA, aMk_packA, gRb_packA, gRa_packA, gRd_packA, gMaj_packA]; simp)

theorem vor (mk : BitVec 3) (vd va vb : Reg) : Statement (.vor mk vd va vb) :=
  long (packA 0 5 mk vb va vd 5) rfl rfl rfl (long_packA ..) (by
    rw [fields32_packA]; simp only [decodeG, decodeVint, ifUnused, aFx_packA, aFn_packA, aMk_packA, gRb_packA, gRa_packA, gRd_packA, gMaj_packA]; simp)

theorem vxor (mk : BitVec 3) (vd va vb : Reg) : Statement (.vxor mk vd va vb) :=
  long (packA 0 6 mk vb va vd 5) rfl rfl rfl (long_packA ..) (by
    rw [fields32_packA]; simp only [decodeG, decodeVint, ifUnused, aFx_packA, aFn_packA, aMk_packA, gRb_packA, gRa_packA, gRd_packA, gMaj_packA]; simp)

theorem vshl (mk : BitVec 3) (vd va vb : Reg) : Statement (.vshl mk vd va vb) :=
  long (packA 0 7 mk vb va vd 5) rfl rfl rfl (long_packA ..) (by
    rw [fields32_packA]; simp only [decodeG, decodeVint, ifUnused, aFx_packA, aFn_packA, aMk_packA, gRb_packA, gRa_packA, gRd_packA, gMaj_packA]; simp)

theorem vshr (mk : BitVec 3) (vd va vb : Reg) : Statement (.vshr mk vd va vb) :=
  long (packA 0 8 mk vb va vd 5) rfl rfl rfl (long_packA ..) (by
    rw [fields32_packA]; simp only [decodeG, decodeVint, ifUnused, aFx_packA, aFn_packA, aMk_packA, gRb_packA, gRa_packA, gRd_packA, gMaj_packA]; simp)

theorem vsra (mk : BitVec 3) (vd va vb : Reg) : Statement (.vsra mk vd va vb) :=
  long (packA 0 9 mk vb va vd 5) rfl rfl rfl (long_packA ..) (by
    rw [fields32_packA]; simp only [decodeG, decodeVint, ifUnused, aFx_packA, aFn_packA, aMk_packA, gRb_packA, gRa_packA, gRd_packA, gMaj_packA]; simp)

theorem vmin (u : Bool) (mk : BitVec 3) (vd va vb : Reg) : Statement (.vmin u mk vd va vb) :=
  long (packA (BitVec.ofBool u ++ 0#1) 10 mk vb va vd 5) rfl rfl rfl (long_packA ..) (by
    rw [fields32_packA]; simp only [decodeG, decodeVint, ifUnused, aFx_packA, aFn_packA, aMk_packA, gRb_packA, gRa_packA, gRd_packA, gMaj_packA, part0, part1, part2, part3, part4, part5, part6, part7, part8, part9, part10, part11, part12, part13, part14, part15, part16, part17, part18, bitHi, bitLo, bitHi0, bitLo0, bitHi1, bitLo1, bit4, bit4z, bit4o, bit0, only, halves]; simp)

theorem vmax (u : Bool) (mk : BitVec 3) (vd va vb : Reg) : Statement (.vmax u mk vd va vb) :=
  long (packA (BitVec.ofBool u ++ 0#1) 11 mk vb va vd 5) rfl rfl rfl (long_packA ..) (by
    rw [fields32_packA]; simp only [decodeG, decodeVint, ifUnused, aFx_packA, aFn_packA, aMk_packA, gRb_packA, gRa_packA, gRd_packA, gMaj_packA, part0, part1, part2, part3, part4, part5, part6, part7, part8, part9, part10, part11, part12, part13, part14, part15, part16, part17, part18, bitHi, bitLo, bitHi0, bitLo0, bitHi1, bitLo1, bit4, bit4z, bit4o, bit0, only, halves]; simp)

theorem vsel (mk : BitVec 3) (vd va vb : Reg) : Statement (.vsel mk vd va vb) :=
  long (packA 0 12 mk vb va vd 5) rfl rfl rfl (long_packA ..) (by
    rw [fields32_packA]; simp only [decodeG, decodeVint, ifUnused, aFx_packA, aFn_packA, aMk_packA, gRb_packA, gRa_packA, gRd_packA, gMaj_packA]; simp)

theorem vbcast (mk : BitVec 3) (vd xa : Reg) : Statement (.vbcast mk vd xa) :=
  long (packA 0 13 mk 0 xa vd 5) rfl rfl rfl (long_packA ..) (by
    rw [fields32_packA]; simp only [decodeG, decodeVint, ifUnused, aFx_packA, aFn_packA, aMk_packA, gRb_packA, gRa_packA, gRd_packA, gMaj_packA]; simp)

theorem vpopc (mk : BitVec 3) (vd va : Reg) : Statement (.vpopc mk vd va) :=
  long (packA 0 14 mk 0 va vd 5) rfl rfl rfl (long_packA ..) (by
    rw [fields32_packA]; simp only [decodeG, decodeVint, ifUnused, aFx_packA, aFn_packA, aMk_packA, gRb_packA, gRa_packA, gRd_packA, gMaj_packA]; simp)

theorem vclz (mk : BitVec 3) (vd va : Reg) : Statement (.vclz mk vd va) :=
  long (packA 0 15 mk 0 va vd 5) rfl rfl rfl (long_packA ..) (by
    rw [fields32_packA]; simp only [decodeG, decodeVint, ifUnused, aFx_packA, aFn_packA, aMk_packA, gRb_packA, gRa_packA, gRd_packA, gMaj_packA]; simp)

theorem vcmp (u : Bool) (cc : BitVec 2) (mk md : BitVec 3) (va vb : Reg) : Statement (.vcmp u cc mk md va vb) :=
  long (packA (0#1 ++ BitVec.ofBool u) 0 mk vb va (cc ++ md) 6) rfl rfl rfl (long_packA ..) (by
    rw [fields32_packA]; simp only [decodeG, decodeVxl, ifUnused, aFx_packA, aFn_packA, aMk_packA, gRb_packA, gRa_packA, gRd_packA, gMaj_packA, part0, part1, part2, part3, part4, part5, part6, part7, part8, part9, part10, part11, part12, part13, part14, part15, part16, part17, part18, bitHi, bitLo, bitHi0, bitLo0, bitHi1, bitLo1, bit4, bit4z, bit4o, bit0, only, halves]; simp)

theorem vperm (z : Bool) (mk : BitVec 3) (vd va vb : Reg) : Statement (.vperm z mk vd va vb) :=
  long (packA (BitVec.ofBool z ++ 0#1) 1 mk vb va vd 6) rfl rfl rfl (long_packA ..) (by
    rw [fields32_packA]; simp only [decodeG, decodeVxl, ifUnused, aFx_packA, aFn_packA, aMk_packA, gRb_packA, gRa_packA, gRd_packA, gMaj_packA, part0, part1, part2, part3, part4, part5, part6, part7, part8, part9, part10, part11, part12, part13, part14, part15, part16, part17, part18, bitHi, bitLo, bitHi0, bitLo0, bitHi1, bitLo1, bit4, bit4z, bit4o, bit0, only, halves]; simp)

theorem vshuf (z : Bool) (mk : BitVec 3) (vd va xb : Reg) : Statement (.vshuf z mk vd va xb) :=
  long (packA (BitVec.ofBool z ++ 0#1) 2 mk xb va vd 6) rfl rfl rfl (long_packA ..) (by
    rw [fields32_packA]; simp only [decodeG, decodeVxl, ifUnused, aFx_packA, aFn_packA, aMk_packA, gRb_packA, gRa_packA, gRd_packA, gMaj_packA, part0, part1, part2, part3, part4, part5, part6, part7, part8, part9, part10, part11, part12, part13, part14, part15, part16, part17, part18, bitHi, bitLo, bitHi0, bitLo0, bitHi1, bitLo1, bit4, bit4z, bit4o, bit0, only, halves]; simp)

theorem vext (z : Bool) (mk : BitVec 3) (xd va xb : Reg) : Statement (.vext z mk xd va xb) :=
  long (packA (BitVec.ofBool z ++ 0#1) 3 mk xb va xd 6) rfl rfl rfl (long_packA ..) (by
    rw [fields32_packA]; simp only [decodeG, decodeVxl, ifUnused, aFx_packA, aFn_packA, aMk_packA, gRb_packA, gRa_packA, gRd_packA, gMaj_packA, part0, part1, part2, part3, part4, part5, part6, part7, part8, part9, part10, part11, part12, part13, part14, part15, part16, part17, part18, bitHi, bitLo, bitHi0, bitLo0, bitHi1, bitLo1, bit4, bit4z, bit4o, bit0, only, halves]; simp)

theorem vins (mk : BitVec 3) (vd xa xb : Reg) : Statement (.vins mk vd xa xb) :=
  long (packA 0 4 mk xb xa vd 6) rfl rfl rfl (long_packA ..) (by
    rw [fields32_packA]; simp only [decodeG, decodeVxl, ifUnused, aFx_packA, aFn_packA, aMk_packA, gRb_packA, gRa_packA, gRd_packA, gMaj_packA]; simp)

theorem vbext (mk : BitVec 3) (vd va vb : Reg) : Statement (.vbext mk vd va vb) :=
  long (packA 0 5 mk vb va vd 6) rfl rfl rfl (long_packA ..) (by
    rw [fields32_packA]; simp only [decodeG, decodeVxl, ifUnused, aFx_packA, aFn_packA, aMk_packA, gRb_packA, gRa_packA, gRd_packA, gMaj_packA]; simp)

theorem vred (u : Bool) (op : BitVec 3) (mk : BitVec 3) (xd va : Reg) : Statement (.vred u op mk xd va) :=
  long (packA (0#1 ++ BitVec.ofBool u) 6 mk (0#2 ++ op) va xd 6) rfl rfl rfl (long_packA ..) (by
    rw [fields32_packA]; simp only [decodeG, decodeVxl, ifUnused, aFx_packA, aFn_packA, aMk_packA, gRb_packA, gRa_packA, gRd_packA, gMaj_packA, part0, part1, part2, part3, part4, part5, part6, part7, part8, part9, part10, part11, part12, part13, part14, part15, part16, part17, part18, bitHi, bitLo, bitHi0, bitLo0, bitHi1, bitLo1, bit4, bit4z, bit4o, bit0, only, halves]; simp)

theorem mand (md ma mb : BitVec 3) : Statement (.mand md ma mb) :=
  long (packA 0 7 0 (0#2 ++ mb) (0#2 ++ ma) (0#2 ++ md) 6) rfl rfl rfl (long_packA ..) (by
    rw [fields32_packA]; simp only [decodeG, decodeVxl, ifUnused, aFx_packA, aFn_packA, aMk_packA, gRb_packA, gRa_packA, gRd_packA, gMaj_packA, part0, part1, part2, part3, part4, part5, part6, part7, part8, part9, part10, part11, part12, part13, part14, part15, part16, part17, part18, bitHi, bitLo, bitHi0, bitLo0, bitHi1, bitLo1, bit4, bit4z, bit4o, bit0, only, halves]; simp)

theorem mor (md ma mb : BitVec 3) : Statement (.mor md ma mb) :=
  long (packA 0 8 0 (0#2 ++ mb) (0#2 ++ ma) (0#2 ++ md) 6) rfl rfl rfl (long_packA ..) (by
    rw [fields32_packA]; simp only [decodeG, decodeVxl, ifUnused, aFx_packA, aFn_packA, aMk_packA, gRb_packA, gRa_packA, gRd_packA, gMaj_packA, part0, part1, part2, part3, part4, part5, part6, part7, part8, part9, part10, part11, part12, part13, part14, part15, part16, part17, part18, bitHi, bitLo, bitHi0, bitLo0, bitHi1, bitLo1, bit4, bit4z, bit4o, bit0, only, halves]; simp)

theorem mxor (md ma mb : BitVec 3) : Statement (.mxor md ma mb) :=
  long (packA 0 9 0 (0#2 ++ mb) (0#2 ++ ma) (0#2 ++ md) 6) rfl rfl rfl (long_packA ..) (by
    rw [fields32_packA]; simp only [decodeG, decodeVxl, ifUnused, aFx_packA, aFn_packA, aMk_packA, gRb_packA, gRa_packA, gRd_packA, gMaj_packA, part0, part1, part2, part3, part4, part5, part6, part7, part8, part9, part10, part11, part12, part13, part14, part15, part16, part17, part18, bitHi, bitLo, bitHi0, bitLo0, bitHi1, bitLo1, bit4, bit4z, bit4o, bit0, only, halves]; simp)

theorem mnot (md ma : BitVec 3) : Statement (.mnot md ma) :=
  long (packA 0 10 0 0 (0#2 ++ ma) (0#2 ++ md) 6) rfl rfl rfl (long_packA ..) (by
    rw [fields32_packA]; simp only [decodeG, decodeVxl, ifUnused, aFx_packA, aFn_packA, aMk_packA, gRb_packA, gRa_packA, gRd_packA, gMaj_packA, part0, part1, part2, part3, part4, part5, part6, part7, part8, part9, part10, part11, part12, part13, part14, part15, part16, part17, part18, bitHi, bitLo, bitHi0, bitLo0, bitHi1, bitLo1, bit4, bit4z, bit4o, bit0, only, halves]; simp)

theorem mpop (xd : Reg) (ma : BitVec 3) : Statement (.mpop xd ma) :=
  long (packA 0 11 0 0 (0#2 ++ ma) xd 6) rfl rfl rfl (long_packA ..) (by
    rw [fields32_packA]; simp only [decodeG, decodeVxl, ifUnused, aFx_packA, aFn_packA, aMk_packA, gRb_packA, gRa_packA, gRd_packA, gMaj_packA, part0, part1, part2, part3, part4, part5, part6, part7, part8, part9, part10, part11, part12, part13, part14, part15, part16, part17, part18, bitHi, bitLo, bitHi0, bitLo0, bitHi1, bitLo1, bit4, bit4z, bit4o, bit0, only, halves]; simp)

theorem mset (md : BitVec 3) (imm : BitVec 8) : Statement (.mset md imm) :=
  long (packA 0 12 0 (0#2 ++ imm.extractLsb' 5 3) (imm.extractLsb' 0 5) (0#2 ++ md) 6) rfl rfl rfl (long_packA ..) (by
    rw [fields32_packA]; simp only [decodeG, decodeVxl, ifUnused, aFx_packA, aFn_packA, aMk_packA, gRb_packA, gRa_packA, gRd_packA, gMaj_packA, part0, part1, part2, part3, part4, part5, part6, part7, part8, part9, part10, part11, part12, part13, part14, part15, part16, part17, part18, bitHi, bitLo, bitHi0, bitLo0, bitHi1, bitLo1, bit4, bit4z, bit4o, bit0, only, halves]; simp)

theorem vfcvt (from_ : Bool) (rm : BitVec 3) (sat : Bool) (fmt : BitVec 4) (vd va : Reg) : Statement (.vfcvt from_ rm sat fmt vd va) :=
  long (packA (0#1 ++ BitVec.ofBool from_) 13 rm (BitVec.ofBool sat ++ fmt) va vd 6) rfl rfl rfl (long_packA ..) (by
    rw [fields32_packA]; simp only [decodeG, decodeVxl, ifUnused, aFx_packA, aFn_packA, aMk_packA, gRb_packA, gRa_packA, gRd_packA, gMaj_packA, part0, part1, part2, part3, part4, part5, part6, part7, part8, part9, part10, part11, part12, part13, part14, part15, part16, part17, part18, bitHi, bitLo, bitHi0, bitLo0, bitHi1, bitLo1, bit4, bit4z, bit4o, bit0, only, halves]; simp)

theorem vfadd (mk : BitVec 3) (vd va vb : Reg) : Statement (.vfadd mk vd va vb) :=
  long (packA 0 0 mk vb va vd 7) rfl rfl rfl (long_packA ..) (by
    rw [fields32_packA]; simp only [decodeG, decodeVfp, ifUnused, aFx_packA, aFn_packA, aMk_packA, gRb_packA, gRa_packA, gRd_packA, gMaj_packA]; simp)

theorem vfsub (mk : BitVec 3) (vd va vb : Reg) : Statement (.vfsub mk vd va vb) :=
  long (packA 0 1 mk vb va vd 7) rfl rfl rfl (long_packA ..) (by
    rw [fields32_packA]; simp only [decodeG, decodeVfp, ifUnused, aFx_packA, aFn_packA, aMk_packA, gRb_packA, gRa_packA, gRd_packA, gMaj_packA]; simp)

theorem vfmul (mk : BitVec 3) (vd va vb : Reg) : Statement (.vfmul mk vd va vb) :=
  long (packA 0 2 mk vb va vd 7) rfl rfl rfl (long_packA ..) (by
    rw [fields32_packA]; simp only [decodeG, decodeVfp, ifUnused, aFx_packA, aFn_packA, aMk_packA, gRb_packA, gRa_packA, gRd_packA, gMaj_packA]; simp)

theorem vfma (mk : BitVec 3) (vd va vb : Reg) : Statement (.vfma mk vd va vb) :=
  long (packA 0 3 mk vb va vd 7) rfl rfl rfl (long_packA ..) (by
    rw [fields32_packA]; simp only [decodeG, decodeVfp, ifUnused, aFx_packA, aFn_packA, aMk_packA, gRb_packA, gRa_packA, gRd_packA, gMaj_packA]; simp)

theorem vfmin (mk : BitVec 3) (vd va vb : Reg) : Statement (.vfmin mk vd va vb) :=
  long (packA 0 4 mk vb va vd 7) rfl rfl rfl (long_packA ..) (by
    rw [fields32_packA]; simp only [decodeG, decodeVfp, ifUnused, aFx_packA, aFn_packA, aMk_packA, gRb_packA, gRa_packA, gRd_packA, gMaj_packA]; simp)

theorem vfmax (mk : BitVec 3) (vd va vb : Reg) : Statement (.vfmax mk vd va vb) :=
  long (packA 0 5 mk vb va vd 7) rfl rfl rfl (long_packA ..) (by
    rw [fields32_packA]; simp only [decodeG, decodeVfp, ifUnused, aFx_packA, aFn_packA, aMk_packA, gRb_packA, gRa_packA, gRd_packA, gMaj_packA]; simp)

theorem vfabs (mk : BitVec 3) (vd va : Reg) : Statement (.vfabs mk vd va) :=
  long (packA 0 6 mk 0 va vd 7) rfl rfl rfl (long_packA ..) (by
    rw [fields32_packA]; simp only [decodeG, decodeVfp, ifUnused, aFx_packA, aFn_packA, aMk_packA, gRb_packA, gRa_packA, gRd_packA, gMaj_packA]; simp)

theorem vfneg (mk : BitVec 3) (vd va : Reg) : Statement (.vfneg mk vd va) :=
  long (packA 0 7 mk 0 va vd 7) rfl rfl rfl (long_packA ..) (by
    rw [fields32_packA]; simp only [decodeG, decodeVfp, ifUnused, aFx_packA, aFn_packA, aMk_packA, gRb_packA, gRa_packA, gRd_packA, gMaj_packA]; simp)

theorem vfcmp (cc : BitVec 2) (mk md : BitVec 3) (va vb : Reg) : Statement (.vfcmp cc mk md va vb) :=
  long (packA cc 8 mk vb va (0#2 ++ md) 7) rfl rfl rfl (long_packA ..) (by
    rw [fields32_packA]; simp only [decodeG, decodeVfp, ifUnused, aFx_packA, aFn_packA, aMk_packA, gRb_packA, gRa_packA, gRd_packA, gMaj_packA, part0, part1, part2, part3, part4, part5, part6, part7, part8, part9, part10, part11, part12, part13, part14, part15, part16, part17, part18, bitHi, bitLo, bitHi0, bitLo0, bitHi1, bitLo1, bit4, bit4z, bit4o, bit0, only, halves]; simp)

theorem vfred (op : BitVec 2) (mk : BitVec 3) (xd va : Reg) : Statement (.vfred op mk xd va) :=
  long (packA op 9 mk 0 va xd 7) rfl rfl rfl (long_packA ..) (by
    rw [fields32_packA]; simp only [decodeG, decodeVfp, ifUnused, aFx_packA, aFn_packA, aMk_packA, gRb_packA, gRa_packA, gRd_packA, gMaj_packA]; simp)

theorem vexp (mk : BitVec 3) (vd va : Reg) : Statement (.vexp mk vd va) :=
  long (packA 0 10 mk 0 va vd 7) rfl rfl rfl (long_packA ..) (by
    rw [fields32_packA]; simp only [decodeG, decodeVfp, ifUnused, aFx_packA, aFn_packA, aMk_packA, gRb_packA, gRa_packA, gRd_packA, gMaj_packA]; simp)

theorem vexpd (mk : BitVec 3) (vd va vb : Reg) : Statement (.vexpd mk vd va vb) :=
  long (packA 0 11 mk vb va vd 7) rfl rfl rfl (long_packA ..) (by
    rw [fields32_packA]; simp only [decodeG, decodeVfp, ifUnused, aFx_packA, aFn_packA, aMk_packA, gRb_packA, gRa_packA, gRd_packA, gMaj_packA]; simp)

theorem vlog2 (mk : BitVec 3) (vd va : Reg) : Statement (.vlog2 mk vd va) :=
  long (packA 0 12 mk 0 va vd 7) rfl rfl rfl (long_packA ..) (by
    rw [fields32_packA]; simp only [decodeG, decodeVfp, ifUnused, aFx_packA, aFn_packA, aMk_packA, gRb_packA, gRa_packA, gRd_packA, gMaj_packA]; simp)

theorem vrcp (er : Bool) (mk : BitVec 3) (vd va : Reg) : Statement (.vrcp er mk vd va) :=
  long (packA (0#1 ++ BitVec.ofBool er) 13 mk 0 va vd 7) rfl rfl rfl (long_packA ..) (by
    rw [fields32_packA]; simp only [decodeG, decodeVfp, ifUnused, aFx_packA, aFn_packA, aMk_packA, gRb_packA, gRa_packA, gRd_packA, gMaj_packA, part0, part1, part2, part3, part4, part5, part6, part7, part8, part9, part10, part11, part12, part13, part14, part15, part16, part17, part18, bitHi, bitLo, bitHi0, bitLo0, bitHi1, bitLo1, bit4, bit4z, bit4o, bit0, only, halves]; simp)

theorem vrsqrt (mk : BitVec 3) (vd va : Reg) : Statement (.vrsqrt mk vd va) :=
  long (packA 0 14 mk 0 va vd 7) rfl rfl rfl (long_packA ..) (by
    rw [fields32_packA]; simp only [decodeG, decodeVfp, ifUnused, aFx_packA, aFn_packA, aMk_packA, gRb_packA, gRa_packA, gRd_packA, gMaj_packA]; simp)

theorem vhare (mk : BitVec 3) (vd xa xb : Reg) : Statement (.vhare mk vd xa xb) :=
  long (packA 0 15 mk xb xa vd 7) rfl rfl rfl (long_packA ..) (by
    rw [fields32_packA]; simp only [decodeG, decodeVfp, ifUnused, aFx_packA, aFn_packA, aMk_packA, gRb_packA, gRa_packA, gRd_packA, gMaj_packA]; simp)

theorem vld (la : BitVec 4) (off : BitVec 5) (mk : BitVec 3) (vd xb : Reg) : Statement (.vld la off mk vd xb) :=
  long (packV la off 0 mk xb vd 9) rfl rfl rfl (long_packV ..) (by
    rw [fields32_packV]; simp only [decodeG, decodeVmem, ifUnused, gRa_packV, gRd_packV, gMaj_packV, fLa_packV, vOff_packV, vFn_packV, vMk_packV]; simp)

theorem vst (la : BitVec 4) (off : BitVec 5) (mk : BitVec 3) (vd xb : Reg) : Statement (.vst la off mk vd xb) :=
  long (packV la off 1 mk xb vd 9) rfl rfl rfl (long_packV ..) (by
    rw [fields32_packV]; simp only [decodeG, decodeVmem, ifUnused, gRa_packV, gRd_packV, gMaj_packV, fLa_packV, vOff_packV, vFn_packV, vMk_packV]; simp)

theorem vldc (la : BitVec 4) (g : BitVec 4) (mk : BitVec 3) (vd xb : Reg) : Statement (.vldc la g mk vd xb) :=
  long (packV la (0#1 ++ g) 2 mk xb vd 9) rfl rfl rfl (long_packV ..) (by
    rw [fields32_packV]; simp only [decodeG, decodeVmem, ifUnused, gRa_packV, gRd_packV, gMaj_packV, fLa_packV, vOff_packV, vFn_packV, vMk_packV, part0, part1, part2, part3, part4, part5, part6, part7, part8, part9, part10, part11, part12, part13, part14, part15, part16, part17, part18, bitHi, bitLo, bitHi0, bitLo0, bitHi1, bitLo1, bit4, bit4z, bit4o, bit0, only, halves]; simp)

theorem vstc (la : BitVec 4) (g : BitVec 4) (mk : BitVec 3) (vd xb : Reg) : Statement (.vstc la g mk vd xb) :=
  long (packV la (0#1 ++ g) 3 mk xb vd 9) rfl rfl rfl (long_packV ..) (by
    rw [fields32_packV]; simp only [decodeG, decodeVmem, ifUnused, gRa_packV, gRd_packV, gMaj_packV, fLa_packV, vOff_packV, vFn_packV, vMk_packV, part0, part1, part2, part3, part4, part5, part6, part7, part8, part9, part10, part11, part12, part13, part14, part15, part16, part17, part18, bitHi, bitLo, bitHi0, bitLo0, bitHi1, bitLo1, bit4, bit4z, bit4o, bit0, only, halves]; simp)

theorem resld (la : BitVec 4) (slot : BitVec 3) (xa : Reg) : Statement (.resld la slot xa) :=
  long (packT la 0 slot 0 xa 0 10) rfl rfl rfl (long_packT ..) (by
    rw [fields32_packT]; simp only [decodeG, decodeMat, ifUnused, gRa_packT, gRd_packT, gMaj_packT, fLa_packT, eFn_packT, eRes_packT, gAcc_packT]; simp)

/-- The nine values of fn that the row does not share with `resld` but for one (R237). -/
theorem resldSparse (la : BitVec 4) (pat : BitVec 4) (slot : BitVec 3) (xa : Reg) : Statement (.resldSparse la pat slot xa) := by
  intro hw
  have h : 1 ≤ pat.toNat ∧ pat.toNat ≤ 8 := of_decide_eq_true hw
  have key : decodeFields32 (packT la (0#1 ++ pat) slot 0 xa 0 10) = .ok (.resldSparse la pat slot xa) := by
    rw [fields32_packT]
    have e : pat = 1 ∨ pat = 2 ∨ pat = 3 ∨ pat = 4 ∨ pat = 5 ∨ pat = 6 ∨ pat = 7 ∨ pat = 8 := by bv_omega
    rcases e with e | e | e | e | e | e | e | e <;> subst e <;> simp [decodeG, decodeMat, ifUnused]
  exact long (packT la (0#1 ++ pat) slot 0 xa 0 10) rfl rfl rfl (long_packT ..) key hw

theorem cbld (la : BitVec 4) (xa : Reg) : Statement (.cbld la xa) :=
  long (packT la 9 0 0 xa 0 10) rfl rfl rfl (long_packT ..) (by
    rw [fields32_packT]; simp only [decodeG, decodeMat, ifUnused, gRa_packT, gRd_packT, gMaj_packT, fLa_packT, eFn_packT, eRes_packT, gAcc_packT]; simp)

theorem tzero (la : BitVec 4) (int32 : Bool) (acc : BitVec 2) : Statement (.tzero la int32 acc) :=
  long (packT la 10 (0#2 ++ BitVec.ofBool int32) acc 0 0 10) rfl rfl rfl (long_packT ..) (by
    rw [fields32_packT]; simp only [decodeG, decodeMat, ifUnused, gRa_packT, gRd_packT, gMaj_packT, fLa_packT, eFn_packT, eRes_packT, gAcc_packT, part0, part1, part2, part3, part4, part5, part6, part7, part8, part9, part10, part11, part12, part13, part14, part15, part16, part17, part18, bitHi, bitLo, bitHi0, bitLo0, bitHi1, bitLo1, bit4, bit4z, bit4o, bit0, only, halves]; simp)

theorem tload (la : BitVec 4) (int32 : Bool) (acc : BitVec 2) (xa : Reg) : Statement (.tload la int32 acc xa) :=
  long (packT la 11 (0#2 ++ BitVec.ofBool int32) acc xa 0 10) rfl rfl rfl (long_packT ..) (by
    rw [fields32_packT]; simp only [decodeG, decodeMat, ifUnused, gRa_packT, gRd_packT, gMaj_packT, fLa_packT, eFn_packT, eRes_packT, gAcc_packT, part0, part1, part2, part3, part4, part5, part6, part7, part8, part9, part10, part11, part12, part13, part14, part15, part16, part17, part18, bitHi, bitLo, bitHi0, bitLo0, bitHi1, bitLo1, bit4, bit4z, bit4o, bit0, only, halves]; simp)

theorem tcov (la : BitVec 4) (xd : Reg) (acc : BitVec 2) : Statement (.tcov la xd acc) :=
  long (packT la 12 0 acc 0 xd 10) rfl rfl rfl (long_packT ..) (by
    rw [fields32_packT]; simp only [decodeG, decodeMat, ifUnused, gRa_packT, gRd_packT, gMaj_packT, fLa_packT, eFn_packT, eRes_packT, gAcc_packT]; simp)

theorem tstat (la : BitVec 4) (xd : Reg) (acc : BitVec 2) : Statement (.tstat la xd acc) :=
  long (packT la 13 0 acc 0 xd 10) rfl rfl rfl (long_packT ..) (by
    rw [fields32_packT]; simp only [decodeG, decodeMat, ifUnused, gRa_packT, gRd_packT, gMaj_packT, fLa_packT, eFn_packT, eRes_packT, gAcc_packT]; simp)

theorem tmov (la : BitVec 4) (accd accs : BitVec 2) : Statement (.tmov la accd accs) :=
  long (packT la 14 0 accd (0#3 ++ accs) 0 10) rfl rfl rfl (long_packT ..) (by
    rw [fields32_packT]; simp only [decodeG, decodeMat, ifUnused, gRa_packT, gRd_packT, gMaj_packT, fLa_packT, eFn_packT, eRes_packT, gAcc_packT, part0, part1, part2, part3, part4, part5, part6, part7, part8, part9, part10, part11, part12, part13, part14, part15, part16, part17, part18, bitHi, bitLo, bitHi0, bitLo0, bitHi1, bitLo1, bit4, bit4z, bit4o, bit0, only, halves]; simp)

theorem tdrain (la : BitVec 4) (sat : Bool) (rm : BitVec 3) (fmt : BitVec 4) (acc : BitVec 2) (xd xb : Reg) : Statement (.tdrain la sat rm fmt acc xd xb) :=
  long (packD la (BitVec.ofBool sat) rm fmt acc xb xd 11) rfl rfl rfl (long_packD ..) (by
    rw [fields32_packD]; simp only [decodeG, decodeDrn, ifUnused, gRa_packD, gRd_packD, gMaj_packD, fLa_packD, gAcc_packD, dSat_packD, dRm_packD, dFmt_packD]; simp)

theorem fship (la : BitVec 4) (op : BitVec 6) (xp : BitVec 4) (xd xb : Reg) : Statement (.fship la op xp xd xb) :=
  long (packF la op xp xb xd 8) rfl rfl rfl (long_packF ..) (by
    rw [fields32_packF]; simp only [decodeG, decodeShip, ifUnused, gRa_packF, gRd_packF, gMaj_packF, fLa_packF, fOp_packF, fXp_packF]; simp)

theorem cpy (la : BitVec 4) (xd xa xb : Reg) : Statement (.cpy la xd xa xb) :=
  long (packE la 0 xb xa xd 12) rfl rfl rfl (long_packE ..) (by
    rw [fields32_packE]; simp only [decodeG, decodeEng, ifUnused, gRb_packE, gRa_packE, gRd_packE, gMaj_packE, fLa_packE, eFn_packE]; simp)

theorem cpy2 (la : BitVec 4) (xd xa xb : Reg) : Statement (.cpy2 la xd xa xb) :=
  long (packE la 1 xb xa xd 12) rfl rfl rfl (long_packE ..) (by
    rw [fields32_packE]; simp only [decodeG, decodeEng, ifUnused, gRb_packE, gRa_packE, gRd_packE, gMaj_packE, fLa_packE, eFn_packE]; simp)

theorem gath (la : BitVec 4) (xd xa xb : Reg) : Statement (.gath la xd xa xb) :=
  long (packE la 2 xb xa xd 12) rfl rfl rfl (long_packE ..) (by
    rw [fields32_packE]; simp only [decodeG, decodeEng, ifUnused, gRb_packE, gRa_packE, gRd_packE, gMaj_packE, fLa_packE, eFn_packE]; simp)

theorem scat (la : BitVec 4) (xd xa xb : Reg) : Statement (.scat la xd xa xb) :=
  long (packE la 3 xb xa xd 12) rfl rfl rfl (long_packE ..) (by
    rw [fields32_packE]; simp only [decodeG, decodeEng, ifUnused, gRb_packE, gRa_packE, gRd_packE, gMaj_packE, fLa_packE, eFn_packE]; simp)

theorem pub (la : BitVec 4) (xd xa xb : Reg) : Statement (.pub la xd xa xb) :=
  long (packE la 4 xb xa xd 12) rfl rfl rfl (long_packE ..) (by
    rw [fields32_packE]; simp only [decodeG, decodeEng, ifUnused, gRb_packE, gRa_packE, gRd_packE, gMaj_packE, fLa_packE, eFn_packE]; simp)

theorem wptr (la : BitVec 4) (xd xa xb : Reg) : Statement (.wptr la xd xa xb) :=
  long (packE la 5 xb xa xd 12) rfl rfl rfl (long_packE ..) (by
    rw [fields32_packE]; simp only [decodeG, decodeEng, ifUnused, gRb_packE, gRa_packE, gRd_packE, gMaj_packE, fLa_packE, eFn_packE]; simp)

theorem jwait (la : BitVec 4) (xd xa : Reg) : Statement (.jwait la xd xa) :=
  long (packE la 6 0 xa xd 12) rfl rfl rfl (long_packE ..) (by
    rw [fields32_packE]; simp only [decodeG, decodeEng, ifUnused, gRb_packE, gRa_packE, gRd_packE, gMaj_packE, fLa_packE, eFn_packE]; simp)

theorem jpoll (la : BitVec 4) (xd xa : Reg) : Statement (.jpoll la xd xa) :=
  long (packE la 7 0 xa xd 12) rfl rfl rfl (long_packE ..) (by
    rw [fields32_packE]; simp only [decodeG, decodeEng, ifUnused, gRb_packE, gRa_packE, gRd_packE, gMaj_packE, fLa_packE, eFn_packE]; simp)

theorem cut (la : BitVec 4) (xd xa : Reg) : Statement (.cut la xd xa) :=
  long (packE la 8 0 xa xd 12) rfl rfl rfl (long_packE ..) (by
    rw [fields32_packE]; simp only [decodeG, decodeEng, ifUnused, gRb_packE, gRa_packE, gRd_packE, gMaj_packE, fLa_packE, eFn_packE]; simp)

theorem cocut (la : BitVec 4) (xd xa : Reg) : Statement (.cocut la xd xa) :=
  long (packE la 9 0 xa xd 12) rfl rfl rfl (long_packE ..) (by
    rw [fields32_packE]; simp only [decodeG, decodeEng, ifUnused, gRb_packE, gRa_packE, gRd_packE, gMaj_packE, fLa_packE, eFn_packE]; simp)

theorem kvwalk (la : BitVec 4) (xd xa xb : Reg) : Statement (.kvwalk la xd xa xb) :=
  long (packE la 10 xb xa xd 12) rfl rfl rfl (long_packE ..) (by
    rw [fields32_packE]; simp only [decodeG, decodeEng, ifUnused, gRb_packE, gRa_packE, gRd_packE, gMaj_packE, fLa_packE, eFn_packE]; simp)

theorem sqk (la : BitVec 4) (xd xa xb : Reg) : Statement (.sqk la xd xa xb) :=
  long (packE la 11 xb xa xd 12) rfl rfl rfl (long_packE ..) (by
    rw [fields32_packE]; simp only [decodeG, decodeEng, ifUnused, gRb_packE, gRa_packE, gRd_packE, gMaj_packE, fLa_packE, eFn_packE]; simp)

theorem sqarm (la : BitVec 4) (xd xa xb : Reg) : Statement (.sqarm la xd xa xb) :=
  long (packE la 12 xb xa xd 12) rfl rfl rfl (long_packE ..) (by
    rw [fields32_packE]; simp only [decodeG, decodeEng, ifUnused, gRb_packE, gRa_packE, gRd_packE, gMaj_packE, fLa_packE, eFn_packE]; simp)

theorem sqoff (la : BitVec 4) (xd : Reg) : Statement (.sqoff la xd) :=
  long (packE la 13 0 0 xd 12) rfl rfl rfl (long_packE ..) (by
    rw [fields32_packE]; simp only [decodeG, decodeEng, ifUnused, gRb_packE, gRa_packE, gRd_packE, gMaj_packE, fLa_packE, eFn_packE]; simp)

theorem sqpf (ya : Reg) : Statement (.sqpf ya) :=
  long (packE 0 14 0 ya 0 12) rfl rfl rfl (long_packE ..) (by
    rw [fields32_packE]; simp only [decodeG, decodeEng, ifUnused, gRb_packE, gRa_packE, gRd_packE, gMaj_packE, fLa_packE, eFn_packE]; simp)

theorem ldwFf (la : BitVec 4) (order : BitVec 2) (scope : BitVec 3) (xd xb : Reg) : Statement (.ldwFf la order scope xd xb) :=
  long (packE la 0 (order ++ scope) xb xd 13) rfl rfl rfl (long_packE ..) (by
    rw [fields32_packE]; simp only [decodeG, decodeSync, ifUnused, gRb_packE, gRa_packE, gRd_packE, gMaj_packE, fLa_packE, eFn_packE, part0, part1, part2, part3, part4, part5, part6, part7, part8, part9, part10, part11, part12, part13, part14, part15, part16, part17, part18, bitHi, bitLo, bitHi0, bitLo0, bitHi1, bitLo1, bit4, bit4z, bit4o, bit0, only, halves]; simp)

theorem ldwFe (la : BitVec 4) (order : BitVec 2) (scope : BitVec 3) (xd xb : Reg) : Statement (.ldwFe la order scope xd xb) :=
  long (packE la 1 (order ++ scope) xb xd 13) rfl rfl rfl (long_packE ..) (by
    rw [fields32_packE]; simp only [decodeG, decodeSync, ifUnused, gRb_packE, gRa_packE, gRd_packE, gMaj_packE, fLa_packE, eFn_packE, part0, part1, part2, part3, part4, part5, part6, part7, part8, part9, part10, part11, part12, part13, part14, part15, part16, part17, part18, bitHi, bitLo, bitHi0, bitLo0, bitHi1, bitLo1, bit4, bit4z, bit4o, bit0, only, halves]; simp)

theorem ldwNw (la : BitVec 4) (order : BitVec 2) (scope : BitVec 3) (xd xb : Reg) : Statement (.ldwNw la order scope xd xb) :=
  long (packE la 2 (order ++ scope) xb xd 13) rfl rfl rfl (long_packE ..) (by
    rw [fields32_packE]; simp only [decodeG, decodeSync, ifUnused, gRb_packE, gRa_packE, gRd_packE, gMaj_packE, fLa_packE, eFn_packE, part0, part1, part2, part3, part4, part5, part6, part7, part8, part9, part10, part11, part12, part13, part14, part15, part16, part17, part18, bitHi, bitLo, bitHi0, bitLo0, bitHi1, bitLo1, bit4, bit4z, bit4o, bit0, only, halves]; simp)

theorem stwEf (la : BitVec 4) (order : BitVec 2) (scope : BitVec 3) (xs xb : Reg) : Statement (.stwEf la order scope xs xb) :=
  long (packE la 3 (order ++ scope) xb xs 13) rfl rfl rfl (long_packE ..) (by
    rw [fields32_packE]; simp only [decodeG, decodeSync, ifUnused, gRb_packE, gRa_packE, gRd_packE, gMaj_packE, fLa_packE, eFn_packE, part0, part1, part2, part3, part4, part5, part6, part7, part8, part9, part10, part11, part12, part13, part14, part15, part16, part17, part18, bitHi, bitLo, bitHi0, bitLo0, bitHi1, bitLo1, bit4, bit4z, bit4o, bit0, only, halves]; simp)

theorem stwF (la : BitVec 4) (order : BitVec 2) (scope : BitVec 3) (xs xb : Reg) : Statement (.stwF la order scope xs xb) :=
  long (packE la 4 (order ++ scope) xb xs 13) rfl rfl rfl (long_packE ..) (by
    rw [fields32_packE]; simp only [decodeG, decodeSync, ifUnused, gRb_packE, gRa_packE, gRd_packE, gMaj_packE, fLa_packE, eFn_packE, part0, part1, part2, part3, part4, part5, part6, part7, part8, part9, part10, part11, part12, part13, part14, part15, part16, part17, part18, bitHi, bitLo, bitHi0, bitLo0, bitHi1, bitLo1, bit4, bit4z, bit4o, bit0, only, halves]; simp)

theorem purge (la : BitVec 4) (order : BitVec 2) (scope : BitVec 3) (xb : Reg) : Statement (.purge la order scope xb) :=
  long (packE la 5 (order ++ scope) xb 0 13) rfl rfl rfl (long_packE ..) (by
    rw [fields32_packE]; simp only [decodeG, decodeSync, ifUnused, gRb_packE, gRa_packE, gRd_packE, gMaj_packE, fLa_packE, eFn_packE, part0, part1, part2, part3, part4, part5, part6, part7, part8, part9, part10, part11, part12, part13, part14, part15, part16, part17, part18, bitHi, bitLo, bitHi0, bitLo0, bitHi1, bitLo1, bit4, bit4z, bit4o, bit0, only, halves]; simp)

theorem mcst (la : BitVec 4) (xv xm xb : Reg) : Statement (.mcst la xv xm xb) :=
  long (packE la 6 xm xb xv 13) rfl rfl rfl (long_packE ..) (by
    rw [fields32_packE]; simp only [decodeG, decodeSync, ifUnused, gRb_packE, gRa_packE, gRd_packE, gMaj_packE, fLa_packE, eFn_packE]; simp)

theorem pref (la : BitVec 4) (xb : Reg) : Statement (.pref la xb) :=
  long (packE la 7 0 xb 0 13) rfl rfl rfl (long_packE ..) (by
    rw [fields32_packE]; simp only [decodeG, decodeSync, ifUnused, gRb_packE, gRa_packE, gRd_packE, gMaj_packE, fLa_packE, eFn_packE]; simp)

theorem amoAddW (la : BitVec 4) (xd xv xb : Reg) : Statement (.amoAddW la xd xv xb) :=
  long (packE la 8 xv xb xd 13) rfl rfl rfl (long_packE ..) (by
    rw [fields32_packE]; simp only [decodeG, decodeSync, ifUnused, gRb_packE, gRa_packE, gRd_packE, gMaj_packE, fLa_packE, eFn_packE]; simp)

theorem amoAndW (la : BitVec 4) (xd xv xb : Reg) : Statement (.amoAndW la xd xv xb) :=
  long (packE la 9 xv xb xd 13) rfl rfl rfl (long_packE ..) (by
    rw [fields32_packE]; simp only [decodeG, decodeSync, ifUnused, gRb_packE, gRa_packE, gRd_packE, gMaj_packE, fLa_packE, eFn_packE]; simp)

theorem amoOrW (la : BitVec 4) (xd xv xb : Reg) : Statement (.amoOrW la xd xv xb) :=
  long (packE la 10 xv xb xd 13) rfl rfl rfl (long_packE ..) (by
    rw [fields32_packE]; simp only [decodeG, decodeSync, ifUnused, gRb_packE, gRa_packE, gRd_packE, gMaj_packE, fLa_packE, eFn_packE]; simp)

theorem amoXorW (la : BitVec 4) (xd xv xb : Reg) : Statement (.amoXorW la xd xv xb) :=
  long (packE la 11 xv xb xd 13) rfl rfl rfl (long_packE ..) (by
    rw [fields32_packE]; simp only [decodeG, decodeSync, ifUnused, gRb_packE, gRa_packE, gRd_packE, gMaj_packE, fLa_packE, eFn_packE]; simp)

theorem amoMinW (la : BitVec 4) (xd xv xb : Reg) : Statement (.amoMinW la xd xv xb) :=
  long (packE la 12 xv xb xd 13) rfl rfl rfl (long_packE ..) (by
    rw [fields32_packE]; simp only [decodeG, decodeSync, ifUnused, gRb_packE, gRa_packE, gRd_packE, gMaj_packE, fLa_packE, eFn_packE]; simp)

theorem amoMaxW (la : BitVec 4) (xd xv xb : Reg) : Statement (.amoMaxW la xd xv xb) :=
  long (packE la 13 xv xb xd 13) rfl rfl rfl (long_packE ..) (by
    rw [fields32_packE]; simp only [decodeG, decodeSync, ifUnused, gRb_packE, gRa_packE, gRd_packE, gMaj_packE, fLa_packE, eFn_packE]; simp)

theorem amoSwapW (la : BitVec 4) (xd xv xb : Reg) : Statement (.amoSwapW la xd xv xb) :=
  long (packE la 14 xv xb xd 13) rfl rfl rfl (long_packE ..) (by
    rw [fields32_packE]; simp only [decodeG, decodeSync, ifUnused, gRb_packE, gRa_packE, gRd_packE, gMaj_packE, fLa_packE, eFn_packE]; simp)

theorem cas (la : BitVec 4) (xd xn xb : Reg) : Statement (.cas la xd xn xb) :=
  long (packE la 15 xn xb xd 13) rfl rfl rfl (long_packE ..) (by
    rw [fields32_packE]; simp only [decodeG, decodeSync, ifUnused, gRb_packE, gRa_packE, gRd_packE, gMaj_packE, fLa_packE, eFn_packE]; simp)

theorem amoAddD (la : BitVec 4) (xd xv xb : Reg) : Statement (.amoAddD la xd xv xb) :=
  long (packE la 16 xv xb xd 13) rfl rfl rfl (long_packE ..) (by
    rw [fields32_packE]; simp only [decodeG, decodeSync, ifUnused, gRb_packE, gRa_packE, gRd_packE, gMaj_packE, fLa_packE, eFn_packE]; simp)

theorem amoAndD (la : BitVec 4) (xd xv xb : Reg) : Statement (.amoAndD la xd xv xb) :=
  long (packE la 17 xv xb xd 13) rfl rfl rfl (long_packE ..) (by
    rw [fields32_packE]; simp only [decodeG, decodeSync, ifUnused, gRb_packE, gRa_packE, gRd_packE, gMaj_packE, fLa_packE, eFn_packE]; simp)

theorem amoOrD (la : BitVec 4) (xd xv xb : Reg) : Statement (.amoOrD la xd xv xb) :=
  long (packE la 18 xv xb xd 13) rfl rfl rfl (long_packE ..) (by
    rw [fields32_packE]; simp only [decodeG, decodeSync, ifUnused, gRb_packE, gRa_packE, gRd_packE, gMaj_packE, fLa_packE, eFn_packE]; simp)

theorem amoXorD (la : BitVec 4) (xd xv xb : Reg) : Statement (.amoXorD la xd xv xb) :=
  long (packE la 19 xv xb xd 13) rfl rfl rfl (long_packE ..) (by
    rw [fields32_packE]; simp only [decodeG, decodeSync, ifUnused, gRb_packE, gRa_packE, gRd_packE, gMaj_packE, fLa_packE, eFn_packE]; simp)

theorem amoMinD (la : BitVec 4) (xd xv xb : Reg) : Statement (.amoMinD la xd xv xb) :=
  long (packE la 20 xv xb xd 13) rfl rfl rfl (long_packE ..) (by
    rw [fields32_packE]; simp only [decodeG, decodeSync, ifUnused, gRb_packE, gRa_packE, gRd_packE, gMaj_packE, fLa_packE, eFn_packE]; simp)

theorem amoMaxD (la : BitVec 4) (xd xv xb : Reg) : Statement (.amoMaxD la xd xv xb) :=
  long (packE la 21 xv xb xd 13) rfl rfl rfl (long_packE ..) (by
    rw [fields32_packE]; simp only [decodeG, decodeSync, ifUnused, gRb_packE, gRa_packE, gRd_packE, gMaj_packE, fLa_packE, eFn_packE]; simp)

theorem amoSwapD (la : BitVec 4) (xd xv xb : Reg) : Statement (.amoSwapD la xd xv xb) :=
  long (packE la 22 xv xb xd 13) rfl rfl rfl (long_packE ..) (by
    rw [fields32_packE]; simp only [decodeG, decodeSync, ifUnused, gRb_packE, gRa_packE, gRd_packE, gMaj_packE, fLa_packE, eFn_packE]; simp)

theorem cas128 (la : BitVec 4) (xd xn xb : Reg) : Statement (.cas128 la xd xn xb) :=
  long (packE la 23 xn xb xd 13) rfl rfl rfl (long_packE ..) (by
    rw [fields32_packE]; simp only [decodeG, decodeSync, ifUnused, gRb_packE, gRa_packE, gRd_packE, gMaj_packE, fLa_packE, eFn_packE]; simp)

theorem ldl (la : BitVec 4) (xd xb : Reg) : Statement (.ldl la xd xb) :=
  long (packE la 24 0 xb xd 13) rfl rfl rfl (long_packE ..) (by
    rw [fields32_packE]; simp only [decodeG, decodeSync, ifUnused, gRb_packE, gRa_packE, gRd_packE, gMaj_packE, fLa_packE, eFn_packE]; simp)

theorem stu (la : BitVec 4) (xd xv xb : Reg) : Statement (.stu la xd xv xb) :=
  long (packE la 25 xv xb xd 13) rfl rfl rfl (long_packE ..) (by
    rw [fields32_packE]; simp only [decodeG, decodeSync, ifUnused, gRb_packE, gRa_packE, gRd_packE, gMaj_packE, fLa_packE, eFn_packE]; simp)

theorem spawn (la : BitVec 4) (xc xa xb : Reg) : Statement (.spawn la xc xa xb) :=
  long (packE la 0 xb xa xc 14) rfl rfl rfl (long_packE ..) (by
    rw [fields32_packE]; simp only [decodeG, decodeSched, ifUnused, gRb_packE, gRa_packE, gRd_packE, gMaj_packE, fLa_packE, eFn_packE]; simp)

theorem join (xa : Reg) : Statement (.join xa) :=
  long (packE 0 1 0 xa 0 14) rfl rfl rfl (long_packE ..) (by
    rw [fields32_packE]; simp only [decodeG, decodeSched, ifUnused, gRb_packE, gRa_packE, gRd_packE, gMaj_packE, fLa_packE, eFn_packE]; simp)

theorem disp (la : BitVec 4) (xd xa xb : Reg) : Statement (.disp la xd xa xb) :=
  long (packE la 3 xb xa xd 14) rfl rfl rfl (long_packE ..) (by
    rw [fields32_packE]; simp only [decodeG, decodeSched, ifUnused, gRb_packE, gRa_packE, gRd_packE, gMaj_packE, fLa_packE, eFn_packE]; simp)

theorem depdec (la : BitVec 4) (xd xa : Reg) : Statement (.depdec la xd xa) :=
  long (packE la 4 0 xa xd 14) rfl rfl rfl (long_packE ..) (by
    rw [fields32_packE]; simp only [decodeG, decodeSched, ifUnused, gRb_packE, gRa_packE, gRd_packE, gMaj_packE, fLa_packE, eFn_packE]; simp)

theorem gang (size : BitVec 5) : Statement (.gang size) :=
  long (packE 0 6 size 0 0 14) rfl rfl rfl (long_packE ..) (by
    rw [fields32_packE]; simp only [decodeG, decodeSched, ifUnused, gRb_packE, gRa_packE, gRd_packE, gMaj_packE, fLa_packE, eFn_packE]; simp)

theorem park (xd xk xh : Reg) : Statement (.park xd xk xh) :=
  long (packE 0 8 xh xk xd 14) rfl rfl rfl (long_packE ..) (by
    rw [fields32_packE]; simp only [decodeG, decodeSched, ifUnused, gRb_packE, gRa_packE, gRd_packE, gMaj_packE, fLa_packE, eFn_packE]; simp)

theorem wake (la : BitVec 4) (xd xk xr : Reg) : Statement (.wake la xd xk xr) :=
  long (packE la 9 xr xk xd 14) rfl rfl rfl (long_packE ..) (by
    rw [fields32_packE]; simp only [decodeG, decodeSched, ifUnused, gRb_packE, gRa_packE, gRd_packE, gMaj_packE, fLa_packE, eFn_packE]; simp)

theorem pflush (la : BitVec 4) (xd xa xb : Reg) : Statement (.pflush la xd xa xb) :=
  long (packE la 10 xb xa xd 14) rfl rfl rfl (long_packE ..) (by
    rw [fields32_packE]; simp only [decodeG, decodeSched, ifUnused, gRb_packE, gRa_packE, gRd_packE, gMaj_packE, fLa_packE, eFn_packE]; simp)

theorem csrr (xd : Reg) (csr : BitVec 10) : Statement (.csrr xd csr) :=
  long (packS 0 csr 0 xd 15) rfl rfl rfl (long_packS ..) (by
    rw [fields32_packS]; simp only [decodeG, decodeSys, ifUnused, gRa_packS, gRd_packS, gMaj_packS, sFn_packS, sImm_packS]; simp)

theorem csrw (csr : BitVec 10) (xa : Reg) : Statement (.csrw csr xa) :=
  long (packS 1 csr xa 0 15) rfl rfl rfl (long_packS ..) (by
    rw [fields32_packS]; simp only [decodeG, decodeSys, ifUnused, gRa_packS, gRd_packS, gMaj_packS, sFn_packS, sImm_packS]; simp)

theorem csrset (xd : Reg) (csr : BitVec 10) (xa : Reg) : Statement (.csrset xd csr xa) :=
  long (packS 2 csr xa xd 15) rfl rfl rfl (long_packS ..) (by
    rw [fields32_packS]; simp only [decodeG, decodeSys, ifUnused, gRa_packS, gRd_packS, gMaj_packS, sFn_packS, sImm_packS]; simp)

theorem csrclr (xd : Reg) (csr : BitVec 10) (xa : Reg) : Statement (.csrclr xd csr xa) :=
  long (packS 3 csr xa xd 15) rfl rfl rfl (long_packS ..) (by
    rw [fields32_packS]; simp only [decodeG, decodeSys, ifUnused, gRa_packS, gRd_packS, gMaj_packS, sFn_packS, sImm_packS]; simp)

theorem trap (n : BitVec 10) : Statement (.trap n) :=
  long (packS 4 n 0 0 15) rfl rfl rfl (long_packS ..) (by
    rw [fields32_packS]; simp only [decodeG, decodeSys, ifUnused, gRa_packS, gRd_packS, gMaj_packS, sFn_packS, sImm_packS]; simp)

theorem ctxsave (xa : Reg) : Statement (.ctxsave xa) :=
  long (packS 8 0 xa 0 15) rfl rfl rfl (long_packS ..) (by
    rw [fields32_packS]; simp only [decodeG, decodeSys, ifUnused, gRa_packS, gRd_packS, gMaj_packS, sFn_packS, sImm_packS]; simp)

theorem ctxrest (xa : Reg) : Statement (.ctxrest xa) :=
  long (packS 9 0 xa 0 15) rfl rfl rfl (long_packS ..) (by
    rw [fields32_packS]; simp only [decodeG, decodeSys, ifUnused, gRa_packS, gRd_packS, gMaj_packS, sFn_packS, sImm_packS]; simp)

theorem tlbinv (xa : Reg) (n : BitVec 10) : Statement (.tlbinv xa n) :=
  long (packS 10 n xa 0 15) rfl rfl rfl (long_packS ..) (by
    rw [fields32_packS]; simp only [decodeG, decodeSys, ifUnused, gRa_packS, gRd_packS, gMaj_packS, sFn_packS, sImm_packS]; simp)

theorem idle (xd : Reg) : Statement (.idle xd) :=
  long (packS 11 0 0 xd 15) rfl rfl rfl (long_packS ..) (by
    rw [fields32_packS]; simp only [decodeG, decodeSys, ifUnused, gRa_packS, gRd_packS, gMaj_packS, sFn_packS, sImm_packS]; simp)

theorem phase (scope : BitVec 3) : Statement (.phase scope) :=
  long (packS 12 (0#5 ++ 0#2 ++ scope) 0 0 15) rfl rfl rfl (long_packS ..) (by
    rw [fields32_packS]; simp only [decodeG, decodeSys, ifUnused, gRa_packS, gRd_packS, gMaj_packS, sFn_packS, sImm_packS, part0, part1, part2, part3, part4, part5, part6, part7, part8, part9, part10, part11, part12, part13, part14, part15, part16, part17, part18, bitHi, bitLo, bitHi0, bitLo0, bitHi1, bitLo1, bit4, bit4z, bit4o, bit0, only, halves]; simp)

theorem fenceRel (scope : BitVec 3) : Statement (.fenceRel scope) :=
  long (packS 12 (0#5 ++ 1#2 ++ scope) 0 0 15) rfl rfl rfl (long_packS ..) (by
    rw [fields32_packS]; simp only [decodeG, decodeSys, ifUnused, gRa_packS, gRd_packS, gMaj_packS, sFn_packS, sImm_packS, part0, part1, part2, part3, part4, part5, part6, part7, part8, part9, part10, part11, part12, part13, part14, part15, part16, part17, part18, bitHi, bitLo, bitHi0, bitLo0, bitHi1, bitLo1, bit4, bit4z, bit4o, bit0, only, halves]; simp)

theorem fenceAcq (scope : BitVec 3) : Statement (.fenceAcq scope) :=
  long (packS 12 (0#5 ++ 2#2 ++ scope) 0 0 15) rfl rfl rfl (long_packS ..) (by
    rw [fields32_packS]; simp only [decodeG, decodeSys, ifUnused, gRa_packS, gRd_packS, gMaj_packS, sFn_packS, sImm_packS, part0, part1, part2, part3, part4, part5, part6, part7, part8, part9, part10, part11, part12, part13, part14, part15, part16, part17, part18, bitHi, bitLo, bitHi0, bitLo0, bitHi1, bitLo1, bit4, bit4z, bit4o, bit0, only, halves]; simp)

theorem bar (scope : BitVec 3) (id : BitVec 5) : Statement (.bar scope id) :=
  long (packS 12 (id ++ 3#2 ++ scope) 0 0 15) rfl rfl rfl (long_packS ..) (by
    rw [fields32_packS]; simp only [decodeG, decodeSys, ifUnused, gRa_packS, gRd_packS, gMaj_packS, sFn_packS, sImm_packS, part0, part1, part2, part3, part4, part5, part6, part7, part8, part9, part10, part11, part12, part13, part14, part15, part16, part17, part18, bitHi, bitLo, bitHi0, bitLo0, bitHi1, bitLo1, bit4, bit4z, bit4o, bit0, only, halves]; simp)

theorem bcnt (scope : BitVec 3) (id : BitVec 5) (xa : Reg) : Statement (.bcnt scope id xa) :=
  long (packS 13 (id ++ 0#2 ++ scope) xa 0 15) rfl rfl rfl (long_packS ..) (by
    rw [fields32_packS]; simp only [decodeG, decodeSys, ifUnused, gRa_packS, gRd_packS, gMaj_packS, sFn_packS, sImm_packS, part0, part1, part2, part3, part4, part5, part6, part7, part8, part9, part10, part11, part12, part13, part14, part15, part16, part17, part18, bitHi, bitLo, bitHi0, bitLo0, bitHi1, bitLo1, bit4, bit4z, bit4o, bit0, only, halves]; simp)

theorem fsload (xd xa : Reg) (slot : BitVec 6) : Statement (.fsload xd xa slot) :=
  long (packS 14 (0#4 ++ slot) xa xd 15) rfl rfl rfl (long_packS ..) (by
    rw [fields32_packS]; simp only [decodeG, decodeSys, ifUnused, gRa_packS, gRd_packS, gMaj_packS, sFn_packS, sImm_packS, part0, part1, part2, part3, part4, part5, part6, part7, part8, part9, part10, part11, part12, part13, part14, part15, part16, part17, part18, bitHi, bitLo, bitHi0, bitLo0, bitHi1, bitLo1, bit4, bit4z, bit4o, bit0, only, halves]; simp)

theorem ldB (la : BitVec 4) (off : BitVec 12) (xd xb : Reg) : Statement (.ldB la off xd xb) :=
  long (packM la off xb xd 0) rfl rfl rfl (long_packM ..) (by
    rw [fields32_packM]; simp only [decodeM, ifUnused, fLa_packM, mOff_packM, mXb_packM, mRd_packM, mOp_packM]; simp)

theorem ldH (la : BitVec 4) (off : BitVec 12) (xd xb : Reg) : Statement (.ldH la off xd xb) :=
  long (packM la off xb xd 1) rfl rfl rfl (long_packM ..) (by
    rw [fields32_packM]; simp only [decodeM, ifUnused, fLa_packM, mOff_packM, mXb_packM, mRd_packM, mOp_packM]; simp)

theorem ldW (la : BitVec 4) (off : BitVec 12) (xd xb : Reg) : Statement (.ldW la off xd xb) :=
  long (packM la off xb xd 2) rfl rfl rfl (long_packM ..) (by
    rw [fields32_packM]; simp only [decodeM, ifUnused, fLa_packM, mOff_packM, mXb_packM, mRd_packM, mOp_packM]; simp)

theorem ldD (la : BitVec 4) (off : BitVec 12) (xd xb : Reg) : Statement (.ldD la off xd xb) :=
  long (packM la off xb xd 3) rfl rfl rfl (long_packM ..) (by
    rw [fields32_packM]; simp only [decodeM, ifUnused, fLa_packM, mOff_packM, mXb_packM, mRd_packM, mOp_packM]; simp)

theorem stB (la : BitVec 4) (off : BitVec 12) (xs xb : Reg) : Statement (.stB la off xs xb) :=
  long (packM la off xb xs 4) rfl rfl rfl (long_packM ..) (by
    rw [fields32_packM]; simp only [decodeM, ifUnused, fLa_packM, mOff_packM, mXb_packM, mRd_packM, mOp_packM]; simp)

theorem stH (la : BitVec 4) (off : BitVec 12) (xs xb : Reg) : Statement (.stH la off xs xb) :=
  long (packM la off xb xs 5) rfl rfl rfl (long_packM ..) (by
    rw [fields32_packM]; simp only [decodeM, ifUnused, fLa_packM, mOff_packM, mXb_packM, mRd_packM, mOp_packM]; simp)

theorem stW (la : BitVec 4) (off : BitVec 12) (xs xb : Reg) : Statement (.stW la off xs xb) :=
  long (packM la off xb xs 6) rfl rfl rfl (long_packM ..) (by
    rw [fields32_packM]; simp only [decodeM, ifUnused, fLa_packM, mOff_packM, mXb_packM, mRd_packM, mOp_packM]; simp)

theorem stD (la : BitVec 4) (off : BitVec 12) (xs xb : Reg) : Statement (.stD la off xs xb) :=
  long (packM la off xb xs 7) rfl rfl rfl (long_packM ..) (by
    rw [fields32_packM]; simp only [decodeM, ifUnused, fLa_packM, mOff_packM, mXb_packM, mRd_packM, mOp_packM]; simp)

theorem cld (la : BitVec 4) (form : BitVec 2) (fold ord : Bool) (slot : BitVec 3) (acc : BitVec 2) (xd xb xs : Reg) : Statement (.cld la form fold ord slot acc xd xb xs) :=
  long (packC la form (BitVec.ofBool fold) (BitVec.ofBool ord) slot acc xs xb xd) rfl rfl rfl (long_packC ..) (by
    rw [fields32_packC]; simp only [decodeC, ifUnused, fLa_packC, cForm_packC, cFold_packC, cOrd_packC, cRes_packC, cAcc_packC, cXs_packC, cXb_packC, cRd_packC]; simp)

theorem beq (ra rb : Reg) (off : BitVec 17) : Statement (.beq ra rb off) :=
  long (packB off rb ra 0) rfl rfl rfl (long_packB ..) (by
    rw [fields32_packB]; simp only [decodeB, ifUnused, bOff_packB, bRb_packB, bRa_packB, bCond_packB]; simp)

theorem bne (ra rb : Reg) (off : BitVec 17) : Statement (.bne ra rb off) :=
  long (packB off rb ra 1) rfl rfl rfl (long_packB ..) (by
    rw [fields32_packB]; simp only [decodeB, ifUnused, bOff_packB, bRb_packB, bRa_packB, bCond_packB]; simp)

theorem blt (ra rb : Reg) (off : BitVec 17) : Statement (.blt ra rb off) :=
  long (packB off rb ra 2) rfl rfl rfl (long_packB ..) (by
    rw [fields32_packB]; simp only [decodeB, ifUnused, bOff_packB, bRb_packB, bRa_packB, bCond_packB]; simp)

theorem bge (ra rb : Reg) (off : BitVec 17) : Statement (.bge ra rb off) :=
  long (packB off rb ra 3) rfl rfl rfl (long_packB ..) (by
    rw [fields32_packB]; simp only [decodeB, ifUnused, bOff_packB, bRb_packB, bRa_packB, bCond_packB]; simp)

theorem bltu (ra rb : Reg) (off : BitVec 17) : Statement (.bltu ra rb off) :=
  long (packB off rb ra 4) rfl rfl rfl (long_packB ..) (by
    rw [fields32_packB]; simp only [decodeB, ifUnused, bOff_packB, bRb_packB, bRa_packB, bCond_packB]; simp)

theorem bgeu (ra rb : Reg) (off : BitVec 17) : Statement (.bgeu ra rb off) :=
  long (packB off rb ra 5) rfl rfl rfl (long_packB ..) (by
    rw [fields32_packB]; simp only [decodeB, ifUnused, bOff_packB, bRb_packB, bRa_packB, bCond_packB]; simp)

theorem jal (xd : Reg) (off : BitVec 17) : Statement (.jal xd off) :=
  long (packB off 0 xd 6) rfl rfl rfl (long_packB ..) (by
    rw [fields32_packB]; simp only [decodeB, ifUnused, bOff_packB, bRb_packB, bRa_packB, bCond_packB]; simp)

theorem loop (xs : Reg) (len : BitVec 17) : Statement (.loop xs len) :=
  long (packB len 0 xs 7) rfl rfl rfl (long_packB ..) (by
    rw [fields32_packB]; simp only [decodeB, ifUnused, bOff_packB, bRb_packB, bRa_packB, bCond_packB]; simp)

theorem loopm (xb : Reg) (off : BitVec 4) (len : BitVec 17) : Statement (.loopm xb off len) :=
  long (packB len (1#1 ++ off) xb 7) rfl rfl rfl (long_packB ..) (by
    rw [fields32_packB]; simp only [decodeB, ifUnused, bOff_packB, bRb_packB, bRa_packB, bCond_packB, part0, part1, part2, part3, part4, part5, part6, part7, part8, part9, part10, part11, part12, part13, part14, part15, part16, part17, part18, bitHi, bitLo, bitHi0, bitLo0, bitHi1, bitLo1, bit4, bit4z, bit4o, bit0, only, halves]; simp)

/-- The repeat prefix (R51). -/
theorem rep (b a d : Bool) (count : BitVec 6) : Statement (.rep b a d count) := by
  have key : ∀ (b a d : Bool), (0#5 ++ BitVec.ofBool b ++ BitVec.ofBool a ++ BitVec.ofBool d ++ count ++ 2#2 : Half).getLsbD 0 = false ∧
      decode16 (0#5 ++ BitVec.ofBool b ++ BitVec.ofBool a ++ BitVec.ofBool d ++ count ++ 2#2) = .ok (.rep b a d count) := by
    revert count; decide
  exact short _ rfl rfl (key b a d).1 (key b a d).2

theorem vor16 (mk : BitVec 2) (vd va : BitVec 4) : Statement (.vor16 mk vd va) :=
  compact mk va vd 0#4 rfl rfl (by
    obtain ⟨-, -, h1, h2, h3, h4⟩ := compact_fields mk va vd 0#4
    simp only [decodeCompact, h1, h2, h3, h4])

theorem vadd16 (mk : BitVec 2) (vd va : BitVec 4) : Statement (.vadd16 mk vd va) :=
  compact mk va vd 1#4 rfl rfl (by
    obtain ⟨-, -, h1, h2, h3, h4⟩ := compact_fields mk va vd 1#4
    simp only [decodeCompact, h1, h2, h3, h4])

theorem vsub16 (mk : BitVec 2) (vd va : BitVec 4) : Statement (.vsub16 mk vd va) :=
  compact mk va vd 2#4 rfl rfl (by
    obtain ⟨-, -, h1, h2, h3, h4⟩ := compact_fields mk va vd 2#4
    simp only [decodeCompact, h1, h2, h3, h4])

theorem vmul16 (mk : BitVec 2) (vd va : BitVec 4) : Statement (.vmul16 mk vd va) :=
  compact mk va vd 3#4 rfl rfl (by
    obtain ⟨-, -, h1, h2, h3, h4⟩ := compact_fields mk va vd 3#4
    simp only [decodeCompact, h1, h2, h3, h4])

theorem vand16 (mk : BitVec 2) (vd va : BitVec 4) : Statement (.vand16 mk vd va) :=
  compact mk va vd 4#4 rfl rfl (by
    obtain ⟨-, -, h1, h2, h3, h4⟩ := compact_fields mk va vd 4#4
    simp only [decodeCompact, h1, h2, h3, h4])

theorem vxor16 (mk : BitVec 2) (vd va : BitVec 4) : Statement (.vxor16 mk vd va) :=
  compact mk va vd 5#4 rfl rfl (by
    obtain ⟨-, -, h1, h2, h3, h4⟩ := compact_fields mk va vd 5#4
    simp only [decodeCompact, h1, h2, h3, h4])

theorem vshl16 (mk : BitVec 2) (vd va : BitVec 4) : Statement (.vshl16 mk vd va) :=
  compact mk va vd 6#4 rfl rfl (by
    obtain ⟨-, -, h1, h2, h3, h4⟩ := compact_fields mk va vd 6#4
    simp only [decodeCompact, h1, h2, h3, h4])

theorem vshr16 (mk : BitVec 2) (vd va : BitVec 4) : Statement (.vshr16 mk vd va) :=
  compact mk va vd 7#4 rfl rfl (by
    obtain ⟨-, -, h1, h2, h3, h4⟩ := compact_fields mk va vd 7#4
    simp only [decodeCompact, h1, h2, h3, h4])

theorem vsra16 (mk : BitVec 2) (vd va : BitVec 4) : Statement (.vsra16 mk vd va) :=
  compact mk va vd 8#4 rfl rfl (by
    obtain ⟨-, -, h1, h2, h3, h4⟩ := compact_fields mk va vd 8#4
    simp only [decodeCompact, h1, h2, h3, h4])

theorem vmin16 (mk : BitVec 2) (vd va : BitVec 4) : Statement (.vmin16 mk vd va) :=
  compact mk va vd 9#4 rfl rfl (by
    obtain ⟨-, -, h1, h2, h3, h4⟩ := compact_fields mk va vd 9#4
    simp only [decodeCompact, h1, h2, h3, h4])

theorem vmax16 (mk : BitVec 2) (vd va : BitVec 4) : Statement (.vmax16 mk vd va) :=
  compact mk va vd 10#4 rfl rfl (by
    obtain ⟨-, -, h1, h2, h3, h4⟩ := compact_fields mk va vd 10#4
    simp only [decodeCompact, h1, h2, h3, h4])

theorem vfadd16 (mk : BitVec 2) (vd va : BitVec 4) : Statement (.vfadd16 mk vd va) :=
  compact mk va vd 11#4 rfl rfl (by
    obtain ⟨-, -, h1, h2, h3, h4⟩ := compact_fields mk va vd 11#4
    simp only [decodeCompact, h1, h2, h3, h4])

theorem vfsub16 (mk : BitVec 2) (vd va : BitVec 4) : Statement (.vfsub16 mk vd va) :=
  compact mk va vd 12#4 rfl rfl (by
    obtain ⟨-, -, h1, h2, h3, h4⟩ := compact_fields mk va vd 12#4
    simp only [decodeCompact, h1, h2, h3, h4])

theorem vfmul16 (mk : BitVec 2) (vd va : BitVec 4) : Statement (.vfmul16 mk vd va) :=
  compact mk va vd 13#4 rfl rfl (by
    obtain ⟨-, -, h1, h2, h3, h4⟩ := compact_fields mk va vd 13#4
    simp only [decodeCompact, h1, h2, h3, h4])

theorem vfmin16 (mk : BitVec 2) (vd va : BitVec 4) : Statement (.vfmin16 mk vd va) :=
  compact mk va vd 14#4 rfl rfl (by
    obtain ⟨-, -, h1, h2, h3, h4⟩ := compact_fields mk va vd 14#4
    simp only [decodeCompact, h1, h2, h3, h4])

theorem vfmax16 (mk : BitVec 2) (vd va : BitVec 4) : Statement (.vfmax16 mk vd va) :=
  compact mk va vd 15#4 rfl rfl (by
    obtain ⟨-, -, h1, h2, h3, h4⟩ := compact_fields mk va vd 15#4
    simp only [decodeCompact, h1, h2, h3, h4]; rfl)

theorem windowEndWrite (t : TId) : Statement (.windowEndWrite t) := fun _ => rfl

theorem badgerRoutineRun (op : BitVec 6) (addr a b : Dword) : Statement (.badgerRoutineRun op addr a b) := fun _ => rfl

theorem cellRebuild (key : Nat) (how : RebuildBy) : Statement (.cellRebuild key how) := fun _ => rfl

theorem softError (target : SoftTarget) (correctable : Bool) : Statement (.softError target correctable) := fun _ => rfl

theorem pageZero (addr : Dword) (sub : Bool) : Statement (.pageZero addr sub) := fun _ => rfl

theorem deferredReport (t : TId) : Statement (.deferredReport t) := fun _ => rfl

theorem preemption (launch : Nat) (t : TId) : Statement (.preemption launch t) := fun _ => rfl

theorem launchQueueRead (die : BitVec 3) (queue : BitVec 2) : Statement (.launchQueueRead die queue) := fun _ => rfl

theorem launchTaskPlace (launch : Nat) (tile : Nat) (t : TId) : Statement (.launchTaskPlace launch tile t) := fun _ => rfl

theorem takeWork (t : TId) (source : WorkSource) : Statement (.takeWork t source) := fun _ => rfl

theorem hintWalkHop (item : Nat) : Statement (.hintWalkHop item) := fun _ => rfl

theorem taskEnd (t : TId) : Statement (.taskEnd t) := fun _ => rfl

theorem completionTokenWrite (launch : Nat) : Statement (.completionTokenWrite launch) := fun _ => rfl

theorem copyJobStart (c : CId) (entry : BitVec 5) : Statement (.copyJobStart c entry) := fun _ => rfl

theorem copyJobWordWrite (c : CId) (entry : BitVec 5) (position : Nat) : Statement (.copyJobWordWrite c entry position) := fun _ => rfl

theorem shadowFrameReturn (die : BitVec 3) (frame : Nat) : Statement (.shadowFrameReturn die frame) := fun _ => rfl

theorem pubSwap (c : CId) (entry : BitVec 5) : Statement (.pubSwap c entry) := fun _ => rfl

theorem cutJobRun (c : CId) (entry : BitVec 5) : Statement (.cutJobRun c entry) := fun _ => rfl

theorem kvwalkWordWrite (c : CId) (entry : BitVec 5) : Statement (.kvwalkWordWrite c entry) := fun _ => rfl

theorem kvwalkHeaderPrefetch (c : CId) (entry : BitVec 5) : Statement (.kvwalkHeaderPrefetch c entry) := fun _ => rfl

theorem cldJobStart (c : CId) (entry : BitVec 5) : Statement (.cldJobStart c entry) := fun _ => rfl

theorem cldCellAdd (c : CId) (entry : BitVec 5) (request : BitVec 6) : Statement (.cldCellAdd c entry request) := fun _ => rfl

theorem squirrelRun (t : TId) (y1 : Dword) : Statement (.squirrelRun t y1) := fun _ => rfl

theorem hoardFill (t : TId) (cell : Dword) : Statement (.hoardFill t cell) := fun _ => rfl

theorem hoardDrop (t : TId) (cell : Dword) : Statement (.hoardDrop t cell) := fun _ => rfl

theorem denDemoteTier1 (page : Dword) : Statement (.denDemoteTier1 page) := fun _ => rfl

theorem denDemoteFlash (page : Dword) : Statement (.denDemoteFlash page) := fun _ => rfl

theorem wakeWrite (key : BitVec 20) (reply : HostReply) : Statement (.wakeWrite key reply) := fun _ => rfl

theorem denStage1Frame (key : BitVec 20) : Statement (.denStage1Frame key) := fun _ => rfl

theorem pagePromotionDone (page : Dword) : Statement (.pagePromotionDone page) := fun _ => rfl

theorem hostApertureRead (port : Bool) (offset : HostOffset) (size : Nat) : Statement (.hostApertureRead port offset size) := fun _ => rfl

theorem hostApertureWrite (port : Bool) (offset : BitVec 32) (size : Nat) (value : Dword) (relaxed : Bool) : Statement (.hostApertureWrite port offset size value relaxed) := fun _ => rfl

theorem fabricRequest (source : FabricSource) (op : FabricOp) (addr : Dword) (key : BitVec 16) (supervisor : Bool) : Statement (.fabricRequest source op addr key supervisor) := fun _ => rfl

theorem remoteFail (t : TId) : Statement (.remoteFail t) := fun _ => rfl

theorem ucieLinkFail (a b : BitVec 3) : Statement (.ucieLinkFail a b) := fun _ => rfl

theorem bootgoWrite (value : Posted Dword) : Statement (.bootgoWrite value) := fun _ => rfl

theorem modidWrite (value : Posted Dword) : Statement (.modidWrite value) := fun _ => rfl

theorem fabenWrite (value : Posted Dword) : Statement (.fabenWrite value) := fun _ => rfl

theorem doorbellWrite (die : Posted (BitVec 3)) : Statement (.doorbellWrite die) := fun _ => rfl

theorem fwtmrWrite (die : BitVec 3) (value : Posted Dword) : Statement (.fwtmrWrite die value) := fun _ => rfl

theorem fwtmrExpire (die : BitVec 3) : Statement (.fwtmrExpire die) := fun _ => rfl

theorem owlClear (u : OwlUnit) : Statement (.owlClear u) := fun _ => rfl

theorem owlLevelSample (u : OwlUnit) : Statement (.owlLevelSample u) := fun _ => rfl

theorem registerWrite (offset : BitVec 26) (value : Posted Dword) : Statement (.registerWrite offset value) := fun _ => rfl

theorem mgmtReadRegister (what : MgmtRead) : Statement (.mgmtReadRegister what) := fun _ => rfl

theorem mgmtWriteOwlctl (u : OwlUnit) (value : Dword) : Statement (.mgmtWriteOwlctl u value) := fun _ => rfl

theorem mgmtWritePwrlim (value : Dword) : Statement (.mgmtWritePwrlim value) := fun _ => rfl

theorem bootStagingBufferWrite (offset : BitVec 28) (value : Posted Byte) : Statement (.bootStagingBufferWrite offset value) := fun _ => rfl

theorem sqend : Statement (.sqend) :=
  long (packE 0 15 0 0 0 12) rfl rfl rfl (long_packE ..) (by
    rw [fields32_packE]; simp only [decodeG, decodeEng, ifUnused, gRb_packE, gRa_packE, gRd_packE, gMaj_packE, fLa_packE, eFn_packE]; simp)

theorem wfw : Statement (.wfw) :=
  long (packE 0 2 0 0 0 14) rfl rfl rfl (long_packE ..) (by
    rw [fields32_packE]; simp only [decodeG, decodeSched, ifUnused, gRb_packE, gRa_packE, gRd_packE, gMaj_packE, fLa_packE, eFn_packE]; simp)

theorem yield : Statement (.yield) :=
  long (packE 0 5 0 0 0 14) rfl rfl rfl (long_packE ..) (by
    rw [fields32_packE]; simp only [decodeG, decodeSched, ifUnused, gRb_packE, gRa_packE, gRd_packE, gMaj_packE, fLa_packE, eFn_packE]; simp)

theorem ungang : Statement (.ungang) :=
  long (packE 0 7 0 0 0 14) rfl rfl rfl (long_packE ..) (by
    rw [fields32_packE]; simp only [decodeG, decodeSched, ifUnused, gRb_packE, gRa_packE, gRd_packE, gMaj_packE, fLa_packE, eFn_packE]; simp)

theorem eret : Statement (.eret) :=
  long (packS 5 0 0 0 15) rfl rfl rfl (long_packS ..) (by
    rw [fields32_packS]; simp only [decodeG, decodeSys, ifUnused, gRa_packS, gRd_packS, gMaj_packS, sFn_packS, sImm_packS]; simp)

theorem halt : Statement (.halt) :=
  long (packS 6 0 0 0 15) rfl rfl rfl (long_packS ..) (by
    rw [fields32_packS]; simp only [decodeG, decodeSys, ifUnused, gRa_packS, gRd_packS, gMaj_packS, sFn_packS, sImm_packS]; simp)

theorem ebrk : Statement (.ebrk) :=
  long (packS 7 0 0 0 15) rfl rfl rfl (long_packS ..) (by
    rw [fields32_packS]; simp only [decodeG, decodeSys, ifUnused, gRa_packS, gRd_packS, gMaj_packS, sFn_packS, sImm_packS]; simp)

theorem powerUp : Statement (.powerUp) := fun _ => rfl

theorem mainSideReset : Statement (.mainSideReset) := fun _ => rfl

theorem bootVerifyDone : Statement (.bootVerifyDone) := fun _ => rfl

theorem spdmGetVersion : Statement (.spdmGetVersion) := fun _ => rfl

theorem spdmGetCapabilities : Statement (.spdmGetCapabilities) := fun _ => rfl

theorem spdmNegotiateAlgorithms : Statement (.spdmNegotiateAlgorithms) := fun _ => rfl

theorem spdmGetDigests : Statement (.spdmGetDigests) := fun _ => rfl

theorem spdmGetCertificate : Statement (.spdmGetCertificate) := fun _ => rfl

theorem spdmChallenge : Statement (.spdmChallenge) := fun _ => rfl

theorem spdmGetMeasurements : Statement (.spdmGetMeasurements) := fun _ => rfl

theorem mgmtAssertReset : Statement (.mgmtAssertReset) := fun _ => rfl

theorem mainSidePowerLoss : Statement (.mainSidePowerLoss) := fun _ => rfl

end Sys2Proof.Laws.RoundTrip
end

