-- ==== Sys2Proof/Laws/Translate.lean ====
section
/-! SUPPORT. What a translation, and an access's way to its bytes, can change: held leaf states, draws, idle starts, and the
lists of pages asked for or to be zeroed. -/

namespace Sys2Proof.Machine

/-- The dies but for the leaf states that they hold. -/
def SameButSpans (l l' : Lanes Die) : Prop := ∀ d, { Lanes.get l' d with spans := (Lanes.get l d).spans } = Lanes.get l d

theorem SameButSpans.refl (l : Lanes Die) : SameButSpans l l := fun _ => rfl
theorem SameButSpans.trans {a b c : Lanes Die} (h : SameButSpans a b) (k : SameButSpans b c) : SameButSpans a c := by
  intro d
  rw [← h d, ← k d]
theorem SameButSpans.set (l : Lanes Die) (die : BitVec 3) (spans : List SpanEntry) :
    SameButSpans l (Lanes.set l die { Lanes.get l die with spans := spans }) := by
  intro d
  rw [Lanes.get_set]
  by_cases h : die = d
  · subst h; simp
  · simp [h]

/-- The state of an entry that an access uses: draws, and held states of the die, may change. -/
theorem Chip.entryState_frame (c : Chip) (die : BitVec 3) (key page : Nat) (sub : Bool) :
    ∃ draws dies, SameButSpans c.dies dies ∧ (c.entryState die key page sub).2 = { c with draws := draws, dies := dies } := by
  obtain ⟨d, hd⟩ := Chip.draw_frame c 2
  unfold Chip.entryState
  simp only
  split
  · exact ⟨_, _, SameButSpans.set _ _ _, rfl⟩
  · split
    · exact ⟨_, _, SameButSpans.refl _, rfl⟩
    · rw [hd]
      split
      · exact ⟨_, _, SameButSpans.refl _, rfl⟩
      · exact ⟨_, _, SameButSpans.set _ _ _, rfl⟩

/-- Where the state held is that of the table in memory, it is the one used, and nothing changes. -/
theorem Chip.entryState_held (c : Chip) (die : BitVec 3) (key page : Nat) (sub : Bool) (e : Dword)
    (h : heldLeaf (c.die die).spans page sub = some e)
    (hm : Mem.dword c.mem (key + 8 * (page % tableEntries sub)) = e) : c.entryState die key page sub = (e, c) := by
  unfold Chip.entryState
  simp [h, hm]

/-- A translation from its L3 entry on. -/
theorem Chip.leafOf_frame (c : Chip) (die : BitVec 3) (off : Nat) (sub : Bool) (e : Dword) (p3 : Nat) :
    ∃ draws dies, SameButSpans c.dies dies ∧ (c.leafOf die off sub e p3).2 = { c with draws := draws, dies := dies } := by
  obtain ⟨dr, ds, h1, h2⟩ := Chip.entryState_frame c die (heapKey die (entryAddr e)) (off / 2 ^ 10) true
  unfold Chip.leafOf
  split
  · exact ⟨_, _, SameButSpans.refl _, rfl⟩
  · split
    · exact ⟨_, _, SameButSpans.refl _, rfl⟩
    · simp only
      split
      · exact ⟨dr, ds, h1, h2⟩
      · exact ⟨dr, ds, h1, h2⟩

/-- A walk's leaf: draws, and held states of the die, may change. -/
theorem Chip.leaf_frame (c : Chip) (die : BitVec 3) (off : Nat) (sub : Bool) :
    ∃ draws dies, SameButSpans c.dies dies ∧ (c.leaf die off sub).2 = { c with draws := draws, dies := dies } := by
  obtain ⟨d, hd⟩ := Chip.draw_frame c 2
  unfold Chip.leaf
  simp only
  split
  · exact ⟨_, _, SameButSpans.refl _, rfl⟩
  · split
    · rename_i table _
      obtain ⟨dr, ds, h1, h2⟩ := Chip.entryState_frame c die (heapKey die table) (off / 2 ^ 21) false
      generalize c.entryState die (heapKey die table) (off / 2 ^ 21) false = q at h2
      obtain ⟨e, c1⟩ := q
      simp only at h2
      subst h2
      obtain ⟨dr', ds', h3, h4⟩ := Chip.leafOf_frame { c with draws := dr, dies := ds } die off sub e (table + off / 2 ^ 21 % 32 * 8)
      exact ⟨dr', ds', h1.trans h3, h4⟩
    · split
      · exact ⟨_, _, SameButSpans.refl _, rfl⟩
      · rename_i old _
        rw [hd]
        split
        · obtain ⟨dr, ds, h1, h2⟩ := Chip.leafOf_frame { c with draws := d } die off sub old 0
          exact ⟨dr, ds, h1, h2⟩
        · exact ⟨_, _, SameButSpans.set _ _ _, rfl⟩

/-- With EN = 0 no access of the die is translated, whatever its translator holds (R86). -/
theorem Chip.leaf_off (c : Chip) (die : BitVec 3) (off : Nat) (sub : Bool) (h : (c.die die).etroot.getLsbD 0 = false) :
    c.leaf die off sub = (.fails Cause.pageAbsent, c) := by
  unfold Chip.leaf
  simp only
  rw [if_pos (by rw [h]; rfl)]

/-- A heap access. -/
theorem Chip.reachHeap_frame (c : Chip) (w : Who) (k : Kind) (die : BitVec 3) (off : Nat) :
    ∃ draws dies idle promoting zeroing, SameButSpans c.dies dies ∧ (c.reachHeap w k die off).2 =
      { c with draws := draws, dies := dies, idle := idle, promoting := promoting, zeroing := zeroing } := by
  obtain ⟨dr, ds, h1, h2⟩ := Chip.leaf_frame c die off (subPage (c.regionsOf w) die off)
  unfold Chip.reachHeap
  simp only
  generalize hq : c.leaf die off (subPage (c.regionsOf w) die off) = q
  rw [hq] at h2
  obtain ⟨wk, c1⟩ := q
  simp only at h2
  subst h2
  cases wk with
  | fails cause => exact ⟨_, _, _, _, _, h1, rfl⟩
  | leaf e p =>
    simp only
    split
    · exact ⟨_, _, _, _, _, h1, rfl⟩
    · split
      · exact ⟨_, _, _, _, _, h1, rfl⟩
      · split
        · obtain ⟨id, h3⟩ := Chip.touch_frame (Chip.askZeroing { c with draws := dr, dies := ds } _ _ _) (heapLoc die off)
          exact ⟨_, _, id, _, _, h1, h3⟩
        · obtain ⟨id, h3⟩ := Chip.touch_frame { c with draws := dr, dies := ds } (heapLoc die off)
          exact ⟨_, _, id, _, _, h1, h3⟩

/-- An access's form and its checks. -/
theorem Chip.reach_frame (g : Mgmt) (c : Chip) (w : Who) (k : Kind) (rw_ : Bool) (a : Dword) (n : Nat) :
    ∃ draws dies idle promoting zeroing, SameButSpans c.dies dies ∧ (c.reach g w k rw_ a n).2 =
      { c with draws := draws, dies := dies, idle := idle, promoting := promoting, zeroing := zeroing } := by
  have hc : ∃ draws dies idle promoting zeroing, SameButSpans c.dies dies ∧ c =
      { c with draws := draws, dies := dies, idle := idle, promoting := promoting, zeroing := zeroing } :=
    ⟨_, _, _, _, _, SameButSpans.refl _, rfl⟩
  unfold Chip.reach
  split
  · exact hc
  · split
    · exact hc
    · split <;> exact hc
  · split
    · exact hc
    · split <;> exact hc
  · split
    · split <;> exact hc
    · exact Chip.reachHeap_frame c w k _ _
  · split <;> exact hc

/-- A place of the hardware's own in the heap. -/
theorem Chip.hardwareSpot_frame (g : Mgmt) (c : Chip) (a : Dword) :
    ∃ draws dies promoting zeroing, SameButSpans c.dies dies ∧ (c.hardwareSpot g a).2 =
      { c with draws := draws, dies := dies, promoting := promoting, zeroing := zeroing } := by
  unfold Chip.hardwareSpot
  split
  · exact ⟨_, _, _, _, SameButSpans.refl _, rfl⟩
  · rename_i d off _
    obtain ⟨dr, ds, h1, h2⟩ := Chip.leaf_frame c d off false
    simp only
    generalize hq : c.leaf d off false = q
    rw [hq] at h2
    obtain ⟨wk, c1⟩ := q
    simp only at h2
    subst h2
    cases wk with
    | fails cause => exact ⟨_, _, _, _, h1, rfl⟩
    | leaf e p =>
      simp only
      split
      · exact ⟨_, _, _, _, h1, rfl⟩
      · split
        · exact ⟨_, _, _, _, h1, rfl⟩
        · exact ⟨_, _, _, _, h1, rfl⟩

/-- The two halves of a frame. -/
theorem Chip.frameSpots_frame (g : Mgmt) (c : Chip) (f : Dword) :
    ∃ draws dies promoting zeroing, SameButSpans c.dies dies ∧ (c.frameSpots g f).2 =
      { c with draws := draws, dies := dies, promoting := promoting, zeroing := zeroing } := by
  obtain ⟨dr, ds, pr, ze, h1, h2⟩ := Chip.hardwareSpot_frame g c f
  unfold Chip.frameSpots
  generalize hq : c.hardwareSpot g f = q
  rw [hq] at h2
  obtain ⟨o, c1⟩ := q
  simp only at h2
  subst h2
  cases o with
  | waits => exact ⟨_, _, _, _, h1, rfl⟩
  | gone cause => exact ⟨_, _, _, _, h1, rfl⟩
  | here a =>
    simp only
    obtain ⟨dr', ds', pr', ze', h3, h4⟩ :=
      Chip.hardwareSpot_frame g { c with draws := dr, dies := ds, promoting := pr, zeroing := ze } (f + 1024)
    generalize hq' : Chip.hardwareSpot g { c with draws := dr, dies := ds, promoting := pr, zeroing := ze } (f + 1024) = q'
    rw [hq'] at h4
    obtain ⟨o', c2⟩ := q'
    simp only at h4
    subst h4
    cases o' with
    | waits => exact ⟨_, _, _, _, h1.trans h3, rfl⟩
    | gone cause => exact ⟨_, _, _, _, h1.trans h3, rfl⟩
    | here b => exact ⟨_, _, _, _, h1.trans h3, rfl⟩

/-- An entry's write events change histories alone. -/
theorem Chip.noteEntry_frame (c : Chip) (die : BitVec 3) (p : Nat) (off : Option Nat) (before : List Host.Cell) :
    ∃ hist agents clock, c.noteEntry die p off before = { c with hist := hist, agents := agents, clock := clock } := by
  unfold Chip.noteEntry
  split
  · obtain ⟨h, a, e⟩ := Chip.noteRange_frame c (.launchUnit die) false none before (heapLoc die _) (heapKey die p) 8
    exact ⟨_, _, _, e⟩
  · exact ⟨_, _, _, rfl⟩

/-- A page's entry written: memory keeps its form, and every byte outside the entry is as before. -/
theorem Chip.setEntry_frame (c : Chip) (die : BitVec 3) (off : Nat) (sub : Bool) (f : Dword → Dword) :
    ∃ mem dies hist agents clock, SameButSpans c.dies dies ∧
      c.setEntry die off sub f = { c with mem := mem, dies := dies, hist := hist, agents := agents, clock := clock } ∧
      (mem = c.mem ∨ ∃ e p, walk c.mem die (c.die die).etroot off sub = .leaf e p ∧
        mem = Mem.write c.mem (heapKey die p) (bytesOfDword (f e))) := by
  unfold Chip.setEntry
  simp only
  split
  · rename_i e p hw
    obtain ⟨h, a, k, e1⟩ := Chip.noteEntry_frame _ die p (c.offsetOf die p) c.mem
    exact ⟨_, _, h, a, k, SameButSpans.set _ _ _, e1, Or.inr ⟨e, p, hw, rfl⟩⟩
  · exact ⟨_, _, _, _, _, SameButSpans.refl _, rfl, Or.inl rfl⟩

theorem Chip.setEntry_wf (c : Chip) (die : BitVec 3) (off : Nat) (sub : Bool) (f : Dword → Dword)
    (h : Memory.wf c.mem = true) : Memory.wf (c.setEntry die off sub f).mem = true := by
  obtain ⟨m, ds, _, _, _, _, e, h1⟩ := Chip.setEntry_frame c die off sub f
  rw [e]
  rcases h1 with rfl | ⟨e', p, _, rfl⟩
  · exact h
  · exact Memory.wf_write h _ _

end Sys2Proof.Machine
end

