-- ==== Sys2Proof/Laws/Thread.lean ====
section
/-! SUPPORT. What the shared operations of a thread's instructions do: running a meaning, completing an instruction, writing its
result, stopping it, and the entry of a handler; and what an instruction of a thread leaves of the module. -/

namespace Sys2Proof.Machine

/-! ## Running a meaning over the module -/

/-- A meaning run over the chip answers a next state that differs in the chip only. -/
theorem State.run_eq_next (s t : State) (f : Mgmt → Chip → Out) :
    s.run f = .next t ↔ ∃ c, f s.mgmt s.chip = .next c ∧ t = { s with chip := c } := by
  unfold State.run
  constructor
  · intro h
    split at h
    · rename_i c hc; cases h; exact ⟨c, hc, rfl⟩
    · cases h
    · cases h
  · rintro ⟨c, hc, rfl⟩; rw [hc]

/-- An instruction of a thread leaves the module's registers, the script and the events due. -/
theorem State.run_keeps (s t : State) (f : Mgmt → Chip → Out) (h : s.run f = .next t) :
    t.mgmt = s.mgmt ∧ t.env = s.env ∧ t.inbox = s.inbox := by
  obtain ⟨c, _, rfl⟩ := (State.run_eq_next s t f).1 h
  exact ⟨rfl, rfl, rfl⟩

theorem State.run_of_next (s : State) (f : Mgmt → Chip → Out) (c : Chip) (h : f s.mgmt s.chip = .next c) :
    s.run f = .next { s with chip := c } := (State.run_eq_next s _ f).2 ⟨c, h, rfl⟩

/-- What is done after an answer is done to its next state. -/
theorem andThen_eq_next (o : Out) (f : Chip → Out) (c : Chip) :
    andThen o f = .next c ↔ ∃ c1, o = .next c1 ∧ f c1 = .next c := by
  cases o with
  | next c1 => simp [andThen]
  | fault e => simp [andThen]
  | refused r => simp [andThen]

/-! ## Completion with nothing pending -/

/-- An instruction of a thread by itself, in no loop, completes: control goes to its successor, and nothing else changes. -/
theorem Chip.finish_alone (g : Mgmt) (c : Chip) (succ : Dword) (taken : Bool) (hr : c.t.run = .ready) (hp : c.t.pend = [])
    (hs : c.t.snaps = []) (hl : c.t.loops = []) (hrep : c.t.rep = none) (he : succ ≠ endLink) :
    c.finish g none succ taken = .next { c with t := { c.t with pc := succ } } := by
  obtain ⟨tid, t, rest⟩ := c
  obtain ⟨x, v, m, pc, loops, csr, repc, rep, run, sup, handler, pend, nextPend, task, squirrel, report, kept, snaps, returned, dropped,
    gs, gm, gl⟩ := t
  simp only at hr hp hs hl hrep
  subst hr hp hs hl hrep
  cases taken <;>
    simp [Chip.finish, Thread.complete, Thread.advance, Thread.repeats, backEdge, leaveLoops, Thread.settleWindows,
      Thread.drain, countWindows, Chip.takeSnaps, Thread.madeBackEdge, he]

/-- With nothing pending, a write of an x register changes x only. -/
theorem Thread.setX_alone (t : Thread) (r : Reg) (v : Dword) (h : t.pend = []) :
    t.setX r v = if r = 0 then t else { t with x := t.x.set r.toNat v r.isLt } := by
  unfold Thread.setX
  split
  · rfl
  · simp [h, markPending]

theorem Thread.setX_pend (t : Thread) (r : Reg) (v : Dword) (h : t.pend = []) : (t.setX r v).pend = [] := by
  rw [Thread.setX_alone t r v h]; split <;> exact h
theorem Thread.setV_pend (t : Thread) (r : Reg) (m : Byte) (l : Lanes Word) (h : t.pend = []) : (t.setV r m l).pend = [] := by
  simp [Thread.setV, h, markPending]

/-- A 32-bit instruction that writes an x register, by itself. -/
theorem Chip.putX_alone (g : Mgmt) (c : Chip) (rd : Reg) (v : Dword) (hr : c.t.run = .ready) (hp : c.t.pend = [])
    (hs : c.t.snaps = []) (hl : c.t.loops = []) (hrep : c.t.rep = none) (he : c.t.pc + 4 ≠ endLink) :
    c.putX g rd v = .next { c with t := { c.t.setX rd v with pc := c.t.pc + 4 } } := by
  unfold Chip.putX Chip.next
  rw [Chip.finish_alone g { c with t := c.t.setX rd v } _ _ (by simpa using hr) (Thread.setX_pend _ _ _ hp) (by simpa using hs)
    (by simpa using hl) (by simpa using hrep) (by simpa using he)]
  simp

/-- An instruction of n bytes that writes lanes, by itself. -/
theorem Chip.putV_alone (g : Mgmt) (c : Chip) (n : Dword) (vd : Reg) (m : Byte) (l : Lanes Word) (code : Byte)
    (hr : c.t.run = .ready) (hp : c.t.pend = []) (hs : c.t.snaps = []) (hl : c.t.loops = []) (hrep : c.t.rep = none)
    (he : c.t.pc + n ≠ endLink) :
    c.putV g n vd m l code = .next { c with t := { (c.t.setV vd m l).warn code c.t.pc with pc := c.t.pc + n } } := by
  unfold Chip.putV Chip.next
  rw [Chip.finish_alone g { c with t := (c.t.setV vd m l).warn code c.t.pc } _ _ (by simpa using hr)
    (by simpa using Thread.setV_pend _ _ _ _ hp) (by simpa using hs) (by simpa using hl) (by simpa using hrep) (by simpa using he)]
  simp

/-- An instruction that writes a mask, by itself. -/
theorem Chip.putM_alone (g : Mgmt) (c : Chip) (md : BitVec 3) (v : Byte) (code : Byte)
    (hr : c.t.run = .ready) (hp : c.t.pend = []) (hs : c.t.snaps = []) (hl : c.t.loops = []) (hrep : c.t.rep = none)
    (he : c.t.pc + 4 ≠ endLink) :
    c.putM g md v code = .next { c with t := { (c.t.setM md v).warn code c.t.pc with pc := c.t.pc + 4 } } := by
  unfold Chip.putM Chip.next
  rw [Chip.finish_alone g { c with t := (c.t.setM md v).warn code c.t.pc } _ _ (by simpa using hr) (by simpa using hp)
    (by simpa using hs) (by simpa using hl) (by simpa using hrep) (by simpa using he)]
  simp

/-! ## Stops -/

/-- A save waits exactly where its frame's page is away. -/
theorem Chip.save_none_iff (g : Mgmt) (c : Chip) (s : Stop) :
    (c.save g s).1 = none ↔ (c.frameSpots g c.t.csr.tframe).1 = .waits := by
  unfold Chip.save
  generalize c.frameSpots g c.t.csr.tframe = q
  obtain ⟨h, c1⟩ := q
  cases h <;> simp

/-- Taking an exception: inside a handler the cause ends the handler; else the task is saved, ST 4, and the handler begins, with
the hardware's image of the frame; or nothing more has happened than that the save asks for its frame's page. -/
theorem Chip.stopNow_cases (g : Mgmt) (c : Chip) (pc : Dword) (cause : Cause) (addr info : Dword) (defer unrest : Bool) :
    (c.t.handler.isSome = true ∧ c.stopNow g pc cause addr info defer unrest = c.handlerFault g cause) ∨
    (c.t.handler = none ∧ ∃ f c', c.save g ⟨pc, cause, addr, info, defer, unrest, 4⟩ = (some f, c') ∧
      c.stopNow g pc cause addr info defer unrest = .next ((c'.enterHandler f.state f.kept).keepImage g f.bytes)) ∨
    (c.t.handler = none ∧ ∃ c', c.save g ⟨pc, cause, addr, info, defer, unrest, 4⟩ = (none, c') ∧
      c.stopNow g pc cause addr info defer unrest = .next c') := by
  unfold Chip.stopNow
  cases hh : c.t.handler with
  | some st => exact Or.inl ⟨rfl, rfl⟩
  | none =>
    right
    generalize hs : c.save g ⟨pc, cause, addr, info, defer, unrest, 4⟩ = q
    obtain ⟨o, c'⟩ := q
    cases o with
    | some f => exact Or.inl ⟨rfl, f, c', rfl, rfl⟩
    | none => exact Or.inr ⟨rfl, c', rfl, rfl⟩

/-- While a `vst` or `vstc` that the thread has moved past is still to be performed, a stop changes nothing. -/
theorem Chip.takeStop_held (g : Mgmt) (c : Chip) (pc : Dword) (cause : Cause) (addr info : Dword) (defer unrest : Bool)
    (h : c.t.storing none = true) : c.takeStop g pc cause addr info defer unrest = .next c := if_pos h
/-- Else the exception is taken. -/
theorem Chip.takeStop_now (g : Mgmt) (c : Chip) (pc : Dword) (cause : Cause) (addr info : Dword) (defer unrest : Bool)
    (h : c.t.storing none = false) :
    c.takeStop g pc cause addr info defer unrest = c.stopNow g pc cause addr info defer unrest := by
  unfold Chip.takeStop; rw [h]; rfl

/-- An image of a frame kept changes the images alone. -/
theorem Chip.keepImage_frame (g : Mgmt) (c : Chip) (bs : List Byte) : ∃ images, c.keepImage g bs = { c with images := images } := by
  unfold Chip.keepImage
  split <;> exact ⟨_, rfl⟩

/-- A handler begins in supervisor mode at TVEC, READY, with x1 the end link, x10 the frame's address and x11 STATE. -/
theorem Chip.enterHandler_thread (c : Chip) (st : Dword) (kept : List Pending) :
    (c.enterHandler st kept).t.pc = (c.die c.tid.die).tvec ∧ (c.enterHandler st kept).t.sup = true ∧
      (c.enterHandler st kept).t.run = .ready ∧ (c.enterHandler st kept).t.handler = some st ∧
      (c.enterHandler st kept).t.kept = kept ∧ (c.enterHandler st kept).t.getX 1 = endLink ∧
      (c.enterHandler st kept).t.getX 10 = c.t.csr.tframe ∧ (c.enterHandler st kept).t.getX 11 = st := by
  refine ⟨rfl, rfl, rfl, rfl, rfl, rfl, rfl, rfl⟩

/-- A thread's step never answers a refusal from a stop. -/
theorem Chip.raise_eq (g : Mgmt) (c : Chip) (cause : Cause) (addr info : Dword) :
    c.raise g cause addr info = c.takeStop g c.t.stopPc cause addr info false false := rfl

end Sys2Proof.Machine
end

