-- ==== Sys2Proof/Tests/Slice0.lean ====
section
/-! SUPPORT. Tests: words of the manual decode, ill-formed terms are refused, single steps give what the manual's text gives,
and each statement's hypotheses are met together by a concrete state. -/

set_option maxRecDepth 100000

namespace Sys2Proof.Tests
open Sys2Proof.Machine

/-! ## States of the tests -/

/-- A user task's thread over the placed page table: its code page and its frame's page (log 14). -/
def base : State := State.reset.withFetchWord 32 0
/-- The acting thread changed, the module changed, and registers set. -/
def onT (s : State) (f : Thread → Thread) : State := { s with chip := { s.chip with t := f s.chip.t } }
def onC (s : State) (f : Chip → Chip) : State := { s with chip := f s.chip }
def regs (s : State) (l : List (Reg × Dword)) : State := onT s fun t => l.foldl (fun t e => Claims.writeX t e.1 e.2) t
/-- A v register's lanes, and a mask. -/
def lanesOf (s : State) (r : Reg) (l : Lanes Word) : State := onT s fun t => Claims.writeV t r 0xFF l.get
def maskOn (s : State) (r : BitVec 3) (m : Byte) : State := onT s fun t => Claims.writeM t r m
/-- Bytes in memory, and pairs of the local window: read and write to all of the slice. -/
def poke (s : State) (key : Nat) (bs : List Byte) : State := onC s fun c => { c with mem := Mem.write c.mem key bs }
def window (s : State) : State := onT s fun t => { t with csr := { t.csr with lwin := [0x30100000000, 0, 0, 0] } }
/-! ## Words of the manual (R25 to R43): the bits of a layout, or the manual's own worked encoding -/

-- the manual's worked encodings
theorem test_word_add : decodeTableWord 32 0x00148301 = some (.add 3 4 5) := by decide
theorem test_word_addi : decodeTableWord 32 0x00416B21 = some (.addi 11 11 4) := by decide
theorem test_word_bext : decodeTableWord 32 0x0C2D4911 = some (.bext 9 10 11) := by decide
theorem test_word_div : decodeTableWord 32 0x2820E601 = some (.div 6 7 8) := by decide
theorem test_word_divu : decodeTableWord 32 0x2C2C8401 = some (.divu 4 4 11) := by decide
theorem test_word_li : decodeTableWord 32 0x2B3C0941 = some (.li 9 0x5678) := by decide
theorem test_word_lih : decodeTableWord 32 0x048D2941 = some (.lih 9 0x91A) := by decide
theorem test_word_mov : decodeTableWord 32 0x24014E11 = some (.mov 14 10) := by decide
theorem test_word_vbext : decodeTableWord 32 0x14144661 = some (.vbext 0 6 2 5) := by decide
theorem test_word_vadd : decodeTableWord 32 0x00100251 = some (.vadd false false 0 2 0 4) := by decide
theorem test_word_vcmp : decodeTableWord 32 0x40247261 = some (.vcmp true 2 0 2 3 9) := by decide
theorem test_word_vext : decodeTableWord 32 0x0C001261 = some (.vext false 0 18 0 0) := by decide
theorem test_word_vperm : decodeTableWord 32 0x04194761 = some (.vperm false 0 7 10 6) := by decide
theorem test_word_mpop : decodeTableWord 32 0x2C004D61 = some (.mpop 13 2) := by decide
theorem test_word_vfcvt : decodeTableWord 32 0x74042A61 = some (.vfcvt true 0 false 1 10 1) := by decide
theorem test_word_vsel : decodeTableWord 32 0x311C8551 = some (.vsel 2 5 4 7) := by decide
theorem test_word_vexpd : decodeTableWord 32 0x2C1C2871 = some (.vexpd 0 8 1 7) := by decide
theorem test_word_vfcmp : decodeTableWord 32 0x600C2271 = some (.vfcmp 1 0 2 1 3) := by decide
theorem test_word_vfma : decodeTableWord 32 0x0C906271 = some (.vfma 1 2 3 4) := by decide
theorem test_word_vfred : decodeTableWord 32 0xA4000871 = some (.vfred 2 0 8 0) := by decide
theorem test_word_vrcp : decodeTableWord 32 0x74004A71 = some (.vrcp true 0 10 2) := by decide
theorem test_word_vhare : decodeTableWord 32 0x3C314371 = some (.vhare 0 3 10 12) := by decide
theorem test_word_vld : decodeTableWord 32 0x1000A091 = some (.vld 1 0 0 0 5) := by decide
theorem test_word_vst : decodeTableWord 32 0x00A4E391 = some (.vst 0 1 1 3 7) := by decide
theorem test_word_vldc : decodeTableWord 32 0x0041E491 = some (.vldc 0 0 0 4 15) := by decide
theorem test_word_resld : decodeTableWord 32 0x0000C0A1 = some (.resld 0 0 6) := by decide
theorem test_word_tzero : decodeTableWord 32 0x050400A1 = some (.tzero 0 false 1) := by decide
theorem test_word_tload : decodeTableWord 32 0x058500A1 = some (.tload 0 false 1 8) := by decide
theorem test_word_tcov : decodeTableWord 32 0x060405A1 = some (.tcov 0 5 1) := by decide
theorem test_word_tstat : decodeTableWord 32 0x068406A1 = some (.tstat 0 6 1) := by decide
theorem test_word_tmov : decodeTableWord 32 0x070060A1 = some (.tmov 0 0 3) := by decide
theorem test_word_tdrain : decodeTableWord 32 0x0014C9B1 = some (.tdrain 0 false 0 1 1 9 6) := by decide
theorem test_word_cpy : decodeTableWord 32 0x00208AC1 = some (.cpy 0 10 4 8) := by decide
theorem test_word_pub : decodeTableWord 32 0x021CC2C1 = some (.pub 0 2 6 7) := by decide
theorem test_word_wptr : decodeTableWord 32 0x02A54BC1 = some (.wptr 0 11 10 9) := by decide
theorem test_word_jwait : decodeTableWord 32 0x03014DC1 = some (.jwait 0 13 10) := by decide
theorem test_word_jpoll : decodeTableWord 32 0x03814DC1 = some (.jpoll 0 13 10) := by decide
theorem test_word_kvwalk : decodeTableWord 32 0x05188AC1 = some (.kvwalk 0 10 4 6) := by decide
theorem test_word_ldwFf : decodeTableWord 32 0x0028C4D1 = some (.ldwFf 0 1 2 4 6) := by decide
theorem test_word_amoAddW : decodeTableWord 32 0x043DA0D1 = some (.amoAddW 0 0 15 13) := by decide
theorem test_word_amoAddD : decodeTableWord 32 0x0822C0D1 = some (.amoAddD 0 0 8 22) := by decide
theorem test_word_cas128 : decodeTableWord 32 0x0BBA8CD1 = some (.cas128 0 12 14 20) := by decide
theorem test_word_mcst : decodeTableWord 32 0x032D24D1 = some (.mcst 0 4 11 9) := by decide
theorem test_word_ldl : decodeTableWord 32 0x0C00C4D1 = some (.ldl 0 4 6) := by decide
theorem test_word_stu : decodeTableWord 32 0x0C90C8D1 = some (.stu 0 8 4 6) := by decide
theorem test_word_spawn : decodeTableWord 32 0x0000C0E1 = some (.spawn 0 0 6 0) := by decide
theorem test_word_join : decodeTableWord 32 0x008080E1 = some (.join 4) := by decide
theorem test_word_wfw : decodeTableWord 32 0x010000E1 = some .wfw := by decide
theorem test_word_disp : decodeTableWord 32 0x0180A7E1 = some (.disp 0 7 5 0) := by decide
theorem test_word_depdec : decodeTableWord 32 0x020148E1 = some (.depdec 0 8 10) := by decide
theorem test_word_yield : decodeTableWord 32 0x028000E1 = some .yield := by decide
theorem test_word_gang : decodeTableWord 32 0x030800E1 = some (.gang 2) := by decide
theorem test_word_ungang : decodeTableWord 32 0x038000E1 = some .ungang := by decide
theorem test_word_park : decodeTableWord 32 0x0418AAE1 = some (.park 10 5 6) := by decide
theorem test_word_wake : decodeTableWord 32 0x0498A7E1 = some (.wake 0 7 5 6) := by decide
theorem test_word_pflush : decodeTableWord 32 0x052089E1 = some (.pflush 0 9 4 8) := by decide
theorem test_word_csrr : decodeTableWord 32 0x000005F1 = some (.csrr 5 0) := by decide
theorem test_word_csrw : decodeTableWord 32 0x1004C0F1 = some (.csrw 1 6) := by decide
theorem test_word_csrset : decodeTableWord 32 0x200107F1 = some (.csrset 7 0 8) := by decide
theorem test_word_csrclr : decodeTableWord 32 0x300120F1 = some (.csrclr 0 0 9) := by decide
theorem test_word_trap : decodeTableWord 32 0x401C00F1 = some (.trap 7) := by decide
theorem test_word_eret : decodeTableWord 32 0x500000F1 = some .eret := by decide
theorem test_word_halt : decodeTableWord 32 0x600000F1 = some .halt := by decide
theorem test_word_ebrk : decodeTableWord 32 0x700000F1 = some .ebrk := by decide
theorem test_word_ctxsave : decodeTableWord 32 0x8000C0F1 = some (.ctxsave 6) := by decide
theorem test_word_ctxrest : decodeTableWord 32 0x9000C0F1 = some (.ctxrest 6) := by decide
theorem test_word_idle : decodeTableWord 32 0xB00005F1 = some (.idle 5) := by decide
theorem test_word_phase : decodeTableWord 32 0xC00800F1 = some (.phase 2) := by decide
theorem test_word_fenceRel : decodeTableWord 32 0xC02C00F1 = some (.fenceRel 3) := by decide
theorem test_word_fenceAcq : decodeTableWord 32 0xC05400F1 = some (.fenceAcq 5) := by decide
theorem test_word_bar : decodeTableWord 32 0xC2E800F1 = some (.bar 2 5) := by decide
theorem test_word_bcnt : decodeTableWord 32 0xD288C0F1 = some (.bcnt 2 5 6) := by decide
theorem test_word_ldW : decodeTableWord 32 0x10005B15 = some (.ldW 1 0 12 11) := by decide
theorem test_word_cld : decodeTableWord 32 0x234A5149 = some (.cld 2 0 true true 2 1 20 8 9) := by decide
theorem test_word_beq : decodeTableWord 32 0x00021483 = some (.beq 4 5 4) := by decide
theorem test_word_jal : decodeTableWord 32 0xFFFC003B = some (.jal 1 (-8)) := by decide
theorem test_word_bge : decodeTableWord 32 0x000E35EF = some (.bge 15 13 28) := by decide
theorem test_word_loop : decodeTableWord 32 0x0017023F = some (.loop 17 46) := by decide
theorem test_word_rep : decodeTableWord 16 0x0706 = some (.rep true true true 1) := by decide
theorem test_word_vadd16 : decodeTableWord 16 0x14C4 = some (.vadd16 0 3 5) := by decide
theorem test_word_vor16 : decodeTableWord 16 0x3D40 = some (.vor16 0 5 15) := by decide
theorem test_word_vfadd16 : decodeTableWord 16 0x24AC = some (.vfadd16 0 2 9) := by decide
theorem test_word_vfmul16 : decodeTableWord 16 0x20F4 = some (.vfmul16 0 3 8) := by decide

-- words written bit by bit from the layouts of R29 to R35 and the fields of R39 to R43
theorem test_word_sub : decodeTableWord 32 0b00_0001_000_00111_00110_00101_0000_0001 = some (.sub 5 6 7) := by decide
theorem test_word_max : decodeTableWord 32 0b00_1111_000_00111_00110_00101_0000_0001 = some (.max 5 6 7) := by decide
theorem test_word_bins : decodeTableWord 32 0b00_0100_000_00111_00110_00101_0001_0001 = some (.bins 5 6 7) := by decide
theorem test_word_clz : decodeTableWord 32 0b00_0000_000_00000_00110_00101_0001_0001 = some (.clz 5 6) := by decide
theorem test_word_xori : decodeTableWord 32 0b011111110000_11_00110_00101_0010_0001 = some (.xori 5 6 0x7F0) := by decide
theorem test_word_srai : decodeTableWord 32 0b000000111111_10_00110_00101_0011_0001 = some (.srai 5 6 63) := by decide
theorem test_word_jalr : decodeTableWord 32 0b111111111100_11_00110_00001_0011_0001 = some (.jalr 1 6 (-4)) := by decide
theorem test_word_lea : decodeTableWord 32 0b11111111111111010_10_01001_0100_0001 = some (.lea 9 (-6)) := by decide
theorem test_word_vbcast : decodeTableWord 32 0b00_1101_001_00000_01001_00100_0101_0001 = some (.vbcast 1 4 9) := by decide
theorem test_word_vred : decodeTableWord 32 0b01_0110_010_00100_00110_00101_0110_0001 = some (.vred true 4 2 5 6) := by decide
theorem test_word_mset : decodeTableWord 32 0b00_1100_000_00101_00101_00011_0110_0001 = some (.mset 3 0xA5) := by decide
theorem test_word_fship : decodeTableWord 32 0b0010_001001_0101_00110_00100_1000_0001 = some (.fship 2 9 5 4 6) := by decide
theorem test_word_resldSparse : decodeTableWord 32 0b0001_00110_011_00_00110_00000_1010_0001 = some (.resldSparse 1 6 3 6) := by decide
theorem test_word_cpy2 : decodeTableWord 32 0b0001_00001_01000_00110_00101_1100_0001 = some (.cpy2 1 5 6 8) := by decide
theorem test_word_sqend : decodeTableWord 32 0b0000_01111_00000_00000_00000_1100_0001 = some .sqend := by decide
theorem test_word_purge : decodeTableWord 32 0b0010_00101_10100_00110_00000_1101_0001 = some (.purge 2 2 4 6) := by decide
theorem test_word_ldB : decodeTableWord 32 0b0001_111111111000_00110_00101_000_101 = some (.ldB 1 (-8) 5 6) := by decide
theorem test_word_stD : decodeTableWord 32 0b0000_011111111111_00110_00101_111_101 = some (.stD 0 2047 5 6) := by decide
theorem test_word_loopm : decodeTableWord 32 0b00000000000001001_11001_00100_111_11 = some (.loopm 4 9 9) := by decide
theorem test_word_vfsub16 : decodeTableWord 16 0b11_0010_0001_1100_00 = some (.vfsub16 3 1 2) := by decide

-- reserved words are refused (R36, R39, R43, R53): an unassigned function, a v register of 16, an unused field
theorem test_word_reserved_function : decodeTableWord 32 0b00_1010_000_00111_00110_00101_0001_0001 = none := by decide
theorem test_word_reserved_lane : decodeTableWord 32 0b00_0000_000_00001_00001_10000_0101_0001 = none := by decide
theorem test_word_reserved_field : decodeTableWord 32 0b00_0000_000_00001_00110_00101_0001_0001 = none := by decide

/-! ## Ill-formed terms, one for each check of WellFormed (R36, R53) -/

theorem test_ill_formed_0 : ¬ (Instr.vadd false false 0 16 1 2).WellFormed := by decide
theorem test_ill_formed_1 : ¬ (Instr.vshuf false 0 1 3 5).WellFormed := by decide
theorem test_ill_formed_2 : ¬ (Instr.vbext 0 1 3 2).WellFormed := by decide
theorem test_ill_formed_3 : ¬ (Instr.vred false 6 0 5 1).WellFormed := by decide
theorem test_ill_formed_4 : ¬ (Instr.vfcvt false 5 false 0 1 2).WellFormed := by decide
theorem test_ill_formed_5 : ¬ (Instr.vfcvt false 0 false 9 1 2).WellFormed := by decide
theorem test_ill_formed_6 : ¬ (Instr.vfred 3 0 5 1).WellFormed := by decide
theorem test_ill_formed_7 : ¬ (Instr.vhare 0 1 5 6).WellFormed := by decide
theorem test_ill_formed_8 : ¬ (Instr.resldSparse 0 0 1 6).WellFormed := by decide
theorem test_ill_formed_9 : ¬ (Instr.resldSparse 0 9 1 6).WellFormed := by decide
theorem test_ill_formed_10 : ¬ (Instr.tdrain 0 false 0 0 0 5 7).WellFormed := by decide
theorem test_ill_formed_11 : ¬ (Instr.cpy 0 5 7 8).WellFormed := by decide
theorem test_ill_formed_12 : ¬ (Instr.cpy2 0 5 6 9).WellFormed := by decide
theorem test_ill_formed_13 : ¬ (Instr.cut 0 5 6).WellFormed := by decide
theorem test_ill_formed_14 : ¬ (Instr.cut 0 0 6).WellFormed := by decide
theorem test_ill_formed_15 : ¬ (Instr.ldwFf 0 0 6 5 6).WellFormed := by decide
theorem test_ill_formed_16 : ¬ (Instr.cas128 0 5 6 7).WellFormed := by decide
theorem test_ill_formed_17 : ¬ (Instr.gang 0).WellFormed := by decide
theorem test_ill_formed_18 : ¬ (Instr.gang 4).WellFormed := by decide
theorem test_ill_formed_19 : ¬ (Instr.phase 6).WellFormed := by decide
theorem test_ill_formed_20 : ¬ (Instr.fsload 5 7 0).WellFormed := by decide
theorem test_ill_formed_21 : ¬ (Instr.loop 5 0).WellFormed := by decide
theorem test_ill_formed_22 : ¬ (Instr.loopm 5 0 0).WellFormed := by decide

/-! ## Single steps: expected values worked by hand from the rules, or the manual's own examples where said -/

/-- The instruction answers a next state with a property. -/
def gives (i : Instr) (s : State) (p : State → Bool) : Bool :=
  match exec i s with
  | .next t => p t
  | _ => false
/-- X[r] and the program counter of the acting thread. -/
def x (s : State) (r : Reg) : Dword := s.chip.t.getX r
def pcIs (s : State) (n : Dword) : Bool := decide (s.chip.t.pc = placedCode + n)

-- R182 to R185
theorem test_sub_wraps : gives (.sub 5 6 7) (regs base [(6, 0), (7, 1)]) (fun s => x s 5 = 0xFFFFFFFFFFFFFFFF && pcIs s 4) = true := by
  decide
theorem test_x0_discards : gives (.addi 0 6 5) (regs base [(6, 1)]) (fun s => x s 0 = 0 && pcIs s 4) = true := by decide
theorem test_sra_sign : gives (.sra 5 6 7) (regs base [(6, 0x8000000000000000), (7, 63)]) (fun s => x s 5 = 0xFFFFFFFFFFFFFFFF) =
    true := by decide
theorem test_shift_takes_six_bits : gives (.shl 5 6 7) (regs base [(6, 3), (7, 65)]) (fun s => x s 5 = 6) = true := by decide
theorem test_mulh_signed : gives (.mulh 5 6 7) (regs base [(6, 0xFFFFFFFFFFFFFFFF), (7, 2)]) (fun s => x s 5 = 0xFFFFFFFFFFFFFFFF) =
    true := by decide
theorem test_div_overflow : gives (.div 5 6 7) (regs base [(6, 0x8000000000000000), (7, 0xFFFFFFFFFFFFFFFF)])
    (fun s => x s 5 = 0x8000000000000000) = true := by decide
theorem test_rem_sign_of_dividend : gives (.rem 5 6 7) (regs base [(6, 0xFFFFFFFFFFFFFFF9), (7, 2)])
    (fun s => x s 5 = 0xFFFFFFFFFFFFFFFF) = true := by decide
theorem test_clz_of_zero : gives (.clz 5 6) base (fun s => x s 5 = 64) = true := by decide
theorem test_bext : gives (.bext 5 6 7) (regs base [(6, 0xABCD), (7, 4 + 64 * 7)]) (fun s => x s 5 = 0xBC) = true := by decide
theorem test_bins : gives (.bins 5 6 7) (regs base [(5, 0xFFFF), (6, 0), (7, 4 + 64 * 7)]) (fun s => x s 5 = 0xF00F) = true := by decide
theorem test_sel_reads_destination : gives (.sel 5 6 7) (regs base [(5, 0), (6, 1), (7, 2)]) (fun s => x s 5 = 2) = true := by decide
theorem test_lih_sign : gives (.lih 9 0x4000) (regs base [(9, 0x5678)]) (fun s => x s 9 = 0xFFFFFFFF80005678) = true := by decide
-- the manual's pair li x9, #0x5678; lih x9, #0x1234_5678
theorem test_lih_example : gives (.lih 9 0x091A) (regs base [(9, 0x5678)]) (fun s => x s 9 = 0x12345678) = true := by decide
theorem test_lea_own_address : gives (.lea 9 0x1FFFF) base (fun s => x s 9 = placedCode - 1) = true := by decide
-- R187 to R192
theorem test_vadd_saturates : gives (.vadd false true 0 1 2 3)
    (lanesOf (lanesOf base 2 ⟨0x7FFFFFFF, 0, 0, 0, 0, 0, 0, 0x80000000⟩) 3 ⟨1, 2, 0, 0, 0, 0, 0, 0xFFFFFFFF⟩)
    (fun s => s.chip.t.getV 1 = ⟨0x7FFFFFFF, 2, 0, 0, 0, 0, 0, 0x80000000⟩) = true := by decide
theorem test_vsub_masked : gives (.vsub false false 1 1 2 3)
    (maskOn (lanesOf (lanesOf base 1 ⟨7, 7, 7, 7, 7, 7, 7, 7⟩) 3 ⟨1, 1, 1, 1, 1, 1, 1, 1⟩) 1 0x81)
    (fun s => s.chip.t.getV 1 = ⟨0xFFFFFFFF, 7, 7, 7, 7, 7, 7, 0xFFFFFFFF⟩) = true := by decide
theorem test_vcmp_clears_inactive : gives (.vcmp false 0 1 2 3 4) (maskOn (maskOn base 1 0x0F) 2 0xFF)
    (fun s => s.chip.t.getM 2 = 0x0F) = true := by decide
theorem test_vext_inactive_z : gives (.vext true 1 5 2 6) (lanesOf (regs base [(6, 3)]) 2 ⟨1, 2, 3, 4, 5, 6, 7, 8⟩)
    (fun s => x s 5 = 0) = true := by decide
theorem test_vred_min_empty : gives (.vred false 1 1 5 2) base (fun s => x s 5 = 0x7FFFFFFF) = true := by decide
theorem test_compact_vadd : gives (.vadd16 0 3 5)
    (lanesOf (lanesOf base 3 ⟨1, 2, 3, 4, 5, 6, 7, 8⟩) 5 ⟨1, 1, 1, 1, 1, 1, 1, 0xFFFFFFFF⟩)
    (fun s => s.chip.t.getV 3 = ⟨2, 3, 4, 5, 6, 7, 8, 7⟩ && pcIs s 2) = true := by decide
-- R203 to R208; the manual's example of vfcvt.to.e4m3
theorem test_vfadd : gives (.vfadd 0 1 2 3)
    (lanesOf (lanesOf base 2 ⟨0x3F800000, 0, 0, 0, 0, 0, 0, 0⟩) 3 ⟨0x40000000, 0, 0, 0, 0, 0, 0, 0⟩)
    (fun s => (s.chip.t.getV 1).get 0 = 0x40400000 && s.chip.t.csr.flags = 0) = true := by decide
theorem test_vfma_one_rounding : gives (.vfma 0 1 2 3)
    (lanesOf (lanesOf (lanesOf base 1 ⟨0xBF800000, 0, 0, 0, 0, 0, 0, 0⟩) 2 ⟨0x3F800001, 0, 0, 0, 0, 0, 0, 0⟩) 3
      ⟨0x3F7FFFFF, 0, 0, 0, 0, 0, 0, 0⟩)
    (fun s => (s.chip.t.getV 1).get 0 = 0x337FFFFE && s.chip.t.csr.flags = 0) = true := by decide
theorem test_vfcvt_example : gives (.vfcvt false 0 false 3 5 1)
    (lanesOf base 1 ⟨0x3F800000, 0xBEC00000, 0x43E00000, 0x43E60000, 0, 0, 0, 0⟩)
    (fun s => s.chip.t.getV 5 = ⟨0x7E7EAC38, 0, 0, 0, 0, 0, 0, 0⟩ && s.chip.t.csr.flags &&& 1 = 1) = true := by decide
theorem test_vrcp_of_zero : gives (.vrcp false 0 1 2) base
    (fun s => (s.chip.t.getV 1).get 3 = 0x7F800000 && s.chip.t.csr.flags = 8) = true := by decide
-- R121 to R135
theorem test_ldB_sign : gives (.ldB 0 1 5 6) (poke (window base) (sliceKey ⟨1, 0, 0⟩ 0x101) [0x80] |> (regs · [(6, 0x100)]))
    (fun s => x s 5 = 0xFFFFFFFFFFFFFF80) = true := by decide
theorem test_stH : gives (.stH 0 0xFFE 5 6) (regs (window base) [(5, 0xABCDEF), (6, 0x102)])
    (fun s => Mem.bytes s.chip.mem (sliceKey ⟨1, 0, 0⟩ 0x100) 3 = [0xEF, 0xCD, 0]) = true := by decide
theorem test_ldD_heap : gives (.ldD 0 0x7F8 5 6)
    (poke (regs base [(6, placedFrame)]) 0x4007F8 [1, 2, 3, 4, 5, 6, 7, 8]) (fun s => x s 5 = 0x0807060504030201) = true := by decide
theorem test_amo_add_w : gives (.amoAddW 0 5 6 7) (poke (regs (window base) [(6, 1), (7, 0x40)]) (sliceKey ⟨1, 0, 0⟩ 0x40)
    [0xFF, 0xFF, 0xFF, 0xFF])
    (fun s => x s 5 = 0xFFFFFFFFFFFFFFFF && decide (Mem.word s.chip.mem (sliceKey ⟨1, 0, 0⟩ 0x40) = 0)) = true := by decide
theorem test_cas_fails : gives (.cas 0 5 6 7) (regs (window base) [(5, 1), (6, 9), (7, 0x40)])
    (fun s => x s 5 = 0 && decide (Mem.dword s.chip.mem (sliceKey ⟨1, 0, 0⟩ 0x40) = 0)) = true := by decide
theorem test_stw_ef_waits_on_full : gives (.stwEf 0 0 0 5 6) (regs (window base) [(5, 1), (6, 0x40)])
    (fun s => decide (s.chip.t.run ≠ .ready) && pcIs s 0) = true := by decide
theorem test_ldw_fe_empties : gives (.ldwFe 0 0 0 5 6) (regs (window base) [(6, 0x40)])
    (fun s => !s.chip.isFull (sliceKey ⟨1, 0, 0⟩ 0x40) && s.chip.isFull (sliceKey ⟨1, 0, 0⟩ 0x44) && pcIs s 4) = true := by decide
theorem test_stu_without_lock : gives (.stu 0 8 4 6) (regs (window base) [(6, 0x40)]) (fun s => x s 8 = 1) = true := by decide
-- R46: a load with lookahead writes later
theorem test_lookahead_pends : gives (.ldW 2 0 5 6) (regs (window base) [(5, 9), (6, 0x40)])
    (fun s => x s 5 = 9 && decide (s.chip.t.pend.length = 1) && pcIs s 4) = true := by decide
-- R50: a repeat prefix
theorem test_rep_begins : gives (.rep true true true 1) (poke base 0x200000 [0x06, 0x07, 0xC4, 0x14])
    (fun s => pcIs s 2 && decide (s.chip.t.repc = 0x80) && s.chip.t.rep.isSome) = true := by decide
-- R268 to R271; the manual's jal x1, .-16
theorem test_beq_taken : gives (.beq 4 5 0x1FFFF) base (fun s => pcIs s (0 - 2)) = true := by decide
theorem test_jal_example : gives (.jal 1 (-8)) base (fun s => pcIs s (0 - 16) && decide (x s 1 = placedCode + 4)) = true := by decide
theorem test_jalr_same_register : gives (.jalr 1 1 0) (regs base [(1, placedCode + 64)])
    (fun s => pcIs s 64 && decide (x s 1 = placedCode + 4)) = true := by decide
theorem test_loop_of_zero : gives (.loop 5 3) base (fun s => pcIs s 10) = true := by decide
-- R297 to R308: exceptions
theorem test_trap_enters : gives (.trap 7) base (fun s => s.chip.t.sup && decide (x s 1 = endLink) &&
    decide (Mem.dword s.chip.mem 0x400008 = placedCode + 4) && decide (Mem.dword s.chip.mem 0x400010 = 7)) = true := by decide
theorem test_divide_by_zero_is_precise : gives (.div 5 6 7) (regs base [(5, 3), (6, 1)]) (fun s => s.chip.t.sup &&
    decide (Mem.dword s.chip.mem 0x400008 = placedCode) && decide (Mem.get s.chip.mem 0x400002 = 4) &&
    decide (Mem.dword s.chip.mem 0x400068 = 3)) = true := by decide
theorem test_eret_in_user_mode : gives .eret base (fun s => s.chip.t.sup && decide (Mem.get s.chip.mem 0x400002 = 2)) = true := by decide
-- R313: CSRs
theorem test_csrw_fpctl_reserved_mode : gives (.csrw 1 6) (regs base [(6, 0xF)]) (fun s => decide (s.chip.t.csr.fpctl = 8)) = true := by
  decide
theorem test_csrset_flags : gives (.csrset 7 0 8) (regs base [(8, 0xFFFFFFFF)])
    (fun s => x s 7 = 0 && decide (s.chip.t.csr.flags = 0xF1F)) = true := by decide
-- R139, R141: an engine instruction gives the job's ID
theorem test_cpy_of_nothing : gives (.cpy 0 10 4 8) base (fun s => decide (s.chip.jobs.length = 1) && pcIs s 4) = true := by decide
-- R249: the manual's example of 100 × 70 elements on a grid of 4 × 3; the task at (3, 2) has ORG 96, 64 and EXT 4, 6
theorem test_tile_sizes : (tileSize 100 4, tileSize 70 3, tileSize 20 1) = (32, 32, 32) := by decide
-- R21: the manual's slice byte of core 5 of the cluster at (137, 62)
theorem test_slice_address : globalOf (sliceLoc ⟨137, 62, 5⟩ 0x100) = 0xFFFE94CA00000100 := by decide
-- R350: the manual's latency samples fall in bins 0, 1, 2, 3 and 10
theorem test_bins_of_samples : ([0, 1, 3, 5, 1000] : List Word).map binOf = [0, 1, 2, 3, 10] := by decide
-- R247, R347: after a reset every thread is FREE
theorem test_reset_frees : gives .mainSideReset base (fun s => decide (s.chip.threads.all fun e => decide (e.2.run = .free))) = true := by
  decide

/-! ## Witnesses: for each statement with hypotheses, states and operands that meet them together -/

/-- A thread by itself, from a check that can be run. -/
theorem alone_of (s : State) (n : Dword)
    (h : s.chip.t.run = .ready ∧ s.chip.t.pend = [] ∧ s.chip.t.snaps = [] ∧ s.chip.t.loops = [] ∧ s.chip.t.rep = none ∧
      s.chip.t.pc + n ≠ endLink) : Claims.Alone s n := ⟨h.1, h.2.1, h.2.2.1, h.2.2.2.1, h.2.2.2.2.1, h.2.2.2.2.2⟩
theorem steady_of (s : State)
    (h : s.chip.t.run = .ready ∧ s.chip.t.pend = [] ∧ s.chip.t.snaps = [] ∧ s.chip.t.rep = none ∧
      s.chip.t.squirrel.armed = none) : Claims.Steady s := ⟨h.1, h.2.1, h.2.2.1, h.2.2.2.1, h.2.2.2.2⟩

-- the overflow of a signed division, and the smallest immediate
def divState : State := regs base [(6, 0x8000000000000000), (7, 0xFFFFFFFFFFFFFFFF)]
theorem wit_ScalarRegisterResults :
    (∃ v, Claims.Scalar divState.chip.t (.div 5 6 7) 5 v) ∧ Claims.Alone divState 4 :=
  ⟨⟨_, .div 5 6 7 (by decide)⟩, alone_of _ _ (by decide)⟩
theorem wit_ScalarImmediateResults :
    (∃ v, Claims.Immediate divState.chip.t (.addi 5 6 0x800) 5 v) ∧ Claims.Alone divState 4 :=
  ⟨⟨_, .addi 5 6 0x800⟩, alone_of _ _ (by decide)⟩
-- m0 makes every lane active; the last lane's index names itself
def permState : State := lanesOf base 3 ⟨0, 0, 0, 0, 0, 0, 0, 7⟩
theorem wit_LaneResults :
    (∃ f, Claims.LaneOp permState.chip.t (.vperm false 0 1 2 3) 4 1 0xFF f 0) ∧
      (Instr.vperm false 0 1 2 3).WellFormed ∧ Claims.Alone permState 4 :=
  ⟨⟨_, .vperm false 0 1 2 3 (Or.inr (by decide))⟩, by decide, alone_of _ _ (by decide)⟩
theorem wit_LaneResults_compact :
    (∃ f, Claims.CompactOp base.chip.t (.vor16 3 15 15) 3 15 f) ∧ Claims.Alone base 2 :=
  ⟨⟨_, .vor16 3 15 15⟩, alone_of _ _ (by decide)⟩
theorem wit_LaneToScalarResults :
    (∃ v code, Claims.ToX base.chip.t (.vred true 5 1 5 15) 5 v code) ∧
      (∃ v code, Claims.ToX permState.chip.t (.vext false 0 5 3 0) 5 v code) ∧ Claims.Alone base 4 ∧ Claims.Alone permState 4 :=
  ⟨⟨_, _, .vred true 5 1 5 15 (by decide)⟩, ⟨_, _, .vext false 0 5 3 0 0 (by decide) (Or.inr (by decide))⟩,
    alone_of _ _ (by decide), alone_of _ _ (by decide)⟩
theorem wit_MaskResults : (∃ f code, Claims.ToM base.chip.t (.vcmp true 3 1 7 2 3) 7 f code) ∧ Claims.Alone base 4 :=
  ⟨⟨_, _, .vcmp true 3 1 7 2 3⟩, alone_of _ _ (by decide)⟩

/-- A doubleword below 2^8 has no bit from 8 on. -/
theorem small_bits (w : Dword) (h : w.toNat < 256) (j : Nat) (hj : 8 ≤ j) : w.getLsbD j = false := by
  simp only [BitVec.getLsbD, Nat.testBit_eq_decide_div_mod_eq, decide_eq_false_iff_not]
  have : w.toNat / 2 ^ j = 0 := Nat.div_eq_of_lt (lt_of_lt_of_le h (by simpa using Nat.pow_le_pow_right (n := 2) (by decide) hj))
  rw [this]; decide
/-- A bit pattern of eight bits, from its first eight. -/
theorem eight_bits (w : Dword) (f : Nat → Bool) (h : w.toNat < 256) (hf : ∀ j, j < 8 → w.getLsbD j = f j) :
    ∀ j, w.getLsbD j = (decide (j < 8) && f j) := by
  intro j
  by_cases hj : j < 8
  · simp [hj, hf j hj]
  · simp [hj, small_bits w h j (by omega)]
-- only lane 0 is active, and it reads lane 1
def inactiveState : State := regs (lanesOf (maskOn base 1 1) 3 ⟨1, 0, 0, 0, 0, 0, 0, 0⟩) [(6, 1)]
theorem wit_OperandTraps :
    base.chip.t.getX 7 = 0 ∧
    (∀ j, (2 : Dword).getLsbD j = (decide (j < 8) && (!Claims.on inactiveState.chip.t 1 (BitVec.ofNat 3 j) &&
      ((List.range 8).any fun i => Claims.on inactiveState.chip.t 1 (BitVec.ofNat 3 i) &&
        decide (Claims.index (Claims.lane inactiveState.chip.t 3 (BitVec.ofNat 3 i)) = BitVec.ofNat 3 j))))) ∧
    (∀ j, (2 : Dword).getLsbD j = (decide (j < 8) && (!Claims.on inactiveState.chip.t 1 (BitVec.ofNat 3 j) &&
      ((List.range 8).any fun i => Claims.on inactiveState.chip.t 1 (BitVec.ofNat 3 i) &&
        decide (Claims.nibble (inactiveState.chip.t.getX 6) (BitVec.ofNat 3 i) % 8 = j))))) ∧ (2 : Dword) ≠ 0 ∧
    Claims.on inactiveState.chip.t 1 (BitVec.ofNat 3 (inactiveState.chip.t.getX 6).toNat) = false :=
  ⟨by decide, eight_bits 2 _ (by decide) (by decide), eight_bits 2 _ (by decide) (by decide), by decide, by decide⟩

theorem wit_FloatInstructionsComplete :
    (∃ rm, Claims.FloatOp base.chip.t (.vfma 0 15 15 15) 4 15 0xFF rm) ∧ (Instr.vfred 2 0 5 15).WellFormed ∧
      (Instr.vfcvt true 4 true 8 15 15).WellFormed ∧ (Instr.vhare 0 15 30 31).WellFormed ∧ Claims.Alone base 4 ∧
      base.chip.t.getM 1 = 0 :=
  ⟨⟨_, .vfma 0 15 15 15⟩, by decide, by decide, by decide, alone_of _ _ (by decide), by decide⟩
theorem wit_ExactFloatResults :
    (∃ f, Claims.ExactFloat base.chip.t (.vfmax 0 1 2 3) 4 1 0xFF f) ∧ Claims.Alone base 4 ∧
      (Claims.isNan 0x7F800001 || Claims.isNan 0) = true ∧
      (∃ rm v, Claims.FloatOp base.chip.t (.vrcp true 0 15 15) 4 15 0xFF rm ∧ Claims.FloatLane base.chip.t (.vrcp true 0 15 15) v) ∧
      (Claims.rmOf base.chip.t).toNat ≤ 4 ∧ (Instr.vfred 2 0 5 15).WellFormed ∧ (Instr.vfcvt false 4 true 8 15 15).WellFormed ∧
      (Instr.vfcvt true 4 true 8 15 15).WellFormed ∧ (∃ F, Claims.formats[(8 : BitVec 4).toNat]? = some F) :=
  ⟨⟨_, .vfmax 0 1 2 3⟩, alone_of _ _ (by decide), by decide, ⟨_, _, .vrcp true 0 15 15, .vrcp true 0 15 15⟩, by decide,
    by decide, by decide, by decide, ⟨_, rfl⟩⟩
theorem wit_FloatCompareResults : Claims.Alone base 4 := alone_of _ _ (by decide)

def supState : State := onT base fun t => { t with sup := true }
theorem wit_CsrReadCompletes :
    Claims.readable base.chip.t 0x0D ∧ Claims.readable base.chip.t 0x27 ∧ Claims.readable supState.chip.t 0x105 ∧
      Claims.Alone base 4 ∧ Claims.Alone supState 4 :=
  ⟨Or.inl (by decide), Or.inr (Or.inl (by decide)), Or.inr (Or.inr (by decide)), alone_of _ _ (by decide), alone_of _ _ (by decide)⟩
def csrState : State := regs supState [(6, 0xFFFFFFFFFFFFFFFF)]
theorem wit_CsrWriteResults :
    (∃ s', Claims.CsrWrite csrState (csrState.chip.t.getX 6) (csrState.chip.t.getX 6) 0x027 s') ∧
      (∃ s', Claims.CsrWrite csrState (Claims.csrValue csrState 0x103 ||| csrState.chip.t.getX 6)
        (csrState.chip.t.getX 6) 0x103 s') ∧
      (∃ s', Claims.CsrWrite csrState (Claims.csrValue csrState 0x00D &&& ~~~(csrState.chip.t.getX 6))
        (csrState.chip.t.getX 6) 0x00D s') ∧
      Claims.writable csrState.chip.t 0x027 ∧ Claims.writable csrState.chip.t 0x103 ∧ Claims.writable csrState.chip.t 0x00D ∧
      Claims.readable csrState.chip.t 0x105 ∧ Claims.Alone csrState 4 :=
  ⟨⟨_, .rgn 3 (by decide)⟩, ⟨_, .evpend⟩, ⟨_, .lc (by decide)⟩, Or.inr (by decide), Or.inr (by decide), Or.inl (by decide),
    Or.inr (Or.inr (by decide)), alone_of _ _ (by decide)⟩
theorem wit_FallbackRecord : (3 : Byte) ≠ 0 ∧ (base.chip.t.warn 3 2).csr.warnc.toNat % 256 ≠ 0 ∧
    base.chip.t.csr.warnc.toNat % 256 = 0 := by decide
theorem wit_BranchAndJumpResults :
    Claims.Branch (.bgeu 4 5 0x1FFFF) 4 5 (fun a b => decide (b.toNat ≤ a.toNat)) 0x1FFFF ∧ Claims.Alone base 4 ∧
      Claims.target base.chip.t 0x1FFFF ≠ endLink ∧ base.chip.t.getX 5 + Claims.sext (0x7FE : BitVec 12) ≠ endLink ∧
      (base.chip.t.getX 5 + Claims.sext (0x7FE : BitVec 12)).getLsbD 0 = false ∧
      (base.chip.t.getX 5 + Claims.sext (0x7FF : BitVec 12)).getLsbD 0 = true :=
  ⟨.bgeu 4 5 0x1FFFF, alone_of _ _ (by decide), by decide, by decide, by decide, by decide⟩
-- a loop whose end is the next instruction, with two turns left; a full loop stack; a body of one halfword
def loopState : State := onT base fun t => { t with loops := [⟨placedCode, placedCode + 4, 2⟩] }
def deepState : State := regs (onT base fun t => { t with loops := List.replicate 4 ⟨placedCode, placedCode + 8, 2⟩ }) [(5, 1)]
theorem wit_LoopResults :
    (Instr.loop 5 1).WellFormed ∧ Claims.Steady base ∧ (0 : Word) = BitVec.ofNat 32 (base.chip.t.getX 5).toNat ∧
      base.chip.t.loops = [] ∧ base.chip.t.pc + 4 + 2 * (1 : BitVec 17).setWidth 64 ≠ endLink ∧ Claims.Steady loopState ∧
      loopState.chip.t.loops.length < 4 ∧ Claims.Steady deepState ∧
      (1 : Word) = BitVec.ofNat 32 (deepState.chip.t.getX 5).toNat ∧ (1 : Word) ≠ 0 ∧ 4 ≤ deepState.chip.t.loops.length ∧
      Claims.backEdges loopState.chip.t.loops (loopState.chip.t.pc + 4) = (placedCode, [⟨placedCode, placedCode + 4, 1⟩]) ∧
      placedCode ≠ endLink ∧
      (fun a b : Dword => decide (a = b)) (loopState.chip.t.getX 4) (loopState.chip.t.getX 5) = true ∧
      Claims.backEdges loopState.chip.t.loops (Claims.target loopState.chip.t 8) = (placedCode + 16, loopState.chip.t.loops) :=
  ⟨by decide, steady_of _ (by decide), by decide, by decide, by decide, steady_of _ (by decide), by decide,
    steady_of _ (by decide), by decide, by decide, by decide, by decide, by decide, by decide, by decide⟩

-- one window instruction left, or two; the result come, or still to come
def pendOf (rem : Nat) (acc : Option Access) : Pending :=
  ⟨0, placedCode, .x 5, rem, acc, [], 0, .x 9, false, 0, 0, [], [], none⟩
def pendState (rem : Nat) (acc : Option Access) : State := onT base fun t => { t with pend := [pendOf rem acc] }
def loadWaits : State := pendState 2 (some (.load 2 0))
theorem goes_on : placedCode + 4 ≠ endLink := by decide
theorem wit_PendingWindows :
    (∀ r acc, (pendState r acc).chip.t.run = .ready ∧ (pendState r acc).chip.t.pend = [pendOf r acc] ∧
      (pendState r acc).chip.t.snaps = [] ∧ (pendState r acc).chip.t.loops = [] ∧ (pendState r acc).chip.t.rep = none ∧
      (pendState r acc).chip.t.pc + 4 ≠ endLink ∧ ∃ v, Claims.Scalar (pendState r acc).chip.t (.mov 5 6) 5 v) ∧
    2 ≤ (pendOf 2 none).rem ∧ (pendOf 1 none).rem = 1 ∧ (pendOf 1 none).access = none ∧ (pendOf 1 none).dest = .x 5 ∧
    (pendOf 1 none).result = .x 9 ∧ (pendOf 1 none).snap = none ∧ (pendOf 1 (some (.load 3 0))).access.isSome = true :=
  ⟨fun _ _ => ⟨rfl, rfl, rfl, rfl, rfl, goes_on, _, .mov 5 6⟩, by decide, rfl, rfl, rfl, rfl, rfl, rfl⟩

theorem fetch_of {s : State} {a : Dword} {i : Instr} {w : Word} (h : (s.chip.fetch s.mgmt a).1 = .instr i w) :
    ∃ c, s.chip.fetch s.mgmt a = (.instr i w, c) := ⟨_, Prod.ext h rfl⟩
-- rep #2, d+a+b before vadd v3, v3, v5; and before another prefix
def repState : State := poke base 0x200000 [0x06, 0x07, 0xC4, 0x14]
def badRepState : State := poke base 0x200000 [0x06, 0x07, 0x06, 0x07]
-- a reserved word after the prefix: class A1, function 10
def reservedRepState : State := poke base 0x200000 ([0x06, 0x07] ++ bytesOfWord 0b00_1010_000_00111_00110_00101_0001_0001)
theorem fetch_reserved {s : State} {a : Dword} {w : Word} (h : (s.chip.fetch s.mgmt a).1 = .reserved w) :
    ∃ c, s.chip.fetch s.mgmt a = (.reserved w, c) := ⟨_, Prod.ext h rfl⟩
def inRepState : State := onT base fun t => { t with rep := some ⟨placedCode - 2, 2, true, true, true⟩, repc := 0x80 }
theorem wit_RepeatResults :
    (∃ c, repState.chip.fetch repState.mgmt (repState.chip.t.pc + 2) = (.instr (.vadd16 0 3 5) 0x14C4, c)) ∧
      repeatAllowed (.vadd16 0 3 5) true true true ((1 : BitVec 6).toNat + 1) = true ∧
    (∃ c, badRepState.chip.fetch badRepState.mgmt (badRepState.chip.t.pc + 2) = (.instr (.rep true true true 1) 0x0706, c)) ∧
      repeatAllowed (.rep true true true 1) true true true ((1 : BitVec 6).toNat + 1) = false ∧
    (∃ v, Claims.Scalar inRepState.chip.t (.add 5 6 7) 5 v) ∧ inRepState.chip.t.run = .ready ∧ inRepState.chip.t.pend = [] ∧
      inRepState.chip.t.snaps = [] ∧ inRepState.chip.t.loops = [] ∧
      inRepState.chip.t.rep = some ⟨placedCode - 2, 2, true, true, true⟩ ∧ inRepState.chip.t.pc + 4 ≠ endLink ∧
      inRepState.chip.t.pc ≠ endLink ∧ (63 : Nat) < 64 ∧
    (∃ w c, reservedRepState.chip.fetch reservedRepState.mgmt (reservedRepState.chip.t.pc + 2) = (.reserved w, c)) ∧
      (Instr.ldD 1 8 5 6).WellFormed ∧ 2 ^ 16 ≤ (instrWord (.ldD 1 8 5 6)).toNat ∧
      stepped (.ldD 1 8 5 6) true false false 26 = some (.ldD 1 8 31 6) ∧
      Claims.Fields (.vext false 7 5 15 6) (some 27) (some 1) (some 26) ∧ (Instr.vext false 7 5 15 6).WellFormed ∧
      Claims.NoRepeat (.bgeu 4 5 0x1FFFF) ∧ (1 : Nat) ≤ 64 :=
  ⟨fetch_of (by decide), by decide, fetch_of (by decide), by decide, ⟨_, .add 5 6 7⟩, rfl, rfl, rfl, rfl, rfl, by decide, by decide,
    by decide, (fetch_reserved (w := 0b00_1010_000_00111_00110_00101_0001_0001) (by decide)).elim fun c h => ⟨_, c, h⟩, by decide,
    by decide, by decide, .vext false 7 5 15 6, by decide, .branch _ _ _ _ _ (.bgeu 4 5 0x1FFFF), by decide⟩

def addState : State := poke base 0x200000 [0x01, 0x83, 0x14, 0x00]
theorem wit_StepRunsDecoded : ∃ c, addState.chip.fetch addState.mgmt addState.chip.t.pc = (.instr (.add 3 4 5) 0x00148301, c) ∧
    addState.inbox = [] ∧ addState.mayIssue = true ∧ addState.chip.reporting = none ∧ addState.chip.t.gangSize = 0 ∧
    c.t.gangSize = 0 ∧ (c.t.begin (.add 3 4 5)).current (.add 3 4 5) = some (.add 3 4 5) := by
  refine ⟨_, Prod.ext (by decide) rfl, rfl, by decide, by decide, rfl, by decide, by decide⟩

/-- The code page's entry and the frame page's, and their places. -/
def codeEntry : Dword := 0x0001000000200001
def frameEntry : Dword := 0x400001
def heldState : State := onC addState fun c => c.setDie 0 { c.die 0 with spans := [⟨0, false, codeEntry⟩] }
theorem seen_of (c : Chip) (a : AgentId) (loc : Nat) (h : historyGet c.hist loc = none) : Claims.Seen c a loc := by
  intro h' e; rw [h] at e; cases e
theorem codeAt_held (a : Dword) (off : Nat) (h : Half)
    (w : homeHeap heldState.mgmt a = some (0, off) ∧ off % 2 = 0 ∧ off / 2 ^ 21 = 0 ∧
      walk heldState.chip.mem 0 (heldState.chip.die 0).etroot off false = .leaf codeEntry 0x4000 ∧
      h = Mem.half heldState.chip.mem (heapKey 0 (entryAddr codeEntry + off % 2 ^ 21))) : Claims.CodeAt heldState a h := by
  refine ⟨0, off, codeEntry, 0x4000, w.1, w.2.1, ?_, ?_, w.2.2.2.1, ?_, by decide, by decide, by decide, ?_, w.2.2.2.2⟩
  · simp [denOffset, heldState, addState, poke, onC, base, State.withFetchWord, State.place]
  · have : (heldState.chip.core heldState.chip.tid.coreId).rgn = [0, 0, 0, 0] := by decide
    rw [this]; simp [subPage, regionHolds]
  · rw [w.2.2.1]; decide
  · exact seen_of _ _ _ (by rfl)
theorem wit_FetchReads : Claims.CodeAt heldState heldState.chip.t.pc 0x8301 ∧ isLong 0x8301 = true ∧
    Claims.CodeAt heldState (heldState.chip.t.pc + 2) 0x0014 ∧ heldState.chip.poison = [] :=
  ⟨codeAt_held _ 0 _ (by decide), by decide, codeAt_held _ 2 _ (by decide), rfl⟩

/-- The frame of the placed thread. -/
theorem frameAt_base (s : State) (key : Nat)
    (h : homeHeap s.mgmt placedFrame = some (0, 0x200000) ∧ homeHeap s.mgmt (placedFrame + 1024) = some (0, 0x200000 + 1024) ∧
      walk s.chip.mem 0 (s.chip.die 0).etroot 0x200000 false = .leaf frameEntry 0x4008 ∧
      heldLeaf (s.chip.die 0).spans 1 false = none ∧ key = 0x400000 ∧ s.chip.tcopies = []) :
    Claims.FrameAt s placedFrame key :=
  ⟨0, 0x200000, frameEntry, 0x4008, h.1, h.2.1, by decide, by decide, h.2.2.1, Or.inl h.2.2.2.1, by decide, by decide,
    by rw [h.2.2.2.2.1]; decide, by rw [h.2.2.2.2.2]; rfl⟩
/-- A doubleword below the frame is as before a write of the frame. -/
theorem dword_below (m : List Host.Cell) (bs : List Byte) (k : Nat) (h : k + 8 ≤ 0x400000) :
    Mem.dword (Mem.write m 0x400000 bs) k = Mem.dword m k := by
  have hg : ∀ j, j < 8 → Mem.get (Mem.write m 0x400000 bs) (k + j) = Mem.get m (k + j) := fun j hj => by
    rw [Mem.get_write, if_neg (by omega)]
  have h0 := hg 0 (by decide)
  rw [Nat.add_zero] at h0
  simp only [Mem.dword, Mem.word, Mem.half, Nat.add_assoc, h0, hg 1, hg 2, hg 3, hg 4, hg 5, hg 6, hg 7, Nat.reduceAdd, Nat.reduceLT]
/-- The placed table's walk, of page 1. -/
theorem placed_walk (m : List Host.Cell) (off : Nat) (hp : off / 2 ^ 21 = 1) (h1 : Mem.dword m 0x2000 = 0x8001)
    (h2 : Mem.dword m 0x8000 = 0x4001) (h3 : Mem.dword m 0x4008 = frameEntry) :
    walk m 0 0x2001 off false = .leaf frameEntry 0x4008 := by
  have o1 : off / 2 ^ 38 % 1024 * 8 = 0 := by omega
  have o2 : off / 2 ^ 26 % 4096 * 8 = 0 := by omega
  have o3 : off / 2 ^ 21 % 32 * 8 = 8 := by omega
  have k1 : heapKey 0 (((0x2001 : Dword).extractLsb' 13 27).toNat * 2 ^ 13 + 0) = 0x2000 := by decide
  have k2 : heapKey 0 (entryAddr 0x8001 + 0) = 0x8000 := by decide
  have k3 : heapKey 0 (0x4000 + 8) = 0x4008 := by decide
  have t : spanTable m 0 0x2001 off = .ok 0x4000 := by
    simp only [spanTable, o1, o2, k1, k2, h1, h2]
    rfl
  simp only [walk, t, o3, k3, h3]
  rfl
/-- The placed table finds a frame in page 1 through doublewords that no frame at its first byte holds. -/
theorem table_apart (s : State) (f : Dword) (off : Nat) (h : homeHeap s.mgmt f = some (0, off) ∧ off / 2 ^ 21 = 1 ∧
    (s.chip.die 0).etroot = 0x2001 ∧ Mem.dword s.chip.mem 0x2000 = 0x8001 ∧ Mem.dword s.chip.mem 0x8000 = 0x4001 ∧
    Mem.dword s.chip.mem 0x4008 = frameEntry) : Claims.TableApart s f 0x400000 := by
  obtain ⟨hf, hp, hr, h1, h2, h3⟩ := h
  intro d o bs hh _
  rw [hf] at hh; cases hh
  rw [hr, placed_walk _ _ hp h1 h2 h3, placed_walk _ _ hp ((dword_below _ _ 0x2000 (by decide)).trans h1)
    ((dword_below _ _ 0x8000 (by decide)).trans h2) ((dword_below _ _ 0x4008 (by decide)).trans h3)]

/-- What the hardware keeps of a task's frame, at the frame's first byte. -/
def imageOf (task : Nat) : FrameImage := ⟨task, heapLoc 0 0x200000, List.replicate 2048 0⟩
theorem kept_of (s : State) (task : Nat) (f : Dword)
    (h : (s.chip.images = [] ∨ s.chip.images = [imageOf task]) ∧ homeHeap s.mgmt f = some (0, 0x200000)) :
    Claims.KeptAt s task f := by
  intro k hk _
  obtain ⟨e, hf⟩ := h
  rcases e with e | e <;> rw [e] at hk
  · cases hk
  · rw [List.mem_singleton.1 hk]
    exact ⟨List.length_replicate .., 0, 0x200000, hf, rfl⟩
/-- No store is behind the thread, from a check that can be run; and one is: a vst of the whole register. -/
theorem stored_of (s : State) (h : (s.chip.t.pend.all fun p => p.access.all fun acc => !acc.lasting) = true) : Claims.Stored s := by
  intro p hp acc ha
  have := List.all_eq_true.1 h p hp
  rw [Option.mem_def.1 ha] at this
  simpa using this
def vstWaits : State := pendState 2 (some (.vstore placedFrame 0xFF ⟨0, 0, 0, 0, 0, 0, 0, 0⟩))
theorem not_stored : ¬ Claims.Stored vstWaits := fun h => by
  have := h _ (List.mem_singleton_self _) _ rfl
  exact absurd this (by decide)
/-- Some waiting access of the one pending entry passes a test. -/
theorem waits_of {t : Thread} {p : Pending} {acc : Access} {test : Access → Bool}
    (h : t.pend = [p] ∧ p.access = some acc ∧ test acc = true) : Claims.Waits t test :=
  ⟨p, by rw [h.1]; exact List.mem_singleton_self _, acc, h.2.1, h.2.2⟩

def handlerState : State := onT base fun t => { t with handler := some 0, sup := true }
theorem wit_ExceptionEntry :
    Claims.Stored base ∧ Claims.Stored loadWaits ∧ Claims.Stored handlerState ∧ ¬ Claims.Stored vstWaits ∧
    base.chip.t.handler = none ∧ base.chip.t.run = .ready ∧ base.chip.t.gangSize = 0 ∧ Claims.Alone base 4 ∧
      Claims.FrameAt base base.chip.t.csr.tframe 0x400000 ∧ handlerState.chip.t.handler = some 0 ∧
      Claims.FrameAt handlerState handlerState.chip.t.csr.tframe 0x400000 ∧
      (handlerState.chip.die handlerState.chip.tid.die).logsize = 0 :=
  ⟨stored_of _ (by decide), stored_of _ (by decide), stored_of _ (by decide), not_stored,
    rfl, rfl, rfl, alone_of _ _ (by decide), frameAt_base _ _ (by decide), rfl, frameAt_base _ _ (by decide), by decide⟩

-- four loops, one of the longest body, and 16 pending entries
def fullThread : Thread := { base.chip.t with
  loops := List.replicate 4 ⟨placedCode, placedCode + 2 * 131071, 3⟩, pend := List.replicate 16 (pendOf 3 none) }
theorem wit_FrameRoundTrip :
    fullThread.loops.length ≤ 4 ∧
      (∀ e ∈ fullThread.loops, ∃ n : BitVec 17, e.stop = e.start + 2 * n.setWidth 64) ∧ fullThread.csr.lwin.length = 4 ∧
      fullThread.csr.tile.length = 4 ∧ fullThread.csr.org.length = 4 ∧ fullThread.csr.ext.length = 4 ∧
      fullThread.pend.length ≤ 16 := by
  refine ⟨by decide, ?_, by decide, by decide, by decide, by decide, by decide⟩
  intro e he
  rw [List.eq_of_mem_replicate he]
  exact ⟨131071, by decide⟩

def placedTask : Task := ⟨1, 1, none, 0, 0, 0, 0, [0, 0, 0, 0]⟩
def imageState : State := onC handlerState fun c => { c with images := [imageOf 1] }
theorem wit_EretResults :
    (imageState.chip.t.task = some placedTask ∧
      imageState.chip.t.handler = some (frameDword (Claims.frameOf imageState placedTask.id 0x400000) 0) ∧
      Claims.FrameAt imageState imageState.chip.t.csr.tframe 0x400000 ∧ Claims.Quiet imageState ∧
      (frameDword (Claims.frameOf imageState placedTask.id 0x400000) 0).getLsbD 7 = false ∧
      (frameDword (Claims.frameOf imageState placedTask.id 0x400000) 0).extractLsb' 11 5 = 0 ∧
      frameDword (Claims.frameOf imageState placedTask.id 0x400000) 8 &&& ~~~1 ≠ endLink) ∧
    Claims.frameOf handlerState placedTask.id 0x400000 = Mem.bytes handlerState.chip.mem 0x400000 2048 ∧
    handlerState.chip.t.task = some placedTask ∧ handlerState.chip.t.handler = some (frameDword (Claims.frameOf handlerState placedTask.id 0x400000) 0) ∧
      Claims.FrameAt handlerState handlerState.chip.t.csr.tframe 0x400000 ∧ Claims.Quiet handlerState ∧
      (frameDword (Claims.frameOf handlerState placedTask.id 0x400000) 0).getLsbD 7 = false ∧
      (frameDword (Claims.frameOf handlerState placedTask.id 0x400000) 0).extractLsb' 11 5 = 0 ∧
      frameDword (Claims.frameOf handlerState placedTask.id 0x400000) 8 &&& ~~~1 ≠ endLink ∧
      (onT handlerState fun t => { t with handler := some 0x80 }).chip.t.handler = some 0x80 ∧
      ((0x80 : Dword) ≠ frameDword (Claims.frameOf (onT handlerState fun t => { t with handler := some 0x80 }) placedTask.id 0x400000) 0 ∨
        (0x80 : Dword).getLsbD 7 = true) :=
  ⟨⟨rfl, by decide, frameAt_base _ _ (by decide), (by intro p h; cases h), by decide, by decide, by decide⟩, by rfl, rfl,
    by decide, frameAt_base _ _ (by decide), (by intro p h; cases h), by decide, by decide, by decide, rfl, Or.inr (by decide)⟩

def waitingHandler : State := onT handlerState fun t => { t with pend := [pendOf 3 (some (.load 3 0))] }
def saveState : State := regs (window handlerState) [(6, 0xFFF8)]
theorem wit_HandlerEnds :
    (Claims.TableApart saveState saveState.chip.t.csr.tframe 0x400000 ∧
      Claims.KeptAt saveState placedTask.id saveState.chip.t.csr.tframe ∧
      Claims.KeptAt (onC saveState fun c => { c with images := [imageOf 1] }) placedTask.id saveState.chip.t.csr.tframe) ∧
    handlerState.chip.t.handler = some 0 ∧ handlerState.chip.t.run = .ready ∧ handlerState.chip.t.gangSize = 0 ∧
      handlerState.chip.t.pend = [] ∧ waitingHandler.chip.t.handler = some 0 ∧ waitingHandler.chip.t.run = .ready ∧
      waitingHandler.chip.t.pend = [pendOf 3 (some (.load 3 0))] ∧ (pendOf 3 (some (.load 3 0))).access.isSome = true ∧
      Claims.FrameAt handlerState handlerState.chip.t.csr.tframe 0x400000 ∧
      (handlerState.chip.die handlerState.chip.tid.die).logsize = 0 ∧ saveState.chip.t.handler = some 0 ∧
      saveState.chip.t.task = some placedTask ∧ saveState.chip.t.pend = [] ∧
      Claims.FrameAt saveState saveState.chip.t.csr.tframe 0x400000 ∧ (saveState.chip.t.getX 6).toNat + 8 ≤ 2 ^ 16 ∧
      (saveState.chip.t.getX 6).toNat % 8 = 0 ∧
      windowAllows saveState.chip.t.csr.lwin (saveState.chip.t.getX 6).toNat 8 false true = true ∧
      tableGet saveState.chip.tcopies (pageOf (sliceLoc saveState.chip.tid.coreId (saveState.chip.t.getX 6).toNat)) = none :=
  ⟨⟨table_apart _ _ 0x200000 (by decide), kept_of _ _ _ ⟨Or.inl (by decide), by decide⟩, kept_of _ _ _ ⟨Or.inr (by rfl), by decide⟩⟩,
    rfl, rfl, rfl, rfl, rfl, rfl, rfl, rfl, frameAt_base _ _ (by decide), by decide, rfl, rfl, rfl, frameAt_base _ _ (by decide), by decide, by decide, by decide,
    by decide⟩

theorem reach_of {s : State} {w : Who} {k : Kind} {rw_ : Bool} {a : Dword} {n : Nat} {r : Reach}
    (h : (s.chip.reach s.mgmt w k rw_ a n).1 = r) : ∃ c, s.chip.reach s.mgmt w k rw_ a n = (r, c) := ⟨_, Prod.ext h rfl⟩
-- a held task's frame: ST 3; and code of one halfword, with the length in the pair's second register
def heldTask : State := regs (poke supState 0x400000 [3]) [(6, placedFrame), (8, placedCode), (9, 1), (10, placedCode), (11, 1025)]
-- another thread waits for a word that it found through an entry of die 0's first span
def otherThread : TId := ⟨3, 0, 0, 0⟩
def waitsElsewhere : State := onC heldTask fun c => { c with others :=
  [(otherThread, { Thread.reset with run := .wait (.access (.x 5) (.load 2 placedCode) [⟨⟨0, 0x200000⟩, 1⟩] 0 0 0) })] }
theorem wit_SupervisorResults :
    (Claims.TableApart heldTask (heldTask.chip.t.getX 6) 0x400000 ∧
      Claims.KeptAt heldTask (heldTask.chip.heldTask (heldTask.chip.t.getX 6)) (heldTask.chip.t.getX 6) ∧
      (onT waitsElsewhere fun t => { t with dropped := some [0] }).chip.t.dropped = some [0] ∧ waitsElsewhere.chip.t.dropped = none ∧
      supState.chip.t.dropped = none ∧ (onT supState fun t => { t with dropped := some [4] }).chip.t.dropped = some [4] ∧
      heldTask.chip.t.dropped = none ∧ heldTask.chip.others = []) ∧
    (supState.chip.others = [] ∧ waitsElsewhere.chip.t.sup = true ∧ waitsElsewhere.chip.t.run = .ready ∧
      waitsElsewhere.chip.t.pend = [] ∧ homeHeap waitsElsewhere.mgmt (waitsElsewhere.chip.t.getX 6) = some (0, 0x200000) ∧
      waitsElsewhere.chip.others = [(otherThread, { Thread.reset with
        run := .wait (.access (.x 5) (.load 2 placedCode) [⟨⟨0, 0x200000⟩, 1⟩] 0 0 0) })] ∧ (1 : Dword) ≠ 0 ∧
      (0 : Nat) / 2 ^ 48 = (0 : BitVec 3).toNat ∧ homeHeap supState.mgmt (supState.chip.t.getX 6) = none) ∧
    supState.chip.t.sup = true ∧ Claims.Alone supState 4 ∧ homeHeap heldTask.mgmt (heldTask.chip.t.getX 6) = some (0, 0x200000) ∧
      Claims.Alone heldTask 4 ∧ heldTask.chip.t.sup = true ∧ Claims.FrameAt heldTask (heldTask.chip.t.getX 6) 0x400000 ∧
      (∃ sp e c, heldTask.chip.reach heldTask.mgmt (heldTask.chip.t.who heldTask.chip.tid) .write false
        (heldTask.chip.t.getX 6) 8 = (.ok sp e, c) ∧ sp.key = 0x400000) ∧
      (frameDword (Claims.frameOf heldTask (heldTask.chip.heldTask (heldTask.chip.t.getX 6)) 0x400000) 0).extractLsb' 0 3 = 3 ∧ (10 : Reg) ≠ 0 ∧
      1024 < (heldTask.chip.t.getX (10 + 1)).toNat ∧ heldTask.chip.t.getX (8 + 1) ≠ 0 ∧
      (heldTask.chip.t.getX (8 + 1)).toNat ≤ 1024 ∧
      ∃ code c, Chip.readHalves heldTask.mgmt heldTask.chip.issuer [] (heldTask.chip.t.getX (8 + 1)).toNat
        (heldTask.chip.t.getX 8) [] heldTask.chip = (.ok code, c) ∧ c.t = heldTask.chip.t := by
  refine ⟨⟨table_apart _ _ 0x200000 (by decide), kept_of _ _ _ ⟨Or.inl (by decide), by decide⟩, rfl, rfl, rfl, rfl, rfl, by decide⟩,
    ⟨by decide, rfl, rfl, rfl, by decide, rfl, by decide, by decide, by decide⟩, rfl, alone_of _ _ (by decide), by decide,
    alone_of _ _ (by decide), rfl, frameAt_base _ _ (by decide), ?_, by decide,
    by decide, by decide, by decide, by decide, [0], _, Prod.ext (by decide) rfl, by decide⟩
  exact ⟨⟨0x200000, 0x400000⟩, frameEntry, _, Prod.ext (by decide) rfl, rfl⟩

theorem wit_PrivilegeAndCsrFaults :
    (0x0E ≤ (0x00E : BitVec 10).toNat ∧ (0x00F : BitVec 10).toNat ≤ 0x0F) ∧
      (0x28 ≤ (0x028 : BitVec 10).toNat ∧ (0x0FF : BitVec 10).toNat ≤ 0xFF) ∧ 0x106 ≤ (0x106 : BitVec 10).toNat ∧
      (0x10 ≤ (0x010 : BitVec 10).toNat ∧ (0x01F : BitVec 10).toNat ≤ 0x1F) ∧ base.chip.t.sup = false ∧
      (0x20 ≤ (0x020 : BitVec 10).toNat ∧ (0x027 : BitVec 10).toNat ≤ 0x27) ∧
      (0x100 ≤ (0x100 : BitVec 10).toNat ∧ (0x105 : BitVec 10).toNat ≤ 0x105) ∧ base.chip.t.handler = none ∧
      (0x010 : BitVec 10).toNat ≠ 0 ∧ supState.chip.t.sup = true ∧ supState.chip.t.handler = none ∧
      Claims.FrameAt supState supState.chip.t.csr.tframe 0x400000 :=
  ⟨by decide, by decide, by decide, by decide, by decide, by decide, by decide, by decide, by decide, by decide, by decide,
    frameAt_base _ _ (by decide)⟩

def storeWaits : State := pendState 2 (some (.store 2 0 0))
def ffWaits : State := pendState 2 (some (.sync .ldwFf true false 2 0 0 none))
def barState (need : Word) : State := onT base fun t => { t with csr := { t.csr with barp := need } }
def barHere : BarKey := barKey base.chip.t base.chip.tid 2 31 base.chip.t.csr.ldkey
/-- An instance in use, with a release and a tied write; and another thread's task, whose releases precede the acquire. -/
def barIn (need : Word) (b : Barrier) : State := onC (barState need) fun c => { c with barriers := [b] }
def barBegun : State := barIn 3 ⟨barHere, 2, 1, 0, [7], [(0, 3)], []⟩
-- an instance in use by two; one of three of which two have arrived, one of them with a read that waits; and one that counts hold
def barFull : State := barIn 3 ⟨barHere, 2, 2, 0, [], [], []⟩
def thirdThread : TId := ⟨3, 0, 1, 0⟩
def waiting (pend : List Pending) : Thread := { Thread.reset with run := .wait (.barrier barHere), pend := pend }
def withWaiters (s : State) : State := onC s fun c => { c with
  others := [(otherThread, waiting []), (thirdThread, waiting [pendOf 3 (some (.load 3 0))])] }
def barLast : State := withWaiters (barIn 3 ⟨barHere, 3, 2, 0, [7], [(0, 3)], []⟩)
def barCounted : State := regs (withWaiters (barIn 2 ⟨barHere, 2, 2, -1, [7], [(0, 3)], []⟩)) [(6, 1)]
theorem waiters_alone (s : State) (h : (s.chip.tid = base.chip.tid) ∧ s.chip.others = (withWaiters base).chip.others) :
    Claims.WaitersAlone s barHere := by
  rw [Claims.WaitersAlone, h.1, h.2]
  refine ⟨by decide, fun e he _ => ?_⟩
  rcases List.mem_cons.1 he with rfl | he
  · exact Or.inl ⟨rfl, rfl, rfl, rfl, by decide⟩
  · rw [List.mem_singleton.1 he]
    exact Or.inr (waits_of ⟨rfl, rfl, rfl⟩)
/-- An arrival of the task that passed; and one that stands. -/
def passedState (pend : List Pending) : State := onC (onT base fun t => { t with pend := pend }) fun c => { c with
  passed := [⟨1, barHere, [7], [(0, 3)]⟩] }
theorem fresh_of (s : State) (h : s.chip.passed = [] ∧ (s.chip.barriers.all fun b => b.standing.isEmpty) = true) :
    Claims.Fresh s 2 31 := by
  refine ⟨fun _ he => ?_, fun b hb _ _ hm => ?_⟩
  · rw [h.1] at he; cases he
  have := List.all_eq_true.1 h.2 b hb
  rw [List.isEmpty_iff.1 this] at hm; cases hm
def releasedState (ahead sys : List Nat) : State := onC base fun c => { c.setAgent { Agent.fresh (.task 1) with ahead := ahead } with
  rels := [⟨7, .task 2, .thread ⟨1, 0, 7, 15⟩, 5, [(0, 3)], []⟩], sysRels := sys }
theorem wit_BoundaryAndBarrierResults_boundaries :
    Claims.Boundary (.phase 5) true true 5 ∧ Claims.Alone base 4 ∧
      (∀ p ∈ [([7], ([] : List Nat), (2 : BitVec 3)), ([], [7], 5)], Claims.Alone (releasedState p.1 p.2.1) 4 ∧
        ((7 : Nat) ∈ ((releasedState p.1 p.2.1).chip.agent (releasedState p.1 p.2.1).chip.t.agentId).ahead ∨
          (p.2.2 = 5 ∧ (7 : Nat) ∈ (releasedState p.1 p.2.1).chip.sysRels)) ∧
        inInstance 5 (.task 2) (.thread ⟨1, 0, 7, 15⟩) base.chip.t.agentId (.thread base.chip.tid) = true ∧
        inInstance p.2.2 base.chip.t.agentId (.thread base.chip.tid) (.task 2) (.thread ⟨1, 0, 7, 15⟩) = true) ∧
      (releasedState [7] []).chip.rels = [⟨7, .task 2, .thread ⟨1, 0, 7, 15⟩, 5, [(0, 3)], []⟩] ∧
      Claims.Boundary (.fenceRel 2) true false 2 ∧ Claims.Boundary (.fenceAcq 2) false true 2 ∧
      Claims.Waits storeWaits.chip.t (fun acc => acc.writes || acc.acquires) ∧
      Claims.Waits ffWaits.chip.t (fun acc => acc.writes || acc.acquires) ∧ Claims.Waits loadWaits.chip.t Access.readsMem := by
  refine ⟨.phase 5, alone_of _ _ (by decide), ?_, rfl, .rel 2, .acq 2, waits_of ⟨rfl, rfl, rfl⟩, waits_of ⟨rfl, rfl, rfl⟩,
    waits_of ⟨rfl, rfl, rfl⟩⟩
  intro p hp
  rcases List.mem_cons.1 hp with rfl | hp
  · exact ⟨alone_of _ _ (by decide), by decide, by decide, by decide⟩
  · rw [List.mem_singleton.1 hp]
    exact ⟨alone_of _ _ (by decide), by decide, by decide, by decide⟩
theorem wit_BoundaryAndBarrierResults :
    (∀ n, Claims.Alone (barState n) 4 ∧ Claims.Fresh (barState n) 2 31 ∧ (barrierGet (barState n).chip.barriers barHere).arr = 0 ∧
      (barrierGet (barState n).chip.barriers barHere).cnt = 0 ∧ (barState n).chip.others = []) ∧
    Claims.Fresh storeWaits 2 31 ∧ (barState 0).chip.t.csr.barp = 0 ∧ (2 : BitVec 3) ≠ 0 ∧ Claims.need (barState 1) 2 = 1 ∧
    Claims.need (barState 2) 2 ≠ 1 ∧ Claims.need (barState 2) 2 ≠ 0 ∧
    (∀ s ∈ [barBegun, barFull, barLast, barCounted], Claims.Alone s 4 ∧ Claims.Fresh s 2 31 ∧ Claims.need s 2 ≠ 0 ∧
      barKey s.chip.t s.chip.tid 2 31 s.chip.t.csr.ldkey = barHere) ∧
    barrierGet barBegun.chip.barriers barHere = ⟨barHere, 2, 1, 0, [7], [(0, 3)], []⟩ ∧ Claims.need barBegun 2 = 3 ∧
    barrierGet barFull.chip.barriers barHere = ⟨barHere, 2, 2, 0, [], [], []⟩ ∧
    barrierGet barLast.chip.barriers barHere = ⟨barHere, 3, 2, 0, [7], [(0, 3)], []⟩ ∧ Claims.need barLast 2 = 3 ∧
    Claims.WaitersAlone barLast barHere ∧
    barrierGet barCounted.chip.barriers barHere = ⟨barHere, 2, 2, -1, [7], [(0, 3)], []⟩ ∧
    (-1 : BitVec 56) + BitVec.ofNat 56 (barCounted.chip.t.getX 6).toNat = 0 ∧ Claims.WaitersAlone barCounted barHere := by
  refine ⟨fun n => ⟨⟨rfl, rfl, rfl, rfl, rfl, goes_on⟩, fresh_of _ ⟨rfl, rfl⟩, rfl, rfl, (by decide : base.chip.others = [])⟩,
    fresh_of _ ⟨rfl, rfl⟩, rfl, by decide, by decide, by decide, by decide, ?_, by decide, by decide, by decide, by decide, by decide,
    waiters_alone _ (by decide), by decide, by decide, waiters_alone _ (by decide)⟩
  intro s hs
  simp only [List.mem_cons, List.not_mem_nil, or_false] at hs
  rcases hs with rfl | rfl | rfl | rfl <;>
    exact ⟨alone_of _ _ (by decide), fresh_of _ (by decide), by decide, by decide⟩
theorem wit_BoundaryAndBarrierResults_passed :
    (passedState []).chip.passed.find? (fun q => decide (q.task = Claims.taskOf (passedState []).chip.t ∧ q.key.scope = 2 ∧ q.key.id = 31)) =
      some ⟨1, barHere, [7], [(0, 3)]⟩ ∧ Claims.Alone (passedState []) 4 ∧
      (passedState [pendOf 2 (some (.load 2 0))]).chip.passed = (passedState []).chip.passed ∧
      Claims.Waits (passedState [pendOf 2 (some (.load 2 0))]).chip.t Access.readsMem :=
  ⟨by decide, alone_of _ _ (by decide), rfl, waits_of ⟨rfl, rfl, rfl⟩⟩

def twoTasks : Chip := base.chip.setAgent { Agent.fresh (.task 2) with ahead := [base.chip.clock] }
def wrote : Chip := { base.chip.setAgent { Agent.fresh (.task 1) with mine := [(0, 3)] } with clock := 4 }
def oldRead : Chip := { base.chip with hist := [⟨0, [⟨1, 0, none, none⟩, ⟨0, 7, none, none⟩]⟩] }
theorem wit_ReleaseReachesAcquire :
    inInstance 2 (.task 1) (.thread ⟨1, 0, 0, 0⟩) (.task 2) (.thread ⟨1, 0, 7, 15⟩) = true ∧
      inInstance 2 (.task 2) (.thread ⟨1, 0, 7, 15⟩) (.task 1) (.thread ⟨1, 0, 0, 0⟩) = true ∧
      twoTasks.clock ∈ ((twoTasks.release (.task 1) (.thread ⟨1, 0, 0, 0⟩) 2).2.agent (.task 2)).ahead ∧
      historyGet oldRead.hist 0 = some ⟨0, [⟨1, 0, none, none⟩, ⟨0, 7, none, none⟩]⟩ ∧
      WordHistory.current ⟨0, [⟨1, 0, none, none⟩, ⟨0, 7, none, none⟩]⟩ (Mem.word oldRead.mem 0) = true ∧
      (∃ v ∈ [(⟨1, 0, none, none⟩ : Version), ⟨0, 7, none, none⟩], Claims.earliest oldRead (.task 1) 0 ≤ v.id) ∧
      (∃ w c, oldRead.readWord (.task 1) 0 0 = (w, c)) ∧ (0, 3) ∈ (wrote.agent (.task 1)).mine ∧ 3 < wrote.clock := by
  exact ⟨by decide, by decide, by decide, rfl, by decide, ⟨_, List.mem_cons_self, by decide⟩, ⟨_, _, rfl⟩, by decide, by decide⟩

/-! ### Memory -/

def me : TId := ⟨1, 0, 0, 0⟩
def kindR : Kind := .read
/-- The window's last doubleword, and a doubleword of the heap in the frame's page. -/
def topState : State := regs (window base) [(6, 0xFFF8), (7, 0xFFF0), (8, 0xFFC0), (9, placedFrame + 0x1000)]
def topSpot : Spot := ⟨sliceLoc ⟨1, 0, 0⟩ 0xFFF8, sliceKey ⟨1, 0, 0⟩ 0xFFF8⟩
def heapSpot : Spot := ⟨0x201000, 0x401000⟩
theorem at_of {s : State} {k : Kind} {rw_ : Bool} {a : Dword} {n : Nat} {sp : Spot} (e : Dword)
    (h : (s.chip.reach s.mgmt (s.chip.t.who s.chip.tid) k rw_ a n).1 = .ok sp e) : Claims.At s k rw_ a n sp :=
  ⟨e, _, Prod.ext h rfl⟩

def otherModule : Mgmt := { Mgmt.reset with modid := 7 }
def userOf (key : BitVec 16) : Who := ⟨.task 1, me, key, false, false⟩
theorem wit_AddressChecks :
    (kindR ≠ .fetch ∧ (0xFFF8 : Dword).toNat < 2 ^ 16 ∧
      Claims.Allows (topState.chip.thread (userOf 1).tid) (0xFFF8 : Dword).toNat 8 (true || decide (kindR = .read))
        (true || decide (kindR ≠ .read)) ∧
      ¬ Claims.Allows (base.chip.thread (userOf 1).tid) (0xFFF8 : Dword).toNat 8 (true || decide (kindR = .read))
        (true || decide (kindR ≠ .read))) ∧
    (2 ^ 16 ≤ (0x10000 : Dword).toNat ∧ (0xFFFFFFFFFFFFF : Dword).toNat < 2 ^ 52) ∧
    (2 ^ 52 ≤ (0xFFF8C80000000000 : Dword).toNat ∧ (0xFFF8C80000000000 : Dword).getLsbD 51 = true ∧
      49 < ((0xFFF8C80000000000 : Dword).extractLsb' 42 6).toNat) ∧
    (2 ^ 52 ≤ (0x0010000000000000 : Dword).toNat ∧ (0x0010000000000000 : Dword).extractLsb' 52 12 ≠ 0xFFF ∧
      (0x0010000000000000 : Dword).extractLsb' 52 12 ≠ base.mgmt.modid ∧ base.mgmt.faben = false) ∧
    ((0xFFF8C40000000FF8 : Dword).extractLsb' 52 12 = 0xFFF ∧ (0xFFF8C40000000FF8 : Dword).getLsbD 51 = true ∧
      ((0xFFF8C40000000FF8 : Dword).extractLsb' 42 6).toNat ≤ 49 ∧ ((0xFFF8C40000000FF8 : Dword).extractLsb' 36 6).toNat ≤ 49 ∧
      (0xFFF8C40000000FF8 : Dword).extractLsb' 16 17 = 0 ∧ (0 : Nat) < 8 ∧
      ((userOf 0).sup = true ∨ ∀ b, 0xFF8 / 4096 ≤ b → b ≤ (0xFF8 + 8 - 1) / 4096 →
        (base.chip.core (sliceCore 0xFFF8C40000000FF8)).keys.getD b 0 = (userOf 0).key) ∧
      ¬ ((userOf 1).sup = true ∨ ∀ b, 0xFF8 / 4096 ≤ b → b ≤ (0xFF8 + 8 - 1) / 4096 →
        (base.chip.core (sliceCore 0xFFF8C40000000FF8)).keys.getD b 0 = (userOf 1).key)) ∧ otherModule.modid ≠ 0 := by
  refine ⟨⟨by decide, by decide, ?_, ?_⟩, by decide, by decide, by decide, ⟨by decide, by decide, by decide, by decide, by decide,
    by decide, Or.inr ?_, ?_⟩, by decide⟩
  · exact ⟨0x30100000000, by decide, by decide, by decide, by decide, by decide⟩
  · have hl : (base.chip.thread (userOf 1).tid).csr.lwin = [0, 0, 0, 0] := by decide
    rintro ⟨p, hp, -, h2, -, -⟩
    rw [hl] at hp
    have : p = 0 := by simpa using hp
    subst this
    exact absurd h2 (by decide)
  · intro b h1 h2
    have : b = 0 := by omega
    subst this; decide
  · rintro (h | h)
    · exact absurd h (by decide)
    · exact absurd (h 0 (by decide) (by decide)) (by decide)

/-- The placed table with page 1's entry e, and page 2's an L4 table with one sub-page entry. -/
def entryState (e : Dword) : State := onC (poke (poke (poke base 0x4008 (bytesOfDword e)) 0x4010 (bytesOfDword 0x10003)) 0x10000
  (bytesOfDword 0x600001)) fun c => c.setDie 0 { c.die 0 with spans := [⟨1, false, e⟩] }
def roEntry : Dword := 0x800000400001
def awayEntry : Dword := 0x8000000400001
def zeroEntry : Dword := 0x2000000400001
def shadowEntry : Dword := 0x400000400001
/-- A region of the placed thread's core that names page 1 of die 0 with SUB. -/
def subRegion : Dword := 0xC001000000200000
def regionState : State := onC base fun c => c.setCore me.coreId { c.core me.coreId with rgn := [subRegion, 0, 0, 0] }
/-- A region that names page 2 with SUB, whose sub-page entries and sub-table the translation holds. -/
def subState : State := onC (entryState frameEntry) fun c =>
  (c.setCore me.coreId { c.core me.coreId with rgn := [0xC001000000400000, 0, 0, 0] }).setDie 0
    { c.die 0 with spans := [⟨2, false, 0x10003⟩, ⟨4096, true, 0x600001⟩] }
theorem wit_TranslationResults :
    ((userOf 1).engine = false ∧ (regionState.chip.core me.coreId).rgn.find? (fun r => r.getLsbD 63 &&
        decide (r.extractLsb' 18 3 = (0 : BitVec 3)) && decide ((r.extractLsb' 21 27).toNat ≤ 0x200000 / 2 ^ 21) &&
        decide (0x200000 / 2 ^ 21 < (r.extractLsb' 21 27).toNat + (r.extractLsb' 48 14).toNat)) = some subRegion ∧
      shadowEntry.getLsbD 46 = true ∧ ({ userOf 1 with engine := true } : Who).engine = true) ∧
    (0 : Dword).getLsbD 0 = false ∧ (0x2001 : Dword).getLsbD 0 = true ∧
      ((0x2001 : Dword).extractLsb' 13 27).toNat * 2 ^ 13 < 0x20 * 2 ^ 32 ∧
      -- an L1 entry that is not valid, and one whose table is not aligned
      (Mem.dword base.chip.mem (heapKey 0 (0x2000 + 2 ^ 38 / 2 ^ 38 % 1024 * 8))).getLsbD 0 = false ∧
      ((0x101 : Dword).getLsbD 0 = true ∧ pointerForm 0x101 (2 ^ 15) = false) ∧
      -- L2 and L3 entries that are not valid
      (Mem.dword base.chip.mem (heapKey 0 (0x8000 + 2 ^ 26 / 2 ^ 26 % 4096 * 8))).getLsbD 0 = false ∧
      pointerForm 0x8001 (2 ^ 15) = true ∧ pointerForm 0x4001 (2 ^ 8) = true ∧
      (Mem.dword base.chip.mem (heapKey 0 (0x4000 + 3 * 2 ^ 21 / 2 ^ 21 % 32 * 8))).getLsbD 0 = false ∧
      -- a page, a sub-table and a sub-page
      (frameEntry.getLsbD 0 = true ∧ frameEntry.getLsbD 1 = false ∧ pageForm frameEntry 0 = true) ∧
      ((0x10003 : Dword).getLsbD 0 = true ∧ (0x10003 : Dword).getLsbD 1 = true ∧ subTableForm 0x10003 = true) ∧
      ((0x600001 : Dword).getLsbD 0 = true ∧ subPageForm 0x600001 = true) ∧
      -- leaves that are held: plain, RO, absent, ZERO
      (∀ e ∈ [frameEntry, roEntry, awayEntry, zeroEntry, shadowEntry], (entryState e).chip.idle = [] ∧
        walk (entryState e).chip.mem 0 ((entryState e).chip.die 0).etroot 0x200000
          (subPage ((entryState e).chip.regionsOf (userOf 1)) 0 0x200000) = .leaf e 0x4008 ∧
        Claims.Held (entryState e).chip 0 0x200000 (subPage ((entryState e).chip.regionsOf (userOf 1)) 0 0x200000) e) ∧
      (subPage (subState.chip.regionsOf (userOf 1)) 0 0x400000 = true ∧
        walk subState.chip.mem 0 (subState.chip.die 0).etroot 0x400000 true = .leaf 0x600001 0x10000 ∧
        Claims.Held subState.chip 0 0x400000 true 0x600001) ∧
      roEntry.getLsbD 47 = true ∧ frameEntry.getLsbD 48 = false ∧ awayEntry.extractLsb' 50 2 = 2 ∧
      (zeroEntry.extractLsb' 50 2 ≠ 2 ∧ zeroEntry.getLsbD 49 = true) ∧
      (frameEntry.extractLsb' 50 2 ≠ 2 ∧ frameEntry.getLsbD 49 = false ∧ frameEntry.getLsbD 47 = false ∧
        frameEntry.getLsbD 46 = false) := by
  refine ⟨by decide, by decide, by decide, by decide, by decide, by decide, by decide, by decide, by decide, by decide, by decide,
    by decide, by decide, ?_, ⟨by decide, by decide, by decide, fun _ => ⟨0x4000, by decide, by decide⟩⟩, by decide, by decide, by decide,
    by decide, by decide⟩
  intro e he
  have sub : subPage (base.chip.regionsOf (userOf 1)) 0 0x200000 = false := by decide
  simp only [List.mem_cons, List.not_mem_nil, or_false] at he
  rcases he with rfl | rfl | rfl | rfl | rfl <;>
    exact ⟨by decide, by decide, by decide, fun h => absurd (show subPage (base.chip.regionsOf (userOf 1)) 0 0x200000 = true from h)
      (by rw [sub]; decide)⟩

theorem seenBytes_of (s : State) (loc n : Nat) (h : s.chip.hist = []) : Claims.SeenBytes s loc n := by
  intro w _ _ _; exact seen_of _ _ _ (by rw [h]; rfl)
theorem noLines_of {s : State} {p : HoardLine → Prop} (h : s.chip.hoard = []) : ∀ l ∈ s.chip.hoard, p l := by
  rw [h]; intro l hl; cases hl
theorem wit_LoadResults :
    Claims.Load topState.chip.t (.ldD 3 0 5 6) 3 5 0xFFF8 8 ∧ Claims.Load topState.chip.t (.ldB 0 0x7FF 5 9) 0 5
      (placedFrame + 0x17FF) 1 ∧ Claims.Alone topState 4 ∧ (0xFFF8 : Dword).toNat % 8 = 0 ∧
      Claims.At topState .read false 0xFFF8 8 topSpot ∧ topState.chip.anyPoison topSpot.key 8 = false ∧
      Claims.SeenBytes topState topSpot.loc 8 ∧
      Claims.At topState .read false (placedFrame + 0x17FF) 1 ⟨0x2017FF, 0x4017FF⟩ ∧
      topState.chip.anyPoison 0x4017FF 1 = false ∧ Claims.SeenBytes topState 0x2017FF 1 ∧ Claims.NoLine topState topSpot.loc ∧
      Claims.NoLine topState 0x2017FF :=
  ⟨by exact Claims.Load.ldD 3 0 5 6, by exact Claims.Load.ldB 0 0x7FF 5 9, alone_of _ _ (by decide), by decide, at_of 0 (by decide),
    by decide, seenBytes_of _ _ _ (by decide), at_of frameEntry (by decide), by decide, seenBytes_of _ _ _ (by decide),
    noLines_of (by decide), noLines_of (by decide)⟩
theorem wit_StoreResults :
    Claims.Store topState.chip.t (.stD 0 0 5 6) 0 0xFFF8 (bytesOfDword (topState.chip.t.getX 5)) ∧ Claims.Alone topState 4 ∧
      (0xFFF8 : Dword).toNat % (bytesOfDword (topState.chip.t.getX 5)).length = 0 ∧
      Claims.At topState .write false 0xFFF8 (bytesOfDword (topState.chip.t.getX 5)).length topSpot ∧ Claims.NoCopy topState topSpot :=
  ⟨by exact Claims.Store.stD 0 0 5 6, alone_of _ _ (by decide), by decide, at_of 0 (by decide), by rfl⟩
def poisonState : State := onC (regs topState [(10, placedFrame)]) fun c => { c with poison := [0x401000] }
def absentState : State := regs (entryState awayEntry) [(9, placedFrame)]
theorem wit_AccessTraps :
    (Claims.NoLines topState ∧ Claims.NoLines poisonState ∧ topState.chip.t.handler = none ∧
      Claims.FirstPoison poisonState.chip heapSpot.key 8 0) ∧
    (∃ rd, Claims.Scal topState.chip.t (.ldl 0 5 6) 0xFFF8 8 .atomic true rd) ∧ topState.chip.t.pend = [] ∧
      (regs topState [(6, 0xFFF9)]).chip.t.getX 6 = 0xFFF9 ∧ (0xFFF9 : Dword).toNat % 8 ≠ 0 ∧ (0xFFF8 : Dword).toNat % 8 = 0 ∧
      (∃ c, base.chip.reach base.mgmt (base.chip.t.who base.chip.tid) .read false 0xFFF8 8 = (.fails Cause.localProtect, c)) ∧
      (∃ sp e c, poisonState.chip.reach poisonState.mgmt (poisonState.chip.t.who poisonState.chip.tid) .read false
        (placedFrame + 0x1000) 8 = (.ok sp e, c) ∧ c.anyPoison sp.key 8 = true) ∧
      (∃ page c, absentState.chip.reach absentState.mgmt (absentState.chip.t.who absentState.chip.tid) .read false
        (absentState.chip.t.getX 9) 8 = (.absent page, c)) :=
  ⟨⟨noLines_of (by decide), noLines_of (by decide), rfl, by decide, by decide, fun k h => absurd h (by omega)⟩,
    ⟨_, by exact Claims.Scal.ldl 0 5 6⟩, rfl, by decide, by decide, by decide, reach_of (by decide),
    ⟨heapSpot, frameEntry, _, Prod.ext (by decide) rfl, by decide⟩, ⟨placedFrame, reach_of (by decide)⟩⟩

def emptyState : State := onC topState fun c => { c with empties := [topSpot.key] }
theorem wit_SyncResults :
    (∃ v, Claims.Sync topState.chip.t (.ldwFe 0 3 5 5 6) .ldwFe 0 3 5 (.x 5) v 0xFFF8) ∧
      (∃ v, Claims.Sync emptyState.chip.t (.stwEf 2 2 0 5 6) .stwEf 2 2 0 .none v 0xFFF8) ∧ Claims.Alone topState 4 ∧
      Claims.Alone emptyState 4 ∧ (0xFFF8 : Dword).toNat % 4 = 0 ∧
      Claims.At topState (Claims.SyncForm.kind .ldwFe) true 0xFFF8 4 topSpot ∧
      Claims.At emptyState (Claims.SyncForm.kind .stwEf) true 0xFFF8 4 topSpot ∧ topState.chip.anyPoison topSpot.key 4 = false ∧
      Claims.NoCopy emptyState topSpot ∧ Claims.SyncForm.ready .ldwFe (topState.chip.isFull topSpot.key) ∧
      ¬ Claims.SyncForm.ready .ldwFe (emptyState.chip.isFull topSpot.key) ∧
      Claims.SyncForm.ready .stwEf (emptyState.chip.isFull topSpot.key) ∧
      ¬ Claims.SyncForm.ready .stwEf (topState.chip.isFull topSpot.key) ∧
      Claims.SyncForm.acquires .ldwFe 3 5 = true ∧
      -- loopm: the word at the window's last doubleword, by an offset of −4·8
      (Instr.loopm 10 8 131071).WellFormed ∧ Claims.Alone (regs topState [(10, 0xFFF8 + 32)]) 4 ∧
      Claims.At (regs topState [(10, 0xFFF8 + 32)]) .read true
        (BitVec.ofInt 64 (((regs topState [(10, 0xFFF8 + 32)]).chip.t.getX 10).toInt + 4 * (8 : BitVec 4).toInt)) 4 topSpot ∧
      (regs topState [(10, 0xFFF8 + 32)]).chip.isFull topSpot.key = true ∧
      (regs topState [(10, 0xFFF8 + 32)]).chip.t.pc + 4 + 2 * (131071 : BitVec 17).setWidth 64 ≠ endLink :=
  ⟨⟨_, by exact Claims.Sync.ldwFe 0 3 5 5 6⟩, ⟨_, by exact Claims.Sync.stwEf 2 2 0 5 6⟩, alone_of _ _ (by decide),
    alone_of _ _ (by decide), by decide, at_of 0 (by decide), at_of 0 (by decide), by decide, by rfl, (by decide : topState.chip.isFull topSpot.key = true), (by decide : ¬ emptyState.chip.isFull topSpot.key = true), (by decide : emptyState.chip.isFull topSpot.key = false),
    (by decide : ¬ topState.chip.isFull topSpot.key = false), by decide, by decide, alone_of _ _ (by decide), at_of 0 (by decide),
    by decide, by decide⟩
theorem wit_AtomicResults :
    (∃ f, Claims.AmoW topState.chip.t (.amoMinW 0 5 5 6) 0 5 0xFFF8 f) ∧ (∃ f, Claims.AmoD topState.chip.t (.amoMaxD 1 5 5 6) 1 5 0xFFF8 f) ∧
      Claims.Alone topState 4 ∧ (0xFFF8 : Dword).toNat % 4 = 0 ∧ Claims.At topState .atomic true 0xFFF8 4 topSpot ∧
      topState.chip.anyPoison topSpot.key 4 = false ∧ Claims.NoCopy topState topSpot ∧ (topState.chip.t.getX 6).toNat % 8 = 0 ∧
      Claims.At topState .atomic true (topState.chip.t.getX 6) 8 topSpot ∧ topState.chip.anyPoison topSpot.key 8 = false ∧
      (topState.chip.t.getX 7).toNat % 16 = 0 ∧
      Claims.At topState .atomic true (topState.chip.t.getX 7) 16 ⟨sliceLoc ⟨1, 0, 0⟩ 0xFFF0, sliceKey ⟨1, 0, 0⟩ 0xFFF0⟩ ∧
      topState.chip.anyPoison (sliceKey ⟨1, 0, 0⟩ 0xFFF0) 16 = false ∧
      Claims.NoCopy topState ⟨sliceLoc ⟨1, 0, 0⟩ 0xFFF0, sliceKey ⟨1, 0, 0⟩ 0xFFF0⟩ :=
  ⟨⟨_, by exact Claims.AmoW.min 0 5 5 6⟩, ⟨_, by exact Claims.AmoD.max 1 5 5 6⟩, alone_of _ _ (by decide), by decide,
    at_of 0 (by decide), by decide, by rfl, by decide, at_of 0 (by decide), by decide, by decide, at_of 0 (by decide), by decide, by rfl⟩
def lockedState : State := onC topState fun c => { c with locks := [⟨topSpot.loc, ⟨1, 0, 0, 1⟩, false⟩] }
def ldlWaits : State := onC topState fun c => { c with others :=
  [(otherThread, { Thread.reset with run := .wait (.access (.x 5) (.ldl 0xFFF8) [⟨topSpot, 0⟩] 0 0 0) })] }
theorem wit_LockedPairResults :
    (topState.chip.others = [] ∧ Claims.Alone ldlWaits 4 ∧ Claims.At ldlWaits .atomic true (ldlWaits.chip.t.getX 6) 8 topSpot ∧
      (otherThread, { Thread.reset with run := .wait (.access (.x 5) (.ldl 0xFFF8) [⟨topSpot, 0⟩] 0 0 0) }) ∈ ldlWaits.chip.others ∧
      ldlWaits.chip.anyPoison topSpot.key 8 = false) ∧
    Claims.Alone topState 4 ∧ (topState.chip.t.getX 6).toNat % 8 = 0 ∧ Claims.At topState .atomic true (topState.chip.t.getX 6) 8 topSpot ∧
      topState.chip.anyPoison topSpot.key 8 = false ∧
      (∀ l ∈ topState.chip.locks, l.holder ≠ topState.chip.tid → sameLock l.loc topSpot.loc = false) ∧
      Claims.Alone lockedState 4 ∧ Claims.At lockedState .atomic true (lockedState.chip.t.getX 6) 8 topSpot ∧
      (∃ l ∈ lockedState.chip.locks, l.holder ≠ lockedState.chip.tid ∧ l.loc = topSpot.loc) ∧ Claims.NoCopy topState topSpot :=
  ⟨⟨by decide, alone_of _ _ (by decide), at_of 0 (by decide), List.mem_singleton_self _, by decide⟩,
    alone_of _ _ (by decide), by decide, at_of 0 (by decide), by decide, by decide, alone_of _ _ (by decide), at_of 0 (by decide),
    ⟨_, List.mem_singleton_self _, by decide, by decide⟩, by rfl⟩

/-- Lanes 0 and 7 of a vector access at the window's end. -/
def vecState : State := maskOn (regs topState [(6, 0xFFE0 + 32)]) 1 0x81
def vecSpot (i : BitVec 3) : Spot :=
  ⟨sliceLoc ⟨1, 0, 0⟩ (0xFFE0 + 4 * i.toNat), sliceKey ⟨1, 0, 0⟩ (0xFFE0 + 4 * i.toNat)⟩
theorem wit_VectorAccessResults :
    (Instr.vld 0 0x1F 1 15 6).WellFormed ∧ (Instr.vst 0 0x1F 1 15 6).WellFormed ∧ Claims.Alone vecState 4 ∧
      (BitVec.ofInt 64 ((vecState.chip.t.getX 6).toInt + 32 * (0x1F : BitVec 5).toInt)) = 0xFFE0 ∧ vecState.chip.t.getM 1 = 0x81 ∧
      (0xFFE0 : Dword).toNat % 4 = 0 ∧ Claims.LanesAt vecState .read 0xFFE0 0x81 vecSpot ∧ Claims.LanesAt vecState .write 0xFFE0 0x81 vecSpot ∧
      (∀ i : BitVec 3, (0x81 : Byte).getLsbD i.toNat = true → vecState.chip.anyPoison (vecSpot i).key 4 = false ∧
        Claims.Seen vecState.chip vecState.chip.t.agentId (vecSpot i).loc) ∧ Claims.NoLines vecState ∧
      (∀ i j : BitVec 3, (0x81 : Byte).getLsbD i.toNat = true → (0x81 : Byte).getLsbD j.toNat = true → i ≠ j →
        (vecSpot i).key + 4 ≤ (vecSpot j).key ∨ (vecSpot j).key + 4 ≤ (vecSpot i).key) ∧
      (∀ i : BitVec 3, (0x81 : Byte).getLsbD i.toNat = true → Claims.NoCopy vecState (vecSpot i)) := by
  have hr (k : Kind) (h : k = .read ∨ k = .write) : ∀ i : BitVec 3, (0x81 : Byte).getLsbD i.toNat = true →
      vecState.chip.reach vecState.mgmt (vecState.chip.t.who vecState.chip.tid) k false (0xFFE0 + 4 * i.setWidth 64) 4 =
        (.ok (vecSpot i) 0, vecState.chip) := by
    rcases h with rfl | rfl <;> decide
  refine ⟨by decide, by decide, alone_of _ _ (by decide), by decide, by decide, by decide, fun i h => ⟨0, hr _ (Or.inl rfl) i h⟩,
    fun i h => ⟨0, hr _ (Or.inr rfl) i h⟩, fun i h => ⟨?_, seen_of _ _ _ (by rfl)⟩, noLines_of (by rfl),
    by decide, fun i _ => by rfl⟩
  revert i; decide

theorem poke_poison (s : State) (k : Nat) (bs : List Byte) : (poke s k bs).chip.poison = s.chip.poison := rfl
theorem poke_hist (s : State) (k : Nat) (bs : List Byte) : (poke s k bs).chip.hist = s.chip.hist := rfl
/-- The last cell of the window in a format, BF16 or none. -/
def cellState (fmt : Byte) : State := poke topState (sliceKey ⟨1, 0, 0⟩ 0xFFC0) [fmt]
def cellSpot : Spot := ⟨sliceLoc ⟨1, 0, 0⟩ 0xFFC0, sliceKey ⟨1, 0, 0⟩ 0xFFC0⟩
def poisonCell : State := onC (cellState 0x11) fun c => { c with poison := [cellSpot.key + 4] }
theorem wit_CellAccessResults :
    (Instr.vldc 0 3 1 15 8).WellFormed ∧ (Instr.vstc 15 15 1 15 8).WellFormed ∧ (∀ f, Claims.Alone (cellState f) 4) ∧
      (∀ f, ((cellState f).chip.t.getX 8).toNat % 64 = 0) ∧
      (∀ k ∈ [Kind.read, .write], ∀ f ∈ [(0x11 : Byte), 0], ∃ c,
        (cellState f).chip.reach (cellState f).mgmt ((cellState f).chip.t.who (cellState f).chip.tid) k false
          ((cellState f).chip.t.getX 8) 64 = (.ok cellSpot 0, c)) ∧
      (∀ f, (cellState f).chip.anyPoison cellSpot.key 64 = false) ∧ (∀ f w, historyGet (cellState f).chip.hist w = none) ∧
      (∃ f, Claims.cellFmt cellSpot.key 0 (Mem.get (cellState 0x11).chip.mem cellSpot.key) = some f) ∧
      (∀ f, (cellState f).chip.poison = []) ∧ (∀ f, Claims.NoCopy (cellState f) cellSpot) ∧
      Claims.cellFmt cellSpot.key 0 (Mem.get (cellState 0).chip.mem cellSpot.key) = none ∧ (∀ f, (cellState f).chip.t.pend = []) ∧
      (BitVec.ofNat 3 (cellState 0x11).chip.t.csr.cellcv.toNat).toNat ≤ 4 ∧ poisonCell.chip.t.pend = [] ∧
      (∃ c, poisonCell.chip.reach poisonCell.mgmt (poisonCell.chip.t.who poisonCell.chip.tid) .read false
        (poisonCell.chip.t.getX 8) 64 = (.ok cellSpot 0, c)) ∧ Claims.FirstPoison poisonCell.chip cellSpot.key 64 4 := by
  have h2 : Mem.get (cellState 0x11).chip.mem cellSpot.key = 0x11 := by decide
  have h0 : Mem.get (cellState 0).chip.mem cellSpot.key = 0 := by decide
  have hp : ∀ f, (cellState f).chip.poison = [] := fun f => (poke_poison _ _ _).trans (by decide)
  refine ⟨by decide, by decide, fun f => ⟨rfl, rfl, rfl, rfl, rfl, goes_on⟩, fun f => ?_, ?_, fun f => ?_, fun f w => ?_,
    ⟨_, by rw [h2]; rfl⟩, hp, fun f => by rfl, by rw [h0]; rfl, fun f => rfl, by decide, rfl, reach_of (by decide), by decide, by decide, ?_⟩
  · exact (by decide : (topState.chip.t.getX 8).toNat % 64 = 0)
  · intro k hk f hf
    simp only [List.mem_cons, List.not_mem_nil, or_false] at hk hf
    rcases hk with rfl | rfl <;> rcases hf with rfl | rfl <;> exact reach_of (by decide)
  · simp [Chip.anyPoison, hp f]
  · have h : (cellState f).chip.hist = [] := (poke_hist _ _ _).trans (by decide)
    rw [h]; rfl
  · decide

/-- A routine that ends at once: jalr x0, x1, #0. -/
def endCode : List Half := [0x2031, 0x000C]
def shipState : State := onC topState fun c => { c with routines := [(63, endCode)] }
/-- Code that leaves its end; and a page with one copy, on die 1, which its table maps there or does not. -/
def lostState : State := onC shipState fun c => { c with routines := [(63, [])] }
def replEntry : Dword := 0x0090100000400001
def copyless : State := regs (onC (entryState replEntry) fun c => { c with
  tcopies := [] }) [(6, placedFrame + 0x1000)]
def copied : State := onC (poke (poke (poke copyless (heapKey 1 0x2000) (bytesOfDword 0x8001)) (heapKey 1 0x8000) (bytesOfDword 0x4001))
  (heapKey 1 0x4008) (bytesOfDword frameEntry)) fun c => c.setDie 1 { c.die 1 with etroot := 0x2001 }
theorem wit_mcst (s : State) (h : s ∈ [copyless, copied]) :
    Claims.Alone s 4 ∧ (s.chip.t.getX 6).toNat % 8 = 0 ∧
      (∃ c, s.chip.reach s.mgmt (s.chip.t.who s.chip.tid) .write false (s.chip.t.getX 6) 8 = (.ok heapSpot replEntry, c)) ∧
      Claims.NoCopy s heapSpot ∧ homeHeap s.mgmt (s.chip.t.getX 6) = some (0, 0x201000) ∧ entryRepl replEntry = true ∧
      entryRepd replEntry 0 = (true, 1) ∧ (entryRepd replEntry 1).1 = false ∧ (entryRepd replEntry 2).1 = false ∧
      denOffset s.mgmt 1 0x201000 = none ∧ subPage (s.chip.core s.chip.tid.coreId).rgn 1 0x201000 = false ∧
      heldLeaf (s.chip.die 1).spans (0x201000 / 2 ^ 21) false = none ∧ (1 : BitVec 3) ≠ 0 := by
  simp only [List.mem_cons, List.not_mem_nil, or_false] at h
  rcases h with rfl | rfl <;>
    exact ⟨alone_of _ _ (by decide), by decide, reach_of (by decide), by rfl, by decide, by decide, by decide, by decide, by decide,
      by decide, by decide, by decide, by decide⟩
theorem wit_mcst_copies :
    Claims.Copy copied copied.chip.mem 1 0x201000 (.inl (heapKey 1 0x401000)) ∧
      Claims.Copy copied (Mem.write copied.chip.mem heapSpot.key (bytesOfDword 0)) 1 0x201000 (.inl (heapKey 1 0x401000)) ∧
      heapSpot.key + 8 ≤ heapKey 1 0x401000 ∧ Claims.Copy copyless copyless.chip.mem 1 0x201000 (.inr Cause.pageAbsent) ∧
      Claims.Copy copyless (Mem.write copyless.chip.mem heapSpot.key (bytesOfDword 0)) 1 0x201000 (.inr Cause.pageAbsent) :=
  ⟨.at_ frameEntry 0x4008 (by decide) (by decide) (by rfl), .at_ frameEntry 0x4008 (by decide) (by decide) (by rfl), by decide,
    .fails _ (by decide), .fails _ (by decide)⟩
theorem wit_ShipAndMulticastResults :
    (lostState.chip.t.pend = [] ∧ (lostState.chip.t.getX 9).extractLsb' 52 12 ≠ 0 ∧ (lostState.chip.t.getX 9).getLsbD 51 = false ∧
      Claims.At lostState .write false (lostState.chip.t.getX 9) 1 heapSpot ∧ tableGet lostState.chip.routines 63 = some [] ∧
      lostState.chip.anyPoison (heapSpot.key - heapSpot.loc % 64) 64 = false ∧
      (∃ small cell inner, badgerRun [] (Mem.bytes lostState.chip.mem (heapSpot.key - heapSpot.loc % 64) 64)
        ((List.range 16).map fun i => lostState.chip.isFull (heapSpot.key - heapSpot.loc % 64 + 4 * i)) (heapSpot.loc % 64) 63
        (lostState.chip.t.getX 30) (lostState.chip.t.getX 31) = (small, cell, .aborted inner)) ∧
      (onC lostState fun c => { c with poison := [heapSpot.key] }).chip.anyPoison (heapSpot.key - heapSpot.loc % 64) 64 = true ∧
      homeHeap base.mgmt placedFrame = some (0, 0x200000) ∧ (8 : BitVec 4) ≠ 0) ∧
    Claims.Alone shipState 4 ∧ (shipState.chip.t.getX 9).extractLsb' 52 12 ≠ 0 ∧ (shipState.chip.t.getX 9).getLsbD 51 = false ∧
      Claims.At shipState .write false (shipState.chip.t.getX 9) 1 heapSpot ∧ tableGet shipState.chip.routines 63 = some endCode ∧
      shipState.chip.poison = [] ∧
      Claims.NoCopy shipState ⟨heapSpot.loc / 64 * 64, heapSpot.key - heapSpot.loc % 64⟩ ∧
      (∃ small cell, badgerRun endCode (Mem.bytes shipState.chip.mem (heapSpot.key - heapSpot.loc % 64) 64)
        ((List.range 16).map fun i => shipState.chip.isFull (heapSpot.key - heapSpot.loc % 64 + 4 * i)) (heapSpot.loc % 64) 63
        (shipState.chip.t.getX 30) (shipState.chip.t.getX 31) = (small, cell, .ended) ∧ cell.bytes.length = 64) ∧
      (topState.chip.t.getX 6).extractLsb' 52 12 = 0 ∧ tableGet topState.chip.routines 0 = none ∧
      (∃ sp e c, topState.chip.reach topState.mgmt (topState.chip.t.who topState.chip.tid) .write false (topState.chip.t.getX 9) 1 =
        (.ok sp e, c)) ∧
      -- mcst to the window, and to a heap page without replicas with mask 0
      (topState.chip.t.getX 6).toNat % 8 = 0 ∧ homeHeap topState.mgmt (topState.chip.t.getX 6) = none ∧
      (∃ c, topState.chip.reach topState.mgmt (topState.chip.t.who topState.chip.tid) .write false (topState.chip.t.getX 6) 8 =
        (.ok topSpot 0, c)) ∧ Claims.NoCopy topState topSpot ∧ entryRepl frameEntry = false ∧ topState.chip.idle = [] ∧
      (entryState frameEntry).chip.reach topState.mgmt (topState.chip.t.who topState.chip.tid) .write false (topState.chip.t.getX 9) 8 =
        (.ok heapSpot frameEntry, (entryState frameEntry).chip) := by
  refine ⟨⟨rfl, by decide, by decide, at_of frameEntry (by decide), by decide, by decide,
      ⟨_, _, _, Prod.ext rfl (Prod.ext rfl (by rfl))⟩, by decide, by decide, by decide⟩,
    alone_of _ _ (by decide), by decide, by decide, at_of frameEntry (by decide), by decide, rfl, by rfl,
    ⟨_, _, Prod.ext rfl (Prod.ext rfl (by rfl)), by decide⟩, by decide, by decide, ⟨heapSpot, frameEntry, reach_of (by decide)⟩, by decide,
    by decide, reach_of (by decide), by rfl, by decide, rfl, by decide⟩

/-- A job of the placed task in an entry of its cluster. -/
def job (entry : BitVec 5) (kind : JobKind) (state : JobState) : Job :=
  ⟨⟨1, 0⟩, entry, 0, 1, me, 1, false, [0x30100000000, 0, 0, 0], kind, state, false, 0, [], [], [], [], [], none, [], none, none, false, false,
    none, [], 0, 0, []⟩
def cutDone : Job := { job 31 (.cut 0 false false 4) .done with bounds := some (1, 2, 3) }
def jobState (j : Job) : State := onC (regs topState [(10, j.ident)]) fun c => { c with jobs := [j] }
theorem wit_JobWatchResults :
    (Claims.Waits (onT (jobState (job 31 (.cpy 0 0 8) .running)) fun t => { t with pend := [pendOf 3 (some (.load 3 0))] }).chip.t
        Access.readsMem ∧
      (jobState { job 31 (.cpy 0 0 8) .running with task := 2 }).chip.jobOf me.cluster
        ((jobState { job 31 (.cpy 0 0 8) .running with task := 2 }).chip.t.getX 10) = some { job 31 (.cpy 0 0 8) .running with task := 2 } ∧
      (AgentId.task 1 ≠ .task 2) ∧ { job 31 (.cpy 0 0 8) .running with streamed := true, landed := 2 }.wp = 8 ∧
      { cutDone with missed := true }.state = .done ∧ ((5 : BitVec 4) = 0 → { cutDone with missed := true }.missed = false)) ∧
    (∀ st ∈ [JobState.running, .done, .faulted 22], let j := job 31 (.cpy 0 0 8) st
      Claims.Alone (jobState j) 4 ∧ (jobState j).chip.jobOf (jobState j).chip.tid.cluster ((jobState j).chip.t.getX 10) = some j ∧
      (jobState j).chip.t.agentId = .task j.task ∧ j.missed = false ∧ ∀ r co mis q, j.kind ≠ .cut r co mis q) ∧
    (job 31 (.cpy 0 0 8) .running).state.over = false ∧ (job 31 (.cpy 0 0 8) .done).state.over = true ∧
    (regs topState [(11, 8)]).chip.t.getX 11 = BitVec.ofNat 64 (job 31 (.cpy 0 0 8) .done).wp ∧
    (Claims.Alone (jobState cutDone) 4 ∧
      (jobState cutDone).chip.jobOf (jobState cutDone).chip.tid.cluster ((jobState cutDone).chip.t.getX 10) = some cutDone ∧
      (jobState cutDone).chip.t.agentId = .task cutDone.task ∧ cutDone.state = .done ∧ cutDone.kind = .cut 0 false false 4 ∧
      cutDone.bounds = some (1, 2, 3) ∧ cutDone.missed = false ∧ cutDone.operr = false) ∧
    topState.chip.t.pend = [] ∧ topState.chip.jobOf topState.chip.tid.cluster (topState.chip.t.getX 6) = none := by
  refine ⟨⟨waits_of ⟨rfl, rfl, rfl⟩, by decide, by decide, by decide, rfl, fun h => absurd h (by decide)⟩, ?_, by decide, by decide, by decide,
    ⟨alone_of _ _ (by decide), by decide, by decide, rfl, rfl, rfl, rfl, rfl⟩, rfl, by decide⟩
  intro st hst
  simp only [List.mem_cons, List.not_mem_nil, or_false] at hst
  rcases hst with rfl | rfl | rfl <;>
    exact ⟨alone_of _ _ (by decide), by decide, by decide, rfl, fun r co mis q h => by cases h⟩

/-! ### Engines, tiles, tasks and the Den -/

/-- The window's pair admits all of the slice. -/
theorem allows_all (t : Thread) (a n : Nat) (r w : Bool) (h : t.csr.lwin.getD 0 0 = 0x30100000000) (hl : a + n ≤ 2 ^ 16) :
    Claims.Allows t a n r w := by
  have hm : (0x30100000000 : Dword) ∈ t.csr.lwin := by
    cases hc : t.csr.lwin with
    | nil => rw [hc] at h; exact absurd h (by decide)
    | cons p l => rw [hc] at h; simp only [List.getD_cons_zero] at h; rw [h]; exact List.mem_cons_self
  have h1 : (0x30100000000 : Dword).toNat / 2 ^ 16 % 2 ^ 17 = 2 ^ 16 := by decide
  have h2 : (0x30100000000 : Dword).toNat % 2 ^ 16 = 0 := by decide
  exact ⟨_, hm, by rw [h2]; exact Nat.zero_le _, by rw [h1]; exact hl, fun _ => by decide, fun _ => by decide⟩
theorem range_all (s : State) (a : Dword) (n : Nat) (w : Bool) (h : s.chip.t.csr.lwin.getD 0 0 = 0x30100000000)
    (hl : a.toNat + n ≤ 2 ^ 16) : Claims.RangeOk s a n w :=
  Or.inr (Or.inr (Or.inr ⟨hl, fun i hi => allows_all _ _ _ _ _ h (by omega)⟩))

/-- Registers of engine instructions: each test names its own. -/
def eng (l : List (Reg × Dword)) : State := regs topState l
theorem eng_free (s : State) (h : s.chip.jobs = []) : Claims.EntryFree s := ⟨0, fun k hk => by rw [h] at hk; cases hk⟩
/-- A full queue. -/
def fullQueue : State := onC (eng [(10, 0xFFF8), (11, 0), (12, 8)]) fun c =>
  { c with jobs := (List.range 32).map fun i => job (BitVec.ofNat 5 i) (.cpy 0 0 8) .running }
theorem wit_EngineIssueResults_copies :
    Claims.Issues (eng [(10, 0xFFF8), (11, 0), (12, 8)]) (.cpy 0 5 10 12) 0 5 (.cpy 0xFFF8 0 8) false ∧
      Claims.Issues (eng [(10, 0xFFF8), (11, 0), (12, 0)]) (.cpy 0 5 10 12) 0 5 (.cpy 0xFFF8 0 0) true ∧
      Claims.Issues (eng [(10, 0xFFE8), (11, 0), (12, 0x200000008), (13, 0x800000010)]) (.cpy2 0 5 10 12) 0 5
        (.cpy2 0xFFE8 0 8 2 16 8) false ∧
      Claims.Issues (eng [(10, 0xFFE8), (11, 0), (12, 0x200000000), (13, 0)]) (.cpy2 0 5 10 12) 0 5 (.cpy2 0xFFE8 0 0 2 0 0) true ∧
      (∀ l ∈ [[((10 : Reg), (0xFFF8 : Dword)), (11, 0), (12, 8)], [(10, 0xFFF8), (11, 0), (12, 0)],
        [(10, 0xFFE8), (11, 0), (12, 0x200000008), (13, 0x800000010)], [(10, 0xFFE8), (11, 0), (12, 0x200000000), (13, 0)]],
        Claims.Alone (eng l) 4 ∧ (eng l).chip.t.csr.jctl.getLsbD 8 = false ∧ Claims.EntryFree (eng l)) ∧
      Claims.Issues fullQueue (.cpy 0 5 10 12) 0 5 (.cpy 0xFFF8 0 8) false ∧ Claims.Alone fullQueue 4 ∧
      fullQueue.chip.t.csr.jctl.getLsbD 8 = false ∧ ¬ Claims.EntryFree fullQueue := by
  refine ⟨?_, ?_, ?_, ?_, ?_, ?_, alone_of _ _ (by decide), by decide, ?_⟩
  · exact .cpy 0 5 10 12 0xFFF8 0 8 (by decide) (by decide) (by decide) ⟨by decide, by decide, by decide, by decide,
      range_all _ _ _ _ (by decide) (by decide), range_all _ _ _ _ (by decide) (by decide), Or.inr (by unfold Claims.Apart; decide)⟩
  · exact .cpy 0 5 10 12 0xFFF8 0 0 (by decide) (by decide) (by decide) ⟨by decide, by decide, by decide, by decide,
      Or.inl rfl, Or.inl rfl, Or.inl rfl⟩
  · exact .cpy2 0 5 10 12 0xFFE8 0 8 2 16 8 (by decide) (by decide) (by decide) (by decide) (by decide) (by decide) ⟨by decide,
      by decide, by decide, by decide, by decide, by decide, by decide, by decide, by decide, by decide,
      .inl (range_all _ _ _ _ (by decide) (by decide)),
      .inr ⟨by decide, fun r hr i hi => allows_all _ _ _ _ _ (by decide) (by
        have : (0 : Dword).toNat = 0 := rfl
        omega)⟩, by unfold Claims.Apart; decide⟩
  · exact .cpy2Empty 0 5 10 12 0xFFE8 0 0 2 0 0 (by decide) (by decide) (by decide) (by decide) (by decide) (by decide) (by decide)
  · intro l hl
    simp only [List.mem_cons, List.not_mem_nil, or_false] at hl
    rcases hl with rfl | rfl | rfl | rfl <;> exact ⟨alone_of _ _ (by decide), by decide, eng_free _ (by decide)⟩
  · exact .cpy 0 5 10 12 0xFFF8 0 8 (by decide) (by decide) (by decide) ⟨by decide, by decide, by decide, by decide,
      range_all _ _ _ _ (by decide) (by decide), range_all _ _ _ _ (by decide) (by decide), Or.inr (by unfold Claims.Apart; decide)⟩
  · rintro ⟨e, he⟩
    exact he (job e (.cpy 0 0 8) .running) (List.mem_map.mpr ⟨e.toNat, List.mem_range.mpr e.isLt, by simp⟩) rfl rfl

theorem wit_EngineIssueResults_lists :
    Claims.Issues (eng [(10, 0xEFFC), (11, 0xFFF8), (12, 0xFFFC), (13, 0x100000000001)]) (.gath 0 5 10 12) 0 5
        (.gath 0xEFFC 0xFFF8 0xFFFC 1 4096) false ∧
      Claims.Issues (eng [(10, 0xFFF8), (11, 0xFFFC), (12, 0xFFFC), (13, 0x400000001)]) (.scat 0 5 10 12) 0 5
        (.scat 0xFFF8 0xFFFC 0xFFFC 1 4) false ∧
      Claims.Issues (eng [(10, placedFrame), (12, 31)]) (.pub 0 5 10 12) 0 5 (.pub placedFrame 31) false ∧
      Claims.Issues (eng [(10, 0xFFC0)]) (.cut 0 5 10) 0 5 (.cut 0xFFC0 false false 5) false ∧
      Claims.Issues (eng [(10, 0xFF80)]) (.cocut 0 5 10) 0 5 (.cut 0xFF80 true false 5) false ∧
      Claims.Issues (eng [(10, 0xFFE00000), (11, 0x8000), (12, 0x0100000000004000), (13, 0xFFFC)]) (.kvwalk 0 5 10 12)
        0 5 (.kvwalk 0xFFE00000 0x8000 0x4000 (2 ^ 24) 0xFFFC) false ∧
      ∀ l ∈ [[((10 : Reg), (0xEFFC : Dword)), (11, 0xFFF8), (12, 0xFFFC), (13, 0x100000000001)],
        [(10, 0xFFF8), (11, 0xFFFC), (12, 0xFFFC), (13, 0x400000001)], [(10, placedFrame), (12, 31)], [(10, 0xFFC0)], [(10, 0xFF80)],
        [(10, 0xFFE00000), (11, 0x8000), (12, 0x0100000000004000), (13, 0xFFFC)]],
        Claims.Alone (eng l) 4 ∧ (eng l).chip.t.csr.jctl.getLsbD 8 = false ∧ Claims.EntryFree (eng l) := by
  refine ⟨?_, ?_, ?_, ?_, ?_, ?_, ?_⟩
  · exact .gath 0 5 10 12 0xEFFC 0xFFF8 0xFFFC 1 4096 (by decide) (by decide) (by decide) (by decide) (by decide) ⟨by decide,
      by decide, by decide, by decide, by decide, by decide, by decide, range_all _ _ _ _ (by decide) (by decide),
      range_all _ _ _ _ (by decide) (by decide), Or.inr (by unfold Claims.Apart; decide)⟩
  · exact .scat 0 5 10 12 0xFFF8 0xFFFC 0xFFFC 1 4 (by decide) (by decide) (by decide) (by decide) (by decide) ⟨by decide,
      by decide, by decide, by decide, by decide, by decide, by decide, range_all _ _ _ _ (by decide) (by decide),
      range_all _ _ _ _ (by decide) (by decide)⟩
  · exact .pub 0 5 10 12 placedFrame 31 (by decide) (by decide) (by decide)
  · exact .cut 0 5 10 0xFFC0 (by decide) ⟨by decide, by decide, fun i hi => allows_all _ _ _ _ _ (by decide)
      (by have : (0xFFC0 : Dword).toNat = 0xFFC0 := rfl
          omega)⟩
  · exact .cocut 0 5 10 0xFF80 (by decide) ⟨by decide, by decide, fun i hi => allows_all _ _ _ _ _ (by decide)
      (by have : (0xFF80 : Dword).toNat = 0xFF80 := rfl
          omega)⟩
  · exact .kvwalk 0 5 10 12 0xFFE00000 0x8000 0xFFFC 0x4000 (2 ^ 24) (by decide) (by decide) (by decide) (by decide) (by decide)
      ⟨by decide, by decide, by decide, by decide, by decide, by decide, by decide, by decide, by decide, by decide,
       by unfold Claims.Apart; decide, fun i hi => allows_all _ _ _ _ _ (by decide)
        (by have : (0x8000 : Dword).toNat = 0x8000 := rfl
            omega), fun i hi => allows_all _ _ _ _ _ (by decide)
        (by have : (0xFFFC : Dword).toNat = 0xFFFC := rfl
            omega)⟩
  · intro l hl
    simp only [List.mem_cons, List.not_mem_nil, or_false] at hl
    rcases hl with rfl | rfl | rfl | rfl | rfl | rfl <;> exact ⟨alone_of _ _ (by decide), by decide, eng_free _ (by decide)⟩

/-- The placed task with all its tiles and slots, and tile 3. -/
def tileOf (acc : BitVec 2) (v f : Bool) : Tile := ⟨1, acc, ⟨1, 0⟩, List.replicate 256 0x3F800000, v, true, f, false, true, false, 7, false⟩
def tileState (l : List (Reg × Dword)) (x : List Tile) : State :=
  onC (onT (regs topState l) fun t => { t with task := some { placedTask with tiles := 4, res := 8 } }) fun c => { c with tiles := x }
/-- Cells of the window's last kilobyte: BF16 cells. -/
def bf16Cell : List Byte := 0x11 :: List.replicate 63 0
def winSpot (off i : Nat) : Spot := ⟨sliceLoc ⟨1, 0, 0⟩ (off + 64 * i), sliceKey ⟨1, 0, 0⟩ (off + 64 * i)⟩
theorem blocks_of (s : State) (each : Bool) (a : Dword) (n : Nat) (off : Nat)
    (h : a.toNat = off ∧ off < 2 ^ 16 ∧ off + 64 * n ≤ 2 ^ 16 ∧ s.chip.t.csr.lwin.getD 0 0 = 0x30100000000 ∧ s.chip.poison = [] ∧
      s.chip.hist = [] ∧ s.chip.tid = me ∧ homeHeap s.mgmt a = none)
    (hc : ∀ k o, classify s.mgmt a ≠ some (.slice k o)) : Claims.BlocksAt s each a n (winSpot off) (fun _ => 0) := by
  obtain ⟨ha, hl, hn, hw, hp, hh, ht, hg⟩ := h
  refine ⟨Or.inl (by omega), (by rw [hg]; exact fun e => by cases e), fun _ => ⟨by omega, ?_, fun i _ => ⟨rfl, ?_⟩⟩,
    fun k o e => absurd e (hc k o), hp, fun i _ w _ _ => by rw [hh]; rfl⟩
  · cases each
    · exact allows_all _ _ _ _ _ hw (by omega)
    · exact fun i hi => allows_all _ _ _ _ _ hw (by omega)
  · rw [ht, ha]; rfl

/-- A shape of 16 rows of 4 cells for slots from 4 on, and the slots loaded. -/
def shapeState : State :=
  onC (poke (tileState [(10, 0xFFC0), (11, 0x8000)] [tileOf 3 true false]) (sliceKey ⟨1, 0, 0⟩ 0xFFC0)
    ([64, 0, 0, 0, 16, 4] ++ List.replicate 26 0)) fun c =>
    c.setCluster ⟨1, 0⟩ { c.cluster ⟨1, 0⟩ with slots := List.replicate 8 ⟨true, 0x11, none, List.replicate 16 ⟨bf16Cell, 0, []⟩⟩ }
def shapeBytes : List Byte := [64, 0, 0, 0, 16, 4] ++ List.replicate 26 0
theorem wit_EngineIssueResults_cld :
    Claims.Alone shapeState 4 ∧ Claims.TileIs shapeState 3 (tileOf 3 true false) ∧ (tileOf 3 true false).v = true ∧
      (shapeState.chip.t.getX 10).toNat % 32 = 0 ∧ (shapeState.chip.t.getX 11).toNat % 64 = 0 ∧
      (shapeState.chip.reach shapeState.mgmt (shapeState.chip.t.who shapeState.chip.tid) .read false (shapeState.chip.t.getX 10) 32) =
        (.ok ⟨sliceLoc ⟨1, 0, 0⟩ 0xFFC0, sliceKey ⟨1, 0, 0⟩ 0xFFC0⟩ 0, shapeState.chip) ∧ shapeState.chip.poison = [] ∧
      shapeState.chip.hist = [] ∧ shapeBytes = Mem.bytes shapeState.chip.mem (sliceKey ⟨1, 0, 0⟩ 0xFFC0) 32 ∧
      badShape (shapeOf 0 false false 4 3 0x8000 shapeBytes) shapeBytes = false ∧
      shapeState.chip.slotsFit (shapeOf 0 false false 4 3 0x8000 shapeBytes) false = true ∧ Claims.EntryFree shapeState := by
  refine ⟨alone_of _ _ (by decide), by rfl, rfl, by decide, by decide, by decide, by decide, by decide, by decide, by decide, by decide,
    eng_free _ (by decide)⟩
theorem wit_EngineIssueResults_traps :
    ((eng [(10, 0xFFF9)]).chip.t.getX 10).toNat % 4 ≠ 0 ∧
      (let s := eng [(10, 0xFFF8), (11, 0), (12, 0x10000000000)]
       (s.chip.t.getX 10).toNat % 4 = 0 ∧ (s.chip.t.getX 11).toNat % 4 = 0 ∧ (s.chip.t.getX 12).toNat % 4 = 0 ∧
         2 ^ 40 ≤ (s.chip.t.getX 12).toNat) ∧
      (let s := eng [(10, 0xFFF8), (11, 0xFFF8), (12, 4)]
       (s.chip.t.getX 10).toNat % 4 = 0 ∧ (s.chip.t.getX 12).toNat % 4 = 0 ∧ (s.chip.t.getX 12).toNat < 2 ^ 40 ∧
         0 < (s.chip.t.getX 12).toNat ∧ s.chip.t.getX 11 = s.chip.t.getX 10 ∧ s.chip.t.csr.jctl.getLsbD 8 = false ∧
         Claims.RangeOk s (s.chip.t.getX 10) (s.chip.t.getX 12).toNat true ∧
         Claims.RangeOk s (s.chip.t.getX 10) (s.chip.t.getX 12).toNat false) := by
  refine ⟨by decide, ⟨by decide, by decide, by decide, by decide⟩, by decide, by decide, by decide, by decide, by decide, by decide,
    range_all _ _ _ _ (by decide) (by decide), range_all _ _ _ _ (by decide) (by decide)⟩

-- a job tied to an instance of scope 2; a reserved scope; and a Copy-Unit job's bytes
def tieState (v : Word) : State := onT (eng [(10, 0xFFF8), (11, 0), (12, 8)]) fun t => { t with csr := { t.csr with jctl := v } }
theorem wit_EngineIssueResults_tied :
    (tieState 0x102).chip.t.csr.jctl.getLsbD 8 = true ∧ Claims.governed (.cpy 0xFFF8 0 8) = true ∧
      ((tieState 0x102).chip.t.csr.jctl.extractLsb' 0 3).toNat ≤ 5 ∧ 0 < Claims.jobBytes (.cpy 0xFFF8 0 8) ∧
      (barrierGet (tieState 0x102).chip.barriers (Claims.tieOf (tieState 0x102))).arr = 0 ∧ Claims.EntryFree (tieState 0x102) ∧
      Claims.Alone (tieState 0x102) 4 ∧ Claims.Issues (tieState 0x102) (.cpy 0 5 10 12) 0 5 (.cpy 0xFFF8 0 8) false ∧
      (tieState 0x106).chip.t.csr.jctl.getLsbD 8 = true ∧ 5 < ((tieState 0x106).chip.t.csr.jctl.extractLsb' 0 3).toNat := by
  refine ⟨by decide, rfl, by decide, by decide, by decide, eng_free _ (by decide), alone_of _ _ (by decide), ?_, by decide, by decide⟩
  exact .cpy 0 5 10 12 0xFFF8 0 8 (by decide) (by decide) (by decide) ⟨by decide, by decide, by decide, by decide,
    range_all _ _ _ _ (by decide) (by decide), range_all _ _ _ _ (by decide) (by decide), Or.inr (by unfold Claims.Apart; decide)⟩

theorem wit_TileResults_plain :
    (let s := tileState [] [tileOf 3 true false]
     Claims.Alone s 4 ∧ Claims.TileIs s 3 (tileOf 3 true false) ∧ (tileOf 3 true false).f = false) ∧
      (let s := tileState [(10, 0xFC00)] [tileOf 0 false false]
       Claims.Alone s 4 ∧ Claims.TileIs s 0 (tileOf 0 false false) ∧ (s.chip.t.getX 10).toNat % 64 = 0 ∧
         Claims.BlocksAt s false (s.chip.t.getX 10) 16 (winSpot 0xFC00) (fun _ => 0)) ∧
      (let s := tileState [] [tileOf 0 true false, tileOf 3 false false]
       Claims.Alone s 4 ∧ Claims.TileIs s 0 (tileOf 0 true false) ∧ Claims.TileIs s 3 (tileOf 3 false false)) ∧
      (let s := tileState [] [tileOf 3 true true]
       ∀ x, Claims.TileIs s 3 x → x.f = true) ∧ (∀ x, ¬ Claims.TileIs topState 3 x) := by
  refine ⟨⟨alone_of _ _ (by decide), by rfl, rfl⟩, ⟨alone_of _ _ (by decide), by rfl, by decide, blocks_of _ _ _ _ _ (by decide) ?_⟩,
    ⟨alone_of _ _ (by decide), by rfl, by rfl⟩, ?_, ?_⟩
  · have : classify (tileState [(10, 0xFC00)] [tileOf 0 false false]).mgmt
        ((tileState [(10, 0xFC00)] [tileOf 0 false false]).chip.t.getX 10) = some (.window 0xFC00) := by decide
    intro k o; rw [this]; exact fun e => by cases e
  · intro s x h
    have : (tileState [] [tileOf 3 true true]).chip.tile 1 3 = some (tileOf 3 true true) := by rfl
    have e := this.symm.trans h
    cases e; rfl
  · intro x h
    have : topState.chip.tile 1 3 = none := by decide
    have e := this.symm.trans h
    cases e
/-- Sixteen rows of 64 bytes, one after the other, to the window's end. -/
def drainState : State := tileState [(10, 0xFC00), (11, 64)] [tileOf 3 true false]
theorem wit_TileResults_drain (n : BitVec 4) (hn : n ∈ [(0 : BitVec 4), 8]) :
    ∃ f, (Instr.tdrain 0 (decide (n = 0)) 4 n 3 5 10).WellFormed ∧ Claims.Alone drainState 4 ∧ Claims.formats[n.toNat]? = some f ∧
      Claims.TileIs drainState 3 (tileOf 3 true false) ∧ (tileOf 3 true false).v = true ∧ (tileOf 3 true false).f = false ∧
      (drainState.chip.t.getX 10).toNat % (2 * f.width) = 0 ∧ (drainState.chip.t.getX 11).toNat % (2 * f.width) = 0 ∧
      (∀ r, r < 16 → ∃ e, drainState.chip.reach drainState.mgmt (drainState.chip.t.who drainState.chip.tid) .write false
        (drainState.chip.t.getX 10 + BitVec.ofNat 64 r * drainState.chip.t.getX 11) (2 * f.width) =
        (.ok (winSpot 0xFC00 r) e, drainState.chip) ∧ Claims.NoCopy drainState (winSpot 0xFC00 r)) ∧
      ∀ r q, r < 16 → q < 16 → r ≠ q → (winSpot 0xFC00 r).key + 2 * f.width ≤ (winSpot 0xFC00 q).key ∨
        (winSpot 0xFC00 q).key + 2 * f.width ≤ (winSpot 0xFC00 r).key := by
  obtain ⟨f, hf, hw⟩ : ∃ f, Claims.formats[n.toNat]? = some f ∧ f.width = 32 := by
    simp only [List.mem_cons, List.not_mem_nil, or_false] at hn
    rcases hn with rfl | rfl <;> exact ⟨_, rfl, rfl⟩
  refine ⟨f, ?_, alone_of _ _ (by decide), hf, by rfl, rfl, rfl, ?_, ?_, fun r hr => ⟨0, ?_, by rfl⟩, ?_⟩
  · clear hf; revert n; decide
  · rw [hw]; decide
  · rw [hw]; decide
  · rw [hw]; revert r; decide
  · intro r q _ _ h
    simp only [winSpot, sliceKey, hw]; omega
/-- No tile is mapped, the source's V is 0, or a contracting load owns a tile: TILE_STATE. -/
theorem wit_TileResults_state :
    (∀ x ∈ [[], [tileOf 3 false false], [tileOf 3 true true]], Claims.Quiet (tileState [] x) ∧
      ∀ y, Claims.TileIs (tileState [] x) 3 y → y.v = false ∨ y.f = true) ∧
      (∀ y, Claims.TileIs (tileState [] [tileOf 3 true true]) 3 y → y.f = true) ∧
      ∀ n y, ¬ Claims.TileIs (tileState [] []) n y := by
  refine ⟨?_, ?_, fun n y h => by cases h⟩
  · intro x hx
    simp only [List.mem_cons, List.not_mem_nil, or_false] at hx
    rcases hx with rfl | rfl | rfl
    · exact ⟨(fun _ h => by cases h), fun y h => by cases h⟩
    · refine ⟨(fun _ h => by cases h), fun y h => ?_⟩
      have : (tileState [] [tileOf 3 false false]).chip.tile 1 3 = some (tileOf 3 false false) := by rfl
      have e := this.symm.trans h
      cases e; exact Or.inl rfl
    · refine ⟨(fun _ h => by cases h), fun y h => ?_⟩
      have : (tileState [] [tileOf 3 true true]).chip.tile 1 3 = some (tileOf 3 true true) := by rfl
      have e := this.symm.trans h
      cases e; exact Or.inr rfl
  · intro y h
    have : (tileState [] [tileOf 3 true true]).chip.tile 1 3 = some (tileOf 3 true true) := by rfl
    have e := this.symm.trans h
    cases e; rfl

/-- A dense slot's sixteen cells, and two cells of bitmaps before the window's end. -/
def slotState : State := poke (tileState [(10, 0xFB80)] []) (sliceKey ⟨1, 0, 0⟩ 0xFB80)
  (((List.range 16).map fun _ => bf16Cell).flatten ++ ((List.range 16).map fun _ => bytesOfDword 0x1555).flatten)
theorem slot_class (n : Nat) (h : n ≤ 18) :
    Claims.BlocksAt slotState true (slotState.chip.t.getX 10) n (winSpot 0xFB80) (fun _ => 0) := by
  have ha : (slotState.chip.t.getX 10).toNat = 0xFB80 ∧ slotState.chip.t.csr.lwin.getD 0 0 = 0x30100000000 ∧
    slotState.chip.poison = [] ∧ slotState.chip.hist = [] ∧ slotState.chip.tid = me ∧
    homeHeap slotState.mgmt (slotState.chip.t.getX 10) = none := by decide
  refine blocks_of _ _ _ _ _ ⟨ha.1, by omega, by omega, ha.2⟩ ?_
  have : classify slotState.mgmt (slotState.chip.t.getX 10) = some (.window 0xFB80) := by decide
  intro k o; rw [this]; exact fun e => by cases e
theorem wit_TileResults_slots :
    Claims.Alone slotState 4 ∧ (7 : BitVec 3).toNat < (slotState.chip.t.task.map Task.res).getD 0 ∧
      (slotState.chip.t.getX 10).toNat % 64 = 0 ∧
      Claims.BlocksAt slotState true (slotState.chip.t.getX 10) 16 (winSpot 0xFB80) (fun _ => 0) ∧
      Claims.BlocksAt slotState true (slotState.chip.t.getX 10) 18 (winSpot 0xFB80) (fun _ => 0) ∧
      (∀ i, i < 16 → described (winSpot 0xFB80 i) 0 = true ∧
        Mem.get slotState.chip.mem (winSpot 0xFB80 i).key = Mem.get slotState.chip.mem (winSpot 0xFB80 0).key) ∧
      formatOfCell (Mem.get slotState.chip.mem (winSpot 0xFB80 0).key) = some .bf16 ∧ Format.bf16 ≠ .fp32 ∧ Format.bf16 ≠ .int32 ∧
      Format.bf16.isInt = false ∧ slotState.chip.jobs = [] ∧ (Instr.resldSparse 0 1 7 10).WellFormed ∧
      sparsePattern 1 = some (1, 2, 4) ∧ (∀ i, i < 16 → bitmapOk (1, 2, 4) Format.bf16.count
        (Mem.dword slotState.chip.mem ((winSpot 0xFB80 (16 + i / 8)).key + 8 * (i % 8))) = true) := by
  refine ⟨alone_of _ _ (by decide), by decide, by decide, slot_class 16 (by decide), slot_class 18 (by decide), by decide, ?_, by decide,
    by decide, rfl, by decide, by decide, by decide, by decide⟩
  have : Mem.get slotState.chip.mem (winSpot 0xFB80 0).key = 0x11 := by decide
  rw [this]; decide

-- a contracting load that names slot 7 is live
def busySlot : State := onC slotState fun c =>
  { c with jobs := [job 3 (.cld { shapeOf 0 false false 7 3 0x8000 shapeBytes with cells := 1 }) .running] }
theorem wit_TileResults_used :
    Claims.SlotUsed busySlot 7 ∧ Claims.LoadLive busySlot ∧ ¬ Claims.SlotUsed slotState 7 ∧ ¬ Claims.LoadLive slotState ∧
      Claims.Alone busySlot 4 := by
  have h : slotState.chip.jobs = [] := by decide
  refine ⟨⟨_, List.mem_singleton_self _, _, rfl, by decide, by decide, by decide, by decide⟩,
    ⟨_, List.mem_singleton_self _, ⟨_, rfl⟩, by decide, by decide⟩, ?_, ?_, alone_of _ _ (by decide)⟩
  · rintro ⟨j, hj, _⟩; rw [h] at hj; cases hj
  · rintro ⟨j, hj, _⟩; rw [h] at hj; cases hj

/-- The largest record that spawn and disp take, in the window's last cell. -/
def recordBytes (need : Byte) : List Byte := List.replicate 56 0 ++ [4, 8, 0, 0xF0, 0, 0, need, 0]
def recordState (need : Byte) : State := poke (regs topState [(9, 0x8000000000000001), (7, 0xFFBC)]) (sliceKey ⟨1, 0, 0⟩ 0xFFC0) (recordBytes need)
theorem record_of (s : State) (bs : List Byte)
    (h : s.chip.t.getX 8 = 0xFFC0 ∧ s.chip.poison = [] ∧ s.chip.hist = [] ∧
      s.chip.reach s.mgmt (s.chip.t.who s.chip.tid) .read false 0xFFC0 64 = (.ok (winSpot 0xFFC0 0) 0, s.chip) ∧
      bs = Mem.bytes s.chip.mem (winSpot 0xFFC0 0).key 64)
    (hb : (frameDword bs 0).getLsbD 0 = false ∧ fieldAt bs 58 2 % 64 = 0 ∧ fieldAt bs 58 2 ≤ 61440 ∧ (byteAt bs 56).toNat ≤ 4 ∧
      (byteAt bs 57).toNat ≤ 8 ∧ byteAt bs 61 = 0) : Claims.RecordAt s (s.chip.t.getX 8) bs := by
  rw [h.1]
  exact ⟨by decide, ⟨winSpot 0xFFC0 0, 0, h.2.2.2.1, h.2.1, fun w _ _ => by rw [h.2.2.1]; rfl, h.2.2.2.2⟩, hb.1, ⟨hb.2.1, hb.2.2.1⟩,
    hb.2.2.2.1, hb.2.2.2.2.1, hb.2.2.2.2.2⟩
def itemOf (mode : Nat) (launch : Nat) : Item :=
  ⟨9, placedCode, [1, 2, 3, 4, 5, 6], 4, 8, 61440, mode, none, launch, [], [], [], 0, [], []⟩
/-- The acting thread's cluster changed. -/
def onCl (s : State) (f : Cluster → Cluster) : State := onC s fun c => c.setCluster ⟨1, 0⟩ (f (c.cluster ⟨1, 0⟩))
def depState (n : Nat) : State := onCl (regs topState [(9, 0xFFFF000103)]) fun k => { k with deps := [⟨3, 0xFFFF, some (itemOf 0 1, n)⟩] }
theorem wit_TaskResults_records :
    Claims.Alone (recordState 0) 4 ∧ Claims.Alone (recordState 255) 4 ∧
      Claims.RecordAt (recordState 0) ((recordState 0).chip.t.getX 8) (recordBytes 0) ∧
      Claims.RecordAt (recordState 255) ((recordState 255).chip.t.getX 8) (recordBytes 255) ∧
      byteAt (recordBytes 0) 60 = 0 ∧ byteAt (recordBytes 255) 60 = 0 ∧ fieldAt (recordBytes 0) 62 2 = 0 ∧
      0 < fieldAt (recordBytes 255) 62 2 ∧ frameDword (recordBytes 0) 0 ≠ endLink ∧ frameDword (recordBytes 255) 0 ≠ endLink ∧
      ((recordState 0).chip.core (recordState 0).chip.tid.coreId).deque.length < 64 ∧
      -- the counter, in the window's last doubleword before the record
      (7 : Reg) ≠ 0 ∧ ((recordState 0).chip.t.getX 7).toNat % 4 = 0 ∧
      Claims.At (recordState 0) .atomic true ((recordState 0).chip.t.getX 7) 4
        ⟨sliceLoc ⟨1, 0, 0⟩ 0xFFBC, sliceKey ⟨1, 0, 0⟩ 0xFFBC⟩ ∧
      Claims.NoCopy (recordState 0) ⟨sliceLoc ⟨1, 0, 0⟩ 0xFFBC, sliceKey ⟨1, 0, 0⟩ 0xFFBC⟩ ∧
      -- a hint to the own cluster
      ((recordState 0).chip.t.getX 9).getLsbD 63 = true ∧ ((recordState 0).chip.t.getX 9).extractLsb' 24 39 = 0 ∧
      (recordState 0).chip.inDomain (((recordState 0).chip.t.task.map Task.launch).getD 0) (recordState 0).chip.tid.cluster
        ⟨(((recordState 0).chip.t.getX 9).extractLsb' 0 8).toNat, (((recordState 0).chip.t.getX 9).extractLsb' 8 8).toNat⟩ = true ∧
      (recordState 255).chip.tid.cx < 256 ∧ (recordState 255).chip.tid.cy < 256 ∧
      ((recordState 255).chip.cluster (recordState 255).chip.tid.cluster).deps = [] := by
  refine ⟨alone_of _ _ (by decide), alone_of _ _ (by decide), record_of _ _ (by decide) (by decide), record_of _ _ (by decide) (by decide),
    by decide, by decide, by decide, by decide, by decide, by decide, by decide, by decide, by decide, at_of 0 (by decide), by rfl,
    by decide, by decide, by decide, by decide, by decide, by decide⟩
def listState (l : List Item) : State := onCl topState fun k => { k with modeOne := l }
theorem wit_TaskResults_others :
    Claims.Alone topState 4 ∧ topState.chip.t.gangSize = 0 ∧ (listState [itemOf 1 placedTask.launch]).chip.t.gangSize = 0 ∧
      (topState.chip.t.getX 6).toNat % 4 = 0 ∧ Claims.At topState .read false (topState.chip.t.getX 6) 4 topSpot ∧
      topState.chip.anyPoison topSpot.key 4 = false ∧ Mem.word topState.chip.mem topSpot.key = 0 ∧
      (∀ n ∈ [1, 65535], Claims.Alone (depState n) 4 ∧ ((depState n).chip.t.getX 9).extractLsb' 40 24 = 0 ∧
        ((depState n).chip.cluster ⟨(((depState n).chip.t.getX 9).extractLsb' 8 8).toNat,
          (((depState n).chip.t.getX 9).extractLsb' 16 8).toNat⟩).deps =
          [⟨((depState n).chip.t.getX 9).extractLsb' 0 8, ((depState n).chip.t.getX 9).extractLsb' 24 16, some (itemOf 0 1, n)⟩]) ∧
      (itemOf 0 1).mode = 0 ∧
      (∀ e ∈ (topState.chip.cluster ⟨((topState.chip.t.getX 9).extractLsb' 8 8).toNat,
        ((topState.chip.t.getX 9).extractLsb' 16 8).toNat⟩).deps, e.index = (topState.chip.t.getX 9).extractLsb' 0 8 → e.held = none) ∧
      (topState.chip.cluster topState.chip.tid.cluster).modeOne = [] ∧ topState.chip.t.task = some placedTask ∧
      Claims.Alone (listState [itemOf 1 placedTask.launch]) 4 ∧ (listState [itemOf 1 placedTask.launch]).chip.t.task = some placedTask ∧
      (itemOf 1 placedTask.launch).launch = placedTask.launch ∧ (itemOf 1 placedTask.launch).entry ≠ endLink ∧
      (itemOf 1 placedTask.launch).args.length = 6 ∧
      ((listState [itemOf 1 placedTask.launch]).chip.cluster (listState [itemOf 1 placedTask.launch]).chip.tid.cluster).modeOne =
        [itemOf 1 placedTask.launch] ∧
      (∀ e ∈ (listState [itemOf 1 placedTask.launch]).chip.others, ∀ n, e.2.run ≠ .wait (.wfw n)) ∧
      topState.chip.saved = [] ∧ (topState.chip.cluster topState.chip.tid.cluster).modeZero = [] ∧
      (topState.chip.cluster topState.chip.tid.cluster).hints = [] ∧
      ∀ n, n < 8 → (topState.chip.core ⟨topState.chip.tid.cx, topState.chip.tid.cy, n⟩).deque = [] := by
  refine ⟨alone_of _ _ (by decide), rfl, rfl, by decide, at_of 0 (by decide), by decide, by decide, ?_, rfl, ?_, by decide, by rfl,
    alone_of _ _ (by decide), by rfl, rfl, by decide, rfl, by decide, ?_, by decide, by decide, by decide, by decide⟩
  · intro n hn
    simp only [List.mem_cons, List.not_mem_nil, or_false] at hn
    rcases hn with rfl | rfl <;> exact ⟨alone_of _ _ (by decide), by decide, by decide⟩
  · have : (topState.chip.cluster ⟨((topState.chip.t.getX 9).extractLsb' 8 8).toNat,
        ((topState.chip.t.getX 9).extractLsb' 16 8).toNat⟩).deps = [] := by decide
    intro e he; rw [this] at he; cases he
  · have : (listState [itemOf 1 placedTask.launch]).chip.others = [] := by decide
    intro e he; rw [this] at he; cases he

/-- The own core's deque is full. -/
def fullState : State := onC (recordState 0) fun c =>
  c.setCore me.coreId { c.core me.coreId with deque := List.replicate (64 + Config.dequeExtra) (itemOf 0 1) }
/-- A counter that is not 0; and an item that the acting thread's core could take. -/
def countState : State := poke topState topSpot.key [5, 0, 0, 0]
def offerState : State := onCl topState fun k => { k with modeZero := [{ itemOf 0 placedTask.launch with slice := 0, tiles := 0 }] }
theorem wit_TaskResults_saves :
    (Claims.Alone fullState 4 ∧ Claims.RecordAt fullState (fullState.chip.t.getX 8) (recordBytes 0) ∧ byteAt (recordBytes 0) 60 = 0 ∧
      fieldAt (recordBytes 0) 62 2 = 0 ∧ 64 + Config.dequeExtra ≤ (fullState.chip.core fullState.chip.tid.coreId).deque.length ∧
      fullState.chip.t.handler = none ∧ fullState.chip.t.gangSize = 0 ∧ fullState.chip.t.task.isSome = true ∧
      Claims.FrameAt fullState fullState.chip.t.csr.tframe 0x400000) ∧
    (Claims.Alone countState 4 ∧ countState.chip.t.gangSize = 0 ∧ countState.chip.t.handler = none ∧
      countState.chip.t.task.isSome = true ∧ (countState.chip.t.getX 6).toNat % 4 = 0 ∧
      countState.chip.reach countState.mgmt (countState.chip.t.who countState.chip.tid) .read false (countState.chip.t.getX 6) 4 =
        (.ok topSpot 0, countState.chip) ∧
      countState.chip.anyPoison topSpot.key 4 = false ∧ Mem.word countState.chip.mem topSpot.key ≠ 0 ∧
      Claims.FrameAt countState countState.chip.t.csr.tframe 0x400000) ∧
    (Claims.Alone offerState 4 ∧ offerState.chip.t.gangSize = 0 ∧ offerState.chip.t.handler = none ∧
      (∃ task, offerState.chip.t.task = some task ∧
        offerState.chip.anyTakeable offerState.chip.tid.coreId (some task.id) (fun _ => true) = true) ∧
      offerState.chip.tid.core < 8 ∧ Claims.FrameAt offerState offerState.chip.t.csr.tframe 0x400000) := by
  have hd : (fullState.chip.core fullState.chip.tid.coreId).deque = List.replicate (64 + Config.dequeExtra) (itemOf 0 1) := rfl
  refine ⟨⟨alone_of _ _ (by decide), record_of _ _ ⟨by decide, by decide, by decide, Prod.ext (by decide) rfl, by decide⟩ (by decide),
    by decide, by decide, ?_, by rfl, by rfl, by rfl, frameAt_base _ _ (by decide)⟩,
    ⟨alone_of _ _ (by decide), by rfl, by rfl, by rfl, by decide, Prod.ext (by decide) rfl, by decide, by decide, frameAt_base _ _ (by decide)⟩,
    ⟨alone_of _ _ (by decide), by rfl, by rfl, ⟨placedTask, by rfl, by decide⟩, by decide, frameAt_base _ _ (by decide)⟩⟩
  rw [hd, List.length_replicate]

/-- The mate of core 0's thread 0, waiting to form a pair. -/
def mateThread : Thread := { placedThread with pc := placedCode + 64, run := .wait (.gang 2) }
def pairState : State := onC topState fun c => { c with others := [(⟨1, 0, 1, 0⟩, mateThread)] }
/-- The mate acting: its pair is on the core below it. -/
def upperState : State := onC pairState fun c => { c.focus ⟨1, 0, 1, 0⟩ with
  t := { mateThread with run := .ready }, others := [(⟨1, 0, 0, 0⟩, { placedThread with run := .wait (.gang 2) })] }
theorem wit_GangAndDenResults_gangs :
    (Instr.gang 3).WellFormed ∧ Claims.Alone topState 4 ∧ topState.chip.t.repc.getLsbD 7 = false ∧ topState.chip.t.gangSize = 0 ∧
      topState.chip.others = [] ∧
      (∀ p ∈ [(pairState, (⟨1, 0, 1, 0⟩ : TId), mateThread), (upperState, ⟨1, 0, 0, 0⟩, { placedThread with run := .wait (.gang 2) })],
        Claims.Alone p.1 4 ∧ p.1.chip.t.repc.getLsbD 7 = false ∧ p.1.chip.t.gangSize = 0 ∧
        p.2.1 = ⟨p.1.chip.tid.cx, p.1.chip.tid.cy, if p.1.chip.tid.core % 2 = 0 then p.1.chip.tid.core + 1 else p.1.chip.tid.core - 1,
          p.1.chip.tid.thread⟩ ∧
        tableGet p.1.chip.others p.2.1 = some p.2.2 ∧ p.2.2.run = .wait (.gang 2) ∧ p.2.2.pend = [] ∧ p.2.2.snaps = [] ∧
        p.2.2.loops = [] ∧ p.2.2.rep = none ∧ p.2.2.pc + 4 ≠ endLink ∧ p.1.chip.others = [(p.2.1, p.2.2)]) := by
  refine ⟨by decide, alone_of _ _ (by decide), by decide, by decide, by decide, ?_⟩
  intro p hp
  simp only [List.mem_cons, List.not_mem_nil, or_false] at hp
  rcases hp with rfl | rfl
  · exact ⟨alone_of _ _ (by decide), by decide, by decide, by decide, by rfl, rfl, rfl, rfl, rfl, rfl, by decide, by rfl⟩
  · exact ⟨alone_of _ _ (by decide), by decide, by decide, by decide, by rfl, rfl, rfl, rfl, rfl, rfl, by decide, by rfl⟩

def denState (e : List (BitVec 20 × DenEntry)) : State := onC (regs topState [(10, 0xFFFFF), (11, 9)]) fun c => { c with den := e }
theorem wit_GangAndDenResults_den :
    (∀ e, e = [] ∨ e = [(0xFFFFF, DenEntry.pending 9 3)] → Claims.Alone (denState e) 4 ∧ (denState e).chip.t.handler = none ∧
      (denState e).chip.t.gangSize = 0 ∧ (denState e).chip.t.task = some placedTask ∧ (denState e).chip.jobs = [] ∧
      (denState e).chip.tiles = [] ∧ ((denState e).chip.t.getX 10).toNat < 2 ^ 20 ∧ (denState e).chip.t.getX 0 = 0 ∧
      (denState e).chip.den = e) ∧
    tableGet [((0xFFFFF : BitVec 20), DenEntry.pending 9 3)] 0xFFFFF = some (.pending 9 3) ∧
    Claims.FrameAt (denState []) (denState []).chip.t.csr.tframe 0x400000 ∧
    topState.chip.t.gangSize = 0 ∧ 2 ^ 20 ≤ ((regs topState [(10, 0x100000)]).chip.t.getX 10).toNat ∧
    (placedFrame.toNat % 2 ^ 21 = 0 ∧ (homeHeap topState.mgmt placedFrame).isSome = true ∧
      (entryState frameEntry).chip.reach (entryState frameEntry).mgmt ((entryState frameEntry).chip.t.who (entryState frameEntry).chip.tid)
        .read false placedFrame 1 = (.ok ⟨0x200000, 0x400000⟩ frameEntry, (entryState frameEntry).chip) ∧
      Claims.Alone (entryState frameEntry) 4) := by
  refine ⟨?_, rfl, frameAt_base _ _ (by decide), rfl, by decide, by decide, by decide, by decide, alone_of _ _ (by decide)⟩
  rintro e (rfl | rfl) <;>
    exact ⟨alone_of _ _ (by decide), by decide, by decide, by rfl, by decide, by decide, by decide, by decide, by rfl⟩

theorem wit_GangAndDenResults_tableApart : Claims.TableApart (denState []) (denState []).chip.t.csr.tframe 0x400000 :=
  table_apart _ _ 0x200000 (by decide)

/-- A gang of two at a `yield`: the leader, and its mate on the next core with the next frame. -/
def barredMate : Thread := { placedThread with
  run := .follow, gangSize := 2, gangMember := 1, gangLeader := me
  csr := { placedThread.csr with tframe := placedFrame + 2048 } }
def barredState : State := onC (poke base 0x200000 (bytesOfWord 0x028000E1)) fun c => { c with
  t := { c.t with gangSize := 2, gangMember := 0, gangLeader := me }, others := [(⟨1, 0, 1, 0⟩, barredMate)] }
theorem wit_TaskResults_gang :
    Claims.BarredInGang .yield ∧ barredState.inbox = [] ∧ barredState.mayIssue = true ∧ barredState.chip.reporting = none ∧
      barredState.chip.t.pc ≠ endLink ∧
      (∃ c, barredState.chip.fetch barredState.mgmt barredState.chip.t.pc = (.instr .yield 0x028000E1, c) ∧ c.t = barredState.chip.t) ∧
      barredState.chip.t.returned = false ∧ barredState.chip.t.rep = none ∧ barredState.chip.t.gangSize = 2 ∧
      barredState.chip.t.gangMember = 0 ∧ barredState.chip.t.gangLeader = barredState.chip.tid ∧
      (⟨1, 0, 1, 0⟩ : TId) ≠ barredState.chip.tid ∧ barredState.chip.others = [(⟨1, 0, 1, 0⟩, barredMate)] ∧
      barredMate.gangSize = 2 ∧ barredMate.gangLeader = barredState.chip.tid ∧
      (⟨1, 0, 1, 0⟩ : TId).cluster = barredState.chip.tid.cluster ∧ (⟨1, 0, 1, 0⟩ : TId).thread = barredState.chip.tid.thread ∧
      barredMate.run = .follow ∧ barredState.chip.t.handler = none ∧ barredMate.handler = none ∧ barredState.chip.t.pend = [] ∧
      barredMate.pend = [] ∧ Claims.FrameAt barredState barredState.chip.t.csr.tframe 0x400000 ∧
      Claims.FrameAt barredState barredMate.csr.tframe 0x400800 ∧ Claims.TableApart barredState barredMate.csr.tframe 0x400000 ∧
      (⟨1, 0, 1, 0⟩ : TId).core < 8 ∧ 0x400000 + 2048 ≤ 0x400800 := by
  refine ⟨.yield, rfl, by decide, by decide, by decide, ⟨_, Prod.ext (by decide) rfl, by decide⟩, rfl, rfl, rfl, rfl, by decide, by decide,
    rfl, rfl, by decide, by decide, by decide, rfl, rfl, rfl, rfl, rfl, frameAt_base _ _ (by decide), ?_,
    table_apart _ _ 0x200800 (by decide), by decide, by decide⟩
  exact ⟨0, 0x200800, frameEntry, 0x4008, by decide, by decide, by decide, by decide, by decide, Or.inl (by decide), by decide,
    by decide, by decide, by rfl⟩

/-- The gang of two at an `ungang`. -/
def ungangState : State := poke barredState 0x200000 (bytesOfWord 0x038000E1)
theorem wit_GangAndDenResults_ungang :
    (Claims.Alone ungangState 4 ∧ ungangState.chip.t.gangSize ≠ 0 ∧
      (ungangState.chip.tid :: ungangState.chip.others.map Prod.fst).Nodup) ∧
    ((ungangState.chip.thread me).run = .ready ∧ ungangState.chip.followers me = [⟨1, 0, 1, 0⟩] ∧ (⟨1, 0, 1, 0⟩ : TId) ≠ me ∧
      (ungangState.chip.thread ⟨1, 0, 1, 0⟩).run = .follow) ∧
    (ungangState.inbox = [] ∧ ungangState.mayIssue = true ∧ ungangState.chip.reporting = none ∧ ungangState.chip.t.pc ≠ endLink ∧
      ungangState.chip.t.pc + 4 ≠ endLink ∧
      (∃ c, ungangState.chip.fetch ungangState.mgmt ungangState.chip.t.pc = (.instr .ungang 0x038000E1, c) ∧ c.t = ungangState.chip.t) ∧
      ungangState.chip.t.returned = false ∧ ungangState.chip.t.rep = none ∧ ungangState.chip.t.snaps = [] ∧
      ungangState.chip.t.pend = [] ∧ (∀ e ∈ ungangState.chip.t.loops, e.stop ≠ ungangState.chip.t.pc + 4) ∧
      ungangState.chip.t.gangSize = 2 ∧ ungangState.chip.t.gangMember = 0 ∧ ungangState.chip.t.gangLeader = ungangState.chip.tid ∧
      (⟨1, 0, 1, 0⟩ : TId) ≠ ungangState.chip.tid ∧ ungangState.chip.others = [(⟨1, 0, 1, 0⟩, barredMate)] ∧
      barredMate.gangSize = 2 ∧ barredMate.gangLeader = ungangState.chip.tid ∧
      (⟨1, 0, 1, 0⟩ : TId).cluster = ungangState.chip.tid.cluster ∧ (⟨1, 0, 1, 0⟩ : TId).thread = ungangState.chip.tid.thread ∧
      barredMate.run = .follow ∧ barredMate.pend = [] ∧ barredMate.snaps = [] ∧ barredMate.pc = ungangState.chip.t.pc ∧
      barredMate.loops = ungangState.chip.t.loops ∧ barredMate.rep = none ∧ barredMate.repc = ungangState.chip.t.repc) := by
  have hl : ungangState.chip.t.loops = [] := by rfl
  refine ⟨⟨alone_of _ _ (by decide), by decide, by decide⟩, ⟨by rfl, by decide, by decide, by rfl⟩, by decide, by decide, by decide, by decide,
    by decide, ⟨_, Prod.ext (by decide) rfl, by decide⟩, rfl, rfl, rfl, rfl, ?_, rfl, rfl, by decide, by decide, rfl, rfl, by decide,
    by decide, by decide, rfl, rfl, rfl, by decide, by decide, rfl, by decide⟩
  intro e he; rw [hl] at he; cases he

/-- A flush of one page: in HBM without copies, with both copies, and in the capacity tier. -/
def flushState (e b : Dword) (tc fl : List (Dword × Nat)) : State :=
  onC (regs (entryState e) [(10, placedFrame), (11, b)]) fun c => { c with tcopies := tc, flash := fl }
theorem wit_GangAndDenResults_flush (b : Dword) (hb : b ∈ [(1 <<< 62 ||| 1 : Dword), 2 <<< 62 ||| 1]) :
    ∀ q ∈ [(frameEntry, ([] : List (Dword × Nat))), (frameEntry, [(placedFrame, 0xDF * 2 ^ 32)]), (0x0004002000000001, [])],
      let s := flushState q.1 b q.2 q.2
      Claims.Alone s 4 ∧ (s.chip.t.getX 10).toNat % 2 ^ 21 = 0 ∧ s.chip.t.getX 11 = b ∧
      homeHeap s.mgmt (s.chip.t.getX 10) = some (0, 0x200000) ∧
      Claims.PageAt s (globalOf (heapLoc 0 0x200000)) 0 0x200000 q.1 0x4008 ∧
      (∃ sp e', s.chip.reach s.mgmt (s.chip.t.who s.chip.tid) .read false (s.chip.t.getX 10) 1 = (.ok sp e', s.chip)) ∧
      entryAddr q.1 % 2 ^ 21 = 0 ∧ entryAddr q.1 + 2 ^ 21 ≤ 2 ^ 40 ∧ (entryTier q.1 = 0 → entryAddr q.1 + 2 ^ 21 ≤ hbmEnd) ∧
      (s.chip.framesBusy 0).length < (tierEnd - hbmEnd) / 2 ^ 21 ∧ (Claims.flashUsed s 0).length < 2 ^ 19 := by
  intro q hq
  simp only [List.mem_cons, List.not_mem_nil, or_false] at hb hq
  rcases hb with rfl | rfl <;> rcases hq with rfl | rfl | rfl <;>
    exact ⟨alone_of _ _ (by decide), by decide, by decide, by decide, ⟨by decide, by decide, by decide⟩,
      ⟨⟨0x200000, _⟩, _, Prod.ext (by rfl) (by rfl)⟩, by decide, by decide, by decide, by decide, by decide⟩
theorem wit_GangAndDenResults_copies :
    entryTier frameEntry = 0 ∧ entryTier 0x0004002000000001 ≠ 0 ∧ (tableGet [(placedFrame, 0xDF * 2 ^ 32)] placedFrame).isSome = true ∧
      tableGet ([] : List (Dword × Nat)) placedFrame = none ∧ (Config.flashTier = true ∨ Config.flashTier = false) := by
  refine ⟨by decide, by decide, by decide, by decide, ?_⟩
  cases Config.flashTier <;> simp

/-! ### The register space, the boot and resets -/

/-- A monitor enabled with a source, a period of one tick, and the start of its period. -/
def owlOf (src : Nat) (since : Dword) : Owl :=
  { base.chip.owl (.cluster ⟨199, 99⟩) with ctl := BitVec.ofNat 64 (2 ^ 40 + src * 2 ^ 8 + 1), since := since }
/-- The main side without power, a log record kept for its die 7. -/
def recordsState : State :=
  { onC base fun c => c.setDie 7 { c.die 7 with records := [[0x5A]] } with mgmt := { base.mgmt with powered := false } }
theorem wit_RegisterSpaceResults :
    base.runs = true ∧
      -- MODID: accepted, not 0xFFF, and not while FABEN is 1; FABEN while MODID is 0
      (∃ g, Claims.ModuleWrite base.mgmt 0xFFE 0x00 g ∧ g.modid = 0xFFE) ∧ (∃ g, Claims.ModuleWrite base.mgmt 0xFFF 0x00 g ∧ g.modid = 0) ∧
      (∃ g, Claims.ModuleWrite { otherModule with faben := true } 9 0x00 g ∧ g.modid = 7) ∧
      (∃ g, Claims.ModuleWrite base.mgmt 1 0x08 g ∧ g.faben = false) ∧ (∃ g, Claims.ModuleWrite otherModule 1 0x08 g ∧ g.faben = true) ∧
      -- BOOTGO
      base.mgmt.bootst = 1 ∧ (0 : Dword) ≠ 1 ∧ ({ base.mgmt with bootst := 3 } : Mgmt).bootst ≠ 1 ∧
      -- the timer: at TIMEBASE, above it, and 0
      Claims.timeUp (onC base fun c => { c with timebase := 5 }) 5 ∧ ¬ Claims.timeUp (onC base fun c => { c with timebase := 5 }) 6 ∧
      ¬ Claims.timeUp base 0 ∧
      -- registers at the ends of their blocks
      (∃ g, Claims.ModuleWrite base.mgmt 0xFFFFFFFFFFFFFFFF (0x100 + 8 * 15) g) ∧ (∃ g, Claims.ModuleWrite base.mgmt 1 0x5000 g) ∧
      (∃ g, Claims.ModuleWrite base.mgmt 1 0xEFF8 g) ∧
      (∃ d, Claims.DieWrite (Claims.busy base 0) (base.chip.die 0) 0xFFFFFFFFFFFFFFFF 0x000 d) ∧
      (∃ d, Claims.DieWrite (Claims.busy base 7) (base.chip.die 7) 5 (0x100 + 0x40 * 3 + 0x38) d) ∧
      (∃ d, Claims.DieWrite (Claims.busy base 7) (base.chip.die 7) 5 0x218 d) ∧ Claims.busy base 0 = true ∧ Claims.busy base 7 = false ∧
      base.mgmt.powered = true ∧ (∃ v, Claims.Reads base (0x100 + 8 * 15) v) ∧ (∃ v, Claims.Reads base 0x5000 v) ∧
      (∃ v, Claims.Reads base (0x10000 * ((7 : BitVec 3).toNat + 1) + 0x600) v) ∧
      (∃ v, Claims.Reads base (0x800000 + 0x100 * (200 * 99 + 199)) v) ∧
      -- a host read of the last register of the module's block and of a die's ETROOT
      (∃ v, Claims.Reads base 0x00 v) ∧ (∃ v, Claims.Reads base (0x10000 * ((7 : BitVec 3).toNat + 1)) v) ∧
      -- records and health while the main side is down
      recordsState.runs = false ∧ (recordsState.chip.die 7).records[0]? = some [0x5A] ∧
      -- a monitor that samples: sources 1 and 3, one tick after its period began; none that does not
      (∀ src ∈ [1, 3], (owlOf src 0).ctl.getLsbD 0 = true ∧
        (owlOf src 0).ctl.toNat / 2 ^ 40 ≠ 0 ∧
        (owlOf src 0).ctl.toNat / 2 ^ 40 ≤ ((1 : Dword) - (owlOf src 0).since).toNat ∧
        ((1 : Dword) - (owlOf src 1).since).toNat < (owlOf src 1).ctl.toNat / 2 ^ 40 ∧
        (owlOf src 0).ctl.toNat / 2 ^ 8 % 2 ^ 8 = src) ∧
      -- one that takes latencies, and one of another source
      (owlOf 0 0).ctl.getLsbD 0 = true ∧ (owlOf 0 0).ctl.toNat / 2 ^ 8 % 2 ^ 8 = 0 ∧ (owlOf 1 0).ctl.toNat / 2 ^ 8 % 2 ^ 8 ≠ 0 ∧
      Claims.binFor 0 0 ∧ Claims.binFor 1 1 ∧ Claims.binFor 0x3FFFFFFF 30 ∧ Claims.binFor 0x40000000 31 := by
  refine ⟨by decide, ⟨_, .modid, by decide⟩, ⟨_, .modid, by decide⟩, ⟨_, .modid, by decide⟩, ⟨_, .faben, by decide⟩, ⟨_, .faben, by decide⟩,
    by decide, by decide, by decide, by unfold Claims.timeUp; decide, by unfold Claims.timeUp; decide, by unfold Claims.timeUp; decide,
    ⟨_, .hap 15 (by decide)⟩, ⟨_, .unassigned 0x5000 (by decide) (by decide)⟩, ⟨_, .unassigned 0xEFF8 (by decide) (by decide)⟩,
    ⟨_, .etroot⟩, ⟨_, .queue 3 0x38 _ (by decide) (by decide) .cqvec⟩, ⟨_, .logtail (by decide)⟩, by decide, by decide, by decide,
    ⟨_, .hap 15 (by decide)⟩, ⟨_, .unassigned 0x5000 (by decide) (by decide)⟩, ⟨_, .fwtmr 7⟩,
    ⟨_, .owl 199 99 (by decide) (by decide)⟩, ⟨_, .modid⟩, ⟨_, .etroot 7⟩, by decide, by decide, by decide, by decide, by decide, by decide, by unfold Claims.binFor; decide, by unfold Claims.binFor; decide,
    by unfold Claims.binFor; decide, by unfold Claims.binFor; decide⟩

/-- The header of an image of len bytes, its magic number as given. -/
def stagedState (magic : Word) (len : Dword) : State :=
  { poke State.reset stagingBase (bytesOfWord magic ++ bytesOfWord 7 ++ bytesOfDword len) with
    mgmt := { Mgmt.reset with bootst := 2, minVersion := 7 } }
theorem wit_BootAndResetResults :
    State.reset.runs = true ∧ State.reset.mgmt.bootst ≠ 3 ∧ ({ State.reset with mgmt := { Mgmt.reset with bootst := 3 } }).mgmt.bootst = 3 ∧
      (∀ e ∈ [((0 : Word), (1 : Dword)), (0x534B4657, 0), (0x534B4657, 2 ^ 28 - 511), (0x534B4657, 1), (0x534B4657, 2 ^ 28 - 512)],
        (stagedState e.1 e.2).runs = true ∧ (stagedState e.1 e.2).mgmt.bootst = 2 ∧
        Mem.word (stagedState e.1 e.2).chip.mem stagingBase = e.1 ∧
        (Mem.dword (stagedState e.1 e.2).chip.mem (stagingBase + 8)) = e.2 ∧
        (Mem.word (stagedState e.1 e.2).chip.mem (stagingBase + 4)).toNat = (stagedState e.1 e.2).mgmt.minVersion.toNat) ∧
      -- the last byte of the staging buffer, in a page with no tier copy
      tableGet State.reset.chip.tcopies (pageOf (heapLoc 0 (stagingBase + (0xFFFFFFF : BitVec 28).toNat))) = none ∧
      State.reset.mgmt.powered = true ∧ ({ State.reset with mgmt := { Mgmt.reset with powered := false } }).mgmt.powered = false ∧
      (0 : BitVec 3) ≠ 7 := by
  refine ⟨by decide, by decide, by decide, ?_, by decide, by decide, by decide, by decide⟩
  intro e he
  simp only [List.mem_cons, List.not_mem_nil, or_false] at he
  rcases he with rfl | rfl | rfl | rfl | rfl <;> exact ⟨by decide, by decide, by decide, by decide, by decide⟩

/-! ### Accesses from outside, threads and memory -/

/-- Segments of both apertures over this module's heap and over no form; and this module as module 7 of the fabric. -/
def hostState : State := { base with mgmt := { base.mgmt with hap := (base.mgmt.hap.set 15 0xFFF0000000000000).set 0 0xFFF8C80000000000 } }
def fabState : State := { base with mgmt := { base.mgmt with modid := 7, faben := true, froute := [(9, 0x80000000)] } }
def fabAddr : Dword := 0x00700000003FFFF8
def edgeSpot : Spot := ⟨0x3FFFF8, 0x5FFFF8⟩
theorem outside_of (s : State) (tid : TId) (a : Dword) (w : Bool)
    (h : homeHeap s.mgmt a = some (0, 0x3FFFF8) ∧ denOffset s.mgmt 0 0x3FFFF8 = none ∧
      subPage (s.chip.core tid.coreId).rgn 0 0x3FFFF8 = false ∧
      walk s.chip.mem 0 (s.chip.die 0).etroot 0x3FFFF8 false = .leaf frameEntry 0x4008 ∧
      heldLeaf (s.chip.die 0).spans (0x3FFFF8 / 2 ^ 21) false = none) : Claims.OutsideAt s tid a w edgeSpot :=
  ⟨0, 0x3FFFF8, frameEntry, 0x4008, h.1, h.2.1, h.2.2.1, h.2.2.2.1, Or.inl h.2.2.2.2, fun _ => by decide, by decide, by decide, by decide⟩
theorem seenBy_of (s : State) (a : AgentId) (sp : Spot) (n : Nat) (h : s.chip.hist = []) : Claims.SeenBy s a sp n :=
  fun _ _ _ _ => seen_of _ _ _ (by rw [h]; rfl)
def routineState : State := onC fabState fun c => { c with routines := [(63, endCode)] }
/-- A load of module 9 that the acting thread waits for, and one in a window of it. -/
def awayAcc : Access := .load 3 0x0090000000000008
def awayState (p : List Pending) (r : RunState) : State :=
  onC (onT fabState fun t => { t with run := r, pend := p }) fun c => { c with remotes := [⟨⟨1, 0, 0, 0⟩, 9⟩] }
def awayRun : State := awayState [] (.wait (.access (.x 5) awayAcc [] 0 0 0))
def awayPend : State := awayState [pendOf 3 (some awayAcc)] (.wait .window)
/-- The load in the window of a `vst` that the thread waits to complete. -/
def awayFixed : State := awayState [pendOf 3 (some awayAcc)] (.wait (.access (.x 5) (.vstore 0xFFF0000000200000 0xFF ⟨0, 0, 0, 0, 0, 0, 0, 0⟩) [] 0 0 0))
theorem focus_same (s : State) (h : s.chip.tid = ⟨1, 0, 0, 0⟩) : Claims.focused s ⟨1, 0, 0, 0⟩ = s := by
  have : s.chip.focus ⟨1, 0, 0, 0⟩ = s.chip := by unfold Chip.focus; simp [h]
  unfold Claims.focused; rw [this]
/-- A load of module 9 at the program counter, behind a `vst`. -/
def awayBehind : State := awayState vstWaits.chip.t.pend (.wait (.access (.x 5) awayAcc [] 0 0 0))
/-- A thread of another module, the highest that has a number. -/
def source : FabricSource := ⟨0xFFE, 0xFFFFFF⟩
/-- No pending entry is a store that may not be stopped, from a check that can be run. -/
theorem not_storing (s : State) (t : TId) (but : Option Nat)
    (h : ((s.chip.thread t).pend.all fun p => decide (some p.id = but) || p.access.all fun acc => !acc.lasting) = true) :
    ¬ Claims.Storing (s.chip.thread t) but := by
  rintro ⟨p, hp, hb, acc, ha, hl⟩
  have := List.all_eq_true.1 h p hp
  rw [Option.mem_def.1 ha, decide_eq_false hb] at this
  simp [hl] at this
/-- A thread whose instruction has no access has sent none. -/
theorem not_own (t : Thread) (P : Access → Prop) (h : ∀ d acc l n w la, t.run ≠ .wait (.access d acc l n w la)) : ¬ Claims.OwnWaits t P :=
  fun ⟨d, acc, l, n, w, la, hr, _⟩ => h d acc l n w la hr
theorem wit_OutsideAccessResults_host :
    hostState.runs = true ∧ (8 ∈ [1, 2, 4, 8]) ∧ (Claims.aperture hostState.mgmt 0xF03FFFF8).toNat % 64 + 8 ≤ 64 ∧
      Claims.OutsideAt hostState outsideTid (Claims.aperture hostState.mgmt 0xF03FFFF8) false edgeSpot ∧
      Claims.OutsideAt hostState outsideTid (Claims.aperture hostState.mgmt 0xF03FFFF8) true edgeSpot ∧ hostState.chip.poison = [] ∧
      Claims.SeenBy hostState (.host true) edgeSpot 8 ∧ Claims.NoCopy hostState edgeSpot ∧
      classify hostState.mgmt (Claims.aperture hostState.mgmt 0) = none :=
  ⟨by decide, by decide, by decide, outside_of _ _ _ _ (by decide), outside_of _ _ _ _ (by decide), by decide,
    seenBy_of _ _ _ _ (by decide), by rfl, by decide⟩
theorem wit_OutsideAccessResults_fabric :
    fabState.runs = true ∧ fabState.mgmt.faben = true ∧ source.module ≠ fabState.mgmt.modid ∧
      fabAddr.extractLsb' 52 12 = fabState.mgmt.modid ∧ fabAddr.toNat % 8 = 0 ∧ fabAddr.toNat % 4 = 0 ∧
      Claims.OutsideAt fabState (Claims.requester source) fabAddr false edgeSpot ∧
      Claims.OutsideAt fabState (Claims.requester source) fabAddr true edgeSpot ∧ fabState.chip.poison = [] ∧
      Claims.SeenBy fabState (.fabric source.module) edgeSpot 8 ∧ Claims.SeenBy fabState (.fabric source.module) edgeSpot 4 ∧
      Claims.NoCopy fabState edgeSpot ∧ (0x0080000000000000 : Dword).extractLsb' 52 12 ≠ fabState.mgmt.modid ∧
      (fabAddr + 7).extractLsb' 52 12 = fabState.mgmt.modid ∧ (fabAddr + 7).toNat % Claims.requestAlign .jobRead ≠ 0 ∧
      (∀ h ∈ fabState.chip.hoard, h.owner ≠ Claims.requester source) ∧
      (onC fabState fun c => { c with poison := [edgeSpot.key / 64 * 64] }).chip.anyPoison edgeSpot.key 4 = true ∧
      -- the requests that write, at a key of the frame's page
      (∀ (m : List Host.Cell) (k : Nat), ∃ op bs v, Claims.Request m k op bs v ∧ bs.length = 8 ∧ fabAddr.toNat % bs.length = 0) ∧
      (∃ op bs v, Claims.Request fabState.chip.mem edgeSpot.key op bs v ∧ bs.length = 1) :=
  ⟨by decide, by decide, by decide, by decide, by decide, by decide, outside_of _ _ _ _ (by decide),
    outside_of _ _ _ _ (by decide), by decide, seenBy_of _ _ _ _ (by decide), seenBy_of _ _ _ _ (by decide), by rfl, by decide, by decide,
    by decide, by decide, by decide, fun m k => ⟨_, _, _, .cas 1, by rfl, by decide⟩, ⟨_, _, _, .write 0 5, by rfl⟩⟩
theorem wit_OutsideAccessResults_routines :
    routineState.mgmt.faben = true ∧ Claims.OutsideAt routineState outsideTid fabAddr true edgeSpot ∧
      tableGet fabState.chip.routines 63 = none ∧ Claims.OutsideAt fabState outsideTid fabAddr true edgeSpot ∧
      tableGet routineState.chip.routines 63 = some endCode ∧ routineState.chip.poison = [] ∧
      Claims.NoCopy routineState ⟨edgeSpot.loc / 64 * 64, edgeSpot.key - edgeSpot.loc % 64⟩ ∧
      ∃ small cell, badgerRun endCode (Mem.bytes routineState.chip.mem (edgeSpot.key - edgeSpot.loc % 64) 64)
        ((List.range 16).map fun i => routineState.chip.isFull (edgeSpot.key - edgeSpot.loc % 64 + 4 * i)) (edgeSpot.loc % 64) 63 1 2 =
          (small, cell, .ended) ∧ cell.bytes.length = 64 :=
  ⟨by decide, outside_of _ _ _ _ (by decide), by decide, outside_of _ _ _ _ (by decide), by decide, by decide, by rfl,
    ⟨_, _, Prod.ext rfl (Prod.ext rfl (by rfl)), by decide⟩⟩
theorem wit_OutsideAccessResults_lost :
    (∀ e ∈ [(awayRun, none), (awayPend, some 0)],
      e.1.chip.remotes.find? (fun r => decide (r.tid = me)) = some ⟨me, 9⟩ ∧
      (e.1.chip.thread me).firstWaiting (awayAt e.1.mgmt 9) = some ⟨0x0090000000000008, .read, 0, e.2, awayAcc⟩ ∧
      (e.1.chip.thread me).handler = none ∧ (e.1.chip.thread me).gangSize = 0 ∧ ¬ Claims.PutOff e.1 me e.2 awayAcc ∧
      (let u := Claims.focused { e.1 with chip := { e.1.chip with remotes := e.1.chip.remotes.erase ⟨me, 9⟩ } } me
       Claims.FrameAt u u.chip.t.csr.tframe 0x400000)) ∧
    ((awayFixed.chip.thread me).firstWaiting (awayAt awayFixed.mgmt 9) = some ⟨0x0090000000000008, .read, 0, some 0, awayAcc⟩ ∧
      Claims.PutOff awayFixed me (some 0) awayAcc ∧ (awayFixed.chip.thread me).handler = none ∧ (awayFixed.chip.thread me).gangSize = 0) ∧
    ((awayBehind.chip.thread me).firstWaiting (awayAt awayBehind.mgmt 9) = some ⟨0x0090000000000008, .read, 0, none, awayAcc⟩ ∧
      Claims.PutOff awayBehind me none awayAcc ∧ (awayBehind.chip.thread me).handler = none ∧ (awayBehind.chip.thread me).gangSize = 0) := by
  refine ⟨?_, ⟨by rfl, Or.inr ⟨rfl, Or.inr ⟨_, _, _, _, _, _, by rfl, rfl, by decide⟩⟩, by decide, by decide⟩,
    ⟨by rfl, Or.inl ⟨_, List.mem_singleton_self _, by decide, _, rfl, rfl⟩, by decide, by decide⟩⟩
  intro e he
  simp only [List.mem_cons, List.not_mem_nil, or_false] at he
  rcases he with rfl | rfl
  · refine ⟨by decide, by rfl, by decide, by decide, ?_, ?_⟩
    · rintro (h | ⟨h, _⟩)
      · exact not_storing awayRun me none (by decide) h
      · cases h
    · exact frameAt_base (Claims.focused { awayRun with chip := { awayRun.chip with remotes := awayRun.chip.remotes.erase ⟨me, 9⟩ } } me)
        _ (by decide)
  · have h : (awayPend.chip.thread me).run = .wait .window := by rfl
    have no (P : Access → Prop) : ¬ Claims.OwnWaits (awayPend.chip.thread me) P :=
      not_own _ _ fun d acc l n w la e => by rw [h] at e; cases e
    refine ⟨by decide, by rfl, by decide, by decide, ?_, ?_⟩
    · rintro (h | ⟨_, h | h⟩)
      · exact not_storing awayPend me (some 0) (by decide) h
      · exact no _ h
      · exact no _ h
    · exact frameAt_base (Claims.focused { awayPend with chip := { awayPend.chip with remotes := awayPend.chip.remotes.erase ⟨me, 9⟩ } } me)
        _ (by decide)

def endedState : State := onT base fun t => { t with run := .wait .window, pend := [pendOf 0 none] }
def reportState (r : Report) (w : Wait) : State := onT base fun t => { t with run := .wait w, report := some r }
def poisonReport : Report := ⟨Cause.ctxPoison, 0, 1, [], 0⟩
def pagesReport : Report := ⟨Cause.pageAbsent, 0x200000, 0, [0x200000, 0x400000], 3⟩
/-- A `vst` that waits to complete. -/
def storeWait : Wait := .access .none (.vstore 0xFFF0000000200000 0xFF ⟨0, 0, 0, 0, 0, 0, 0, 0⟩) [] 0 0 0
def zeroState : State := onC (entryState zeroEntry) fun c => { c with zeroing := [(placedFrame, false, zeroEntry)] }
/-- The frame's page held, with a clean tier copy; and the codes of a log ring of one record on the frame's page. -/
def copyState : State := onC (entryState frameEntry) fun c => { c with tcopies := [(pageOf 0x200000, hbmEnd)] }
def logState : State := onC (entryState frameEntry) fun c =>
  c.setDie 0 { c.die 0 with logbase := placedFrame + 0x1FFFC0, logsize := 1, loghead := 0xFFFFFFFF, logtail := 0xFFFFFFFF }
def columnState : State := onCl base fun k => { k with slots := List.replicate 8 ⟨true, 0x11, none, List.replicate 16 ⟨bf16Cell, 0, []⟩⟩ }
/-- A task away from its thread, its tile 3 in the pool. -/
def pooledTask : Saved := ⟨{ placedTask with id := 5, tiles := 4 }, placedFrame, [], ⟨1, 0⟩, 0, false, .ready, [], none, []⟩
def pooledState : State := onC base fun c => { c with saved := [pooledTask], tiles := [{ tileOf 3 true false with task := 5 }] }
/-- A thread that has just returned, with ACT and five repeats done. -/
def returnedAt (s : State) : State := onT s fun t => { t with returned := true, repc := 0x85 }
theorem repcKept_off : Claims.RepcKept (returnedAt addState) 5 := by
  have f : ((returnedAt addState).chip.fetch (returnedAt addState).mgmt (returnedAt addState).chip.t.pc).1 =
      .instr (.add 3 4 5) 0x00148301 := by decide
  refine ⟨?_, fun _ _ => by decide⟩
  rintro (h | ⟨b, a, d, n, w, c, h⟩)
  · exact absurd h (by decide)
  · rw [h] at f; cases f
theorem repcKept_at : Claims.RepcKept (returnedAt repState) 0x85 := by
  refine ⟨fun _ => by decide, fun _ h => absurd ?_ h⟩
  exact ⟨true, true, true, 1, 0x0706, _, Prod.ext (by decide) rfl⟩
theorem wit_ThreadAndMemoryEvents_threads :
    (endedState.chip.thread ⟨1, 0, 0, 0⟩).run = .wait .window ∧ (endedState.chip.thread ⟨1, 0, 0, 0⟩).pend = [pendOf 0 none] ∧
      (endedState.chip.thread ⟨1, 0, 0, 0⟩).snaps = [] ∧ (pendOf 0 none).rem = 0 ∧ (pendOf 0 none).access = none ∧
      (pendOf 0 none).dest = .x 5 ∧ (pendOf 0 none).result = .x 9 ∧ (pendOf 0 none).snap = none ∧
      -- a report of this thread, and one that several pages end; returned, with ACT at a word that is no prefix, and at a prefix
      (∀ r ∈ [poisonReport, pagesReport], let s := reportState r .retry
        (s.chip.thread me).run = .wait .retry ∧ ¬ Claims.Fixed s me ∧ (s.chip.thread me).handler = none ∧
          (s.chip.thread me).gangSize = 0 ∧ (s.chip.thread me).report = some r ∧ (s.chip.thread me).task = some placedTask ∧
          (let u := Claims.focused s me
           Claims.RepcKept u 0 ∧
           let v := Claims.withThread u { u.chip.t with report := none, repc := 0 }
           Claims.FrameAt v v.chip.t.csr.tframe 0x400000)) ∧
      Claims.RepcKept (returnedAt addState) 5 ∧ Claims.RepcKept (returnedAt repState) 0x85 ∧
      poisonReport.pages = [] ∧ pagesReport.pages ≠ [] ∧ Claims.Fixed (reportState poisonReport storeWait) ⟨1, 0, 0, 0⟩ ∧
      (base.chip.thread ⟨1, 0, 0, 0⟩).task = some placedTask ∧
      base.chip.threadOf placedTask.id = some (⟨1, 0, 0, 0⟩, base.chip.thread ⟨1, 0, 0, 0⟩) ∧
      (base.chip.thread ⟨1, 0, 0, 0⟩).report = none ∧ (base.chip.die (⟨1, 0, 0, 0⟩ : TId).die).logsize = 0 := by
  refine ⟨by decide, by decide, by decide, rfl, rfl, rfl, rfl, rfl, ?_, repcKept_off, repcKept_at, rfl, by decide,
    Or.inr (Or.inl ⟨_, _, _, _, _, _, by rfl, rfl⟩), by decide, by decide, by decide, by decide⟩
  intro r hr
  have notFixed (h : (reportState r .retry).chip.thread me = (reportState r .retry).chip.t) (hp : (reportState r .retry).chip.t.pend = []) :
      ¬ Claims.Fixed (reportState r .retry) me := by
    have no (P : Access → Prop) : ¬ Claims.OwnWaits ((reportState r .retry).chip.thread me) P :=
      not_own _ _ fun d acc l n w la e => by rw [h] at e; cases e
    rintro (hs | hs | ⟨p, hm, _⟩)
    · exact no _ hs
    · exact no _ hs
    · rw [h, hp] at hm; cases hm
  have kept (s : State) (h : s.chip.t.returned = false ∧ s.chip.t.repc = 0) : Claims.RepcKept s 0 :=
    ⟨fun _ => h.2.symm, fun e => by rw [h.1] at e; cases e⟩
  simp only [List.mem_cons, List.not_mem_nil, or_false] at hr
  rcases hr with rfl | rfl <;>
    refine ⟨by decide, notFixed (by rfl) rfl, by decide, by decide, by decide, by decide, kept _ (by decide), ?_⟩
  · exact frameAt_base (Claims.withThread (Claims.focused (reportState poisonReport .retry) me)
      { (Claims.focused (reportState poisonReport .retry) me).chip.t with report := none, repc := 0 }) _ (by decide)
  · exact frameAt_base (Claims.withThread (Claims.focused (reportState pagesReport .retry) me)
      { (Claims.focused (reportState pagesReport .retry) me).chip.t with report := none, repc := 0 }) _ (by decide)
theorem wit_ThreadAndMemoryEvents_memory :
    (-- the table holds the entry, or no longer holds it
      (∀ s ∈ [zeroState, poke zeroState 0x4008 (bytesOfDword frameEntry)], s.chip.zeroing.find?
        (fun z => decide (z.1 = placedFrame) && decide (z.2.1 = false)) = some (placedFrame, false, zeroEntry) ∧
        homeHeap s.mgmt placedFrame = some (0, 0x200000)) ∧
      walk ((poke zeroState 0x4008 (bytesOfDword frameEntry)).chip.mem.filter fun x => decide (x.1 < heapKey 0 (entryAddr zeroEntry)) ||
        decide (heapKey 0 (entryAddr zeroEntry) + 2 ^ 21 ≤ x.1)) 0 0x2001 0x200000 false = .leaf frameEntry 0x4008 ∧
      frameEntry ≠ zeroEntry ∧ (zeroState.chip.die 0).etroot = 0x2001) ∧
    (homeHeap zeroState.mgmt placedFrame = some (0, 0x200000) ∧
      walk zeroState.chip.mem 0 (zeroState.chip.die 0).etroot 0x200000 false = .leaf zeroEntry 0x4008 ∧
      entryZero zeroEntry = true ∧ entryTier zeroEntry ≠ 2 ∧ heapKey 0 0x4008 + 8 ≤ heapKey 0 (entryAddr zeroEntry) ∧
      walk (zeroState.chip.mem.filter fun x => decide (x.1 < heapKey 0 (entryAddr zeroEntry)) ||
        decide (heapKey 0 (entryAddr zeroEntry) + 2 ^ 21 ≤ x.1)) 0 (zeroState.chip.die 0).etroot 0x200000 false =
        .leaf zeroEntry 0x4008) ∧
      -- a cell with one clean copy, and the same cell with none
      ((0x5FFFC0 : Nat) < hbmEnd ∧ 0x5FFFC0 % 64 = 0 ∧ (copyState.chip.die 0).logsize = 0 ∧
        Claims.CopyAt copyState 0 0x5FFFC0 (heapKey 0 (hbmEnd + 0x1FFFC0)) ∧
        (∀ q, Claims.CopyAt copyState 0 0x5FFFC0 q → q = heapKey 0 (hbmEnd + 0x1FFFC0)) ∧
        copyState.chip.poisoned (heapKey 0 (hbmEnd + 0x1FFFC0)) = false ∧ ∀ k, ¬ Claims.CopyAt base 0 0x5FFFC0 k) ∧
      isSliceKey (sliceKey ⟨199, 99, 7⟩ 0xFFFC) = true ∧
      (base.chip.die (keyDie (sliceKey ⟨199, 99, 7⟩ 0xFFFC))).logsize = 0 ∧
      (∀ k, SoftTarget.slot ⟨1, 0⟩ 7 15 15 ≠ .memoryCell k) ∧
      (let d := logState.chip.die (logState.chip.softDie (.slot ⟨1, 0⟩ 7 15 15))
       (d.loghead - d.logtail).toNat < d.logsize.toNat ∧ d.loglost = 0 ∧ d.logwait = [] ∧
       logState.chip.hardwareSpot logState.mgmt (d.logbase + BitVec.ofNat 64 (d.loghead.toNat % d.logsize.toNat * 64)) =
         (.here ⟨0x3FFFC0, 0x5FFFC0⟩, logState.chip)) ∧ Claims.NoCopy logState ⟨0x3FFFC0, 0x5FFFC0⟩ ∧
      ((columnState.chip.cluster ⟨1, 0⟩).slot 7).columns[15]? = some ⟨bf16Cell, 0, []⟩ := by
  refine ⟨⟨?_, by decide, by decide, by decide⟩, ⟨by decide, by decide, by decide, by decide, by decide, by decide⟩, ⟨by decide, by decide, by decide,
    ⟨pageOf 0x200000, hbmEnd, frameEntry, by decide, by decide, by decide, by decide, by decide, by decide, by decide⟩, ?_, by decide, ?_⟩,
    by decide, by decide, fun k h => (by cases h), ⟨by decide, by decide, by decide, by decide⟩, by rfl, by rfl⟩
  · intro s hs
    simp only [List.mem_cons, List.not_mem_nil, or_false] at hs
    rcases hs with rfl | rfl <;> exact ⟨by decide, by decide⟩
  · rintro q ⟨page, tier, e, hm, _, he, _, _, _, rfl⟩
    have hm : (page, tier) ∈ [(pageOf 0x200000, hbmEnd)] := hm
    simp only [List.mem_cons, List.not_mem_nil, or_false, Prod.mk.injEq] at hm
    obtain ⟨rfl, rfl⟩ := hm
    have : copyState.chip.pageEntry (pageOf 0x200000) = some frameEntry := by decide
    rw [this] at he
    cases he
    decide
  · rintro k ⟨page, tier, e, hm, _⟩
    have hm : (page, tier) ∈ ([] : List (Dword × Nat)) := hm
    simp at hm
theorem wit_ThreadAndMemoryEvents_poison :
    (∀ e ∈ [(SoftTarget.threadX ⟨1, 0, 0, 0⟩, 0), (.threadV ⟨1, 0, 0, 0⟩, 1), (.threadM ⟨1, 0, 0, 0⟩, 2), (.threadCsr ⟨1, 0, 0, 0⟩, 3)],
        Claims.PoisonBit base ⟨1, 0, 0, 0⟩ placedTask.id e.1 e.2) ∧
      (let s := tileState [] [tileOf 3 true false]
       (s.chip.thread ⟨1, 0, 0, 0⟩).task.isSome = true ∧ Claims.PoisonBit s ⟨1, 0, 0, 0⟩ 1 (.tile 1 3) 7) ∧
      pooledState.chip.threadOf pooledTask.task.id = none ∧ pooledState.chip.saved = [pooledTask] ∧ pooledTask.report = none ∧
      (pooledState.chip.tile pooledTask.task.id (3 : BitVec 2).toNat).isSome = true ∧
      (pooledState.chip.die pooledTask.cluster.die).logsize = 0 := by
  refine ⟨?_, ⟨by decide, .tile 3 (by decide)⟩, by decide, by rfl, by rfl, by decide, by decide⟩
  intro e he
  simp only [List.mem_cons, List.not_mem_nil, or_false] at he
  rcases he with rfl | rfl | rfl | rfl
  exacts [.x, .v, .m, .csr]

/-! ### Events of the engines -/

theorem jobWord_of (s : State) (j : Job) (a : Dword) (w : Word) (off : Nat)
    (h : classify s.mgmt a = some (.window off) ∧ windowAllows j.lwin off 4 true false = true ∧
      w = Mem.word s.chip.mem (sliceKey j.tid.coreId off) ∧ s.chip.hist = []) : Claims.JobWord s j a w :=
  ⟨_, 0, Or.inl ⟨off, h.1, h.2.1, rfl, rfl⟩, h.2.2.1, fun x hx => by rw [h.2.2.2] at hx; cases hx⟩
theorem jobDest_of (s : State) (j : Job) (a : Dword) (n off : Nat)
    (h : classify s.mgmt a = some (.window off) ∧ windowAllows j.lwin off n false true = true ∧
      isSliceKey (sliceKey j.tid.coreId off) = true) : Claims.JobDest s j a n (sliceKey j.tid.coreId off) :=
  ⟨⟨sliceLoc j.tid.coreId off, sliceKey j.tid.coreId off⟩, 0, Or.inl ⟨off, h.1, h.2.1, rfl, rfl⟩, by rw [if_pos h.2.2]⟩
/-- A copy of 16 bytes to the window's end, with all its words to land, or its last, or those between. -/
def copyJob (streamed : Bool) (landed : Nat) : Job := { job 31 (.cpy 0xFFF0 0 16) .running with streamed := streamed, landed := landed }
theorem nextWord_of (s : State) (entry : BitVec 5) (p : Nat) (j : Job) (dst src : Dword) (w : Word) (words off : Nat)
    (h : s.chip.jobAt ⟨1, 0⟩ entry = some j ∧ j.state = .running ∧ j.tied = none ∧ j.scattered.Nodup ∧
      (j.scattered.all fun q => decide (j.landed < q)) = true ∧ j.landed ≤ p ∧ p < words ∧ p ∉ j.scattered ∧
      (j.streamed = true → p = j.landed) ∧ s.chip.poison = [] ∧ j.known = [])
    (moves : Claims.Moves s j p dst src words)
    (source : classify s.mgmt src = some (.window off) ∧ windowAllows j.lwin off 4 true false = true ∧
      w = Mem.word s.chip.mem (sliceKey j.tid.coreId off) ∧ s.chip.hist = []) :
    Claims.NextWord s ⟨1, 0⟩ entry p j dst w words := by
  obtain ⟨h1, h2, h3, h4, h5, h6, h7, h8, h9, hp, hk⟩ := h
  refine ⟨⟨h1, h2, h3⟩, ⟨h4, fun q hq => of_decide_eq_true (List.all_eq_true.1 h5 q hq)⟩, ⟨h6, h7, h8, h9⟩,
    ⟨Or.inl hp, fun _ sp _ _ _ => ?_⟩, src, moves, (fun e he => by rw [hk] at he; cases he), jobWord_of s j src w off source⟩
  simp only [Chip.anyPoison, hp, List.isEmpty_nil, if_true]
/-- A copy of one word from the window's first, while a heap cell is poisoned. -/
def besidePoison : State := onC (jobState (job 31 (.cpy 0xFFF0 0 4) .running)) fun c => { c with poison := [0x400000] }
theorem nextWord_poison : Claims.NextWord besidePoison ⟨1, 0⟩ 31 0 (job 31 (.cpy 0xFFF0 0 4) .running) 0xFFF0 0 1 := by
  refine ⟨⟨by decide, rfl, rfl⟩, ⟨by decide, by decide⟩, ⟨by decide, by decide, by decide, by decide⟩, ⟨Or.inr (by decide), ?_⟩,
    0, .cpy 0xFFF0 0 4 rfl, (fun e he => by cases he), jobWord_of _ _ 0 0 0 (by decide)⟩
  intro src sp e mv at_
  have from_ (dst : Dword) (words : Nat) (m : Claims.Moves besidePoison (job 31 (.cpy 0xFFF0 0 4) .running) 0 dst src words) :
      src = 0 + BitVec.ofNat 64 (4 * 0) := by
    cases m with
    | cpy d r n k => cases k; rfl
    | cpy2 _ _ _ _ _ _ k => cases k
    | gath _ _ _ _ _ _ k => cases k
    | scat _ _ _ _ _ _ k => cases k
  cases from_ _ _ mv
  · have hw : classify besidePoison.mgmt (0 + BitVec.ofNat 64 (4 * 0)) = some (.window 0) := by decide
    have hh : homeHeap besidePoison.mgmt (0 + BitVec.ofNat 64 (4 * 0)) = none := by decide
    rcases at_ with ⟨off, h, _, _, rfl⟩ | ⟨k, off, h, _⟩ | ⟨d, off, p, h, _⟩
    · rw [hw] at h; cases h
      decide
    · rw [hw] at h; cases h
    · rw [hh] at h; cases h
theorem indexWord_of (s : State) (j : Job) (i : Nat) (a : Dword) (w : Word) (off : Nat) (h : j.indices = [] ∧ j.known = [])
    (source : classify s.mgmt a = some (.window off) ∧ windowAllows j.lwin off 4 true false = true ∧
      w = Mem.word s.chip.mem (sliceKey j.tid.coreId off) ∧ s.chip.hist = []) : Claims.IndexWord s j i a w :=
  Or.inr ⟨by rw [h.1]; rfl, (fun e he => by rw [h.2] at he; cases he), jobWord_of s j a w off source⟩
/-- Transfers that end at the window's end: two rows, and two elements of two words that index 0 names. -/
def rowsJob : Job := job 31 (.cpy2 0xFFF4 0 4 2 8 8) .running
def gathJob : Job := job 31 (.gath 0xFFF0 0 0x100 2 8) .running
def scatJob : Job := job 31 (.scat 0xFFF8 0 0x100 2 8) .running
theorem wit_TransferEvents_start :
    (let j := job 31 (.cpy 0xFFF0 0 16) .queued
     (jobState j).chip.jobAt ⟨1, 0⟩ 31 = some j ∧ j.state = .queued ∧ ∀ p, j.kind ≠ .cld p) := by
  exact ⟨by decide, rfl, fun p h => by cases h⟩
theorem wit_TransferEvents_copy :
    (Claims.NextWord besidePoison ⟨1, 0⟩ 31 0 (job 31 (.cpy 0xFFF0 0 4) .running) 0xFFF0 0 1 ∧
      Claims.JobDest besidePoison (job 31 (.cpy 0xFFF0 0 4) .running) 0xFFF0 4 (sliceKey me.coreId 0xFFF0)) ∧
    (∀ e ∈ [(copyJob true 3, 3), (copyJob false 0, 3), (copyJob false 0, 0), ({ copyJob false 0 with scattered := [3, 1] }, 0),
        ({ copyJob false 0 with scattered := [3, 1] }, 2)],
      Claims.NextWord (jobState e.1) ⟨1, 0⟩ 31 e.2 e.1 (0xFFF0 + BitVec.ofNat 64 (4 * e.2)) 0 (16 / 4) ∧
      Claims.JobDest (jobState e.1) e.1 (0xFFF0 + BitVec.ofNat 64 (4 * e.2)) 4 (sliceKey e.1.tid.coreId (0xFFF0 + 4 * e.2)) ∧
      (∀ sp, Claims.NoCopy (jobState e.1) sp)) := by
  refine ⟨⟨nextWord_poison, jobDest_of _ _ _ _ 0xFFF0 (by decide)⟩, ?_⟩
  intro e he
  simp only [List.mem_cons, List.not_mem_nil, or_false] at he
  rcases he with rfl | rfl | rfl | rfl | rfl
  · exact ⟨nextWord_of _ _ _ _ _ _ _ _ 12 (by decide) (.cpy _ _ _ rfl) (by decide), jobDest_of _ _ _ _ (0xFFF0 + 4 * 3) (by decide), fun sp => by rfl⟩
  · exact ⟨nextWord_of _ _ _ _ _ _ _ _ 12 (by decide) (.cpy _ _ _ rfl) (by decide), jobDest_of _ _ _ _ (0xFFF0 + 4 * 3) (by decide), fun sp => by rfl⟩
  · exact ⟨nextWord_of _ _ _ _ _ _ _ _ 0 (by decide) (.cpy _ _ _ rfl) (by decide), jobDest_of _ _ _ _ (0xFFF0 + 4 * 0) (by decide), fun sp => by rfl⟩
  · exact ⟨nextWord_of _ _ _ _ _ _ _ _ 0 (by decide) (.cpy _ _ _ rfl) (by decide), jobDest_of _ _ _ _ (0xFFF0 + 4 * 0) (by decide), fun sp => by rfl⟩
  · exact ⟨nextWord_of _ _ _ _ _ _ _ _ 8 (by decide) (.cpy _ _ _ rfl) (by decide), jobDest_of _ _ _ _ (0xFFF0 + 4 * 2) (by decide), fun sp => by rfl⟩
theorem wit_TransferEvents_others :
    (Claims.NextWord (jobState rowsJob) ⟨1, 0⟩ 31 1 rowsJob 0xFFFC 0 2 ∧
      Claims.JobDest (jobState rowsJob) rowsJob 0xFFFC 4 (sliceKey rowsJob.tid.coreId 0xFFFC)) ∧
    (Claims.NextWord (jobState gathJob) ⟨1, 0⟩ 31 3 gathJob 0xFFFC 0 4 ∧
      Claims.JobDest (jobState gathJob) gathJob 0xFFFC 4 (sliceKey gathJob.tid.coreId 0xFFFC)) ∧
    (Claims.NextWord (jobState scatJob) ⟨1, 0⟩ 31 3 scatJob 0xFFFC 0 4 ∧
      Claims.JobDest (jobState scatJob) scatJob 0xFFFC 4 (sliceKey scatJob.tid.coreId 0xFFFC)) := by
  refine ⟨⟨nextWord_of _ _ _ _ _ 8 _ _ 8 (by decide) (.cpy2 0xFFF4 0 4 2 8 8 rfl) (by decide), jobDest_of _ _ _ _ 0xFFFC (by decide)⟩,
    ⟨nextWord_of _ _ _ _ _ 4 _ _ 4 (by decide) (.gath 0xFFF0 0 0x100 2 8 0 rfl (indexWord_of _ _ _ _ _ 0x104 (by decide) (by decide))) (by decide),
      jobDest_of _ _ _ _ 0xFFFC (by decide)⟩,
    ⟨nextWord_of _ _ _ _ _ 12 _ _ 12 (by decide) (.scat 0xFFF8 0 0x100 2 8 0 rfl (indexWord_of _ _ _ _ _ 0x104 (by decide) (by decide))) (by decide),
      jobDest_of _ _ _ _ 0xFFFC (by decide)⟩⟩
/-- A copy of one word to the frame's page, which is SHADOW and has no shadow frame yet, from the window's first. -/
def shadowJob : Job := job 31 (.cpy placedFrame 0 4) .running
def toShadow (frames : Dword) : State := onC (window (entryState shadowEntry)) fun c =>
  { c.setDie 0 { c.die 0 with spbase := 0x800000, spcount := frames } with jobs := [shadowJob] }
theorem noShadow_of (s : State) (j : Job)
    (h : homeHeap s.mgmt placedFrame = some (0, 0x200000) ∧ denOffset s.mgmt 0 0x200000 = none ∧
      subPage (s.chip.regionsOf j.who) 0 0x200000 = false ∧
      walk s.chip.mem 0 (s.chip.die 0).etroot 0x200000 false = .leaf shadowEntry 0x4008 ∧
      heldLeaf (s.chip.die 0).spans (0x200000 / 2 ^ 21) false = some shadowEntry)
    (none_ : (s.chip.die 0).shadows = []) :
    Claims.NoShadowYet s j placedFrame ⟨0x200000, 0x400000⟩ shadowEntry :=
  ⟨Or.inr (Or.inr ⟨0, 0x200000, 0x4008, h.1, h.2.1, h.2.2.1, h.2.2.2.1, Or.inr h.2.2.2.2, fun _ => by decide, by decide, by decide, by decide⟩),
    by decide, by
      have e : locDie 0x200000 = 0 := by decide
      show (s.chip.die (locDie 0x200000)).shadows.find? _ = none
      rw [e, none_]; rfl⟩
/-- The pool's one frame, replaced by an earlier publication, has not come back. -/
def shadowTaken : State := onC (toShadow 1) fun c => c.setDie 0 { c.die 0 with returning := [0x800000] }
theorem wit_TransferEvents_shadow :
    (∀ n ∈ [(0 : Dword), 1], Claims.NextWord (toShadow n) ⟨1, 0⟩ 31 0 shadowJob placedFrame 0 1 ∧
      Claims.NoShadowYet (toShadow n) shadowJob placedFrame ⟨0x200000, 0x400000⟩ shadowEntry) ∧
      ((toShadow 1).chip.die (locDie 0x200000)).freeShadows ≠ [] ∧ ((toShadow 0).chip.die (locDie 0x200000)).freeShadows = [] ∧
      ((toShadow 0).chip.die (locDie 0x200000)).returning = [] ∧
      (Claims.NextWord shadowTaken ⟨1, 0⟩ 31 0 shadowJob placedFrame 0 1 ∧
        Claims.NoShadowYet shadowTaken shadowJob placedFrame ⟨0x200000, 0x400000⟩ shadowEntry ∧
        (shadowTaken.chip.die (locDie 0x200000)).freeShadows = [] ∧ (shadowTaken.chip.die (locDie 0x200000)).returning ≠ []) := by
  refine ⟨?_, by decide, by decide, by decide, nextWord_of _ _ _ _ _ 0 _ _ 0 (by decide) (.cpy placedFrame 0 4 rfl) (by decide),
    noShadow_of _ _ (by decide) (by decide), by decide, by decide⟩
  intro n hn
  simp only [List.mem_cons, List.not_mem_nil, or_false] at hn
  rcases hn with rfl | rfl
  · exact ⟨nextWord_of _ _ _ _ _ 0 _ _ 0 (by decide) (.cpy placedFrame 0 4 rfl) (by decide), noShadow_of _ _ (by decide) (by decide)⟩
  · exact ⟨nextWord_of _ _ _ _ _ 0 _ _ 0 (by decide) (.cpy placedFrame 0 4 rfl) (by decide), noShadow_of _ _ (by decide) (by decide)⟩

/-- Pages 1 and 2 of die 0: both SHADOW with a shadow frame each, or the second without SHADOW. -/
def pubJob : Job := job 31 (.pub placedFrame 2) .running
def pubState (second : Dword) : State := onC (poke (entryState shadowEntry) 0x4010 (bytesOfDword second)) fun c =>
  { c.setDie 0 { c.die 0 with
      spans := [⟨1, false, shadowEntry⟩, ⟨2, false, second⟩], shadows := [⟨1, 0x800000⟩, ⟨2, 0xC00000⟩]
      returning := [0xA00000] } with
    jobs := [pubJob] }
def secondEntry : Dword := 0x400000600001
def plainEntry : Dword := 0x600001
def firstPage : Claims.PubPage := ⟨0, 0x200000, shadowEntry, 0x4008, 0x800000⟩
def secondPage : Claims.PubPage := ⟨0, 0x400000, secondEntry, 0x4010, 0xC00000⟩
theorem noWaiter_of (s : State) (h : s.chip.others = [] ∧ s.chip.t.pend = [] ∧ s.chip.t.run = .ready) : Claims.NoWaiter s :=
  ⟨fun e he => (by rw [h.1] at he; cases he), fun p hp => (by rw [h.2.1] at hp; cases hp), fun d a l k w m e => by rw [h.2.2] at e; cases e⟩
theorem pageFor_of (s : State) (j : Job) (a : Dword) (off : Nat) (e : Dword) (p : Nat)
    (h : homeHeap s.mgmt a = some (0, off) ∧ denOffset s.mgmt 0 off = none ∧ subPage (s.chip.regionsOf j.who) 0 off = false)
    (w : walk s.chip.mem 0 (s.chip.die 0).etroot off false = .leaf e p ∧ heldLeaf (s.chip.die 0).spans (off / 2 ^ 21) false = some e)
    (f : entryRo e = false ∧ entryTier e ≠ 2 ∧ entryZero e = false) : Claims.PageFor s j a 0 off e p := ⟨h, ⟨w.1, Or.inr w.2⟩, f⟩
theorem firstPageFor (second : Dword) (h : second = secondEntry ∨ second = plainEntry) :
    Claims.PageFor (pubState second) pubJob placedFrame 0 0x200000 shadowEntry 0x4008 := by
  rcases h with rfl | rfl <;> exact pageFor_of _ _ _ _ _ _ (by decide) (by decide) (by decide)
theorem first_of (s : State) (k : CId) (entry : BitVec 5) (j : Job) (h : ((s.chip.jobs.takeWhile fun x =>
    !(decide (x.cluster = k) && decide (x.entry = entry))).all (fun x => decide (x.task ≠ j.task) || x.state.over)) = true) :
    Claims.FirstOfTask s k entry j := h
theorem wit_TransferEvents_pub :
    (pubState secondEntry).chip.jobAt ⟨1, 0⟩ 31 = some pubJob ∧ pubJob.kind = .pub placedFrame [firstPage, secondPage].length ∧
      pubJob.state = .running ∧ pubJob.tied = none ∧ Claims.NoWaiter (pubState secondEntry) ∧
      Claims.FirstOfTask (pubState secondEntry) ⟨1, 0⟩ 31 pubJob ∧
      Claims.PubReady (pubState secondEntry) pubJob placedFrame [firstPage, secondPage] ∧
      0xA00000 ∈ ((pubState secondEntry).chip.die 0).returning := by
  refine ⟨by decide, rfl, rfl, rfl, noWaiter_of _ (by decide), first_of _ _ _ _ (by decide), ⟨fun i x hx => ?_, fun x hx => ?_, fun i x hx => ?_⟩, by decide⟩
  · match i, hx with
    | 0, hx => cases hx; exact ⟨by decide, firstPageFor _ (Or.inl rfl), by decide, by decide⟩
    | 1, hx => cases hx; exact ⟨by decide, pageFor_of _ _ _ 0x400000 _ _ (by decide) (by decide) (by decide), by decide, by decide⟩
    | n + 2, hx => cases hx
  · simp only [List.mem_cons, List.not_mem_nil, or_false] at hx
    rcases hx with rfl | rfl
    · exact ⟨⟨1, 0x800000⟩, by decide, rfl⟩
    · exact ⟨⟨2, 0xC00000⟩, by decide, rfl⟩
  · match i, hx with
    | 0, hx => cases hx; decide
    | 1, hx => cases hx; decide
    | n + 2, hx => cases hx
theorem wit_TransferEvents_pub_attr :
    (pubState plainEntry).chip.jobAt ⟨1, 0⟩ 31 = some pubJob ∧ Claims.FirstOfTask (pubState plainEntry) ⟨1, 0⟩ 31 pubJob ∧
      (∀ q, q < 1 → ∃ d off e p, Claims.PageFor (pubState plainEntry) pubJob (placedFrame + BitVec.ofNat 64 (q * 2 ^ 21)) d off e p ∧
        entryShadow e = true) ∧
      Claims.PageFor (pubState plainEntry) pubJob (placedFrame + BitVec.ofNat 64 (1 * 2 ^ 21)) 0 0x400000 plainEntry 0x4010 ∧
      entryShadow plainEntry = false := by
  refine ⟨by decide, first_of _ _ _ _ (by decide), fun q hq => ?_, pageFor_of _ _ _ _ _ _ (by decide) (by decide) (by decide), by decide⟩
  obtain rfl : q = 0 := by omega
  exact ⟨0, 0x200000, shadowEntry, 0x4008, firstPageFor _ (Or.inr rfl), by decide⟩

/-- A record of mb rows of two blocks, at the window's end: B is 8, T is 0, the tile is one block of 64 elements of 4 bytes. -/
def cutBytes (mb : Word) : List Byte :=
  bytesOfDword 8 ++ bytesOfDword 0 ++ bytesOfWord mb ++ bytesOfWord 2 ++ [0x10, 1, 1, 0] ++ bytesOfWord 64 ++ bytesOfDword 0xFEA0 ++
    bytesOfDword 0xFFB8 ++ List.replicate 16 0
def cutJob31 : Job := job 31 (.cut 0xFFC0 false true 4) .running
/-- The record, its frontier, and a first block of one element behind the offset of its row. -/
def cutState (mb w : Word) : State :=
  poke (poke (jobState cutJob31) (sliceKey ⟨1, 0, 0⟩ 0xFFB8) (bytesOfWord w ++ bytesOfWord w ++ cutBytes mb)) (sliceKey ⟨1, 0, 0⟩ 8)
    [1, 0, 0, 0, 0, 0, 0, 0, 1, 0, 0, 0, 0, 0, 0, 0, 0, 0, 0x80, 0x3F]
theorem cutReady_of (s : State) (mb : Word) (h : s.chip.jobAt ⟨1, 0⟩ 31 = some cutJob31 ∧ s.chip.hist = [] ∧
      Mem.bytes s.chip.mem (sliceKey cutJob31.tid.coreId 0xFFC0) 64 = cutBytes mb) (hm : mb = 1 ∨ mb = 0x100000)
    (hg : s.mgmt = base.mgmt) :
    Claims.CutReady s ⟨1, 0⟩ 31 cutJob31 (CutRecord.ofBytes (cutBytes mb)) 4 0xFFC0 := by
  have r : CutRecord.ofBytes (cutBytes mb) = CutRecord.ofBytes (Mem.bytes s.chip.mem (sliceKey cutJob31.tid.coreId (0xFFC0 : Dword).toNat) 64) :=
    congrArg _ h.2.2.symm
  rcases hm with rfl | rfl <;>
    exact ⟨⟨h.1, rfl, rfl, rfl, h.2.1⟩, ⟨by decide, by decide, r⟩, by decide, by rw [hg]; decide, by rw [hg]; decide⟩
theorem wit_TransferEvents_cut :
    Claims.CutReady (cutState 0x100000 0x100000) ⟨1, 0⟩ 31 cutJob31 (CutRecord.ofBytes (cutBytes 0x100000)) 4 0xFFC0 ∧
      cutJob31.kind = .cut 0xFFC0 false true 4 ∧
      (let r := CutRecord.ofBytes (cutBytes 0x100000)
       ∀ i, i < r.kb → (Mem.word (cutState 0x100000 0x100000).chip.mem (sliceKey cutJob31.tid.coreId (r.f.toNat + 4 * i))).toNat = r.mb) := by
  refine ⟨cutReady_of _ _ (by decide) (by decide) (by decide), rfl, by decide⟩
/-- The cut once it has read: a word of its tile, and its frontier's, are still to be written. -/
def plannedJob : Job := { cutJob31 with
  plan := some ([⟨0xFEA0, 7, false, true, 0xFEA0⟩, ⟨0xFFB8, 1, false, false, 0⟩, ⟨0xFFBC, 0, false, false, 0⟩], .done) }
theorem wit_TransferEvents_cut_written :
    (jobState plannedJob).chip.jobAt ⟨1, 0⟩ 31 = some plannedJob ∧ plannedJob.kind = .cut 0xFFC0 false true 4 ∧
      plannedJob.state = .running ∧ plannedJob.tied = none ∧
      (∃ l, plannedJob.plan = some (l, .done) ∧ l ≠ [] ∧ ∀ p ∈ l, p.poison = false ∧ p.a.toNat % 4 = 0 ∧ p.a.toNat + 4 ≤ 2 ^ 16 ∧
        windowAllows plannedJob.lwin p.a.toNat 4 false true = true) ∧
      (jobState plannedJob).chip.poison = [] ∧ (jobState plannedJob).chip.tcopies = [] ∧ JobState.done.over = true ∧
      (jobState cutJob31).chip.jobAt ⟨1, 0⟩ 31 = some cutJob31 ∧ cutJob31.plan = none :=
  ⟨by decide, rfl, rfl, rfl, ⟨_, rfl, by decide, by decide⟩, by decide, by decide, rfl, by decide, rfl⟩
/-- Where the blocks of the row are, and how many elements they have. -/
def blockAt (_ k : Nat) : Dword := if k = 0 then 8 else 32
def blockCount (_ k : Nat) : Nat := if k = 0 then 1 else 0
def cutWord (a : Dword) : Word := Mem.word (cutState 1 0).chip.mem (sliceKey ⟨1, 0, 0⟩ a.toNat)
theorem jobWindow_of (s : State) (j : Job) (a : Dword) (off : Nat) (h : classify s.mgmt a = some (.window off) ∧ windowAllows j.lwin off 4 true false = true) :
    Claims.JobSpot s j false a 4 ⟨sliceLoc j.tid.coreId off, sliceKey j.tid.coreId off⟩ 0 := Or.inl ⟨off, h.1, h.2, rfl, rfl⟩
theorem wit_TransferEvents_cut_blocks :
    let r := CutRecord.ofBytes (cutBytes 1)
    Claims.CutReady (cutState 1 0) ⟨1, 0⟩ 31 cutJob31 r 4 0xFFC0 ∧ (cutState 1 0).chip.poison = [] ∧
      (∀ i, i < r.kb → (Mem.word (cutState 1 0).chip.mem (sliceKey cutJob31.tid.coreId (r.f.toNat + 4 * i))).toNat ≤ r.mb) ∧
      Claims.Blocks cutWord r 4 blockAt blockCount ∧
      Claims.Grown r (fun i => (Mem.word (cutState 1 0).chip.mem (sliceKey cutJob31.tid.coreId (r.f.toNat + 4 * i))).toNat) blockCount 0 1 0 1 ∧
      r.d.toNat + (24 * r.klim * r.mlim + r.budget * 4) ≤ 2 ^ 16 ∧
      windowAllows cutJob31.lwin r.d.toNat (24 * r.klim * r.mlim + r.budget * 4) false true = true ∧
      ∀ b, ((∃ m, m < r.mb ∧ b = r.t + BitVec.ofNat 64 (4 * m)) ∨
          ∃ m q i, m < r.mb ∧ q < r.kb ∧ 4 * i < Claims.blockBytes (blockCount m q) 4 ∧ b = blockAt m q + BitVec.ofNat 64 (4 * i)) →
        ∃ sp x, Claims.JobSpot (cutState 1 0) cutJob31 false b 4 sp x ∧ cutWord b = Mem.word (cutState 1 0).chip.mem sp.key ∧
          (sp.key + 4 ≤ sliceKey cutJob31.tid.coreId r.d.toNat ∨
            sliceKey cutJob31.tid.coreId r.d.toNat + (24 * r.klim * r.mlim + r.budget * 4) ≤ sp.key) := by
  have mb : (CutRecord.ofBytes (cutBytes 1)).mb = 1 := by decide
  have kb : (CutRecord.ofBytes (cutBytes 1)).kb = 2 := by decide
  have two (k : Nat) (h : k < 2) : k = 0 ∨ k = 1 := by omega
  have place (b : Dword) (off : Nat) (h : classify (cutState 1 0).mgmt b = some (.window off) ∧
      windowAllows cutJob31.lwin off 4 true false = true ∧ b.toNat = off ∧
      sliceKey cutJob31.tid.coreId off + 4 ≤ sliceKey cutJob31.tid.coreId (CutRecord.ofBytes (cutBytes 1)).d.toNat) :
      ∃ sp x, Claims.JobSpot (cutState 1 0) cutJob31 false b 4 sp x ∧ cutWord b = Mem.word (cutState 1 0).chip.mem sp.key ∧
          (sp.key + 4 ≤ sliceKey cutJob31.tid.coreId (CutRecord.ofBytes (cutBytes 1)).d.toNat ∨ sliceKey cutJob31.tid.coreId
            (CutRecord.ofBytes (cutBytes 1)).d.toNat + (24 * (CutRecord.ofBytes (cutBytes 1)).klim * (CutRecord.ofBytes (cutBytes 1)).mlim +
              (CutRecord.ofBytes (cutBytes 1)).budget * 4) ≤ sp.key) :=
    ⟨_, _, jobWindow_of _ _ _ off ⟨h.1, h.2.1⟩, by rw [← h.2.2.1]; rfl, Or.inl h.2.2.2⟩
  refine ⟨cutReady_of _ _ (by decide) (by decide) (by decide), by decide, by decide, ⟨fun m hm => ?_, fun m k hm hk => ?_, fun m k hm hk => ?_⟩,
    ⟨by decide, by decide, by decide, by decide, by decide, by decide, by decide⟩, by decide, by decide, fun b hb => ?_⟩
  · rw [mb] at hm
    obtain rfl : m = 0 := by omega
    decide
  · rw [kb] at hk
    obtain rfl : k = 0 := by omega
    exact (by decide : blockAt 0 1 = blockAt 0 0 + BitVec.ofNat 64 (Claims.blockBytes (blockCount 0 0) 4))
  · rw [mb] at hm
    rw [kb] at hk
    obtain rfl : m = 0 := by omega
    rcases two k hk with rfl | rfl <;> decide
  · rcases hb with ⟨m, hm, rfl⟩ | ⟨m, q, i, hm, hq, hi, rfl⟩
    · rw [mb] at hm
      obtain rfl : m = 0 := by omega
      exact place _ 0 (by decide)
    · rw [mb] at hm
      rw [kb] at hq
      obtain rfl : m = 0 := by omega
      rcases two q hq with rfl | rfl
      · have : i < 6 := by
          have : Claims.blockBytes (blockCount 0 0) 4 = 24 := by rfl
          omega
        refine place _ (8 + 4 * i) ?_
        show classify (cutState 1 0).mgmt (8 + BitVec.ofNat 64 (4 * i)) = _ ∧ _ ∧ (8 + BitVec.ofNat 64 (4 * i)).toNat = _ ∧ _
        interval_cases i <;> decide
      · have : i < 4 := by
          have : Claims.blockBytes (blockCount 0 1) 4 = 16 := by rfl
          omega
        refine place _ (32 + 4 * i) ?_
        show classify (cutState 1 0).mgmt (32 + BitVec.ofNat 64 (4 * i)) = _ ∧ _ ∧ (32 + BitVec.ofNat 64 (4 * i)).toNat = _ ∧ _
        interval_cases i <;> decide


/-- A walk over the frame's page: its last word of the only token, its end, a bad header, or nothing read yet. -/
def walkKind : JobKind := .kvwalk placedFrame 0x8000 0x4000 4 0xFFFC
def headerOf (bad : Bool) : KvHeader := ⟨placedFrame, 0, 1, 64, bad⟩
def walkJob (hs : List KvHeader) (pages inPage landed : Nat) : Job :=
  { job 31 walkKind .running with headers := hs, pages := pages, inPage := inPage, landed := landed }
def walkState (j : Job) : State := onC (window (entryState frameEntry)) fun c => { c with jobs := [j] }
def wordJob : Job := walkJob [headerOf false] 0 15 0xFFF
theorem jobHeap_of (s : State) (j : Job) (a : Dword) (n off : Nat)
    (h : homeHeap s.mgmt a = some (0, off) ∧ denOffset s.mgmt 0 off = none ∧ subPage (s.chip.regionsOf j.who) 0 off = false ∧
      walk s.chip.mem 0 (s.chip.die 0).etroot off false = .leaf frameEntry 0x4008 ∧
      heldLeaf (s.chip.die 0).spans (off / 2 ^ 21) false = some frameEntry) :
    Claims.JobSpot s j false a n ⟨heapLoc 0 off, heapKey 0 (entryAddr frameEntry + off % 2 ^ 21)⟩ frameEntry :=
  Or.inr (Or.inr ⟨0, off, 0x4008, h.1, h.2.1, h.2.2.1, h.2.2.2.1, Or.inr h.2.2.2.2, (fun h => by cases h), by decide, by decide, rfl⟩)
theorem jobHeapWord_of (s : State) (j : Job) (a : Dword) (w : Word) (off : Nat)
    (h : homeHeap s.mgmt a = some (0, off) ∧ denOffset s.mgmt 0 off = none ∧ subPage (s.chip.regionsOf j.who) 0 off = false ∧
      walk s.chip.mem 0 (s.chip.die 0).etroot off false = .leaf frameEntry 0x4008 ∧
      heldLeaf (s.chip.die 0).spans (off / 2 ^ 21) false = some frameEntry)
    (hw : w = Mem.word s.chip.mem (heapKey 0 (entryAddr frameEntry + off % 2 ^ 21)) ∧ s.chip.hist = []) :
    Claims.JobWord s j a w :=
  ⟨_, _, jobHeap_of s j a 4 off h, hw.1, fun x hx => by rw [hw.2] at hx; cases hx⟩
theorem wit_StreamEvents_walk :
    (walkState wordJob).chip.jobAt ⟨1, 0⟩ 31 = some wordJob ∧ wordJob.kind = walkKind ∧ wordJob.state = .running ∧
      wordJob.headers[wordJob.pages]? = some (headerOf false) ∧ (headerOf false).bad = false ∧
      4 * wordJob.inPage < (headerOf false).ntok * (headerOf false).tbytes ∧ (walkState wordJob).chip.poison = [] ∧
      (∃ sp e, Claims.JobSpot (walkState wordJob) wordJob false 0xFFFC 4 sp e ∧ 0 = Mem.word (walkState wordJob).chip.mem sp.key) ∧
      (BitVec.ofNat 32 (4 * wordJob.landed + 4) - 0).toNat ≤ 0x4000 ∧
      Claims.JobWord (walkState wordJob) wordJob
        (((headerOf false).link &&& ~~~(0x1FFFFF : Dword)) + BitVec.ofNat 64 (64 + 4 * wordJob.inPage)) 0 ∧
      Claims.JobDest (walkState wordJob) wordJob (0x8000 + BitVec.ofNat 64 (4 * wordJob.landed % 0x4000)) 4
        (sliceKey wordJob.tid.coreId (0x8000 + 4 * wordJob.landed % 0x4000)) ∧ (∀ sp, Claims.NoCopy (walkState wordJob) sp) ∧
      -- the next page, the chain's end, a bad header
      (headerOf false).ntok * (headerOf false).tbytes ≤ 4 * (walkJob [headerOf false] 0 16 0x1000).inPage ∧
      (walkJob [headerOf false] 1 0 0x1000).headers[1]? = none ∧ (walkJob [headerOf false] 1 0 0x1000).nextLink placedFrame = 0 ∧
      (walkJob [headerOf true] 0 0 0).headers[0]? = some (headerOf true) ∧ (headerOf true).bad = true ∧
      (∀ j ∈ [walkJob [headerOf false] 0 16 0x1000, walkJob [headerOf false] 1 0 0x1000, walkJob [headerOf true] 0 0 0, walkJob [] 0 0 0],
        (walkState j).chip.jobAt ⟨1, 0⟩ 31 = some j ∧ j.kind = walkKind ∧ j.state = .running ∧ j.tied = none) ∧
      -- the limit's last page, with another behind it
      (let j := walkJob (List.replicate 4 { headerOf false with next := placedCode }) 4 0 0x1000
       (walkState j).chip.jobAt ⟨1, 0⟩ 31 = some j ∧ j.kind = walkKind ∧ j.state = .running ∧ j.tied = none ∧
        j.headers[j.pages]? = none ∧ j.nextLink placedFrame ≠ 0 ∧ j.pages = 4) ∧
      -- a header still to read
      (let j := walkJob [] 0 0 0
       j.headers.length ≤ j.pages + 4 ∧ j.headers.length < 4 ∧ (∀ h, j.headers.getLast? = some h → h.bad = false) ∧
       j.nextLink placedFrame ≠ 0 ∧ badLink (j.nextLink placedFrame) = false ∧ [(0 : Word), 0, 0, 0, 0].length = 5 ∧
       ∀ i, i < 5 → Claims.JobWord (walkState j) j ((j.nextLink placedFrame &&& ~~~(0x1FFFFF : Dword)) + BitVec.ofNat 64 (4 * i))
        ([0, 0, 0, 0, 0].getD i 0)) := by
  refine ⟨by decide, rfl, rfl, by rfl, rfl, by decide, by decide, ⟨_, 0, Or.inl ⟨0xFFFC, by decide, by decide, rfl, rfl⟩, by decide⟩, by decide,
    jobHeapWord_of _ _ _ _ (0x200000 + 124) (by decide) (by decide), jobDest_of _ _ _ _ (0x8000 + 4 * 0xFFF) (by decide), fun sp => by rfl,
    by decide, by rfl, by rfl, by rfl, rfl, ?_, ⟨by decide, rfl, rfl, rfl, by rfl, by decide, rfl⟩, by decide, by decide, (fun h hh => by cases hh), by decide, by decide, rfl, fun i hi => ?_⟩
  · intro j hj
    simp only [List.mem_cons, List.not_mem_nil, or_false] at hj
    rcases hj with rfl | rfl | rfl | rfl <;> exact ⟨by decide, rfl, rfl, rfl⟩
  · have : i = 0 ∨ i = 1 ∨ i = 2 ∨ i = 3 ∨ i = 4 := by omega
    rcases this with rfl | rfl | rfl | rfl | rfl
    · exact jobHeapWord_of _ _ _ _ 0x200000 (by decide) (by decide)
    · exact jobHeapWord_of _ _ _ _ (0x200000 + 4) (by decide) (by decide)
    · exact jobHeapWord_of _ _ _ _ (0x200000 + 8) (by decide) (by decide)
    · exact jobHeapWord_of _ _ _ _ (0x200000 + 12) (by decide) (by decide)
    · exact jobHeapWord_of _ _ _ _ (0x200000 + 16) (by decide) (by decide)

/-- The last request of sixteen rows of four cells, and a request of a convolution whose place is in its padding. -/
def denseShape : CldJob := shapeOf 0 false true 4 3 0xF000 ([4, 0, 0, 0, 16, 4] ++ List.replicate 26 0)
def convShape : CldJob := shapeOf 1 false false 4 3 0xF000
  ([0, 0, 0, 0, 1, 1, 0, 0, 1, 0, 1, 0, 1, 0, 1, 0, 3, 3, 1, 1, 1, 1, 1, 1, 0, 0, 0, 0] ++ bytesOfWord 0x3F800000)
def cldState (p : CldJob) (st : JobState) (cov : BitVec 64) : State :=
  poke (onC shapeState fun c => { c with jobs := [job 31 (.cld p) st], tiles := [{ tileOf 3 true true with cov := cov }] })
    (sliceKey ⟨1, 0, 0⟩ 0xFFC0) bf16Cell
def cldRun : State := cldState denseShape .running 0x7FFFFFFFFFFFFFFF
def convRun : State := cldState convShape .running 0
theorem wit_StreamEvents_start :
    (let s := cldState denseShape .queued 5
     let j := job 31 (.cld denseShape) .queued
     s.chip.jobAt ⟨1, 0⟩ 31 = some j ∧ j.kind = .cld denseShape ∧ j.state = .queued ∧
      s.chip.tile j.task denseShape.acc.toNat = some { tileOf 3 true true with cov := 5 } ∧
      (s.chip.jobs.takeWhile fun y => !(decide (y.cluster = j.cluster) && decide (y.entry = j.entry))) = []) := by
  refine ⟨by decide, rfl, rfl, by rfl, by decide⟩
theorem wit_StreamEvents_add :
    (let j := job 31 (.cld denseShape) .running
     let cl := cldRun.chip.cluster j.cluster
     cldRun.chip.jobAt ⟨1, 0⟩ 31 = some j ∧ j.state = .running ∧ j.tied = none ∧
      cldRun.chip.tile j.task denseShape.acc.toNat = some { tileOf 3 true true with cov := 0x7FFFFFFFFFFFFFFF } ∧
      63 < denseShape.count ∧ (0x7FFFFFFFFFFFFFFF : BitVec 64).getLsbD 63 = false ∧
      (∀ i, i < 63 → (0x7FFFFFFFFFFFFFFF : BitVec 64).getLsbD i = true) ∧ cldRun.chip.poison = [] ∧
      denseShape.address 63 = some 0xFFC0 ∧
      Claims.JobSpot cldRun j false 0xFFC0 64 ⟨sliceLoc j.tid.coreId 0xFFC0, sliceKey j.tid.coreId 0xFFC0⟩ 0 ∧
      isSliceKey (sliceKey j.tid.coreId 0xFFC0) = true ∧
      (∀ i, i < 16 → ∃ v, Claims.JobWord cldRun j (0xFFC0 + BitVec.ofNat 64 (4 * i)) v ∧ bytesOfWord v = (bf16Cell.drop (4 * i)).take 4) ∧
      bf16Cell.length = 64 ∧
      ∃ l, streamCell denseShape cl false (63 % denseShape.cells) bf16Cell [] = some l ∧ (∀ e ∈ l, e.zeroed = false) ∧
        meetsDamage cl l = false) := by
  refine ⟨by decide, rfl, rfl, by rfl, by decide, by decide, by decide, by decide, by decide, Or.inl ⟨0xFFC0, by decide, by decide, rfl, rfl⟩,
    by decide, fun i hi => ?_, by decide, ?_⟩
  · refine ⟨if i = 0 then 0x11 else 0, jobWord_of _ _ _ _ (0xFFC0 + 4 * i) ?_, ?_⟩
    · revert i; decide
    · revert i; decide
  · refine ⟨_, by rfl, ?_, ?_⟩ <;> decide
theorem wit_StreamEvents_pad :
    (let j := job 31 (.cld convShape) .running
     let cl := convRun.chip.cluster j.cluster
     convRun.chip.jobAt ⟨1, 0⟩ 31 = some j ∧ j.state = .running ∧ j.tied = none ∧
      convRun.chip.tile j.task convShape.acc.toNat = some { tileOf 3 true true with cov := 0 } ∧
      0 < convShape.count ∧ (0 : BitVec 64).getLsbD 0 = false ∧ convShape.ord = false ∧ convRun.chip.poison = [] ∧
      convShape.address 0 = none ∧ (∀ e ∈ padCell convShape cl false (0 % convShape.cells), e.zeroed = false) ∧
      meetsDamage cl (padCell convShape cl false (0 % convShape.cells)) = false) := by
  refine ⟨by decide, rfl, rfl, by rfl, by decide, by decide, rfl, by decide, by decide, by decide, by decide⟩
/-- The same request where the cells are in a heap page, which its entry marks for cells. -/
def cellEntry : Dword := 0x80000400001
def heapShape : CldJob := shapeOf 0 false true 4 3 placedFrame ([4, 0, 0, 0, 16, 4] ++ List.replicate 26 0)
def heapRun : State := onC (poke (entryState cellEntry) 0x400FC0 bf16Cell) fun c =>
  { c.setCluster ⟨1, 0⟩ { c.cluster ⟨1, 0⟩ with slots := List.replicate 8 ⟨true, 0x11, none, List.replicate 16 ⟨bf16Cell, 0, []⟩⟩ } with
    jobs := [job 31 (.cld heapShape) .running], tiles := [{ tileOf 3 true true with cov := 0x7FFFFFFFFFFFFFFF }] }
theorem cellSpot_of (off : Nat) (h : homeHeap heapRun.mgmt (placedFrame + BitVec.ofNat 64 (off - 0x200000)) = some (0, off) ∧
      walk heapRun.chip.mem 0 (heapRun.chip.die 0).etroot off false = .leaf cellEntry 0x4008 ∧
      heldLeaf (heapRun.chip.die 0).spans (off / 2 ^ 21) false = some cellEntry ∧ denOffset heapRun.mgmt 0 off = none ∧
      subPage (heapRun.chip.regionsOf (job 31 (.cld heapShape) .running).who) 0 off = false) (n : Nat) :
    Claims.JobSpot heapRun (job 31 (.cld heapShape) .running) false (placedFrame + BitVec.ofNat 64 (off - 0x200000)) n
      ⟨heapLoc 0 off, heapKey 0 (entryAddr cellEntry + off % 2 ^ 21)⟩ cellEntry :=
  Or.inr (Or.inr ⟨0, off, 0x4008, h.1, h.2.2.2.1, h.2.2.2.2, h.2.1, Or.inr h.2.2.1, (fun h => by cases h), by decide, by decide, rfl⟩)
theorem wit_StreamEvents_heap :
    (let j := job 31 (.cld heapShape) .running
     let cl := heapRun.chip.cluster j.cluster
     heapRun.chip.jobAt ⟨1, 0⟩ 31 = some j ∧ j.state = .running ∧ j.tied = none ∧
      heapRun.chip.tile j.task heapShape.acc.toNat = some { tileOf 3 true true with cov := 0x7FFFFFFFFFFFFFFF } ∧
      heapRun.chip.poison = [] ∧ heapShape.address 63 = some (placedFrame + 0xFC0) ∧
      (∃ sp, Claims.JobSpot heapRun j false (placedFrame + 0xFC0) 64 sp cellEntry) ∧ cellEntry.getLsbD 43 = true ∧
      heapRun.chip.hist = [] ∧
      (∀ i, i < 16 → ∃ v, Claims.JobWord heapRun j (placedFrame + BitVec.ofNat 64 (0x200FC0 + 4 * i - 0x200000)) v ∧
        bytesOfWord v = (bf16Cell.drop (4 * i)).take 4) ∧
      ∃ l, streamCell heapShape cl false (63 % heapShape.cells) bf16Cell [] = some l ∧ (∀ e ∈ l, e.zeroed = false) ∧
        meetsDamage cl l = false) := by
  refine ⟨by decide, rfl, rfl, by rfl, by decide, by decide, ⟨_, cellSpot_of 0x200FC0 (by decide) 64⟩, by decide, by decide, fun i hi => ?_, ?_⟩
  · refine ⟨if i = 0 then 0x11 else 0, ⟨_, _, cellSpot_of (0x200FC0 + 4 * i) ?_ 4, ?_, fun x hx => ?_⟩, ?_⟩
    · revert i; decide
    · revert i; decide
    · rw [(by decide : heapRun.chip.hist = [])] at hx; cases hx
    · revert i; decide
  · refine ⟨_, by rfl, ?_, ?_⟩ <;> decide
/-- A chain's page in the capacity tier. -/
def chainEntry : Dword := 0x4000000000001 ||| BitVec.ofNat 64 hbmEnd
theorem wit_StreamEvents_tier : entryTier chainEntry = 1 ∧
    Claims.JobSpot (onC (window (entryState chainEntry)) fun c => { c with jobs := [walkJob [] 0 0 0] }) (walkJob [] 0 0 0) false
      ((walkJob [] 0 0 0).nextLink placedFrame &&& ~~~(0x1FFFFF : Dword)) 4 ⟨heapLoc 0 0x200000, heapKey 0 (entryAddr chainEntry)⟩ chainEntry := by
  refine ⟨by decide, Or.inr (Or.inr ⟨0, 0x200000, 0x4008, by decide, by decide, by decide, by decide, Or.inr (by decide), (fun h => by cases h),
    by decide, by decide, by decide⟩)⟩
/-- A slot of the pattern 2:4, each unit one element: units 0, 3, 4 and 5 of its columns are kept. -/
def patternSlot : Slot := ⟨true, 0x11, some (2, 4, 1), List.replicate 16 ⟨bf16Cell, 0x39, []⟩⟩
def patternCl : Cluster := { Cluster.reset with slots := List.replicate 8 patternSlot }
def denseCl : Cluster := { Cluster.reset with slots := List.replicate 8 ⟨true, 0x11, none, List.replicate 16 ⟨bf16Cell, 0, []⟩⟩ }
theorem wit_StreamEvents_cells :
    (∃ f, Claims.denseFmt (bf16Cell.getD 0 0) = some f ∧ Claims.denseFmt (denseCl.slot 7).fmt = some f ∧
      Claims.denseFmt patternSlot.fmt = some f ∧ 29 < Claims.countOf f ∧ Claims.countOf f ≤ 63) ∧
      denseShape.form ≠ 3 ∧ (streamCell denseShape denseCl false 3 bf16Cell []).isSome = true ∧
      (streamCell denseShape denseCl true 3 bf16Cell []).isSome = false ∧
      (streamCell { denseShape with form := 2 } patternCl false 3 bf16Cell []).isSome = true ∧
      Claims.denseFmt (denseCl.slot (denseShape.slot.toNat + 3)).fmt = Claims.denseFmt 0x11 ∧
      ((denseCl.slot 7).column 15).damaged = [] ∧ (denseCl.slot 7).pattern = none ∧ patternSlot.pattern = some (2, 4, 1) ∧
      (patternSlot.column 15).damaged = [] ∧ (patternSlot.column 15).bitmap.getLsbD (5 / 1) = true ∧
      (patternSlot.column 15).bitmap.getLsbD (1 / 1) = false := by
  refine ⟨⟨_, by rfl, by rfl, by rfl, by decide, by decide⟩, by decide, by rfl, by rfl, by rfl, by rfl, by rfl, by rfl, by rfl, by rfl,
    by decide, by decide⟩

/-- A kernel that ends at once, armed, with an event of it. -/
def sqCode : List Half := [0x00C1, 0x0780]
def sqState : State := onC (onT topState fun t => { t with squirrel := ⟨some sqCode, 0x8000, some ⟨3, 0, 0⟩, List.replicate 8 7, false⟩ }) fun c =>
  { c with triggers := [(⟨1, 0, 0, 0⟩, 4), (⟨1, 0, 0, 0⟩, 5)] }
def sqRunning : State := onT sqState fun t => { t with squirrel := { t.squirrel with running := true } }
def askState (cell : Dword) : State := onC (entryState frameEntry) fun c => { c with asked := [(⟨1, 0, 0, 0⟩, cell)] }
/-- The state of a fill, its request taken. -/
def askedOf (cell : Dword) : State := onC (askState cell) fun c => { c with asked := c.asked.erase (⟨1, 0, 0, 0⟩, cell) }
theorem wit_SquirrelResults :
    (∀ n ∈ [(0 : Dword), 129], Claims.Alone (regs topState [(10, n)]) 4 ∧
      ((regs topState [(10, n)]).chip.t.getX 10 = 0 ∨ 128 < ((regs topState [(10, n)]).chip.t.getX 10).toNat)) ∧
      (∀ n ∈ [(1 : Dword), 128], Claims.Alone (regs topState [(10, n), (11, 0xFF00)]) 4 ∧
        (regs topState [(10, n), (11, 0xFF00)]).chip.t.getX 10 ≠ 0 ∧
        ((regs topState [(10, n), (11, 0xFF00)]).chip.t.getX 10).toNat ≤ 128 ∧
        ∃ code c, Chip.readHalves (regs topState [(10, n), (11, 0xFF00)]).mgmt
          (regs topState [(10, n), (11, 0xFF00)]).chip.issuer [] ((regs topState [(10, n), (11, 0xFF00)]).chip.t.getX 10).toNat
          ((regs topState [(10, n), (11, 0xFF00)]).chip.t.getX 11) [] (regs topState [(10, n), (11, 0xFF00)]).chip = (.ok code, c) ∧
          c.t = (regs topState [(10, n), (11, 0xFF00)]).chip.t ∧ c.tid = (regs topState [(10, n), (11, 0xFF00)]).chip.tid) ∧
      Claims.Alone topState 4 ∧ topState.chip.t.squirrel.running = false ∧ sqRunning.chip.t.squirrel.running = true ∧
      (sqState.chip.thread ⟨1, 0, 0, 0⟩).squirrel.kernel = some sqCode ∧
      (sqState.chip.thread ⟨1, 0, 0, 0⟩).squirrel.armed = some ⟨3, 0, 0⟩ ∧
      ((⟨1, 0, 0, 0⟩ : TId), (5 : Dword)) ∈ sqState.chip.triggers ∧ smallDecode sqCode = some (.sqend, 2) ∧ sqCode ≠ [] ∧
      (∀ a, ((⟨1, 0, 0, 0⟩ : TId), a) ∈ (askState a).chip.asked) ∧
      -- a cell that may not be kept, and one that may
      ((askedOf 0).chip.hoardSpot (askedOf 0).mgmt ⟨1, 0, 0, 0⟩ 0).1 = none ∧
      ((askedOf placedFrame).chip.hoardSpot (askedOf placedFrame).mgmt ⟨1, 0, 0, 0⟩ placedFrame).1 = some ⟨0x200000, 0x400000⟩ ∧
      (∀ h ∈ (askState placedFrame).chip.hoard, h.owner = ⟨1, 0, 0, 0⟩ → h.cell ≠ globalOf 0x200000) ∧
      (∀ w, Claims.Seen (askState placedFrame).chip ((askState placedFrame).chip.thread ⟨1, 0, 0, 0⟩).agentId w) := by
  refine ⟨?_, ?_, alone_of _ _ (by decide), by decide, by decide, by decide, by decide, by decide, by decide, by decide,
    fun a => List.mem_singleton_self _, by decide, by decide, by decide, fun w => seen_of _ _ _ (by rfl)⟩
  · intro n hn
    simp only [List.mem_cons, List.not_mem_nil, or_false] at hn
    rcases hn with rfl | rfl <;> exact ⟨alone_of _ _ (by decide), by decide⟩
  · intro n hn
    simp only [List.mem_cons, List.not_mem_nil, or_false] at hn
    rcases hn with rfl | rfl
    · exact ⟨alone_of _ _ (by decide), by decide, by decide, [0], _, Prod.ext (by decide) rfl, by decide, by decide⟩
    · exact ⟨alone_of _ _ (by decide), by decide, by decide, List.replicate 128 0, _, Prod.ext (by decide) rfl, by decide, by decide⟩
/-- A kernel that computes, loads, branches, asks for a line and ends, with its halfwords. -/
def halvesOf (i : Instr) : List Half := [(encode32 i).extractLsb' 0 16, (encode32 i).extractLsb' 16 16]
def runCode : List Half :=
  halvesOf (.addi 3 0 64) ++ halvesOf (.ldW 0 0 4 3) ++ halvesOf (.beq 0 0 2) ++ halvesOf (.sqpf 3) ++ halvesOf .sqend
def runState : State := onT sqState fun t => { t with squirrel := { t.squirrel with kernel := some runCode } }
def runY : List Dword := [0, 4, 7, 7, 7, 7, 7, 7]
theorem wit_SquirrelResults_run :
    let q := (runState.chip.thread ⟨1, 0, 0, 0⟩).squirrel
    q.kernel = some runCode ∧ q.armed = some ⟨3, 0, 0⟩ ∧ ((⟨1, 0, 0, 0⟩ : TId), (4 : Dword)) ∈ runState.chip.triggers ∧ q.y.length = 8 ∧
      runCode.length ≤ 128 ∧ runState.chip.hist = [] ∧ runState.chip.poison = [] ∧ (∀ h ∈ runState.chip.hoard, h.owner ≠ ⟨1, 0, 0, 0⟩) ∧
      Claims.KernelRun runState ⟨1, 0, 0, 0⟩ q.base runCode 0 ((q.y.set 0 0).set 1 4) 4 ((runY.set 3 64).set 4 0) [64] ∧ 4 ≤ 255 := by
  refine ⟨by decide, by decide, by decide, by decide, by decide, by decide, by decide, by decide, ?_, by decide⟩
  refine .compute 0 runY 3 _ _ (.addi 3 0 64) 2 3 64 (by decide) (by decide) (by decide) (by decide) (Or.inr (.addi 3 0 64)) ?_
  refine .load 4 _ 2 _ _ (.ldW 0 0 4 3) 2 0 4 64 4 (by decide) (by decide) (by decide) (by decide) (.ldW 0 0 4 3) (by decide) (by decide)
    ⟨0x30100000000, by decide, by decide, by decide, by decide, by decide⟩ ?_
  refine .branch 8 _ 1 _ _ (.beq 0 0 2) 2 0 0 _ 2 12 (by decide) (by decide) (by decide) (.beq 0 0 2) (by decide) ?_
  refine .sqpf 12 _ 0 _ _ 2 3 (by decide) (by decide) (by decide) (by decide) ?_
  exact .sqend 16 _ 2 (by decide) (by decide) (by decide)
/-- A line of the heap cell that x9 names. -/
def lineState : State := onC topState fun c =>
  { c with hoard := [⟨⟨1, 0, 0, 0⟩, globalOf 0x201000, List.replicate 16 (5, none)⟩] }
theorem wit_SquirrelResults_line :
    Claims.Load lineState.chip.t (.ldW 0 0 4 9) 0 4 (placedFrame + 0x1000) 4 ∧ Claims.Alone lineState 4 ∧ (placedFrame + 0x1000).toNat % 4 = 0 ∧
      Claims.At lineState .read false (placedFrame + 0x1000) 4 heapSpot ∧ lineState.chip.anyPoison heapSpot.key 4 = false ∧
      Claims.SeenBytes lineState heapSpot.loc 4 ∧
      lineState.chip.hoard.find? (fun x => decide (x.owner = lineState.chip.tid) && decide (x.cell = globalOf (heapSpot.loc / 64 * 64))) =
        some ⟨⟨1, 0, 0, 0⟩, globalOf 0x201000, List.replicate 16 (5, none)⟩ ∧
      (List.replicate 16 ((5 : Word), (none : Option Version)))[heapSpot.loc % 64 / 4]? = some (5, none) ∧
      (let r := lineState.chip.agent lineState.chip.t.agentId
       max (r.view.get heapSpot.loc) (r.reads.get heapSpot.loc) ≤ ((none : Option Version).map Version.id).getD 0) := by
  exact ⟨.ldW 0 0 4 9, alone_of _ _ (by decide), by decide, at_of frameEntry (by decide), by decide, fun w _ _ _ => seen_of _ _ _ (by rfl),
    by decide, by rfl, by decide⟩

/-! ### Launches, the scheduler and the Den's events -/

/-- A launch of 15 tasks of 16 threads with all a cluster gives, or one task's share of it. -/
def launchOf (tiles res slice : Nat) : Launch :=
  ⟨1, 0, 3, placedFrame + 64, placedCode, [1, 3, 5, 1], [1, 3, 65535, 1], 16, tiles, res, 2, slice, 7, none, 9, 0, [0, 0, 0, 0], none, [0, 13],
    [], false⟩
/-- Frames in the die's pool, and launches. -/
def poolState (ls : List Launch) : State := onC (entryState frameEntry) fun c =>
  { c.setDie 0 { c.die 0 with fpbase := placedFrame, fpcount := 2, fptaken := [0] } with launches := ls }
/-- The last thread of the last cluster of die 0. -/
def lastThread : TId := ⟨49, 49, 7, 15⟩
def launchState : State := poolState [launchOf 4 8 61440]
theorem poolHome_of (s : State) (die : BitVec 3) (m : List Host.Cell)
    (h : s.chip.framesFree die = [1] ∧ homeHeap s.mgmt ((s.chip.die die).fpbase + 0x800) = some (0, 0x200800) ∧
      homeHeap s.mgmt ((s.chip.die die).fpbase + 0xC00) = some (0, 0x200C00) ∧
      heldLeaf (s.chip.die 0).spans 1 false = some frameEntry)
    (hw : ∀ off, off = 0x200800 ∨ off = 0x200C00 → ∃ p, walk m 0 (s.chip.die 0).etroot off false = .leaf frameEntry p) :
    Claims.PoolHome s die m := by
  intro f hf o d off e ho ha he
  rw [h.1] at hf
  obtain rfl := List.mem_singleton.1 hf
  have place : d = 0 ∧ (off = 0x200800 ∨ off = 0x200C00) := by
    rcases ho with rfl | rfl
    · have := h.2.1.symm.trans ha
      simp only [Option.some.injEq, Prod.mk.injEq] at this
      exact ⟨this.1.symm, Or.inl this.2.symm⟩
    · have := h.2.2.1.symm.trans ha
      simp only [Option.some.injEq, Prod.mk.injEq] at this
      exact ⟨this.1.symm, Or.inr this.2.symm⟩
  obtain ⟨rfl, hoff⟩ := place
  have same : e = frameEntry := by
    rcases he with ⟨p, hp⟩ | hp
    · obtain ⟨q, hq⟩ := hw off hoff
      rw [hq] at hp
      cases hp
      rfl
    · have : off / 2 ^ 21 = 1 := by omega
      rw [this, h.2.2.2] at hp
      cases hp
      rfl
  subst same
  decide
theorem poolWalk (off : Nat) (h : off = 0x200800 ∨ off = 0x200C00) :
    ∃ p, walk launchState.chip.mem 0 (launchState.chip.die 0).etroot off false = .leaf frameEntry p := by
  rcases h with rfl | rfl <;> exact ⟨0x4008, by decide⟩
theorem wit_LaunchResults_place :
    launchState.chip.launchOf 1 = some (launchOf 4 8 61440) ∧ (launchOf 4 8 61440).rejected = none ∧ 14 ∉ (launchOf 4 8 61440).started ∧
      14 < (launchOf 4 8 61440).tasks ∧ (launchOf 4 8 61440).steal = 2 ∧ launchState.chip.firstSource lastThread.coreId = none ∧
      Claims.Fits launchState lastThread ((launchOf 4 8 61440).item launchState.chip.nextTask 14) ∧
      Claims.Fits launchState lastThread ((launchOf 0 0 0).item launchState.chip.nextTask 14) ∧
      (launchOf 4 8 61440).size.length = 4 ∧ (launchOf 4 8 61440).grid.length = 4 ∧
      (∀ n ∈ (launchOf 4 8 61440).size ++ (launchOf 4 8 61440).grid, 1 ≤ n) := by
  refine ⟨by rfl, rfl, by decide, by decide, rfl, by decide, ?_, ?_, rfl, rfl, by decide⟩
  · exact ⟨by decide, by decide, by decide, by decide, by decide, fun x hx => absurd hx (by
      have : launchState.chip.tiles = [] := by decide
      rw [this]; exact List.not_mem_nil), poolHome_of _ _ _ (by decide) poolWalk⟩
  · exact ⟨by decide, by decide, by decide, by decide, by decide, fun x hx => absurd hx (by
      have : launchState.chip.tiles = [] := by decide
      rw [this]; exact List.not_mem_nil), poolHome_of _ _ _ (by decide) poolWalk⟩

/-- A heap byte of the frame's page that a requester with no thread reaches. -/
theorem outsideHeap_of (s : State) (a : Dword) (w : Bool) (off : Nat)
    (h : homeHeap s.mgmt a = some (0, off) ∧ denOffset s.mgmt 0 off = none ∧ subPage (s.chip.core outsideTid.coreId).rgn 0 off = false ∧
      walk s.chip.mem 0 (s.chip.die 0).etroot off false = .leaf frameEntry 0x4008 ∧
      heldLeaf (s.chip.die 0).spans (off / 2 ^ 21) false = some frameEntry) :
    Claims.OutsideAt s outsideTid a w ⟨heapLoc 0 off, heapKey 0 (entryAddr frameEntry + off % 2 ^ 21)⟩ :=
  ⟨0, off, frameEntry, 0x4008, h.1, h.2.1, h.2.2.1, h.2.2.2.1, Or.inr h.2.2.2.2, fun _ => by decide, by decide, by decide, rfl⟩
/-- Queue 3 of die 0: the entry at the page's end names a descriptor, aligned or not. -/
def queueState (desc : Dword) : State :=
  poke (onC (entryState frameEntry) fun c => c.setDie 0 { c.die 0 with
    queues := (c.die 0).queues.set 3 ⟨placedFrame + 0x1FFFF0, 2, 0, 0xFFFFFFFF, 0, 0, 0, 0⟩ }) 0x5FFFF8 (bytesOfDword desc)
def descSpots (i : Nat) : Spot :=
  ⟨heapLoc 0 (0x200000 + 64 + 32 * i), heapKey 0 (entryAddr frameEntry + (0x200000 + 64 + 32 * i) % 2 ^ 21)⟩
theorem wit_LaunchResults_read :
    ∀ desc ∈ [placedFrame + 64, placedFrame + 65],
      let s := queueState desc
      let q := (s.chip.die 0).queue 3
      (3 : BitVec 2).toNat < (s.chip.die 0).queues.length ∧ q.lqcons ≠ q.lqprod ∧ q.lqsize ≠ 0 ∧ s.chip.poison = [] ∧
      Claims.OutsideAt s outsideTid (q.lqbase + BitVec.ofNat 64 (q.lqcons.toNat % q.lqsize.toNat * 8)) false edgeSpot ∧
      Claims.SeenBy s (.launchUnit 0) edgeSpot 8 ∧ Mem.dword s.chip.mem edgeSpot.key = desc ∧
      (desc.toNat % 32 = 0 → ∀ i, i < 3 → Claims.OutsideAt s outsideTid (desc + BitVec.ofNat 64 (32 * i)) false (descSpots i) ∧
        Claims.SeenBy s (.launchUnit 0) (descSpots i) 32) := by
  intro desc hd
  simp only [List.mem_cons, List.not_mem_nil, or_false] at hd
  rcases hd with rfl | rfl
  · refine ⟨by decide, by decide, by decide, by decide, outsideHeap_of _ _ _ 0x3FFFF8 (by decide), seenBy_of _ _ _ _ (by decide), by decide,
      fun _ i hi => ⟨?_, seenBy_of _ _ _ _ (by decide)⟩⟩
    have : i = 0 ∨ i = 1 ∨ i = 2 := by omega
    rcases this with rfl | rfl | rfl
    · exact outsideHeap_of _ _ _ (0x200000 + 64 + 32 * 0) (by decide)
    · exact outsideHeap_of _ _ _ (0x200000 + 64 + 32 * 1) (by decide)
    · exact outsideHeap_of _ _ _ (0x200000 + 64 + 32 * 2) (by decide)
  · refine ⟨by decide, by decide, by decide, by decide, outsideHeap_of _ _ _ 0x3FFFF8 (by decide), seenBy_of _ _ _ _ (by decide), by decide,
      fun h => absurd h (by decide)⟩
/-- A descriptor within every limit but one. -/
def descOf (threads tiles res slice : Nat) (key : Nat) : Descriptor :=
  ⟨placedCode, [1, 1, 1, 1], [1, 1, 1, 1], threads, tiles, res, 2, slice, 255, 7, 0xFFFF, 0xFFFF, key, 0, 0, [0, 0, 0, 0]⟩
theorem argsFit_of (threads tiles res slice hx hy : Nat) (h : 1 ≤ threads ∧ slice % 64 = 0)
    (hh : (hx = 0xFFFF ∧ hy = 0xFFFF) ∨ (hx < 200 ∧ hy < 100)) :
    Claims.ArgsFit { descOf threads tiles res slice 0 with hintX := hx, hintY := hy } :=
  ⟨by show placedCode.toNat % 2 = 0; decide,
    ⟨(by decide : ∀ n ∈ [1, 1, 1, 1], 1 ≤ n), (by decide : ∀ n ∈ [1, 1, 1, 1], 1 ≤ n)⟩, h.1, Nat.le_refl 2, h.2, Nat.le_refl 7,
    Or.inl rfl, hh, fun r hr => by
      have hr : r ∈ [(0 : Dword), 0, 0, 0] := hr
      obtain rfl : r = 0 := by simpa using hr
      simp, rfl⟩
theorem wit_LaunchResults_rejection :
    (descOf 0 0 0 0 0).threads = 0 ∧
      ¬ Claims.ArgsFit (descOf 0 0 0 0 0) ∧ ¬ Claims.ArgsFit { descOf 1 0 0 0 0 with hintX := 200, hintY := 0 } ∧
      (∀ d ∈ [descOf 17 0 0 0 0, descOf 1 5 0 0 0, descOf 1 0 9 0 0, descOf 11 3 0 0 0, descOf 16 0 0 3904 0],
        Claims.ArgsFit d ∧ ¬ Claims.ResourcesFit d) ∧
      (∀ d ∈ [descOf 16 2 8 3840 0, { descOf 1 0 0 0 0 with hintX := 199, hintY := 99 }], Claims.ArgsFit d ∧ Claims.ResourcesFit d) ∧
      (descOf 16 2 8 3840 65535).rejection = none ∧ (descOf 16 2 8 3840 65535).key ≠ 0 ∧ (List.replicate 96 (0xFF : Byte)).length = 96 := by
  refine ⟨rfl, fun h => absurd h.threads (by decide), fun h => absurd h.hint (by decide), fun d hd => ?_, fun d hd => ?_, by decide,
    by decide, by decide⟩ <;> simp only [List.mem_cons, List.not_mem_nil, or_false] at hd
  · rcases hd with rfl | rfl | rfl | rfl | rfl
    · exact ⟨argsFit_of 17 0 0 0 _ _ (by decide) (by decide), fun h => absurd h.1 (by decide)⟩
    · exact ⟨argsFit_of 1 5 0 0 _ _ (by decide) (by decide), fun h => absurd h.2.1 (by decide)⟩
    · exact ⟨argsFit_of 1 0 9 0 _ _ (by decide) (by decide), fun h => absurd h.2.2.1 (by decide)⟩
    · exact ⟨argsFit_of 11 3 0 0 _ _ (by decide) (by decide), fun h => absurd h.2.2.2.1 (by decide)⟩
    · exact ⟨argsFit_of 16 0 0 3904 _ _ (by decide) (by decide), fun h => absurd h.2.2.2.2 (by decide)⟩
  · rcases hd with rfl | rfl
    · exact ⟨argsFit_of 16 2 8 3840 _ _ (by decide) (by decide), by rw [Claims.ResourcesFit]; decide⟩
    · exact ⟨argsFit_of 1 0 0 0 _ _ (by decide) (by decide), by rw [Claims.ResourcesFit]; decide⟩
/-- A launch that is over, and one that was rejected, with room in the ring at the page's end. -/
def tokenState (l : Launch) : State :=
  onC (poolState [l]) fun c => c.setDie 0 { c.die 0 with
    queues := (c.die 0).queues.set 3 ⟨0, 0, 0, 0, placedFrame + 0x1FFFE0, 2, 0xFFFFFFFF, 0x8000003F⟩ }
def overLaunch (token : Dword) (r : Option Byte) : Launch := { launchOf 0 0 0 with token := token, rejected := r, finished := true }
theorem entriesKept_of (s : State) (as : List Dword) (keys : List Nat)
    (h : ∀ a ∈ as, ∃ off, homeHeap s.mgmt a = some (0, off) ∧ off / 2 ^ 38 = 0 ∧ off / 2 ^ 26 = 0 ∧ off / 2 ^ 21 = 1)
    (hk : ∀ k ∈ keys, 0x400000 ≤ k) (hr : (s.chip.die 0).etroot = 0x2001) (h1 : Mem.dword s.chip.mem 0x2000 = 0x8001)
    (h2 : Mem.dword s.chip.mem 0x8000 = 0x4001) (h3 : Mem.dword s.chip.mem 0x4008 = frameEntry) : Claims.EntriesKept s as keys := by
  intro m hm a ha d off ho
  have hb : ∀ k, k + 8 ≤ 0x400000 → Mem.dword m k = Mem.dword s.chip.mem k := by
    intro k hk'
    have hg : ∀ j, j < 8 → Mem.get m (k + j) = Mem.get s.chip.mem (k + j) := fun j hj =>
      hm _ fun q hq => by have := hk q hq; omega
    have h0 := hg 0 (by decide)
    rw [Nat.add_zero] at h0
    simp only [Mem.dword, Mem.word, Mem.half, Nat.add_assoc, h0, hg 1, hg 2, hg 3, hg 4, hg 5, hg 6, hg 7, Nat.reduceAdd, Nat.reduceLT]
  obtain ⟨o, hs, q1, q2, q3⟩ := h a ha
  rw [hs] at ho; cases ho
  rw [hr, placed_walk _ _ q3 (by rw [hb _ (by decide), h1]) (by rw [hb _ (by decide), h2]) (by rw [hb _ (by decide), h3]),
    placed_walk _ _ q3 h1 h2 h3]
/-- What a launch's token needs, in the ring at the page's end. -/
theorem wit_LaunchResults_token :
    ∀ e ∈ [(overLaunch 0 none, none), (overLaunch 9 (some Cause.launchArg), none),
        (overLaunch placedFrame none, some (⟨0x200000, 0x400000⟩ : Spot))],
      let l := e.1
      let s := tokenState l
      let q := (s.chip.die l.die).queue l.queue
      s.chip.launches.find? (fun x => decide (x.id = l.id)) = some l ∧ l.finished = true ∧
      (Claims.firstOver s l).map Launch.id = some l.id ∧ q.cqsize ≠ 0 ∧ l.queue.toNat < (s.chip.die l.die).queues.length ∧
      s.chip.poison = [] ∧
      (let a := q.cqbase + BitVec.ofNat 64 (q.cqhead.toNat % q.cqsize.toNat * 16)
       let sa : Spot := ⟨0x3FFFF0, 0x5FFFF0⟩
       Claims.OutsideAt s outsideTid a true sa ∧ Claims.OutsideAt s outsideTid (a + 8) true edgeSpot ∧ Claims.NoCopy s sa ∧
       Claims.NoCopy s edgeSpot ∧ edgeSpot.key = sa.key + 8 ∧ Claims.SeenBy s (.launchUnit l.die) edgeSpot 8 ∧
       (Mem.dword s.chip.mem edgeSpot.key).toNat < 2 ^ 62 ∧ Claims.EntriesKept s [a, a + 8] [sa.key] ∧
       Claims.TokenAt s l [a, a + 8] sa.key e.2) := by
  intro e he
  have ring (l : Launch) (keys : List Nat) (hk : ∀ k ∈ keys, 0x400000 ≤ k) :
      Claims.EntriesKept (tokenState l) [placedFrame + 0x1FFFF0, placedFrame + 0x1FFFF8] keys := by
    refine entriesKept_of _ _ _ (fun a ha => ?_) hk (by rfl) (show Mem.dword launchState.chip.mem 0x2000 = 0x8001 by decide)
      (show Mem.dword launchState.chip.mem 0x8000 = 0x4001 by decide) (show Mem.dword launchState.chip.mem 0x4008 = frameEntry by decide)
    simp only [List.mem_cons, List.not_mem_nil, or_false] at ha
    rcases ha with rfl | rfl
    · exact ⟨0x3FFFF0, by rfl, by decide, by decide, by decide⟩
    · exact ⟨0x3FFFF8, by rfl, by decide, by decide, by decide⟩
  simp only [List.mem_cons, List.not_mem_nil, or_false] at he
  rcases he with rfl | rfl | rfl
  · exact ⟨by rfl, rfl, by rfl, by decide, by decide, by decide, outsideHeap_of _ _ _ 0x3FFFF0 (by decide),
      outsideHeap_of _ _ _ 0x3FFFF8 (by decide), by rfl, by rfl, rfl, seenBy_of _ _ _ _ (by decide), by decide,
      ring _ _ (by decide), Or.inl ⟨rfl, Or.inl rfl⟩⟩
  · exact ⟨by rfl, rfl, by rfl, by decide, by decide, by decide, outsideHeap_of _ _ _ 0x3FFFF0 (by decide),
      outsideHeap_of _ _ _ 0x3FFFF8 (by decide), by rfl, by rfl, rfl, seenBy_of _ _ _ _ (by decide), by decide,
      ring _ _ (by decide), Or.inl ⟨rfl, Or.inr ⟨by decide, by decide⟩⟩⟩
  · exact ⟨by rfl, rfl, by rfl, by decide, by decide, by decide, outsideHeap_of _ _ _ 0x3FFFF0 (by decide),
      outsideHeap_of _ _ _ 0x3FFFF8 (by decide), by rfl, by rfl, rfl, seenBy_of _ _ _ _ (by decide), by decide,
      ring _ _ (by decide), Or.inr ⟨_, rfl, by decide, by decide, outsideHeap_of _ _ _ 0x200000 (by decide), by rfl,
        ring _ _ (by decide), by decide⟩⟩

theorem frameAt_held (s : State) (a : Dword) (off : Nat)
    (h : homeHeap s.mgmt a = some (0, off) ∧ homeHeap s.mgmt (a + 1024) = some (0, off + 1024) ∧ off % 2 ^ 10 = 0 ∧
      off % 2 ^ 21 + 2048 ≤ 2 ^ 21 ∧ walk s.chip.mem 0 (s.chip.die 0).etroot off false = .leaf frameEntry 0x4008 ∧
      heldLeaf (s.chip.die 0).spans (off / 2 ^ 21) false = some frameEntry ∧ s.chip.tcopies = []) :
    Claims.FrameAt s a (heapKey 0 (entryAddr frameEntry + off % 2 ^ 21)) :=
  ⟨0, off, frameEntry, 0x4008, h.1, h.2.1, by have := h.2.2.1; omega, h.2.2.2.1, h.2.2.2.2.1, Or.inr h.2.2.2.2.2.1, by decide, by decide,
    rfl, by rw [h.2.2.2.2.2.2]; rfl⟩
def schedItem (n : Nat) : Item := { itemOf 0 1 with id := n, rgn := [0, 0, 0, 0] }
def lastCl (f : Cluster → Cluster) : State := onC launchState fun c => c.setCluster ⟨49, 49⟩ (f (c.cluster ⟨49, 49⟩))
def dequeOn (k : CoreId) (l : List Item) : State := onC launchState fun c => c.setCore k { c.core k with deque := l }
theorem fits_of (s : State) (t : TId) (i : Item)
    (h : s.chip.isFree t = true ∧ s.chip.framesFree t.die ≠ [] ∧ s.chip.canTake t.coreId i none = true ∧ i.args.length ≤ 6 ∧ i.slice ≤ 61440)
    (ht : s.chip.tiles = [])
    (hp : s.chip.framesFree t.die = [1] ∧ homeHeap s.mgmt ((s.chip.die t.die).fpbase + 0x800) = some (0, 0x200800) ∧
      homeHeap s.mgmt ((s.chip.die t.die).fpbase + 0xC00) = some (0, 0x200C00) ∧ heldLeaf (s.chip.die 0).spans 1 false = some frameEntry ∧
      s.chip.mem = launchState.chip.mem ∧ (s.chip.die 0).etroot = (launchState.chip.die 0).etroot) : Claims.Fits s t i :=
  ⟨h.1, h.2.1, h.2.2.1, h.2.2.2.1, h.2.2.2.2, fun x hx => by (rw [ht] at hx; cases hx), 
    poolHome_of _ _ _ ⟨hp.1, hp.2.1, hp.2.2.1, hp.2.2.2.1⟩ (by rw [hp.2.2.2.2.1, hp.2.2.2.2.2]; exact poolWalk)⟩
/-- A hinted item on its walk, at the edge of its radius. -/
def edgeWalk : Walk := ⟨schedItem 9, ⟨49, 49⟩, ⟨45, 47⟩, 6⟩
def walking (w : Walk) : State := onC launchState fun c => { c with walks := [w] }
def savedTask : Saved :=
  ⟨⟨5, 1, none, 0, 0, 0, 0, [0, 0, 0, 0]⟩, placedFrame + 0x1FF800, List.replicate 2048 0, ⟨49, 49⟩, 7, false, .ready, [], none, []⟩
def savedState : State := onC launchState fun c => { c with saved := [savedTask] }
theorem wit_SchedulerResults_take :
    (let s := lastCl fun k => { k with modeZero := [schedItem 9, schedItem 10] }
     s.chip.firstSource lastThread.coreId = some .modeZero ∧ (s.chip.cluster lastThread.cluster).modeZero = schedItem 9 :: [schedItem 10] ∧
      Claims.Fits s lastThread (schedItem 9)) ∧
    (let s := lastCl fun k => { k with hints := [schedItem 9] }
     s.chip.firstSource lastThread.coreId = some .hint ∧ (s.chip.cluster lastThread.cluster).hints = schedItem 9 :: [] ∧
      Claims.Fits s lastThread (schedItem 9)) ∧
    (let s := dequeOn lastThread.coreId [schedItem 10, schedItem 9]
     s.chip.firstSource lastThread.coreId = some .deque ∧ (s.chip.core lastThread.coreId).deque = [schedItem 10] ++ [schedItem 9] ∧
      Claims.Fits s lastThread (schedItem 9)) ∧
    (let s := dequeOn ⟨1, 0, 0⟩ [schedItem 9]
     s.chip.firstSource lastThread.coreId = none ∧ (⟨1, 0, 0⟩ : CoreId) ≠ lastThread.coreId ∧ (s.chip.core ⟨1, 0, 0⟩).deque = schedItem 9 :: [] ∧
      s.chip.inDomain (schedItem 9).launch (⟨1, 0, 0⟩ : CoreId).cluster lastThread.cluster = true ∧ Claims.Fits s lastThread (schedItem 9)) ∧
    (let s := walking edgeWalk
     s.chip.walks.find? (fun x => decide (x.item.id = edgeWalk.item.id)) = some edgeWalk ∧ edgeWalk.here = lastThread.cluster ∧
      edgeWalk.here.cx + edgeWalk.here.cy ≤ edgeWalk.target.cx + edgeWalk.target.cy + edgeWalk.radius ∧
      edgeWalk.target.cx + edgeWalk.target.cy ≤ edgeWalk.here.cx + edgeWalk.here.cy + edgeWalk.radius ∧
      edgeWalk.here.cx + edgeWalk.target.cy ≤ edgeWalk.target.cx + edgeWalk.here.cy + edgeWalk.radius ∧
      edgeWalk.target.cx + edgeWalk.here.cy ≤ edgeWalk.here.cx + edgeWalk.target.cy + edgeWalk.radius ∧
      s.chip.firstSource lastThread.coreId = none ∧ Claims.Fits s lastThread edgeWalk.item) ∧
    savedState.chip.firstSource lastThread.coreId = some (.saved savedTask.task.id) ∧
      savedState.chip.saved.find? (fun x => decide (x.task.id = savedTask.task.id)) = some savedTask ∧
      savedState.chip.isFree lastThread = true ∧ Claims.FrameAt savedState savedTask.frame 0x5FF800 ∧
      (frameDword savedTask.image 0).getLsbD 7 = false ∧ (frameDword savedTask.image 0).extractLsb' 11 5 = 0 ∧
      frameDword savedTask.image 8 &&& ~~~1 ≠ endLink ∧
      -- a saved task whose frame has UNREST 1
      (let k := { savedTask with image := 0x80 :: List.replicate 2047 0 }
       (frameDword k.image 0).getLsbD 7 = true ∧ k.task.id = 5) := by
  refine ⟨⟨by decide, by rfl, fits_of _ _ _ (by decide) (by decide) (by decide)⟩, ⟨by decide, by rfl, fits_of _ _ _ (by decide) (by decide) (by decide)⟩,
    ⟨by decide, by decide, fits_of _ _ _ (by decide) (by decide) (by decide)⟩,
    ⟨by decide, by decide, by decide, by decide, fits_of _ _ _ (by decide) (by decide) (by decide)⟩,
    ⟨by rfl, by decide, by decide, by decide, by decide, by decide, by decide, fits_of _ _ _ (by decide) (by decide) (by decide)⟩,
    by decide, by rfl, by decide, frameAt_held _ _ 0x3FF800 (by decide), by decide, by decide, by decide, by decide⟩
theorem takeable_of (s : State) (k : CoreId) (i : Item) (h : Claims.tilesHeld s k.cluster + i.tiles ≤ 32 ∧
      (i.slice = 61440 ∧ (s.chip.core k).grants = [] ∧ ∀ b, b < 15 → (s.chip.core k).keys.getD b 0 = 0 ∧
        (s.chip.core k).owners.getD b none = none) ∧ (s.chip.cluster k.cluster).holder = none ∧
      ((s.chip.threadsOf k).all fun e => e.2.task.all fun t => decide (t.rgn = i.rgn)) = true ∧
      ((s.chip.threadsOf k).filter fun e => decide (e.2.task.map Task.launch = some i.launch)).length <
        ((s.chip.launchOf i.launch).map Launch.threads).getD 16 ∧ (reservedCluster k.cluster = true ↔ i.launch = 0)) :
    Claims.Takeable s k i := by
  obtain ⟨hs, hg, hb⟩ := h.2.1
  refine ⟨h.1, Or.inr ⟨0, by decide, by rw [hs], (by rw [hg]; intro _ he; cases he), fun b _ hlt => Or.inl (hb b (by omega))⟩, ⟨fun e he t ht => ?_, h.2.2.2.2.1⟩, Or.inr (Or.inl h.2.2.1), h.2.2.2.2.2⟩
  have := List.all_eq_true.1 h.2.2.2.1 e he
  rw [Option.mem_def.1 ht] at this
  simpa using this
/-- A saved task with UNREST 1, another that can be taken behind it, and one that its yield left behind the other two. -/
def unrestTask : Saved := { savedTask with task := { savedTask.task with id := 6 }, image := 0x80 :: List.replicate 2047 0 }
def yieldedTask : Saved := { savedTask with task := { savedTask.task with id := 7 }, resume := .yielded [6] }
def savedMany : State := onC launchState fun c => { c with saved := [unrestTask, yieldedTask, savedTask] }
theorem restorable_of (s : State) (x : Saved) (h : s.chip.threadsOf lastThread.coreId = [] ∧ s.chip.tiles = [] ∧
      (frameDword x.image 0).getLsbD 7 = false ∧ x.cluster = ⟨49, 49⟩ ∧ x.pinned = false ∧
      0 < ((s.chip.launchOf x.task.launch).map Launch.threads).getD 16) : Claims.Restorable s lastThread.coreId x := by
  obtain ⟨ht, hi, hs, hc, hp, hn⟩ := h
  refine ⟨hs, ⟨hc, fun e => by rw [hp] at e; cases e⟩, ?_, ⟨fun e he => ?_, ?_⟩⟩
  · simp [Claims.tilesHeld, hi]
  · rw [ht] at he; cases he
  · rw [ht]; exact hn
theorem not_restorable (s : State) : ¬ Claims.Restorable s lastThread.coreId unrestTask := fun h => absurd h.sound (by decide)
/-- Each source of R256 in turn is the first that has something to give, and one behind it is not. -/
theorem wit_SchedulerResults_order :
    (savedMany.chip.saved = [unrestTask] ++ yieldedTask :: [savedTask] ∧ ¬ Claims.Ready savedMany lastThread.coreId unrestTask ∧
      Claims.Ready savedMany lastThread.coreId yieldedTask ∧ Claims.Ready savedState lastThread.coreId savedTask) ∧
    (∀ i, i = schedItem 9 → Claims.Takeable (lastCl fun k => { k with modeZero := [i] }) lastThread.coreId i ∧
      Claims.Takeable (lastCl fun k => { k with hints := [i] }) lastThread.coreId i ∧
      Claims.Takeable (dequeOn lastThread.coreId [schedItem 10, i]) lastThread.coreId i) ∧
    (∀ s ∈ [lastCl fun k => { k with modeZero := [schedItem 9] }, lastCl fun k => { k with hints := [schedItem 9] },
        dequeOn lastThread.coreId [schedItem 10, schedItem 9], launchState], s.chip.saved = []) ∧
    ((lastCl fun k => { k with hints := [schedItem 9] }).chip.cluster lastThread.cluster).modeZero.head? = none ∧
    ((dequeOn lastThread.coreId [schedItem 10, schedItem 9]).chip.cluster lastThread.cluster).modeZero.head? = none ∧
    ((dequeOn lastThread.coreId [schedItem 10, schedItem 9]).chip.cluster lastThread.cluster).hints.head? = none ∧
    ((dequeOn lastThread.coreId [schedItem 10, schedItem 9]).chip.core lastThread.coreId).deque.getLast? = some (schedItem 9) ∧
    (launchState.chip.core lastThread.coreId).deque.getLast? = none ∧ savedState.chip.firstSource lastThread.coreId ≠ some .modeZero ∧
    savedState.chip.firstSource lastThread.coreId ≠ none := by
  refine ⟨⟨rfl, fun h => not_restorable _ h.1, ⟨restorable_of _ _ (by decide), Or.inr ⟨[6], rfl, fun y hy _ hm => ?_, fun i hi _ => ?_⟩⟩,
      restorable_of _ _ (by decide), Or.inl rfl⟩, fun i hi => ?_, fun s hs => ?_, by decide, by decide, by decide, by decide, by decide,
    by decide, by decide⟩
  · have hy : y ∈ [unrestTask, yieldedTask, savedTask] := hy
    simp only [List.mem_cons, List.not_mem_nil, or_false] at hy
    rcases hy with rfl | rfl | rfl
    · exact not_restorable _
    · exact absurd hm (by decide)
    · exact absurd hm (by decide)
  · have h : Claims.Next savedMany lastThread.coreId i → False := by
      rintro (e | e | e)
      · exact absurd (show none = some i from e) (by simp)
      · exact absurd (show none = some i from e) (by simp)
      · exact absurd (show none = some i from e) (by simp)
    exact (h hi).elim
  · subst hi
    exact ⟨takeable_of _ _ _ (by decide), takeable_of _ _ _ (by decide), takeable_of _ _ _ (by decide)⟩
  · simp only [List.mem_cons, List.not_mem_nil, or_false] at hs
    rcases hs with rfl | rfl | rfl | rfl <;> rfl
theorem wit_SchedulerResults_hops :
    ∀ w ∈ [(⟨schedItem 9, ⟨0, 0⟩, ⟨199, 0⟩, 0⟩ : Walk), ⟨schedItem 9, ⟨1, 0⟩, ⟨0, 0⟩, 0⟩, ⟨schedItem 9, ⟨1, 98⟩, ⟨1, 99⟩, 0⟩,
      ⟨schedItem 9, ⟨1, 1⟩, ⟨1, 0⟩, 0⟩, ⟨schedItem 9, ⟨199, 99⟩, ⟨199, 99⟩, 0⟩],
      (walking w).chip.walks.find? (fun x => decide (x.item.id = w.item.id)) = some w ∧
        (w.here.cx < w.target.cx ∨ w.target.cx < w.here.cx ∨ (w.here.cx = w.target.cx ∧ w.here.cy < w.target.cy) ∨
          (w.here.cx = w.target.cx ∧ w.target.cy < w.here.cy) ∨ w.here = w.target) := by
  intro w hw
  simp only [List.mem_cons, List.not_mem_nil, or_false] at hw
  rcases hw with rfl | rfl | rfl | rfl | rfl <;> exact ⟨by rfl, by decide⟩

/-- A task of lower priority on the last thread of a cluster whose pool holds 32 tiles of running tasks, four of them its. -/
def lowTask : Task := ⟨5, 2, none, 4, 0, 0, 0, [0, 0, 0, 0]⟩
def lowState : State := onC (poolState [{ launchOf 0 0 0 with id := 2, prio := 6 }, launchOf 4 0 0]) fun c => { c with
  nextTask := 100
  tiles := (List.range 32).map fun n => { tileOf (BitVec.ofNat 2 n) false false with task := 5 + n / 4, cluster := ⟨49, 49⟩ }
  others := (lastThread, { placedThread with task := some lowTask, pc := placedCode + 4 }) ::
    (List.range 7).map fun n => (⟨49, 49, 6, n⟩, { placedThread with task := some { lowTask with id := 6 + n }, pc := placedCode + 4 }) }
theorem wit_SchedulerResults_preempt_pool :
    ∀ bs : List Byte, bs.length = 2048 → Claims.PoolHome lowState lastThread.die (Mem.write lowState.chip.mem 0x400000 bs) := by
  intro bs _
  have hr : (lowState.chip.die 0).etroot = 0x2001 := by decide
  have hm : Mem.dword lowState.chip.mem 0x2000 = 0x8001 ∧ Mem.dword lowState.chip.mem 0x8000 = 0x4001 ∧
    Mem.dword lowState.chip.mem 0x4008 = frameEntry := by decide
  refine poolHome_of _ _ _ (by decide) fun off ho => ?_
  rw [hr]
  exact ⟨0x4008, placed_walk _ _ (by omega) ((dword_below _ _ 0x2000 (by decide)).trans hm.1)
    ((dword_below _ _ 0x8000 (by decide)).trans hm.2.1) ((dword_below _ _ 0x4008 (by decide)).trans hm.2.2)⟩
theorem wit_SchedulerResults_preempt :
    (¬ Claims.Storing (lowState.chip.thread lastThread) none ∧ Claims.RepcKept (Claims.focused lowState lastThread) 0) ∧
    lowState.chip.launchOf 1 = some (launchOf 4 0 0) ∧ (launchOf 4 0 0).rejected = none ∧
      (List.range (launchOf 4 0 0).tasks).filter (fun n => !(launchOf 4 0 0).started.contains n) = 1 :: [2, 3, 4, 5, 6, 7, 8, 9, 10, 11, 12, 14] ∧
      (launchOf 4 0 0).steal = 2 ∧ (lowState.chip.thread lastThread).task = some lowTask ∧
      (∃ l0, lowState.chip.launchOf lowTask.launch = some l0 ∧ l0.prio < (launchOf 4 0 0).prio) ∧
      (lowState.chip.thread lastThread).sup = false ∧ (lowState.chip.thread lastThread).handler = none ∧
      (lowState.chip.thread lastThread).gangSize = 0 ∧ (lowState.chip.thread lastThread).run = .ready ∧
      (∀ x ∈ lowState.chip.tiles, x.task ≠ ((launchOf 4 0 0).item lowState.chip.nextTask 1).id) ∧
      lowState.chip.openTo lastThread.coreId ((launchOf 4 0 0).item lowState.chip.nextTask 1) none = true ∧
      lowState.chip.canTake lastThread.coreId ((launchOf 4 0 0).item lowState.chip.nextTask 1) none = false ∧
      (lowState.chip.setThread lastThread Thread.reset).canTake lastThread.coreId ((launchOf 4 0 0).item lowState.chip.nextTask 1) none =
        true ∧
      ((lowState.chip.threadsOf lastThread.coreId).filter fun e => decide (e.2.run ≠ .free)).length ≤ 16 ∧
      inMesh lastThread.cluster = true ∧ lastThread.core < 8 ∧ lastThread.thread < 16 ∧ lowState.chip.framesFree lastThread.die ≠ [] ∧
      ((launchOf 4 0 0).item lowState.chip.nextTask 1).slice = 0 ∧
      Claims.FrameAt (Claims.focused lowState lastThread) (lowState.chip.thread lastThread).csr.tframe 0x400000 := by
  refine ⟨⟨not_storing _ _ _ (by decide), fun _ => by decide, fun h => absurd h (by decide)⟩, by rfl, rfl, by decide, rfl, by decide, ⟨{ launchOf 0 0 0 with id := 2, prio := 6 }, by rfl, by decide⟩, by decide, by decide,
    by decide, by decide, by decide, by decide, by decide, by decide, by decide, by decide, by decide, by decide, by decide, by decide,
    frameAt_held _ _ 0x200000 (by decide)⟩
def endTaskState (counter : Option Dword) : State :=
  onT base fun t => { t with run := .wait .taskEnd, task := some { placedTask with counter := counter } }
theorem wit_SchedulerResults_end :
    ∀ k ∈ [none, some (0xFFF8C71E0000FFFC : Dword)],
      ((endTaskState k).chip.thread me).run = .wait .taskEnd ∧
        ((endTaskState k).chip.thread me).task = some { placedTask with counter := k } ∧ ((endTaskState k).chip.thread me).pend = [] ∧
        ((endTaskState k).chip.thread me).snaps = [] ∧ (endTaskState k).chip.jobsOver 1 = true ∧ Claims.NoWaits (endTaskState k) ∧
        me = (endTaskState k).chip.tid ∧
        ∀ a, k = some a → classify (endTaskState k).mgmt a = some (.slice (sliceCore a) 0xFFFC) ∧ (endTaskState k).chip.tcopies = [] := by
  intro k hk
  simp only [List.mem_cons, List.not_mem_nil, or_false] at hk
  rcases hk with rfl | rfl
  · exact ⟨by decide, by decide, by decide, by decide, by decide, fun e he => absurd he (by
      have : (endTaskState none).chip.others = [] := by decide
      rw [this]; exact List.not_mem_nil), by decide, fun a h => by cases h⟩
  · exact ⟨by decide, by decide, by decide, by decide, by decide, fun e he => absurd he (by
      have : (endTaskState (some 0xFFF8C71E0000FFFC)).chip.others = [] := by decide
      rw [this]; exact List.not_mem_nil), by decide, fun a h => by cases h; exact ⟨by decide, by decide⟩⟩
theorem wit_SchedulerResults_end_heap :
    let s := endTaskState (some (placedFrame + 0x1000))
    (s.chip.thread me).task = some { placedTask with counter := some (placedFrame + 0x1000) } ∧ Claims.NoWaits s ∧ me = s.chip.tid ∧
      Claims.OutsideAt s me (placedFrame + 0x1000) true heapSpot ∧ Claims.NoCopy s heapSpot := by
  refine ⟨by decide, fun e he => ?_, by decide, ⟨0, 0x201000, frameEntry, 0x4008, by decide, by decide, by decide, by decide, Or.inl (by decide),
    fun _ => by decide, by decide, by decide, by decide⟩, by rfl⟩
  have he : e ∈ ([] : List (TId × Thread)) := he
  simp at he

/-- The frame's page as one that may age: in memory, or in the capacity tier. -/
def contOf (pages : List Dword) : Continuation := ⟨{ savedTask with cluster := ⟨1, 0⟩ }, List.replicate 2048 0, 31, pages⟩
def ageState (e : Dword) : State := onC (entryState e) fun c => { c with
  den := [(0xFFFFF, .parked (contOf [placedFrame]))], idle := [(placedFrame, 0)], timebase := 100, denT1 := 1, denT2 := 1
  tcopies := [(placedFrame, hbmEnd)], flash := [(placedFrame, 2 ^ 40 - 2 ^ 21)] }
def ageEntry : Dword := 0x0000200000400001
theorem wit_DenEvents_ages :
    Claims.PageAt (ageState ageEntry) placedFrame 0 0x200000 ageEntry 0x4008 ∧
      Claims.Aged (ageState ageEntry) placedFrame ageEntry (ageState ageEntry).chip.denT1 ∧
      Claims.Aged (ageState ageEntry) placedFrame ageEntry (ageState ageEntry).chip.denT2 ∧ entryTier ageEntry = 0 ∧
      tableGet (ageState ageEntry).chip.tcopies placedFrame = some hbmEnd ∧ 0x4008 + 8 ≤ hbmEnd ∧
      tableGet (ageState ageEntry).chip.flash placedFrame = some (2 ^ 40 - 2 ^ 21) ∧ 2 ^ 40 - 2 ^ 21 + 2 ^ 21 ≤ 2 ^ 40 ∧
      0x4008 < 2 ^ 40 - 8 ∧ entryAddr ageEntry + 2 ^ 21 ≤ 2 ^ 40 ∧ (ageState ageEntry).chip.t.pend = [] ∧
      (∀ d acc l n w la, (ageState ageEntry).chip.t.run ≠ .wait (.access d acc l n w la)) ∧ Claims.NoWaits (ageState ageEntry) ∧
      Claims.NoWaiter (ageState ageEntry) ∧
      walk (Mem.write (ageState ageEntry).chip.mem (heapKey 0 (entryAddr ageEntry) + 18) [2]) 0 ((ageState ageEntry).chip.die 0).etroot
        0x200000 false = .leaf ageEntry 0x4008 := by
  have hd : (ageState ageEntry).chip.den = [(0xFFFFF, .parked (contOf [placedFrame]))] := by rfl
  have ha : Claims.Aged (ageState ageEntry) placedFrame ageEntry 1 :=
    ⟨⟨0xFFFFF, contOf [placedFrame], by rw [hd]; exact List.mem_singleton_self _, List.mem_singleton_self _⟩, by decide,
      by decide, 0, by decide, by decide⟩
  have hr : (ageState ageEntry).chip.t.run = .ready := by decide
  have ho : (ageState ageEntry).chip.others = [] := by decide
  refine ⟨⟨by decide, by decide, by decide⟩, ha, ha, by decide, by decide, by decide, by decide, by decide, by decide, by decide, by decide,
    fun d acc l n w la h => ?_, fun e he => absurd he (by rw [ho]; exact List.not_mem_nil), noWaiter_of _ (by decide), by decide⟩
  rw [hr] at h; cases h

def winState (den : List (BitVec 20 × DenEntry)) : State :=
  { onC base fun c => { c with den := den } with mgmt := { base.mgmt with denwin := 0x0003000000000001 } }
def stageState (s2 : List Dword) : State := onC (poolState []) fun c =>
  { c with den := [(0, .woken (contOf [placedFrame]) 9 3 none s2 [])] }
def fullFrame : List Byte := bytesOfDword 0x8000 ++ List.replicate 2040 0
theorem wit_DenEvents_wakes :
    (winState []).mgmt.denwin.getLsbD 0 = true ∧ tableGet (winState []).chip.den 0 = none ∧
      tableGet (winState [(0, .parked (contOf [placedFrame]))]).chip.den 0 = some (.parked (contOf [placedFrame])) ∧
      (contOf [placedFrame]).pages ≠ [] ∧ tableGet (winState [(0, .parked (contOf []))]).chip.den 0 = some (.parked (contOf [])) ∧
      (contOf []).pages = [] ∧ tableGet (winState [(0, .pending 1 2)]).chip.den 0 = some (.pending 1 2) ∧
      (∀ s2, s2 = [] ∨ s2 = [placedFrame] →
        tableGet (stageState s2).chip.den 0 = some (.woken (contOf [placedFrame]) 9 3 none s2 []) ∧
        (stageState s2).chip.framesFree (contOf [placedFrame]).saved.cluster.die = [1] ∧
        Claims.FrameAt (stageState s2) (((stageState s2).chip.die (contOf [placedFrame]).saved.cluster.die).fpbase + BitVec.ofNat 64 (2048 * 1))
          0x400800) ∧
      (contOf [placedFrame]).frame.length = 2048 ∧ (frameDword (contOf [placedFrame]).frame 0).toNat / 2 ^ 11 % 2 ^ 5 ≤ 16 ∧
      fullFrame.length = 2048 ∧ (frameDword fullFrame 0).toNat / 2 ^ 11 % 2 ^ 5 = 16 := by
  refine ⟨by decide, by rfl, by rfl, by decide, by rfl, by rfl, by rfl, ?_, by decide, by decide, by decide, by decide⟩
  rintro s2 (rfl | rfl) <;> exact ⟨by rfl, by decide, frameAt_held _ _ 0x200800 (by decide)⟩

def promoState (e : Dword) (den : List (BitVec 20 × DenEntry)) : State := onC (entryState e) fun c =>
  { c with promoting := [placedFrame], den := den }
def tierEntry : Dword := 0x0004002000000001
def lastPage : List (BitVec 20 × DenEntry) := [(5, .woken (contOf [placedFrame]) 9 3 (some placedFrame) [placedFrame] [])]
theorem wit_DenEvents_promotes :
    (∀ e, e = frameEntry ∨ e = tierEntry → Claims.PageAt (promoState e []) placedFrame 0 0x200000 e 0x4008 ∧
      placedFrame ∈ (promoState e []).chip.promoting ∧ (promoState e []).chip.den = [] ∧ (promoState e []).chip.stage3 = []) ∧
      entryTier frameEntry = 0 ∧ entryTier tierEntry = 1 ∧ ((promoState tierEntry []).chip.framesBusy 0).length < hbmEnd / 2 ^ 21 ∧
      Claims.NoWaiter (promoState tierEntry []) ∧
      Claims.PageAt (promoState frameEntry lastPage) placedFrame 0 0x200000 frameEntry 0x4008 ∧
      (promoState frameEntry lastPage).chip.den = lastPage ∧ (promoState frameEntry lastPage).chip.stage3 = [] ∧
      (promoState frameEntry lastPage).chip.saved = [] := by
  refine ⟨?_, by decide, by decide, by decide, noWaiter_of _ (by decide), ⟨by decide, by decide, by decide⟩, by rfl, by decide, by decide⟩
  rintro e (rfl | rfl) <;> exact ⟨⟨by decide, by decide, by decide⟩, by decide, by decide, by decide⟩

/-- The frame's page in the flash tier, promoted; and an aged page with no flash frame yet. -/
def flashEntry : Dword := 0x0008000000000001
def flashState (fa : Nat) : State := onC (promoState flashEntry []) fun c => { c with flash := [(placedFrame, fa)] }
def newState : State := onC (ageState ageEntry) fun c => { c with flash := [] }
/-- A saved task that waits for two pages: both home, or one in the flash tier. -/
def pagesState (e : Dword) : State := onC (entryState e) fun c =>
  { c with saved := [{ savedTask with resume := .pages [placedFrame, placedFrame + 0x200000] }] }
theorem homeOf (s : State) (page : Dword) (h : ((s.chip.pageEntry page).all fun e => decide (entryTier e ≠ 2)) = true) :
    Claims.Home s page := by
  intro e he
  rw [he] at h
  exact of_decide_eq_true h
theorem wit_DenEvents_flash :
    (∀ fa ∈ [0, 2 ^ 40 - 2 ^ 21], Claims.PageAt (flashState fa) placedFrame 0 0x200000 flashEntry 0x4008 ∧ entryTier flashEntry = 2 ∧
      placedFrame ∈ (flashState fa).chip.promoting ∧ (flashState fa).chip.den = [] ∧ (flashState fa).chip.stage3 = [] ∧
      Claims.NoWaiter (flashState fa) ∧ tableGet (flashState fa).chip.flash placedFrame = some fa ∧ fa % 2 ^ 21 = 0 ∧
      fa + 2 ^ 21 ≤ 2 ^ 40 ∧ ((flashState fa).chip.framesBusy 0).length < hbmEnd / 2 ^ 21 ∧
      ((flashState fa).chip.framesBusy 0).length < (tierEnd - hbmEnd) / 2 ^ 21) ∧
    (Claims.PageAt newState placedFrame 0 0x200000 ageEntry 0x4008 ∧ tableGet newState.chip.flash placedFrame = none ∧
      (Claims.flashUsed newState 0).length < 2 ^ 19) ∧
    (∀ e ∈ [frameEntry, flashEntry], ∃ k, (pagesState e).chip.saved[0]? = some k ∧
      k.resume = .pages [placedFrame, placedFrame + 0x200000]) ∧
    (∀ page ∈ [placedFrame, placedFrame + 0x200000], Claims.Home (pagesState frameEntry) page) ∧
    ∃ page ∈ [placedFrame, placedFrame + 0x200000], ¬ Claims.Home (pagesState flashEntry) page := by
  refine ⟨?_, ⟨⟨by decide, by decide, by decide⟩, by decide, by decide⟩, ?_, ?_, placedFrame, List.mem_cons_self, fun h => h flashEntry (by decide) (by decide)⟩
  · intro fa hf
    simp only [List.mem_cons, List.not_mem_nil, or_false] at hf
    rcases hf with rfl | rfl <;>
      exact ⟨⟨by decide, by decide, by decide⟩, by decide, by decide, by decide, by decide, noWaiter_of _ (by decide), by rfl, by decide,
        by decide, by decide, by decide⟩
  · intro e he
    simp only [List.mem_cons, List.not_mem_nil, or_false] at he
    rcases he with rfl | rfl <;> exact ⟨_, rfl, rfl⟩
  · intro page hp e he
    simp only [List.mem_cons, List.not_mem_nil, or_false] at hp
    rcases hp with rfl | rfl <;>
      exact homeOf _ _ (by decide) e he

/-! ### Encoding and the whole machine -/

theorem wit_EncodeThenDecode : (Instr.loopm 4 9 9).WellFormed ∧ (Instr.loopm 4 9 9).encoded = true ∧
    (Instr.vfsub16 3 1 2).WellFormed ∧ (Instr.vfsub16 3 1 2).encoded = true := by decide
theorem wit_DecodeThenEncode : decode [0x01, 0x83, 0x14, 0x00, 0x07] = .ok (.add 3 4 5, [0x07]) ∧
    decode [0x06, 0x07] = .ok (.rep true true true 1, []) := by decide
theorem reset_memoryOk : State.reset.chip.memoryOk := by unfold Chip.memoryOk; decide
/-- The states before and after a step of an instruction at the placed program counter. -/
def addPlaced : State := State.reset.withFetchWord 32 0x148301
theorem wit_StepKeepsIdentity : addPlaced.mgmt.identityOk ∧ addPlaced.mgmt.bootOk ∧ otherModule.identityOk ∧
    ({ otherModule with faben := true } : Mgmt).identityOk := by
  unfold Mgmt.identityOk Mgmt.bootOk; decide
theorem placed_memoryOk : addPlaced.chip.memoryOk := by unfold Chip.memoryOk; decide
/-- An outcome that is a next state. -/
def goesOn (o : Host.Outcome State Fault Refusal) : Bool := match o with | .next _ => true | _ => false
theorem next_of {o : Host.Outcome State Fault Refusal} (h : goesOn o = true) : ∃ t, o = .next t := by
  cases o with
  | next t => exact ⟨t, rfl⟩
  | fault f => cases h
  | refused r => cases h
theorem wit_StepKeepsMemoryForm : ∃ t, addPlaced.chip.memoryOk ∧ step addPlaced = .next t := by
  obtain ⟨t, h⟩ := next_of (o := step addPlaced) (by decide)
  exact ⟨t, placed_memoryOk, h⟩
theorem wit_ThreadsLeaveTheModule : (Instr.add 3 4 5).encoded = true ∧ ∃ t, exec (.add 3 4 5) base = .next t :=
  ⟨by decide, next_of (by decide)⟩

end Sys2Proof.Tests
end

/-! SUPPORT. Registers and integer lanes (R182 to R192): what the shared integer functions give as integers and bits, how an
instruction of a thread by itself that writes one register completes, and the statements of the chapter settled. -/

namespace Sys2Proof.Machine

/-! ## Integer values of the shared functions (R182 to R184) -/

theorem shiftOf_eq (b : Dword) : shiftOf b = b.toNat % 64 := by
  simp [shiftOf]
theorem fieldPos_eq (b : Dword) : fieldPos b = Claims.pos b := by
  simp [fieldPos, Claims.pos]
theorem fieldWidth_eq (b : Dword) : fieldWidth b = Claims.width b := by
  simp [fieldWidth, Claims.width, Nat.shiftRight_eq_div_pow]

theorem shiftLeft_eq_ofNat {w : Nat} (a : BitVec w) (n : Nat) : a <<< n = BitVec.ofNat w (a.toNat * 2 ^ n) := by
  apply BitVec.eq_of_toNat_eq
  simp [Nat.shiftLeft_eq]
theorem ushiftRight_eq_ofNat {w : Nat} (a : BitVec w) (n : Nat) : a >>> n = BitVec.ofNat w (a.toNat / 2 ^ n) := by
  rw [← Nat.shiftRight_eq_div_pow, ← BitVec.toNat_ushiftRight, BitVec.ofNat_toNat, BitVec.setWidth_eq]
theorem sshiftRight_eq_ofInt {w : Nat} (a : BitVec w) (n : Nat) : a.sshiftRight n = BitVec.ofInt w (a.toInt / 2 ^ n) := by
  rw [← BitVec.ofInt_toInt (x := a.sshiftRight n), BitVec.toInt_sshiftRight, Int.shiftRight_eq_div_pow]
  norm_cast

theorem add_eq_ofNat {w : Nat} (a b : BitVec w) : a + b = BitVec.ofNat w (a.toNat + b.toNat) := by
  rw [BitVec.ofNat_add, BitVec.ofNat_toNat, BitVec.ofNat_toNat, BitVec.setWidth_eq, BitVec.setWidth_eq]
theorem sub_eq_ofInt {w : Nat} (a b : BitVec w) : a - b = BitVec.ofInt w (a.toInt - b.toInt) := by
  apply BitVec.eq_of_toInt_eq
  rw [BitVec.toInt_sub, BitVec.toInt_ofInt]
theorem mul_eq_ofInt {w : Nat} (a b : BitVec w) : a * b = BitVec.ofInt w (a.toInt * b.toInt) := by
  rw [BitVec.ofInt_mul, BitVec.ofInt_toInt, BitVec.ofInt_toInt]
theorem sdiv_eq_ofInt {w : Nat} (a b : BitVec w) : a.sdiv b = BitVec.ofInt w (a.toInt.tdiv b.toInt) := by
  apply BitVec.eq_of_toInt_eq
  rw [BitVec.toInt_sdiv, BitVec.toInt_ofInt]
theorem srem_eq_ofInt {w : Nat} (a b : BitVec w) : a.srem b = BitVec.ofInt w (a.toInt.tmod b.toInt) := by
  rw [← BitVec.toInt_srem, BitVec.ofInt_toInt]
theorem udiv_eq_ofNat {w : Nat} (a b : BitVec w) : a / b = BitVec.ofNat w (a.toNat / b.toNat) := by
  rw [← BitVec.toNat_udiv, BitVec.ofNat_toNat, BitVec.setWidth_eq]
theorem umod_eq_ofNat {w : Nat} (a b : BitVec w) : a % b = BitVec.ofNat w (a.toNat % b.toNat) := by
  rw [← BitVec.toNat_umod, BitVec.ofNat_toNat, BitVec.setWidth_eq]
/-- The product of two doublewords fits 128 bits, and its upper half is the quotient by 2^64. -/
theorem mulHigh_eq_ofInt (a b : Dword) : mulHigh a b = BitVec.ofInt 64 (a.toInt * b.toInt / 2 ^ 64) := by
  have product : a.signExtend 128 * b.signExtend 128 = BitVec.ofInt 128 (a.toInt * b.toInt) := by
    rw [mul_eq_ofInt, BitVec.toInt_signExtend_of_le (by decide), BitVec.toInt_signExtend_of_le (by decide)]
  apply BitVec.eq_of_toNat_eq
  simp only [mulHigh, product, BitVec.extractLsb'_toNat, BitVec.toNat_ofInt, Nat.shiftRight_eq_div_pow]
  omega

theorem minS_eq_ofInt {w : Nat} (a b : BitVec w) : minS a b = BitVec.ofInt w (min a.toInt b.toInt) := by
  unfold minS
  split
  · next h => rw [min_eq_right (BitVec.slt_iff_toInt_lt.1 h).le, BitVec.ofInt_toInt]
  · next h => rw [min_eq_left (not_lt.1 (mt BitVec.slt_iff_toInt_lt.2 h)), BitVec.ofInt_toInt]
theorem maxS_eq_ofInt {w : Nat} (a b : BitVec w) : maxS a b = BitVec.ofInt w (max a.toInt b.toInt) := by
  unfold maxS
  split
  · next h => rw [max_eq_right (BitVec.slt_iff_toInt_lt.1 h).le, BitVec.ofInt_toInt]
  · next h => rw [max_eq_left (not_lt.1 (mt BitVec.slt_iff_toInt_lt.2 h)), BitVec.ofInt_toInt]

theorem ofBoolX_decide (p : Prop) [Decidable p] : ofBoolX (decide p) = if p then 1 else 0 := by
  simp [ofBoolX]

/-! ## Bits counted -/

theorem popcount_eq_countP {w : Nat} (a : BitVec w) (n : Nat) : popcount a n = (List.range n).countP a.getLsbD := by
  induction n with
  | zero => rfl
  | succ n ih => simp [popcount, List.range_succ, List.countP_append, List.countP_cons, ih, Nat.add_comm]

/-- The prefix of 0, 1, …, n on which a predicate holds, from what holds at 0 and the prefix one further on. -/
theorem length_takeWhile_range_succ (p : Nat → Bool) (n : Nat) :
    ((List.range (n + 1)).takeWhile p).length =
      if p 0 then 1 + ((List.range n).takeWhile fun i => p (i + 1)).length else 0 := by
  rw [List.range_succ_eq_map, List.takeWhile_cons]
  split
  · rw [List.takeWhile_map, List.length_cons, List.length_map, Nat.add_comm]; rfl
  · rfl

theorem leadingZeros_eq_takeWhile {w : Nat} (a : BitVec w) (n : Nat) :
    leadingZeros a n = ((List.range n).takeWhile fun i => !a.getLsbD (n - 1 - i)).length := by
  induction n with
  | zero => rfl
  | succ n ih =>
    rw [length_takeWhile_range_succ, leadingZeros, ih]
    cases h : a.getLsbD n <;> simp [h, Nat.sub_sub, Nat.add_comm]

theorem trailingZeros_eq_takeWhile {w : Nat} (a : BitVec w) (k n : Nat) :
    trailingZeros a k n = ((List.range n).takeWhile fun i => !a.getLsbD (k + i)).length := by
  induction n generalizing k with
  | zero => rfl
  | succ n ih =>
    rw [length_takeWhile_range_succ, trailingZeros, ih]
    cases h : a.getLsbD k <;> simp [Nat.add_assoc, Nat.add_comm 1]

/-! ## Fields and masks by their bits -/

theorem getLsbD_lowMask (n w j : Nat) : (lowMask n w).getLsbD j = (decide (j < n) && decide (j < w)) := by
  rw [lowMask, BitVec.getLsbD_ofNat, Nat.testBit_two_pow_sub_one]

theorem and_lowMask {n : Nat} (a : BitVec n) (w : Nat) : a &&& lowMask n w = BitVec.ofNat n (a.toNat % 2 ^ w) := by
  apply BitVec.eq_of_getLsbD_eq
  intro j hj
  rw [BitVec.getLsbD_and, getLsbD_lowMask, BitVec.getLsbD_ofNat, Nat.testBit_mod_two_pow, BitVec.testBit_toNat, decide_eq_true hj,
    Bool.true_and, Bool.true_and, Bool.and_comm]

theorem extractField_eq_ofNat (a b : Dword) :
    extractField a b = BitVec.ofNat 64 (a.toNat / 2 ^ Claims.pos b % 2 ^ Claims.width b) := by
  rw [extractField, and_lowMask, BitVec.toNat_ushiftRight, Nat.shiftRight_eq_div_pow, fieldPos_eq, fieldWidth_eq]

theorem getLsbD_insertField (old a b : Dword) (j : Nat) (hj : j < 64) :
    (insertField old a b).getLsbD j =
      if Claims.pos b ≤ j ∧ j < Claims.pos b + Claims.width b then a.getLsbD (j - Claims.pos b) else old.getLsbD j := by
  simp only [insertField, fieldPos_eq, fieldWidth_eq, BitVec.getLsbD_or, BitVec.getLsbD_and, BitVec.getLsbD_not,
    BitVec.getLsbD_shiftLeft, getLsbD_lowMask, hj]
  by_cases low : j < Claims.pos b
  · simp [low]
  · have inside : j - Claims.pos b < Claims.width b ↔ j < Claims.pos b + Claims.width b := by omega
    by_cases high : j < Claims.pos b + Claims.width b
    · simp [low, inside, high, show j - Claims.pos b < 64 by omega, not_lt.1 low]
    · simp [low, inside, high]

/-- Eight bits from a function of the lane read as the function. -/
@[simp] theorem getLsbD_maskOf (f : BitVec 3 → Bool) (i : BitVec 3) : (maskOf f).getLsbD i.toNat = f i := by
  change BitVec.getLsbD (w := 1 + 1 + 1 + 1 + 1 + 1 + 1 + 1) (maskOf f) i.toNat = f i
  unfold maskOf
  simp only [BitVec.getLsbD_append, BitVec.getLsbD_ofBool]
  match i with
  | 0#3 | 1#3 | 2#3 | 3#3 | 4#3 | 5#3 | 6#3 | 7#3 => simp

theorem getLsbD_maskOf_ofNat (f : BitVec 3 → Bool) (k : Nat) (hk : k < 8) :
    (maskOf f).getLsbD k = f (BitVec.ofNat 3 k) := by
  simpa [Nat.mod_eq_of_lt hk] using getLsbD_maskOf f (BitVec.ofNat 3 k)

/-- A comparison of lanes is the manual's (R188). -/
theorem laneCompare_eq_holds (cc : BitVec 2) (u : Bool) (a b : Word) : laneCompare cc u a b = Claims.holds cc u a b := by
  match cc with
  | 0#2 | 1#2 => rfl
  | 2#2 => simp [laneCompare, Claims.holds, BitVec.ult, BitVec.slt]
  | 3#2 => rw [Bool.eq_iff_iff]; cases u <;> simp [laneCompare, Claims.holds, BitVec.ult, BitVec.slt]

/-! ## Completion of an instruction that writes one register -/

section
variable {s : State}

/-- An instruction by itself whose meaning is a write of an x register. -/
theorem run_putX_alone (hs : Claims.Alone s 4) (rd : Reg) (v : Chip → Dword) :
    (s.run fun g c => c.putX g rd (v c)) =
      .next (Claims.withThread s (Claims.past (Claims.writeX s.chip.t rd (v s.chip)) 4)) := by
  obtain ⟨ready, pend, snaps, loops, rep, goesOn⟩ := hs
  rw [State.run_of_next s _ _ (Chip.putX_alone s.mgmt s.chip rd (v s.chip) ready pend snaps loops rep goesOn)]
  rw [Thread.setX_alone _ _ _ pend]
  unfold Claims.withThread Claims.past Claims.writeX
  split <;> rfl

/-- An instruction by itself whose meaning is a write of a mask, with the fallback it met. -/
theorem run_putM_alone (hs : Claims.Alone s 4) (md : BitVec 3) (v : Chip → Byte) (code : Byte) :
    (s.run fun g c => c.putM g md (v c) code) =
      .next (Claims.withThread s
        (Claims.past ((Claims.writeM s.chip.t md (v s.chip)).warn code s.chip.t.pc) 4)) := by
  obtain ⟨ready, pend, snaps, loops, rep, goesOn⟩ := hs
  rw [State.run_of_next s _ _ (Chip.putM_alone s.mgmt s.chip md (v s.chip) code ready pend snaps loops rep goesOn)]
  have pc : ((Claims.writeM s.chip.t md (v s.chip)).warn code s.chip.t.pc).pc = s.chip.t.pc := by
    rw [Thread.warn_pc]; exact Thread.setM_pc s.chip.t md (v s.chip)
  unfold Claims.withThread Claims.past
  rw [pc]
  rfl

variable {v : Dword}

theorem scalar1_alone (hs : Claims.Alone s 4) (f : Dword → Dword) (rd ra : Reg) (hv : f (s.chip.t.getX ra) = v) :
    scalar1 f rd ra s = .next (Claims.withThread s (Claims.past (Claims.writeX s.chip.t rd v) 4)) := by
  rw [← hv]
  exact run_putX_alone hs rd fun c => f (c.t.getX ra)

theorem scalar2_alone (hs : Claims.Alone s 4) (f : Dword → Dword → Dword) (rd ra rb : Reg)
    (hv : f (s.chip.t.getX ra) (s.chip.t.getX rb) = v) :
    scalar2 f rd ra rb s = .next (Claims.withThread s (Claims.past (Claims.writeX s.chip.t rd v) 4)) := by
  rw [← hv]
  exact run_putX_alone hs rd fun c => f (c.t.getX ra) (c.t.getX rb)

theorem scalar3_alone (hs : Claims.Alone s 4) (f : Dword → Dword → Dword → Dword) (rd ra rb : Reg)
    (hv : f (s.chip.t.getX rd) (s.chip.t.getX ra) (s.chip.t.getX rb) = v) :
    scalar3 f rd ra rb s = .next (Claims.withThread s (Claims.past (Claims.writeX s.chip.t rd v) 4)) := by
  rw [← hv]
  exact run_putX_alone hs rd fun c => f (c.t.getX rd) (c.t.getX ra) (c.t.getX rb)

/-- With a divisor that is not 0, a division is a scalar instruction without a trap (R183). -/
theorem divide_alone (hs : Claims.Alone s 4) (f : Dword → Dword → Dword) (rd ra rb : Reg) (hb : s.chip.t.getX rb ≠ 0)
    (hv : f (s.chip.t.getX ra) (s.chip.t.getX rb) = v) :
    divide f rd ra rb s = .next (Claims.withThread s (Claims.past (Claims.writeX s.chip.t rd v) 4)) := by
  have noTrap : divide f rd ra rb s = scalar2 f rd ra rb s := by
    simp only [divide, scalar2, State.run, if_neg hb]
  rw [noTrap]
  exact scalar2_alone hs f rd ra rb hv

theorem mask2_alone (hs : Claims.Alone s 4) (f : Byte → Byte → Byte) (md ma mb : BitVec 3) :
    mask2 f md ma mb s = .next (Claims.withThread s
      (Claims.past ((Claims.writeM s.chip.t md (f (s.chip.t.getM ma) (s.chip.t.getM mb))).warn 0 s.chip.t.pc) 4)) :=
  run_putM_alone hs md (fun c => f (c.t.getM ma) (c.t.getM mb)) 0

end

/-! ## The shared form that each instruction is a case of -/

theorem exec_add (rd ra rb : Reg) (s : State) :
    exec (.add rd ra rb) s = scalar2 (fun a b => a + b) rd ra rb s := rfl
theorem exec_sub (rd ra rb : Reg) (s : State) :
    exec (.sub rd ra rb) s = scalar2 (fun a b => a - b) rd ra rb s := rfl
theorem exec_and (rd ra rb : Reg) (s : State) :
    exec (.and rd ra rb) s = scalar2 (fun a b => a &&& b) rd ra rb s := rfl
theorem exec_or (rd ra rb : Reg) (s : State) :
    exec (.or rd ra rb) s = scalar2 (fun a b => a ||| b) rd ra rb s := rfl
theorem exec_xor (rd ra rb : Reg) (s : State) :
    exec (.xor rd ra rb) s = scalar2 (fun a b => a ^^^ b) rd ra rb s := rfl
theorem exec_shl (rd ra rb : Reg) (s : State) :
    exec (.shl rd ra rb) s = scalar2 (fun a b => a <<< shiftOf b) rd ra rb s := rfl
theorem exec_shr (rd ra rb : Reg) (s : State) :
    exec (.shr rd ra rb) s = scalar2 (fun a b => a >>> shiftOf b) rd ra rb s := rfl
theorem exec_sra (rd ra rb : Reg) (s : State) :
    exec (.sra rd ra rb) s = scalar2 (fun a b => a.sshiftRight (shiftOf b)) rd ra rb s := rfl
theorem exec_mul (rd ra rb : Reg) (s : State) :
    exec (.mul rd ra rb) s = scalar2 (fun a b => a * b) rd ra rb s := rfl
theorem exec_mulh (rd ra rb : Reg) (s : State) :
    exec (.mulh rd ra rb) s = scalar2 (fun a b => mulHigh a b) rd ra rb s := rfl
theorem exec_div (rd ra rb : Reg) (s : State) :
    exec (.div rd ra rb) s = divide (fun a b => a.sdiv b) rd ra rb s := rfl
theorem exec_divu (rd ra rb : Reg) (s : State) :
    exec (.divu rd ra rb) s = divide (fun a b => a / b) rd ra rb s := rfl
theorem exec_rem (rd ra rb : Reg) (s : State) :
    exec (.rem rd ra rb) s = divide (fun a b => a.srem b) rd ra rb s := rfl
theorem exec_remu (rd ra rb : Reg) (s : State) :
    exec (.remu rd ra rb) s = divide (fun a b => a % b) rd ra rb s := rfl
theorem exec_min (rd ra rb : Reg) (s : State) :
    exec (.min rd ra rb) s = scalar2 (fun a b => minS a b) rd ra rb s := rfl
theorem exec_max (rd ra rb : Reg) (s : State) :
    exec (.max rd ra rb) s = scalar2 (fun a b => maxS a b) rd ra rb s := rfl
theorem exec_clz (rd ra : Reg) (s : State) :
    exec (.clz rd ra) s = scalar1 (fun a => BitVec.ofNat 64 (leadingZeros a 64)) rd ra s := rfl
theorem exec_ctz (rd ra : Reg) (s : State) :
    exec (.ctz rd ra) s = scalar1 (fun a => BitVec.ofNat 64 (trailingZeros a 0 64)) rd ra s := rfl
theorem exec_popc (rd ra : Reg) (s : State) :
    exec (.popc rd ra) s = scalar1 (fun a => BitVec.ofNat 64 (popcount a 64)) rd ra s := rfl
theorem exec_bext (rd ra rb : Reg) (s : State) :
    exec (.bext rd ra rb) s = scalar2 extractField rd ra rb s := rfl
theorem exec_bins (rd ra rb : Reg) (s : State) :
    exec (.bins rd ra rb) s = scalar3 insertField rd ra rb s := rfl
theorem exec_slt (rd ra rb : Reg) (s : State) :
    exec (.slt rd ra rb) s = scalar2 (fun a b => ofBoolX (a.slt b)) rd ra rb s := rfl
theorem exec_sltu (rd ra rb : Reg) (s : State) :
    exec (.sltu rd ra rb) s = scalar2 (fun a b => ofBoolX (a.ult b)) rd ra rb s := rfl
theorem exec_seq (rd ra rb : Reg) (s : State) :
    exec (.seq rd ra rb) s = scalar2 (fun a b => ofBoolX (decide (a = b))) rd ra rb s := rfl
theorem exec_sel (rd ra rb : Reg) (s : State) :
    exec (.sel rd ra rb) s = scalar3 (fun old a b => if old ≠ 0 then a else b) rd ra rb s := rfl
theorem exec_mov (rd ra : Reg) (s : State) :
    exec (.mov rd ra) s = scalar1 (fun a => a) rd ra s := rfl
theorem exec_vcmp (u : Bool) (cc : BitVec 2) (mk md : BitVec 3) (va vb : Reg) (s : State) :
    exec (.vcmp u cc mk md va vb) s = execVcmp u cc mk md va vb s := rfl
theorem exec_mand (md ma mb : BitVec 3) (s : State) : exec (.mand md ma mb) s = mask2 (fun a b => a &&& b) md ma mb s := rfl
theorem exec_mor (md ma mb : BitVec 3) (s : State) : exec (.mor md ma mb) s = mask2 (fun a b => a ||| b) md ma mb s := rfl
theorem exec_mxor (md ma mb : BitVec 3) (s : State) : exec (.mxor md ma mb) s = mask2 (fun a b => a ^^^ b) md ma mb s := rfl
theorem exec_mnot (md ma : BitVec 3) (s : State) : exec (.mnot md ma) s = mask2 (fun a _ => ~~~a) md ma ma s := rfl
theorem exec_mset (md : BitVec 3) (imm : Byte) (s : State) : exec (.mset md imm) s = s.run fun g c => c.putM g md imm 0 := rfl

/-! ## The statements settled -/

/-- Settles O1, by the instruction: each is one of the four scalar forms, with the value of its function. -/
theorem scalarRegisterResults : Obligations.ScalarRegisterResults := by
  unfold Obligations.ScalarRegisterResults
  intro s i rd v h hs
  cases h with
  | add _ ra rb => rw [exec_add]; exact scalar2_alone hs _ rd ra rb (add_eq_ofNat _ _)
  | sub _ ra rb => rw [exec_sub]; exact scalar2_alone hs _ rd ra rb (sub_eq_ofInt _ _)
  | and _ ra rb => rw [exec_and]; exact scalar2_alone hs _ rd ra rb rfl
  | or _ ra rb => rw [exec_or]; exact scalar2_alone hs _ rd ra rb rfl
  | xor _ ra rb => rw [exec_xor]; exact scalar2_alone hs _ rd ra rb rfl
  | shl _ ra rb => rw [exec_shl]; exact scalar2_alone hs _ rd ra rb (by rw [shiftLeft_eq_ofNat, shiftOf_eq])
  | shr _ ra rb => rw [exec_shr]; exact scalar2_alone hs _ rd ra rb (by rw [ushiftRight_eq_ofNat, shiftOf_eq])
  | sra _ ra rb => rw [exec_sra]; exact scalar2_alone hs _ rd ra rb (by rw [sshiftRight_eq_ofInt, shiftOf_eq])
  | mul _ ra rb => rw [exec_mul]; exact scalar2_alone hs _ rd ra rb (mul_eq_ofInt _ _)
  | mulh _ ra rb => rw [exec_mulh]; exact scalar2_alone hs _ rd ra rb (mulHigh_eq_ofInt _ _)
  | div _ ra rb hb => rw [exec_div]; exact divide_alone hs _ rd ra rb hb (sdiv_eq_ofInt _ _)
  | divu _ ra rb hb => rw [exec_divu]; exact divide_alone hs _ rd ra rb hb (udiv_eq_ofNat _ _)
  | rem _ ra rb hb => rw [exec_rem]; exact divide_alone hs _ rd ra rb hb (srem_eq_ofInt _ _)
  | remu _ ra rb hb => rw [exec_remu]; exact divide_alone hs _ rd ra rb hb (umod_eq_ofNat _ _)
  | min _ ra rb => rw [exec_min]; exact scalar2_alone hs _ rd ra rb (minS_eq_ofInt _ _)
  | max _ ra rb => rw [exec_max]; exact scalar2_alone hs _ rd ra rb (maxS_eq_ofInt _ _)
  | clz _ ra => rw [exec_clz]; exact scalar1_alone hs _ rd ra (by rw [leadingZeros_eq_takeWhile]; rfl)
  | ctz _ ra => rw [exec_ctz]; exact scalar1_alone hs _ rd ra (by simp only [trailingZeros_eq_takeWhile, Nat.zero_add]; rfl)
  | popc _ ra => rw [exec_popc]; exact scalar1_alone hs _ rd ra (by rw [popcount_eq_countP])
  | bext _ ra rb => rw [exec_bext]; exact scalar2_alone hs _ rd ra rb (extractField_eq_ofNat _ _)
  | bins _ ra rb _ bits =>
    rw [exec_bins]
    refine scalar3_alone hs _ rd ra rb (BitVec.eq_of_getLsbD_eq fun j hj => ?_)
    rw [getLsbD_insertField _ _ _ j hj, bits j hj]
  | slt _ ra rb => rw [exec_slt]; exact scalar2_alone hs _ rd ra rb (by rw [BitVec.slt_eq_decide, ofBoolX_decide])
  | sltu _ ra rb => rw [exec_sltu]; exact scalar2_alone hs _ rd ra rb (ofBoolX_decide _)
  | seq _ ra rb => rw [exec_seq]; exact scalar2_alone hs _ rd ra rb (ofBoolX_decide _)
  | sel _ ra rb => rw [exec_sel]; exact scalar3_alone hs _ rd ra rb (ite_not _ _ _)
  | mov _ ra => rw [exec_mov]; exact scalar1_alone hs _ rd ra rfl

/-- Settles O5, by the instruction: the byte written is that of the meaning, and its bits are the rule's. -/
theorem maskResults : Obligations.MaskResults := by
  unfold Obligations.MaskResults
  intro s i md f code h hs
  cases h with
  | vcmp u cc mk _ va vb =>
    have warns : (if u && (decide (cc = 0) || decide (cc = 1)) then (2 : Byte) else 0) =
        if u = true ∧ (cc = 0 ∨ cc = 1) then 2 else 0 := by simp
    rw [exec_vcmp, ← warns]
    refine ⟨_, fun k hk => ?_, run_putM_alone hs md _ _⟩
    rw [getLsbD_maskOf_ofNat _ k hk, laneCompare_eq_holds]
    rfl
  | mand _ ma mb => rw [exec_mand]; exact ⟨_, fun k _ => BitVec.getLsbD_and, mask2_alone hs _ md ma mb⟩
  | mor _ ma mb => rw [exec_mor]; exact ⟨_, fun k _ => BitVec.getLsbD_or, mask2_alone hs _ md ma mb⟩
  | mxor _ ma mb => rw [exec_mxor]; exact ⟨_, fun k _ => BitVec.getLsbD_xor, mask2_alone hs _ md ma mb⟩
  | mnot _ ma => rw [exec_mnot]; exact ⟨_, fun k hk => by simp [hk], mask2_alone hs _ md ma ma⟩
  | mset _ imm => rw [exec_mset]; exact ⟨imm, fun _ _ => rfl, run_putM_alone hs md _ 0⟩

end Sys2Proof.Machine

/-! SUPPORT. Rounding of a magnitude (R111, R112): the integer that the model rounds a magnitude to is the one that the manual's
mode gives, also where only the magnitude's leading bits are known. -/

namespace Sys2Proof.Machine

/-! ## Signs and rounding modes (R28, R103) -/

/-- A magnitude with a sign. -/
def withSign {α : Type} [Neg α] (neg : Bool) (x : α) : α := if neg then -x else x

@[simp] theorem withSign_true {α : Type} [Neg α] (x : α) : withSign true x = -x := by rw [withSign, if_pos rfl]
@[simp] theorem withSign_false {α : Type} [Neg α] (x : α) : withSign false x = x := by rw [withSign, if_neg Bool.false_ne_true]
@[simp] theorem abs_withSign {α : Type} [Lattice α] [AddGroup α] (neg : Bool) (x : α) : |withSign neg x| = |x| := by
  cases neg <;> simp
@[simp] theorem withSign_zero {α : Type} [NegZeroClass α] (neg : Bool) : withSign neg (0 : α) = 0 := by cases neg <;> simp
theorem withSign_mul (neg : Bool) (x c : ℝ) : withSign neg (x * c) = withSign neg x * c := by cases neg <;> simp
@[simp, norm_cast] theorem cast_withSign_rat (neg : Bool) (x : ℚ) : ((withSign neg x : ℚ) : ℝ) = withSign neg (x : ℝ) := by
  cases neg <;> simp
@[simp, norm_cast] theorem cast_withSign_int (neg : Bool) (n : ℤ) : ((withSign neg n : ℤ) : ℝ) = withSign neg (n : ℝ) := by
  cases neg <;> simp

/-- The mode of a code, with the word drawn for stochastic rounding. -/
def modeOf (rm : BitVec 3) (draw : Word) : Rounding :=
  match rm with
  | 1#3 => .rtz
  | 2#3 => .rdn
  | 3#3 => .rup
  | 4#3 => .sr draw
  | _ => .rne

theorem roundingOf_eq_modeOf (rm : BitVec 3) (seed : Dword) (f : Format) (ctr : Dword) :
    roundingOf rm seed f ctr = modeOf rm (srWord seed f ctr) := by
  match rm with
  | 0#3 | 1#3 | 2#3 | 3#3 | 4#3 | 5#3 | 6#3 | 7#3 => rfl

/-- A mode's code is one of the five that are stored (R200). -/
theorem code_cases {rm : BitVec 3} (h : rm.toNat ≤ 4) : rm = 0 ∨ rm = 1 ∨ rm = 2 ∨ rm = 3 ∨ rm = 4 := by
  bv_omega

/-! ## The fraction that decides a rounding (R111, R112) -/

/-- A mode takes the magnitude lo + f, 0 < f < 1, to lo + 1. -/
def Rounding.Away (mode : Rounding) (neg : Bool) (lo : ℕ) (f : ℝ) : Prop :=
  match mode with
  | .rne => 1 / 2 < f ∨ (f = 1 / 2 ∧ lo % 2 = 1)
  | .rtz => False
  | .rdn => neg = true
  | .rup => neg = false
  | .sr w => if neg then ⌊(1 - f) * 2 ^ 32⌋₊ ≤ w.toNat else w.toNat < ⌊f * 2 ^ 32⌋₊

/-- z is num, or with sticky an unknown number strictly between num and num + 1. -/
structure Truncates (num : ℕ) (sticky : Bool) (z : ℝ) : Prop where
  le : (num : ℝ) ≤ z
  lt : z < num + 1
  exact : sticky = false ↔ z = num

theorem truncates_self (num : ℕ) : Truncates num false num := ⟨le_rfl, lt_add_one _, by simp⟩

theorem Truncates.eq {num : ℕ} {z : ℝ} (h : Truncates num false z) : z = num := h.exact.1 rfl
theorem Truncates.lt_self {num : ℕ} {z : ℝ} (h : Truncates num true z) : (num : ℝ) < z :=
  lt_of_le_of_ne h.le fun e => by simpa using h.exact.2 e.symm

/-- A number between rem and rem + 1 is compared with an integer as rem is. -/
theorem Truncates.natCast_lt {num n : ℕ} {sticky : Bool} {z : ℝ} (h : Truncates num sticky z) :
    (n : ℝ) < z ↔ n < num ∨ (n = num ∧ sticky = true) := by
  cases sticky with
  | false => simp [h.eq]
  | true =>
    simp only [and_true, ← le_iff_lt_or_eq]
    refine ⟨fun hn => ?_, fun hn => lt_of_le_of_lt (by exact_mod_cast hn) h.lt_self⟩
    have : (n : ℝ) < num + 1 := hn.trans h.lt
    exact Nat.lt_succ_iff.1 (by exact_mod_cast this)
theorem Truncates.eq_natCast {num n : ℕ} {sticky : Bool} {z : ℝ} (h : Truncates num sticky z) :
    z = n ↔ n = num ∧ sticky = false := by
  refine ⟨fun e => ?_, fun ⟨e, hs⟩ => by rw [e]; exact h.exact.1 hs⟩
  have lo : num ≤ n := by have := h.le; rw [e] at this; exact_mod_cast this
  have hi : n < num + 1 := by have := h.lt; rw [e] at this; exact_mod_cast this
  obtain rfl : n = num := by omega
  exact ⟨rfl, h.exact.2 e⟩

/-- The quotient by a power of two, and the remainder, of a number known up to one unit. -/
theorem Truncates.fraction {num : ℕ} {sticky : Bool} {z : ℝ} (h : Truncates num sticky z) (s : ℕ) :
    Truncates (num % 2 ^ s) sticky (z - (num / 2 ^ s : ℕ) * 2 ^ s) := by
  have split : (num : ℝ) = (num / 2 ^ s : ℕ) * 2 ^ s + (num % 2 ^ s : ℕ) := by
    exact_mod_cast (Nat.div_add_mod' num (2 ^ s)).symm
  refine ⟨by linarith [h.le], by linarith [h.lt], h.exact.trans ?_⟩
  constructor <;> intro e <;> linarith

/-- Twice a remainder against 2^s, where a sticky one has at least one bit below. -/
theorem Truncates.half_iff {rem s : ℕ} {sticky : Bool} {d : ℝ} (h : Truncates rem sticky d) (hs : sticky = true → 1 ≤ s) :
    (1 / 2 < d / 2 ^ s ↔ 2 ^ s < 2 * rem ∨ (2 * rem = 2 ^ s ∧ sticky = true)) ∧
      (d / 2 ^ s = 1 / 2 ↔ 2 * rem = 2 ^ s ∧ sticky = false) := by
  have pos : (0 : ℝ) < 2 ^ s := by positivity
  rcases Nat.eq_zero_or_pos s with rfl | hpos
  · have exact : sticky = false := by cases sticky <;> simp_all
    subst exact
    rw [h.eq]
    constructor
    · simp only [pow_zero, div_one, Bool.false_eq_true, and_false, or_false]
      constructor
      · intro hr; have : (1 : ℝ) < 2 * rem := by linarith
        exact_mod_cast this
      · intro hr; have : (1 : ℝ) < 2 * rem := by exact_mod_cast hr
        linarith
    · simp only [pow_zero, div_one, and_true]
      constructor
      · intro hr; have : (2 : ℝ) * rem = 1 := by linarith
        exact_mod_cast this
      · intro hr; omega
  · obtain ⟨k, rfl⟩ : ∃ k, s = k + 1 := ⟨s - 1, by omega⟩
    have below : 1 / 2 < d / 2 ^ (k + 1) ↔ ((2 ^ k : ℕ) : ℝ) < d := by
      rw [div_lt_div_iff₀ (by norm_num) pos, pow_succ]; push_cast; constructor <;> intro _ <;> linarith
    have equal : d / 2 ^ (k + 1) = 1 / 2 ↔ d = ((2 ^ k : ℕ) : ℝ) := by
      rw [div_eq_div_iff pos.ne' (by norm_num), pow_succ]; push_cast; constructor <;> intro _ <;> linarith
    rw [below, equal, h.natCast_lt, h.eq_natCast, pow_succ]
    exact ⟨or_congr (by omega) (and_congr_left fun _ => by omega), and_congr_left fun _ => by omega⟩

/-- The first 32 bits of a fraction known up to one unit of at most its 32nd bit. -/
theorem Truncates.floor_scaled {rem s : ℕ} {sticky : Bool} {d : ℝ} (h : Truncates rem sticky d) (hs : sticky = true → 32 ≤ s) :
    ⌊d / 2 ^ s * 2 ^ 32⌋₊ = rem * 2 ^ 32 / 2 ^ s := by
  cases sticky with
  | false =>
    rw [h.eq, div_mul_eq_mul_div, ← Nat.floor_div_eq_div (K := ℝ)]; norm_num
  | true =>
    obtain ⟨k, rfl⟩ : ∃ k, s = k + 32 := ⟨s - 32, by have := hs rfl; omega⟩
    have low : d / 2 ^ (k + 32) * 2 ^ 32 = d / ((2 ^ k : ℕ) : ℝ) := by push_cast; rw [pow_add]; field_simp
    have floor : ⌊d⌋₊ = rem := (Nat.floor_eq_iff (le_trans (by positivity) h.le)).2 ⟨h.le, h.lt⟩
    rw [low, Nat.floor_div_natCast, floor, pow_add, Nat.mul_div_mul_right _ _ (by positivity)]

theorem Truncates.floor_rest {rem s : ℕ} {sticky : Bool} {d : ℝ} (h : Truncates rem sticky d) (hs : sticky = true → 32 ≤ s)
    (hr : rem < 2 ^ s) :
    ⌊(1 - d / 2 ^ s) * 2 ^ 32⌋₊ =
      2 ^ 32 - (if sticky then rem * 2 ^ 32 / 2 ^ s + 1 else (rem * 2 ^ 32 + 2 ^ s - 1) / 2 ^ s) := by
  have pos : (0 : ℝ) < 2 ^ s := by positivity
  have upto : d ≤ 2 ^ s := le_trans h.lt.le (by exact_mod_cast hr)
  rw [Nat.floor_eq_iff (mul_nonneg (by rw [sub_nonneg, div_le_one pos]; exact upto) (by positivity))]
  cases sticky with
  | false =>
    set c := (rem * 2 ^ 32 + 2 ^ s - 1) / 2 ^ s with hc
    have npos : 0 < 2 ^ s := by positivity
    have upper : rem * 2 ^ 32 ≤ c * 2 ^ s := by
      have := Nat.lt_div_mul_add npos (a := rem * 2 ^ 32 + 2 ^ s - 1); rw [← hc] at this; omega
    have lower : c * 2 ^ s < rem * 2 ^ 32 + 2 ^ s := by
      have := Nat.div_mul_le_self (rem * 2 ^ 32 + 2 ^ s - 1) (2 ^ s); rw [← hc] at this; omega
    have small : c ≤ 2 ^ 32 := by
      by_contra big
      have : (2 ^ 32 + 1) * 2 ^ s ≤ c * 2 ^ s := Nat.mul_le_mul_right _ (by omega)
      nlinarith
    have upper' : (rem : ℝ) * 2 ^ 32 ≤ c * 2 ^ s := by exact_mod_cast upper
    have lower' : (c : ℝ) * 2 ^ s < rem * 2 ^ 32 + 2 ^ s := by exact_mod_cast lower
    have scaled : (1 - d / 2 ^ s) * 2 ^ 32 = 2 ^ 32 - rem * 2 ^ 32 / 2 ^ s := by rw [h.eq]; ring
    simp only [Bool.false_eq_true, if_false]
    rw [scaled, Nat.cast_sub small]
    push_cast
    constructor
    · have : (rem : ℝ) * 2 ^ 32 / 2 ^ s ≤ c := by rw [div_le_iff₀ pos]; exact upper'
      linarith
    · have : (c : ℝ) - 1 < (rem : ℝ) * 2 ^ 32 / 2 ^ s := by rw [lt_div_iff₀ pos]; linarith
      linarith
  | true =>
    obtain ⟨k, rfl⟩ : ∃ k, s = k + 32 := ⟨s - 32, by have := hs rfl; omega⟩
    have kpos : 0 < 2 ^ k := by positivity
    set c := rem * 2 ^ 32 / 2 ^ (k + 32) with hc
    have cut : c = rem / 2 ^ k := by rw [hc, pow_add, Nat.mul_div_mul_right _ _ (by positivity)]
    have lower : c * 2 ^ k ≤ rem := by rw [cut]; exact Nat.div_mul_le_self _ _
    have upper : rem + 1 ≤ (c + 1) * 2 ^ k := by rw [cut]; have := Nat.lt_div_mul_add kpos (a := rem); linarith
    have small : c + 1 ≤ 2 ^ 32 := by
      have : c * 2 ^ k < 2 ^ 32 * 2 ^ k := by rw [← pow_add, Nat.add_comm 32]; omega
      exact Nat.lt_of_mul_lt_mul_right this
    have scaled : (1 - d / 2 ^ (k + 32)) * 2 ^ 32 = 2 ^ 32 - d / 2 ^ k := by rw [pow_add]; field_simp
    have lower' : (c : ℝ) * 2 ^ k ≤ rem := by exact_mod_cast lower
    have upper' : (rem : ℝ) + 1 ≤ (c + 1) * 2 ^ k := by exact_mod_cast upper
    have kpos' : (0 : ℝ) < 2 ^ k := by positivity
    simp only [if_true]
    rw [scaled, Nat.cast_sub small]
    push_cast
    constructor
    · have : d / 2 ^ k ≤ c + 1 := by rw [div_le_iff₀ kpos']; linarith [h.lt]
      linarith
    · have : (c : ℝ) < d / 2 ^ k := by rw [lt_div_iff₀ kpos']; linarith [h.lt_self]
      linarith

/-- The decision of a rounding from the remainder below 2^s is that of the mode. -/
theorem roundsUp_iff (mode : Rounding) (neg : Bool) (lo : ℕ) {rem s : ℕ} {sticky : Bool} {d : ℝ}
    (h : Truncates rem sticky d) (hs : sticky = true → 32 ≤ s) (hr : rem < 2 ^ s) :
    roundsUp mode neg lo rem s sticky = true ↔ mode.Away neg lo (d / 2 ^ s) := by
  cases mode with
  | rne =>
    obtain ⟨above, equal⟩ := h.half_iff fun e => le_trans (by norm_num) (hs e)
    simp only [roundsUp, Rounding.Away, above, equal, Bool.or_eq_true, Bool.and_eq_true, decide_eq_true_eq]
    cases sticky <;> simp
  | rtz => simp [roundsUp, Rounding.Away]
  | rdn => simp [roundsUp, Rounding.Away]
  | rup => simp [roundsUp, Rounding.Away]
  | sr w =>
    cases neg with
    | false => simp only [roundsUp, Rounding.Away, Bool.false_eq_true, if_false, decide_eq_true_eq, h.floor_scaled hs]
    | true =>
      simp only [roundsUp, Rounding.Away, if_true, h.floor_rest hs hr, Bool.not_eq_true', decide_eq_false_iff_not, not_lt]

/-! ## Rounding to an integer (R111, R112) -/

/-- An integer rounds to itself. -/
theorem roundsTo_intCast (rm : BitVec 3) (draw : Word) (n : ℤ) : Claims.RoundsTo rm draw n n :=
  ⟨n, le_rfl, lt_add_one _, fun _ => rfl, fun h => absurd rfl h⟩

/-- A rounding keeps integer bounds. -/
theorem le_of_roundsTo {rm : BitVec 3} {draw : Word} {x : ℝ} {n a : ℤ} (h : Claims.RoundsTo rm draw x n) (ha : (a : ℝ) ≤ x) :
    a ≤ n := by
  obtain ⟨lo, _, hi, on, off⟩ := h
  have : a ≤ lo := by have : (a : ℝ) < lo + 1 := lt_of_le_of_lt ha hi
                      exact Int.lt_add_one_iff.1 (by exact_mod_cast this)
  by_cases e : x = lo
  · rwa [on e]
  · rcases (off e).1 with rfl | rfl <;> omega
theorem roundsTo_le {rm : BitVec 3} {draw : Word} {x : ℝ} {n a : ℤ} (h : Claims.RoundsTo rm draw x n) (ha : x ≤ a) :
    n ≤ a := by
  obtain ⟨lo, low, _, on, off⟩ := h
  by_cases e : x = lo
  · rw [on e]; exact_mod_cast low.trans ha
  · have : lo < a := by exact_mod_cast (lt_of_le_of_ne low (Ne.symm e)).trans_le ha
    rcases (off e).1 with rfl | rfl <;> omega

/-- The decision of a mode for the magnitude lo + f is the manual's for the number of its sign. -/
theorem roundsTo_of_away {rm : BitVec 3} (hrm : rm.toNat ≤ 4) (draw : Word) (neg : Bool) {lo q : ℕ} {f : ℝ} (h0 : 0 < f) (h1 : f < 1)
    (hq : ((modeOf rm draw).Away neg lo f → q = lo + 1) ∧ (¬(modeOf rm draw).Away neg lo f → q = lo)) :
    Claims.RoundsTo rm draw (withSign neg (lo + f)) (withSign neg (q : ℤ)) := by
  have drawn (g : ℝ) (hg : 0 ≤ g) :
      (∃ k : ℕ, (k : ℝ) ≤ g * 2 ^ 32 ∧ g * 2 ^ 32 < k + 1 ∧ draw.toNat < k) ↔ draw.toNat < ⌊g * 2 ^ 32⌋₊ := by
    have nonneg : 0 ≤ g * 2 ^ 32 := by positivity
    constructor
    · rintro ⟨k, low, high, hk⟩; rwa [(Nat.floor_eq_iff nonneg).2 ⟨low, high⟩]
    · intro hk; exact ⟨_, Nat.floor_le nonneg, Nat.lt_floor_add_one _, hk⟩
  cases neg with
  | false =>
    refine ⟨lo, ?_, ?_, fun e => ?_, fun _ => ⟨?_, ?_⟩⟩
    · simp; exact h0.le
    · simpa using h1
    · simp at e; exact absurd e h0.ne'
    · simp only [withSign_false]; by_cases a : (modeOf rm draw).Away false lo f
      · right; rw [hq.1 a]; push_cast; rfl
      · left; rw [hq.2 a]
    · have up : (withSign false (q : ℤ) = (lo : ℤ) + 1) ↔ (modeOf rm draw).Away false lo f := by
        by_cases a : (modeOf rm draw).Away false lo f
        · simp [a, hq.1 a]
        · simp [a, hq.2 a]
      have cmp : ((lo : ℝ) + 1 / 2 < lo + f ↔ 1 / 2 < f) := by constructor <;> intro _ <;> linarith
      have eqv : ((lo : ℝ) + f = lo + 1 / 2 ↔ f = 1 / 2) := by constructor <;> intro _ <;> linarith
      rw [up]
      simp only [withSign_false, Int.cast_natCast, add_sub_cancel_left, drawn f h0.le, cmp, eqv]
      have odd : ((lo : ℤ) % 2 = 1) ↔ lo % 2 = 1 := by omega
      have nonneg : ¬ (lo : ℤ) < 0 := by omega
      rw [odd]
      rcases code_cases hrm with rfl | rfl | rfl | rfl | rfl <;> simp [modeOf, Rounding.Away, nonneg]
  | true =>
    refine ⟨-(lo + 1 : ℤ), ?_, ?_, fun e => ?_, fun _ => ⟨?_, ?_⟩⟩
    · simp; linarith
    · simp; linarith
    · simp at e; linarith
    · simp only [withSign_true]; by_cases a : (modeOf rm draw).Away true lo f
      · left; rw [hq.1 a]; push_cast; ring
      · right; rw [hq.2 a]; ring
    · have down : (withSign true (q : ℤ) = -((lo : ℤ) + 1) + 1) ↔ ¬(modeOf rm draw).Away true lo f := by
        by_cases a : (modeOf rm draw).Away true lo f
        · simp [a, hq.1 a]
        · simp [a, hq.2 a]
      have cmp : (((-((lo : ℤ) + 1) : ℤ) : ℝ) + 1 / 2 < -(lo + f) ↔ f < 1 / 2) := by
        push_cast; constructor <;> intro _ <;> linarith
      have eqv : (-((lo : ℝ) + f) = ((-((lo : ℤ) + 1) : ℤ) : ℝ) + 1 / 2 ↔ f = 1 / 2) := by
        push_cast; constructor <;> intro _ <;> linarith
      have rest : -((lo : ℝ) + f) - ((-((lo : ℤ) + 1) : ℤ) : ℝ) = 1 - f := by push_cast; ring
      rw [down]
      simp only [withSign_true, rest, drawn (1 - f) (by linarith), cmp, eqv]
      have odd : (-((lo : ℤ) + 1) % 2 = 1) ↔ ¬ lo % 2 = 1 := by omega
      rw [odd]
      rcases code_cases hrm with rfl | rfl | rfl | rfl | rfl <;> simp [modeOf, Rounding.Away, -not_lt]
      · rw [not_lt, le_iff_lt_or_eq]
        constructor
        · rintro ⟨lt | rfl, even⟩
          · exact Or.inl lt
          · exact Or.inr ⟨rfl, by simpa using even rfl⟩
        · rintro (lt | ⟨rfl, even⟩)
          · exact ⟨Or.inl lt, fun e => absurd e lt.ne⟩
          · exact ⟨Or.inr rfl, fun _ => by simpa using even⟩
      · omega

/-- A magnitude rounded to a multiple of 2^unit: the multiple is the mode's, and it is inexact where it differs. -/
theorem roundTo_roundsTo {rm : BitVec 3} (hrm : rm.toNat ≤ 4) (draw : Word) (neg : Bool) {num : ℕ} {exp unit : ℤ}
    {sticky : Bool} {z : ℝ} (h : Truncates num sticky z) (hs : sticky = true → exp + 32 ≤ unit) :
    Claims.RoundsTo rm draw (withSign neg (z * 2 ^ (exp - unit)))
        (withSign neg ((roundTo (modeOf rm draw) neg num exp sticky unit).1 : ℤ)) ∧
      ((roundTo (modeOf rm draw) neg num exp sticky unit).2 = false ↔
        ((roundTo (modeOf rm draw) neg num exp sticky unit).1 : ℝ) = z * 2 ^ (exp - unit)) := by
  have whole {q : ℕ} (hq : z * 2 ^ (exp - unit) = (q : ℝ)) :
      Claims.RoundsTo rm draw (withSign neg (z * 2 ^ (exp - unit))) (withSign neg (q : ℤ)) := by
    have := roundsTo_intCast rm draw (withSign neg (q : ℤ))
    rwa [cast_withSign_int, Int.cast_natCast, ← hq] at this
  by_cases up : unit ≤ exp ∧ sticky = false
  · obtain ⟨le, rfl⟩ := up
    have value : z * 2 ^ (exp - unit) = ((num * 2 ^ (exp - unit).toNat : ℕ) : ℝ) := by
      rw [h.eq]; push_cast; rw [← zpow_natCast, Int.toNat_of_nonneg (by omega)]
    have result : roundTo (modeOf rm draw) neg num exp false unit = (num * 2 ^ (exp - unit).toNat, false) := by
      simp [roundTo, le]
    rw [result]
    exact ⟨whole value, by simpa using value.symm⟩
  · obtain ⟨s, rfl⟩ : ∃ s : ℕ, unit = exp + s := by
      refine ⟨(unit - exp).toNat, ?_⟩
      cases sticky
      · have : ¬unit ≤ exp := by simpa using up
        omega
      · have := hs rfl; omega
    have hs' : sticky = true → 32 ≤ s := fun e => by have := hs e; omega
    have scale : z * 2 ^ (exp - (exp + s)) = z / 2 ^ s := by
      rw [show exp - (exp + (s : ℤ)) = -(s : ℤ) by ring, zpow_neg, zpow_natCast, div_eq_mul_inv]
    have shift : (exp + (s : ℤ) - exp).toNat = s := by omega
    have notUp : ¬((decide (exp + (s : ℤ) ≤ exp) && !sticky) = true) := by simpa using up
    set lo := num / 2 ^ s with hlo
    have part := h.fraction s
    rw [← hlo] at part
    set d := z - (lo : ℝ) * 2 ^ s with hd
    have pos : (0 : ℝ) < 2 ^ s := by positivity
    have parts : z / 2 ^ s = lo + d / 2 ^ s := by rw [hd]; field_simp; ring
    have below : num % 2 ^ s < 2 ^ s := Nat.mod_lt _ (by positivity)
    rw [scale]
    by_cases exact : num % 2 ^ s = 0 ∧ sticky = false
    · have result : roundTo (modeOf rm draw) neg num exp sticky (exp + s) = (lo, false) := by
        unfold roundTo
        rw [if_neg notUp, shift]
        simp [exact, hlo]
      have value : z / 2 ^ s = (lo : ℝ) := by
        rw [parts, part.exact.1 exact.2, exact.1]; simp
      rw [result]
      rw [scale] at whole
      exact ⟨whole value, by simpa using value.symm⟩
    · have fpos : 0 < d / 2 ^ s := by
        apply div_pos _ pos
        rcases sticky with _ | _
        · have : 0 < num % 2 ^ s := Nat.pos_of_ne_zero fun e => exact ⟨e, rfl⟩
          rw [part.eq]; exact_mod_cast this
        · exact lt_of_le_of_lt (Nat.cast_nonneg _) part.lt_self
      have flt : d / 2 ^ s < 1 := by
        rw [div_lt_one pos]
        exact lt_of_lt_of_le part.lt (by exact_mod_cast below)
      have result : roundTo (modeOf rm draw) neg num exp sticky (exp + s) =
          (if roundsUp (modeOf rm draw) neg lo (num % 2 ^ s) s sticky then lo + 1 else lo, true) := by
        unfold roundTo
        rw [if_neg notUp, shift]
        simp only [← hlo]
        rw [if_neg (by simpa using exact)]
      have up := roundsUp_iff (modeOf rm draw) neg lo part hs' below
      rw [result, parts]
      refine ⟨roundsTo_of_away hrm draw neg fpos flt ⟨fun a => if_pos (up.2 a), fun a => if_neg (mt up.1 a)⟩, ?_⟩
      simp only [Bool.true_eq_false, false_iff]
      split
      · push_cast; linarith
      · linarith

end Sys2Proof.Machine

/-! SUPPORT. Number formats (R99, R104, R105): a format is its row of the manual's table, its codes stand for their magnitudes, and
a finite magnitude converts to the code of the magnitude rounded (R113). -/

namespace Sys2Proof.Machine

/-! ## Formats as the manual's tables have them (R99, R104, R105) -/

/-- A floating-point format's row of the tables. -/
def Format.shape (f : Format) : Claims.Shape :=
  ⟨f.width, f.mant, f.bias, f.maxCode, f.infinity, if f = .e2m1 then none else some f.nan, f.cell.toNat⟩
@[simp] theorem Format.shape_mant (f : Format) : f.shape.mant = f.mant := rfl
@[simp] theorem Format.shape_bias (f : Format) : f.shape.bias = f.bias := rfl
/-- A format's row. -/
def Format.row (f : Format) : Claims.Fmt := if f.isInt then .int f.width f.cell.toNat else .float f.shape

theorem Format.row_width (f : Format) : f.row.width = f.width := by cases f <;> rfl
theorem Format.row_cell (f : Format) : f.row.cell = f.cell.toNat := by cases f <;> rfl
theorem Format.row_fp32 : Format.fp32.row = .float Claims.fp32 := rfl
theorem Format.row_of_float {f : Format} (h : f.isInt = false) : f.row = .float f.shape := by simp [Format.row, h]
theorem Format.row_of_int {f : Format} (h : f.isInt = true) : f.row = .int f.width f.cell.toNat := by simp [Format.row, h]

/-- The formats of the FMT4 codes are the rows of the table. -/
theorem row_of_formats {fmt : BitVec 4} {F : Claims.Fmt} (h : Claims.formats[fmt.toNat]? = some F) : F = (formatOf4 fmt).row := by
  match fmt with
  | 0#4 | 1#4 | 2#4 | 3#4 | 4#4 | 5#4 | 6#4 | 7#4 | 8#4 => exact (Option.some.inj h).symm
  | 9#4 | 10#4 | 11#4 | 12#4 | 13#4 | 14#4 | 15#4 => simp [Claims.formats] at h

/-- The codes of magnitudes lie below the sign bit. -/
theorem Format.codes (f : Format) :
    f.maxCode < 2 ^ (f.width - 1) ∧ f.nan < 2 ^ (f.width - 1) ∧ ∀ c ∈ f.infinity, c < 2 ^ (f.width - 1) := by
  cases f <;> decide
theorem Format.width_pos (f : Format) : 1 ≤ f.width := by cases f <;> decide
theorem Format.two_pow_width (f : Format) : 2 ^ f.width = 2 * 2 ^ (f.width - 1) := by
  rw [← pow_succ', Nat.sub_add_cancel f.width_pos]

theorem signed_lt {f : Format} (neg : Bool) {c : ℕ} (h : c < 2 ^ (f.width - 1)) : signed f neg c < 2 ^ f.width := by
  rw [f.two_pow_width]; unfold signed; split <;> omega
theorem claims_signed (f : Format) (neg : Bool) (c : ℕ) : Claims.signed f.shape neg c = signed f neg c := by
  cases neg
  · rfl
  · exact Nat.add_comm _ _

/-! ## Magnitudes of codes (R104) -/

section
variable (f : Claims.Shape)

/-- A significand q in units of 2^(u + 1 − bias − mant), as a code: with q = 2^(mant + 1) the next exponent's first. -/
theorem magnitude_add {u q : ℕ} (hq : q ≤ 2 ^ (f.mant + 1)) (hu : u = 0 ∨ 2 ^ f.mant ≤ q) :
    Claims.magnitude f (u * 2 ^ f.mant + q) = q * 2 ^ ((u : ℤ) + 1 - f.bias - f.mant) := by
  have pos : 0 < 2 ^ f.mant := by positivity
  rw [pow_succ] at hq
  unfold Claims.magnitude
  by_cases small : q < 2 ^ f.mant
  · obtain rfl : u = 0 := by omega
    simp [Nat.div_eq_of_lt small, Nat.mod_eq_of_lt small]
  · obtain ⟨r, rfl⟩ := Nat.exists_eq_add_of_le (not_lt.1 small)
    by_cases carry : r = 2 ^ f.mant
    · subst carry
      have total : u * 2 ^ f.mant + (2 ^ f.mant + 2 ^ f.mant) = (u + 2) * 2 ^ f.mant := by ring
      simp only [total, Nat.mul_div_cancel _ pos, Nat.mul_mod_left]
      rw [if_neg (by omega)]
      push_cast
      rw [show (u : ℤ) + 2 - f.bias - f.mant = (u + 1 - f.bias - f.mant) + 1 by ring, zpow_add₀ two_ne_zero]
      ring
    · have rlt : r < 2 ^ f.mant := by omega
      have total : u * 2 ^ f.mant + (2 ^ f.mant + r) = r + (u + 1) * 2 ^ f.mant := by ring
      simp only [total, Nat.add_mul_div_right _ _ pos, Nat.add_mul_mod_self_right, Nat.div_eq_of_lt rlt, Nat.mod_eq_of_lt rlt]
      rw [if_neg (by omega)]
      push_cast
      ring_nf

/-- Every code is a significand of at most mant + 1 bits in its units. -/
theorem code_split (c : ℕ) : ∃ u q, c = u * 2 ^ f.mant + q ∧ q < 2 ^ (f.mant + 1) ∧ (u = 0 ∨ 2 ^ f.mant ≤ q) := by
  have pos : 0 < 2 ^ f.mant := by positivity
  have low : c % 2 ^ f.mant < 2 ^ f.mant := Nat.mod_lt _ pos
  have parts := Nat.div_add_mod' c (2 ^ f.mant)
  rw [pow_succ]
  rcases h : c / 2 ^ f.mant with _ | e
  · exact ⟨0, c % 2 ^ f.mant, by rw [h] at parts; omega, by omega, Or.inl rfl⟩
  · exact ⟨e, 2 ^ f.mant + c % 2 ^ f.mant, by rw [h] at parts; rw [← parts]; ring_nf; simp, by omega, Or.inr (by omega)⟩

theorem magnitude_strictMono : StrictMono (Claims.magnitude f) := by
  refine strictMono_nat_of_lt_succ fun c => ?_
  obtain ⟨u, q, rfl, hq, hu⟩ := code_split f c
  rw [magnitude_add f hq.le hu, add_assoc, magnitude_add f hq (hu.imp_right fun h => by omega)]
  push_cast
  have : (0 : ℚ) < 2 ^ ((u : ℤ) + 1 - f.bias - f.mant) := by positivity
  linarith
theorem magnitude_zero : Claims.magnitude f 0 = 0 := by simp [Claims.magnitude]
theorem magnitude_nonneg (c : ℕ) : 0 ≤ Claims.magnitude f c := by
  rw [← magnitude_zero f]; exact (magnitude_strictMono f).monotone (Nat.zero_le c)
theorem magnitude_eq_zero {c : ℕ} : Claims.magnitude f c = 0 ↔ c = 0 := by
  rw [← magnitude_zero f]; exact (magnitude_strictMono f).injective.eq_iff
/-- The first code that is not subnormal. -/
theorem magnitude_two_pow_mant : Claims.magnitude f (2 ^ f.mant) = 2 ^ (1 - (f.bias : ℤ)) := by
  have := magnitude_add f (u := 0) (q := 2 ^ f.mant) (Nat.pow_le_pow_right (by decide) (Nat.le_succ _)) (Or.inl rfl)
  rw [zero_mul, zero_add] at this
  rw [this]
  push_cast
  rw [← zpow_natCast, ← zpow_add₀ two_ne_zero]
  congr 1
  ring

end

/-! ## Conversion of a finite magnitude (R113) -/

/-- What a conversion makes of the code of a rounded magnitude. -/
def codeResult (f : Format) (sat ftz neg : Bool) (code : ℕ) (inexact tiny : Bool) : Converted :=
  if f.maxCode < code then
    let fl := flagOverflow ||| flagInexact
    if sat || f = .e2m1 then ⟨signed f neg f.maxCode, fl⟩
    else match f.infinity with
      | some c => ⟨signed f neg c, fl⟩
      | none => ⟨f.nan, fl⟩
  else if ftz && code ≠ 0 && decide (code < 2 ^ f.mant) then ⟨signed f neg 0, flagUnderflow ||| flagInexact⟩
  else ⟨signed f neg code, if inexact then (if tiny then flagInexact ||| flagUnderflow else flagInexact) else 0⟩

theorem codeResult_overflow {f : Format} (sat ftz neg : Bool) {code : ℕ} (inexact tiny : Bool) (h : f.maxCode < code) :
    codeResult f sat ftz neg code inexact tiny = ⟨match f.shape.inf, f.shape.nan, sat with
      | some i, _, false => signed f neg i
      | none, some m, false => m
      | _, _, _ => signed f neg f.maxCode, 5⟩ := by
  rw [codeResult, if_pos h]
  cases f <;> cases sat <;> rfl
theorem codeResult_flushed {f : Format} (sat neg : Bool) {code : ℕ} (inexact tiny : Bool) (h : code < 2 ^ f.mant) (h0 : code ≠ 0)
    (hmax : code ≤ f.maxCode) : codeResult f sat true neg code inexact tiny = ⟨signed f neg 0, 3⟩ := by
  rw [codeResult, if_neg (not_lt.2 hmax)]
  simp [h, h0, flagUnderflow, flagInexact]
theorem codeResult_kept {f : Format} (sat ftz neg : Bool) {code : ℕ} (inexact tiny : Bool) (hmax : code ≤ f.maxCode)
    (h : ¬(ftz = true ∧ code ≠ 0 ∧ code < 2 ^ f.mant)) :
    codeResult f sat ftz neg code inexact tiny =
      ⟨signed f neg code, if inexact then (if tiny then 3 else 1) else 0⟩ := by
  rw [codeResult, if_neg (not_lt.2 hmax), if_neg (by simpa [and_assoc] using h)]
  rfl

/-- The code of e rounded to n units of 2^k is e's conversion (R113). -/
theorem cvtReal_of_code {f : Format} {rm : BitVec 3} {draw : Word} (sat ftz neg : Bool) {code : ℕ} {inexact tiny : Bool} {n k : ℤ}
    {e : ℝ} (grid : 1 - (f.bias : ℤ) - f.mant ≤ k) (high : |e| < 2 ^ (k + f.mant + 1))
    (low : k = 1 - (f.bias : ℤ) - f.mant ∨ 2 ^ (k + f.mant) ≤ |e|) (rounds : Claims.RoundsTo rm draw (e / 2 ^ k) n)
    (value : (Claims.magnitude f.shape code : ℝ) = |(n : ℝ) * 2 ^ k|) (hin : inexact = false ↔ (n : ℝ) * 2 ^ k = e)
    (htiny : tiny = true ↔ |e| < 2 ^ (1 - (f.bias : ℤ))) :
    Claims.CvtReal f.shape rm draw sat ftz neg e (codeResult f sat ftz neg code inexact tiny).bits
      (codeResult f sat ftz neg code inexact tiny).flags := by
  refine ⟨k, n, grid, high, low, rounds, ?_⟩
  intro q top small
  have mono := magnitude_strictMono f.shape
  have beyond : top < |q| ↔ f.maxCode < code := by
    rw [← value, Rat.cast_lt, mono.lt_iff_lt]; rfl
  have within : |q| ≤ top ↔ code ≤ f.maxCode := by rw [← not_lt, beyond, not_lt]
  have sub : |q| < small ↔ code < 2 ^ f.mant := by
    have edge : small = ((Claims.magnitude f.shape (2 ^ f.shape.mant) : ℚ) : ℝ) := by
      rw [magnitude_two_pow_mant f.shape]; push_cast; rfl
    rw [edge, ← value, Rat.cast_lt, mono.lt_iff_lt]; rfl
  have zero : n ≠ 0 ↔ code ≠ 0 := by
    rw [not_iff_not, ← magnitude_eq_zero f.shape, ← Rat.cast_eq_zero (α := ℝ), value, abs_eq_zero, mul_eq_zero]
    simp [zpow_ne_zero]
  rw [beyond, within, sub, zero]
  simp only [claims_signed]
  refine ⟨fun h => ?_, fun hmax hftz h0 h => ?_, fun hmax h => ?_⟩
  · rw [codeResult_overflow sat ftz neg inexact tiny h]
    exact ⟨rfl, rfl⟩
  · subst hftz
    rw [codeResult_flushed sat neg inexact tiny h h0 hmax]
    exact ⟨rfl, rfl⟩
  · rw [codeResult_kept sat ftz neg inexact tiny hmax h]
    refine ⟨⟨code, hmax, value, rfl⟩, fun h => ?_, fun h hs => ?_, fun h hs => ?_⟩
    · simp [hin.2 h]
    · have : inexact = true := by simpa using mt hin.1 h
      simp [this, htiny.2 hs]
    · have rounded : inexact = true := by simpa using mt hin.1 h
      have normal : tiny = false := by simpa using mt htiny.1 (not_lt.2 hs)
      simp [rounded, normal]

theorem bitLength_pos {n : ℕ} (h : n ≠ 0) : 1 ≤ bitLength n := by simp [bitLength, h]
theorem two_pow_bitLength_le {n : ℕ} (h : n ≠ 0) : 2 ^ (bitLength n - 1) ≤ n := by
  simpa [bitLength, h] using Nat.log2_self_le h
theorem lt_two_pow_bitLength (n : ℕ) : n < 2 ^ bitLength n := by
  by_cases h : n = 0
  · simp [h, bitLength]
  · simpa [bitLength, h] using Nat.lt_log2_self

/-- A magnitude that is num in its leading bits lies in num's binade. -/
theorem Truncates.binade {num : ℕ} {sticky : Bool} {z : ℝ} (h : Truncates num sticky z) (h0 : num ≠ 0) (exp : ℤ) :
    (2 : ℝ) ^ (exp + bitLength num - 1) ≤ z * 2 ^ exp ∧ z * 2 ^ exp < 2 ^ (exp + bitLength num) := by
  have low : ((2 ^ (bitLength num - 1) : ℕ) : ℝ) ≤ z := le_trans (by exact_mod_cast two_pow_bitLength_le h0) h.le
  have high : z < ((2 ^ bitLength num : ℕ) : ℝ) := lt_of_lt_of_le h.lt (by exact_mod_cast lt_two_pow_bitLength num)
  have scale : (0 : ℝ) < 2 ^ exp := by positivity
  constructor
  · rw [show exp + (bitLength num : ℤ) - 1 = ((bitLength num - 1 : ℕ) : ℤ) + exp by have := bitLength_pos h0; omega,
      zpow_add₀ two_ne_zero, zpow_natCast]
    push_cast at low
    exact mul_le_mul_of_nonneg_right low scale.le
  · rw [add_comm, zpow_add₀ two_ne_zero, zpow_natCast]
    push_cast at high
    exact mul_lt_mul_of_pos_right high scale

theorem convertFinite_zero (f : Format) (mode : Rounding) (sat ftz neg : Bool) (exp : ℤ) :
    convertFinite f mode sat ftz neg 0 exp false = ⟨signed f neg 0, 0⟩ := rfl

/-- The exponent of a format's grid at a magnitude of leading exponent e (R113). -/
def gridUnit (f : Format) (e : ℤ) : ℤ := max e (1 - f.bias) - f.mant

theorem convertFinite_eq (f : Format) (mode : Rounding) (sat ftz neg : Bool) {num : ℕ} (exp : ℤ) {sticky : Bool}
    (h0 : ¬(num = 0 ∧ sticky = false)) :
    convertFinite f mode sat ftz neg num exp sticky =
      let e := exp + bitLength num - 1
      let r := roundTo mode neg num exp sticky (gridUnit f e)
      codeResult f sat ftz neg ((gridUnit f e - (1 - f.bias - f.mant)).toNat * 2 ^ f.mant + r.1) r.2 (decide (e < 1 - f.bias)) := by
  unfold convertFinite
  rw [if_neg (by simpa using h0)]
  simp only [codeResult, gridUnit, decide_eq_true_eq]
  rfl

/-- A conversion of the magnitude z·2^exp is that of R113; a sticky one is known to 32 bits beyond the significand. -/
theorem convertFinite_cvtReal {f : Format} {rm : BitVec 3} (hrm : rm.toNat ≤ 4) (draw : Word) (sat ftz neg : Bool)
    {num : ℕ} {exp : ℤ} {sticky : Bool} {z : ℝ} (h : Truncates num sticky z) (hs : sticky = true → 2 ^ (f.mant + 32) ≤ num) :
    Claims.CvtReal f.shape rm draw sat ftz neg (withSign neg (z * 2 ^ exp))
      (convertFinite f (modeOf rm draw) sat ftz neg num exp sticky).bits
      (convertFinite f (modeOf rm draw) sat ftz neg num exp sticky).flags := by
  have emin : (1 : ℤ) - f.shape.bias - f.shape.mant = 1 - f.bias - f.mant := rfl
  by_cases h0 : num = 0
  · subst h0
    have exact : sticky = false := by
      cases sticky
      · rfl
      · have := hs rfl; simp at this
    subst exact
    rw [h.eq, convertFinite_zero]
    simp only [Nat.cast_zero, zero_mul, withSign_zero]
    refine ⟨1 - f.shape.bias - f.shape.mant, 0, le_rfl, by rw [abs_zero]; positivity, Or.inl rfl, ?_, ?_⟩
    · simpa using roundsTo_intCast rm draw 0
    · have nonneg : (0 : ℝ) ≤ (Claims.magnitude f.shape f.shape.top : ℚ) := by exact_mod_cast magnitude_nonneg _ _
      refine ⟨fun hlt => absurd hlt ?_, fun _ _ n0 => absurd rfl n0, fun _ _ => ⟨⟨0, Nat.zero_le _, ?_, ?_⟩, ?_, ?_, ?_⟩⟩
      · simpa using nonneg
      · simp [magnitude_zero]
      · exact (claims_signed f neg 0).symm
      · simp
      · simp
      · simp
  · set e := exp + (bitLength num : ℤ) - 1 with he
    set unit := gridUnit f e with hunit
    obtain ⟨low, high⟩ := h.binade h0 exp
    rw [← he] at low
    rw [show exp + (bitLength num : ℤ) = e + 1 by omega] at high
    have ypos : 0 ≤ z * 2 ^ exp := le_trans (by positivity) low
    have hs' : sticky = true → exp + 32 ≤ unit := by
      intro st
      have : 2 ^ (f.mant + 32) < 2 ^ bitLength num := lt_of_le_of_lt (hs st) (lt_two_pow_bitLength num)
      have : f.mant + 32 < bitLength num := (Nat.pow_lt_pow_iff_right (by decide)).1 this
      have : e - f.mant ≤ unit := by rw [hunit, gridUnit]; have := le_max_left e (1 - f.bias : ℤ); omega
      omega
    obtain ⟨rounds, exact⟩ := roundTo_roundsTo hrm draw neg (exp := exp) (unit := unit) h hs'
    rw [convertFinite_eq f _ sat ftz neg exp fun h => h0 h.1]
    simp only [← he, ← hunit]
    set r := roundTo (modeOf rm draw) neg num exp sticky unit with hr
    have scaled : z * 2 ^ (exp - unit) = z * 2 ^ exp / 2 ^ unit := by rw [zpow_sub₀ two_ne_zero]; ring
    have upos : (0 : ℝ) < 2 ^ unit := by positivity
    rw [scaled] at rounds exact
    -- the rounded significand keeps the bounds of the magnitude
    have keeps_le (a : ℕ) (ha : z * 2 ^ exp ≤ a * 2 ^ unit) : r.1 ≤ a := by
      have ha : z * 2 ^ exp / 2 ^ unit ≤ a := (div_le_iff₀ upos).2 ha
      cases neg
      · have := roundsTo_le (a := (a : ℤ)) rounds (by simpa using ha)
        simp only [withSign_false] at this; omega
      · have := le_of_roundsTo (a := -(a : ℤ)) rounds (by simpa using ha)
        simp only [withSign_true] at this; omega
    have keeps_ge (a : ℕ) (ha : a * 2 ^ unit ≤ z * 2 ^ exp) : a ≤ r.1 := by
      have ha : (a : ℝ) ≤ z * 2 ^ exp / 2 ^ unit := (le_div_iff₀ upos).2 ha
      cases neg
      · have := le_of_roundsTo (a := (a : ℤ)) rounds (by simpa using ha)
        simp only [withSign_false] at this; omega
      · have := roundsTo_le (a := -(a : ℤ)) rounds (by simpa using ha)
        simp only [withSign_true] at this; omega
    have grid : unit + f.mant = max e (1 - f.bias) := by rw [hunit, gridUnit]; ring
    have top_le : r.1 ≤ 2 ^ (f.mant + 1) := by
      apply keeps_le
      refine high.le.trans ?_
      push_cast
      rw [← zpow_natCast, ← zpow_add₀ two_ne_zero]
      apply zpow_le_zpow_right₀ one_le_two
      have := le_max_left e (1 - f.bias : ℤ); push_cast; omega
    obtain ⟨u, hu⟩ : ∃ u : ℕ, unit = 1 - f.bias - f.mant + u := by
      refine ⟨(unit - (1 - f.bias - f.mant)).toNat, ?_⟩
      have := le_max_right e (1 - f.bias : ℤ); omega
    have place : u = 0 ∨ 2 ^ f.mant ≤ r.1 := by
      by_cases sub : e ≤ 1 - f.bias
      · left; rw [max_eq_right sub] at grid; omega
      · right
        rw [max_eq_left (by omega)] at grid
        apply keeps_ge
        push_cast
        rw [← zpow_natCast, ← zpow_add₀ two_ne_zero, add_comm, grid]
        exact low
    have code : (unit - (1 - f.bias - f.mant)).toNat = u := by omega
    rw [code]
    have absolute : |withSign neg (z * 2 ^ exp)| = z * 2 ^ exp := by rw [abs_withSign, abs_of_nonneg ypos]
    apply cvtReal_of_code (n := withSign neg (r.1 : ℤ)) (k := unit)
    case grid => omega
    case high =>
      rw [absolute]
      refine high.trans_le (zpow_le_zpow_right₀ one_le_two ?_)
      have := le_max_left e (1 - f.bias : ℤ); omega
    case low =>
      rw [absolute]
      by_cases sub : e ≤ 1 - f.bias
      · left; rw [max_eq_right sub] at grid; omega
      · right; rw [grid, max_eq_left (by omega)]; exact low
    case rounds =>
      rwa [div_eq_mul_inv, ← withSign_mul, ← div_eq_mul_inv]
    case value =>
      rw [show (u * 2 ^ f.mant + r.1) = u * 2 ^ f.shape.mant + r.1 from rfl, magnitude_add f.shape top_le place,
        cast_withSign_int, ← withSign_mul, abs_withSign, Int.cast_natCast, abs_of_nonneg (by positivity), hu]
      push_cast
      simp only [Format.shape_bias, Format.shape_mant]
      congr 2
      ring
    case hin =>
      rw [exact, eq_div_iff upos.ne', cast_withSign_int, ← withSign_mul, Int.cast_natCast]
      cases neg <;> simp
    case htiny =>
      rw [absolute, decide_eq_true_eq]
      constructor
      · intro lt
        exact high.trans_le (zpow_le_zpow_right₀ one_le_two (by omega))
      · intro lt
        by_contra ge
        exact absurd lt (not_lt.2 (le_trans (zpow_le_zpow_right₀ one_le_two (by omega)) low))

end Sys2Proof.Machine

/-! SUPPORT. Values and their conversion (R103, R113), and the exact arithmetic of the lanes (R204): what a model's value means, and
that each operation rounds the exact result of the meanings. -/

namespace Sys2Proof.Machine

/-! ## Values (R103, R104) -/

/-- The value that a model's value stands for. -/
def Value.meaning : Value → Claims.Num
  | .nan => .nan
  | .inf neg => .inf neg
  | .fin neg num exp => .fin neg (withSign neg (num * 2 ^ exp))

@[simp] theorem Value.meaning_nan : Value.nan.meaning = .nan := rfl
@[simp] theorem Value.meaning_inf (neg : Bool) : (Value.inf neg).meaning = .inf neg := rfl
theorem Value.meaning_fin (neg : Bool) (num : ℕ) (exp : ℤ) :
    (Value.fin neg num exp).meaning = .fin neg (withSign neg (num * 2 ^ exp)) := rfl
@[simp] theorem Value.meaning_zero (neg : Bool) : (Value.zero neg).meaning = .fin neg 0 := by
  cases neg <;> simp [Value.zero, Value.meaning]

/-- A code that is neither an infinity nor beyond the largest number stands for its magnitude (R104). -/
theorem decodeElement_finite {f : Format} (hf : f.isInt = false) {bits : ℕ}
    (hinf : f.infinity ≠ some (bits % 2 ^ (f.width - 1))) (hmax : bits % 2 ^ (f.width - 1) ≤ f.maxCode) :
    (decodeElement f bits).meaning = .fin (decide (2 ^ (f.width - 1) ≤ bits))
      (withSign (decide (2 ^ (f.width - 1) ≤ bits)) (Claims.magnitude f.shape (bits % 2 ^ (f.width - 1)))) := by
  simp only [decodeElement, hf, Bool.false_eq_true, if_false, hinf, not_lt.2 hmax, Claims.magnitude]
  split
  · next h => rw [if_pos (show _ / 2 ^ f.shape.mant = 0 from h)]; rfl
  · next h => rw [if_neg (show ¬ _ / 2 ^ f.shape.mant = 0 from h), Value.meaning_fin]; push_cast; rfl

theorem decoded_shape (f : Format) (bits : ℕ) : Claims.decoded (.float f.shape) bits =
    if f.infinity = some (bits % 2 ^ (f.width - 1)) then .inf (decide (2 ^ (f.width - 1) ≤ bits))
    else if f.maxCode < bits % 2 ^ (f.width - 1) then .nan
    else .fin (decide (2 ^ (f.width - 1) ≤ bits))
      (withSign (decide (2 ^ (f.width - 1) ≤ bits)) (Claims.magnitude f.shape (bits % 2 ^ (f.width - 1)))) := rfl

/-- What an element's bits mean is what they decode to (R104, R106). -/
theorem decodeElement_meaning (f : Format) {bits : ℕ} (hbits : bits < 2 ^ f.width) :
    (decodeElement f bits).meaning = Claims.decoded f.row bits := by
  cases hf : f.isInt with
  | true =>
    rw [Format.row_of_int hf]
    simp only [decodeElement, hf, if_true, Claims.decoded]
    split
    · simp [Value.meaning_fin]
    · simp [Value.meaning_fin, Nat.cast_sub hbits.le]
  | false =>
    rw [Format.row_of_float hf]
    rw [decoded_shape]
    by_cases hinf : f.infinity = some (bits % 2 ^ (f.width - 1))
    · rw [if_pos hinf]
      simp [decodeElement, hf, hinf]
    · rw [if_neg hinf]
      by_cases hmax : f.maxCode < bits % 2 ^ (f.width - 1)
      · rw [if_pos hmax]
        simp [decodeElement, hf, hinf, hmax]
      · rw [if_neg hmax, decodeElement_finite hf hinf (not_lt.1 hmax)]

/-! ## Conversion into integers and into any format (R113) -/

/-- A conversion into an integer format is that of R113. -/
theorem convertInt_cvt {f : Format} (hf : f.isInt = true) {rm : BitVec 3} (hrm : rm.toNat ≤ 4) (draw : Word) (sat ftz neg : Bool)
    (num : ℕ) (exp : ℤ) :
    Claims.Cvt f.row rm draw sat ftz (Value.fin neg num exp).meaning (convertInt f (modeOf rm draw) neg num exp false).bits
      (convertInt f (modeOf rm draw) neg num exp false).flags := by
  rw [Format.row_of_int hf, Value.meaning_fin]
  have rounding := roundTo_roundsTo hrm draw neg (exp := exp) (unit := 0) (truncates_self num) (by simp)
  generalize hr : roundTo (modeOf rm draw) neg num exp false 0 = r at rounding
  obtain ⟨q, inexact⟩ := r
  obtain ⟨rounds, exact⟩ := rounding
  simp only [sub_zero] at rounds exact
  have whole : ((withSign neg (q : ℤ) : ℤ) : ℚ) = withSign neg (num * 2 ^ exp : ℚ) ↔ inexact = false := by
    rw [exact, ← Rat.cast_inj (α := ℝ), cast_withSign_rat]
    cases neg <;> simp
  refine ⟨withSign neg (q : ℤ), by push_cast; exact rounds, ?_⟩
  have double : 2 ^ f.width = 2 * 2 ^ (f.width - 1) := f.two_pow_width
  have doubleInt : (2 : ℤ) ^ f.width = 2 * 2 ^ (f.width - 1) := by exact_mod_cast double
  have castHalf : ((2 ^ (f.width - 1) : ℕ) : ℤ) = 2 ^ (f.width - 1) := by push_cast; rfl
  have half : 0 < 2 ^ (f.width - 1) := by positivity
  simp only [convertInt, hr, whole]
  generalize 2 ^ (f.width - 1) = h at *
  rw [doubleInt, double, ← castHalf]
  have flags : (if inexact = true then flagInexact else 0) = if inexact = false then 0 else (1 : Word) := by
    cases inexact <;> rfl
  rw [flags]
  cases neg with
  | false =>
    simp only [withSign_false, Bool.not_false, Bool.true_and, decide_eq_true_eq, Bool.false_and, Bool.false_eq_true, if_false]
    refine ⟨fun big => ?_, fun small => by omega, fun lt _ => ?_⟩
    · rw [if_pos (by omega)]; exact ⟨rfl, rfl⟩
    · rw [if_neg (by omega)]
      exact ⟨(Int.emod_eq_of_lt (a := q) (by omega) (by omega)).symm, rfl⟩
  | true =>
    simp only [withSign_true, Bool.not_true, Bool.false_and, Bool.false_eq_true, if_false, Bool.true_and, decide_eq_true_eq]
    refine ⟨fun big => by omega, fun small => ?_, fun _ ge => ?_⟩
    · rw [if_pos (by omega)]; exact ⟨rfl, rfl⟩
    · rw [if_neg (by omega)]
      refine ⟨?_, rfl⟩
      by_cases q0 : q = 0
      · simp [q0]
      · have wrapped : -(q : ℤ) % (2 * h) = 2 * h - q := by
          rw [← Int.add_emod_right]
          exact (Int.emod_eq_of_lt (by omega) (by omega)).trans (by ring)
        rw [wrapped]
        simp only [ne_eq, q0, not_false_iff, if_true]
        omega

/-- Every conversion of the model is the manual's (R113). -/
theorem cvt_cvt (v : Value) (f : Format) {rm : BitVec 3} (hrm : rm.toNat ≤ 4) (draw : Word) (sat ftz : Bool) :
    Claims.Cvt f.row rm draw sat ftz v.meaning (cvt v f (modeOf rm draw) sat ftz).bits (cvt v f (modeOf rm draw) sat ftz).flags := by
  cases v with
  | nan => cases f <;> exact ⟨rfl, rfl⟩
  | inf neg => cases f <;> cases sat <;> cases neg <;> exact ⟨rfl, rfl⟩
  | fin neg num exp =>
    cases hf : f.isInt with
    | true =>
      have := convertInt_cvt hf hrm draw sat ftz neg num exp
      simpa only [cvt, hf, if_true] using this
    | false =>
      have := convertFinite_cvtReal (f := f) hrm draw sat ftz neg (exp := exp) (truncates_self num) (by simp)
      simp only [cvt, hf, Bool.false_eq_true, if_false, Format.row_of_float hf, Value.meaning_fin, Claims.Cvt]
      push_cast
      exact this

/-- A conversion gives bits of the format's width. -/
theorem codeResult_lt (f : Format) (sat ftz neg : Bool) (code : ℕ) (inexact tiny : Bool) :
    (codeResult f sat ftz neg code inexact tiny).bits < 2 ^ f.width := by
  obtain ⟨top, nan, inf⟩ := f.codes
  have pos : 0 < 2 ^ (f.width - 1) := by positivity
  have double := f.two_pow_width
  unfold codeResult
  split
  · split
    · exact signed_lt neg top
    · split
      · next c h => exact signed_lt neg (inf c h)
      · simp only; omega
  · next h =>
    split
    · exact signed_lt neg pos
    · exact signed_lt neg (by omega)
theorem convertFinite_lt (f : Format) (mode : Rounding) (sat ftz neg : Bool) (num : ℕ) (exp : ℤ)
    (sticky : Bool) : (convertFinite f mode sat ftz neg num exp sticky).bits < 2 ^ f.width := by
  by_cases h0 : num = 0 ∧ sticky = false
  · obtain ⟨rfl, rfl⟩ := h0
    exact signed_lt neg (by positivity)
  · rw [convertFinite_eq f mode sat ftz neg exp h0]
    exact codeResult_lt ..
theorem convertInt_lt (f : Format) (mode : Rounding) (neg : Bool) (num : ℕ) (exp : ℤ) (sticky : Bool) :
    (convertInt f mode neg num exp sticky).bits < 2 ^ f.width := by
  have double := f.two_pow_width
  have pos : 0 < 2 ^ (f.width - 1) := by positivity
  simp only [convertInt]
  generalize roundTo mode neg num exp sticky 0 = r
  generalize 2 ^ (f.width - 1) = h at *
  cases neg with
  | false =>
    simp only [Bool.not_false, Bool.true_and, decide_eq_true_eq, Bool.false_and, Bool.false_eq_true, if_false]
    split <;> simp only <;> omega
  | true =>
    simp only [Bool.not_true, Bool.false_and, Bool.false_eq_true, if_false, Bool.true_and, decide_eq_true_eq]
    split
    · simp only; omega
    · by_cases q0 : r.1 = 0
      · simp [q0]
      · simp only [ne_eq, q0, not_false_iff, if_true]; omega
theorem cvt_lt (v : Value) (f : Format) (mode : Rounding) (sat ftz : Bool) : (cvt v f mode sat ftz).bits < 2 ^ f.width := by
  have pos : 0 < 2 ^ (f.width - 1) := by positivity
  have double := f.two_pow_width
  cases hf : f.isInt with
  | true =>
    cases v with
    | nan => simp [cvt, hf]
    | inf neg => simp only [cvt, hf, if_true]; split <;> omega
    | fin neg num exp => simpa only [cvt, hf, if_true] using convertInt_lt f mode neg num exp false
  | false =>
    obtain ⟨top, nan, inf⟩ := f.codes
    cases v with
    | nan => simp only [cvt, hf, Bool.false_or]; split <;> simp only <;> omega
    | inf neg =>
      simp only [cvt, hf, Bool.false_eq_true, if_false]
      split
      · next h => exact signed_lt neg (inf _ h)
      · split
        · simp only; omega
        · exact signed_lt neg top
    | fin neg num exp =>
      simpa only [cvt, hf, Bool.false_eq_true, if_false] using convertFinite_lt f mode sat ftz neg num exp false

/-! ## FP32 lanes (R201, R204) -/


/-- A flushed word's value: a subnormal is a zero of its sign (R201). -/
theorem fp32Of_meaning (ftz : Bool) (w : Word) : (fp32Of ftz w).meaning = Claims.single ftz w := by
  unfold fp32Of Claims.single Claims.flushed
  split
  · next h =>
    have zeros : w &&& 0x80000000 = if w.getLsbD 31 then 0x80000000 else 0 := BitVec.and_twoPow w 31
    rw [Value.meaning_zero, zeros]
    cases w.getLsbD 31 <;> simp [Claims.decoded, Claims.fp32, Claims.magnitude]
  · rw [decodeElement_meaning .fp32 w.isLt]; rfl

/-- A value rounded into FP32 is its conversion. -/
theorem toFp32_cvt (v : Value) {rm : BitVec 3} (hrm : rm.toNat ≤ 4) (draw : Word) (ftz : Bool) :
    Claims.Cvt (.float Claims.fp32) rm draw false ftz v.meaning (toFp32 v (modeOf rm draw) ftz).1.toNat
      (toFp32 v (modeOf rm draw) ftz).2 := by
  have bits : (toFp32 v (modeOf rm draw) ftz).1.toNat = (cvt v .fp32 (modeOf rm draw) false ftz).bits :=
    Nat.mod_eq_of_lt (cvt_lt v .fp32 _ _ _)
  rw [bits]
  exact cvt_cvt v .fp32 hrm draw false ftz

/-- An exact result: none where the operation is invalid. -/
def exactResult (r : Value × Bool) : Option Claims.Num := if r.2 then none else some r.1.meaning

/-- A lane from an exact result (R204). -/
theorem settleLane_gives (r : Value × Bool) {rm : BitVec 3} (hrm : rm.toNat ≤ 4) (draw : Word) (ftz : Bool) :
    Claims.Gives rm draw ftz (exactResult r) (settleLane r (modeOf rm draw) ftz).1 (settleLane r (modeOf rm draw) ftz).2 := by
  obtain ⟨v, invalid⟩ := r
  cases invalid
  · exact toFp32_cvt v hrm draw ftz
  · exact ⟨rfl, rfl⟩

/-! ## Exact arithmetic (R204) -/

theorem meaning_negate (v : Value) : v.negate.meaning = Claims.negated v.meaning := by
  cases v with
  | nan => rfl
  | inf neg => rfl
  | fin neg num exp => cases neg <;> simp [Value.negate, Value.meaning_fin, Claims.negated]

theorem mulValues_exact (x y : Value) : exactResult (mulValues x y) = Claims.times x.meaning y.meaning := by
  have zero (neg : Bool) (num : ℕ) (exp : ℤ) : withSign neg (num * 2 ^ exp : ℚ) = 0 ↔ num = 0 := by
    cases neg <;> simp [zpow_ne_zero]
  match x, y with
  | .nan, y => cases y <;> rfl
  | .inf _, .nan => rfl
  | .fin _ _ _, .nan => rfl
  | .inf a, .inf b => rfl
  | .inf a, .fin n b e =>
    by_cases h : b = 0 <;> simp [mulValues, exactResult, Claims.times, Value.meaning_fin, zero, h]
  | .fin n b e, .inf a =>
    by_cases h : b = 0 <;> simp [mulValues, exactResult, Claims.times, Value.meaning_fin, zero, h, Bool.xor_comm]
  | .fin n1 a ea, .fin n2 b eb =>
    by_cases h : a = 0 ∨ b = 0
    · have : mulValues (.fin n1 a ea) (.fin n2 b eb) = (.zero (n1 != n2), false) := by simp [mulValues, h]
      rw [this]
      simp only [exactResult, Value.meaning_zero, Bool.false_eq_true, if_false, Value.meaning_fin, Claims.times]
      rcases h with rfl | rfl <;> cases n1 <;> cases n2 <;> simp
    · have : mulValues (.fin n1 a ea) (.fin n2 b eb) = (.fin (n1 != n2) (a * b) (ea + eb), false) := by simp [mulValues, h]
      rw [this]
      simp only [exactResult, Bool.false_eq_true, if_false, Value.meaning_fin, Claims.times, zpow_add₀ (two_ne_zero (α := ℚ))]
      cases n1 <;> cases n2 <;> simp <;> ring

theorem zeroSign_modeOf (rm : BitVec 3) (draw : Word) : zeroSign (modeOf rm draw) = decide (rm = 2) := by
  match rm with
  | 0#3 | 1#3 | 2#3 | 3#3 | 4#3 | 5#3 | 6#3 | 7#3 => rfl

/-- The sign of a sum: of a zero, by the operands' and the mode's (R204). -/
def sumSign (rdn n1 n2 : Bool) (x y : ℚ) : Bool :=
  if x + y = 0 then (if n1 = n2 then n1 else rdn) else decide (x + y < 0)

/-- A magnitude in units of a lower power of two. -/
theorem rescale (a : ℕ) {ea e : ℤ} (h : e ≤ ea) : (a : ℚ) * 2 ^ ea = ((a * 2 ^ (ea - e).toNat : ℕ) : ℚ) * 2 ^ e := by
  push_cast
  rw [mul_assoc, ← zpow_natCast, Int.toNat_of_nonneg (by omega), ← zpow_add₀ two_ne_zero, sub_add_cancel]

theorem withSign_add (n : Bool) (x y : ℚ) : withSign n x + withSign n y = withSign n (x + y) := by cases n <;> simp; ring
theorem withSign_add_not (n : Bool) (x y : ℚ) : withSign n x + withSign (!n) y = withSign n (x - y) := by cases n <;> simp <;> ring
theorem withSign_neg (n : Bool) (x : ℚ) : withSign n (-x) = withSign (!n) x := by cases n <;> simp
theorem withSign_ne_zero (n : Bool) {x : ℚ} (h : x ≠ 0) : withSign n x ≠ 0 := by cases n <;> simpa using h
theorem decide_withSign_lt (n : Bool) {x : ℚ} (h : 0 < x) : decide (withSign n x < 0) = n := by cases n <;> simp [h, h.le]

/-- The sum of two magnitudes in the same units, neither zero. -/
theorem sum_meaning (rdn n1 n2 : Bool) {x y : ℕ} (hx : 0 < x) (hy : 0 < y) (e : ℤ) :
    (if n1 = n2 then Value.fin n1 (x + y) e
      else if x = y then .zero rdn else if x < y then .fin n2 (y - x) e else .fin n1 (x - y) e).meaning =
      .fin (sumSign rdn n1 n2 (withSign n1 (x * 2 ^ e)) (withSign n2 (y * 2 ^ e)))
        (withSign n1 (x * 2 ^ e : ℚ) + withSign n2 (y * 2 ^ e : ℚ)) := by
  have unit : (0 : ℚ) < 2 ^ e := by positivity
  unfold sumSign
  split
  · next same =>
    subst same
    have pos : (0 : ℚ) < x * 2 ^ e + y * 2 ^ e := by positivity
    rw [withSign_add, if_neg (withSign_ne_zero n1 pos.ne'), decide_withSign_lt n1 pos, Value.meaning_fin]
    push_cast
    rw [add_mul]
  · next differ =>
    obtain rfl : n2 = !n1 := by cases n1 <;> cases n2 <;> simp_all
    rw [withSign_add_not, ← sub_mul]
    split
    · next same => subst same; simp
    · next apart =>
      have nonzero : ((x : ℚ) - y) * 2 ^ e ≠ 0 := mul_ne_zero (sub_ne_zero.2 (by exact_mod_cast apart)) unit.ne'
      rw [if_neg (withSign_ne_zero n1 nonzero)]
      split
      · next less =>
        have pos : 0 < ((y : ℚ) - x) * 2 ^ e := mul_pos (sub_pos.2 (by exact_mod_cast less)) unit
        rw [← neg_sub (y : ℚ) x, neg_mul, withSign_neg, decide_withSign_lt _ pos, Value.meaning_fin, Nat.cast_sub less.le]
      · next notLess =>
        have more : y < x := lt_of_le_of_ne (not_lt.1 notLess) (Ne.symm apart)
        have pos : 0 < ((x : ℚ) - y) * 2 ^ e := mul_pos (sub_pos.2 (by exact_mod_cast more)) unit
        rw [decide_withSign_lt _ pos, Value.meaning_fin, Nat.cast_sub more.le]

/-- A sum of finite values is exact (R204). -/
theorem addFinite_meaning (rm : BitVec 3) (draw : Word) (n1 : Bool) (a : ℕ) (ea : ℤ) (n2 : Bool) (b : ℕ) (eb : ℤ) :
    (addFinite (modeOf rm draw) n1 a ea n2 b eb).meaning =
      .fin (sumSign (decide (rm = 2)) n1 n2 (withSign n1 (a * 2 ^ ea)) (withSign n2 (b * 2 ^ eb)))
        (withSign n1 (a * 2 ^ ea : ℚ) + withSign n2 (b * 2 ^ eb : ℚ)) := by
  have pos {c : ℕ} (hc : c ≠ 0) (ec : ℤ) : (0 : ℚ) < c * 2 ^ ec :=
    mul_pos (by exact_mod_cast Nat.pos_of_ne_zero hc) (by positivity)
  unfold addFinite
  by_cases ha : a = 0
  · by_cases hb : b = 0
    · simp [ha, hb, sumSign, zeroSign_modeOf]
    · simp [ha, hb, sumSign, Value.meaning_fin, withSign_ne_zero n2 (pos hb eb).ne', decide_withSign_lt n2 (pos hb eb)]
  · by_cases hb : b = 0
    · simp [ha, hb, sumSign, Value.meaning_fin, withSign_ne_zero n1 (pos ha ea).ne', decide_withSign_lt n1 (pos ha ea)]
    · have hx : 0 < a * 2 ^ (ea - min ea eb).toNat := Nat.mul_pos (Nat.pos_of_ne_zero ha) (by positivity)
      have hy : 0 < b * 2 ^ (eb - min ea eb).toNat := Nat.mul_pos (Nat.pos_of_ne_zero hb) (by positivity)
      have sum := sum_meaning (decide (rm = 2)) n1 n2 hx hy (min ea eb)
      rw [← rescale a (min_le_left ea eb), ← rescale b (min_le_right ea eb), ← zeroSign_modeOf rm draw] at sum
      rw [← zeroSign_modeOf rm draw, ← sum]
      simp [ha, hb]

theorem addValues_exact (rm : BitVec 3) (draw : Word) (x y : Value) :
    exactResult (addValues (modeOf rm draw) x y) = Claims.plus (decide (rm = 2)) x.meaning y.meaning := by
  match x, y with
  | .nan, y => cases y <;> rfl
  | .inf _, .nan => rfl
  | .fin _ _ _, .nan => rfl
  | .inf a, .inf b => by_cases h : a = b <;> simp [addValues, exactResult, Claims.plus, h]
  | .inf a, .fin n b e => rfl
  | .fin n b e, .inf a => rfl
  | .fin n1 a ea, .fin n2 b eb =>
    simp only [addValues, exactResult, Bool.false_eq_true, if_false, addFinite_meaning]
    rfl

/-- A value is the NaN where it means one. -/
theorem meaning_eq_nan {v : Value} : v.meaning = .nan ↔ v = .nan := by cases v <;> simp [Value.meaning]

/-- Without a NaN, a fused product is a product and a sum. -/
theorem fused_of_num (rdn : Bool) {a b c : Claims.Num} (ha : a ≠ .nan) (hb : b ≠ .nan) (hc : c ≠ .nan) :
    Claims.fused rdn a b c = (Claims.times a b).bind fun p => Claims.plus rdn p c := by
  unfold Claims.fused
  split
  · exact absurd rfl ha
  · exact absurd rfl hb
  · exact absurd rfl hc
  · rfl

/-! ## The lanes of the arithmetic instructions (R204) -/

section
variable {rm : BitVec 3} (hrm : rm.toNat ≤ 4) (draw : Word) (ftz : Bool) (a b c : Word)
include hrm

theorem laneAdd_gives : Claims.Gives rm draw ftz (Claims.plus (decide (rm = 2)) (Claims.single ftz a) (Claims.single ftz b))
    (laneAdd (modeOf rm draw) ftz a b).1 (laneAdd (modeOf rm draw) ftz a b).2 := by
  rw [← fp32Of_meaning, ← fp32Of_meaning, ← addValues_exact rm draw]
  exact settleLane_gives _ hrm draw ftz

theorem laneSub_gives : Claims.Gives rm draw ftz
    (Claims.plus (decide (rm = 2)) (Claims.single ftz a) (Claims.negated (Claims.single ftz b)))
    (laneSub (modeOf rm draw) ftz a b).1 (laneSub (modeOf rm draw) ftz a b).2 := by
  rw [← fp32Of_meaning, ← fp32Of_meaning, ← meaning_negate, ← addValues_exact rm draw]
  exact settleLane_gives _ hrm draw ftz

theorem laneMul_gives : Claims.Gives rm draw ftz (Claims.times (Claims.single ftz a) (Claims.single ftz b))
    (laneMul (modeOf rm draw) ftz a b).1 (laneMul (modeOf rm draw) ftz a b).2 := by
  rw [← fp32Of_meaning, ← fp32Of_meaning, ← mulValues_exact]
  exact settleLane_gives _ hrm draw ftz

theorem laneFma_gives : Claims.Gives rm draw ftz
    (Claims.fused (decide (rm = 2)) (Claims.single ftz a) (Claims.single ftz b) (Claims.single ftz c))
    (laneFma (modeOf rm draw) ftz a b c).1 (laneFma (modeOf rm draw) ftz a b c).2 := by
  simp only [← fp32Of_meaning, laneFma]
  generalize fp32Of ftz a = x, fp32Of ftz b = y, fp32Of ftz c = z
  by_cases hx : x = .nan
  · subst hx; exact ⟨rfl, rfl⟩
  by_cases hy : y = .nan
  · subst hy; cases x <;> exact ⟨rfl, rfl⟩
  by_cases hz : z = .nan
  · subst hz; cases x <;> cases y <;> exact ⟨rfl, rfl⟩
  rw [fused_of_num _ (mt meaning_eq_nan.1 hx) (mt meaning_eq_nan.1 hy) (mt meaning_eq_nan.1 hz),
    ← mulValues_exact, if_neg (by simp [hx, hy, hz])]
  obtain ⟨p, bad⟩ := mulValues x y
  cases bad
  · have := settleLane_gives (addValues (modeOf rm draw) p z) hrm draw ftz
    rwa [addValues_exact] at this
  · exact ⟨rfl, rfl⟩

end

end Sys2Proof.Machine

/-! SUPPORT. FP32 words by their sign and code (R104): NaN, flushed operands, the order of values and −0 below +0, for the comparisons
and for the instructions that round nothing (R205, R206). -/

namespace Sys2Proof.Machine

/-! ## FP32 words by sign and code (R104, R105, R201) -/

/-- The code of a word's magnitude. -/
def codeOf (w : Word) : ℕ := w.toNat % 2 ^ 31
def signOf (w : Word) : Bool := decide (2 ^ 31 ≤ w.toNat)

theorem toNat_eq_signed (w : Word) : w.toNat = signed .fp32 (signOf w) (codeOf w) := by
  have := w.isLt
  simp only [signed, signOf, codeOf, Format.width, decide_eq_true_eq]
  split <;> omega
theorem word_ext {a b : Word} (hs : signOf a = signOf b) (hc : codeOf a = codeOf b) : a = b :=
  BitVec.eq_of_toNat_eq (by rw [toNat_eq_signed a, toNat_eq_signed b, hs, hc])
theorem getLsbD_31 (w : Word) : w.getLsbD 31 = signOf w := by
  rw [← BitVec.msb_eq_getLsbD_last, BitVec.msb_eq_decide]; rfl
theorem codeOf_and (w : Word) : (w &&& 0x7FFFFFFF).toNat = codeOf w := by
  rw [BitVec.toNat_and]; exact Nat.and_two_pow_sub_one_eq_mod w.toNat 31

theorem isNan_iff (w : Word) : Claims.isNan w = true ↔ 0x7F800000 < codeOf w := by
  have h := w.isLt
  have exponent : w.extractLsb' 23 8 = 0xFF ↔ w.toNat / 2 ^ 23 % 2 ^ 8 = 255 := by
    rw [← BitVec.toNat_inj, BitVec.extractLsb'_toNat, Nat.shiftRight_eq_div_pow]; rfl
  have mantissa : w.extractLsb' 0 23 = 0 ↔ w.toNat % 2 ^ 23 = 0 := by
    rw [← BitVec.toNat_inj, BitVec.extractLsb'_toNat, Nat.shiftRight_eq_div_pow]; simp
  simp only [Claims.isNan, Bool.and_eq_true, decide_eq_true_eq, ne_eq, exponent, mantissa, codeOf]
  omega

theorem exponent_zero_iff (w : Word) : w.extractLsb' 23 8 = 0 ↔ codeOf w < 2 ^ 23 := by
  have h := w.isLt
  rw [← BitVec.toNat_inj, BitVec.extractLsb'_toNat, Nat.shiftRight_eq_div_pow, codeOf]
  change _ = 0 ↔ _
  omega
theorem sign_bit_toNat (w : Word) : (w &&& 0x80000000).toNat = signed .fp32 (signOf w) 0 := by
  rw [show w &&& 0x80000000 = if w.getLsbD 31 then 0x80000000 else 0 from BitVec.and_twoPow w 31, getLsbD_31]
  cases signOf w <;> rfl

theorem signOf_flushed (ftz : Bool) (w : Word) : signOf (Claims.flushed ftz w) = signOf w := by
  unfold Claims.flushed
  split
  · rw [signOf, sign_bit_toNat]; cases signOf w <;> rfl
  · rfl
theorem codeOf_flushed (ftz : Bool) (w : Word) :
    codeOf (Claims.flushed ftz w) = if ftz = true ∧ codeOf w < 2 ^ 23 then 0 else codeOf w := by
  simp only [Claims.flushed, Bool.and_eq_true, decide_eq_true_eq, exponent_zero_iff]
  split
  · rw [codeOf, sign_bit_toNat]; cases signOf w <;> rfl
  · rfl
theorem isNan_flushed (ftz : Bool) (w : Word) : Claims.isNan (Claims.flushed ftz w) = Claims.isNan w := by
  rw [Bool.eq_iff_iff, isNan_iff, isNan_iff, codeOf_flushed]
  split <;> omega

/-- What a word means, by its sign and its code. -/
theorem single_eq (ftz : Bool) (w : Word) : Claims.single ftz w =
    if codeOf (Claims.flushed ftz w) = 0x7F800000 then .inf (signOf w)
    else if 0x7F800000 < codeOf (Claims.flushed ftz w) then .nan
    else .fin (signOf w) (withSign (signOf w) (Claims.magnitude Claims.fp32 (codeOf (Claims.flushed ftz w)))) := by
  rw [← signOf_flushed ftz w, Claims.single]
  generalize Claims.flushed ftz w = v
  have max_lt : codeOf v ≠ 0x7F800000 → (0x7F7FFFFF < codeOf v ↔ 0x7F800000 < codeOf v) := by omega
  by_cases hinf : codeOf v = 0x7F800000
  · rw [if_pos hinf]
    exact (decoded_shape .fp32 v.toNat).trans (if_pos (congrArg some hinf.symm))
  · rw [if_neg hinf]
    refine (decoded_shape .fp32 v.toNat).trans ((if_neg fun h => hinf (Option.some.inj h).symm).trans ?_)
    exact if_congr (max_lt hinf) rfl rfl

theorem single_nan_iff (ftz : Bool) (w : Word) : Claims.single ftz w = .nan ↔ Claims.isNan w = true := by
  rw [← isNan_flushed ftz w, isNan_iff, single_eq]
  split
  · next h => simp [h]
  · split
    · next h => simpa using h
    · next h => simpa using h
theorem fp32Of_nan_iff (ftz : Bool) (w : Word) : fp32Of ftz w = .nan ↔ Claims.isNan w = true := by
  rw [← meaning_eq_nan, fp32Of_meaning, single_nan_iff]

/-! ## The order of values (R205, R206) -/

/-- The order of what values mean; a NaN is below nothing and above nothing. -/
def lessNum (x y : Claims.Num) : Bool :=
  match x, y with
  | .nan, _ => false
  | _, .nan => false
  | .inf a, .inf b => a && !b
  | .inf a, .fin _ _ => a
  | .fin _ _, .inf b => !b
  | .fin _ x, .fin _ y => decide (x < y)

theorem lt_eq_lessNum (x y : Value) : x.lt y = lessNum x.meaning y.meaning := by
  match x, y with
  | .nan, y => cases y <;> rfl
  | .inf _, .nan => rfl
  | .fin _ _ _, .nan => rfl
  | .inf a, .inf b => rfl
  | .inf a, .fin n b e => rfl
  | .fin n b e, .inf a => rfl
  | .fin n1 a ea, .fin n2 b eb =>
    have unit : (0 : ℚ) < 2 ^ min ea eb := by positivity
    have signed (n : Bool) (k : ℕ) :
        withSign n ((k : ℚ) * 2 ^ min ea eb) = (((if n then -(k : ℤ) else k) : ℤ) : ℚ) * 2 ^ min ea eb := by
      cases n <;> simp
    simp only [Value.lt, Value.meaning_fin, lessNum]
    rw [rescale a (min_le_left ea eb), rescale b (min_le_right ea eb), signed, signed, decide_eq_decide,
      mul_lt_mul_iff_left₀ unit, Int.cast_lt]

/-- A word's code with its sign: the order of numbers and infinities. -/
def signedCode (w : Word) : ℤ := withSign (signOf w) (codeOf w : ℤ)

theorem withSign_magnitude_lt (f : Claims.Shape) (s t : Bool) (c d : ℕ) :
    withSign s (Claims.magnitude f c) < withSign t (Claims.magnitude f d) ↔ withSign s (c : ℤ) < withSign t (d : ℤ) := by
  have mono := magnitude_strictMono f
  have hc := magnitude_nonneg f c
  have hd := magnitude_nonneg f d
  have zero (k : ℕ) : 0 < Claims.magnitude f k ↔ 0 < k := by rw [← mono.lt_iff_lt (a := 0), magnitude_zero]
  cases s <;> cases t <;> simp only [withSign_false, withSign_true, neg_lt_neg_iff, Nat.cast_lt, mono.lt_iff_lt]
  · constructor <;> intro h <;> exfalso <;> [linarith; omega]
  · have : -Claims.magnitude f c < Claims.magnitude f d ↔ 0 < Claims.magnitude f c ∨ 0 < Claims.magnitude f d := by
      constructor
      · intro h; by_contra none; push Not at none; linarith
      · rintro (h | h) <;> linarith
    rw [this, zero, zero]
    omega

/-- Two words that are no NaN are in the order of their signed codes. -/
theorem lessNum_single (ftz : Bool) {a b : Word} (ha : Claims.isNan a = false) (hb : Claims.isNan b = false) :
    lessNum (Claims.single ftz a) (Claims.single ftz b) =
      decide (signedCode (Claims.flushed ftz a) < signedCode (Claims.flushed ftz b)) := by
  rw [single_eq, single_eq]
  rw [← isNan_flushed ftz, ← Bool.not_eq_true, isNan_iff] at ha hb
  rw [← signOf_flushed ftz a, ← signOf_flushed ftz b]
  generalize Claims.flushed ftz a = v at *
  generalize Claims.flushed ftz b = w at *
  rw [if_neg ha, if_neg hb]
  unfold signedCode
  by_cases va : codeOf v = 0x7F800000
  · rw [if_pos va]
    by_cases wb : codeOf w = 0x7F800000
    · rw [if_pos wb]
      cases signOf v <;> cases signOf w <;> simp [lessNum, va, wb]
    · rw [if_neg wb]
      cases signOf v <;> cases signOf w <;> simp [lessNum, va] <;> omega
  · rw [if_neg va]
    by_cases wb : codeOf w = 0x7F800000
    · rw [if_pos wb]
      cases signOf v <;> cases signOf w <;> simp [lessNum, wb] <;> omega
    · rw [if_neg wb]
      simp only [lessNum, withSign_magnitude_lt]

/-- The order with −0 below +0, by sign and code. -/
theorem rank_eq (w : Word) : Claims.rank w = if signOf w then -(codeOf w : ℤ) - 1 else codeOf w := by
  have h := toNat_eq_signed w
  rw [Claims.rank, getLsbD_31, codeOf_and]
  cases hs : signOf w
  · rw [hs] at h; simp [h, signed]
  · rfl
theorem sameValue_iff (a b : Word) : Claims.sameValue a b = true ↔ signedCode a = signedCode b := by
  have zeros : (a ||| b) &&& 0x7FFFFFFF = 0 ↔ codeOf a = 0 ∧ codeOf b = 0 := by
    rw [← BitVec.toNat_inj, codeOf_and]
    change codeOf (a ||| b) = 0 ↔ _
    rw [codeOf, BitVec.toNat_or, Nat.or_mod_two_pow, Nat.or_eq_zero_iff]
    rfl
  have same : a = b ↔ signOf a = signOf b ∧ codeOf a = codeOf b :=
    ⟨fun h => by rw [h]; exact ⟨rfl, rfl⟩, fun h => word_ext h.1 h.2⟩
  simp only [Claims.sameValue, Bool.or_eq_true, decide_eq_true_eq, zeros, same, signedCode]
  cases signOf a <;> cases signOf b <;> simp <;> omega

/-- The order with −0 below +0 is the order of values, but for the zeros. -/
theorem rank_lt_and_iff (v w : Word) : Claims.rank v < Claims.rank w ∧ signedCode v ≠ signedCode w ↔ signedCode v < signedCode w := by
  rw [rank_eq, rank_eq, signedCode, signedCode]
  cases signOf v <;> cases signOf w <;> simp <;> omega
theorem rank_le_or_iff (v w : Word) :
    Claims.rank v ≤ Claims.rank w ∨ signedCode v = signedCode w ↔ signedCode v ≤ signedCode w := by
  rw [rank_eq, rank_eq, signedCode, signedCode]
  cases signOf v <;> cases signOf w <;> simp <;> omega

theorem fp32Of_lt (ftz : Bool) (a b : Word) : (fp32Of ftz a).lt (fp32Of ftz b) =
    (!(Claims.isNan a || Claims.isNan b) && decide (signedCode (Claims.flushed ftz a) < signedCode (Claims.flushed ftz b))) := by
  rw [lt_eq_lessNum, fp32Of_meaning, fp32Of_meaning]
  cases ha : Claims.isNan a
  · cases hb : Claims.isNan b
    · exact lessNum_single ftz ha hb
    · rw [(single_nan_iff ftz b).2 hb]; cases Claims.single ftz a <;> rfl
  · rw [(single_nan_iff ftz a).2 ha]; rfl
theorem fp32Of_eq (ftz : Bool) (a b : Word) : (fp32Of ftz a).eq (fp32Of ftz b) =
    (!(Claims.isNan a || Claims.isNan b) && decide (signedCode (Claims.flushed ftz a) = signedCode (Claims.flushed ftz b))) := by
  simp only [Value.eq, fp32Of_lt, ne_eq, fp32Of_nan_iff]
  cases Claims.isNan a <;> cases Claims.isNan b <;> simp [le_antisymm_iff, Bool.and_comm, ← decide_not]

/-- vfcmp's comparison is the manual's (R206). -/
theorem laneFcmp_eq_compares (cc : BitVec 2) (ftz : Bool) (a b : Word) :
    laneFcmp cc ftz a b = Claims.compares cc (Claims.flushed ftz a) (Claims.flushed ftz b) := by
  have same := sameValue_iff (Claims.flushed ftz a) (Claims.flushed ftz b)
  match cc with
  | 0#2 =>
    simp only [laneFcmp, Claims.compares, fp32Of_eq, isNan_flushed]
    rw [Bool.eq_iff_iff]
    simp only [Bool.and_eq_true, decide_eq_true_eq, same]
  | 1#2 =>
    simp only [laneFcmp, Claims.compares, fp32Of_lt, isNan_flushed]
    rw [Bool.eq_iff_iff]
    simp only [Bool.and_eq_true, decide_eq_true_eq, ← rank_lt_and_iff, Bool.not_eq_true', ← Bool.not_eq_true, same, and_assoc, ne_eq]
  | 2#2 =>
    simp only [laneFcmp, Claims.compares, fp32Of_lt, fp32Of_eq, isNan_flushed]
    rw [Bool.eq_iff_iff]
    simp only [Bool.and_eq_true, Bool.or_eq_true, decide_eq_true_eq, same, rank_le_or_iff, ← and_or_left,
      ← le_iff_lt_or_eq]
  | 3#2 =>
    simp only [laneFcmp, Claims.compares, fp32Of_nan_iff, isNan_flushed, Bool.decide_eq_true]

/-! ## Results that need no rounding (R205) -/

/-- The number of a code on the format's own grid converts to that code, whatever the mode, and sets no flag. -/
theorem cvtReal_exact {f : Claims.Shape} {rm : BitVec 3} {draw : Word} {sat neg : Bool} {c b : ℕ} {fl : Word} (hc : c ≤ f.top)
    (h : Claims.CvtReal f rm draw sat false neg (withSign neg (Claims.magnitude f c : ℝ)) b fl) :
    b = Claims.signed f neg c ∧ fl = 0 := by
  obtain ⟨k, n, hk, _, hlow, rounds, _, _, inside⟩ := h
  obtain ⟨u, q, hsplit, hq, hu⟩ := code_split f c
  have value : (Claims.magnitude f c : ℝ) = q * 2 ^ ((u : ℤ) + 1 - f.bias - f.mant) := by
    rw [hsplit, magnitude_add f hq.le hu]; push_cast; rfl
  have nonneg : (0 : ℝ) ≤ Claims.magnitude f c := by exact_mod_cast magnitude_nonneg f c
  have absolute : |withSign neg (Claims.magnitude f c : ℝ)| = Claims.magnitude f c := by rw [abs_withSign, abs_of_nonneg nonneg]
  -- the grid of the conversion is at least as fine as that of the code
  have fine : k ≤ (u : ℤ) + 1 - f.bias - f.mant := by
    rcases hlow with rfl | low
    · omega
    · rw [absolute, value] at low
      have : (2 : ℝ) ^ (k + f.mant) < 2 ^ (((f.mant + 1 : ℕ) : ℤ) + ((u : ℤ) + 1 - f.bias - f.mant)) := by
        refine low.trans_lt ?_
        rw [zpow_add₀ two_ne_zero, zpow_natCast]
        exact mul_lt_mul_of_pos_right (by exact_mod_cast hq) (by positivity)
      have := (zpow_lt_zpow_iff_right₀ one_lt_two).1 this
      push_cast at this
      omega
  obtain ⟨d, hd⟩ : ∃ d : ℕ, (u : ℤ) + 1 - f.bias - f.mant = k + d := ⟨((u : ℤ) + 1 - f.bias - f.mant - k).toNat, by omega⟩
  have whole : withSign neg (Claims.magnitude f c : ℝ) / 2 ^ k = ((withSign neg (q * 2 ^ d : ℕ) : ℤ) : ℝ) := by
    rw [value, hd, zpow_add₀ two_ne_zero, zpow_natCast, cast_withSign_int]
    push_cast
    cases neg <;> simp <;> field_simp
  have hn : n = withSign neg ((q * 2 ^ d : ℕ) : ℤ) := by
    rw [whole] at rounds
    exact le_antisymm (roundsTo_le rounds le_rfl) (le_of_roundsTo rounds le_rfl)
  have exact : (n : ℝ) * 2 ^ k = withSign neg (Claims.magnitude f c : ℝ) := by
    rw [hn, ← whole, div_mul_cancel₀ _ (by positivity)]
  have mono := magnitude_strictMono f
  rw [exact, absolute] at inside
  obtain ⟨⟨c', _, same, bits⟩, flags, _⟩ := inside (by exact_mod_cast mono.monotone hc) (by simp)
  obtain rfl : c' = c := mono.injective (by exact_mod_cast same)
  exact ⟨bits, flags rfl⟩

/-- A lane that is no NaN, flushed, is its own conversion (R205). -/
theorem plain32_eq (ftz : Bool) (w : Word) : plain32 ftz w = Claims.plain ftz w := by
  have conversion := cvt_cvt (fp32Of ftz w) .fp32 (rm := 0) (by decide) 0 false false
  rw [fp32Of_meaning, Format.row_fp32] at conversion
  unfold Claims.plain
  split
  · next nan =>
    rw [(single_nan_iff ftz w).2 nan] at conversion
    obtain ⟨bits, -⟩ := conversion
    rw [plain32]
    exact congrArg _ bits
  · next num =>
    rw [← isNan_flushed ftz, isNan_iff] at num
    have value := toNat_eq_signed (Claims.flushed ftz w)
    have bits : (cvt (fp32Of ftz w) .fp32 .rne false false).bits = (Claims.flushed ftz w).toNat := by
      rw [single_eq, ← signOf_flushed ftz w] at conversion
      rw [value]
      by_cases inf : codeOf (Claims.flushed ftz w) = 0x7F800000
      · rw [if_pos inf] at conversion
        rw [inf, ← claims_signed]
        exact conversion.1
      · rw [if_neg inf, if_neg num] at conversion
        simp only [Claims.Cvt, cast_withSign_rat] at conversion
        have top : codeOf (Claims.flushed ftz w) ≤ Claims.fp32.top := by simp only [Claims.fp32]; omega
        rw [← claims_signed]
        exact (cvtReal_exact top conversion).1
    rw [plain32, bits, BitVec.ofNat_toNat, BitVec.setWidth_eq]

theorem belowOrder_iff (x y : Value) :
    belowOrder x y = true ↔ x.lt y = true ∨ (x.eq y = true ∧ x.meaning = .fin true 0 ∧ y.meaning = .fin false 0) := by
  have zero (s neg : Bool) (n : ℕ) (e : ℤ) : (Value.fin s n e).meaning = .fin neg 0 ↔ s = neg ∧ n = 0 := by
    cases s <;> simp [Value.meaning_fin, zpow_ne_zero]
  unfold belowOrder
  rw [Bool.or_eq_true, Bool.and_eq_true]
  refine or_congr_right (and_congr_right fun _ => ?_)
  match x, y with
  | .nan, y => simp
  | .inf _, y => simp
  | .fin _ _ _, .nan => simp
  | .fin _ _ _, .inf _ => simp
  | .fin s m e, .fin t n e' =>
    rw [zero, zero]
    cases s <;> cases t <;> cases m <;> cases n <;> simp

/-- The order of vfmin and vfmax is that with −0 below +0 (R205). -/
theorem belowOrder_eq (ftz : Bool) {a b : Word} (ha : Claims.isNan a = false) (hb : Claims.isNan b = false) :
    belowOrder (fp32Of ftz a) (fp32Of ftz b) = true ↔ Claims.rank (Claims.flushed ftz a) < Claims.rank (Claims.flushed ftz b) := by
  have zero (neg : Bool) {w : Word} (hw : Claims.isNan w = false) :
      Claims.single ftz w = .fin neg 0 ↔ signOf (Claims.flushed ftz w) = neg ∧ codeOf (Claims.flushed ftz w) = 0 := by
    rw [← isNan_flushed ftz, ← Bool.not_eq_true, isNan_iff] at hw
    rw [single_eq, if_neg hw, signOf_flushed]
    split
    · next h => simp [h]
    · rw [Claims.Num.fin.injEq]
      refine and_congr_right fun h => ?_
      rw [← magnitude_eq_zero Claims.fp32]
      cases neg <;> simp [h]
  rw [belowOrder_iff, fp32Of_lt, fp32Of_eq, fp32Of_meaning, fp32Of_meaning, zero true ha, zero false hb, ha, hb, rank_eq, rank_eq]
  simp only [Bool.or_self, Bool.not_false, Bool.true_and, decide_eq_true_eq]
  rw [signedCode, signedCode]
  cases signOf (Claims.flushed ftz a) <;> cases signOf (Claims.flushed ftz b) <;> simp <;> omega

theorem rank_injective {v w : Word} (h : Claims.rank v = Claims.rank w) : v = w := by
  rw [rank_eq, rank_eq] at h
  cases hv : signOf v <;> cases hw : signOf w <;> simp only [hv, hw, Bool.false_eq_true, if_true, if_false] at h
  case false.false | true.true => exact word_ext (hv.trans hw.symm) (by omega)
  case false.true | true.false => omega

theorem extreme_of_nan (greater ftz : Bool) {a b : Word} (h : Claims.isNan a = true ∨ Claims.isNan b = true) :
    Claims.extreme greater ftz a b = 0x7FC00000 := by
  rw [Claims.extreme, if_pos (by simpa using h)]
theorem extreme_of_num (greater ftz : Bool) {a b : Word} (ha : Claims.isNan a = false) (hb : Claims.isNan b = false) :
    Claims.extreme greater ftz a b =
      if (Claims.rank (Claims.flushed ftz a) ≤ Claims.rank (Claims.flushed ftz b)) = (greater = false) then Claims.flushed ftz a
      else Claims.flushed ftz b := by
  rw [Claims.extreme, if_neg (by simp [ha, hb])]

/-- vfmin and vfmax are the manual's (R205). -/
theorem laneFmin_eq (ftz : Bool) (a b : Word) : laneFmin ftz a b = Claims.extreme false ftz a b := by
  simp only [laneFmin, fp32Of_nan_iff, plain32_eq]
  by_cases nan : Claims.isNan a = true ∨ Claims.isNan b = true
  · rw [if_pos (by simpa using nan), extreme_of_nan _ _ nan]; rfl
  · rw [if_neg (by simpa using nan)]
    simp only [not_or, Bool.not_eq_true] at nan
    obtain ⟨ha, hb⟩ := nan
    rw [extreme_of_num _ _ ha hb]
    simp only [belowOrder_eq ftz hb ha, Claims.plain, ha, hb, Bool.false_eq_true, if_false, eq_self, eq_iff_iff, iff_true]
    by_cases h : Claims.rank (Claims.flushed ftz b) < Claims.rank (Claims.flushed ftz a)
    · rw [if_pos h, if_neg (not_le.2 h)]
    · rw [if_neg h, if_pos (not_lt.1 h)]
theorem laneFmax_eq (ftz : Bool) (a b : Word) : laneFmax ftz a b = Claims.extreme true ftz a b := by
  simp only [laneFmax, fp32Of_nan_iff, plain32_eq]
  by_cases nan : Claims.isNan a = true ∨ Claims.isNan b = true
  · rw [if_pos (by simpa using nan), extreme_of_nan _ _ nan]; rfl
  · rw [if_neg (by simpa using nan)]
    simp only [not_or, Bool.not_eq_true] at nan
    obtain ⟨ha, hb⟩ := nan
    rw [extreme_of_num _ _ ha hb]
    simp only [belowOrder_eq ftz ha hb, Claims.plain, ha, hb, Bool.false_eq_true, if_false, Bool.true_eq_false, eq_iff_iff, iff_false,
      not_le]
    rcases lt_trichotomy (Claims.rank (Claims.flushed ftz a)) (Claims.rank (Claims.flushed ftz b)) with h | h | h
    · rw [if_pos h, if_neg h.not_gt]
    · rw [rank_injective h]
    · rw [if_neg h.not_gt, if_pos h]

theorem laneAbs_eq (a : Word) : laneAbs a = if Claims.isNan a then 0x7FC00000 else a &&& 0x7FFFFFFF := by
  simp only [laneAbs, fp32Of_nan_iff]; rfl
theorem laneNeg_eq (a : Word) : laneNeg a = if Claims.isNan a then 0x7FC00000 else a ^^^ 0x80000000 := by
  simp only [laneNeg, fp32Of_nan_iff]; rfl

end Sys2Proof.Machine

/-! SUPPORT. Completion of the floating-point lane instructions (R198, R199, R202, R215): the words drawn, the flags of the active lanes,
and what an instruction by itself leaves. -/

namespace Sys2Proof.Machine

/-! ## The words drawn (R202, R215) -/

/-- One round of the Hare (R215). -/
def hareStep (key : Dword) (s : Word × Word × Word × Word) (c : Word × Nat) : Word × Word × Word × Word :=
  (s.2.1 ^^^ (s.1 * 0xB7E43D59#32).rotateLeft c.2 ^^^ (key.extractLsb' 0 32 ^^^ c.1), s.2.2.1 * 0xD62FA8C3#32,
    s.2.2.2 + (s.2.2.1 * 0xD62FA8C3#32).rotateLeft c.2 + (key.extractLsb' 32 32 + c.1), s.1 * 0xB7E43D59#32)

theorem hareRounds_eq_foldl (key : Dword) (n i : Nat) (s : Word × Word × Word × Word) :
    hareRounds key n i s = ((List.range' i n).map hareRound).foldl (hareStep key) s := by
  induction n generalizing i s with
  | zero => rfl
  | succ n ih => rw [List.range'_succ, List.map_cons, List.foldl_cons, ← ih]; rfl

theorem ofNat_mul_toNat (v : Word) (n : ℕ) : BitVec.ofNat 32 (v.toNat * n) = v * BitVec.ofNat 32 n := by
  rw [BitVec.ofNat_mul, BitVec.ofNat_toNat, BitVec.setWidth_eq]

/-- A rotation as a sum (R215). -/
theorem ofNat_rotate (v : Word) {r : ℕ} (hr : r < 32) :
    BitVec.ofNat 32 (v.toNat * 2 ^ r + v.toNat / 2 ^ (32 - r)) = v.rotateLeft r := by
  apply BitVec.eq_of_toNat_eq
  have low : v.toNat / 2 ^ (32 - r) < 2 ^ r := by
    rw [Nat.div_lt_iff_lt_mul (by positivity), ← pow_add, Nat.add_sub_cancel' hr.le]; exact v.isLt
  have high : v.toNat * 2 ^ r % 2 ^ 32 = (v.toNat % 2 ^ (32 - r)) * 2 ^ r := by
    rw [show (2 : ℕ) ^ 32 = 2 ^ (32 - r) * 2 ^ r by rw [← pow_add, Nat.sub_add_cancel hr.le], Nat.mul_mod_mul_right]
  have fits : (v.toNat % 2 ^ (32 - r)) * 2 ^ r + v.toNat / 2 ^ (32 - r) < 2 ^ 32 := by
    have : v.toNat % 2 ^ (32 - r) + 1 ≤ 2 ^ (32 - r) := Nat.mod_lt _ (by positivity)
    have := Nat.mul_le_mul_right (2 ^ r) this
    rw [← pow_add, Nat.sub_add_cancel hr.le] at this
    linarith
  rw [BitVec.rotateLeft_def, Nat.mod_eq_of_lt hr, BitVec.toNat_or, BitVec.toNat_shiftLeft, BitVec.toNat_ushiftRight,
    BitVec.toNat_ofNat, Nat.shiftLeft_eq, Nat.shiftRight_eq_div_pow, high, ← Nat.mod_add_mod, high, Nat.mod_eq_of_lt fits,
    Nat.mul_comm _ (2 ^ r), Nat.two_pow_add_eq_or_of_lt low]

theorem hareWords_eq (key : Dword) (stream : Word) (counter : Dword) :
    Claims.hareWords key stream counter =
      [hare key stream counter 0, hare key stream counter 1, hare key stream counter 2, hare key stream counter 3] := by
  have table : Claims.rounds = ((List.range' 0 6).map hareRound).map fun c => (c.1.toNat, c.2) := by decide
  have small : ∀ c ∈ (List.range' 0 6).map hareRound, c.2 < 32 := by decide
  have words (d : Dword) : d.extractLsb' 0 32 = BitVec.ofNat 32 d.toNat ∧ d.extractLsb' 32 32 = BitVec.ofNat 32 (d.toNat / 2 ^ 32) := by
    constructor <;> apply BitVec.eq_of_toNat_eq <;> simp [Nat.shiftRight_eq_div_pow]
  unfold Claims.hareWords hare
  simp only [hareRounds_eq_foldl, words counter]
  rw [table, List.foldl_map, List.foldl_ext _ (hareStep key) _ fun s c hc => ?_]
  · rfl
  · simp only [hareStep, ofNat_rotate _ (small c hc), ofNat_mul_toNat, words key, BitVec.ofNat_add, BitVec.ofNat_toNat,
      BitVec.setWidth_eq]

/-- The counter of lane i's draw (R202). -/
theorem laneCounter_eq (c : Dword) (i : BitVec 3) :
    (c.extractLsb' 0 61 ++ i : BitVec 64) = BitVec.ofNat 64 (c.toNat % 2 ^ 61 * 8 + i.toNat) := by
  apply BitVec.eq_of_toNat_eq
  have hi := i.isLt
  rw [BitVec.toNat_append, BitVec.extractLsb'_toNat, BitVec.toNat_ofNat, Nat.shiftRight_zero, Nat.shiftLeft_eq, Nat.mul_comm,
    ← Nat.two_pow_add_eq_or_of_lt hi]
  omega

/-- Lane i's rounding is that of the mode, with the word of the manual's draw (R202). -/
theorem laneRounding_eq (t : Thread) (rm : BitVec 3) (f : Format) (i : BitVec 3) :
    laneRounding t rm f i = modeOf rm (Claims.laneDraw t f.cell.toNat i) := by
  rw [laneRounding, roundingOf_eq_modeOf, srWord, Claims.laneDraw, hareWords_eq, laneCounter_eq]
  rw [show f.cell.setWidth 32 = BitVec.ofNat 32 f.cell.toNat by cases f <;> rfl]
  rfl

theorem rm_eq (t : Thread) : t.rm = Claims.rmOf t := by
  apply BitVec.eq_of_toNat_eq
  rw [Thread.rm, Claims.rmOf, BitVec.extractLsb'_toNat, Nat.shiftRight_zero, BitVec.toNat_ofNat]
theorem ftz_eq (t : Thread) : t.ftz = Claims.ftzOf t := rfl

/-! ## Flags of the active lanes (R199) -/

theorem lanes8_eq : lanes8 = (List.range 8).map (BitVec.ofNat 3) := rfl

theorem activeFlags_eq (m : Byte) (r : Lanes LaneResult) : activeFlags m r = Claims.union m fun i => (r.get i).2 := by
  have each : ∀ a : Word, ∀ i ∈ List.range 8, (if active m (BitVec.ofNat 3 i) = true then a ||| (r.get (BitVec.ofNat 3 i)).2 else a) =
      if m.getLsbD i then a ||| (r.get (BitVec.ofNat 3 i)).2 else a := by
    intro a i hi
    rw [active, BitVec.toNat_ofNat, Nat.mod_eq_of_lt (List.mem_range.1 hi)]
  rw [activeFlags, Claims.union, List.foldl_filter, lanes8_eq, List.foldl_map]
  exact List.foldl_ext _ _ _ each

/-! ## Completion of an instruction that writes lanes -/

/-- With nothing pending, a write of lanes changes v only. -/
theorem setV_alone (t : Thread) (r : Reg) (m : Byte) (l : Lanes Word) (h : t.pend = []) :
    t.setV r m l = Claims.writeV t r m l.get := by
  simp [Thread.setV, Claims.writeV, mergeLanes, h, markPending]

theorem countSr_eq (t : Thread) (rm : BitVec 3) : t.countSr rm = Claims.counted t rm := rfl
theorem setFlags_eq (t : Thread) (f : Word) : t.setFlags f = Claims.withFlags t f := rfl
theorem withFlags_zero (t : Thread) : Claims.withFlags t 0 = t := by simp [Claims.withFlags]
theorem counted_zero (t : Thread) : Claims.counted t 0 = t := rfl

theorem counted_pc (t : Thread) (rm : BitVec 3) : (Claims.counted t rm).pc = t.pc := by unfold Claims.counted; split <;> rfl

section
variable {s : State} {n : Dword} {t : Thread}

/-! The updates of an instruction's result leave its thread by itself. -/

theorem alone_writeV (h : Claims.Alone (Claims.withThread s t) n) (r : Reg) (m : Byte) (v : BitVec 3 → Word) :
    Claims.Alone (Claims.withThread s (Claims.writeV t r m v)) n := ⟨h.ready, h.pend, h.snaps, h.loops, h.rep, h.goesOn⟩
theorem alone_withFlags (h : Claims.Alone (Claims.withThread s t) n) (f : Word) :
    Claims.Alone (Claims.withThread s (Claims.withFlags t f)) n := ⟨h.ready, h.pend, h.snaps, h.loops, h.rep, h.goesOn⟩
theorem alone_writeX (h : Claims.Alone (Claims.withThread s t) n) (r : Reg) (v : Dword) :
    Claims.Alone (Claims.withThread s (Claims.writeX t r v)) n := by
  unfold Claims.writeX; split
  · exact h
  · exact ⟨h.ready, h.pend, h.snaps, h.loops, h.rep, h.goesOn⟩
theorem alone_counted (h : Claims.Alone (Claims.withThread s t) n) (rm : BitVec 3) :
    Claims.Alone (Claims.withThread s (Claims.counted t rm)) n := by
  unfold Claims.counted; split
  · exact ⟨h.ready, h.pend, h.snaps, h.loops, h.rep, h.goesOn⟩
  · exact h
theorem alone_warn (h : Claims.Alone (Claims.withThread s t) n) (code : Byte) (a : Dword) :
    Claims.Alone (Claims.withThread s (t.warn code a)) n := by
  obtain ⟨ready, pend, snaps, loops, rep, goesOn⟩ := h
  exact ⟨(Thread.warn_run t code a).trans ready, (Thread.warn_pend t code a).trans pend, (Thread.warn_snaps t code a).trans snaps,
    (Thread.warn_loops t code a).trans loops, (Thread.warn_rep t code a).trans rep, by
      change (t.warn code a).pc + n ≠ endLink; rw [Thread.warn_pc]; exact goesOn⟩

/-- An instruction of n bytes that makes its thread t, by itself, goes on to the next address. -/
theorem run_next_alone (h : Claims.Alone (Claims.withThread s t) n) {f : Mgmt → Chip → Out}
    (hf : f s.mgmt s.chip = Chip.next s.mgmt { s.chip with t := t } n) :
    s.run f = .next (Claims.withThread s (Claims.past t n)) := by
  obtain ⟨ready, pend, snaps, loops, rep, goesOn⟩ := h
  exact State.run_of_next s f _
    (hf.trans (Chip.finish_alone s.mgmt { s.chip with t := t } (t.pc + n) false ready pend snaps loops rep goesOn))

/-- A floating-point instruction by itself writes its active lanes and their flags, and counts its draw (R198, R199). -/
theorem run_putFloat_alone (hs : Claims.Alone s n) (vd : Reg) (m : Chip → Byte) (r : Chip → BitVec 3 → LaneResult)
    (rm : Chip → BitVec 3) :
    (s.run fun g c => c.putFloat g n vd (m c) (Lanes.of (r c)) (rm c)) =
      .next (Claims.withThread s (Claims.past (Claims.counted (Claims.withFlags
        (Claims.writeV s.chip.t vd (m s.chip) fun i => (r s.chip i).1)
        (Claims.union (m s.chip) fun i => (r s.chip i).2)) (rm s.chip)) n)) := by
  refine run_next_alone (alone_counted (alone_withFlags (alone_writeV hs _ _ _) _) _) ?_
  rw [Chip.putFloat, countSr_eq, setFlags_eq, activeFlags_eq, setV_alone _ _ _ _ hs.pend]
  simp only [Lanes.get_of]
  rfl

/-- Lanes without flags set none. -/
theorem union_zero (m : Byte) : Claims.union m (fun _ => 0) = 0 := by
  have : ∀ l : List ℕ, l.foldl (fun (a : Word) i => if m.getLsbD i then a ||| 0 else a) 0 = 0 := by
    intro l
    induction l with
    | nil => rfl
    | cons i l ih => simp
  exact this _

/-- An element-wise instruction by itself that sets no flag (R205). -/
theorem floatExact_alone (hs : Claims.Alone s n) (f : Bool → Word → Word → LaneResult) (mk : BitVec 3) (vd va vb : Reg)
    {w : BitVec 3 → Word} (hf : ∀ i, f (Claims.ftzOf s.chip.t) (Claims.lane s.chip.t va i) (Claims.lane s.chip.t vb i) = (w i, 0)) :
    floatExact n f mk vd va vb s = .next (Claims.withThread s (Claims.past (Claims.writeV s.chip.t vd (s.chip.t.getM mk) w) n)) := by
  have run := run_putFloat_alone hs vd (fun c => c.t.getM mk)
    (fun c i => f c.t.ftz ((c.t.getV va).get i) ((c.t.getV vb).get i)) (fun _ => 0)
  refine run.trans ?_
  have lanes (i : BitVec 3) : f s.chip.t.ftz ((s.chip.t.getV va).get i) ((s.chip.t.getV vb).get i) = (w i, 0) := hf i
  simp only [lanes, union_zero, withFlags_zero, counted_zero]

end

theorem exec_vfcmp (cc : BitVec 2) (mk md : BitVec 3) (va vb : Reg) (s : State) :
    exec (.vfcmp cc mk md va vb) s = execVfcmp cc mk md va vb s := rfl

/-- Settles O8: the byte written is that of the meaning, whose bits are the rule's comparisons of the active lanes. -/
theorem floatCompareResults : Obligations.FloatCompareResults := by
  unfold Obligations.FloatCompareResults
  intro s cc mk md va vb hs
  refine ⟨maskOf fun i => Claims.on s.chip.t mk i && laneFcmp cc s.chip.t.ftz (Claims.lane s.chip.t va i) (Claims.lane s.chip.t vb i),
    fun k hk => ?_, ?_⟩
  · rw [getLsbD_maskOf_ofNat _ k hk, laneFcmp_eq_compares, ftz_eq]
  · rw [exec_vfcmp]
    exact run_putM_alone hs md (fun c => maskOf fun i => active (c.t.getM mk) i &&
      laneFcmp cc c.t.ftz ((c.t.getV va).get i) ((c.t.getV vb).get i)) 0

end Sys2Proof.Machine

/-! SUPPORT. Reciprocals and reciprocal square roots (R213, R214): an integer quotient and an integer root give the leading bits that one
rounding needs. -/

namespace Sys2Proof.Machine

/-! ## Results of a known number of leading bits in FP32 (R213) -/

/-- A magnitude z·2^exp that is known in its leading bits, converted into an FP32 lane. -/
theorem convert32_cvtReal {rm : BitVec 3} (hrm : rm.toNat ≤ 4) (draw : Word) (ftz neg : Bool) {num : ℕ} {exp : ℤ}
    {sticky : Bool} {z : ℝ} (h : Truncates num sticky z) (hs : sticky = true → 2 ^ 55 ≤ num) :
    Claims.CvtReal Claims.fp32 rm draw false ftz neg (withSign neg (z * 2 ^ exp))
      (BitVec.ofNat 32 (convertFinite .fp32 (modeOf rm draw) false ftz neg num exp sticky).bits).toNat
      (convertFinite .fp32 (modeOf rm draw) false ftz neg num exp sticky).flags := by
  have fits := convertFinite_lt .fp32 (modeOf rm draw) false ftz neg num exp sticky
  rw [BitVec.toNat_ofNat, Nat.mod_eq_of_lt (show _ < 2 ^ 32 from fits)]
  exact convertFinite_cvtReal (f := .fp32) hrm draw false ftz neg h hs

/-- The significand of an FP32 number has at most 24 bits. -/
theorem fp32Of_num_lt {ftz : Bool} {w : Word} {neg : Bool} {num : ℕ} {exp : ℤ} (h : fp32Of ftz w = .fin neg num exp) :
    num < 2 ^ 24 := by
  unfold fp32Of at h
  split at h
  · cases h; positivity
  · unfold decodeElement at h
    rw [if_neg (by decide)] at h
    generalize w.toNat % 2 ^ (Format.fp32.width - 1) = c at h
    have low : c % 2 ^ Format.fp32.mant < 2 ^ 23 := Nat.mod_lt _ (by decide)
    have unit : 2 ^ Format.fp32.mant = 2 ^ 23 := rfl
    by_cases inf : Format.fp32.infinity = some c
    · simp only [if_pos inf] at h; cases h
    by_cases nan : Format.fp32.maxCode < c
    · simp only [if_neg inf, if_pos nan] at h; cases h
    by_cases sub : c / 2 ^ Format.fp32.mant = 0
    · simp only [if_neg inf, if_neg nan, if_pos sub] at h; cases h; omega
    · simp only [if_neg inf, if_neg nan, if_neg sub] at h; cases h; omega

theorem single_of_fin {ftz : Bool} {w : Word} {neg : Bool} {num : ℕ} {exp : ℤ} (h : fp32Of ftz w = .fin neg num exp) :
    Claims.single ftz w = .fin neg (withSign neg (num * 2 ^ exp)) := by
  rw [← fp32Of_meaning, h, Value.meaning_fin]

theorem withSign_eq_zero {neg : Bool} {num : ℕ} {exp : ℤ} : withSign neg (num * 2 ^ exp : ℚ) = 0 ↔ num = 0 := by
  cases neg <;> simp [zpow_ne_zero]
theorem withSign_pos {neg : Bool} {num : ℕ} {exp : ℤ} (h : num ≠ 0) : 0 < withSign neg (num * 2 ^ exp : ℚ) ↔ neg = false := by
  have : (0 : ℚ) < num * 2 ^ exp := mul_pos (by exact_mod_cast Nat.pos_of_ne_zero h) (by positivity)
  cases neg
  · simpa using this
  · simpa using this.le

/-! ## Reciprocal (R213, R214) -/

/-- An integer quotient, sticky where a remainder is left. -/
theorem truncates_div {a b : ℕ} (hb : 0 < b) : Truncates (a / b) (decide (a / b * b ≠ a)) ((a : ℝ) / b) := by
  have pos : (0 : ℝ) < b := by exact_mod_cast hb
  refine ⟨Nat.cast_div_le, ?_, ?_⟩
  · rw [div_lt_iff₀ pos]
    have : a < (a / b + 1) * b := by rw [add_mul, one_mul]; exact Nat.lt_div_mul_add hb
    exact_mod_cast this
  · rw [decide_eq_false_iff_not, ne_eq, not_not, div_eq_iff pos.ne']
    constructor
    · intro h; exact_mod_cast h.symm
    · intro h; exact_mod_cast h.symm

/-- The quotient of 1 and a number is its reciprocal (R213). -/
theorem quotient_cvtReal {rm : BitVec 3} (hrm : rm.toNat ≤ 4) (draw : Word) (ftz neg : Bool) {num : ℕ} (h0 : num ≠ 0)
    (hlt : num < 2 ^ 24) (exp : ℤ) :
    Claims.CvtReal Claims.fp32 rm draw false ftz neg (1 / withSign neg (num * 2 ^ exp : ℝ))
      (quotient (modeOf rm draw) ftz neg num exp).1.toNat (quotient (modeOf rm draw) ftz neg num exp).2 := by
  have pos : 0 < num := Nat.pos_of_ne_zero h0
  have large : 2 ^ 55 ≤ 2 ^ 120 / num := by
    rw [Nat.le_div_iff_mul_le pos]
    calc 2 ^ 55 * num ≤ 2 ^ 55 * 2 ^ 24 := Nat.mul_le_mul_left _ hlt.le
      _ ≤ 2 ^ 120 := by norm_num
  have value : 1 / withSign neg (num * 2 ^ exp : ℝ) = withSign neg (((2 ^ 120 : ℕ) : ℝ) / num * 2 ^ (-120 - exp)) := by
    have nonzero : (num : ℝ) ≠ 0 := by exact_mod_cast h0
    rw [zpow_sub₀ two_ne_zero]
    cases neg <;> simp only [withSign_true, withSign_false] <;> push_cast <;> field_simp <;> norm_num
  rw [value]
  exact convert32_cvtReal hrm draw ftz neg (truncates_div pos) fun _ => large

theorem laneRcp_spec (er : Bool) {rm : BitVec 3} (hrm : rm.toNat ≤ 4) (draw : Word) (ftz : Bool) (a : Word) :
    Claims.Reciprocal er rm draw ftz (Claims.single ftz a) (laneRcp er (modeOf rm draw) ftz a).1
      (laneRcp er (modeOf rm draw) ftz a).2 := by
  cases hv : fp32Of ftz a with
  | nan => rw [← fp32Of_meaning, laneRcp, hv]; exact ⟨rfl, rfl⟩
  | inf neg => rw [← fp32Of_meaning, laneRcp, hv]; cases neg <;> exact ⟨rfl, rfl⟩
  | fin neg num exp =>
    rw [single_of_fin hv]
    by_cases h0 : num = 0
    · have result : laneRcp er (modeOf rm draw) ftz a = if er then (0, flagEmptyRow) else (inf32 neg, flagDivZero) := by
        simp only [laneRcp, hv, h0, if_true]
      rw [result]
      refine ⟨fun _ he => ?_, fun _ he => ?_, fun h => absurd (withSign_eq_zero.2 h0) h⟩
      · subst he; exact ⟨rfl, rfl⟩
      · subst he; exact ⟨rfl, rfl⟩
    · have result : laneRcp er (modeOf rm draw) ftz a = quotient (modeOf rm draw) ftz neg num exp := by
        simp only [laneRcp, hv, h0, if_false]
      rw [result]
      refine ⟨fun h => absurd (withSign_eq_zero.1 h) h0, fun h => absurd (withSign_eq_zero.1 h) h0, fun _ => ?_⟩
      simp only [Claims.Cvt]
      push_cast
      exact quotient_cvtReal hrm draw ftz neg h0 (fp32Of_num_lt hv) exp

/-! ## Integer roots (R210, R213) -/

/-- The largest number whose p-th power is at most x, where it is from base on and below base + 2^k. -/
theorem rootBelow_spec {p x : ℕ} (k : ℕ) {base : ℕ} (low : base ^ p ≤ x) (high : x < (base + 2 ^ k) ^ p) :
    rootBelow p x k base ^ p ≤ x ∧ x < (rootBelow p x k base + 1) ^ p := by
  induction k generalizing base with
  | zero => exact ⟨low, high⟩
  | succ k ih =>
    rw [rootBelow]
    split
    · next h => exact ih h (by rw [add_assoc, ← two_mul, ← pow_succ']; exact high)
    · next h => exact ih low (not_le.1 h)

/-- The root of a quotient, sticky where the square is not exact. -/
theorem truncates_sqrt {num x r : ℕ} (h0 : 0 < num) (low : r ^ 2 ≤ x / num) (high : x / num < (r + 1) ^ 2) :
    Truncates r (decide (r * r * num ≠ x)) (Real.sqrt ((x : ℝ) / num)) := by
  have pos : (0 : ℝ) < num := by exact_mod_cast h0
  have low' : r * r * num ≤ x := by rw [← sq]; exact (Nat.le_div_iff_mul_le h0).1 low
  have high' : x < (r + 1) * (r + 1) * num := by rw [← sq]; exact (Nat.div_lt_iff_lt_mul h0).1 high
  refine ⟨Real.le_sqrt_of_sq_le ?_, ?_, ?_⟩
  · rw [le_div_iff₀ pos, sq]; exact_mod_cast low'
  · rw [Real.sqrt_lt' (by positivity), div_lt_iff₀ pos, sq]; exact_mod_cast high'
  · rw [decide_eq_false_iff_not, ne_eq, not_not, Real.sqrt_eq_iff_mul_self_eq (by positivity) (by positivity), eq_comm,
      div_eq_iff pos.ne']
    constructor
    · intro h; exact_mod_cast h
    · intro h; exact_mod_cast h

/-- The reciprocal root of a number with an even exponent, from the root of x/num with x = 2^(2k) (R213). -/
theorem rsqrt_cvtReal {rm : BitVec 3} (hrm : rm.toNat ≤ 4) (draw : Word) (ftz : Bool) {num x r k : ℕ} {exp : ℤ} (h0 : 0 < num)
    (hx : x = 2 ^ (2 * k)) (low : r ^ 2 ≤ x / num) (high : x / num < (r + 1) ^ 2) (large : 2 ^ 55 ≤ r) (even : exp % 2 = 0) :
    Claims.CvtReal Claims.fp32 rm draw false ftz false (1 / Real.sqrt (num * 2 ^ exp))
      (BitVec.ofNat 32 (convertFinite .fp32 (modeOf rm draw) false ftz false r (-k - exp / 2) (decide (r * r * num ≠ x))).bits).toNat
      (convertFinite .fp32 (modeOf rm draw) false ftz false r (-k - exp / 2) (decide (r * r * num ≠ x))).flags := by
  have value : 1 / Real.sqrt (num * 2 ^ exp) = withSign false (Real.sqrt ((x : ℝ) / num) * 2 ^ (-(k : ℤ) - exp / 2)) := by
    have pos : (0 : ℝ) < num := by exact_mod_cast h0
    have nonzero : Real.sqrt num ≠ 0 := (Real.sqrt_pos.2 pos).ne'
    obtain ⟨m, rfl⟩ : ∃ m, exp = 2 * m := ⟨exp / 2, by omega⟩
    have root : Real.sqrt ((2 : ℝ) ^ (2 * m)) = 2 ^ m := by
      rw [mul_comm, zpow_mul]; exact Real.sqrt_sq (by positivity)
    have rootX : Real.sqrt (x : ℝ) = 2 ^ k := by
      rw [hx, mul_comm, pow_mul]; push_cast; exact Real.sqrt_sq (by positivity)
    rw [Int.mul_ediv_cancel_left _ two_ne_zero, withSign_false, Real.sqrt_mul pos.le, Real.sqrt_div (Nat.cast_nonneg x), root, rootX,
      zpow_sub₀ two_ne_zero, zpow_neg, zpow_natCast]
    field_simp
  rw [value]
  exact convert32_cvtReal hrm draw ftz false (truncates_sqrt h0 low high) fun _ => large

/-- The model's root has more bits than a significand. -/
theorem rootBelow_sqrt {num : ℕ} (h0 : 0 < num) (hlt : num < 2 ^ 25) {r : ℕ} (hr : rootBelow 2 (2 ^ 200 / num) 101 0 = r) :
    r ^ 2 ≤ 2 ^ 200 / num ∧ 2 ^ 200 / num < (r + 1) ^ 2 ∧ 2 ^ 55 ≤ r := by
  obtain ⟨low, high⟩ := rootBelow_spec (p := 2) (x := 2 ^ 200 / num) 101 (base := 0) (Nat.zero_le _)
    (lt_of_le_of_lt (Nat.div_le_self _ _) (by norm_num))
  rw [hr] at low high
  refine ⟨low, high, ?_⟩
  by_contra small
  have bound : (r + 1) ^ 2 ≤ 2 ^ 110 := by
    calc (r + 1) ^ 2 ≤ (2 ^ 55) ^ 2 := Nat.pow_le_pow_left (by omega) 2
      _ = 2 ^ 110 := by norm_num
  have big : 2 ^ 110 ≤ 2 ^ 200 / num := by
    rw [Nat.le_div_iff_mul_le h0]
    calc 2 ^ 110 * num ≤ 2 ^ 110 * 2 ^ 25 := Nat.mul_le_mul_left _ hlt.le
      _ ≤ 2 ^ 200 := by norm_num
  exact absurd (big.trans_lt high) (not_lt.2 bound)

/-- The reciprocal root of a number of at most 25 bits with an even exponent, as the model converts it (R213). -/
def rsqrtEven (mode : Rounding) (ftz : Bool) (num : Nat) (exp : Int) : LaneResult :=
  let r := rootBelow 2 (2 ^ 200 / num) 101 0
  let v := convertFinite .fp32 mode false ftz false r (-100 - exp / 2) (decide (r * r * num ≠ 2 ^ 200))
  (BitVec.ofNat 32 v.bits, v.flags)

theorem rsqrtEven_eq (mode : Rounding) (ftz : Bool) {num r : ℕ} (exp : ℤ) (hr : rootBelow 2 (2 ^ 200 / num) 101 0 = r) :
    rsqrtEven mode ftz num exp =
      (BitVec.ofNat 32 (convertFinite .fp32 mode false ftz false r (-100 - exp / 2) (decide (r * r * num ≠ 2 ^ 200))).bits,
        (convertFinite .fp32 mode false ftz false r (-100 - exp / 2) (decide (r * r * num ≠ 2 ^ 200))).flags) := by
  rw [rsqrtEven, hr]

theorem rsqrtEven_cvtReal {rm : BitVec 3} (hrm : rm.toNat ≤ 4) (draw : Word) (ftz : Bool) {num : ℕ} (h0 : 0 < num)
    (hlt : num < 2 ^ 25) {exp : ℤ} (even : exp % 2 = 0) :
    Claims.CvtReal Claims.fp32 rm draw false ftz false (1 / Real.sqrt (num * 2 ^ exp))
      (rsqrtEven (modeOf rm draw) ftz num exp).1.toNat (rsqrtEven (modeOf rm draw) ftz num exp).2 := by
  obtain ⟨r, hr⟩ : ∃ r, rootBelow 2 (2 ^ 200 / num) 101 0 = r := ⟨_, rfl⟩
  obtain ⟨low, high, large⟩ := rootBelow_sqrt h0 hlt hr
  rw [rsqrtEven_eq _ _ _ hr]
  exact rsqrt_cvtReal hrm draw ftz (k := 100) h0 (by norm_num : (2 : ℕ) ^ 200 = 2 ^ (2 * 100)) low high large even

theorem laneRsqrt_pos {ftz : Bool} {a : Word} {num : ℕ} {exp : ℤ} (mode : Rounding) (hv : fp32Of ftz a = .fin false num exp)
    (h0 : num ≠ 0) : laneRsqrt mode ftz a =
      if exp % 2 = 0 then rsqrtEven mode ftz num exp else rsqrtEven mode ftz (2 * num) (exp - 1) := by
  simp only [laneRsqrt, hv, if_neg h0, Bool.false_eq_true, if_false]
  split <;> rfl

theorem laneRsqrt_spec {rm : BitVec 3} (hrm : rm.toNat ≤ 4) (draw : Word) (ftz : Bool) (a : Word) :
    Claims.RootReciprocal rm draw ftz (Claims.single ftz a) (laneRsqrt (modeOf rm draw) ftz a).1
      (laneRsqrt (modeOf rm draw) ftz a).2 := by
  cases hv : fp32Of ftz a with
  | nan => rw [← fp32Of_meaning, laneRsqrt, hv]; exact ⟨rfl, rfl⟩
  | inf neg => rw [← fp32Of_meaning, laneRsqrt, hv]; cases neg <;> exact ⟨rfl, rfl⟩
  | fin neg num exp =>
    rw [single_of_fin hv]
    by_cases h0 : num = 0
    · have result : laneRsqrt (modeOf rm draw) ftz a = (inf32 neg, flagDivZero) := by
        simp only [laneRsqrt, hv, h0, if_true]
      rw [result]
      have zero := withSign_eq_zero (neg := neg) (exp := exp).2 h0
      exact ⟨fun _ => ⟨rfl, rfl⟩, fun h => absurd zero h.ne, fun h => absurd zero h.ne'⟩
    · refine ⟨fun h => absurd (withSign_eq_zero.1 h) h0, fun h => ?_, fun h => ?_⟩
      · have negative : neg = true := by
          by_contra pos
          exact absurd ((withSign_pos h0).2 (Bool.not_eq_true _ ▸ pos)) h.not_gt
        have result : laneRsqrt (modeOf rm draw) ftz a = (nan32, flagInvalid) := by
          simp only [laneRsqrt, hv, h0, if_false, negative, if_true]
        rw [result]; exact ⟨rfl, rfl⟩
      · obtain rfl := (withSign_pos h0).1 h
        have hlt := fp32Of_num_lt hv
        rw [laneRsqrt_pos _ hv h0, withSign_false]
        push_cast
        split
        · next even => exact rsqrtEven_cvtReal hrm draw ftz (Nat.pos_of_ne_zero h0) (by omega) even
        · next odd =>
          have shifted := rsqrtEven_cvtReal hrm draw ftz (num := 2 * num) (exp := exp - 1) (by omega) (by omega) (by omega)
          have same : ((2 * num : ℕ) : ℝ) * 2 ^ (exp - 1) = num * 2 ^ exp := by
            rw [zpow_sub_one₀ two_ne_zero]; push_cast; field_simp
          rwa [same] at shifted

end Sys2Proof.Machine

/-! SUPPORT. The logarithm (R213): the squarings give its bits, with an error that stays far below 2^−100, and no logarithm but that of a
power of two comes near an integer. -/

namespace Sys2Proof.Machine

/-! ## The bits of a logarithm (R213) -/

/-- Numbers less than one apart, from 2^200 on, have nearly the same logarithm. -/
theorem logb_cut {v w : ℝ} (hv : 2 ^ 200 ≤ v) (hvw : v ≤ w) (hw : w ≤ v + 1) :
    Real.logb 2 v ≤ Real.logb 2 w ∧ Real.logb 2 w ≤ Real.logb 2 v + 2 * (1 / 2) ^ 200 := by
  have vpos : 0 < v := lt_of_lt_of_le (by positivity) hv
  have wpos : 0 < w := vpos.trans_le hvw
  refine ⟨Real.logb_le_logb_of_le one_lt_two vpos hvw, ?_⟩
  have ln2 : 1 / 2 ≤ Real.log 2 := by have := Real.log_two_gt_d9; linarith
  have ratio : Real.log (w / v) ≤ (1 / 2) ^ 200 := by
    have near : w / v - 1 ≤ (1 / 2) ^ 200 := by
      rw [div_sub_one vpos.ne', div_le_iff₀ vpos]
      calc w - v ≤ 1 := by linarith
        _ = (1 / 2) ^ 200 * 2 ^ 200 := by rw [← mul_pow]; norm_num
        _ ≤ (1 / 2) ^ 200 * v := mul_le_mul_of_nonneg_left hv (by positivity)
    exact (Real.log_le_sub_one_of_pos (by positivity)).trans near
  have := Real.logb_div (b := 2) wpos.ne' vpos.ne'
  have scaled : Real.logb 2 (w / v) ≤ 2 * (1 / 2) ^ 200 := by
    rw [Real.logb, div_le_iff₀ (by linarith)]
    calc Real.log (w / v) ≤ (1 / 2) ^ 200 := ratio
      _ = 2 * (1 / 2) ^ 200 * (1 / 2) := by ring
      _ ≤ 2 * (1 / 2) ^ 200 * Real.log 2 := mul_le_mul_of_nonneg_left ln2 (by positivity)
  linarith

/-- The logarithm of a number in [2^200, 2^201), less 200. -/
noncomputable def fraction (x : ℕ) : ℝ := Real.logb 2 x - 200

theorem fraction_mem {x : ℕ} (low : 2 ^ 200 ≤ x) (high : x < 2 ^ 201) : 0 ≤ fraction x ∧ fraction x < 1 := by
  have low' : (2 : ℝ) ^ (200 : ℝ) ≤ x := by rw [Real.rpow_ofNat]; exact_mod_cast low
  have high' : (x : ℝ) < (2 : ℝ) ^ (201 : ℝ) := by rw [Real.rpow_ofNat]; exact_mod_cast high
  have pos : (0 : ℝ) < x := lt_of_lt_of_le (by positivity) low'
  have h1 := (Real.le_logb_iff_rpow_le one_lt_two pos).2 low'
  have h2 := (Real.logb_lt_iff_lt_rpow one_lt_two pos).2 high'
  unfold fraction
  constructor <;> linarith

/-- One squaring: the next bit, and the fraction that is left, up to the two cuts. -/
theorem squaring_spec {x : ℕ} (low : 2 ^ 200 ≤ x) (high : x < 2 ^ 201) :
    let y := x * x / 2 ^ 200
    (2 ^ 201 ≤ y → (2 ^ 200 ≤ y / 2 ∧ y / 2 < 2 ^ 201) ∧ 1 + fraction (y / 2) ≤ 2 * fraction x ∧
      2 * fraction x ≤ 1 + fraction (y / 2) + 4 * (1 / 2) ^ 200) ∧
    (y < 2 ^ 201 → 2 ^ 200 ≤ y ∧ fraction y ≤ 2 * fraction x ∧ 2 * fraction x ≤ fraction y + 4 * (1 / 2) ^ 200) := by
  intro y
  have below : y * 2 ^ 200 ≤ x * x := Nat.div_mul_le_self _ _
  have above : x * x < (y + 1) * 2 ^ 200 := by rw [add_mul, one_mul]; exact Nat.lt_div_mul_add (by positivity)
  have ylow : 2 ^ 200 ≤ y := (Nat.le_div_iff_mul_le (by positivity)).2 (Nat.mul_le_mul low low)
  have yhigh : y < 2 ^ 202 := by
    rw [Nat.div_lt_iff_lt_mul (by positivity)]
    calc x * x < 2 ^ 201 * 2 ^ 201 := Nat.mul_lt_mul'' high high
      _ = 2 ^ 202 * 2 ^ 200 := by rw [← pow_add, ← pow_add]
  have xpos : (0 : ℝ) < x := by exact_mod_cast lt_of_lt_of_le (by positivity) low
  -- the square divided by 2^200, before the cut
  have square : Real.logb 2 ((x : ℝ) * x / 2 ^ 200) = 2 * fraction x + 200 := by
    rw [Real.logb_div (by positivity) (by positivity), Real.logb_mul xpos.ne' xpos.ne', Real.logb_pow, Real.logb_self_eq_one one_lt_two]
    unfold fraction; push_cast; ring
  have cutLow : (y : ℝ) ≤ (x : ℝ) * x / 2 ^ 200 := by rw [le_div_iff₀ (by positivity)]; exact_mod_cast below
  have cutHigh : (x : ℝ) * x / 2 ^ 200 ≤ y + 1 := by rw [div_le_iff₀ (by positivity)]; exact_mod_cast above.le
  obtain ⟨le, ge⟩ := logb_cut (by exact_mod_cast ylow) cutLow cutHigh
  rw [square] at le ge
  constructor
  · intro bit
    have halfLow : 2 ^ 200 ≤ y / 2 := by omega
    have halfHigh : y / 2 < 2 ^ 201 := by omega
    have half1 : ((y / 2 : ℕ) : ℝ) ≤ (y : ℝ) / 2 := Nat.cast_div_le
    have half2 : (y : ℝ) / 2 ≤ (y / 2 : ℕ) + 1 := by
      rw [div_le_iff₀ two_pos]
      have : y ≤ (y / 2 + 1) * 2 := by omega
      exact_mod_cast this
    obtain ⟨le', ge'⟩ := logb_cut (by exact_mod_cast halfLow) half1 half2
    have ypos : (y : ℝ) ≠ 0 := by have : 0 < y := lt_of_lt_of_le (by positivity) ylow
                                  exact_mod_cast this.ne'
    rw [Real.logb_div ypos two_ne_zero, Real.logb_self_eq_one one_lt_two] at le' ge'
    refine ⟨⟨halfLow, halfHigh⟩, ?_, ?_⟩ <;> unfold fraction at * <;> linarith
  · intro _
    have tiny : (0 : ℝ) ≤ (1 / 2) ^ 200 := by positivity
    refine ⟨ylow, ?_, ?_⟩ <;> unfold fraction at * <;> linarith

/-- The bits lie below the fraction by less than one unit and the cuts. -/
theorem logBits_spec (n : ℕ) {x : ℕ} (acc : ℕ) (low : 2 ^ 200 ≤ x) (high : x < 2 ^ 201) :
    ∃ f : ℕ, logBits n x acc = acc * 2 ^ n + f ∧ (f : ℝ) ≤ 2 ^ n * fraction x ∧
      2 ^ n * fraction x ≤ f + 1 + 4 * 2 ^ n * (1 / 2) ^ 200 := by
  induction n generalizing x acc with
  | zero =>
    obtain ⟨nonneg, lt⟩ := fraction_mem low high
    have tiny : (0 : ℝ) ≤ (1 / 2) ^ 200 := by positivity
    refine ⟨0, by simp [logBits], by simpa using nonneg, ?_⟩
    simp only [pow_zero, one_mul, Nat.cast_zero]
    linarith
  | succ n ih =>
    obtain ⟨one, zero⟩ := squaring_spec low high
    have pos : (0 : ℝ) < 2 ^ n := by positivity
    rw [logBits]
    split
    · next bit =>
      obtain ⟨⟨l, h⟩, le, ge⟩ := one bit
      obtain ⟨f, eq, fle, fge⟩ := ih (2 * acc + 1) l h
      have le2 := mul_le_mul_of_nonneg_left le pos.le
      have ge2 := mul_le_mul_of_nonneg_left ge pos.le
      refine ⟨2 ^ n + f, by rw [eq, pow_succ]; ring, ?_, ?_⟩
      · push_cast; rw [pow_succ]; linarith
      · push_cast; rw [pow_succ]; linarith
    · next bit =>
      obtain ⟨l, le, ge⟩ := zero (not_le.1 bit)
      obtain ⟨f, eq, fle, fge⟩ := ih (2 * acc) l (not_le.1 bit)
      have le2 := mul_le_mul_of_nonneg_left le pos.le
      have ge2 := mul_le_mul_of_nonneg_left ge pos.le
      refine ⟨f, by rw [eq, pow_succ]; ring, ?_, ?_⟩
      · rw [pow_succ]; linarith
      · rw [pow_succ]; linarith

/-! ## vlog2 of a lane (R213) -/

/-- A number that is no power of two, of at most 24 bits, is away from the powers of two around it. -/
theorem log_margin {num k : ℕ} (hk : k ≤ 23) (low : 2 ^ k < num) (high : num < 2 ^ (k + 1)) :
    (1 / 2) ^ 24 ≤ fraction (num * 2 ^ (200 - k)) ∧ fraction (num * 2 ^ (200 - k)) ≤ 1 - (1 / 2) ^ 24 ∧
      fraction (num * 2 ^ (200 - k)) = Real.logb 2 num - k := by
  have npos : (0 : ℝ) < num := by exact_mod_cast lt_of_le_of_lt (Nat.zero_le _) low
  have ln2 : Real.log 2 ≤ 1 := by have := Real.log_two_lt_d9; linarith
  have ln2pos : 0 < Real.log 2 := Real.log_pos one_lt_two
  have value : fraction (num * 2 ^ (200 - k)) = Real.logb 2 num - k := by
    unfold fraction
    push_cast
    rw [Real.logb_mul npos.ne' (by positivity), Real.logb_pow, Real.logb_self_eq_one one_lt_two, Nat.cast_sub (by omega)]
    push_cast; ring
  have power (j : ℕ) : Real.logb 2 ((2 : ℝ) ^ j) = j := by
    rw [Real.logb_pow, Real.logb_self_eq_one one_lt_two, mul_one]
  -- the logarithm to base 2 is at least the natural one, and that at least 1 − 1/v
  have atLeast {v : ℝ} (hv : 1 ≤ v) : 1 - v⁻¹ ≤ Real.logb 2 v := by
    have hlog := Real.one_sub_inv_le_log_of_pos (lt_of_lt_of_le one_pos hv)
    refine hlog.trans ?_
    rw [Real.logb, le_div_iff₀ ln2pos]
    exact mul_le_of_le_one_right (Real.log_nonneg hv) ln2
  have unit (j : ℕ) (hj : j ≤ 24) : ((1 : ℝ) / 2) ^ 24 ≤ 1 / 2 ^ j := by
    rw [one_div_pow]
    exact one_div_le_one_div_of_le (by positivity) (pow_le_pow_right₀ one_le_two hj)
  rw [value]
  refine ⟨?_, ?_, rfl⟩
  · have ratio : 1 ≤ (num : ℝ) / 2 ^ k := by rw [one_le_div (by positivity)]; exact_mod_cast low.le
    have := atLeast ratio
    rw [Real.logb_div npos.ne' (by positivity), power, inv_div] at this
    refine le_trans (le_trans (unit (k + 1) (by omega)) ?_) this
    rw [div_le_iff₀ (by positivity), sub_mul, div_mul_eq_mul_div, le_sub_iff_add_le, ← le_sub_iff_add_le', div_le_iff₀ npos, pow_succ]
    have gap : (2 : ℝ) ^ k + 1 ≤ num := by exact_mod_cast low
    have top : (num : ℝ) ≤ 2 ^ k * 2 := by rw [← pow_succ]; exact_mod_cast high.le
    have two : (1 : ℝ) ≤ 2 ^ k := one_le_pow₀ one_le_two
    nlinarith
  · have ratio : 1 ≤ (2 : ℝ) ^ (k + 1) / num := by rw [one_le_div npos]; exact_mod_cast high.le
    have := atLeast ratio
    rw [Real.logb_div (by positivity) npos.ne', power, inv_div] at this
    have gap : (num : ℝ) + 1 ≤ 2 ^ (k + 1) := by exact_mod_cast high
    have margin : ((1 : ℝ) / 2) ^ 24 ≤ 1 - num / 2 ^ (k + 1) := by
      refine (unit (k + 1) (by omega)).trans ?_
      rw [le_sub_iff_add_le, ← add_div, div_le_one (by positivity)]
      linarith
    push_cast at this
    linarith

/-- A magnitude known to be between num and num + 1 may be taken in the middle. -/
theorem truncates_middle (num : ℕ) : Truncates num true (num + 1 / 2) :=
  ⟨by linarith, by linarith, by simp⟩

/-- The exact logarithm of a power of two (R213). -/
theorem log_exact (ftz : Bool) (e : ℤ) :
    Claims.CvtReal Claims.fp32 0 0 false ftz (decide (e < 0)) e
      (toFp32 (.fin (decide (e < 0)) e.natAbs 0) .rne ftz).1.toNat (toFp32 (.fin (decide (e < 0)) e.natAbs 0) .rne ftz).2 := by
  have conversion := toFp32_cvt (.fin (decide (e < 0)) e.natAbs 0) (rm := 0) (by decide) 0 ftz
  simp only [Value.meaning_fin, Claims.Cvt] at conversion
  have value : ((withSign (decide (e < 0)) (e.natAbs * 2 ^ (0 : ℤ) : ℚ) : ℚ) : ℝ) = e := by
    rcases lt_or_ge e 0 with neg | nonneg
    · rw [decide_eq_true neg, withSign_true, zpow_zero, mul_one, Nat.cast_natAbs, abs_of_neg neg]; push_cast; ring
    · rw [decide_eq_false (not_lt.2 nonneg), withSign_false, zpow_zero, mul_one, Nat.cast_natAbs, abs_of_nonneg nonneg]; push_cast; rfl
  rw [value] at conversion
  exact conversion

/-- The number that vlog2 rounds where the logarithm is no integer: f units of 2^−120 above the integer e, and a half. -/
noncomputable def logMiddle (e : ℤ) (f : ℕ) : ℝ := e + (f + 1 / 2) * (1 / 2) ^ 120

/-- What the model converts for it. -/
def logConverted (ftz : Bool) (e : ℤ) (f : ℕ) : Converted :=
  if e < 0 then convertFinite .fp32 .rne false ftz true (e.natAbs * 2 ^ 120 - f - 1) (-120) true
  else convertFinite .fp32 .rne false ftz false (e.natAbs * 2 ^ 120 + f) (-120) true

theorem logConverted_cvtReal (ftz : Bool) (e : ℤ) {f : ℕ} (low : 2 ^ 55 ≤ f) (high : f + 1 + 2 ^ 55 ≤ 2 ^ 120) :
    Claims.CvtReal Claims.fp32 0 0 false ftz (decide (e < 0)) (logMiddle e f) (BitVec.ofNat 32 (logConverted ftz e f).bits).toNat
      (logConverted ftz e f).flags := by
  have scale : (2 : ℝ) ^ (-120 : ℤ) = (1 / 2) ^ 120 := by rw [zpow_neg, one_div_pow, one_div]; rfl
  have one : (2 : ℝ) ^ 120 * (1 / 2) ^ 120 = 1 := by rw [← mul_pow]; norm_num
  unfold logConverted
  rcases lt_or_ge e 0 with neg | nonneg
  · rw [if_pos neg, decide_eq_true neg]
    have whole : 2 ^ 120 ≤ e.natAbs * 2 ^ 120 := Nat.le_mul_of_pos_left _ (by omega)
    have value : logMiddle e f =
        withSign true ((((e.natAbs * 2 ^ 120 - f - 1 : ℕ) : ℝ) + 1 / 2) * 2 ^ (-120 : ℤ)) := by
      rw [withSign_true, scale, logMiddle, Nat.sub_sub, Nat.cast_sub (by omega)]
      push_cast
      rw [Nat.cast_natAbs, abs_of_neg neg]
      push_cast
      linear_combination (-(e : ℝ)) * one
    rw [value]
    exact convert32_cvtReal (rm := 0) (by decide) 0 ftz true (truncates_middle _) fun _ => by omega
  · rw [if_neg (not_lt.2 nonneg), decide_eq_false (not_lt.2 nonneg)]
    have value : logMiddle e f = withSign false ((((e.natAbs * 2 ^ 120 + f : ℕ) : ℝ) + 1 / 2) * 2 ^ (-120 : ℤ)) := by
      rw [withSign_false, scale, logMiddle]
      push_cast
      rw [Nat.cast_natAbs, abs_of_nonneg nonneg]
      linear_combination (-(e : ℝ)) * one
    rw [value]
    exact convert32_cvtReal (rm := 0) (by decide) 0 ftz false (truncates_middle _) fun _ => by omega

/-- The bits of the fraction of a number that is no power of two: within 2^−100, and away from 0 and 1. -/
theorem logBits_mem {num k : ℕ} (hk : k ≤ 23) (low : 2 ^ k < num) (high : num < 2 ^ (k + 1)) {f : ℕ}
    (hf : logBits 120 (num * 2 ^ (200 - k)) 0 = f) :
    2 ^ 55 ≤ f ∧ f + 1 + 2 ^ 55 ≤ 2 ^ 120 ∧
      |(f + 1 / 2) * (1 / 2 : ℝ) ^ 120 - (Real.logb 2 num - k)| < (2 : ℝ) ^ (-100 : ℤ) := by
  have full : 2 ^ k * 2 ^ (200 - k) = 2 ^ 200 := by rw [← pow_add]; congr 1; omega
  have full' : 2 ^ (k + 1) * 2 ^ (200 - k) = 2 ^ 201 := by rw [← pow_add]; congr 1; omega
  obtain ⟨g, eq, le, ge⟩ := logBits_spec 120 0 (x := num * 2 ^ (200 - k))
    (by rw [← full]; exact Nat.mul_le_mul_right _ low.le) (by rw [← full']; exact Nat.mul_lt_mul_of_pos_right high (by positivity))
  obtain rfl : f = g := by rw [hf] at eq; omega
  obtain ⟨m1, m2, value⟩ := log_margin hk low high
  rw [← value]
  generalize fraction (num * 2 ^ (200 - k)) = L at *
  have cuts : 4 * (2 : ℝ) ^ 120 * (1 / 2) ^ 200 ≤ 1 := by norm_num
  have least : (2 : ℝ) ^ 55 ≤ f := by
    have : (2 : ℝ) ^ 55 + 2 ≤ 2 ^ 120 * (1 / 2) ^ 24 := by norm_num
    have := mul_le_mul_of_nonneg_left m1 (show (0 : ℝ) ≤ 2 ^ 120 by positivity)
    linarith
  have most : (f : ℝ) + 1 + 2 ^ 55 ≤ 2 ^ 120 := by
    have : (2 : ℝ) ^ 120 * (1 - (1 / 2) ^ 24) + 1 + 2 ^ 55 ≤ 2 ^ 120 := by norm_num
    have := mul_le_mul_of_nonneg_left m2 (show (0 : ℝ) ≤ 2 ^ 120 by positivity)
    linarith
  refine ⟨by exact_mod_cast least, by exact_mod_cast most, ?_⟩
  have unit : (0 : ℝ) < (1 / 2) ^ 120 := by positivity
  have one : (2 : ℝ) ^ 120 * (1 / 2) ^ 120 = 1 := by rw [← mul_pow]; norm_num
  have low := mul_le_mul_of_nonneg_right le unit.le
  have high := mul_le_mul_of_nonneg_right (ge.trans (add_le_add_right cuts _)) unit.le
  have small : 2 * (1 / 2 : ℝ) ^ 120 < (2 : ℝ) ^ (-100 : ℤ) := by norm_num
  rw [mul_right_comm, one, one_mul] at low high
  rw [abs_lt]
  constructor <;> linarith

theorem logMiddle_neg_iff (e : ℤ) {f : ℕ} (hf : f + 1 ≤ 2 ^ 120) : logMiddle e f < 0 ↔ e < 0 := by
  have one : (2 : ℝ) ^ 120 * (1 / 2) ^ 120 = 1 := by rw [← mul_pow]; norm_num
  have unit : (0 : ℝ) < (1 / 2) ^ 120 := by positivity
  have low : (0 : ℝ) < (f + 1 / 2) * (1 / 2) ^ 120 := by positivity
  have high : ((f : ℝ) + 1 / 2) * (1 / 2) ^ 120 < 1 := by
    have : (f : ℝ) + 1 ≤ 2 ^ 120 := by exact_mod_cast hf
    exact (mul_lt_mul_of_pos_right (by linarith) unit).trans_eq one
  unfold logMiddle
  constructor
  · intro h
    by_contra nonneg
    have : (0 : ℝ) ≤ e := by exact_mod_cast not_lt.1 nonneg
    linarith
  · intro h
    have : (e : ℝ) + 1 ≤ 0 := by exact_mod_cast h
    linarith

/-- A number of k + 1 bits that is a power of two with another exponent is 2^k. -/
theorem eq_two_pow_of_zpow {num k : ℕ} {exp j : ℤ} (low : 2 ^ k ≤ num) (high : num < 2 ^ (k + 1))
    (h : (num * 2 ^ exp : ℚ) = 2 ^ j) : num = 2 ^ k := by
  have power : (num : ℚ) = 2 ^ (j - exp) := by
    rw [zpow_sub₀ two_ne_zero, eq_div_iff (by positivity)]; exact h
  have lowZ : (2 : ℚ) ^ (k : ℤ) ≤ 2 ^ (j - exp) := by rw [← power, zpow_natCast]; exact_mod_cast low
  have highZ : (2 : ℚ) ^ (j - exp) < 2 ^ ((k : ℤ) + 1) := by
    rw [← power, show (k : ℤ) + 1 = ((k + 1 : ℕ) : ℤ) by push_cast; rfl, zpow_natCast]; exact_mod_cast high
  have same : j - exp = k := by
    have := (zpow_le_zpow_iff_right₀ one_lt_two).1 lowZ
    have := (zpow_lt_zpow_iff_right₀ one_lt_two).1 highZ
    omega
  rw [same, zpow_natCast] at power
  exact_mod_cast power

/-- vlog2 of a positive number: its exact logarithm where that is an integer, else a number within 2^−100 (R213). -/
theorem laneLog2_pos {ftz : Bool} {a : Word} {num : ℕ} {exp : ℤ} (hv : fp32Of ftz a = .fin false num exp) (h0 : num ≠ 0) :
    ∃ (r : ℝ) (neg : Bool), |r - Real.logb 2 ((num * 2 ^ exp : ℚ) : ℝ)| < (2 : ℝ) ^ (-100 : ℤ) ∧
      (∀ k : ℤ, (num * 2 ^ exp : ℚ) = 2 ^ k → r = k) ∧ (neg = true ↔ r < 0) ∧
      Claims.CvtReal Claims.fp32 0 0 false ftz neg r (laneLog2 ftz a).1.toNat (laneLog2 ftz a).2 := by
  have hlt := fp32Of_num_lt hv
  have low := two_pow_bitLength_le h0
  have high := lt_two_pow_bitLength num
  have length := bitLength_pos h0
  obtain ⟨k, hk⟩ : ∃ k, bitLength num = k + 1 := ⟨bitLength num - 1, by omega⟩
  rw [hk, Nat.add_sub_cancel] at low
  rw [hk] at high
  have npos : (0 : ℝ) < num := by exact_mod_cast Nat.pos_of_ne_zero h0
  have logarithm : Real.logb 2 ((num * 2 ^ exp : ℚ) : ℝ) = exp + Real.logb 2 num := by
    push_cast
    rw [Real.logb_mul npos.ne' (by positivity), ← Real.rpow_intCast, Real.logb_rpow two_pos (by norm_num), add_comm]
  rw [logarithm]
  by_cases power : num = 2 ^ k
  · have result : laneLog2 ftz a = toFp32 (.fin (decide (exp + k < 0)) (exp + k).natAbs 0) .rne ftz := by
      simp only [laneLog2, hv, if_neg h0, hk, Nat.add_sub_cancel, Bool.false_eq_true, if_false, if_pos power]
    rw [result]
    refine ⟨(exp + k : ℤ), decide (exp + k < 0), ?_, fun j hj => ?_,
      by rw [decide_eq_true_eq, Int.cast_lt_zero], log_exact ftz (exp + k)⟩
    · have : Real.logb 2 num = k := by
        rw [power]; push_cast; rw [Real.logb_pow, Real.logb_self_eq_one one_lt_two, mul_one]
      rw [this]; push_cast; simp
    · rw [power] at hj
      push_cast at hj
      rw [← zpow_natCast, ← zpow_add₀ two_ne_zero] at hj
      rw [← zpow_right_injective₀ two_pos (by norm_num) hj, add_comm]
  · have result : laneLog2 ftz a = (BitVec.ofNat 32 (logConverted ftz (exp + k) (logBits 120 (num * 2 ^ (200 - k)) 0)).bits,
        (logConverted ftz (exp + k) (logBits 120 (num * 2 ^ (200 - k)) 0)).flags) := by
      simp only [laneLog2, hv, if_neg h0, hk, Nat.add_sub_cancel, Bool.false_eq_true, if_false, if_neg power]
      rfl
    rw [result]
    generalize hf : logBits 120 (num * 2 ^ (200 - k)) 0 = f
    have hk23 : k ≤ 23 := by
      by_contra big
      have : 2 ^ 24 ≤ 2 ^ k := Nat.pow_le_pow_right two_pos (by omega)
      omega
    obtain ⟨flow, fhigh, near⟩ := logBits_mem hk23 (lt_of_le_of_ne low (Ne.symm power)) high hf
    refine ⟨logMiddle (exp + k) f, decide (exp + k < 0), ?_, fun j hj => ?_, ?_, logConverted_cvtReal ftz (exp + k) flow fhigh⟩
    · rw [logMiddle]
      push_cast
      convert near using 2
      ring
    · exact absurd (eq_two_pow_of_zpow low high hj) power
    · rw [decide_eq_true_eq]; exact (logMiddle_neg_iff (exp + k) (by omega)).symm

theorem laneLog2_spec (ftz : Bool) (a : Word) :
    Claims.Logarithm ftz (Claims.single ftz a) (laneLog2 ftz a).1 (laneLog2 ftz a).2 := by
  cases hv : fp32Of ftz a with
  | nan => rw [← fp32Of_meaning, laneLog2, hv]; exact ⟨rfl, rfl⟩
  | inf neg => rw [← fp32Of_meaning, laneLog2, hv]; cases neg <;> exact ⟨rfl, rfl⟩
  | fin neg num exp =>
    rw [single_of_fin hv]
    by_cases h0 : num = 0
    · have result : laneLog2 ftz a = (inf32 true, flagDivZero) := by
        simp only [laneLog2, hv, h0, if_true]
      rw [result]
      have zero := withSign_eq_zero (neg := neg) (exp := exp).2 h0
      exact ⟨fun _ => ⟨rfl, rfl⟩, fun h => absurd zero h.ne, fun h => absurd zero h.ne'⟩
    · refine ⟨fun h => absurd (withSign_eq_zero.1 h) h0, fun h => ?_, fun h => ?_⟩
      · have negative : neg = true := by
          by_contra pos
          exact absurd ((withSign_pos h0).2 (Bool.not_eq_true _ ▸ pos)) h.not_gt
        have result : laneLog2 ftz a = (nan32, flagInvalid) := by
          simp only [laneLog2, hv, h0, if_false, negative, if_true]
        rw [result]; exact ⟨rfl, rfl⟩
      · obtain rfl := (withSign_pos h0).1 h
        rw [withSign_false]
        exact laneLog2_pos hv h0

end Sys2Proof.Machine

/-! SUPPORT. Results in range (R113): the rounded result of a bounded number is a number within the same bound and near the exact one,
for the steps of the exponential's procedure (R209). -/

namespace Sys2Proof.Machine

/-! ## Results in range (R113, R209) -/

theorem roundsTo_near {rm : BitVec 3} {draw : Word} {x : ℝ} {n : ℤ} (h : Claims.RoundsTo rm draw x n) : |(n : ℝ) - x| ≤ 1 := by
  obtain ⟨lo, low, high, on, off⟩ := h
  rw [abs_le]
  by_cases e : x = lo
  · rw [on e, e]; simp
  · rcases (off e).1 with rfl | rfl <;> push_cast <;> constructor <;> linarith

theorem two_pow_le_top {j : ℤ} (hj : j ≤ 127) : (2 : ℝ) ^ j ≤ Claims.magnitude Claims.fp32 Claims.fp32.top := by
  have power : Claims.magnitude Claims.fp32 (253 * 2 ^ 23 + 2 ^ 23) = 2 ^ (127 : ℤ) := by
    have := magnitude_add Claims.fp32 (u := 253) (q := 2 ^ 23) (by norm_num [Claims.fp32]) (Or.inr (by norm_num [Claims.fp32]))
    simp only [Claims.fp32] at this
    rw [show Claims.fp32 = ⟨32, 23, 127, 0x7F7FFFFF, some 0x7F800000, some 0x7FC00000, 0x10⟩ from rfl, this]
    norm_num
  have mono := (magnitude_strictMono Claims.fp32).monotone (show 253 * 2 ^ 23 + 2 ^ 23 ≤ Claims.fp32.top by norm_num [Claims.fp32])
  rw [power] at mono
  calc (2 : ℝ) ^ j ≤ 2 ^ (127 : ℤ) := zpow_le_zpow_right₀ one_le_two hj
    _ ≤ _ := by exact_mod_cast mono

/-- A conversion of a number of at most 2^j, with its own sign, is a number of at most 2^j and near it. -/
theorem cvtReal_near {neg : Bool} {e : ℝ} {b : ℕ} {fl : Word} (h : Claims.CvtReal Claims.fp32 0 0 false false neg e b fl)
    (he : e = withSign neg |e|) {j : ℤ} (hj : -149 ≤ j) (hj' : j ≤ 127) (hle : |e| ≤ 2 ^ j) :
    ∃ c ≤ Claims.fp32.top, b = Claims.signed Claims.fp32 neg c ∧ (Claims.magnitude Claims.fp32 c : ℝ) ≤ 2 ^ j ∧
      |withSign neg (Claims.magnitude Claims.fp32 c : ℝ) - e| ≤ |e| * (1 / 2) ^ 23 + (1 / 2) ^ 149 := by
  obtain ⟨k, n, hk, -, hlow, rounds, -, -, inside⟩ := h
  have unit : (0 : ℝ) < 2 ^ k := by positivity
  have kj : k ≤ j := by
    rcases hlow with rfl | low
    · exact hj
    · have := (zpow_le_zpow_iff_right₀ (one_lt_two (α := ℝ))).1 (low.trans hle)
      simp only [Claims.fp32] at this; omega
  obtain ⟨d, rfl⟩ : ∃ d : ℕ, j = k + d := ⟨(j - k).toNat, by omega⟩
  -- the rounded number keeps the bound and the sign
  have scaled : |e / 2 ^ k| ≤ ((2 ^ d : ℕ) : ℝ) := by
    rw [abs_div, abs_of_pos unit, div_le_iff₀ unit, mul_comm]; push_cast
    rwa [zpow_add₀ two_ne_zero, zpow_natCast] at hle
  obtain ⟨below, above⟩ := abs_le.1 scaled
  have nle : n ≤ ((2 ^ d : ℕ) : ℤ) := roundsTo_le rounds (by exact_mod_cast above)
  have nge : -((2 ^ d : ℕ) : ℤ) ≤ n := le_of_roundsTo rounds (by push_cast at below ⊢; exact below)
  have bound : |(n : ℝ) * 2 ^ k| ≤ 2 ^ (k + (d : ℤ)) := by
    rw [abs_mul, abs_of_pos unit, zpow_add₀ two_ne_zero, zpow_natCast, mul_comm]
    refine mul_le_mul_of_nonneg_left (abs_le.2 ⟨?_, ?_⟩) unit.le
    · exact_mod_cast nge
    · exact_mod_cast nle
  have sign : withSign neg |(n : ℝ) * 2 ^ k| = n * 2 ^ k := by
    cases neg with
    | false =>
      rw [withSign_false] at he ⊢
      have : 0 ≤ n := le_of_roundsTo rounds (by rw [Int.cast_zero]; exact div_nonneg (by rw [he]; exact abs_nonneg e) unit.le)
      exact abs_of_nonneg (mul_nonneg (by exact_mod_cast this) unit.le)
    | true =>
      rw [withSign_true] at he ⊢
      have : n ≤ 0 := roundsTo_le rounds (by
        rw [Int.cast_zero]; exact div_nonpos_of_nonpos_of_nonneg (by rw [he]; simp) unit.le)
      rw [abs_of_nonpos (mul_nonpos_of_nonpos_of_nonneg (by exact_mod_cast this) unit.le), neg_neg]
  obtain ⟨⟨c, hc, value, bits⟩, -⟩ := inside (bound.trans (two_pow_le_top hj')) (by simp)
  refine ⟨c, hc, bits, value.le.trans bound, ?_⟩
  rw [value, sign]
  have near := mul_le_mul_of_nonneg_right (roundsTo_near rounds) unit.le
  rw [← abs_of_pos unit, ← abs_mul, abs_of_pos unit, sub_mul, div_mul_cancel₀ _ unit.ne', one_mul] at near
  refine near.trans ?_
  rcases hlow with rfl | low
  · have : (2 : ℝ) ^ (1 - (Claims.fp32.bias : ℤ) - Claims.fp32.mant) = (1 / 2) ^ 149 := by
      rw [show 1 - (Claims.fp32.bias : ℤ) - Claims.fp32.mant = -((149 : ℕ) : ℤ) from rfl, zpow_neg, zpow_natCast, one_div, inv_pow]
    rw [this]
    have := mul_nonneg (abs_nonneg e) (show (0 : ℝ) ≤ (1 / 2) ^ 23 by positivity)
    linarith
  · have small : (2 : ℝ) ^ k ≤ |e| * (1 / 2) ^ 23 := by
      have := mul_le_mul_of_nonneg_right low (show (0 : ℝ) ≤ (1 / 2) ^ 23 by positivity)
      rwa [zpow_add₀ two_ne_zero, show (Claims.fp32.mant : ℤ) = ((23 : ℕ) : ℤ) from rfl, zpow_natCast, mul_assoc, ← mul_pow,
        show (2 : ℝ) * (1 / 2) = 1 by norm_num, one_pow, mul_one] at this
    have : (0 : ℝ) ≤ (1 / 2) ^ 149 := by positivity
    linarith

/-- A word that stands for a number, with its own sign. -/
def Reads (w : Word) (s : Bool) (v : ℚ) : Prop := Claims.single false w = .fin s v ∧ v = withSign s |v|

theorem reads_of_signed {neg : Bool} {c : ℕ} {w : Word} (hc : c ≤ Claims.fp32.top) (hw : w.toNat = Claims.signed Claims.fp32 neg c) :
    Reads w neg (withSign neg (Claims.magnitude Claims.fp32 c)) := by
  have small : c < 2 ^ 31 := lt_of_le_of_lt hc (by norm_num [Claims.fp32])
  have hs : signOf w = neg := by
    rw [signOf, hw]
    cases neg <;> simp [Claims.signed, Claims.fp32]
    omega
  have hcode : codeOf w = c := by
    rw [codeOf, hw]
    cases neg <;> simp only [Claims.signed, Claims.fp32, Bool.false_eq_true, if_false, if_true] <;> omega
  refine ⟨?_, by rw [abs_withSign, abs_of_nonneg (magnitude_nonneg _ _)]⟩
  rw [single_eq, show Claims.flushed false w = w from rfl, hs, hcode]
  simp only [Claims.fp32] at hc
  rw [if_neg (by omega), if_neg (by omega)]

theorem reads_of_fin {w : Word} {neg : Bool} {num : ℕ} {exp : ℤ} (h : fp32Of false w = .fin neg num exp) :
    Reads w neg (withSign neg (num * 2 ^ exp)) :=
  ⟨single_of_fin h, by rw [abs_withSign, abs_of_nonneg (by positivity)]⟩

/-- A result from an exact number of at most 2^j is a number of at most 2^j and near it. -/
theorem gives_near {s : Bool} {v : ℚ} {w fl : Word} (h : Claims.Gives 0 0 false (some (.fin s v)) w fl) (hv : v = withSign s |v|)
    {j : ℤ} (hj : -149 ≤ j) (hj' : j ≤ 127) (hle : |v| ≤ 2 ^ j) :
    ∃ u, Reads w s u ∧ |u| ≤ 2 ^ j ∧ |u - v| ≤ |v| * (1 / 2) ^ 23 + (1 / 2) ^ 149 := by
  have hv' : (v : ℝ) = withSign s |(v : ℝ)| := by rw [← Rat.cast_abs, ← cast_withSign_rat, ← hv]
  obtain ⟨c, hc, bits, small, near⟩ := cvtReal_near h hv' hj hj' (by
    rw [← Rat.cast_abs, ← Rat.cast_ofNat, ← Rat.cast_zpow, Rat.cast_le]; exact hle)
  refine ⟨_, reads_of_signed hc bits, ?_, ?_⟩
  · rw [abs_withSign, abs_of_nonneg (magnitude_nonneg _ _), ← Rat.cast_le (K := ℝ)]; push_cast; exact small
  · rw [← Rat.cast_le (K := ℝ)]; push_cast; exact near

/-! ## The procedure's operations (R209) -/

theorem mul32_product (a b : Word) : Claims.Product a b (mul32 a b) := ⟨_, laneMul_gives (rm := 0) (by decide) 0 false a b⟩
theorem fma32_fused (a b c : Word) : Claims.Fused a b c (fma32 a b c) := ⟨_, laneFma_gives (rm := 0) (by decide) 0 false a b c⟩

theorem mul32_near {a b : Word} {s t : Bool} {x y : ℚ} (ha : Reads a s x) (hb : Reads b t y) {j : ℤ} (hj : -149 ≤ j) (hj' : j ≤ 127)
    (hle : |x * y| ≤ 2 ^ j) :
    ∃ r u, Reads (mul32 a b) r u ∧ |u| ≤ 2 ^ j ∧ |u - x * y| ≤ |x * y| * (1 / 2) ^ 23 + (1 / 2) ^ 149 := by
  obtain ⟨fl, h⟩ := mul32_product a b
  rw [ha.1, hb.1] at h
  obtain ⟨u, hu⟩ := gives_near h (v := x * y) (by
    conv_lhs => rw [ha.2, hb.2]
    rw [abs_mul]; cases s <;> cases t <;> simp) hj hj' hle
  exact ⟨_, u, hu⟩

theorem sumSign_spec (rdn s t : Bool) (x y : ℚ) : x + y = withSign (sumSign rdn s t x y) |x + y| := by
  unfold sumSign
  split
  · next h => rw [h]; simp
  · rcases lt_or_ge (x + y) 0 with h | h
    · rw [decide_eq_true h, withSign_true, abs_of_neg h, neg_neg]
    · rw [decide_eq_false (not_lt.2 h), withSign_false, abs_of_nonneg h]

theorem fma32_near {a b c : Word} {s t r : Bool} {x y z : ℚ} (ha : Reads a s x) (hb : Reads b t y) (hc : Reads c r z) {j : ℤ}
    (hj : -149 ≤ j) (hj' : j ≤ 127) (hle : |x * y + z| ≤ 2 ^ j) :
    ∃ q u, Reads (fma32 a b c) q u ∧ |u| ≤ 2 ^ j := by
  obtain ⟨fl, h⟩ := fma32_fused a b c
  rw [ha.1, hb.1, hc.1] at h
  obtain ⟨u, hu, small, -⟩ := gives_near h (sumSign_spec false (s != t) r (x * y) z) hj hj' hle
  exact ⟨_, u, hu, small⟩

end Sys2Proof.Machine

/-! SUPPORT. The table of the exponential (R210): each entry is the power of two rounded. -/

namespace Sys2Proof.Machine

/-! ## T[j] (R210) -/

/-- The 64th root of 2^(1536 + j) lies between the integer root and the next integer, and is never the root where that is odd. -/
theorem root64_mem {j n r : ℕ} (hn : n = 1536 + j) (low : r ^ 64 ≤ 2 ^ n) (high : 2 ^ n < (r + 1) ^ 64) :
    (r : ℝ) ≤ 2 ^ 24 * 2 ^ ((j : ℝ) / 64) ∧ 2 ^ 24 * 2 ^ ((j : ℝ) / 64) < (r : ℝ) + 1 ∧
      (r % 2 = 1 → r ≠ 1 → (r : ℝ) ≠ 2 ^ 24 * 2 ^ ((j : ℝ) / 64)) := by
  have power : ((2 : ℝ) ^ 24 * 2 ^ ((j : ℝ) / 64)) ^ 64 = ((2 ^ n : ℕ) : ℝ) := by
    have root : ((2 : ℝ) ^ ((j : ℝ) / 64)) ^ 64 = 2 ^ j := by
      rw [← Real.rpow_natCast, ← Real.rpow_mul zero_le_two, ← Real.rpow_natCast]
      congr 1; push_cast; ring
    rw [mul_pow, root, ← pow_mul, ← pow_add, hn, Nat.cast_pow, Nat.cast_ofNat]
  have nonneg : (0 : ℝ) ≤ 2 ^ 24 * 2 ^ ((j : ℝ) / 64) := by positivity
  generalize (2 : ℝ) ^ 24 * 2 ^ ((j : ℝ) / 64) = z at *
  have sixtyFour : (64 : ℕ) ≠ 0 := by norm_num
  refine ⟨?_, ?_, fun odd one same => ?_⟩
  · refine le_of_pow_le_pow_left₀ sixtyFour nonneg ?_
    rw [power, ← Nat.cast_pow, Nat.cast_le]
    exact low
  · refine lt_of_pow_lt_pow_left₀ 64 (Nat.cast_add_one_pos r).le ?_
    rw [power, ← Nat.cast_succ, ← Nat.cast_pow, Nat.cast_lt]
    exact high
  · have exact : r ^ 64 = 2 ^ n := by
      rw [← same, ← Nat.cast_pow, Nat.cast_inj] at power; exact power
    have : r ∣ 2 ^ n := by rw [← exact]; exact dvd_pow_self r sixtyFour
    obtain ⟨i, -, rfl⟩ := (Nat.dvd_prime_pow Nat.prime_two).1 this
    rcases i with _ | i
    · exact one rfl
    · rw [pow_succ] at odd; omega

/-- Half of a number between r and r + 1 rounds to the nearest by adding 1 to r before halving (R111). -/
theorem roundsTo_half {r : ℕ} {z : ℝ} (low : (r : ℝ) ≤ z) (high : z < r + 1) (odd : r % 2 = 1 → (r : ℝ) ≠ z) :
    Claims.RoundsTo 0 0 (z / 2) (((r + 1) / 2 : ℕ) : ℤ) := by
  obtain ⟨l, rfl | rfl⟩ := Nat.even_or_odd' r
  · rw [show (2 * l + 1) / 2 = l by omega]
    push_cast at low high
    refine ⟨l, by push_cast; linarith, by push_cast; linarith, fun _ => rfl, fun _ => ⟨Or.inl rfl, ?_⟩⟩
    refine iff_of_false (by omega) ?_
    push_cast
    rintro (⟨-, h | ⟨h, -⟩⟩ | ⟨h, -⟩ | h | ⟨h, -⟩)
    · linarith
    · linarith
    all_goals exact absurd h (by decide)
  · rw [show (2 * l + 1 + 1) / 2 = l + 1 by omega]
    have strict := lt_of_le_of_ne low (odd (by omega))
    push_cast at strict high
    refine ⟨l, by push_cast; linarith, by push_cast; linarith, fun h => ?_, fun _ => ⟨Or.inr (by push_cast; rfl), ?_⟩⟩
    · exfalso; push_cast at h; linarith
    · exact iff_of_true (by push_cast; rfl) (Or.inl ⟨rfl, Or.inl (by push_cast; linarith)⟩)

/-- The table's entry is the power rounded (R210). -/
theorem expTable_cvtReal {j : ℕ} (hj : j < 64) :
    ∃ fl, Claims.CvtReal Claims.fp32 0 0 false false false ((2 : ℝ) ^ ((j : ℝ) / 64)) (expTable j).toNat fl := by
  obtain ⟨n, hn⟩ : ∃ n, n = 1536 + j := ⟨_, rfl⟩
  obtain ⟨low, high⟩ := rootBelow_spec (p := 64) (x := 2 ^ n) 25 (base := 0) (Nat.zero_le _) (by
    obtain ⟨l, hl⟩ : ∃ l, l = 25 * 64 := ⟨_, rfl⟩
    rw [Nat.zero_add, ← pow_mul, ← hl]; exact Nat.pow_lt_pow_right (by decide) (by omega))
  rw [expTable, ← hn]
  generalize rootBelow 64 (2 ^ n) 25 0 = r at *
  obtain ⟨below, above, odd⟩ := root64_mem hn low high
  clear low high
  have one_le : (1 : ℝ) ≤ 2 ^ ((j : ℝ) / 64) := Real.one_le_rpow one_le_two (div_nonneg (Nat.cast_nonneg j) (by norm_num))
  have lt_two : (2 : ℝ) ^ ((j : ℝ) / 64) < 2 := by
    calc (2 : ℝ) ^ ((j : ℝ) / 64) < 2 ^ (1 : ℝ) := by
          refine Real.rpow_lt_rpow_of_exponent_lt one_lt_two ?_
          rw [div_lt_one (by norm_num)]; exact_mod_cast hj
      _ = 2 := Real.rpow_one 2
  generalize (2 : ℝ) ^ ((j : ℝ) / 64) = e at *
  have rlow : 2 ^ 24 ≤ r := by
    have : (2 : ℝ) ^ 24 < (r : ℝ) + 1 := by linarith
    exact Nat.lt_succ_iff.1 (by exact_mod_cast this)
  have rhigh : r < 2 ^ 25 := by
    have : (r : ℝ) < 2 ^ 25 := by linarith
    exact_mod_cast this
  have rounds := roundsTo_half below above fun h => odd h (by omega)
  have word : (BitVec.ofNat 32 ((r + 1) / 2 + 126 * 2 ^ 23)).toNat = 126 * 2 ^ 23 + (r + 1) / 2 := by
    rw [BitVec.toNat_ofNat]; omega
  rw [word]
  generalize hm : (r + 1) / 2 = m at *
  have mlow : 2 ^ 23 ≤ m := by omega
  have mhigh : m ≤ 2 ^ 24 := by omega
  have value : Claims.magnitude Claims.fp32 (126 * 2 ^ 23 + m) = m * 2 ^ (-23 : ℤ) :=
    magnitude_add Claims.fp32 (u := 126) mhigh (Or.inr mlow)
  have unit : (0 : ℝ) < 2 ^ (-23 : ℤ) := by positivity
  have rounded : |((m : ℤ) : ℝ) * 2 ^ (-23 : ℤ)| = m * 2 ^ (-23 : ℤ) := by
    rw [Int.cast_natCast, abs_of_nonneg (mul_nonneg (Nat.cast_nonneg m) unit.le)]
  have small : (m : ℝ) * 2 ^ (-23 : ℤ) ≤ 2 ^ (1 : ℤ) := by
    calc (m : ℝ) * 2 ^ (-23 : ℤ) ≤ 2 ^ 24 * 2 ^ (-23 : ℤ) := mul_le_mul_of_nonneg_right (by exact_mod_cast mhigh) unit.le
      _ = 2 ^ (1 : ℤ) := by norm_num
  have tiny : (2 : ℝ) ^ (1 - (Claims.fp32.bias : ℤ)) ≤ |e| := by
    rw [abs_of_pos (by linarith)]
    refine le_trans ?_ one_le
    exact zpow_le_one_of_nonpos₀ one_le_two (by norm_num [Claims.fp32])
  refine ⟨if (m : ℝ) * 2 ^ (-23 : ℤ) = e then 0 else 1, -23, m, by decide, ?_, Or.inr ?_, ?_, ?_, ?_, ?_⟩
  · rw [abs_of_pos (by linarith), show (-23 : ℤ) + Claims.fp32.mant + 1 = 1 from rfl, zpow_one]; exact lt_two
  · rw [abs_of_pos (by linarith), show (-23 : ℤ) + Claims.fp32.mant = 0 from rfl, zpow_zero]; exact one_le
  · convert rounds using 1
    norm_num; ring
  · rw [rounded]
    exact fun h => absurd (small.trans (two_pow_le_top (by norm_num))) (not_le.2 h)
  · exact fun _ h => absurd h (by decide)
  · rw [rounded, Int.cast_natCast]
    refine fun _ _ => ⟨⟨126 * 2 ^ 23 + m, by simp only [Claims.fp32]; omega, by rw [value]; push_cast; rfl, rfl⟩,
      fun h => if_pos h, fun _ h => absurd h (not_lt.2 tiny), fun h _ => if_neg h⟩

end Sys2Proof.Machine

/-! SUPPORT. The exponential's procedure (R209): its steps by name, and that each intermediate word is a number in a small range. -/

namespace Sys2Proof.Machine

/-! ## The procedure's words (R209) -/

/-- n of the procedure: the integer nearest 64·x/ln 2. -/
def expIndex (x : Word) : Int := nearest (mul32 x 0x42B8AA3B)
/-- f of the procedure: x less n·ln 2/64, in two steps. -/
def expRest (k x : Word) : Word := fma32 k 0x32BFBE8E (fma32 k 0x3C317200 x)
/-- g of the procedure: e^f − 1. -/
def expSeries (f : Word) : Word := mul32 (fma32 (fma32 0x3E2AAAAB f 0x3F000000) f 0x3F800000) f
/-- m of the procedure: 2^(j/64)·e^f. -/
def expMantissa (j : Nat) (g : Word) : Word := fma32 (expTable j) g (expTable j)
/-- The procedure's result: m·2^q. -/
def scaleWord (m : Word) (q : Int) : LaneResult :=
  match fp32Of false m with
  | .fin s a e => toFp32 (.fin s a (e + q)) .rne false
  | _ => (nan32, 0)

theorem Reads.value {w : Word} {s : Bool} {v : ℚ} (h : Reads w s v) :
    ∃ num exp, fp32Of false w = .fin s num exp ∧ v = withSign s (num * 2 ^ exp : ℚ) := by
  have meaning := (fp32Of_meaning false w).trans h.1
  cases hw : fp32Of false w with
  | nan => rw [hw] at meaning; cases meaning
  | inf neg => rw [hw] at meaning; cases meaning
  | fin neg num exp =>
    rw [hw, Value.meaning_fin] at meaning
    obtain ⟨rfl, rfl⟩ := Claims.Num.fin.inj meaning
    exact ⟨num, exp, rfl, rfl⟩

theorem nearest_roundsTo {w : Word} {s : Bool} {v : ℚ} (h : Reads w s v) : Claims.RoundsTo 0 0 v (nearest w) := by
  obtain ⟨num, exp, hw, rfl⟩ := h.value
  have rounds := (roundTo_roundsTo (rm := 0) (by decide) 0 s (num := num) (exp := exp) (unit := 0) (truncates_self num)
    (fun h => absurd h Bool.false_ne_true)).1
  rw [sub_zero] at rounds
  rw [nearest, hw]
  push_cast
  exact rounds

/-- k of the procedure is the conversion of −n. -/
theorem ofInt32_neg (n : ℤ) :
    ∃ fl, Claims.Cvt (.float Claims.fp32) 0 0 false false (.fin (decide (0 < n)) (-n)) (ofInt32 (-n)).toNat fl := by
  have conversion := log_exact false (-n)
  have sign : decide (-n < 0) = decide (0 < n) := by rw [decide_eq_decide, neg_lt_zero]
  simp only [Claims.Cvt, ofInt32]
  push_cast at conversion ⊢
  rw [sign] at conversion ⊢
  exact ⟨_, conversion⟩

theorem ofInt32_near {n : ℤ} (hn : |n| ≤ 2 ^ 15) : ∃ s u, Reads (ofInt32 (-n)) s u ∧ |u + n| ≤ 1 / 2 := by
  obtain ⟨fl, h⟩ := ofInt32_neg n
  have hle : |(-n : ℚ)| ≤ 2 ^ (15 : ℤ) := by rw [abs_neg]; exact_mod_cast hn
  obtain ⟨u, hu, -, near⟩ := gives_near (s := decide (0 < n)) (v := -n) h (by
    rcases lt_or_ge 0 n with pos | neg
    · have : (0 : ℚ) ≤ n := by exact_mod_cast pos.le
      rw [decide_eq_true pos, withSign_true, abs_neg, abs_of_nonneg this]
    · have : (n : ℚ) ≤ 0 := by exact_mod_cast neg
      rw [decide_eq_false (not_lt.2 neg), withSign_false, abs_of_nonneg (neg_nonneg.2 this)]) (by norm_num) (by norm_num) hle
  refine ⟨_, u, hu, ?_⟩
  rw [sub_neg_eq_add] at near
  refine near.trans ?_
  have := mul_le_mul_of_nonneg_right hle (show (0 : ℚ) ≤ (1 / 2) ^ 23 by positivity)
  norm_num at this ⊢
  linarith

/-! ## Ranges (R209) -/

theorem reads_inverse : Reads 0x42B8AA3B false (12102203 / 2 ^ 17) := by
  have := reads_of_fin (w := 0x42B8AA3B) (neg := false) (num := 12102203) (exp := -17) (by decide)
  norm_num at this ⊢; exact this
theorem reads_high : Reads 0x3C317200 false (11629056 / 2 ^ 30) := by
  have := reads_of_fin (w := 0x3C317200) (neg := false) (num := 11629056) (exp := -30) (by decide)
  norm_num at this ⊢; exact this
theorem reads_low : Reads 0x32BFBE8E false (12566158 / 2 ^ 49) := by
  have := reads_of_fin (w := 0x32BFBE8E) (neg := false) (num := 12566158) (exp := -49) (by decide)
  norm_num at this ⊢; exact this
theorem reads_half : Reads 0x3F000000 false (1 / 2) := by
  have := reads_of_fin (w := 0x3F000000) (neg := false) (num := 8388608) (exp := -24) (by decide)
  norm_num at this ⊢; exact this
theorem reads_sixth : Reads 0x3E2AAAAB false (11184811 / 2 ^ 26) := by
  have := reads_of_fin (w := 0x3E2AAAAB) (neg := false) (num := 11184811) (exp := -26) (by decide)
  norm_num at this ⊢; exact this
theorem reads_one : Reads 0x3F800000 false 1 := by
  have := reads_of_fin (w := 0x3F800000) (neg := false) (num := 8388608) (exp := -23) (by decide)
  norm_num at this ⊢; exact this

section
variable {x : Word} {s : Bool} {v : ℚ}

/-- The product that n rounds. -/
theorem expIndex_reads (hx : Reads x s v) (hv : |v| ≤ 128) :
    ∃ t y, Reads (mul32 x 0x42B8AA3B) t y ∧ |y - v * (12102203 / 2 ^ 17)| ≤ 1 / 2 := by
  have product : |v * (12102203 / 2 ^ 17)| ≤ 2 ^ (14 : ℤ) := by
    rw [abs_mul, abs_of_pos (show (0 : ℚ) < 12102203 / 2 ^ 17 by norm_num)]
    norm_num at hv ⊢; linarith
  obtain ⟨t, y, hy, -, near⟩ := mul32_near hx reads_inverse (by norm_num) (by norm_num) product
  refine ⟨t, y, hy, near.trans ?_⟩
  have := mul_le_mul_of_nonneg_right product (show (0 : ℚ) ≤ (1 / 2) ^ 23 by positivity)
  norm_num at this ⊢
  linarith

/-- n is near 64·x/ln 2. -/
theorem expIndex_near (hx : Reads x s v) (hv : |v| ≤ 128) : |(expIndex x : ℚ) - v * (12102203 / 2 ^ 17)| ≤ 3 / 2 := by
  obtain ⟨t, y, hy, near⟩ := expIndex_reads hx hv
  have rounded : |(expIndex x : ℚ) - y| ≤ 1 := by
    have := roundsTo_near (nearest_roundsTo hy)
    rw [← Rat.cast_le (K := ℝ)]; push_cast; exact this
  have := abs_sub_le (expIndex x : ℚ) y (v * (12102203 / 2 ^ 17))
  linarith

/-- f is small. -/
theorem expRest_reads (hx : Reads x s v) (hv : |v| ≤ 128) :
    ∃ t f, Reads (expRest (ofInt32 (-expIndex x)) x) t f ∧ |f| ≤ 1 / 16 := by
  have near := expIndex_near hx hv
  generalize expIndex x = n at *
  rw [abs_le] at hv near
  have bound : |n| ≤ 2 ^ 15 := by
    have : |(n : ℚ)| ≤ 2 ^ 15 := by
      rw [abs_le]; norm_num at near ⊢; constructor <;> linarith
    exact_mod_cast this
  obtain ⟨t, u, hu, step⟩ := ofInt32_near bound
  rw [abs_le] at step
  obtain ⟨r, f₀, hf₀, small₀⟩ := fma32_near hu reads_high hx (j := -5) (by norm_num) (by norm_num) (by
    rw [abs_le]; norm_num at near ⊢; constructor <;> linarith)
  rw [abs_le] at small₀
  obtain ⟨r', f, hf, small⟩ := fma32_near hu reads_low hf₀ (j := -4) (by norm_num) (by norm_num) (by
    have : |(n : ℚ)| ≤ 2 ^ 15 := by exact_mod_cast bound
    rw [abs_le] at this ⊢; norm_num at this small₀ ⊢; constructor <;> linarith)
  exact ⟨r', f, hf, small.trans (by norm_num)⟩

/-- g is small. -/
theorem expSeries_reads (hx : Reads x s v) (hv : |v| ≤ 1 / 16) : ∃ t g, Reads (expSeries x) t g ∧ |g| ≤ 1 / 8 := by
  have size {a b : ℚ} (ha : |a| ≤ b) : |a * v| ≤ b / 16 := by
    rw [abs_mul]
    calc |a| * |v| ≤ b * (1 / 16) := mul_le_mul ha hv (abs_nonneg v) ((abs_nonneg a).trans ha)
      _ = b / 16 := by ring
  obtain ⟨r, g₀, hg₀, small₀⟩ := fma32_near reads_sixth hx reads_half (j := 0) (by norm_num) (by norm_num) (by
    have := abs_le.1 (size (a := 11184811 / 2 ^ 26) (b := 1) (by rw [abs_of_pos] <;> norm_num))
    rw [abs_le]; norm_num at this ⊢; constructor <;> linarith)
  obtain ⟨r', g₁, hg₁, small₁⟩ := fma32_near hg₀ hx reads_one (j := 1) (by norm_num) (by norm_num) (by
    have := abs_le.1 (size small₀)
    rw [abs_le]; norm_num at this ⊢; constructor <;> linarith)
  obtain ⟨r'', g, hg, small, -⟩ := mul32_near hg₁ hx (j := -3) (by norm_num) (by norm_num) ((size small₁).trans (by norm_num))
  exact ⟨r'', g, hg, small.trans (by norm_num)⟩

/-- The table's entry is a number of at most 2. -/
theorem expTable_reads {j : ℕ} (hj : j < 64) : ∃ u, Reads (expTable j) false u ∧ |u| ≤ 2 := by
  obtain ⟨fl, h⟩ := expTable_cvtReal hj
  have pos : (0 : ℝ) < 2 ^ ((j : ℝ) / 64) := Real.rpow_pos_of_pos two_pos _
  have le : (2 : ℝ) ^ ((j : ℝ) / 64) ≤ 2 ^ (1 : ℤ) := by
    calc (2 : ℝ) ^ ((j : ℝ) / 64) ≤ 2 ^ (1 : ℝ) := by
          refine Real.rpow_le_rpow_of_exponent_le one_le_two ?_
          rw [div_le_one (by norm_num)]; exact_mod_cast hj.le
      _ = 2 ^ (1 : ℤ) := by simp
  obtain ⟨c, hc, bits, small, -⟩ := cvtReal_near h (by rw [withSign_false, abs_of_pos pos]) (j := 1) (by norm_num) (by norm_num)
    (by rwa [abs_of_pos pos])
  refine ⟨_, reads_of_signed hc bits, ?_⟩
  rw [withSign_false, abs_of_nonneg (magnitude_nonneg _ _), ← Rat.cast_le (K := ℝ)]
  exact small.trans (by norm_num)

/-- m is a number. -/
theorem expMantissa_reads (hx : Reads x s v) (hv : |v| ≤ 1 / 8) {j : ℕ} (hj : j < 64) : ∃ t m, Reads (expMantissa j x) t m := by
  obtain ⟨u, hu, small⟩ := expTable_reads hj
  obtain ⟨t, m, hm, -⟩ := fma32_near hu hx hu (j := 2) (by norm_num) (by norm_num) (by
    have : |u * v| ≤ 2 * (1 / 8) := by rw [abs_mul]; exact mul_le_mul small hv (abs_nonneg v) zero_le_two
    rw [abs_le] at this small ⊢; norm_num at this ⊢; constructor <;> linarith)
  exact ⟨t, m, hm⟩

/-- The result is the conversion of m·2^q. -/
theorem scaleWord_cvt (hx : Reads x s v) (q : ℤ) :
    Claims.Cvt (.float Claims.fp32) 0 0 false false (.fin s (v * 2 ^ q)) (scaleWord x q).1.toNat (scaleWord x q).2 := by
  obtain ⟨num, exp, hw, rfl⟩ := hx.value
  have conversion := toFp32_cvt (.fin s num (exp + q)) (rm := 0) (by decide) 0 false
  have scaled : withSign s ((num : ℚ) * 2 ^ (exp + q)) = withSign s ((num : ℚ) * 2 ^ exp) * 2 ^ q := by
    rw [zpow_add₀ two_ne_zero]; cases s <;> simp <;> ring
  rw [Value.meaning_fin, scaled] at conversion
  rw [scaleWord, hw]
  exact conversion

end

end Sys2Proof.Machine

/-! SUPPORT. The exponential by its three ranges (R209), and the exponential of a difference (R211). -/

namespace Sys2Proof.Machine

/-! ## E(x) (R209) -/

theorem exp_above_iff (neg : Bool) (num : ℕ) (exp : ℤ) :
    (!neg && !(Value.fin neg num exp).lt (.fin false 128 0)) = true ↔ 128 ≤ withSign neg (num * 2 ^ exp : ℚ) := by
  have nonneg : (0 : ℚ) ≤ num * 2 ^ exp := by positivity
  rw [lt_eq_lessNum, Value.meaning_fin, Value.meaning_fin]
  cases neg
  · simp [lessNum]
  · simp only [Bool.not_true, Bool.false_and, Bool.false_eq_true, withSign_true, false_iff, not_le]; linarith

theorem exp_below_iff (neg : Bool) (num : ℕ) (exp : ℤ) :
    (neg && !(Value.fin true 128 0).lt (.fin neg num exp)) = true ↔ withSign neg (num * 2 ^ exp : ℚ) ≤ -128 := by
  have nonneg : (0 : ℚ) ≤ num * 2 ^ exp := by positivity
  rw [lt_eq_lessNum, Value.meaning_fin, Value.meaning_fin]
  cases neg
  · simp only [Bool.false_and, Bool.false_eq_true, withSign_false, false_iff, not_le]; linarith
  · simp [lessNum]

/-- The word that the procedure scales (R209). -/
def expWord (x : Word) : Word := expMantissa (expIndex x % 64).toNat (expSeries (expRest (ofInt32 (-expIndex x)) x))

section
variable {x : Word} {neg : Bool} {num : ℕ} {exp : ℤ}

/-! The three ranges of a number x. -/

theorem laneExp_above (hx : fp32Of false x = .fin neg num exp) (h : 128 ≤ withSign neg (num * 2 ^ exp : ℚ)) :
    laneExp x = (inf32 false, flagOverflow ||| flagInexact) := by
  rw [laneExp, hx]
  exact if_pos ((exp_above_iff neg num exp).2 h)

theorem laneExp_below (hx : fp32Of false x = .fin neg num exp) (h : withSign neg (num * 2 ^ exp : ℚ) ≤ -128) :
    laneExp x = (0, flagUnderflow ||| flagInexact) := by
  have above : ¬ 128 ≤ withSign neg (num * 2 ^ exp : ℚ) := by linarith
  rw [laneExp, hx]
  exact (if_neg (mt (exp_above_iff neg num exp).1 above)).trans (if_pos ((exp_below_iff neg num exp).2 h))

theorem laneExp_between (hx : fp32Of false x = .fin neg num exp) (low : -128 < withSign neg (num * 2 ^ exp : ℚ))
    (high : withSign neg (num * 2 ^ exp : ℚ) < 128) :
    laneExp x = ((scaleWord (expWord x) (expIndex x / 64)).1,
      (scaleWord (expWord x) (expIndex x / 64)).2 ||| if num = 0 then 0 else flagInexact) := by
  rw [laneExp, hx]
  dsimp only
  rw [if_neg (mt (exp_above_iff neg num exp).1 (not_le.2 high)), if_neg (mt (exp_below_iff neg num exp).1 (not_le.2 low))]
  cases hm : fp32Of false (expWord x) <;>
    · rw [scaleWord, hm]
      simp only [expWord, expMantissa, expSeries, expRest, expIndex] at hm ⊢
      rw [hm]

/-- Only the exponential of zero is exact (R209). -/
theorem exp_inexact (neg : Bool) (num : ℕ) (exp : ℤ) :
    (if num = 0 then 0 else flagInexact) = if withSign neg (num * 2 ^ exp : ℚ) = 0 then (0 : Word) else 1 := by
  by_cases h : num = 0
  · rw [if_pos h, if_pos (withSign_eq_zero.2 h)]
  · rw [if_neg h, if_neg (mt withSign_eq_zero.1 h)]; rfl

/-- The procedure, from its steps. -/
theorem expo_of_steps (hx : fp32Of false x = .fin neg num exp) (low : -128 < withSign neg (num * 2 ^ exp : ℚ))
    (high : withSign neg (num * 2 ^ exp : ℚ) < 128) {r out : LaneResult}
    (scaled : ∀ s v, Reads (expWord x) s v →
      Claims.Cvt (.float Claims.fp32) 0 0 false false (.fin s (v * 2 ^ (expIndex x / 64))) r.1.toNat r.2)
    (result : out = (r.1, r.2 ||| if num = 0 then 0 else flagInexact)) : Claims.Expo x out.1 out.2 := by
  obtain ⟨w, l⟩ := r
  subst result
  have reads := reads_of_fin hx
  have size : |withSign neg (num * 2 ^ exp : ℚ)| ≤ 128 := abs_le.2 ⟨low.le, high.le⟩
  have index : ((expIndex x % 64 : ℤ) : ℝ) = ((expIndex x % 64).toNat : ℝ) := by
    rw [← Int.cast_natCast, Int.toNat_of_nonneg (Int.emod_nonneg _ (by decide))]
  have hj : (expIndex x % 64).toNat < 64 := by
    have := Int.emod_lt_of_pos (expIndex x) (show (0 : ℤ) < 64 by decide); omega
  obtain ⟨sy, vy, hy, -⟩ := expIndex_reads reads size
  obtain ⟨sf, vf, hf, smallRest⟩ := expRest_reads reads size
  obtain ⟨sg, vg, hg, smallSeries⟩ := expSeries_reads hf smallRest
  obtain ⟨sm, vm, hm⟩ : ∃ s v, Reads (expWord x) s v := expMantissa_reads hg smallSeries hj
  obtain ⟨i₀, conversion⟩ := ofInt32_neg (expIndex x)
  obtain ⟨i₁, table⟩ := expTable_cvtReal hj
  rw [← index] at table
  rw [exp_inexact, Claims.Expo, reads.1]
  refine ⟨fun h => absurd h (not_le.2 high), fun h => absurd h (not_le.2 low), fun _ _ => ?_⟩
  exact ⟨expIndex x, mul32 x 0x42B8AA3B, ofInt32 (-expIndex x), fma32 (ofInt32 (-expIndex x)) 0x3C317200 x,
    expRest (ofInt32 (-expIndex x)) x, _, _, expSeries (expRest (ofInt32 (-expIndex x)) x), expTable (expIndex x % 64).toNat, expWord x,
    sy, sm, vy, vm, i₀, i₁, _,
    mul32_product _ _, hy.1, nearest_roundsTo hy, conversion, fma32_fused _ _ _, fma32_fused _ _ _, fma32_fused _ _ _,
    fma32_fused _ _ _, mul32_product _ _, table, fma32_fused _ _ _, hm.1, scaled sm vm hm, rfl⟩

end

theorem laneExp_spec (x : Word) : Claims.Expo x (laneExp x).1 (laneExp x).2 := by
  cases hx : fp32Of false x with
  | nan =>
    rw [Claims.Expo, ← fp32Of_meaning, laneExp, hx]
    exact ⟨rfl, rfl⟩
  | inf neg =>
    rw [Claims.Expo, ← fp32Of_meaning, laneExp, hx]
    exact ⟨rfl, rfl⟩
  | fin neg num exp =>
    rcases le_or_gt 128 (withSign neg (num * 2 ^ exp : ℚ)) with above | high
    · rw [laneExp_above hx above, Claims.Expo, single_of_fin hx]
      exact ⟨fun _ => ⟨rfl, rfl⟩, fun h => by linarith, fun _ h => by linarith⟩
    rcases le_or_gt (withSign neg (num * 2 ^ exp : ℚ)) (-128) with below | low
    · rw [laneExp_below hx below, Claims.Expo, single_of_fin hx]
      exact ⟨fun h => by linarith, fun _ => ⟨rfl, rfl⟩, fun h _ => by linarith⟩
    · exact expo_of_steps hx low high (fun s v h => scaleWord_cvt h (expIndex x / 64)) (laneExp_between hx low high)

/-! ## E(a − b) (R211) -/

theorem laneExpd_spec (a b : Word) : Claims.ExpoDiff a b (laneExpd a b).1 (laneExpd a b).2 := by
  have difference := laneSub_gives (rm := 0) (by decide) 0 false a b
  rw [Claims.ExpoDiff, laneExpd]
  rw [show decide ((0 : BitVec 3) = 2) = false from rfl] at difference
  rw [← fp32Of_meaning, ← fp32Of_meaning] at difference ⊢
  cases ha : fp32Of false a with
  | nan => exact ⟨rfl, rfl⟩
  | inf neg =>
    cases hb : fp32Of false b with
    | nan => cases neg <;> exact ⟨rfl, rfl⟩
    | inf neg' => cases neg <;> cases neg' <;> exact ⟨rfl, rfl⟩
    | fin _ _ _ => cases neg <;> exact ⟨rfl, rfl⟩
  | fin _ _ _ =>
    cases hb : fp32Of false b with
    | nan => exact ⟨rfl, rfl⟩
    | inf neg' => cases neg' <;> exact ⟨rfl, rfl⟩
    | fin _ _ _ =>
      rw [ha, hb] at difference
      exact ⟨_, _, difference, laneExp_spec _⟩

end Sys2Proof.Machine

/-! SUPPORT. The element-wise floating-point instructions (R204, R205, R209 to R214), each by the rule of its lane. -/

namespace Sys2Proof.Machine

/-! ## Completion with a relation of each lane (R198, R199, R202) -/

/-- An execution that writes active lanes and their flags, each related by v, counts its draw and goes on. -/
def FloatDone (s : State) (n : Dword) (vd : Reg) (m : Byte) (rm : BitVec 3) (v : BitVec 3 → Word → Word → Prop)
    (out : Host.Outcome State Fault Refusal) : Prop :=
  ∃ f fl : BitVec 3 → Word, (∀ k, v k (f k) (fl k)) ∧
    out = .next (Claims.withThread s (Claims.past (Claims.counted
      (Claims.withFlags (Claims.writeV s.chip.t vd m f) (Claims.union m fl)) rm) n))

theorem wideV_eq (v : BitVec 4) : wideV v = v.setWidth 5 := by
  apply BitVec.eq_of_toNat_eq; rw [wideV, BitVec.toNat_append, BitVec.toNat_setWidth]; simp; omega
theorem wideMask_eq (mk : BitVec 2) : wideMask mk = mk.setWidth 3 := by
  apply BitVec.eq_of_toNat_eq; rw [wideMask, BitVec.toNat_append, BitVec.toNat_setWidth]; simp; omega

/-- Lane i's rounding into FP32 by FPCTL.RM (R202). -/
def rounding (t : Thread) (i : BitVec 3) : Rounding := modeOf (Claims.rmOf t) (Claims.laneDraw t 0x10 i)

theorem rounding_eq (t : Thread) (i : BitVec 3) : laneRounding t t.rm .fp32 i = rounding t i := by
  rw [laneRounding_eq, rm_eq]; rfl

section
variable {s : State} {n : Dword} {v : BitVec 3 → Word → Word → Prop}

theorem floatDone_of_lanes (hs : Claims.Alone s n) (vd : Reg) (m : Chip → Byte) (r : Chip → BitVec 3 → LaneResult)
    (rm : Chip → BitVec 3)
    (hv : ∀ i, v i (r s.chip i).1 (r s.chip i).2) :
    FloatDone s n vd (m s.chip) (rm s.chip) v (s.run fun g c => c.putFloat g n vd (m c) (Lanes.of (r c)) (rm c)) :=
  ⟨_, _, hv, run_putFloat_alone hs vd m r rm⟩

/-- The lane operation of a two-source instruction that rounds by FPCTL.RM. -/
theorem float2_done (hs : Claims.Alone s n) (f : Rounding → Bool → Word → Word → LaneResult) (mk : BitVec 3) (vd va vb : Reg)
    (hv : ∀ i, v i (f (rounding s.chip.t i) (Claims.ftzOf s.chip.t) (Claims.lane s.chip.t va i) (Claims.lane s.chip.t vb i)).1
      (f (rounding s.chip.t i) (Claims.ftzOf s.chip.t) (Claims.lane s.chip.t va i) (Claims.lane s.chip.t vb i)).2) :
    FloatDone s n vd (s.chip.t.getM mk) (Claims.rmOf s.chip.t) v (float2 n f mk vd va vb s) := by
  rw [← rm_eq]
  refine floatDone_of_lanes hs vd (fun c => c.t.getM mk)
    (fun c i => f (laneRounding c.t c.t.rm .fp32 i) c.t.ftz ((c.t.getV va).get i) ((c.t.getV vb).get i)) (fun c => c.t.rm) fun i => ?_
  rw [rounding_eq]
  exact hv i

/-- The lane operation of a one-source instruction that rounds by FPCTL.RM. -/
theorem float1_done (hs : Claims.Alone s 4) (f : Rounding → Bool → Word → LaneResult) (mk : BitVec 3) (vd va : Reg)
    (hv : ∀ i, v i (f (rounding s.chip.t i) (Claims.ftzOf s.chip.t) (Claims.lane s.chip.t va i)).1
      (f (rounding s.chip.t i) (Claims.ftzOf s.chip.t) (Claims.lane s.chip.t va i)).2) :
    FloatDone s 4 vd (s.chip.t.getM mk) (Claims.rmOf s.chip.t) v (float1 f mk vd va s) := by
  rw [← rm_eq]
  refine floatDone_of_lanes hs vd (fun c => c.t.getM mk)
    (fun c i => f (laneRounding c.t c.t.rm .fp32 i) c.t.ftz ((c.t.getV va).get i)) (fun c => c.t.rm) fun i => ?_
  rw [rounding_eq]
  exact hv i

/-- The lane operation of an instruction that rounds by no mode. -/
theorem floatExact_done (hs : Claims.Alone s n) (f : Bool → Word → Word → LaneResult) (mk : BitVec 3) (vd va vb : Reg)
    (hv : ∀ i, v i (f (Claims.ftzOf s.chip.t) (Claims.lane s.chip.t va i) (Claims.lane s.chip.t vb i)).1
      (f (Claims.ftzOf s.chip.t) (Claims.lane s.chip.t va i) (Claims.lane s.chip.t vb i)).2) :
    FloatDone s n vd (s.chip.t.getM mk) 0 v (floatExact n f mk vd va vb s) :=
  floatDone_of_lanes hs vd (fun c => c.t.getM mk)
    (fun c i => f c.t.ftz ((c.t.getV va).get i) ((c.t.getV vb).get i)) (fun _ => 0) hv

end

/-! ## The shared form that each instruction is a case of -/

section
variable (mk : BitVec 3) (vd va vb : Reg) (mk2 : BitVec 2) (d a : BitVec 4) (s : State)

theorem exec_vfadd : exec (.vfadd mk vd va vb) s = float2 4 laneAdd mk vd va vb s := rfl
theorem exec_vfsub : exec (.vfsub mk vd va vb) s = float2 4 laneSub mk vd va vb s := rfl
theorem exec_vfmul : exec (.vfmul mk vd va vb) s = float2 4 laneMul mk vd va vb s := rfl
theorem exec_vfma : exec (.vfma mk vd va vb) s = s.run fun g c => c.putFloat g 4 vd (c.t.getM mk) (Lanes.of fun i =>
    laneFma (laneRounding c.t c.t.rm .fp32 i) c.t.ftz ((c.t.getV va).get i) ((c.t.getV vb).get i) ((c.t.getV vd).get i)) c.t.rm := rfl
theorem exec_vfadd16 : exec (.vfadd16 mk2 d a) s = float2 2 laneAdd (wideMask mk2) (wideV d) (wideV d) (wideV a) s := rfl
theorem exec_vfsub16 : exec (.vfsub16 mk2 d a) s = float2 2 laneSub (wideMask mk2) (wideV d) (wideV d) (wideV a) s := rfl
theorem exec_vfmul16 : exec (.vfmul16 mk2 d a) s = float2 2 laneMul (wideMask mk2) (wideV d) (wideV d) (wideV a) s := rfl
theorem exec_vrcp (er : Bool) : exec (.vrcp er mk vd va) s = float1 (laneRcp er) mk vd va s := rfl
theorem exec_vrsqrt : exec (.vrsqrt mk vd va) s = float1 laneRsqrt mk vd va s := rfl
theorem exec_vexp : exec (.vexp mk vd va) s = floatExact 4 (fun _ x _ => laneExp x) mk vd va va s := rfl
theorem exec_vexpd : exec (.vexpd mk vd va vb) s = floatExact 4 (fun _ x y => laneExpd x y) mk vd va vb s := rfl
theorem exec_vlog2 : exec (.vlog2 mk vd va) s = floatExact 4 (fun ftz x _ => laneLog2 ftz x) mk vd va va s := rfl
theorem exec_vfmin : exec (.vfmin mk vd va vb) s = floatExact 4 (fun ftz x y => (laneFmin ftz x y, 0)) mk vd va vb s := rfl
theorem exec_vfmax : exec (.vfmax mk vd va vb) s = floatExact 4 (fun ftz x y => (laneFmax ftz x y, 0)) mk vd va vb s := rfl
theorem exec_vfabs : exec (.vfabs mk vd va) s = floatExact 4 (fun _ x _ => (laneAbs x, 0)) mk vd va va s := rfl
theorem exec_vfneg : exec (.vfneg mk vd va) s = floatExact 4 (fun _ x _ => (laneNeg x, 0)) mk vd va va s := rfl
theorem exec_vfmin16 : exec (.vfmin16 mk2 d a) s =
    floatExact 2 (fun ftz x y => (laneFmin ftz x y, 0)) (wideMask mk2) (wideV d) (wideV d) (wideV a) s := rfl
theorem exec_vfmax16 : exec (.vfmax16 mk2 d a) s =
    floatExact 2 (fun ftz x y => (laneFmax ftz x y, 0)) (wideMask mk2) (wideV d) (wideV d) (wideV a) s := rfl

end

/-! ## The instructions -/

/-- The instructions that round nothing (R205). -/
theorem exactFloat_done {s : State} {i : Instr} {n : Dword} {vd : Reg} {m : Byte} {f : BitVec 3 → Word}
    (h : Claims.ExactFloat s.chip.t i n vd m f) (hs : Claims.Alone s n) :
    exec i s = .next (Claims.withThread s (Claims.past (Claims.writeV s.chip.t vd m f) n)) := by
  cases h with
  | vfmin mk _ va vb => rw [exec_vfmin]; exact floatExact_alone hs _ mk vd va vb fun i => by rw [laneFmin_eq]
  | vfmax mk _ va vb => rw [exec_vfmax]; exact floatExact_alone hs _ mk vd va vb fun i => by rw [laneFmax_eq]
  | vfabs mk _ va => rw [exec_vfabs]; exact floatExact_alone hs _ mk vd va va fun i => by rw [laneAbs_eq]
  | vfneg mk _ va => rw [exec_vfneg]; exact floatExact_alone hs _ mk vd va va fun i => by rw [laneNeg_eq]
  | vfmin16 mk d a =>
    rw [exec_vfmin16, wideV_eq, wideV_eq, wideMask_eq]
    exact floatExact_alone hs _ _ _ _ _ fun i => by rw [laneFmin_eq]
  | vfmax16 mk d a =>
    rw [exec_vfmax16, wideV_eq, wideV_eq, wideMask_eq]
    exact floatExact_alone hs _ _ _ _ _ fun i => by rw [laneFmax_eq]

/-- The other element-wise instructions, by the rule of each one's lane (R204, R209 to R214). -/
theorem floatLane_done {s : State} {i : Instr} {n : Dword} {vd : Reg} {m : Byte} {rm : BitVec 3} {v : BitVec 3 → Word → Word → Prop}
    (op : Claims.FloatOp s.chip.t i n vd m rm) (lane : Claims.FloatLane s.chip.t i v) (hrm : (Claims.rmOf s.chip.t).toNat ≤ 4)
    (hs : Claims.Alone s n) : FloatDone s n vd m rm v (exec i s) := by
  cases lane with
  | vfadd mk d va vb =>
    cases op; rw [exec_vfadd]
    exact float2_done hs _ _ _ _ _ fun i => laneAdd_gives hrm _ _ _ _
  | vfsub mk d va vb =>
    cases op; rw [exec_vfsub]
    exact float2_done hs _ _ _ _ _ fun i => laneSub_gives hrm _ _ _ _
  | vfmul mk d va vb =>
    cases op; rw [exec_vfmul]
    exact float2_done hs _ _ _ _ _ fun i => laneMul_gives hrm _ _ _ _
  | vfma mk d va vb =>
    cases op; rw [exec_vfma, ← rm_eq]
    refine floatDone_of_lanes hs vd (fun c => c.t.getM mk) (fun c i =>
      laneFma (laneRounding c.t c.t.rm .fp32 i) c.t.ftz ((c.t.getV va).get i) ((c.t.getV vb).get i) ((c.t.getV vd).get i))
      (fun c => c.t.rm) fun i => ?_
    rw [rounding_eq]
    exact laneFma_gives hrm _ _ _ _ _
  | vfadd16 mk d a =>
    cases op; rw [exec_vfadd16, wideV_eq, wideV_eq, wideMask_eq]
    exact float2_done hs _ _ _ _ _ fun i => laneAdd_gives hrm _ _ _ _
  | vfsub16 mk d a =>
    cases op; rw [exec_vfsub16, wideV_eq, wideV_eq, wideMask_eq]
    exact float2_done hs _ _ _ _ _ fun i => laneSub_gives hrm _ _ _ _
  | vfmul16 mk d a =>
    cases op; rw [exec_vfmul16, wideV_eq, wideV_eq, wideMask_eq]
    exact float2_done hs _ _ _ _ _ fun i => laneMul_gives hrm _ _ _ _
  | vexp mk d va =>
    cases op; rw [exec_vexp]
    exact floatExact_done hs _ _ _ _ _ fun i => laneExp_spec _
  | vexpd mk d va vb =>
    cases op; rw [exec_vexpd]
    exact floatExact_done hs _ _ _ _ _ fun i => laneExpd_spec _ _
  | vlog2 mk d va =>
    cases op; rw [exec_vlog2]
    exact floatExact_done hs _ _ _ _ _ fun i => laneLog2_spec _ _
  | vrcp er mk d va =>
    cases op; rw [exec_vrcp]
    exact float1_done hs _ _ _ _ fun i => laneRcp_spec er hrm _ _ _
  | vrsqrt mk d va =>
    cases op; rw [exec_vrsqrt]
    exact float1_done hs _ _ _ _ fun i => laneRsqrt_spec hrm _ _ _

end Sys2Proof.Machine

/-! SUPPORT. vfred by its tree (R207). -/

namespace Sys2Proof.Machine

/-! ## The tree of vfred (R207) -/

/-- The operation of two entries by vfred's op. -/
def reduceOp (op : BitVec 2) (ftz : Bool) : Word → Word → LaneResult :=
  match op with
  | 0#2 => laneAdd .rne ftz
  | 1#2 => fun x y => (laneFmin ftz x y, 0)
  | _ => fun x y => (laneFmax ftz x y, 0)
/-- The result where no lane is active. -/
def reduceNone (op : BitVec 2) : LaneResult :=
  match op with
  | 0#2 => (0, 0)
  | 1#2 => (inf32 false, 0)
  | _ => (inf32 true, 0)
/-- An active lane's entry. -/
def reduceEntry (ftz : Bool) (m : Byte) (a : Lanes Word) (i : BitVec 3) : Option LaneResult :=
  if active m i then some (plain32 ftz (a.get i), 0) else none

theorem reduceFloat_eq (op : BitVec 2) (ftz : Bool) (m : Byte) (a : Lanes Word) :
    reduceFloat op ftz m a = (reduceTree (reduceOp op ftz) (Lanes.of (reduceEntry ftz m a))).getD (reduceNone op) := by
  match op with
  | 0#2 | 1#2 | 2#2 | 3#2 => rfl

theorem op_cases {op : BitVec 2} (h : op.toNat ≤ 2) : op = 0 ∨ op = 1 ∨ op = 2 := by
  match op with
  | 0#2 => exact Or.inl rfl
  | 1#2 => exact Or.inr (Or.inl rfl)
  | 2#2 => exact Or.inr (Or.inr rfl)
  | 3#2 => exact absurd h (by decide)

theorem reduceNone_eq {op : BitVec 2} (h : op.toNat ≤ 2) :
    reduceNone op = (if op = 0 then 0 else if op = 1 then 0x7F800000 else 0xFF800000, 0) := by
  rcases op_cases h with rfl | rfl | rfl <;> rfl

/-- Two entries combine by the manual's rule. -/
theorem combine_joined {op : BitVec 2} (h : op.toNat ≤ 2) (ftz : Bool) (x y : Option LaneResult) :
    Claims.Joined op ftz x y (combine (reduceOp op ftz) x y) := by
  match x, y with
  | none, y => exact rfl
  | some _, none => exact rfl
  | some (a, fa), some (b, fb) =>
    rcases op_cases h with rfl | rfl | rfl
    · exact ⟨fun _ => ⟨_, _, laneAdd_gives (rm := 0) (by decide) 0 ftz a b, rfl⟩, fun h => absurd rfl h⟩
    · refine ⟨fun h => absurd h (by decide), fun _ => ?_⟩
      simp [combine, reduceOp, laneFmin_eq]
    · refine ⟨fun h => absurd h (by decide), fun _ => ?_⟩
      simp [combine, reduceOp, laneFmax_eq]

theorem reduceEntry_eq (t : Thread) (mk : BitVec 3) (va : Reg) (i : BitVec 3) :
    reduceEntry t.ftz (t.getM mk) (t.getV va) i =
      if Claims.on t mk i then some (Claims.plain (Claims.ftzOf t) (Claims.lane t va i), 0) else none := by
  rw [reduceEntry, plain32_eq]; rfl

theorem reduceFloat_reduced {op : BitVec 2} (h : op.toNat ≤ 2) (t : Thread) (mk : BitVec 3) (va : Reg) :
    Claims.Reduced t op mk va (reduceFloat op t.ftz (t.getM mk) (t.getV va)).1 (reduceFloat op t.ftz (t.getM mk) (t.getV va)).2 := by
  have join := combine_joined h (Claims.ftzOf t)
  rw [reduceFloat_eq, reduceNone_eq h]
  unfold Claims.Reduced
  simp only [← reduceEntry_eq]
  exact ⟨_, _, _, _, _, _, _, join _ _, join _ _, join _ _, join _ _, join _ _, join _ _, join _ _, rfl⟩

theorem setX_eq_writeX {t : Thread} (r : Reg) (v : Dword) (h : t.pend = []) : t.setX r v = Claims.writeX t r v :=
  Thread.setX_alone t r v h

theorem exec_vfred (op : BitVec 2) (mk : BitVec 3) (xd va : Reg) (s : State) :
    exec (.vfred op mk xd va) s = s.run fun g c =>
      { c with t := c.t.setFlags (reduceFloat op c.t.ftz (c.t.getM mk) (c.t.getV va)).2 }.putX g xd
        ((reduceFloat op c.t.ftz (c.t.getM mk) (c.t.getV va)).1.setWidth 64) := rfl

/-- vfred by its tree (R207). -/
theorem vfred_done {s : State} {op : BitVec 2} {mk : BitVec 3} {xd va : Reg} (wf : (Instr.vfred op mk xd va).WellFormed)
    (hs : Claims.Alone s 4) :
    ∃ w fl, Claims.Reduced s.chip.t op mk va w fl ∧
      exec (.vfred op mk xd va) s = .next (Claims.withThread s
        (Claims.past (Claims.writeX (Claims.withFlags s.chip.t fl) xd (BitVec.ofNat 64 w.toNat)) 4)) := by
  have hop : op.toNat ≤ 2 := by
    have : (vReg va && decide (op.toNat ≤ 2)) = true := wf
    exact of_decide_eq_true (Bool.and_eq_true_iff.1 this).2
  refine ⟨_, _, reduceFloat_reduced hop s.chip.t mk va, ?_⟩
  rw [exec_vfred]
  refine run_next_alone (alone_writeX (alone_withFlags hs _) _ _) ?_
  rw [BitVec.ofNat_toNat, ← setX_eq_writeX (t := Claims.withFlags s.chip.t _) xd _ hs.pend]
  rfl

end Sys2Proof.Machine

/-! SUPPORT. vfcvt (R208): elements packed side by side and taken apart again, each converted by R113. -/

namespace Sys2Proof.Machine

/-! ## Elements side by side (R208) -/

/-- The first n elements of w bits, the first in the lowest bits. -/
def packedSum (w : ℕ) (p : BitVec 3 → ℕ) (n : ℕ) : ℕ := ((List.range n).map fun k => p (BitVec.ofNat 3 k) * 2 ^ (w * k)).sum

theorem packedSum_succ (w : ℕ) (p : BitVec 3 → ℕ) (n : ℕ) :
    packedSum w p (n + 1) = 2 ^ (w * n) * p (BitVec.ofNat 3 n) + packedSum w p n := by
  rw [packedSum, List.range_succ, List.map_append, List.sum_append, List.map_singleton, List.sum_singleton, Nat.mul_comm, Nat.add_comm]
  rfl

theorem packedSum_lt {w : ℕ} {p : BitVec 3 → ℕ} (hp : ∀ k, p k < 2 ^ w) (n : ℕ) : packedSum w p n < 2 ^ (w * n) := by
  induction n with
  | zero => exact Nat.one_pos
  | succ n ih =>
    have top : p (BitVec.ofNat 3 n) + 1 ≤ 2 ^ w := hp _
    calc packedSum w p (n + 1) < 2 ^ (w * n) * p (BitVec.ofNat 3 n) + 2 ^ (w * n) := by
          rw [packedSum_succ]; exact Nat.add_lt_add_left ih _
      _ = 2 ^ (w * n) * (p (BitVec.ofNat 3 n) + 1) := by ring
      _ ≤ 2 ^ (w * n) * 2 ^ w := Nat.mul_le_mul_left _ top
      _ = 2 ^ (w * (n + 1)) := by rw [← pow_add, Nat.mul_succ]

/-- A number is its digits side by side. -/
theorem packedSum_digits {w : ℕ} (x : ℕ) {n : ℕ} (hn : n ≤ 8) :
    packedSum w (fun k => x / 2 ^ (w * k.toNat) % 2 ^ w) n = x % 2 ^ (w * n) := by
  induction n with
  | zero => rw [Nat.mul_zero, pow_zero, Nat.mod_one]; rfl
  | succ n ih =>
    rw [packedSum_succ, ih (by omega), BitVec.toNat_ofNat, Nat.mod_eq_of_lt (show n < 2 ^ 3 by omega), Nat.mul_succ, pow_add,
      Nat.mod_mul, Nat.add_comm]

theorem toNat_append_word {m : ℕ} (x : BitVec m) (y : Word) : (x ++ y).toNat = x.toNat * 2 ^ 32 + y.toNat := by
  rw [BitVec.toNat_append, Nat.shiftLeft_eq, Nat.mul_comm, ← Nat.two_pow_add_eq_or_of_lt y.isLt]

theorem packLanes_toNat (l : Lanes Word) : (packLanes l).toNat = Claims.packed l.get := by
  have digits : (packLanes l).toNat = ((((((l.l7.toNat * 2 ^ 32 + l.l6.toNat) * 2 ^ 32 + l.l5.toNat) * 2 ^ 32 + l.l4.toNat) * 2 ^ 32 +
      l.l3.toNat) * 2 ^ 32 + l.l2.toNat) * 2 ^ 32 + l.l1.toNat) * 2 ^ 32 + l.l0.toNat := by
    unfold packLanes
    iterate 7 rw [toNat_append_word]
  rw [digits, show Claims.packed l.get = packedSum 32 (fun k => (l.get k).toNat) 8 from rfl]
  iterate 8 rw [packedSum_succ]
  rw [show packedSum 32 (fun k => (l.get k).toNat) 0 = 0 from rfl]
  simp only [Lanes.get]
  ring

theorem get_unpackLanes (p : BitVec 256) (j : BitVec 3) : (unpackLanes p).get j = BitVec.ofNat 32 (p.toNat / 2 ^ (32 * j.toNat)) := by
  apply BitVec.eq_of_toNat_eq
  rw [unpackLanes, Lanes.get_of, BitVec.extractLsb'_toNat, BitVec.toNat_ofNat, Nat.shiftRight_eq_div_pow]

theorem unpackLanes_zero : unpackLanes 0 = ⟨0, 0, 0, 0, 0, 0, 0, 0⟩ := by decide

theorem packLanes_unpackLanes (p : BitVec 256) : packLanes (unpackLanes p) = p := by
  apply BitVec.eq_of_toNat_eq
  have digits := packedSum_digits (w := 32) p.toNat (le_refl 8)
  rw [Nat.mod_eq_of_lt (show p.toNat < 2 ^ (32 * 8) from p.isLt)] at digits
  rw [packLanes_toNat, ← digits]
  simp only [Claims.packed, packedSum, get_unpackLanes, BitVec.toNat_ofNat]

/-- One more element above those packed so far. -/
theorem or_shiftLeft_packed {w n b : ℕ} {p : BitVec 3 → ℕ} (hp : ∀ k, p k < 2 ^ w) (hb : p (BitVec.ofNat 3 n) = b)
    (fits : w * (n + 1) ≤ 256) :
    BitVec.ofNat 256 (packedSum w p n) ||| BitVec.ofNat 256 b <<< (w * n) = BitVec.ofNat 256 (packedSum w p (n + 1)) := by
  have whole := (packedSum_lt hp (n + 1)).trans_le (Nat.pow_le_pow_right two_pos fits)
  rw [packedSum_succ, hb] at whole
  have small : packedSum w p n < 2 ^ 256 := by omega
  have element : b < 2 ^ 256 := by
    have : 1 * b ≤ 2 ^ (w * n) * b := Nat.mul_le_mul_right b Nat.one_le_two_pow
    omega
  apply BitVec.eq_of_toNat_eq
  rw [BitVec.toNat_or, BitVec.toNat_shiftLeft, BitVec.toNat_ofNat, BitVec.toNat_ofNat, BitVec.toNat_ofNat, Nat.mod_eq_of_lt small,
    Nat.mod_eq_of_lt element, Nat.shiftLeft_eq, packedSum_succ, hb, Nat.mod_eq_of_lt whole,
    Nat.two_pow_add_eq_or_of_lt (packedSum_lt hp n), Nat.mul_comm b, Nat.or_comm, Nat.mod_eq_of_lt (by omega)]

/-! ## vfcvt.to (R208) -/

theorem Format.width_le (f : Format) : f.width ≤ 32 := by cases f <;> decide

/-- Lane k's element. -/
def convertedLane (t : Thread) (f : Format) (rm : BitVec 3) (sat : Bool) (a : Lanes Word) (k : BitVec 3) : Converted :=
  cvt (fp32Of false (a.get k)) f (laneRounding t rm f k) sat false

theorem union_all (fl : BitVec 3 → Word) : Claims.union 0xFF fl = (List.range 8).foldl (fun a i => a ||| fl (BitVec.ofNat 3 i)) 0 := by
  refine List.foldl_ext _ _ _ fun a i hi => if_pos ?_
  have each : ∀ i ∈ List.range 8, (0xFF : Byte).getLsbD i = true := by decide
  exact each i hi

section
variable (t : Thread) (f : Format) (rm : BitVec 3) (sat : Bool) (a : Lanes Word)

theorem convertedLane_lt (k : BitVec 3) : (convertedLane t f rm sat a k).bits < 2 ^ f.width := cvt_lt _ _ _ _ _

/-- vfcvt.to packs the elements and joins their flags. -/
theorem packTo_eq : packTo t f rm sat a =
    (unpackLanes (BitVec.ofNat 256 (packedSum f.width (fun k => (convertedLane t f rm sat a k).bits) 8)),
      Claims.union 0xFF fun k => (convertedLane t f rm sat a k).flags) := by
  have first (n : ℕ) (hn : n ≤ 8) : ((List.range n).map (BitVec.ofNat 3)).foldl (fun (acc : Lanes Word × Word) k =>
      (unpackLanes (packLanes acc.1 ||| (BitVec.ofNat 256 (convertedLane t f rm sat a k).bits <<< (f.width * k.toNat))),
        acc.2 ||| (convertedLane t f rm sat a k).flags)) (⟨0, 0, 0, 0, 0, 0, 0, 0⟩, 0) =
      (unpackLanes (BitVec.ofNat 256 (packedSum f.width (fun k => (convertedLane t f rm sat a k).bits) n)),
        (List.range n).foldl (fun a' i => a' ||| (convertedLane t f rm sat a (BitVec.ofNat 3 i)).flags) 0) := by
    induction n with
    | zero => exact Prod.ext unpackLanes_zero.symm rfl
    | succ n ih =>
      have fits : f.width * (n + 1) ≤ 256 := Nat.mul_le_mul f.width_le hn
      rw [List.range_succ, List.map_append, List.foldl_append, ih (by omega), List.foldl_append, List.map_singleton, List.foldl_cons,
        List.foldl_nil, List.foldl_cons, List.foldl_nil, packLanes_unpackLanes, BitVec.toNat_ofNat,
        Nat.mod_eq_of_lt (show n < 2 ^ 3 by omega), or_shiftLeft_packed (convertedLane_lt t f rm sat a) rfl fits]
  rw [union_all]
  exact first 8 le_rfl

theorem packTo_flags : (packTo t f rm sat a).2 = Claims.union 0xFF fun k => (convertedLane t f rm sat a k).flags := by rw [packTo_eq]

theorem packTo_get (j : BitVec 3) : (packTo t f rm sat a).1.get j =
    BitVec.ofNat 32 (packedSum f.width (fun k => (convertedLane t f rm sat a k).bits) 8 / 2 ^ (32 * j.toNat)) := by
  have fits := (packedSum_lt (convertedLane_lt t f rm sat a) 8).trans_le
    (Nat.pow_le_pow_right two_pos (show _ ≤ 256 from Nat.mul_le_mul_right 8 f.width_le))
  rw [packTo_eq, get_unpackLanes, BitVec.toNat_ofNat, Nat.mod_eq_of_lt fits]

/-- Each element is the conversion of its lane. -/
theorem convertedLane_cvt {rm : BitVec 3} (hrm : rm.toNat ≤ 4) (k : BitVec 3) :
    Claims.Cvt f.row rm (Claims.laneDraw t f.cell.toNat k) sat false (Claims.single false (a.get k)) (convertedLane t f rm sat a k).bits
      (convertedLane t f rm sat a k).flags := by
  rw [← fp32Of_meaning, convertedLane, laneRounding_eq]
  exact cvt_cvt _ f hrm _ sat false

end

theorem convertWarn_eq (from_ : Bool) (rm : BitVec 3) (sat : Bool) (f : Format) :
    convertWarn from_ rm sat f = Claims.convertCode from_ rm sat f.row := by
  cases from_ with
  | true => rfl
  | false =>
    cases hf : f.isInt with
    | true => rw [Format.row_of_int hf]; cases sat <;> simp [convertWarn, Claims.convertCode, hf]
    | false => rw [Format.row_of_float hf]; simp [convertWarn, Claims.convertCode, hf]

theorem roundCode_of_vfcvt {from_ : Bool} {rm : BitVec 3} {sat : Bool} {fmt : BitVec 4} {vd va : Reg}
    (wf : (Instr.vfcvt from_ rm sat fmt vd va).WellFormed) : rm.toNat ≤ 4 := by
  have : (vReg vd && vReg va && roundCode rm && convCode fmt) = true := wf
  exact of_decide_eq_true (Bool.and_eq_true_iff.1 (Bool.and_eq_true_iff.1 this).1).2

theorem exec_vfcvt_to (rm : BitVec 3) (sat : Bool) (fmt : BitVec 4) (vd va : Reg) (s : State) :
    exec (.vfcvt false rm sat fmt vd va) s = s.run fun g c =>
      { c with t := (c.t.setFlags (packTo c.t (formatOf4 fmt) rm sat (c.t.getV va)).2).countSr rm }.putV g 4 vd 0xFF
        (packTo c.t (formatOf4 fmt) rm sat (c.t.getV va)).1 (convertWarn false rm sat (formatOf4 fmt)) := rfl
theorem exec_vfcvt_from (rm : BitVec 3) (sat : Bool) (fmt : BitVec 4) (vd va : Reg) (s : State) :
    exec (.vfcvt true rm sat fmt vd va) s = s.run fun g c =>
      { c with t := c.t.setFlags (activeFlags 0xFF (unpackFrom (formatOf4 fmt) (c.t.getV va))) }.putV g 4 vd 0xFF
        (Lanes.of fun i => ((unpackFrom (formatOf4 fmt) (c.t.getV va)).get i).1) (convertWarn true rm sat (formatOf4 fmt)) := rfl

section
variable {s : State}

/-- An instruction by itself that sets flags, counts a draw, writes every lane and may meet a fallback. -/
theorem run_convert_alone (hs : Claims.Alone s 4) (fl : Chip → Word) (rm : BitVec 3) (vd : Reg) (l : Chip → Lanes Word) (code : Byte) :
    (s.run fun g c => { c with t := (c.t.setFlags (fl c)).countSr rm }.putV g 4 vd 0xFF (l c) code) =
      .next (Claims.withThread s (Claims.past ((Claims.writeV (Claims.counted (Claims.withFlags s.chip.t (fl s.chip)) rm) vd 0xFF
        (l s.chip).get).warn code s.chip.t.pc) 4)) := by
  have alone := alone_counted (alone_withFlags hs (fl s.chip)) rm
  refine run_next_alone (alone_warn (alone_writeV alone _ _ _) _ _) ?_
  have pend : (Claims.counted (Claims.withFlags s.chip.t (fl s.chip)) rm).pend = [] := alone.pend
  rw [← setV_alone _ _ _ _ pend,
    ← show (Claims.counted (Claims.withFlags s.chip.t (fl s.chip)) rm).pc = s.chip.t.pc from counted_pc _ _]
  rfl

/-- vfcvt.to (R208). -/
theorem vfcvt_to_done {rm : BitVec 3} {sat : Bool} {fmt : BitVec 4} {vd va : Reg} {F : Claims.Fmt}
    (wf : (Instr.vfcvt false rm sat fmt vd va).WellFormed) (hs : Claims.Alone s 4) (hF : Claims.formats[fmt.toNat]? = some F) :
    ∃ (p : BitVec 3 → ℕ) (fl : BitVec 3 → Word) (f : BitVec 3 → Word),
      (∀ k, Claims.Cvt F rm (Claims.laneDraw s.chip.t F.cell k) sat false
        (Claims.single false (Claims.lane s.chip.t va k)) (p k) (fl k)) ∧
      (∀ j, f j = BitVec.ofNat 32 (((List.range 8).map fun k =>
        p (BitVec.ofNat 3 k) * 2 ^ (F.width * k)).sum / 2 ^ (32 * j.toNat))) ∧
      exec (.vfcvt false rm sat fmt vd va) s = .next (Claims.withThread s (Claims.past
        ((Claims.writeV (Claims.counted (Claims.withFlags s.chip.t (Claims.union 0xFF fl)) rm) vd 0xFF f).warn
          (Claims.convertCode false rm sat F) s.chip.t.pc) 4)) := by
  obtain rfl := row_of_formats hF
  rw [Format.row_cell, Format.row_width]
  refine ⟨_, _, (packTo s.chip.t (formatOf4 fmt) rm sat (s.chip.t.getV va)).1.get,
    convertedLane_cvt s.chip.t (formatOf4 fmt) sat (s.chip.t.getV va) (roundCode_of_vfcvt wf),
    packTo_get s.chip.t (formatOf4 fmt) rm sat (s.chip.t.getV va), ?_⟩
  rw [exec_vfcvt_to, ← convertWarn_eq, ← packTo_flags]
  exact run_convert_alone hs (fun c => (packTo c.t (formatOf4 fmt) rm sat (c.t.getV va)).2) rm vd
    (fun c => (packTo c.t (formatOf4 fmt) rm sat (c.t.getV va)).1) _

/-! ## vfcvt.from (R208) -/

/-- Lane k of vfcvt.from is the conversion of its element. -/
theorem unpackFrom_cvt (f : Format) (a : Lanes Word) (k : BitVec 3) :
    Claims.Cvt (.float Claims.fp32) 0 0 false false
      (Claims.decoded f.row (Claims.packed a.get / 2 ^ (f.row.width * k.toNat) % 2 ^ f.row.width))
      ((unpackFrom f a).get k).1.toNat ((unpackFrom f a).get k).2 := by
  rw [Format.row_width, ← decodeElement_meaning f (Nat.mod_lt _ (by positivity)), ← packLanes_toNat, ← Nat.shiftRight_eq_div_pow,
    ← BitVec.toNat_ushiftRight, unpackFrom, Lanes.get_of]
  exact toFp32_cvt _ (rm := 0) (by decide) 0 false

/-- vfcvt.from (R208). -/
theorem vfcvt_from_done {rm : BitVec 3} {sat : Bool} {fmt : BitVec 4} {vd va : Reg} {F : Claims.Fmt}
    (hs : Claims.Alone s 4) (hF : Claims.formats[fmt.toNat]? = some F) :
    ∃ f fl : BitVec 3 → Word,
      (∀ k, Claims.Cvt (.float Claims.fp32) 0 0 false false (Claims.decoded F
        (Claims.packed (Claims.lane s.chip.t va) / 2 ^ (F.width * k.toNat) % 2 ^ F.width)) (f k).toNat (fl k)) ∧
      exec (.vfcvt true rm sat fmt vd va) s = .next (Claims.withThread s (Claims.past
        ((Claims.writeV (Claims.withFlags s.chip.t (Claims.union 0xFF fl)) vd 0xFF f).warn
          (Claims.convertCode true rm sat F) s.chip.t.pc) 4)) := by
  obtain rfl := row_of_formats hF
  refine ⟨_, _, unpackFrom_cvt (formatOf4 fmt) (s.chip.t.getV va), ?_⟩
  rw [exec_vfcvt_from, ← convertWarn_eq, ← activeFlags_eq]
  have run := run_convert_alone hs (fun c => activeFlags 0xFF (unpackFrom (formatOf4 fmt) (c.t.getV va))) 0 vd
    (fun c => Lanes.of fun i => ((unpackFrom (formatOf4 fmt) (c.t.getV va)).get i).1) (convertWarn true rm sat (formatOf4 fmt))
  rw [counted_zero] at run
  exact run

end

/-! ## The obligation -/

/-- Settles O10, by the rule of each instruction's lane: the exact arithmetic of the values and one rounding of the result, the
bounds of the procedures of the exponential and of the logarithm, and the packing of the elements of a conversion. -/
theorem exactFloatResults : Obligations.ExactFloatResults := by
  unfold Obligations.ExactFloatResults
  exact ⟨fun _ _ _ _ _ _ h hs => exactFloat_done h hs, fun _ _ _ _ _ _ _ op lane hrm hs => floatLane_done op lane hrm hs,
    fun _ _ _ _ _ wf hs => vfred_done wf hs, fun _ _ _ _ _ _ _ wf hs hF => vfcvt_to_done wf hs hF,
    fun _ _ _ _ _ _ _ _ hs hF => vfcvt_from_done hs hF⟩

end Sys2Proof.Machine
